-- ==== Sys2Proof/Word.lean ====
section
/-! DEFINITION. The word types of the part: the 32-bit word of the Exchange Memory (spec/11), the 24-bit
time value that rows and records show (spec/00, Time), and their plainest arithmetic. -/

namespace Sys2Proof

/-- A word of the Exchange Memory (spec/11, R182). -/
abbrev Word := BitVec 32

/-- A byte of a word, as the memory list holds it. -/
abbrev Byte := BitVec 8

/-- A value of the 24-bit time counter (spec/00, Time; R197). -/
abbrev Stamp := BitVec 24

/-- The time counter's value after `t` milliseconds since power-on reset: it wraps to 0 after 16 777 215. -/
def stampOf (t : Nat) : Stamp := BitVec.ofNat 24 t

/-- The field of `width` bits of `w` that starts at bit `low`, as a number. -/
def bitsAt (w : Word) (low width : Nat) : Nat := (w.toNat >>> low) % 2 ^ width

end Sys2Proof
end

