-- ==== Sys2Proof/Syntax.lean ====
section
/-! DEFINITION. The commands of the part, one constructor for each row of spec/opcode_table.json, with the
names their operands use: doors, windows, inputs, fobs, antennas, slots, frames, replies and self-test findings. -/

namespace Sys2Proof

/-! ### Names, in the manual's order (spec/00, Names) -/

/-- The five doors. -/
inductive Door where
  | fl | fr | rl | rr | tg
  deriving DecidableEq, Repr

/-- The four corners of the car: the windows, and the side doors with their handles and sensors. -/
inductive Corner where
  | fl | fr | rl | rr
  deriving DecidableEq, Repr

/-- The two front doors: the driver door is one of them (R198), and they carry the lock-touch sensors (R173). -/
inductive Front where
  | fl | fr
  deriving DecidableEq, Repr

/-- The seven LF antennas, in the fixed transmission order of R115. -/
inductive Antenna where
  | afl | afr | arl | arr | atg | acf | acr
  deriving DecidableEq, Repr

/-- The index of a fob record (R131). -/
inductive Fob where
  | f0 | f1 | f2 | f3
  deriving DecidableEq, Repr

/-- An order slot, 0 to 15 (R189). -/
abbrev Slot := Fin 16

/-- A window switch: the master switch of a window, or the switch on a window's own door (spec/03, 3.3). -/
inductive Switch where
  | master (c : Corner)
  | door (c : Corner)
  deriving DecidableEq, Repr

/-- The window a switch moves. -/
def Switch.window : Switch → Corner
  | .master c => c
  | .door c => c

/-- The door of a corner. -/
def Corner.toDoor : Corner → Door
  | .fl => .fl
  | .fr => .fr
  | .rl => .rl
  | .rr => .rr

/-- The corner of a front door. -/
def Front.toCorner : Front → Corner
  | .fl => .fl
  | .fr => .fr

/-- The actuators that hold drive units (R98). -/
inductive Actuator where
  | window (c : Corner)
  | latch (d : Door)
  deriving DecidableEq, Repr

/-- The inputs of R173, in the table's order. -/
inductive Input where
  | ajar (d : Door)
  | outer (c : Corner)
  | tailgate
  | inner (c : Corner)
  | touch (c : Corner)
  | lockTouch (f : Front)
  | switch (sw : Switch)
  | rocker
  | childButton
  | lockoutButton
  | ign
  | crash
  deriving DecidableEq, Repr

/-- A level of an input, by its place in the levels column of R173: `rest` is the rest level, and for a window
switch `l1` to `l4` are UP1, UP2, DOWN1 and DOWN2. -/
inductive Level where
  | rest | l1 | l2 | l3 | l4
  deriving DecidableEq, Repr

/-- The stages of a window switch (R52), in the order of R173. -/
inductive Stage where
  | neutral | up1 | up2 | down1 | down2
  deriving DecidableEq, Repr

/-- The positions of the lock rocker (R8), in the order of R173. -/
inductive Rocker where
  | centre | lock | unlock
  deriving DecidableEq, Repr

/-- The values of a door's ajar field and contact, in the order of R1. -/
inductive Ajar where
  | isOpen | isClosed
  deriving DecidableEq, Repr

/-- The nine retained records (spec/12, 12.5). -/
inductive RecordId where
  | fob (f : Fob)
  | lock
  | window (c : Corner)
  deriving DecidableEq, Repr

/-! ### One value for each name -/

/-- One value for each door. -/
structure PerDoor (α : Type) where
  fl : α
  fr : α
  rl : α
  rr : α
  tg : α
  deriving DecidableEq, Repr

/-- One value for each corner. -/
structure PerCorner (α : Type) where
  fl : α
  fr : α
  rl : α
  rr : α
  deriving DecidableEq, Repr

/-- One value for each front door. -/
structure PerFront (α : Type) where
  fl : α
  fr : α
  deriving DecidableEq, Repr

/-- One value for each antenna. -/
structure PerAntenna (α : Type) where
  afl : α
  afr : α
  arl : α
  arr : α
  atg : α
  acf : α
  acr : α
  deriving DecidableEq, Repr

/-- One value for each fob record. -/
structure PerFob (α : Type) where
  f0 : α
  f1 : α
  f2 : α
  f3 : α
  deriving DecidableEq, Repr

/-- One value for each window switch place; the driver door's own place is never used (spec/03, 3.3). -/
structure PerSwitch (α : Type) where
  master : PerCorner α
  door : PerCorner α
  deriving DecidableEq, Repr

/-- One value for each input of R173. -/
structure PerInput (α : Type) where
  ajar : PerDoor α
  outer : PerCorner α
  tailgate : α
  inner : PerCorner α
  touch : PerCorner α
  lockTouch : PerFront α
  switch : PerSwitch α
  rocker : α
  childButton : α
  lockoutButton : α
  ign : α
  crash : α
  deriving DecidableEq, Repr

/-- One value for each retained record. -/
structure PerRecord (α : Type) where
  fob : PerFob α
  lock : α
  window : PerCorner α
  deriving DecidableEq, Repr

section Containers
variable {α : Type}

def PerDoor.get (v : PerDoor α) : Door → α
  | .fl => v.fl
  | .fr => v.fr
  | .rl => v.rl
  | .rr => v.rr
  | .tg => v.tg

def PerDoor.set (v : PerDoor α) (d : Door) (x : α) : PerDoor α :=
  match d with
  | .fl => { v with fl := x }
  | .fr => { v with fr := x }
  | .rl => { v with rl := x }
  | .rr => { v with rr := x }
  | .tg => { v with tg := x }

/-- The value `f d` at every door `d`. -/
def PerDoor.build (f : Door → α) : PerDoor α := ⟨f .fl, f .fr, f .rl, f .rr, f .tg⟩

def PerCorner.get (v : PerCorner α) : Corner → α
  | .fl => v.fl
  | .fr => v.fr
  | .rl => v.rl
  | .rr => v.rr

def PerCorner.set (v : PerCorner α) (c : Corner) (x : α) : PerCorner α :=
  match c with
  | .fl => { v with fl := x }
  | .fr => { v with fr := x }
  | .rl => { v with rl := x }
  | .rr => { v with rr := x }

/-- The value `f c` at every corner `c`. -/
def PerCorner.build (f : Corner → α) : PerCorner α := ⟨f .fl, f .fr, f .rl, f .rr⟩

def PerFront.get (v : PerFront α) : Front → α
  | .fl => v.fl
  | .fr => v.fr

def PerFront.set (v : PerFront α) (f : Front) (x : α) : PerFront α :=
  match f with
  | .fl => { v with fl := x }
  | .fr => { v with fr := x }

def PerAntenna.get (v : PerAntenna α) : Antenna → α
  | .afl => v.afl
  | .afr => v.afr
  | .arl => v.arl
  | .arr => v.arr
  | .atg => v.atg
  | .acf => v.acf
  | .acr => v.acr

/-- The value `f a` at every antenna `a`. -/
def PerAntenna.build (f : Antenna → α) : PerAntenna α :=
  ⟨f .afl, f .afr, f .arl, f .arr, f .atg, f .acf, f .acr⟩

def PerFob.get (v : PerFob α) : Fob → α
  | .f0 => v.f0
  | .f1 => v.f1
  | .f2 => v.f2
  | .f3 => v.f3

def PerFob.set (v : PerFob α) (f : Fob) (x : α) : PerFob α :=
  match f with
  | .f0 => { v with f0 := x }
  | .f1 => { v with f1 := x }
  | .f2 => { v with f2 := x }
  | .f3 => { v with f3 := x }

/-- The value `f i` at every fob index `i`. -/
def PerFob.build (f : Fob → α) : PerFob α := ⟨f .f0, f .f1, f .f2, f .f3⟩

def PerSwitch.get (v : PerSwitch α) : Switch → α
  | .master c => v.master.get c
  | .door c => v.door.get c

def PerSwitch.set (v : PerSwitch α) (sw : Switch) (x : α) : PerSwitch α :=
  match sw with
  | .master c => { v with master := v.master.set c x }
  | .door c => { v with door := v.door.set c x }

def PerInput.get (v : PerInput α) : Input → α
  | .ajar d => v.ajar.get d
  | .outer c => v.outer.get c
  | .tailgate => v.tailgate
  | .inner c => v.inner.get c
  | .touch c => v.touch.get c
  | .lockTouch f => v.lockTouch.get f
  | .switch sw => v.switch.get sw
  | .rocker => v.rocker
  | .childButton => v.childButton
  | .lockoutButton => v.lockoutButton
  | .ign => v.ign
  | .crash => v.crash

def PerInput.set (v : PerInput α) (i : Input) (x : α) : PerInput α :=
  match i with
  | .ajar d => { v with ajar := v.ajar.set d x }
  | .outer c => { v with outer := v.outer.set c x }
  | .tailgate => { v with tailgate := x }
  | .inner c => { v with inner := v.inner.set c x }
  | .touch c => { v with touch := v.touch.set c x }
  | .lockTouch f => { v with lockTouch := v.lockTouch.set f x }
  | .switch sw => { v with switch := v.switch.set sw x }
  | .rocker => { v with rocker := x }
  | .childButton => { v with childButton := x }
  | .lockoutButton => { v with lockoutButton := x }
  | .ign => { v with ign := x }
  | .crash => { v with crash := x }

/-- The value `f c` at every switch place. -/
def PerSwitch.build (f : Switch → α) : PerSwitch α :=
  ⟨.build fun c => f (.master c), .build fun c => f (.door c)⟩

/-- The value `f i` at every input `i`. -/
def PerInput.build (f : Input → α) : PerInput α where
  ajar := .build fun d => f (.ajar d)
  outer := .build fun c => f (.outer c)
  tailgate := f .tailgate
  inner := .build fun c => f (.inner c)
  touch := .build fun c => f (.touch c)
  lockTouch := ⟨f (.lockTouch .fl), f (.lockTouch .fr)⟩
  switch := .build fun sw => f (.switch sw)
  rocker := f .rocker
  childButton := f .childButton
  lockoutButton := f .lockoutButton
  ign := f .ign
  crash := f .crash

def PerRecord.get (v : PerRecord α) : RecordId → α
  | .fob f => v.fob.get f
  | .lock => v.lock
  | .window c => v.window.get c

/-- The value `f r` at every retained record `r`. -/
def PerRecord.build (f : RecordId → α) : PerRecord α :=
  ⟨.build fun i => f (.fob i), f .lock, .build fun c => f (.window c)⟩

end Containers

/-- All doors, in the manual's order. -/
def Door.all : List Door := [.fl, .fr, .rl, .rr, .tg]

/-- All corners, in the manual's order. -/
def Corner.all : List Corner := [.fl, .fr, .rl, .rr]

/-- All antennas, in transmission order (R115). -/
def Antenna.all : List Antenna := [.afl, .afr, .arl, .arr, .atg, .acf, .acr]

/-- All fob indices. -/
def Fob.all : List Fob := [.f0, .f1, .f2, .f3]

/-- All window switch places. -/
def Switch.all : List Switch := Corner.all.map .master ++ Corner.all.map .door

/-- All inputs, in the order of R173. -/
def Input.all : List Input :=
  Door.all.map .ajar ++ Corner.all.map .outer ++ [.tailgate] ++ Corner.all.map .inner ++ Corner.all.map .touch ++
    [.lockTouch .fl, .lockTouch .fr] ++ Switch.all.map .switch ++
    [.rocker, .childButton, .lockoutButton, .ign, .crash]

/-- All retained records, in the order of spec/12, 12.5. -/
def RecordId.all : List RecordId := Fob.all.map .fob ++ [.lock] ++ Corner.all.map .window

/-! ### Operands -/

/-- The two levels of the DRIVER-SIDE strap (R198). -/
inductive Strap where
  | ground | supply
  deriving DecidableEq, Repr

/-- The register select of a register burst (spec/11, 11.6). -/
inductive Register where
  | status | control
  deriving DecidableEq, Repr

/-- A word the host sends, with whether the parity bit the link sets for it fits (R186). -/
structure HostWord where
  value : Word
  sound : Bool
  deriving DecidableEq, Repr

/-- Where an order is posted: its slot, its host tag, and whether the head word's parity fits (R189, R186). -/
structure OrderHead where
  slot : Slot
  tag : BitVec 8
  sound : Bool
  deriving DecidableEq, Repr

/-- The result of a check the Fob Service computes from a record's secret (spec/00, Scope; R134, R142). -/
inductive Check where
  | pass | fail
  deriving DecidableEq, Repr

/-- The fob buttons (spec/07, 7.2). -/
inductive Button where
  | lock | unlock | tailgate
  deriving DecidableEq, Repr

/-- A remote button frame (spec/07, 7.2), with its check code as the result it gives. -/
structure Frame where
  id : Word
  button : Button
  counter : BitVec 28
  rep : BitVec 4
  check : Check
  deriving DecidableEq, Repr

/-- A search reply (R116), with its response as the result it gives. -/
structure Reply where
  id : Word
  strengths : PerAntenna (BitVec 8)
  check : Check
  deriving DecidableEq, Repr

/-- What the DRIVERS stage finds (R198, R199). -/
structure DriversFindings where
  supplyFault : Bool
  bridges : PerCorner Bool
  latches : PerDoor Bool
  deriving DecidableEq, Repr

/-- What the INPUTS stage finds (R198, R199). -/
structure InputsFindings where
  inputs : PerInput Bool
  halls : PerCorner Bool
  deriving DecidableEq, Repr

/-- What the STORE stage finds of the stored copies (R208): whether the store answers, and which copies fail
their check. -/
structure StoreFindings where
  answers : Bool
  newerUnsound : PerRecord Bool
  olderUnsound : PerRecord Bool
  deriving DecidableEq, Repr

/-- The commands, one for each row of spec/opcode_table.json, in its order. -/
inductive Instr where
  | powerOnReset (strap : Strap)
  | portReset
  | wake
  | registerWrite (sel : Register) (value : Word)
  | registerRead (sel : Register)
  | memoryRead (start : BitVec 10) (count : Nat)
  | memoryWrite (start : BitVec 10) (words : List HostWord)
  | writeOn (words : List HostWord)
  | unknownCommand (kind : BitVec 3)
  | lockDoors (head : OrderHead) (action mask : HostWord)
  | setChildLock (head : OrderHead) (doors action : HostWord)
  | releaseLatch (head : OrderHead) (door : HostWord)
  | moveWindow (head : OrderHead) (window target position : HostWord)
  | setWindowLockout (head : OrderHead) (wanted : HostWord)
  | learnWindow (head : OrderHead) (window : HostWord)
  | locateFob (head : OrderHead) (antennas : HostWord)
  | enrolFob (head : OrderHead) (index : HostWord)
  | dismissFob (head : OrderHead) (index : HostWord)
  | suspendFob (head : OrderHead) (index resume : HostWord)
  | comfortClose (head : OrderHead)
  | comfortOpen (head : OrderHead)
  | vent (head : OrderHead)
  | releaseCrash (head : OrderHead)
  | reconfigure (head : OrderHead)
  | driversStageEnd (found : DriversFindings)
  | inputsStageEnd (found : InputsFindings)
  | memoryStageEnd (fault : Bool)
  | storeStageEnd (found : StoreFindings)
  | antennasStageEnd (faulty : PerAntenna Bool)
  | receiverStageEnd (faulty : Bool)
  | timeBaseCheck (refMicros : Nat)
  | dozeDwellExpiry
  | listenWindow
  | woke
  | commitStart
  | commitEnd
  | rawInputChange (input : Input) (level : Level)
  | ajarChange (door : Door) (ajar : Ajar)
  | outerPull (corner : Corner) (pulled : Bool)
  | tailgateButton (pressed : Bool)
  | innerHandlePull (corner : Corner) (pulled : Bool)
  | outerTouch (corner : Corner) (touched : Bool)
  | lockTouch (front : Front) (touched : Bool)
  | windowSwitchChange (switch : Switch) (stage : Stage)
  | lockRocker (position : Rocker)
  | childLockButton (pressed : Bool)
  | lockoutButton (pressed : Bool)
  | ignChange (on : Bool)
  | inputStuck (input : Input)
  | crashLineChange (asserted : Bool)
  | crashEvent
  | batteryMeasurement (millivolts : Nat)
  | relockExpiry
  | grantFromHead
  | waitLimitExpiry (actuator : Actuator)
  | latchPulseExpiry (door : Door)
  | confirmExpiry (door : Door)
  | hallPulse (window : Corner) (highMicros : Nat) (micros : Nat)
  | coastEnd (window : Corner)
  | softStartEnd (window : Corner)
  | stallExpiry (window : Corner)
  | rereferenceWatchExpiry (window : Corner)
  | forceArmedExpiry (window : Corner)
  | heatRise (window : Corner)
  | heatFall (window : Corner)
  | searchStart
  | antennaTransmissionEnd
  | replySlotEnd
  | searchReply (reply : Reply)
  | searchCompletion
  | remoteFrame (frame : Frame)
  | holdTrackerExpiry (fob : Fob)
  | partWordParityError
  deriving DecidableEq, Repr

end Sys2Proof
end

