-- ==== Sys2Proof/Config.lean ====
section
/-! DEFINITION. What an adoption of the Configuration Page fixes (spec/11, 11.6), the defaults of the chapters, and
the free values the manual leaves open. -/

namespace Sys2Proof

/-- The configuration in force, one field for each item of the Configuration Page (spec/11, 11.6), in its order and
its units: milliseconds, counts, percent, millivolts, drive units, 100 Hz for the PWM frequency and 0.1 ms for the
absolute period limit. -/
structure Config where
  relockTime : Nat
  selectiveUnlock : Bool
  entryUnlocksAll : Bool
  driveAwayLock : Bool
  unlockAtIgnitionOff : Bool
  latchPulse : Nat
  confirmWindow : Nat
  pwmFrequency : Nat
  rampTime : Nat
  softStopOffset : Nat
  slowZone : Nat
  ventDepth : Nat
  pinchZone : Nat
  absoluteLimit : Nat
  pinchRatio : Nat
  forceRatio : Nat
  reversalDistance : Nat
  heatLimit : Nat
  heatResume : Nat
  lowEntry : Nat
  lowExit : Nat
  criticalEntry : Nat
  criticalExit : Nat
  normalBudget : Nat
  lowBudget : Nat
  dozeDwell : Nat
  receiverPeriod : Nat
  insideThreshold : Nat
  outsideThreshold : Nat
  wakeTouch : Bool
  wakePulls : Bool
  wakeSwitches : Bool
  wakeRocker : Bool
  wakeTailgate : Bool
  deriving DecidableEq, Repr

/-- The defaults of each chapter's configuration table; in force from power-on reset until the first adoption (R96,
R162, R181; for the other items log 13). -/
def Config.default : Config where
  relockTime := 45000
  selectiveUnlock := false
  entryUnlocksAll := false
  driveAwayLock := true
  unlockAtIgnitionOff := true
  latchPulse := 200
  confirmWindow := 300
  pwmFrequency := 200
  rampTime := 100
  softStopOffset := 8
  slowZone := 80
  ventDepth := 200
  pinchZone := 300
  absoluteLimit := 60
  pinchRatio := 25
  forceRatio := 50
  reversalDistance := 400
  heatLimit := 1200
  heatResume := 900
  lowEntry := 11000
  lowExit := 11600
  criticalEntry := 9000
  criticalExit := 9600
  normalBudget := 8
  lowBudget := 4
  dozeDwell := 30000
  receiverPeriod := 100
  insideThreshold := 140
  outsideThreshold := 70
  wakeTouch := true
  wakePulls := true
  wakeSwitches := true
  wakeRocker := true
  wakeTailgate := true

/-- The 32-bit challenge the part's random source gives for its `n`-th search (R114): a FREE VALUE, nothing
constrains it (log 10). -/
opaque Config.challenge : Nat → Word

end Sys2Proof
end

