-- ==== Sys2Proof/Machine/State.lean ====
section
/-! DEFINITION. The state of the part as plain data, its faults and refusals, and the state after reset. Times are
held as milliseconds since power-on (log 2); the 24-bit counter value is `stampOf` of them. -/

namespace Sys2Proof.Machine

/-- The stops of the machine: none. The spec gives every command an effect in every part state. -/
inductive Fault where
  deriving DecidableEq, Repr

/-- The refusals. `notModelled` stands for a command without a meaning; no arm of `exec` answers with it. Safe. -/
inductive Refusal where
  | notModelled (mnemonic : String)
  deriving DecidableEq, Repr

/-! ### Part Control (spec/12) -/

/-- The full self-test follows a power-on reset (R198), the short one a port reset (R200). -/
inductive SelfTest where
  | full | short
  deriving DecidableEq, Repr

/-- The self-test stages, codes 7 to 2 (R198). -/
inductive TestStage where
  | drivers | inputs | memory | store | antennas | receiver
  deriving DecidableEq, Repr

/-- Why the part is in SAFE-HOLD: hold codes 1 to 5 (R199, R205). -/
inductive HoldCode where
  | memoryFault | supplyFault | storeFault | parityFault | timeBaseFault
  deriving DecidableEq, Repr

/-- The part states (R197), with what the stage code and the hold code show. -/
inductive PartState where
  | start (test : SelfTest) (stage : TestStage)
  | held
  | service
  | doze
  | safeHold (code : HoldCode)
  deriving DecidableEq, Repr

/-- The degraded map (R199): one entry for each piece of hardware a self-test judges. -/
structure Degraded where
  bridges : PerCorner Bool
  halls : PerCorner Bool
  latches : PerDoor Bool
  inputs : PerInput Bool
  antennas : PerAntenna Bool
  receiver : Bool
  records : PerRecord Bool
  deriving DecidableEq, Repr

/-- The configuration check result (R197). -/
inductive CheckResult where
  | notRun
  | passed
  | failed (check : Nat)
  deriving DecidableEq, Repr

/-- The cause of a WOKE row (R204). -/
inductive WakeCause where
  | frame (f : Fob)
  | input (i : Input)
  | crash
  | wakeWrite
  | link
  deriving DecidableEq, Repr

/-- An event held from a wake request until SERVICE (R180, R147). -/
inductive HeldEvent where
  | input (i : Input) (old new : Level)
  | frame (f : Frame) (taken : Nat)
  deriving DecidableEq, Repr

/-- A wake in progress (R180, R204, R170, R200). -/
structure Waking where
  cause : WakeCause
  since : Nat
  held : List HeldEvent
  crashHeld : Bool
  resetHeld : Bool
  deriving DecidableEq, Repr

/-- The receiver's listen windows in DOZE (R203). -/
structure Listen where
  period : Nat
  next : Nat
  openUntil : Option Nat
  deriving DecidableEq, Repr

/-! ### Inputs (spec/10) -/

/-- One input of R173: raw and debounced level, the start of the debounce count, the stuck timer's expiry and the
stuck flag. -/
structure InputRec where
  raw : Level
  level : Level
  since : Option Nat
  stuckAt : Option Nat
  stuck : Bool
  deriving DecidableEq, Repr

/-! ### Doors (spec/01) -/

inductive LockState where
  | unlocked | locked | deadlocked | lockPending
  deriving DecidableEq, Repr

inductive LockAction where
  | lock | unlock | deadlock
  deriving DecidableEq, Repr

inductive ReleaseOutcome where
  | opened | held | budgetTimeout | abortedSupply
  deriving DecidableEq, Repr

inductive LatchFault where
  | sound | held | driver
  deriving DecidableEq, Repr

inductive ChildLock where
  | released | engaged
  deriving DecidableEq, Repr

/-- A door record (R1) but for the child lock and the release state, which have their own homes. -/
structure DoorRec where
  lock : LockState
  ajar : Ajar
  outcome : Option ReleaseOutcome
  fault : LatchFault
  pull : Bool
  deriving DecidableEq, Repr

/-- The buttons that make lock actions and hold sessions (R11, R140). -/
inductive LockButton where
  | lock | unlock
  deriving DecidableEq, Repr

/-- A remote press record that is not empty (R11): it holds a time counter value. -/
structure PressRecord where
  button : LockButton
  time : Stamp
  deriving DecidableEq, Repr

inductive Vehicle where
  | standstill | rolling | moving
  deriving DecidableEq, Repr

/-- What the provisional period of R27 has settled. -/
structure Settling where
  doors : PerDoor Bool
  childRL : Bool
  childRR : Bool
  deriving DecidableEq, Repr

/-- The Door and Lock Controller's state (R1, R11, R17, R21, R22, R23, R27). -/
structure Doors where
  recs : PerDoor DoorRec
  childRL : ChildLock
  childRR : ChildLock
  relock : Option Nat
  press : Option PressRecord
  driveAway : Bool
  vehicle : Vehicle
  ign : Bool
  settling : Option Settling
  deriving DecidableEq, Repr

/-! ### Latch releases (spec/02) -/

inductive ReleaseState where
  | waiting | pulsing | confirming | retry
  deriving DecidableEq, Repr

inductive ReleasePrecedence where
  | release | escape
  deriving DecidableEq, Repr

inductive ReleaseSource where
  | outer | inner | tgButton | remoteTg | order
  deriving DecidableEq, Repr

/-- A set of release sources (R30). -/
structure SourceSet where
  outer : Bool
  inner : Bool
  tgButton : Bool
  remoteTg : Bool
  order : Bool
  deriving DecidableEq, Repr

/-- A release operation in flight (R30); `second` says that it is on attempt 2, `timer` is the pulse or confirm
timer's expiry. -/
structure ReleaseOp where
  state : ReleaseState
  second : Bool
  prec : ReleasePrecedence
  sources : SourceSet
  orders : List Slot
  timer : Option Nat
  deriving DecidableEq, Repr

/-! ### Windows (spec/03, spec/04) -/

inductive Motion where
  | stopped | opening | closing | reversing
  deriving DecidableEq, Repr

inductive Mode where
  | manual | express | target
  deriving DecidableEq, Repr

inductive Direction where
  | opening | closing
  deriving DecidableEq, Repr

inductive Mover where
  | doorSwitch
  | masterSwitch
  | order (slot : Slot)
  | sequencer
  deriving DecidableEq, Repr

/-- The stop reasons, in the order of R49. -/
inductive StopReason where
  | atEnd | target | switchReleased | pinch | stall | preempted | supply | crash | cancelled | overridden | reset
  | thermalStartRefused
  deriving DecidableEq, Repr

/-- A move command (R58): `forExpress` marks a MANUAL that stands for a refused EXPRESS (R54). -/
structure Command where
  dir : Direction
  mode : Mode
  mover : Mover
  target : Option Nat
  forExpress : Bool
  deriving DecidableEq, Repr

/-- A pending command with its request time (R61). -/
structure Pending where
  cmd : Command
  since : Nat
  deriving DecidableEq, Repr

/-- A coast (R50): when it ends, and the direction last driven. -/
structure Coast where
  ends : Nat
  dir : Direction
  deriving DecidableEq, Repr

/-- A soft start in progress (R66). -/
structure Ramp where
  start : Nat
  finish : Nat
  deriving DecidableEq, Repr

/-- A window record (R49) with the controller's own counters (R50, R51, R64, R66, R67). `lastPulse` is the time of
the last counted pulse of the move in microseconds. -/
structure WindowRec where
  position : Nat
  travel : Nat
  learned : Bool
  motion : Motion
  mode : Option Mode
  target : Option Nat
  mover : Option Mover
  forExpress : Bool
  pending : Option Pending
  heat : Nat
  energised : Nat
  idle : Nat
  thermal : Bool
  pinchLockout : Bool
  lastStop : Option StopReason
  movingFlag : Bool
  coast : Option Coast
  lastPulse : Option Nat
  ramp : Option Ramp
  deriving DecidableEq, Repr

inductive CloseKind where
  | manual | other
  deriving DecidableEq, Repr

structure PinchEntry where
  time : Nat
  kind : CloseKind
  deriving DecidableEq, Repr

/-- A re-reference watch (R89). -/
structure Watch where
  switch : Switch
  expiry : Nat
  deriving DecidableEq, Repr

inductive LearnPhase where
  | pending | down | up
  deriving DecidableEq, Repr

/-- A learn operation (R91); `crash`: a crash event was taken in its phase DOWN (R92, R93; log 80). -/
structure Learn where
  phase : LearnPhase
  slot : Slot
  count : Nat
  crash : Bool
  deriving DecidableEq, Repr

/-- What the Pinch and Travel Monitor keeps for a window (R76); periods in microseconds; `floor` is the start of
the drive plus 200 ms (R85). -/
structure MonitorRec where
  baseline : List Nat
  settled : Bool
  stallAt : Option Nat
  floor : Nat
  history : List PinchEntry
  forceArmed : Option Nat
  forceInUse : Bool
  reversalTarget : Option Nat
  watch : Option Watch
  learn : Option Learn
  deriving DecidableEq, Repr

/-! ### The arbiter (spec/05) -/

inductive Precedence where
  | window | release | escape
  deriving DecidableEq, Repr

inductive GrantKind where
  | freeUnit | preempted | overBudget | withinBudget
  deriving DecidableEq, Repr

/-- An entry of the holders list (R98). -/
structure Holder where
  actuator : Actuator
  units : Nat
  prec : Precedence
  since : Nat
  kind : GrantKind
  deriving DecidableEq, Repr

/-- An entry of the waiting list (R99). -/
structure Waiter where
  actuator : Actuator
  units : Nat
  prec : Precedence
  since : Nat
  limit : Nat
  deriving DecidableEq, Repr

/-! ### The Key Locator (spec/06) -/

inductive Purpose where
  | entry | lock | tailgate | locate
  deriving DecidableEq, Repr

inductive Zone where
  | inside | outLeft | outRight | outRear | nowhere
  deriving DecidableEq, Repr

inductive ReplyState where
  | noReply | pass | fail
  deriving DecidableEq, Repr

/-- A search request (R110); `orders` is a set, kept in slot order; `antennas` is present for LOCATE. -/
structure Request where
  purpose : Purpose
  door : Option Door
  antennas : Option (PerAntenna Bool)
  orders : List Slot
  opened : Bool
  since : Nat
  deriving DecidableEq, Repr

/-- A per-fob result (R114), with the time of its reply. -/
structure FobResult where
  reply : ReplyState
  id : Word
  strengths : PerAntenna (BitVec 8)
  zone : Option Zone
  time : Nat
  deriving DecidableEq, Repr

inductive SearchPhase where
  | transmit (a : Antenna)
  | reply (slot : Fob)
  deriving DecidableEq, Repr

/-- The search in flight (R114); `phaseEnd` is when the antenna's transmission or the reply slot ends. -/
structure Flight where
  request : Request
  used : PerAntenna Bool
  since : Nat
  phase : SearchPhase
  phaseEnd : Nat
  challenge : Word
  results : PerFob FobResult
  deriving DecidableEq, Repr

/-- The Key Locator: the search list, the search in flight, and how many challenges it has drawn (log 10). -/
structure Locator where
  list : List Request
  flight : Option Flight
  draws : Nat
  deriving DecidableEq, Repr

/-! ### The Fob Service (spec/07) -/

inductive FobState where
  | vacant | enrolled | suspended
  deriving DecidableEq, Repr

/-- The retained fields of a fob record (R132). -/
structure FobKeep where
  state : FobState
  id : Word
  secret : BitVec 128
  counter : BitVec 28
  run : Nat
  blocked : Bool
  permitted : Bool
  deriving DecidableEq, Repr

structure Candidate where
  counter : BitVec 28
  time : Nat
  deriving DecidableEq, Repr

structure LastFrame where
  counter : BitVec 28
  rep : BitVec 4
  time : Nat
  deriving DecidableEq, Repr

/-- A hold tracker (R140), with its button and press time. -/
inductive Tracker where
  | idle
  | tracking (button : LockButton) (since : Nat)
  | session (button : LockButton) (since : Nat)
  | spent (button : LockButton) (since : Nat)
  deriving DecidableEq, Repr

/-- The order that waits for the record's commit, and whether a commit with its change has begun (R146). -/
structure FobWait where
  slot : Slot
  begun : Bool
  deriving DecidableEq, Repr

/-- A fob record (R131). -/
structure FobRec where
  keep : FobKeep
  zone : Zone
  lastSeen : Option Nat
  candidate : Option Candidate
  lastFrame : Option LastFrame
  tracker : Tracker
  waits : Option FobWait
  deriving DecidableEq, Repr

/-! ### The Closure Sequencer (spec/08) -/

inductive OpKind where
  | comfortClose | comfortOpen | vent
  deriving DecidableEq, Repr

inductive Origin where
  | order (slot : Slot)
  | hold (f : Fob)
  deriving DecidableEq, Repr

inductive EntryState where
  | waiting | moving | done | skipped
  deriving DecidableEq, Repr

/-- The reasons an entry holds (R152 to R154, R156, R157), in the order log 18 codes them. -/
inductive EntryReason where
  | outOfService | unlearned | thermal | crashLatch | busy | atEnd | target | pinch | stall | preempted | supply
  | overridden | budgetTimeout | crash | reset | switchReleased | cancelled
  deriving DecidableEq, Repr

structure Entry where
  state : EntryState
  target : Option Nat
  reason : Option EntryReason
  deriving DecidableEq, Repr

inductive OpOutcome where
  | completed | partway | cancelled | crash
  deriving DecidableEq, Repr

structure Ended where
  outcome : OpOutcome
  time : Nat
  deriving DecidableEq, Repr

/-- The operation record while RUNNING (`ended` absent) or ENDED (R149). -/
structure Operation where
  kind : OpKind
  origin : Origin
  since : Nat
  lock : Option LockAction
  entries : PerCorner Entry
  ended : Option Ended
  deriving DecidableEq, Repr

/-! ### Supply and crash (spec/09) -/

inductive SupplyClass where
  | normal | low | critical
  deriving DecidableEq, Repr

structure SupplyCandidate where
  cls : SupplyClass
  count : Nat
  deriving DecidableEq, Repr

/-- The supply record (R161); `first` collects the readings of the power-on DRIVERS stage (R165). -/
structure Supply where
  cls : SupplyClass
  millivolts : Nat
  candidate : Option SupplyCandidate
  first : List Nat
  deriving DecidableEq, Repr

/-- What a set crash latch holds (R169). -/
structure CrashLatch where
  since : Nat
  count : Nat
  deriving DecidableEq, Repr

/-- The assertion record (R166). -/
structure Assertion where
  since : Nat
  taken : Bool
  deriving DecidableEq, Repr

structure Crash where
  latch : Option CrashLatch
  assertion : Option Assertion
  deriving DecidableEq, Repr

/-! ### The Exchange Port, the Order Board and the Report Scroll (spec/11) -/

/-- The Exchange Port: the bytes of the stored words 272 to 1023 but the slot heads, the words whose parity does
not fit, and the port's own registers. `sent` is what the last read burst sent (log 46). -/
structure Port where
  memory : List Host.Cell
  parity : List Host.Cell
  served : Bool
  misuse : Bool
  pointer : BitVec 10
  mask : Word
  vehicleWord : Word
  sent : List Word
  deriving DecidableEq, Repr

inductive SlotState where
  | free | posted | taken | cancelAsked | done | refused
  deriving DecidableEq, Repr

/-- A slot's head (R189). -/
structure Head where
  state : SlotState
  kind : BitVec 5
  tag : BitVec 8
  code : BitVec 8
  deriving DecidableEq, Repr

/-- The Report Scroll (R193); bit `k` of `mark` is the class with code `k`. -/
structure Scroll where
  start : Nat
  unread : Nat
  mark : BitVec 16
  deriving DecidableEq, Repr

/-! ### The Retained Store (spec/12) -/

/-- What a window's retained record holds (R73). -/
structure WindowKeep where
  travel : Nat
  position : Nat
  learned : Bool
  moving : Bool
  deriving DecidableEq, Repr

/-- What the lock record holds (R26). -/
structure LockKeep where
  locks : PerDoor LockState
  childRL : ChildLock
  childRR : ChildLock
  lockout : Bool
  deriving DecidableEq, Repr

/-- The contents of a commit (R207). -/
inductive Content where
  | fob (f : Fob) (k : FobKeep)
  | lock (k : LockKeep)
  | window (c : Corner) (k : WindowKeep)
  deriving DecidableEq, Repr

/-- The two stored copies of a record; absent means never written (R208). -/
structure Copies (α : Type) where
  newer : Option α
  older : Option α
  deriving DecidableEq, Repr

structure StoredCopies where
  fobs : PerFob (Copies FobKeep)
  lock : Copies LockKeep
  windows : PerCorner (Copies WindowKeep)
  deriving DecidableEq, Repr

/-- A commit under way (R207). -/
structure Commit where
  content : Content
  due : Nat
  changed : Bool
  deriving DecidableEq, Repr

/-- The Retained Store; `ready` says that a STORE stage has ended since power-on (R207). -/
structure Store where
  copies : StoredCopies
  dirty : List RecordId
  commit : Option Commit
  ready : Bool
  bad : Nat
  deriving DecidableEq, Repr

/-! ### The whole -/

/-- Everything the part holds. -/
structure Part where
  clock : Nat
  driverDoor : Front
  state : PartState
  degraded : Degraded
  check : CheckResult
  dwell : Option Nat
  waking : Option Waking
  listen : Option Listen
  timeBaseBad : Bool
  inputs : PerInput InputRec
  doors : Doors
  latches : PerDoor (Option ReleaseOp)
  windows : PerCorner WindowRec
  lockout : Bool
  spent : PerSwitch Bool
  monitors : PerCorner MonitorRec
  holders : List Holder
  waiting : List Waiter
  locator : Locator
  fobs : PerFob FobRec
  operation : Option Operation
  supply : Supply
  crash : Crash
  port : Port
  heads : Vector Head 16
  scroll : Scroll
  store : Store
  cfg : Config
  deriving DecidableEq, Repr

/-- The machine: the part, and the queue of commands that wait for it (log 1). -/
structure State where
  part : Part
  pending : List Instr
  deriving DecidableEq, Repr

/-! ### The values after a power-on reset -/

/-- The same value at every place. -/
def PerDoor.all {α : Type} (x : α) : PerDoor α := .build fun _ => x
def PerCorner.all {α : Type} (x : α) : PerCorner α := .build fun _ => x
def PerAntenna.all {α : Type} (x : α) : PerAntenna α := .build fun _ => x
def PerFob.all {α : Type} (x : α) : PerFob α := .build fun _ => x
def PerSwitch.all {α : Type} (x : α) : PerSwitch α := .build fun _ => x
def PerInput.all {α : Type} (x : α) : PerInput α := .build fun _ => x
def PerRecord.all {α : Type} (x : α) : PerRecord α := .build fun _ => x

/-- No hardware found faulty (log 13). -/
def Degraded.none : Degraded :=
  ⟨PerCorner.all false, PerCorner.all false, PerDoor.all false, PerInput.all false, PerAntenna.all false, false,
    PerRecord.all false⟩

/-- An input's record after power-on, its raw level being `raw` (R181). -/
def InputRec.fresh (raw : Level) : InputRec := ⟨raw, .rest, none, none, false⟩

/-- A door record in the provisional state, its ajar sample taken later (R27, log 13). -/
def DoorRec.fresh : DoorRec := ⟨.locked, .isClosed, none, .sound, false⟩

/-- The Door and Lock Controller in the provisional state (R27). -/
def Doors.fresh : Doors :=
  ⟨PerDoor.all .fresh, .engaged, .engaged, none, none, false, .standstill, false,
    some ⟨PerDoor.all false, false, false⟩⟩

/-- A window after power-on, before the STORE stage delivers its record (R74, log 13). -/
def WindowRec.fresh : WindowRec where
  position := 0
  travel := 0
  learned := false
  motion := .stopped
  mode := none
  target := none
  mover := none
  forExpress := false
  pending := none
  heat := 0
  energised := 0
  idle := 0
  thermal := false
  pinchLockout := false
  lastStop := none
  movingFlag := false
  coast := none
  lastPulse := none
  ramp := none

/-- The monitor's record of a window after power-on (R95). -/
def MonitorRec.fresh : MonitorRec := ⟨[], false, none, 0, [], none, false, none, none, none⟩

/-- The retained fields of an EMPTY fob record (R131). -/
def FobKeep.vacant : FobKeep := ⟨.vacant, 0, 0, 0, 0, false, false⟩

/-- A fob record with the retained fields `k` and its other fields cleared (R148). -/
def FobRec.restored (k : FobKeep) : FobRec := ⟨k, .nowhere, none, none, none, .idle, none⟩

/-- A free slot (R189). -/
def Head.free : Head := ⟨.free, 0, 0, 0⟩

/-- The Exchange Port after power-on: nothing stored, not served, the pointer at 256 (R182, R183, R184, R188). -/
def Port.fresh : Port := ⟨[], [], false, false, 256, 0, 0, []⟩

/-- A record neither of whose copies was ever written (R208). -/
def Copies.blank {α : Type} : Copies α := ⟨none, none⟩

def StoredCopies.blank : StoredCopies := ⟨PerFob.all .blank, .blank, PerCorner.all .blank⟩

/-- The part right after a power-on reset that reads `driver` from the strap, finds the raw levels `raw` and the
retained copies `copies`, and has drawn `draws` challenges before. -/
def Part.poweredOn (driver : Front) (raw : PerInput Level) (copies : StoredCopies) (draws : Nat) : Part where
  clock := 0
  driverDoor := driver
  state := .start .full .drivers
  degraded := .none
  check := .notRun
  dwell := none
  waking := none
  listen := none
  timeBaseBad := false
  inputs := .build fun i => .fresh (raw.get i)
  doors := .fresh
  latches := PerDoor.all none
  windows := PerCorner.all .fresh
  lockout := false
  spent := PerSwitch.all false
  monitors := PerCorner.all .fresh
  holders := []
  waiting := []
  locator := ⟨[], none, draws⟩
  fobs := PerFob.all (.restored .vacant)
  operation := none
  supply := ⟨.normal, 0, none, []⟩
  crash := ⟨none, none⟩
  port := .fresh
  heads := Vector.replicate 16 .free
  scroll := ⟨0, 0, 0⟩
  store := ⟨copies, [], none, false, 0⟩
  cfg := .default

/-- The machine right after reset: the strap tied to ground, every input at rest, blank retained records (log 13),
and no command waiting. -/
def State.reset : State := ⟨Part.poweredOn .fl (PerInput.all .rest) .blank 0, []⟩

end Sys2Proof.Machine
end

