-- ==== Sys2Proof/Machine/Rows.lean ====
section
/-! DEFINITION. Fields and their packing (spec/11, 11.6), the codes of values, and every report row of the
chapters' report code tables. -/

namespace Sys2Proof.Machine

/-! ### Fields (11.6): a width in bits and a value -/

structure Field where
  width : Nat
  value : Nat
  deriving DecidableEq, Repr

/-- The fewest bits that hold `n` codes. -/
def bitsFor (n : Nat) : Nat := Nat.log2 (n - 1) + 1

/-- A number of at most `width` bits. -/
def numField (width v : Nat) : Field := ⟨width, v % 2 ^ width⟩

/-- A number of at most `width` bits, absent as all ones. -/
def numOrAbsent (width : Nat) : Option Nat → Field
  | none => ⟨width, 2 ^ width - 1⟩
  | some v => numField width v

/-- One of `n` values, by its code. -/
def codeField (n code : Nat) : Field := numField (bitsFor n) code

/-- One of `n` values by its code, or absent as all ones. -/
def codeOrAbsent (n : Nat) (code : Option Nat) : Field := numOrAbsent (bitsFor (n + 1)) code

/-- A flag: 1 is set (log 17). -/
def flagField (b : Bool) : Field := ⟨1, b.toNat⟩

/-- A time, as its 24-bit counter value (11.6). -/
def timeField (t : Nat) : Field := ⟨24, (stampOf t).toNat⟩

/-- A time that may be absent: one bit more, so that all ones is no time (log 15). -/
def timeOrAbsent : Option Nat → Field
  | none => numOrAbsent 25 none
  | some t => ⟨25, (stampOf t).toNat⟩

/-- One of the values the manual lists with its first value first (on or set before off or clear, log 15). -/
def onOff (b : Bool) : Field := ⟨1, (!b).toNat⟩

/-- Fields packed from bit `pos` of `cur` upwards; one that would cross into the next word begins that word (11.6). -/
def packFrom : List Field → Nat → Word → List Word
  | [], _, cur => [cur]
  | f :: fs, pos, cur =>
    if pos + f.width ≤ 32 then packFrom fs (pos + f.width) (cur ||| BitVec.ofNat 32 (f.value <<< pos))
    else cur :: packFrom fs f.width (BitVec.ofNat 32 f.value)

/-- Exactly `n` words: the packed fields, then zeros. -/
def packWords (n : Nat) (fs : List Field) : List Word := (packFrom fs 0 0 ++ List.replicate n 0).take n

/-- The word the fields fill (the first, where they fill more). -/
def packWord (fs : List Field) : Word := (packFrom fs 0 0).headD 0

/-! ### Sets and codes of values -/

/-- A set's value: one bit per member, the first member lowest (11.6). -/
def setValue : List Bool → Nat
  | [] => 0
  | b :: l => b.toNat + 2 * setValue l

/-- A set is one field (11.6): it stands whole in one word. -/
def setField (l : List Bool) : Field := ⟨l.length, setValue l⟩

def doorSet (v : PerDoor Bool) : Field := setField (Door.all.map v.get)
def antennaSet (v : PerAntenna Bool) : Field := setField (Antenna.all.map v.get)
def sourceSet (s : SourceSet) : Field := setField [s.outer, s.inner, s.tgButton, s.remoteTg, s.order]
def slotSet (l : List Slot) : Field := setField ((List.finRange 16).map l.contains)

/-- A set of antennas that may be absent: 127 sets and the absent code take 8 bits (R110, 11.6). -/
def antennaSetOrAbsent (v : Option (PerAntenna Bool)) : Field := numOrAbsent 8 (v.map fun s => (antennaSet s).value)

/-- Entries of the degraded map, one flag each (log 16). -/
def cornerFlags (v : PerCorner Bool) : List Field := Corner.all.map fun c => flagField (v.get c)
def doorFlags (v : PerDoor Bool) : List Field := Door.all.map fun d => flagField (v.get d)
def antennaFlags (v : PerAntenna Bool) : List Field := Antenna.all.map fun a => flagField (v.get a)

/-- The rear lockout: OFF 0, ON 1, as 11.6's Orders table lists them (R56, R57). -/
def lockoutField (on : Bool) : Field := codeField 2 on.toNat

/-- An input place that the driver side has: every place but the driver door's own door switch (R173, spec/03 3.3). -/
def inputPresent (driver : Front) (i : Input) : Bool := decide (i ≠ .switch (.door driver.toCorner))

/-- The inputs of the part, in the order of R173. -/
def inputList (driver : Front) : List Input := Input.all.filter (inputPresent driver)

/-- The code of an input: its place in the order of R173. -/
def inputCode (driver : Front) (i : Input) : Nat := (inputList driver).idxOf i

def lockField (l : LockState) : Field := codeField 4 l.ctorIdx
def actionField (a : LockAction) : Field := codeField 3 a.ctorIdx
def childField (c : ChildLock) : Field := codeField 2 c.ctorIdx

/-- A mover: its kind, then the slot of an order, absent for the others (11.6, a field of several parts). -/
def moverFields : Option Mover → List Field
  | none => [codeOrAbsent 4 none, numOrAbsent 5 none]
  | some .doorSwitch => [codeOrAbsent 4 (some 0), numOrAbsent 5 none]
  | some .masterSwitch => [codeOrAbsent 4 (some 1), numOrAbsent 5 none]
  | some (.order s) => [codeOrAbsent 4 (some 2), numOrAbsent 5 (some s.val)]
  | some .sequencer => [codeOrAbsent 4 (some 3), numOrAbsent 5 none]

/-- The switch of a START-REFUSED row: its kind, door switch 0 and master switch 1, then its window (log 58). -/
def switchFields (sw : Switch) : List Field :=
  [codeField 2 (match sw with | .door _ => 0 | .master _ => 1), codeField 4 sw.window.ctorIdx]

def modeField (m : Option Mode) : Field := codeOrAbsent 3 (m.map (·.ctorIdx))
def positionField (n : Nat) : Field := numField 13 n
def positionOrAbsent (n : Option Nat) : Field := numOrAbsent 13 n
def zoneField (z : Option Zone) : Field := codeOrAbsent 5 (z.map (·.ctorIdx))
def stopField (r : StopReason) : Field := codeField 12 r.ctorIdx
def reasonField (r : Option EntryReason) : Field := codeOrAbsent 17 (r.map (·.ctorIdx))
def zonesOf (r : PerFob FobResult) : List Field := Fob.all.map fun f => zoneField (r.get f).zone

/-- The code of a part state (11.6, PORT STATUS). -/
def PartState.code : PartState → Nat
  | .start _ _ => 0
  | .held => 1
  | .service => 2
  | .doze => 3
  | .safeHold _ => 4

/-- The hold code's number (R199, R205). -/
def HoldCode.number (h : HoldCode) : Nat := h.ctorIdx + 1

/-- A self-test stage's code (R198). -/
def TestStage.code (t : TestStage) : Nat := 7 - t.ctorIdx

/-- A retained record's code, in the order of spec/12, 12.5. -/
def recordCode (r : RecordId) : Nat := RecordId.all.idxOf r

/-! ### Rows -/

/-- The report classes, with their codes (11.6). -/
inductive RowClass where
  | order | door | latch | window | key | fob | supply | crash | part | gap
  deriving DecidableEq, Repr

def RowClass.code : RowClass → Nat
  | .gap => 15
  | c => c.ctorIdx + 1

/-- A report row as its block hands it over (R193): the time is added when it is written. -/
structure Row where
  cls : RowClass
  code : Nat
  subject : Nat
  tag : Nat
  detail : List Field
  deriving DecidableEq, Repr

/-- The four words of a row written at time `t` (11.6). -/
def Row.words (r : Row) (t : Nat) : List Word :=
  [BitVec.ofNat 32 ((r.cls.code <<< 28) ||| ((r.code % 256) <<< 20) ||| ((r.subject % 256) <<< 12) ||| (r.tag % 4096)),
    (stampOf t).setWidth 32] ++ packWords 2 r.detail

/-- ORDER: the slot, its tag and code; kind, end state and result word 6 (R191). -/
def orderRow (s : Slot) (h : Head) (word6 : Word) : Row :=
  ⟨.order, h.code.toNat, s.val, h.tag.toNat, [numField 5 h.kind.toNat, codeField 6 h.state.ctorIdx, ⟨32, word6.toNat⟩]⟩

/-- GAP: the dropped-class mark (R194). -/
def gapRow (mark : BitVec 16) : Row := ⟨.gap, 0, 0, 0, [⟨16, mark.toNat⟩]⟩

/-- The source of a lock action, with what a source carries beside it (spec/01, 1.2; R7). -/
inductive LockSource where
  | rocker
  | remote (f : Fob)
  | passive (p : Purpose)
  | order
  | inner
  | sequencer
  | driveAway
  | ignitionOff
  | relock
  deriving DecidableEq, Repr

/-- A source's code (the table of spec/01, 1.2). -/
def lockSourceField (s : LockSource) : Field := codeField 10 s.ctorIdx

/-- The fob index or search purpose that REMOTE and PASSIVE carry (R7). Another source carries no field, which takes no bit
(log 98). -/
def lockSourceExtra : LockSource → List Field
  | .remote f => [codeField 4 f.ctorIdx]
  | .passive p => [codeField 4 p.ctorIdx]
  | _ => []

def doorOpenedRow (d : Door) (l : LockState) : Row := ⟨.door, 1, d.ctorIdx, 0, [lockField l]⟩
def doorClosedRow (d : Door) (l : LockState) : Row := ⟨.door, 2, d.ctorIdx, 0, [lockField l]⟩
def locksChangedRow (s : LockSource) (asked taken : LockAction) (changed waiting : PerDoor Bool) : Row :=
  ⟨.door, 3, 0, 0, [lockSourceField s, actionField asked, actionField taken, doorSet changed, doorSet waiting] ++
    lockSourceExtra s⟩
def lockRefusedRow (s : LockSource) (asked : LockAction) : Row := ⟨.door, 4, 0, 0, [lockSourceField s, actionField asked]⟩
/-- The two sources of a toggle or an order, BUTTON before ORDER (R24, R25, R56, R57). -/
def childLocksChangedRow (fromOrder : Bool) (rl rr : ChildLock) : Row :=
  ⟨.door, 5, 0, 0, [codeField 2 fromOrder.toNat, childField rl, childField rr]⟩
def childLockRefusedRow (rl rr : ChildLock) : Row := ⟨.door, 6, 0, 0, [childField rl, childField rr]⟩

def releaseEndRow (d : Door) (o : ReleaseOutcome) (second : Bool) (s : SourceSet) (p : ReleasePrecedence) : Row :=
  ⟨.latch, 1, d.ctorIdx, 0, [codeField 4 o.ctorIdx, numField 2 (second.toNat + 1), sourceSet s, codeField 2 p.ctorIdx]⟩
def escapeGrantedRow (d : Door) (second : Bool) (k : GrantKind) (w : Option Corner) : Row :=
  ⟨.latch, 2, d.ctorIdx, 0, [numField 2 (second.toNat + 1), codeField 3 k.ctorIdx, codeOrAbsent 4 (w.map (·.ctorIdx))]⟩
/-- INNER-REFUSED: DEADLOCKED or CHILD-LOCK (R35). -/
def innerRefusedRow (d : Door) (childLock : Bool) : Row := ⟨.latch, 3, d.ctorIdx, 0, [codeField 2 childLock.toNat]⟩
def outerRefusedRow (d : Door) (l : LockState) : Row := ⟨.latch, 4, d.ctorIdx, 0, [lockField l]⟩
def releaseUnavailableRow (d : Door) (s : ReleaseSource) : Row := ⟨.latch, 5, d.ctorIdx, 0, [codeField 5 s.ctorIdx]⟩

/-- STARTED, with the mark FORCE of R84. -/
def startedRow (c : Corner) (cmd : Command) (position : Nat) (force : Bool) : Row :=
  ⟨.window, 1, c.ctorIdx, 0, moverFields (some cmd.mover) ++ [modeField (some cmd.mode), codeField 2 cmd.dir.ctorIdx,
    positionOrAbsent cmd.target, positionField position, flagField force]⟩
def moverChangedRow (c : Corner) (cmd : Command) (position : Nat) : Row :=
  ⟨.window, 2, c.ctorIdx, 0, moverFields (some cmd.mover) ++ [modeField (some cmd.mode), positionOrAbsent cmd.target,
    positionField position]⟩
def stoppedRow (c : Corner) (r : StopReason) (m : Option Mover) (position : Nat) : Row :=
  ⟨.window, 3, c.ctorIdx, 0, [stopField r] ++ moverFields m ++ [positionField position]⟩

/-- The reasons a command is refused at its start, in the order of spec/03, 3.11. -/
inductive StartRefusal where
  | outOfService | thermal | crashLatch | unlearned | pinchLockout | budgetTimeout
  deriving DecidableEq, Repr

def startRefusedRow (c : Corner) (r : StartRefusal) (sw : Switch) (m : Mode) : Row :=
  ⟨.window, 4, c.ctorIdx, 0, [codeField 6 r.ctorIdx] ++ switchFields sw ++ [codeField 3 m.ctorIdx]⟩
/-- LOCKOUT-CHANGED has no window of its own: subject 0. -/
def lockoutChangedRow (fromOrder on : Bool) : Row := ⟨.window, 5, 0, 0, [codeField 2 fromOrder.toNat, lockoutField on]⟩
def thermalSetRow (c : Corner) (heat : Nat) : Row := ⟨.window, 6, c.ctorIdx, 0, [numField 11 heat]⟩
def thermalClearedRow (c : Corner) (heat : Nat) : Row := ⟨.window, 7, c.ctorIdx, 0, [numField 11 heat]⟩

/-- How a pinch was found, with the period judged and the limit in microseconds (R80). -/
inductive PinchFound where
  | ratio (period limit : Nat)
  | force (period limit : Nat)
  | absolute (period limit : Nat)
  | stall
  deriving DecidableEq, Repr

def PinchFound.period : PinchFound → Option Nat
  | .ratio p _ | .force p _ | .absolute p _ => some p
  | .stall => none

def PinchFound.limit : PinchFound → Option Nat
  | .ratio _ l | .force _ l | .absolute _ l => some l
  | .stall => none

/-- PINCH: how, position, then period and limit, in 0.1 ms (log 15) rounded down (log 83), each in 13 bits (log 94), and
reversal target. -/
def pinchRow (c : Corner) (found : PinchFound) (position target : Nat) : Row :=
  ⟨.window, 8, c.ctorIdx, 0, [codeField 4 found.ctorIdx, positionField position,
    numOrAbsent 13 (found.period.map (· / 100)), numOrAbsent 13 (found.limit.map (· / 100)), positionField target]⟩

/-- The causes a pinch lockout is cleared for (R82). -/
inductive LockoutCause where
  | manualTop | reReferenced | learned
  deriving DecidableEq, Repr

def lockoutClearedRow (c : Corner) (cause : LockoutCause) : Row := ⟨.window, 9, c.ctorIdx, 0, [codeField 3 cause.ctorIdx]⟩
def forceArmedRow (c : Corner) (expiry : Nat) : Row := ⟨.window, 10, c.ctorIdx, 0, [timeField expiry]⟩
/-- UNLEARNED: its one cause STALL, in one bit (log 70), and the position (R87). -/
def unlearnedRow (c : Corner) (position : Nat) : Row := ⟨.window, 11, c.ctorIdx, 0, [numField 1 0, positionField position]⟩
def reReferencedRow (c : Corner) (travel : Nat) : Row := ⟨.window, 12, c.ctorIdx, 0, [numField 12 travel]⟩
/-- LEARN-END: outcome code, absent after a port reset (log 65), phase reached, measured travel (R92). -/
def learnEndRow (c : Corner) (outcome : Option Nat) (phase : LearnPhase) (measured : Option Nat) : Row :=
  ⟨.window, 13, c.ctorIdx, 0, [numOrAbsent 6 outcome, codeField 3 phase.ctorIdx, positionOrAbsent measured]⟩

/-- The subject of a KEY row: purpose, then door (11.6). -/
def keySubject (p : Purpose) (d : Option Door) : Nat :=
  (packWord [codeField 4 p.ctorIdx, codeOrAbsent 5 (d.map (·.ctorIdx))]).toNat
def keyRow (code : Nat) (r : Request) (detail : List Field) : Row := ⟨.key, code, keySubject r.purpose r.door, 0, detail⟩
def passedRow (r : Request) (f : Fob) (res : PerFob FobResult) : Row := keyRow 1 r (codeField 4 f.ctorIdx :: zonesOf res)
def noFobRow (r : Request) (res : PerFob FobResult) : Row := keyRow 2 r (zonesOf res)
def keyInsideRow (r : Request) (res : PerFob FobResult) : Row := keyRow 3 r (zonesOf res)
def keyDoorOpenedRow (r : Request) (res : PerFob FobResult) : Row := keyRow 4 r (zonesOf res)
def locatedRow (r : Request) (res : PerFob FobResult) (used : PerAntenna Bool) : Row :=
  keyRow 5 r (zonesOf res ++ [antennaSet used])

/-- Why searches are aborted (R127, R129). -/
inductive AbortCause where
  | supply | safeHold
  deriving DecidableEq, Repr

def abortedRow (r : Request) (c : AbortCause) : Row := keyRow 6 r [codeField 2 c.ctorIdx]
def searchBusyRow (r : Request) : Row := keyRow 7 r [codeField 4 r.purpose.ctorIdx, codeOrAbsent 5 (r.door.map (·.ctorIdx))]

/-- Why a search cannot be made (R111). -/
inductive UnavailableReason where
  | receiver | supply | zone
  deriving DecidableEq, Repr

def keyUnavailableRow (r : Request) (why : UnavailableReason) : Row := keyRow 8 r [codeField 3 why.ctorIdx]
def fobBlockedRow (f : Fob) (run : Nat) : Row := ⟨.key, 9, f.ctorIdx, 0, [numField 4 run]⟩

def pressRow (f : Fob) (b : Button) (counter : BitVec 28) (pair : Bool) : Row :=
  ⟨.fob, 1, f.ctorIdx, 0, [codeField 3 b.ctorIdx, ⟨28, counter.toNat⟩, flagField pair]⟩

/-- Why a frame is rejected (R134, R135). -/
inductive FrameFault where
  | suspended | check | counter
  deriving DecidableEq, Repr

def frameRejectedRow (f : Fob) (why : FrameFault) (b : Button) (counter : BitVec 28) : Row :=
  ⟨.fob, 2, f.ctorIdx, 0, [codeField 3 why.ctorIdx, codeField 3 b.ctorIdx, ⟨28, counter.toNat⟩]⟩
def resyncCandidateRow (f : Fob) (counter : BitVec 28) (d : Nat) : Row :=
  ⟨.fob, 3, f.ctorIdx, 0, [⟨28, counter.toNat⟩, numField 13 d]⟩
def resyncedRow (f : Fob) (before stored : BitVec 28) : Row :=
  ⟨.fob, 4, f.ctorIdx, 0, [⟨28, before.toNat⟩, ⟨28, stored.toNat⟩]⟩
def unblockedRow (f : Fob) : Row := ⟨.fob, 5, f.ctorIdx, 0, []⟩
def holdStartedRow (f : Fob) (k : OpKind) : Row := ⟨.fob, 6, f.ctorIdx, 0, [codeField 3 k.ctorIdx]⟩
/-- HOLD-REJECTED: the kind, and the refusal reason's code (11.6). -/
def holdRejectedRow (f : Fob) (k : OpKind) (reason : Nat) : Row := ⟨.fob, 7, f.ctorIdx, 0, [codeField 3 k.ctorIdx, numField 4 reason]⟩

/-- The causes a session ends for (R141). -/
inductive HoldCause where
  | released | press | crash | record | reset
  deriving DecidableEq, Repr

def holdEndedRow (f : Fob) (c : HoldCause) : Row := ⟨.fob, 8, f.ctorIdx, 0, [codeField 5 c.ctorIdx]⟩
def enrolledRow (f : Fob) (id : Word) : Row := ⟨.fob, 9, f.ctorIdx, 0, [⟨32, id.toNat⟩]⟩
def dismissedRow (f : Fob) (id : Word) : Row := ⟨.fob, 10, f.ctorIdx, 0, [⟨32, id.toNat⟩]⟩
def suspendedRow (f : Fob) : Row := ⟨.fob, 11, f.ctorIdx, 0, []⟩
def resumedRow (f : Fob) : Row := ⟨.fob, 12, f.ctorIdx, 0, []⟩

def classChangedRow (before after : SupplyClass) (mv : Nat) : Row :=
  ⟨.supply, 1, 0, 0, [codeField 3 before.ctorIdx, codeField 3 after.ctorIdx, numField 15 mv]⟩

def crashEventRow (count : Nat) (s : PartState) (doors : PerDoor Bool) (childs : Bool) (windows : Nat) : Row :=
  ⟨.crash, 1, 0, 0, [numField 8 count, codeField 5 s.code, doorSet doors, flagField childs, numField 3 windows]⟩
def latchClearedRow (l : CrashLatch) : Row := ⟨.crash, 2, 0, 0, [numField 8 l.count, timeField l.since]⟩

def inputStuckRow (driver : Front) (i : Input) (l : Level) : Row :=
  ⟨.part, 1, inputCode driver i, 0, [codeField 32 (inputCode driver i), codeField 5 l.ctorIdx]⟩
def inputClearedRow (driver : Front) (i : Input) : Row :=
  ⟨.part, 2, inputCode driver i, 0, [codeField 32 (inputCode driver i)]⟩
def configFailedRow (n : Nat) : Row := ⟨.part, 16, 0, 0, [numField 4 n]⟩
def serviceEnteredRow : Row := ⟨.part, 17, 0, 0, []⟩
def dozeEnteredRow : Row := ⟨.part, 18, 0, 0, []⟩

/-- WOKE: the cause, then its fob index or input; nothing for CRASH, WAKE-WRITE and LINK (R204; log 97). -/
def wokeRow (driver : Front) (c : WakeCause) : Row :=
  ⟨.part, 19, 0, 0, codeField 5 c.ctorIdx :: (match c with
    | .frame f => [codeField 4 f.ctorIdx]
    | .input i => [codeField 32 (inputCode driver i)]
    | _ => [])⟩
def safeHoldEnteredRow (h : HoldCode) : Row := ⟨.part, 20, 0, 0, [numField 3 h.number]⟩

/-- The entries of the degraded map but for the inputs, in the order of R199 (log 16). -/
def degradedPlain (m : Degraded) : List Field :=
  cornerFlags m.bridges ++ cornerFlags m.halls ++ doorFlags m.latches ++ antennaFlags m.antennas ++ [flagField m.receiver] ++
    RecordId.all.map fun r => flagField (m.records.get r)

/-- The whole degraded map: the entries of `degradedPlain`, then the inputs. -/
def degradedFields (driver : Front) (m : Degraded) : List Field :=
  degradedPlain m ++ (inputList driver).map fun i => flagField (m.inputs.get i)

def selfTestFindingsRow (driver : Front) (m : Degraded) : Row := ⟨.part, 21, 0, 0, degradedFields driver m⟩
def storeDefaultsRow (r : RecordId) : Row := ⟨.part, 22, 0, 0, [codeField 9 (recordCode r)]⟩

end Sys2Proof.Machine
end

