-- ==== Sys2Proof/Machine/Flags.lean ====
section
/-! DEFINITION. Every value the part computes from its state and holds nowhere: lock predicates, the budget, the duty,
out-of-service, zones available, the wake enables, and the conditions other rules test. -/

namespace Sys2Proof.Machine

/-! ### Doors (spec/01) -/

def DoorRec.isShut (d : DoorRec) : Bool := decide (d.ajar = .isClosed)

/-- LOCKED or DEADLOCKED (R22, R32, R176). -/
def LockState.barred : LockState → Bool
  | .locked | .deadlocked => true
  | .unlocked | .lockPending => false

def Doors.allShut (d : Doors) : Bool := Door.all.all fun x => (d.recs.get x).isShut

/-- The doors that are LOCK-PENDING (R7, R9). -/
def Doors.lockPendingSet (d : Doors) : PerDoor Bool := .build fun x => decide ((d.recs.get x).lock = .lockPending)

/-- The child lock of a door, absent for FL, FR and TG (R1). -/
def Doors.childLock (d : Doors) : Door → Option ChildLock
  | .rl => some d.childRL
  | .rr => some d.childRR
  | .fl | .fr | .tg => none

/-! ### Windows (spec/03) -/

/-- Out-of-service: the bridge's or the hall channel's entry of the degraded map is set (R74, R199). -/
def Part.outOfService (p : Part) (c : Corner) : Bool := p.degraded.bridges.get c || p.degraded.halls.get c

/-- The window's motor is energised (R62). -/
def WindowRec.driven (w : WindowRec) : Bool := decide (w.motion ≠ .stopped)

/-- Moving under a mover's command: OPENING or CLOSING (R58). -/
def WindowRec.underWay (w : WindowRec) : Bool := decide (w.motion = .opening ∨ w.motion = .closing)

/-- STOPPED with no pending command. -/
def WindowRec.atRest (w : WindowRec) : Bool := decide (w.motion = .stopped) && w.pending.isNone

/-- The direction a motion drives the glass (R50). -/
def Motion.dir : Motion → Direction
  | .closing => .closing
  | .opening | .reversing | .stopped => .opening

/-- The motion of a move (R62). -/
def Direction.motion : Direction → Motion
  | .opening => .opening
  | .closing => .closing

/-- The soft stops of a LEARNED window (R65). -/
def bottomStop (cfg : Config) : Nat := cfg.softStopOffset
def WindowRec.topStop (w : WindowRec) (cfg : Config) : Nat := w.travel - cfg.softStopOffset

/-- A TARGET beyond a soft stop is taken as that soft stop (R65). -/
def WindowRec.clampTarget (w : WindowRec) (cfg : Config) (t : Nat) : Nat := max (bottomStop cfg) (min t (w.topStop cfg))

def WindowRec.isSoftStop (w : WindowRec) (cfg : Config) (t : Nat) : Bool := decide (t = bottomStop cfg ∨ t = w.topStop cfg)

/-- A LEARNED window stands in the slow zone: within the slow-zone length of a soft stop, or beyond it (R66). -/
def WindowRec.inSlowZone (w : WindowRec) (cfg : Config) : Bool :=
  w.learned && decide (w.position ≤ bottomStop cfg + cfg.slowZone ∨ w.topStop cfg ≤ w.position + cfg.slowZone)

/-- The duty while energised, rising evenly through the soft start (R66), in whole percent, rounded down (log 59). -/
def Part.duty (p : Part) (c : Corner) : Nat :=
  let w := p.windows.get c
  let limit := if !w.learned then 70 else if w.inSlowZone p.cfg then 60 else 100
  if !w.driven then 0 else
    match w.ramp with
    | none => limit
    | some r => min limit (40 + 60 * (p.clock - r.start) / (r.finish - r.start))

/-- The pinch zone of a LEARNED window (R78). -/
def WindowRec.inPinchZone (w : WindowRec) (cfg : Config) : Bool :=
  decide (w.topStop cfg ≤ w.position + cfg.pinchZone ∧ w.position ≤ w.topStop cfg)

/-! ### The arbiter (spec/05) -/

/-- The budget in force (R96). -/
def Part.budget (p : Part) : Nat :=
  match p.supply.cls with
  | .normal => p.cfg.normalBudget
  | .low => p.cfg.lowBudget
  | .critical => 0

def unitsHeld (l : List Holder) : Nat := (l.map (·.units)).sum

/-- Units free and units over budget (R97): natural subtraction stops at 0. -/
def Part.unitsFree (p : Part) : Nat := p.budget - unitsHeld p.holders
def Part.unitsOver (p : Part) : Nat := unitsHeld p.holders - p.budget

/-! ### Searches (spec/06) -/

def Part.soundAntenna (p : Part) (a : Antenna) : Bool := !(p.degraded.antennas.get a)

/-- A zone is available while an antenna that gives it is sound (R128). -/
def Part.zoneAvailable (p : Part) : Zone → Bool
  | .inside => p.soundAntenna .acf || p.soundAntenna .acr
  | .outLeft => p.soundAntenna .afl || p.soundAntenna .arl
  | .outRight => p.soundAntenna .afr || p.soundAntenna .arr
  | .outRear => p.soundAntenna .atg
  | .nowhere => true

/-- The outside zone of a door's side (R121). -/
def doorZone : Door → Zone
  | .fl | .rl => .outLeft
  | .fr | .rr => .outRight
  | .tg => .outRear

/-- An ENTRY request for a door is listed or in flight (R122). -/
def Locator.entryFor (l : Locator) (d : Door) : Bool :=
  let is := fun r : Request => decide (r.purpose = .entry ∧ r.door = some d)
  l.list.any is || (l.flight.map (·.request)).any is

/-! ### The part (spec/12) -/

def Part.inService (p : Part) : Bool := decide (p.state = .service)

/-- Door service has begun: every state but START in its DRIVERS stage (R29, R46, R179). -/
def Part.doorService (p : Part) : Bool :=
  match p.state with
  | .start _ .drivers => false
  | _ => true

def Part.inSafeHold (p : Part) : Bool :=
  match p.state with
  | .safeHold _ => true
  | _ => false

/-- The self-test stage code and the hold code (R197). -/
def Part.stageCode (p : Part) : Nat :=
  match p.state with
  | .start _ t => t.code
  | .held => 1
  | .service | .doze | .safeHold _ => 0

def Part.holdCode (p : Part) : Nat :=
  match p.state with
  | .safeHold h => h.number
  | _ => 0

def Part.crashSet (p : Part) : Bool := p.crash.latch.isSome
def Part.critical (p : Part) : Bool := decide (p.supply.cls = .critical)

/-- The LF drivers are enabled: not at CRITICAL, not in DOZE (R164, R203; log 42). -/
def Part.lfDrivers (p : Part) : Bool := !p.critical && decide (p.state ≠ .doze)

def Operation.running (o : Operation) : Bool := o.ended.isNone
def Part.sequencerRuns (p : Part) : Bool := p.operation.any (·.running)

/-- Every window STOPPED with no pending command; no release in flight; no search (R202, R203). -/
def Part.windowsAtRest (p : Part) : Bool := Corner.all.all fun c => (p.windows.get c).atRest
def Part.latchesIdle (p : Part) : Bool := Door.all.all fun d => (p.latches.get d).isNone
def Part.noSearch (p : Part) : Bool := p.locator.list.isEmpty && p.locator.flight.isNone

/-- Owner checks of RECONFIGURE (R202): nothing in motion, pending, learning, releasing, searching or running. -/
def Part.quiet (p : Part) : Bool :=
  p.windowsAtRest && (Corner.all.all fun c => (p.monitors.get c).learn.isNone) && p.latchesIdle && p.noSearch &&
    !p.sequencerRuns

/-- The entry conditions of DOZE (R203). -/
def Part.mayDoze (p : Part) : Bool :=
  !p.doors.ign && p.windowsAtRest &&
    p.heads.toList.all (fun h => decide (h.state ≠ .taken ∧ h.state ≠ .cancelAsked ∧ h.state ≠ .posted)) &&
    p.noSearch && p.latchesIdle && p.store.dirty.isEmpty && p.store.commit.isNone && !p.sequencerRuns

/-! ### Inputs (spec/10) -/

/-- The debounce times of R173; CRASH has none. -/
def debounceTime : Input → Nat
  | .ajar _ => 30
  | .outer _ | .tailgate | .inner _ => 10
  | .touch _ | .lockTouch _ => 40
  | .switch _ | .rocker | .childButton | .lockoutButton => 20
  | .ign => 50
  | .crash => 0

/-- The inputs with a stuck timer (R178). -/
def stuckJudged : Input → Bool
  | .switch _ | .rocker | .childButton | .lockoutButton | .tailgate | .touch _ | .lockTouch _ => true
  | .ajar _ | .outer _ | .inner _ | .ign | .crash => false

/-- The input is STUCK, or its circuit is in the degraded map: no events (R178, R199). -/
def Part.muted (p : Part) (i : Input) : Bool := (p.inputs.get i).stuck || p.degraded.inputs.get i

/-- The input's wake group is enabled, or is the always group (spec/10, 10.5). Ajar contacts belong to none. -/
def wakeEnabled (cfg : Config) : Input → Bool
  | .touch _ | .lockTouch _ => cfg.wakeTouch
  | .outer _ => cfg.wakePulls
  | .switch _ => cfg.wakeSwitches
  | .rocker | .childButton | .lockoutButton => cfg.wakeRocker
  | .tailgate => cfg.wakeTailgate
  | .inner _ | .ign | .crash => true
  | .ajar _ => false

/-- The stage a switch level names, and the rocker position (R52, R8). -/
def levelStage : Level → Stage
  | .rest => .neutral
  | .l1 => .up1
  | .l2 => .up2
  | .l3 => .down1
  | .l4 => .down2

def stageLevel : Stage → Level
  | .neutral => .rest
  | .up1 => .l1
  | .up2 => .l2
  | .down1 => .l3
  | .down2 => .l4

def rockerLevel : Rocker → Level
  | .centre => .rest
  | .lock => .l1
  | .unlock => .l2

/-- The level of a two-level input (R173). -/
def twoLevel (away : Bool) : Level := if away then .l1 else .rest

end Sys2Proof.Machine
end

