-- ==== Sys2Proof/Machine/Ops.lean ====
section
/-! DEFINITION. The named operations every block uses: the memory's bytes and words, single records of State, report
rows (R193), slots (R189, R191) and the dirty set with its commits (R206, R207). -/

namespace Sys2Proof.Machine

/-! ### Memory (log 7): bytes in rising order of their keys, none of them 0; an unlisted byte reads 0 -/

abbrev Memory := List Host.Cell

def Memory.readByte : Memory → Nat → Byte
  | [], _ => 0
  | (k, v) :: m, a => if k = a then v else Memory.readByte m a

def Memory.writeByte : Memory → Nat → Byte → Memory
  | [], a, b => if b = 0 then [] else [(a, b)]
  | (k, v) :: m, a, b =>
    if a < k then (if b = 0 then (k, v) :: m else (a, b) :: (k, v) :: m)
    else if a = k then (if b = 0 then m else (a, b) :: m)
    else (k, v) :: Memory.writeByte m a b

/-- The keys are at or above `lo` and rise, and no byte is 0. -/
def Memory.wfFrom : Nat → Memory → Bool
  | _, [] => true
  | lo, (k, v) :: m => decide (lo ≤ k) && decide (v ≠ 0) && Memory.wfFrom (k + 1) m

/-- The canonical form. -/
def Memory.wf (m : Memory) : Bool := Memory.wfFrom 0 m

/-- Word `i`, its least significant byte at key `4 i` (log 7). -/
def Memory.readWord (m : Memory) (i : Nat) : Word :=
  Memory.readByte m (4 * i + 3) ++ Memory.readByte m (4 * i + 2) ++ Memory.readByte m (4 * i + 1) ++ Memory.readByte m (4 * i)

def Memory.writeWord (m : Memory) (i : Nat) (w : Word) : Memory :=
  Memory.writeByte (Memory.writeByte (Memory.writeByte (Memory.writeByte m
    (4 * i) (w.extractLsb' 0 8)) (4 * i + 1) (w.extractLsb' 8 8)) (4 * i + 2) (w.extractLsb' 16 8)) (4 * i + 3) (w.extractLsb' 24 8)

def Memory.writeWords (m : Memory) (i : Nat) : List Word → Memory
  | [] => m
  | w :: ws => Memory.writeWords (Memory.writeWord m i w) (i + 1) ws

/-- The bytes with keys from `lo` up to, not including, `hi`. -/
def Memory.keep (m : Memory) (lo hi : Nat) : Memory := m.filter fun c => decide (lo ≤ c.1 ∧ c.1 < hi)

/-! ### Single records -/

def Part.door (p : Part) (d : Door) : DoorRec := p.doors.recs.get d
def Part.window (p : Part) (c : Corner) : WindowRec := p.windows.get c
def Part.monitor (p : Part) (c : Corner) : MonitorRec := p.monitors.get c
def Part.fob (p : Part) (f : Fob) : FobRec := p.fobs.get f
def Part.input (p : Part) (i : Input) : InputRec := p.inputs.get i
def Part.latch (p : Part) (d : Door) : Option ReleaseOp := p.latches.get d
def Part.head (p : Part) (s : Slot) : Head := p.heads.get s

def Part.setDoor (p : Part) (d : Door) (x : DoorRec) : Part := { p with doors := { p.doors with recs := p.doors.recs.set d x } }
def Part.setWindow (p : Part) (c : Corner) (x : WindowRec) : Part := { p with windows := p.windows.set c x }
def Part.setMonitor (p : Part) (c : Corner) (x : MonitorRec) : Part := { p with monitors := p.monitors.set c x }
def Part.setFob (p : Part) (f : Fob) (x : FobRec) : Part := { p with fobs := p.fobs.set f x }
def Part.setInput (p : Part) (i : Input) (x : InputRec) : Part := { p with inputs := p.inputs.set i x }
def Part.setLatch (p : Part) (d : Door) (x : Option ReleaseOp) : Part := { p with latches := p.latches.set d x }
def Part.setHead (p : Part) (s : Slot) (h : Head) : Part := { p with heads := p.heads.set s.val h }
def Part.setLocator (p : Part) (l : Locator) : Part := { p with locator := l }
def Part.setDoors (p : Part) (d : Doors) : Part := { p with doors := d }
def Part.setState (p : Part) (s : PartState) : Part := { p with state := s }
def Part.setOperation (p : Part) (o : Option Operation) : Part := { p with operation := o }
def Part.setLists (p : Part) (h : List Holder) (w : List Waiter) : Part := { p with holders := h, waiting := w }
def Part.setMisuse (p : Part) : Part := { p with port := { p.port with misuse := true } }

/-- A timer that is running has reached its expiry. -/
def due (timer : Option Nat) (clock : Nat) : Bool := timer.any fun t => decide (t ≤ clock)

/-! ### Stored words and report rows -/

def Part.storeWords (p : Part) (i : Nat) (ws : List Word) : Part :=
  { p with port := { p.port with memory := Memory.writeWords p.port.memory i ws } }

/-- A row written whole at the write row, with the current time (R193). -/
def Part.writeRow (p : Part) (r : Row) : Part :=
  { p.storeWords (480 + 4 * ((p.scroll.start + p.scroll.unread) % 128)) (r.words p.clock) with
    scroll := { p.scroll with unread := p.scroll.unread + 1 } }

/-- A row handed to the scroll: written while the count is below 128 and the memory is served; otherwise its class
joins the dropped-class mark (R193, R196). -/
def Part.appendRow (p : Part) (r : Row) : Part :=
  if p.port.served && decide (p.scroll.unread < 128) then p.writeRow r
  else { p with scroll := { p.scroll with mark := p.scroll.mark ||| (1 <<< r.cls.code) } }

def Part.appendRows (p : Part) (rs : List Row) : Part := rs.foldl Part.appendRow p

/-- The GAP row for a mark that is not empty, where the scroll has room; the mark is then emptied (R194, R196). -/
def Part.writeGap (p : Part) : Part :=
  if p.scroll.mark = 0 ∨ 128 ≤ p.scroll.unread then p
  else
    let q := p.writeRow (gapRow p.scroll.mark)
    { q with scroll := { q.scroll with mark := 0 } }

/-! ### Slots -/

/-- The refusal reasons, codes 1 to 15 (11.6). -/
inductive OrderRefusal where
  | unknownKind | parity | notInService | safeHold | badParameter | busy | crashLatch | outOfService | unlearned
  | thermal | noFob | vehicleMoving | unavailable | config | doorLocked
  deriving DecidableEq, Repr

/-- The outcomes, codes 32 to 46 (11.6). -/
inductive OrderOutcome where
  | completed | cancelled | overridden | preempted | pinch | stall | supply | crash | budgetTimeout | opened | held
  | alreadyOpen | abortedSupply | learnFailed | partway
  deriving DecidableEq, Repr

def OrderRefusal.code (r : OrderRefusal) : Nat := r.ctorIdx + 1
def OrderOutcome.code (o : OrderOutcome) : Nat := o.ctorIdx + 32

/-- The index of word `j` of a slot (11.3). -/
def slotWord (s : Slot) (j : Nat) : Nat := 352 + 8 * s.val + j

/-- The result words 6 and 7 written by the part, with sound parity (R186, R191). -/
def Part.writeResults (p : Part) (s : Slot) (word6 word7 : Word) : Part :=
  let q := p.storeWords (slotWord s 6) [word6, word7]
  { q with port := { q.port with
      parity := Memory.writeByte (Memory.writeByte q.port.parity (slotWord s 6) 0) (slotWord s 7) 0 } }

/-- The end of an order: the slot written in one update, then its ORDER row (R191). -/
def Part.endOrder (p : Part) (s : Slot) (state : SlotState) (code : Nat) (word6 word7 : Word) : Part :=
  let h : Head := { p.head s with state := state, code := BitVec.ofNat 8 code }
  ((p.setHead s h).writeResults s word6 word7).appendRow (orderRow s h word6)

def Part.orderDone (p : Part) (s : Slot) (o : OrderOutcome) (word6 : Word := 0) (word7 : Word := 0) : Part :=
  p.endOrder s .done o.code word6 word7

/-- A refusal's result words are zero, but for RECONFIGURE's CONFIG (R191). -/
def Part.orderRefused (p : Part) (s : Slot) (r : OrderRefusal) (word6 : Word := 0) : Part :=
  p.endOrder s .refused r.code word6 0

/-- An accepted order: TAKEN, result words cleared (R190). -/
def Part.orderTaken (p : Part) (s : Slot) : Part :=
  (p.setHead s { p.head s with state := .taken }).writeResults s 0 0

/-! ### The Retained Store -/

/-- What a fob, window or lock record's commit holds of the owner as it stands (R26, R73, R132). -/
def WindowRec.keep (w : WindowRec) : WindowKeep := ⟨w.travel, w.position, w.learned, w.movingFlag⟩

/-- LOCK-PENDING is stored as LOCKED (R26). -/
def LockState.kept : LockState → LockState
  | .lockPending => .locked
  | l => l

def Part.lockKeep (p : Part) : LockKeep :=
  ⟨.build fun d => (p.door d).lock.kept, p.doors.childRL, p.doors.childRR, p.lockout⟩

def Part.contentOf (p : Part) : RecordId → Content
  | .fob f => .fob f (p.fob f).keep
  | .lock => .lock p.lockKeep
  | .window c => .window c (p.window c).keep

def Content.record : Content → RecordId
  | .fob f _ => .fob f
  | .lock _ => .lock
  | .window c _ => .window c

/-- A commit may begin: none under way, a record dirty, the class not CRITICAL, a STORE stage ended (R207). -/
def Part.mayCommit (p : Part) : Bool :=
  p.store.commit.isNone && !p.store.dirty.isEmpty && !p.critical && p.store.ready

/-- The commit of the oldest dirty record begins: 6 ms, with the owner's contents as they stand; a fob order waiting
for that record waits for this commit (R207, R146). -/
def Part.beginCommit (p : Part) : Part :=
  match p.store.dirty with
  | [] => p
  | r :: rest =>
    let q := { p with store := { p.store with dirty := rest, commit := some ⟨p.contentOf r, p.clock + 6, false⟩ } }
    match r with
    | .fob f => q.setFob f { q.fob f with waits := (q.fob f).waits.map fun w => { w with begun := true } }
    | .lock | .window _ => q

def Part.tryCommit (p : Part) : Part := if p.mayCommit then p.beginCommit else p

/-- A mark (R206): a record whose own commit is under way is marked again when that ends (R207); another keeps its
place, or is appended, and a commit begins where one may (log 12). -/
def Part.markDirty (p : Part) (r : RecordId) : Part :=
  match p.store.commit with
  | some k =>
    if k.content.record = r then { p with store := { p.store with commit := some { k with changed := true } } }
    else if p.store.dirty.contains r then p
    else { p with store := { p.store with dirty := p.store.dirty ++ [r] } }
  | none =>
    if p.store.dirty.contains r then p.tryCommit
    else { p with store := { p.store with dirty := p.store.dirty ++ [r] } }.tryCommit

/-- A change of a retained field that its rules do not mark: where the record's own commit is under way, the record is marked
again when that ends (R207, R73). -/
def Part.noteChange (p : Part) (r : RecordId) : Part :=
  match p.store.commit with
  | some k => if k.content.record = r then { p with store := { p.store with commit := some { k with changed := true } } } else p
  | none => p

/-- The record's copy is written over the older one, which becomes the newer (spec/12, 12.5). -/
def Copies.commit {α : Type} (c : Copies α) (x : α) : Copies α := ⟨some x, c.newer⟩

def StoredCopies.commit (s : StoredCopies) : Content → StoredCopies
  | .fob f k => { s with fobs := s.fobs.set f ((s.fobs.get f).commit k) }
  | .lock k => { s with lock := s.lock.commit k }
  | .window c k => { s with windows := s.windows.set c ((s.windows.get c).commit k) }

end Sys2Proof.Machine
end

