-- ==== Sys2Proof/Machine/Operands.lean ====
section
/-! DEFINITION. What a posted order says: its kind, the parameter words the kind reads, and their ranges (R190, 11.6);
and the words with which an order command posts it (log 8). -/

namespace Sys2Proof.Machine

/-- The fifteen order kinds, codes 1 to 15 (11.6). -/
inductive OrderKind where
  | lockDoors | setChildLock | releaseLatch | moveWindow | setWindowLockout | learnWindow | locateFob | enrolFob
  | dismissFob | suspendFob | comfortClose | comfortOpen | vent | releaseCrash | reconfigure
  deriving DecidableEq, Repr

def OrderKind.all : List OrderKind :=
  [.lockDoors, .setChildLock, .releaseLatch, .moveWindow, .setWindowLockout, .learnWindow, .locateFob, .enrolFob,
    .dismissFob, .suspendFob, .comfortClose, .comfortOpen, .vent, .releaseCrash, .reconfigure]

def OrderKind.code (k : OrderKind) : Nat := k.ctorIdx + 1

/-- The kind a head names, or none: UNKNOWN-KIND (R190). -/
def kindOf (b : BitVec 5) : Option OrderKind := OrderKind.all.find? fun k => decide (k.code = b.toNat)

/-- How many parameter words a kind reads (11.6). -/
def OrderKind.params : OrderKind → Nat
  | .lockDoors | .setChildLock | .suspendFob => 2
  | .moveWindow => 3
  | .releaseLatch | .setWindowLockout | .learnWindow | .locateFob | .enrolFob | .dismissFob => 1
  | .comfortClose | .comfortOpen | .vent | .releaseCrash | .reconfigure => 0

/-- The kinds of MOVE-WINDOW's target (R69). -/
inductive MoveTarget where
  | fullOpen
  | fullClose
  | position (n : Nat)
  | stop
  deriving DecidableEq, Repr

/-- An order with its parameters in range. -/
inductive Order where
  | lockDoors (a : LockAction) (doors : PerDoor Bool)
  | setChildLock (rl rr : Bool) (child : ChildLock)
  | releaseLatch (d : Door)
  | moveWindow (c : Corner) (t : MoveTarget)
  | setWindowLockout (on : Bool)
  | learnWindow (c : Corner)
  | locateFob (antennas : PerAntenna Bool)
  | enrolFob (f : Fob)
  | dismissFob (f : Fob)
  | suspendFob (f : Fob) (resume : Bool)
  | combined (k : OpKind)
  | releaseCrash
  | reconfigure
  deriving DecidableEq, Repr

/-- A value coded in the manual's order from 0. -/
def pick {α : Type} (l : List α) (w : Word) : Option α := l[w.toNat]?

def pickAction : Word → Option LockAction := pick [.lock, .unlock, .deadlock]
def pickFlag : Word → Option Bool := pick [false, true]

def bitAt (w : Word) (k : Nat) : Bool := w.getLsbD k

/-- A mask that names at least one of its `n` members and nothing else. -/
def maskInRange (n : Nat) (w : Word) : Bool := decide (0 < w.toNat ∧ w.toNat < 2 ^ n)

def doorMask (w : Word) : Option (PerDoor Bool) :=
  if maskInRange 5 w then some (.build fun d => bitAt w d.ctorIdx) else none

def antennaMask (w : Word) : Option (PerAntenna Bool) :=
  if maskInRange 7 w then some (.build fun a => bitAt w a.ctorIdx) else none

/-- Word `j` of a slot as the host left it. -/
def Part.param (p : Part) (s : Slot) (j : Nat) : Word := Memory.readWord p.port.memory (slotWord s j)

/-- The parameters of an order, or none: BAD-PARAMETER (R190; R9, R25, R44, R57, R69, R91, R125, R143 to R145). -/
def Part.readOrder (p : Part) (s : Slot) : OrderKind → Option Order
  | .lockDoors => return .lockDoors (← pickAction (p.param s 1)) (← doorMask (p.param s 2))
  | .setChildLock => do
    let (rl, rr) ← pick [(false, false), (true, false), (false, true), (true, true)] (p.param s 1)
    let child ← pick [ChildLock.engaged, ChildLock.released] (p.param s 2)
    if rl || rr then some (.setChildLock rl rr child) else none
  | .releaseLatch => return .releaseLatch (← pick Door.all (p.param s 1))
  | .moveWindow => do
    let c ← pick Corner.all (p.param s 1)
    let n := (p.param s 3).toNat
    let t ← pick [MoveTarget.fullOpen, .fullClose, .position n, .stop] (p.param s 2)
    if t = .position n ∧ (p.window c).travel < n then none else some (.moveWindow c t)
  | .setWindowLockout => return .setWindowLockout (← pickFlag (p.param s 1))
  | .learnWindow => return .learnWindow (← pick Corner.all (p.param s 1))
  | .locateFob => return .locateFob (← antennaMask (p.param s 1))
  | .enrolFob => return .enrolFob (← pick Fob.all (p.param s 1))
  | .dismissFob => return .dismissFob (← pick Fob.all (p.param s 1))
  | .suspendFob => return .suspendFob (← pick Fob.all (p.param s 1)) (← pickFlag (p.param s 2))
  | .comfortClose => some (.combined .comfortClose)
  | .comfortOpen => some (.combined .comfortOpen)
  | .vent => some (.combined .vent)
  | .releaseCrash => some .releaseCrash
  | .reconfigure => some .reconfigure

/-- The head and the parameter words the kind reads have sound parity (R190). The head's own parity mark stands at its
word's index. -/
def Part.orderSound (p : Part) (s : Slot) (k : OrderKind) : Bool :=
  (List.range (k.params + 1)).all fun j => decide (Memory.readByte p.port.parity (slotWord s j) = 0)

/-- A head word that asks for `state` (11.6). -/
def headWord (state kind : Nat) (tag : BitVec 8) : Word := BitVec.ofNat 32 ((state <<< 29) ||| (kind <<< 24) ||| (tag.toNat <<< 16))

def HostWord.clean (w : Word) : HostWord := ⟨w, true⟩

/-- The words of the burst over words 0 to 5 of a slot that posts an order (R189; log 8). -/
def postingBurst (h : OrderHead) (k : OrderKind) (params : List HostWord) : List HostWord :=
  ⟨headWord 1 k.code h.tag, h.sound⟩ :: (params ++ List.replicate (5 - params.length) (HostWord.clean 0))

/-- The first memory word of a slot as a burst's start index. -/
def slotStart (s : Slot) : BitVec 10 := BitVec.ofNat 10 (slotWord s 0)

end Sys2Proof.Machine
end

