-- ==== Sys2Proof/Machine/Doors.lean ====
section
/-! DEFINITION. The Door and Lock Controller (spec/01): lock actions, the relock timer, remote presses, vehicle state,
IGN, child locks, ajar changes, the provisional period and the lock record. -/

namespace Sys2Proof.Machine

/-! ### Lock actions -/

/-- The doors' lock states after the change of `old` to `new`, every settled door marked (R27), the record marked
dirty when any changed (R26). -/
def Settling.markDoors (t : Settling) (changed : PerDoor Bool) : Settling :=
  { t with doors := .build fun d => t.doors.get d || changed.get d }

def Part.setLocks (p : Part) (to_ : Door → LockState) : Part :=
  { p with doors := { p.doors with
      recs := .build fun d => { p.door d with lock := to_ d }
      settling := p.doors.settling.map fun t => t.markDoors (.build fun d => decide (to_ d ≠ (p.door d).lock)) } }

/-- A DEADLOCK is taken as LOCK unless all five doors are CLOSED and the controller's IGN level is off (R5). -/
def Doors.taken (d : Doors) : LockAction → LockAction
  | .deadlock => if d.allShut && !d.ign then .deadlock else .lock
  | a => a

/-- The lock state of a door after an action that concerns it (the table of R4). -/
def lockAfter (a : LockAction) (d : DoorRec) : LockState :=
  match a, d.lock with
  | .unlock, _ => .unlocked
  | _, .deadlocked => .deadlocked
  | _, .lockPending => .lockPending
  | .deadlock, .unlocked => if d.isShut then .deadlocked else .lockPending
  | .deadlock, .locked => .deadlocked
  | .lock, .unlocked => if d.isShut then .locked else .lockPending
  | .lock, .locked => .locked

def allDoors : PerDoor Bool := PerDoor.all true
def oneDoor (d : Door) : PerDoor Bool := .build fun x => decide (x = d)

def Part.lockTargets (p : Part) (a : LockAction) (who : PerDoor Bool) (d : Door) : LockState :=
  if who.get d then lockAfter (p.doors.taken a) (p.door d) else (p.door d).lock

/-- The doors whose lock state an action changes (R7). -/
def Part.lockChanges (p : Part) (a : LockAction) (who : PerDoor Bool) : PerDoor Bool :=
  .build fun d => decide (p.lockTargets a who d ≠ (p.door d).lock)

def anyDoor (v : PerDoor Bool) : Bool := Door.all.any v.get

/-- Refused because of the crash latch: every LOCK and DEADLOCK (R6). -/
def Part.lockRefused (p : Part) (a : LockAction) : Bool := p.crashSet && decide (a ≠ .unlock)

/-- A lock action that is not refused: applied to its doors, the relock timer stopped (R18), a LOCKS-CHANGED row and
the record's mark where a door changed (R4, R7, R26). -/
def Part.takeLock (p : Part) (src : LockSource) (a : LockAction) (who : PerDoor Bool) : Part :=
  let changed := p.lockChanges a who
  let q := p.setLocks (p.lockTargets a who)
  let q := q.setDoors { q.doors with relock := none }
  if anyDoor changed then
    (q.appendRow (locksChangedRow src a (p.doors.taken a) changed q.doors.lockPendingSet)).markDirty .lock
  else q

/-- The sources whose refused action writes a LOCK-REFUSED row (R6); RELOCK cannot meet the latch (R18, log 49). -/
def LockSource.writesRefusal : LockSource → Bool
  | .rocker | .remote _ | .passive _ | .driveAway => true
  | .order | .inner | .sequencer | .ignitionOff | .relock => false

/-- A lock action judged and applied or refused (R4, R6). -/
def Part.lockAction (p : Part) (src : LockSource) (a : LockAction) (who : PerDoor Bool) : Part :=
  if p.lockRefused a then
    if src.writesRefusal then p.appendRow (lockRefusedRow src a) else p
  else p.takeLock src a who

/-- The relock timer starts, from the full relock time, where R17's conditions hold; the unlock has stopped it. -/
def Part.startRelock (p : Part) : Part :=
  if decide (p.cfg.relockTime ≠ 0) && !p.crashSet && !p.doors.ign && p.doors.allShut then
    p.setDoors { p.doors with relock := some (p.clock + p.cfg.relockTime) }
  else p

/-- R19, R20: the expiry locks all five doors, in every state in which door service runs. -/
def Part.relockExpiry (p : Part) : Part :=
  if due p.doors.relock p.clock && p.doorService && !p.inSafeHold then
    (p.setDoors { p.doors with relock := none }).lockAction .relock .lock allDoors
  else p

/-! ### Remote presses (R11 to R13) -/

def pressWindow : LockButton → Nat
  | .unlock => 3000
  | .lock => 2000

/-- The press completes a pair: same button, no more than its window ago, modulo 2^24 (R11). -/
def Part.completesPair (p : Part) (b : LockButton) : Bool :=
  p.doors.press.any fun r => decide (r.button = b ∧ (stampOf p.clock - r.time).toNat ≤ pressWindow b)

/-- A remote press becomes a lock action (R12, R13), and where that is taken the press record changes (R11) and an
UNLOCK may start the relock timer (R17). -/
def Part.remotePress (p : Part) (f : Fob) (b : LockButton) : Part :=
  let pair := p.completesPair b
  let a : LockAction := match b, pair with
    | .unlock, _ => .unlock
    | .lock, false => .lock
    | .lock, true => .deadlock
  let who := match b with
    | .unlock => if p.cfg.selectiveUnlock && !pair then oneDoor p.driverDoor.toCorner.toDoor else allDoors
    | .lock => allDoors
  let q := p.lockAction (.remote f) a who
  if p.lockRefused a then q
  else
    let q := q.setDoors { q.doors with press := if pair then none else some ⟨b, stampOf p.clock⟩ }
    match b with
    | .unlock => q.startRelock
    | .lock => q

/-- A successful ENTRY result's unlock (R14). -/
def Part.passiveUnlock (p : Part) (d : Door) : Part :=
  (p.lockAction (.passive .entry) .unlock (if p.cfg.entryUnlocksAll then allDoors else oneDoor d)).startRelock

/-! ### Vehicle state and ignition (R21 to R23) -/

def pickVehicle : Word → Option Vehicle := pick [.standstill, .rolling, .moving]

/-- Some door is neither LOCKED nor DEADLOCKED (R22). -/
def Doors.someUnbarred (d : Doors) : Bool := Door.all.any fun x => !(d.recs.get x).lock.barred

/-- R22: the drive-away lock, on a change to MOVING in a state that takes it (R29). -/
def Part.driveAwayLock (p : Part) : Part :=
  if p.cfg.driveAwayLock && !p.doors.driveAway && p.doors.allShut && p.doors.someUnbarred then
    let q := p.lockAction .driveAway .lock allDoors
    if p.lockRefused .lock then q else q.setDoors { q.doors with driveAway := true }
  else p

/-- A write of VEHICLE STATE with one of its values (R21); not taken before door service (R29, log 33). -/
def Part.vehicleWrite (p : Part) (v : Vehicle) : Part :=
  if p.doorService then
    let q := p.setDoors { p.doors with vehicle := v }
    if v = .moving ∧ p.doors.vehicle ≠ .moving ∧ p.inSafeHold = false then q.driveAwayLock else q
  else p

/-- R23: an IGN event, in SAFE-HOLD the level alone. -/
def Part.ignEvent (p : Part) (on : Bool) : Part :=
  let q := p.setDoors { p.doors with ign := on }
  if p.inSafeHold then q
  else if on then q.setDoors { q.doors with relock := none }
  else
    let r := q.setDoors { q.doors with driveAway := false }
    if p.cfg.unlockAtIgnitionOff then r.lockAction .ignitionOff .unlock allDoors else r

/-! ### Child locks (R24, R25) -/

/-- Both child locks set, each settled where it changed (R27), the record marked where any changed (R26). -/
def Part.setChildLocks (p : Part) (rl rr : ChildLock) : Part :=
  p.setDoors { p.doors with
    childRL := rl
    childRR := rr
    settling := p.doors.settling.map fun t => { t with
      childRL := t.childRL || decide (rl ≠ p.doors.childRL)
      childRR := t.childRR || decide (rr ≠ p.doors.childRR) } }

def Part.childLocksDiffer (p : Part) (rl rr : ChildLock) : Bool := decide (rl ≠ p.doors.childRL ∨ rr ≠ p.doors.childRR)

/-- The child locks take the states given, with the row and the mark where any changes (R24, R25). -/
def Part.changeChildLocks (p : Part) (fromOrder : Bool) (rl rr : ChildLock) : Part :=
  if p.childLocksDiffer rl rr then
    ((p.setChildLocks rl rr).appendRow (childLocksChangedRow fromOrder rl rr)).markDirty .lock
  else p

/-- R24: the child-lock button. -/
def Part.childToggle (p : Part) : Part :=
  let to_ : ChildLock := if p.doors.childRL = .released ∨ p.doors.childRR = .released then .engaged else .released
  if p.crashSet ∧ to_ = .engaged then p.appendRow (childLockRefusedRow p.doors.childRL p.doors.childRR)
  else p.changeChildLocks false to_ to_

/-! ### Ajar changes (R2) -/

/-- The lock state after an ajar change (R2). -/
def ajarLock (a : Ajar) (l : LockState) : LockState :=
  match a, l with
  | .isOpen, .locked => .lockPending
  | .isOpen, .deadlocked => .lockPending
  | .isClosed, .lockPending => .locked
  | _, l => l

/-- R2 with R18 and R123: the ajar field and lock state, the relock timer, the door-opened notice, the row. -/
def Part.ajarEvent (p : Part) (d : Door) (a : Ajar) : Part :=
  let old := p.door d
  let l := ajarLock a old.lock
  let q := p.setDoor d { old with ajar := a, lock := l }
  let q := q.setDoors { q.doors with settling := q.doors.settling.map fun t =>
    { t with doors := t.doors.set d (t.doors.get d || decide (l ≠ old.lock)) } }
  let q := match a with
    | .isOpen =>
      let q := q.setDoors { q.doors with relock := none }
      let notice := fun r : Request => { r with opened := r.opened || decide (r.purpose = .lock) }
      let q := q.setLocator { q.locator with
        list := q.locator.list.map notice
        flight := q.locator.flight.map fun f => { f with request := notice f.request } }
      q.appendRow (doorOpenedRow d l)
    | .isClosed => q.appendRow (doorClosedRow d l)
  if l = old.lock then q else q.markDirty .lock

/-! ### Power-on and crash -/

/-- The provisional door states as door service begins (R27). -/
def Part.beginDoorService (p : Part) (ajar : PerDoor Ajar) (ign : Bool) : Part :=
  p.setDoors { p.doors with
    recs := .build fun d => { p.door d with
      ajar := ajar.get d
      lock := if ajar.get d = .isOpen then .lockPending else .locked }
    ign := ign }

/-- Every adopted value is the stored one (R27): an adopted LOCK-PENDING differs from the stored LOCKED. -/
def Part.adoptedAs (p : Part) (k : LockKeep) : Bool :=
  (Door.all.all fun d => decide ((p.door d).lock = k.locks.get d)) && !p.childLocksDiffer k.childRL k.childRR

/-- The lock record is delivered (R27): what is not settled takes its value; an open door's lock becomes
LOCK-PENDING; the record is marked when an adopted value differs from the stored one; settling ends. -/
def Part.deliverLocks (p : Part) (k : LockKeep) : Part :=
  match p.doors.settling with
  | none => p
  | some t =>
    let q := p.setDoors { p.doors with
      recs := .build fun d => { p.door d with
        lock := if t.doors.get d then (p.door d).lock
          else if (k.locks.get d).barred ∧ (p.door d).ajar = .isOpen then .lockPending else k.locks.get d }
      childRL := if t.childRL then p.doors.childRL else k.childRL
      childRR := if t.childRR then p.doors.childRR else k.childRR
      settling := none }
    let q := { q with lockout := k.lockout }
    if q.adoptedAs k then q else q.markDirty .lock

/-- The defaults of a bad lock record (R208). -/
def LockKeep.default : LockKeep := ⟨PerDoor.all .unlocked, .engaged, .engaged, false⟩

/-- The doors a crash event changes, and whether it changes a child lock (R167). -/
def Part.crashDoorChanges (p : Part) : PerDoor Bool := .build fun d => decide ((p.door d).lock ≠ .unlocked)
def Part.crashChildChanges (p : Part) : Bool := p.childLocksDiffer .released .released

/-- The controller's part of a crash event (R167): everything unlocked and released and so settled (R27). -/
def Part.crashDoors (p : Part) : Part :=
  let altered := anyDoor p.crashDoorChanges || p.crashChildChanges
  let q := (p.setLocks fun _ => .unlocked).setChildLocks .released .released
  let q := q.setDoors { q.doors with
    relock := none
    press := none
    settling := q.doors.settling.map fun _ => ⟨allDoors, true, true⟩ }
  if altered then q.markDirty .lock else q

end Sys2Proof.Machine
end

