-- ==== Sys2Proof/Machine/Sequence.lean ====
section
/-! DEFINITION. The Closure Sequencer's record: the reports it takes (R154), the judgement of an operation's end (R155)
and its results. -/

namespace Sys2Proof.Machine

def EntryState.live : EntryState → Bool
  | .waiting | .moving => true
  | .done | .skipped => false

def Operation.anyLive (o : Operation) : Bool := Corner.all.any fun c => (o.entries.get c).state.live

/-- COMPLETED where every entry is DONE with END, or for VENT with END or TARGET; PARTIAL otherwise (R155). -/
def Operation.outcome (o : Operation) : OpOutcome :=
  if Corner.all.all fun c =>
      let e := o.entries.get c
      decide (e.state = .done ∧ (e.reason = some .atEnd ∨ (o.kind = .vent ∧ e.reason = some .target)))
  then .completed else .partway

def OpOutcome.order : OpOutcome → OrderOutcome
  | .completed => .completed
  | .partway => .partway
  | .cancelled => .cancelled
  | .crash => .crash

/-- The result words: entry state and reason of each window; lock action taken (11.6, which gives the kind no place; log 73). -/
def Operation.word6 (o : Operation) : Word :=
  packWord (Corner.all.flatMap fun c => [codeField 4 (o.entries.get c).state.ctorIdx, reasonField (o.entries.get c).reason])

def Operation.word7 (o : Operation) : Word := packWord [codeOrAbsent 3 (o.lock.map (·.ctorIdx))]

/-- The record becomes ENDED with its outcome; an order ends, an operation of origin HOLD writes no row (R155). -/
def Part.endOperation (p : Part) (out : OpOutcome) : Part :=
  match p.operation with
  | none => p
  | some o =>
    let q := p.setOperation (some { o with ended := some ⟨out, p.clock⟩ })
    match o.origin with
    | .order s => q.orderDone s out.order o.word6 o.word7
    | .hold _ => q

/-- R155: a running operation without a WAITING or MOVING entry ends. -/
def Part.judgeOperation (p : Part) : Part :=
  match p.operation with
  | none => p
  | some o => if o.running && !o.anyLive then p.endOperation o.outcome else p

def Part.setEntry (p : Part) (c : Corner) (e : Entry) : Part :=
  p.setOperation (p.operation.map fun o => { o with entries := o.entries.set c e })

/-- The entry of a running operation that a report for a window meets: WAITING or MOVING (R154). -/
def Part.liveEntry (p : Part) (c : Corner) : Option Entry :=
  p.operation.bind fun o => if o.running && (o.entries.get c).state.live then some (o.entries.get c) else none

/-- A report that a Sequencer command has ended (R154); judged under R155 unless the crash event or SAFE-HOLD entry,
which end the operation themselves, took it (R158, R159). -/
def Part.reportEnd (p : Part) (c : Corner) (r : EntryReason) (judge : Bool) : Part :=
  match p.liveEntry c with
  | none => p
  | some e =>
    let q := p.setEntry c { e with state := .done, reason := some r }
    if judge then q.judgeOperation else q

/-- A report that a Sequencer command has been granted (R154). -/
def Part.reportGrant (p : Part) (c : Corner) : Part :=
  match p.liveEntry c with
  | none => p
  | some e => p.setEntry c { e with state := .moving }

/-- The stop reason as an entry holds it (R154, R156, R157). -/
def StopReason.entry : StopReason → EntryReason
  | .atEnd => .atEnd
  | .target => .target
  | .switchReleased => .switchReleased
  | .pinch => .pinch
  | .stall => .stall
  | .preempted => .preempted
  | .supply => .supply
  | .crash => .crash
  | .cancelled => .cancelled
  | .overridden => .overridden
  | .reset => .reset
  | .thermalStartRefused => .thermal

end Sys2Proof.Machine
end

