-- ==== Sys2Proof/Machine/Motion.lean ====
section
/-! DEFINITION. A window's stop (R64), its start (R62), what its mover is told, the end of a learn (R92), and the pinch
reaction (R80, R83). -/

namespace Sys2Proof.Machine

/-- The outcome a stop gives a MOVE-WINDOW or LEARN-WINDOW order (R64). -/
def StopReason.outcome : StopReason → OrderOutcome
  | .atEnd | .target => .completed
  | .pinch => .pinch
  | .stall => .stall
  | .preempted => .preempted
  | .supply => .supply
  | .crash => .crash
  | .overridden => .overridden
  | .switchReleased | .cancelled | .reset | .thermalStartRefused => .cancelled

/-- A MOVE-WINDOW order's results: stop reason (absent where nothing stopped, log 27), position; heat count. The window
that R69 names beside them has no place in 11.6's table of results, which the part follows (log 57). -/
def WindowRec.word6 (w : WindowRec) (r : Option StopReason) : Word :=
  packWord [codeOrAbsent 12 (r.map (·.ctorIdx)), positionField w.position]
def WindowRec.word7 (w : WindowRec) : Word := packWord [numField 11 w.heat]

def Part.endMoveOrder (p : Part) (c : Corner) (s : Slot) (o : OrderOutcome) (stop : Option StopReason) : Part :=
  p.orderDone s o ((p.window c).word6 stop) (p.window c).word7

/-- The position of a window whose learn has ended is brought within its travel length (R92); where that changes it the
record is marked again, since the stop's commit may have begun with the uncut position (log 29). -/
def Part.clampPosition (p : Part) (c : Corner) : Part :=
  let w := p.window c
  if w.position ≤ w.travel then p else (p.setWindow c { w with position := w.travel }).markDirty (.window c)

/-- The learn operation becomes absent with its LEARN-END row, unless it was PENDING (R92, log 30). -/
def Part.closeLearn (p : Part) (c : Corner) (l : Learn) (o : Option OrderOutcome) (measured : Option Nat) : Part :=
  let q := p.setMonitor c { p.monitor c with learn := none }
  if l.phase = .pending then q else q.appendRow (learnEndRow c (o.map (·.code)) l.phase measured)

/-- A learn ends (R92 to R94): its LEARN-END row, its order, the position back within the travel length. -/
def Part.endLearn (p : Part) (c : Corner) (o : OrderOutcome) (measured : Option Nat) (clamp : Bool) : Part :=
  match (p.monitor c).learn with
  | none => p
  | some l =>
    let q := (p.closeLearn c l (some o) measured).orderDone l.slot o
      (packWord [codeField 3 l.phase.ctorIdx, positionOrAbsent measured]) (packWord [positionField (p.window c).position])
    if clamp then q.clampPosition c else q

/-- The learn operation whose order is this mover. -/
def Part.learnOf (p : Part) (c : Corner) (m : Mover) : Option Learn :=
  (p.monitor c).learn.bind fun l => if m = .order l.slot then some l else none

/-- The mover of a move or pending command is told its end (R64, R58, R61, R93). A switch is told nothing. -/
def Part.tellMover (p : Part) (c : Corner) (m : Option Mover) (o : OrderOutcome) (e : EntryReason)
    (stop : Option StopReason) (judge : Bool) : Part :=
  match m with
  | none | some .doorSwitch | some .masterSwitch => p
  | some .sequencer => p.reportEnd c e judge
  | some (.order s) =>
    match p.learnOf c (.order s) with
    | some _ => p.endLearn c o none (decide (stop ≠ some .pinch))
    | none => p.endMoveOrder c s o stop

/-- The mover is told the stop reason itself. -/
def Part.tellStop (p : Part) (c : Corner) (m : Option Mover) (r : StopReason) (judge : Bool) : Part :=
  p.tellMover c m r.outcome r.entry (some r) judge

/-- The mover loses the window to another command (R58). -/
def Part.tellLost (p : Part) (c : Corner) (m : Option Mover) (stop : Option StopReason) : Part :=
  p.tellMover c m .overridden .overridden stop true

/-- A holder leaves the holders list (R98, R103). -/
def Part.dropHolder (p : Part) (a : Actuator) : Part :=
  p.setLists (p.holders.filter fun h => decide (h.actuator ≠ a)) p.waiting

/-- A request leaves the waiting list (R102). -/
def Part.dropWaiter (p : Part) (a : Actuator) : Part :=
  p.setLists p.holders (p.waiting.filter fun w => decide (w.actuator ≠ a))

/-- The window's fields after a stop: steps 1, 3 and 4 of R64; the position within the travel once no learn runs. -/
def WindowRec.stopped (w : WindowRec) (r : StopReason) (now : Nat) (learning : Bool) : WindowRec :=
  { w with
    position := if learning then w.position else min w.position w.travel
    motion := .stopped
    mode := none
    target := none
    mover := none
    forExpress := false
    lastStop := some r
    movingFlag := false
    coast := some ⟨now + 100, w.motion.dir⟩
    lastPulse := none
    ramp := none }

/-- The monitor's fields after a stop (R85, R84, R81). -/
def MonitorRec.stopped (m : MonitorRec) : MonitorRec :=
  { m with baseline := [], settled := false, stallAt := none, forceInUse := false, reversalTarget := none }

/-- The bridge de-energised, the fields cleared, and the STOPPED row: the part of R64 that a direction change shares. -/
def Part.halt (p : Part) (c : Corner) (r : StopReason) : Part :=
  let w := p.window c
  let w' := w.stopped r p.clock (p.monitor c).learn.isSome
  ((p.setWindow c w').setMonitor c (p.monitor c).stopped).appendRow (stoppedRow c r w.mover w'.position)

/-- Steps 1 to 5 of R64: halted, the units given back (or already withdrawn), the record marked. -/
def Part.stopWindow (p : Part) (c : Corner) (r : StopReason) : Part :=
  ((p.halt c r).dropHolder (.window c)).markDirty (.window c)

/-- A whole R64 stop: step 6 tells the mover; a REVERSING window's mover was told at the pinch (R81). -/
def Part.stopAndTell (p : Part) (c : Corner) (r : StopReason) (judge : Bool) : Part :=
  let w := p.window c
  (p.stopWindow c r).tellStop c (if w.motion = .reversing then none else w.mover) r judge

/-- The start of a drive at the window and the monitor (R62, R66, R67, R76). The first counted pulse carries no period, that
of a reversal neither (R51; log 95). -/
def WindowRec.driving (w : WindowRec) (m : Motion) (now rampTime : Nat) : WindowRec :=
  { w with
    motion := m
    movingFlag := true
    idle := 0
    coast := none
    lastPulse := none
    ramp := some ⟨now, now + rampTime⟩ }

def MonitorRec.driving (m : MonitorRec) (now : Nat) : MonitorRec :=
  { m with baseline := [], settled := false, stallAt := some (now + 200), floor := now + 200 }

/-- A MANUAL close that starts while force is armed takes the force (R84). -/
def MonitorRec.takesForce (m : MonitorRec) (cmd : Command) : Bool :=
  m.forceArmed.isSome && decide (cmd.mode = .manual ∧ cmd.dir = .closing)

/-- A granted command becomes the window's move (R62, R84), with its STARTED row and the record's mark. -/
def Part.startMove (p : Part) (c : Corner) (cmd : Command) : Part :=
  let force := (p.monitor c).takesForce cmd
  let w := (p.window c).driving cmd.dir.motion p.clock p.cfg.rampTime
  let w := { w with
    mode := some cmd.mode
    target := cmd.target
    mover := some cmd.mover
    forExpress := cmd.forExpress
    pending := none }
  let m := (p.monitor c).driving p.clock
  let m := if force then { m with forceInUse := true, forceArmed := none, history := [] } else m
  (((p.setWindow c w).setMonitor c m).appendRow (startedRow c cmd w.position force)).markDirty (.window c)

/-- A window is told its grant (R62): the pending command starts, a PENDING learn begins phase DOWN (R92), and a
Sequencer command is reported granted (R154). -/
def Part.windowGranted (p : Part) (c : Corner) : Part :=
  match (p.window c).pending with
  | none => p
  | some pend =>
    let m := p.monitor c
    let q := p.setMonitor c { m with learn := m.learn.map fun l => { l with phase := .down, count := 0 } }
    let q := q.startMove c pend.cmd
    if pend.cmd.mover = .sequencer then q.reportGrant c else q

/-- The pending command is gone; what its mover is told is the caller's. -/
def Part.dropPending (p : Part) (c : Corner) : Part :=
  (p.setWindow c { p.window c with pending := none }).dropWaiter (.window c)

/-- The pending command is withdrawn and its mover told (R61). -/
def Part.withdrawPending (p : Part) (c : Corner) (o : OrderOutcome) (e : EntryReason) (judge : Bool) : Part :=
  match (p.window c).pending with
  | none => p
  | some pend => (p.dropPending c).tellMover c (some pend.cmd.mover) o e none judge

/-- The mover of a pending command loses it to another (R58). -/
def Part.pendingLost (p : Part) (c : Corner) : Part := p.withdrawPending c .overridden .overridden true

/-! ### Pinch (R80, R83) -/

/-- The window is made UNLEARNED (R87); the caller writes the row. -/
def Part.unlearn (p : Part) (c : Corner) : Part :=
  (p.setWindow c { p.window c with learned := false }).markDirty (.window c)

/-- The pinch lockout cleared with its row where it was on (R82). -/
def Part.clearPinchLockout (p : Part) (c : Corner) (cause : LockoutCause) : Part :=
  if (p.window c).pinchLockout then
    (p.setWindow c { p.window c with pinchLockout := false }).appendRow (lockoutClearedRow c cause)
  else p

/-- The history with a new entry, the oldest of three given up first (R83). -/
def addPinch (h : List PinchEntry) (e : PinchEntry) : List PinchEntry := (h.drop (h.length - 2)) ++ [e]

/-- Three MANUAL entries within 10 000 ms arm force (R83). -/
def armsForce (h : List PinchEntry) : Bool :=
  match h with
  | [a, b, c] => decide (a.kind = .manual ∧ b.kind = .manual ∧ c.kind = .manual ∧ c.time - a.time ≤ 10000)
  | _ => false

/-- The whole pinch reaction of R80, in its order; a learn's order ends PINCH (R93). -/
def Part.pinch (p : Part) (c : Corner) (found : PinchFound) : Part :=
  let w := p.window c
  let m := p.monitor c
  let back := w.position - p.cfg.reversalDistance
  let kind : CloseKind := if w.mode = some .manual then .manual else .other
  let history := addPinch m.history ⟨p.clock, kind⟩
  let arms := armsForce history
  let q := p.appendRow (stoppedRow c .pinch w.mover w.position)
  let q := q.setWindow c { w with lastStop := some .pinch }
  let q := q.tellStop c w.mover .pinch true
  let w' := (q.window c).driving .reversing p.clock p.cfg.rampTime
  let q := q.setWindow c { w' with mode := none, target := none, forExpress := false, pinchLockout := true }
  let q := q.setMonitor c { (q.monitor c).driving p.clock with
    reversalTarget := some back
    history := history
    forceInUse := false
    forceArmed := if arms then some (p.clock + 10000) else none }
  let q := q.appendRow (pinchRow c found w.position back)
  let q := if arms then q.appendRow (forceArmedRow c (p.clock + 10000)) else q
  q.markDirty (.window c)

end Sys2Proof.Machine
end

