-- ==== Sys2Proof/Machine/Latches.lean ====
section
/-! DEFINITION. The Latch Release Unit (spec/02) and the Drive Budget Arbiter (spec/05): requests, grants, returns,
escapes, budget falls, and the release operation's course. -/

namespace Sys2Proof.Machine

/-! ### The release operation's own steps -/

def SourceSet.add (s : SourceSet) : ReleaseSource → SourceSet
  | .outer => { s with outer := true }
  | .inner => { s with inner := true }
  | .tgButton => { s with tgButton := true }
  | .remoteTg => { s with remoteTg := true }
  | .order => { s with order := true }

def SourceSet.empty : SourceSet := ⟨false, false, false, false, false⟩

/-- The door record after an outcome (R3): the outcome field, and the latch fault HELD set or cleared. -/
def DoorRec.withOutcome (d : DoorRec) (o : ReleaseOutcome) : DoorRec :=
  { d with
    outcome := some o
    fault := match o, d.fault with
      | .held, .sound => .held
      | .opened, .held => .sound
      | _, f => f }

def ReleaseOutcome.order : ReleaseOutcome → OrderOutcome
  | .opened => .opened
  | .held => .held
  | .budgetTimeout => .budgetTimeout
  | .abortedSupply => .abortedSupply

/-- A RELEASE-LATCH order's results: door, attempt, precedence (11.6). -/
def releaseWord6 (d : Door) (op : ReleaseOp) : Word :=
  packWord [codeField 5 d.ctorIdx, numField 2 (op.second.toNat + 1), codeField 2 op.prec.ctorIdx]

/-- A release operation ends (R41): outcome, row, orders in the order they joined, IDLE. -/
def Part.endRelease (p : Part) (d : Door) (o : ReleaseOutcome) : Part :=
  match p.latch d with
  | none => p
  | some op =>
    let q := p.setDoor d ((p.door d).withOutcome o)
    let q := q.appendRow (releaseEndRow d o op.second op.sources op.prec)
    let q := op.orders.foldl (fun r s => r.orderDone s o.order (releaseWord6 d op)) q
    q.setLatch d none

/-- PULSING (R38): the driver energised, the pulse timer started. -/
def Part.startPulse (p : Part) (d : Door) : Part :=
  match p.latch d with
  | none => p
  | some op => p.setLatch d (some { op with state := .pulsing, timer := some (p.clock + p.cfg.latchPulse) })

/-! ### Requests, grants and returns -/

/-- A request's wait limit (R99). -/
def waitLimit : Precedence → Nat
  | .release => 1000
  | .window | .escape => 2000

def actuatorUnits : Actuator → Nat
  | .window _ => 2
  | .latch _ => 1

/-- A RELEASE request is placed after the last RELEASE entry, a WINDOW request at the end (R99). -/
def placeWaiter (l : List Waiter) (w : Waiter) : List Waiter :=
  match w.prec with
  | .release => l.takeWhile (fun x => decide (x.prec = .release)) ++ [w] ++ l.dropWhile (fun x => decide (x.prec = .release))
  | .window | .escape => l ++ [w]

def Part.request (p : Part) (a : Actuator) (prec : Precedence) : Part :=
  p.setLists p.holders (placeWaiter p.waiting ⟨a, actuatorUnits a, prec, p.clock, p.clock + waitLimit prec⟩)

/-- The requester is told of its grant (R100). -/
def Part.tellGrant (p : Part) : Actuator → Part
  | .window c => p.windowGranted c
  | .latch d => p.startPulse d

/-- Granting from the head, at most `n` entries (R100). -/
def grantHeads : Nat → Part → Part
  | 0, p => p
  | n + 1, p =>
    match p.waiting with
    | [] => p
    | w :: rest =>
      if w.units ≤ p.unitsFree then
        grantHeads n ((p.setLists (p.holders ++ [⟨w.actuator, w.units, w.prec, p.clock, .withinBudget⟩]) rest).tellGrant w.actuator)
      else p

def Part.grantFromHead (p : Part) : Part := grantHeads p.waiting.length p

/-- An event's own effect, then granting from the head where it changed the lists or the budget in force (R100,
log 11). -/
def settle (f : Part → Part) (p : Part) : Part :=
  let q := f p
  if q.holders = p.holders ∧ q.waiting = p.waiting ∧ q.budget = p.budget then q else q.grantFromHead

/-- The most recently granted WINDOW holder whose window is not REVERSING (R104). -/
def Part.preemptable (p : Part) : Option Corner :=
  p.holders.reverse.findSome? fun h =>
    match h.actuator with
    | .window c => if (p.window c).motion = .reversing then none else some c
    | .latch _ => none

/-- An escape holder appended, its pulse started and its ESCAPE-GRANTED row written (R104, R36). -/
def Part.escapeHolder (p : Part) (d : Door) (k : GrantKind) (w : Option Corner) : Part :=
  let second := ((p.latch d).map (·.second)).getD false
  let q := p.setLists (p.holders ++ [⟨.latch d, 1, .escape, p.clock, k⟩]) p.waiting
  (q.startPulse d).appendRow (escapeGrantedRow d second k w)

/-- An ESCAPE request is granted in the event that makes it (R104). -/
def Part.grantEscape (p : Part) (d : Door) : Part :=
  if 1 ≤ p.unitsFree then p.escapeHolder d .freeUnit none
  else
    match p.preemptable with
    | some c => (p.stopAndTell c .preempted true).escapeHolder d .preempted (some c)
    | none => p.escapeHolder d .overBudget none

/-- The holder a budget fall withdraws next: the newest WINDOW, then the newest RELEASE (R107). -/
def Part.nextWithdrawn (p : Part) : Option Actuator :=
  let newest := fun prec : Precedence => (p.holders.reverse.find? fun h => decide (h.prec = prec)).map (·.actuator)
  (newest .window).or (newest .release)

/-- Withdrawal of a holder on a budget fall (R63, R43, R107). -/
def Part.withdrawHolder (p : Part) : Actuator → Part
  | .window c => p.stopAndTell c .supply true
  | .latch d => (p.dropHolder (.latch d)).endRelease d .abortedSupply

/-- Holders withdrawn one at a time until the units held fit, or only escapes are left (R107). -/
def withdrawOver : Nat → Part → Part
  | 0, p => p
  | n + 1, p =>
    if unitsHeld p.holders ≤ p.budget then p
    else
      match p.nextWithdrawn with
      | none => p
      | some a => withdrawOver n (p.withdrawHolder a)

/-- The arbiter meets a budget recomputed from `before` (R96): only a fall withdraws (R107); the same number changes
nothing, and after a rise or a fall `settle` grants (R106). -/
def Part.meetBudget (p : Part) (before : Nat) : Part :=
  if p.budget < before then withdrawOver p.holders.length p else p

/-! ### Release requests -/

/-- An operation raised to ESCAPE by an INNER request (the table of R42). -/
def Part.raiseRelease (p : Part) (d : Door) (op : ReleaseOp) : Part :=
  let q := p.setLatch d (some { op with prec := .escape })
  match op.state with
  | .waiting | .retry => (q.dropWaiter (.latch d)).grantEscape d
  | .pulsing =>
    q.setLists (q.holders.map fun h => if h.actuator = .latch d then { h with prec := .escape } else h) q.waiting
  | .confirming => q

/-- A request joins the operation in flight (R42). -/
def Part.joinRelease (p : Part) (d : Door) (op : ReleaseOp) (src : ReleaseSource) (slot : Option Slot) : Part :=
  let op' := { op with sources := op.sources.add src, orders := op.orders ++ slot.toList }
  if src = .inner ∧ op.prec = .release then p.raiseRelease d op' else p.setLatch d (some op')

/-- An IDLE operation starts and makes its drive request (R31 step 4, R36, R37). -/
def Part.beginRelease (p : Part) (d : Door) (src : ReleaseSource) (slot : Option Slot) : Part :=
  let prec : ReleasePrecedence := if src = .inner then .escape else .release
  let q := p.setLatch d (some ⟨.waiting, false, prec, SourceSet.empty.add src, slot.toList, none⟩)
  match prec with
  | .escape => q.grantEscape d
  | .release => q.request (.latch d) .release

/-- A release request that has passed its source's own conditions (R31). -/
def Part.releaseRequest (p : Part) (d : Door) (src : ReleaseSource) (slot : Option Slot) : Part :=
  let r := p.door d
  if r.ajar = .isOpen then
    match slot with
    | some s => p.orderDone s .alreadyOpen (packWord [codeField 5 d.ctorIdx])
    | none => p
  else if r.fault = .driver ∧ src ≠ .inner then
    let q := p.appendRow (releaseUnavailableRow d src)
    match slot with
    | some s => q.orderRefused s .unavailable
    | none => q
  else
    let q := match slot with
      | some s => p.orderTaken s
      | none => p
    match p.latch d with
    | some op => q.joinRelease d op src slot
    | none => q.beginRelease d src slot

/-- R35: an inner handle pull. -/
def Part.innerPull (p : Part) (c : Corner) : Part :=
  let d := c.toDoor
  let r := p.door d
  if r.ajar = .isOpen then p
  else if r.lock = .deadlocked then p.appendRow (innerRefusedRow d false)
  else if p.doors.childLock d = some .engaged then p.appendRow (innerRefusedRow d true)
  else if r.lock = .locked then (p.lockAction .inner .unlock (oneDoor d)).releaseRequest d .inner none
  else p.releaseRequest d .inner none

/-- R32: an outer pull that reaches the Latch Release Unit. -/
def Part.outerRequest (p : Part) (d : Door) : Part :=
  if (p.door d).lock.barred then p.appendRow (outerRefusedRow d (p.door d).lock) else p.releaseRequest d .outer none

/-- R44: a RELEASE-LATCH order. -/
def Part.releaseOrder (p : Part) (s : Slot) (d : Door) : Part :=
  if (p.door d).lock.barred then p.orderRefused s .doorLocked else p.releaseRequest d .order (some s)

/-! ### The operation's course -/

/-- An ajar opening meets the door's operation (R37 to R40): it ends OPENED. -/
def Part.latchOpened (p : Part) (d : Door) : Part :=
  match p.latch d with
  | none => p
  | some op =>
    match op.state with
    | .waiting | .retry => (p.dropWaiter (.latch d)).endRelease d .opened
    | .pulsing => (p.dropHolder (.latch d)).endRelease d .opened
    | .confirming => p.endRelease d .opened

/-- R38: the pulse timer expires. -/
def Part.pulseExpiry (p : Part) (d : Door) : Part :=
  match p.latch d with
  | some op =>
    if op.state = .pulsing ∧ due op.timer p.clock then
      (p.dropHolder (.latch d)).setLatch d (some { op with state := .confirming, timer := some (p.clock + p.cfg.confirmWindow) })
    else p
  | none => p

/-- R39, R40: the confirm timer expires. -/
def Part.confirmExpiry (p : Part) (d : Door) : Part :=
  match p.latch d with
  | some op =>
    if op.state = .confirming ∧ due op.timer p.clock then
      if op.second then p.endRelease d .held
      else
        let q := p.setLatch d (some { op with state := .retry, second := true, timer := none })
        match op.prec with
        | .escape => q.grantEscape d
        | .release => q.request (.latch d) .release
    else p
  | none => p

/-- R192, R44: a cancelled RELEASE-LATCH order leaves its operation, which goes on. -/
def Part.cancelRelease (p : Part) (s : Slot) : Part :=
  let holds := fun d => ((p.latch d).any fun op => op.orders.contains s)
  match Door.all.find? holds with
  | none => p.orderDone s .cancelled
  | some d =>
    match p.latch d with
    | none => p.orderDone s .cancelled
    | some op =>
      (p.setLatch d (some { op with orders := op.orders.filter fun x => decide (x ≠ s) })).orderDone s .cancelled (releaseWord6 d op)

/-- An ajar change delivered: the Door and Lock Controller, then the Latch Release Unit (R175). -/
def Part.deliverAjar (p : Part) (d : Door) (a : Ajar) : Part :=
  let q := p.ajarEvent d a
  match a with
  | .isOpen => q.latchOpened d
  | .isClosed => q

end Sys2Proof.Machine
end

