-- ==== Sys2Proof/Machine/Windows.lean ====
section
/-! DEFINITION. The Window Controller's commands (spec/03, R52 to R71): start checks, replacement, switches, the rear
lockout, MOVE-WINDOW and its cancel, wait limits, heat. -/

namespace Sys2Proof.Machine

/-! ### Judging a command -/

/-- What a move command meets (R59, R60, R65, R93). -/
inductive Verdict where
  | busy
  | refused (r : StartRefusal)
  | already (r : StopReason)
  | passes
  deriving DecidableEq, Repr

/-- The command with its target within the soft stops and its direction from the position (R60, R65; log 36). -/
def WindowRec.aimed (w : WindowRec) (cfg : Config) (cmd : Command) : Command :=
  match cmd.target with
  | none => cmd
  | some t =>
    let t' := if w.learned then w.clampTarget cfg t else t
    { cmd with target := some t', dir := if w.position < t' then .closing else .opening }

/-- At or beyond the soft stop of a direction (R65). -/
def WindowRec.atSoftStop (w : WindowRec) (cfg : Config) : Direction → Bool
  | .opening => decide (w.position ≤ bottomStop cfg)
  | .closing => decide (w.topStop cfg ≤ w.position)

/-- A command found already done, with the reason it gives (R59, R65). -/
def WindowRec.alreadyDone (w : WindowRec) (cfg : Config) (cmd : Command) : Option StopReason :=
  match cmd.mode, cmd.target with
  | .express, _ => if w.atSoftStop cfg cmd.dir then some .atEnd else none
  | .target, some t =>
    if (t = w.topStop cfg ∧ w.topStop cfg ≤ w.position) ∨ (t = bottomStop cfg ∧ w.position ≤ bottomStop cfg) then some .atEnd
    else if t = w.position then some .target
    else none
  | _, _ => none

/-- The start checks of R60, in order, on an aimed command. -/
def Part.startCheck (p : Part) (c : Corner) (cmd : Command) : Option StartRefusal :=
  let w := p.window c
  if p.outOfService c then some .outOfService
  else if w.atRest && w.thermal then some .thermal
  else if cmd.dir = .closing ∧ p.crashSet = true then some .crashLatch
  else if w.learned = false ∧ (cmd.mode ≠ .manual ∨ cmd.mover = .sequencer) then some .unlearned
  else if cmd.mode = .express ∧ cmd.dir = .closing ∧ w.pinchLockout = true then some .pinchLockout
  else none

def Mover.isSwitch : Mover → Bool
  | .doorSwitch | .masterSwitch => true
  | .order _ | .sequencer => false

/-- The verdict on an aimed command: BUSY while REVERSING, or while a learn runs unless a switch commands (R59, R93). -/
def Part.verdict (p : Part) (c : Corner) (cmd : Command) : Verdict :=
  let w := p.window c
  if w.motion = .reversing ∨ ((p.monitor c).learn.isSome ∧ cmd.mover.isSwitch = false) then .busy
  else
    match p.startCheck c cmd with
    | some r => .refused r
    | none =>
      match w.alreadyDone p.cfg cmd with
      | some r => .already r
      | none => .passes

/-! ### Applying a command -/

/-- A command taken ends a re-reference watch (R89). -/
def Part.endWatch (p : Part) (c : Corner) : Part := p.setMonitor c { p.monitor c with watch := none }

/-- The earlier mover of a move is told it lost the window, unless it is the same (R58). -/
def Part.moverLoses (p : Part) (c : Corner) (old : Option Mover) (new : Mover) (stop : Option StopReason) : Part :=
  if old = some new then p else p.tellLost c old stop

/-- A THERMAL refusal leaves its mark in the last stop reason (R60). -/
def Part.noteRefusal (p : Part) (c : Corner) : StartRefusal → Part
  | .thermal => p.setWindow c { p.window c with lastStop := some .thermalStartRefused }
  | _ => p

/-- A command found already done (R59, R65): a moving window stops, a pending command is withdrawn. -/
def Part.applyDone (p : Part) (c : Corner) (cmd : Command) (r : StopReason) : Part :=
  let w := p.window c
  let p := p.endWatch c
  if w.underWay then (p.stopWindow c r).moverLoses c w.mover cmd.mover (some r)
  else
    match w.pending with
    | none => p
    | some pend => if pend.cmd.mover = cmd.mover then p.dropPending c else p.pendingLost c

/-- The monitor after a same-direction replacement: force ends when the mode leaves MANUAL (R84, R77). -/
def MonitorRec.replaced (m : MonitorRec) (mode : Mode) : MonitorRec :=
  if m.forceInUse ∧ mode ≠ .manual then { m with forceInUse := false, baseline := [] } else m

/-- A command that passes: pending on a window at rest, or replacing a pending command or a move (R58, R59, R61). -/
def Part.applyPassed (p : Part) (c : Corner) (cmd : Command) : Part :=
  let w := p.window c
  let p := p.endWatch c
  if w.underWay then
    if w.motion = cmd.dir.motion then
      let q := p.moverLoses c w.mover cmd.mover none
      let x := { q.window c with
        mover := some cmd.mover
        mode := some cmd.mode
        target := cmd.target
        forExpress := cmd.forExpress }
      ((q.setWindow c x).setMonitor c ((q.monitor c).replaced cmd.mode)).appendRow (moverChangedRow c cmd x.position)
    else ((p.halt c .overridden).moverLoses c w.mover cmd.mover (some .overridden)).startMove c cmd
  else
    match w.pending with
    | none =>
      (p.setWindow c { p.window c with pending := some ⟨cmd, p.clock⟩ }).request (.window c) .window
    | some pend =>
      let q := p.moverLoses c (some pend.cmd.mover) cmd.mover none
      q.setWindow c { q.window c with pending := some ⟨cmd, pend.since⟩ }

/-- A command that is not refused takes its effect. -/
def Part.applyCommand (p : Part) (c : Corner) (cmd : Command) : Part :=
  match p.verdict c cmd with
  | .busy => p
  | .refused r => p.noteRefusal c r
  | .already r => p.applyDone c cmd r
  | .passes => p.applyPassed c cmd

/-! ### Switches (R52 to R55) -/

def Switch.mover : Switch → Mover
  | .master _ => .masterSwitch
  | .door _ => .doorSwitch

def Stage.dir : Stage → Option Direction
  | .neutral => none
  | .up1 | .up2 => some .closing
  | .down1 | .down2 => some .opening

def Stage.isSecond : Stage → Bool
  | .up2 | .down2 => true
  | .neutral | .up1 | .down1 => false

def markSpent (p : Part) (sw : Switch) (b : Bool) : Part := { p with spent := p.spent.set sw b }

/-- A MANUAL or EXPRESS command of a switch (R53, R54): a refusal writes its START-REFUSED row, and an EXPRESS refused
with UNLEARNED or PINCH-LOCKOUT is taken as MANUAL, without a second row while that MANUAL moves or is pending (log 69). -/
def Part.switchCommand (p : Part) (sw : Switch) (dir : Direction) (express : Bool) : Part :=
  let c := sw.window
  let w := p.window c
  let mode : Mode := if express then .express else .manual
  let cmd : Command := ⟨dir, mode, Switch.mover sw, none, false⟩
  let manual : Command := ⟨dir, .manual, Switch.mover sw, none, true⟩
  let standsFor := (w.underWay && decide (w.mover = some manual.mover ∧ w.motion = dir.motion) && w.forExpress) ||
    w.pending.any fun pend => decide (pend.cmd = manual)
  match p.verdict c cmd with
  | .refused .unlearned =>
    if standsFor then p else (p.appendRow (startRefusedRow c .unlearned sw .express)).applyCommand c manual
  | .refused .pinchLockout =>
    if standsFor then p else (p.appendRow (startRefusedRow c .pinchLockout sw .express)).applyCommand c manual
  | .refused r => (p.noteRefusal c r).appendRow (startRefusedRow c r sw mode)
  | .busy | .already _ | .passes => p.applyCommand c cmd

/-- A release (R53): a MANUAL move of this switch stops, a pending MANUAL command of it is withdrawn. -/
def Part.switchRelease (p : Part) (sw : Switch) : Part :=
  let c := sw.window
  let w := p.window c
  if w.underWay ∧ w.mover = some (Switch.mover sw) ∧ w.mode = some .manual then p.stopAndTell c .switchReleased true
  else
    match w.pending with
    | some pend => if pend.cmd.mover = Switch.mover sw ∧ pend.cmd.mode = .manual then p.dropPending c else p
    | none => p

/-- A switch's stage makes no command: it is spent, or a rear door switch under the lockout (R52, R56). -/
def Part.switchIdle (p : Part) (sw : Switch) : Bool :=
  p.spent.get sw || (p.lockout && decide (sw = .door .rl ∨ sw = .door .rr))

/-- A stage entry that is not NEUTRAL, by the table of R52: easing from stage 2 to stage 1 makes no command; another
entry against an EXPRESS move is R55's stop, else a MANUAL or an EXPRESS command. -/
def Part.stageEntry (p : Part) (sw : Switch) (old new : Stage) (dir : Direction) : Part :=
  let w := p.window sw.window
  if Stage.isSecond new = false ∧ Stage.dir old = some dir then p
  else if w.underWay ∧ w.mode = some .express ∧ w.motion ≠ dir.motion then
    markSpent (p.stopAndTell sw.window .switchReleased true) sw true
  else p.switchCommand sw dir (Stage.isSecond new)

/-- R52: a stage change delivered to the Window Controller. A watch ends when its switch leaves UP (R89). -/
def Part.switchStage (p : Part) (sw : Switch) (old new : Stage) : Part :=
  let leavesUp := decide (((p.monitor sw.window).watch.map (·.switch)) = some sw ∧ Stage.dir new ≠ some .closing)
  let p := if leavesUp then p.endWatch sw.window else p
  if p.switchIdle sw then p
  else
    match Stage.dir new with
    | none => p.switchRelease sw
    | some dir => p.stageEntry sw old new dir

/-! ### The rear lockout (R56, R57) -/

/-- The lockout turning on takes a rear door switch's move or pending command from it. -/
def Part.lockoutStops (p : Part) (c : Corner) : Part :=
  let w := p.window c
  if w.underWay ∧ w.mover = some .doorSwitch then p.stopAndTell c .overridden true
  else
    match w.pending with
    | some pend => if pend.cmd.mover = .doorSwitch then p.dropPending c else p
    | none => p

/-- A rear door switch held as the lockout turns off is marked spent. -/
def Part.spendIfHeld (p : Part) (sw : Switch) : Part :=
  if (p.input (.switch sw)).level = .rest then p else markSpent p sw true

/-- A change of the lockout, with its row, its mark and its effects; as it turns on RL is taken before RR (log 100). -/
def Part.changeLockout (p : Part) (fromOrder on : Bool) : Part :=
  let q := ({ p with lockout := on }.appendRow (lockoutChangedRow fromOrder on)).markDirty .lock
  if on then (q.lockoutStops .rl).lockoutStops .rr
  else (q.spendIfHeld (.door .rl)).spendIfHeld (.door .rr)

/-! ### MOVE-WINDOW (R69 to R71) -/

def StartRefusal.order : StartRefusal → OrderRefusal
  | .outOfService => .outOfService
  | .thermal => .thermal
  | .crashLatch => .crashLatch
  | .unlearned => .unlearned
  | .pinchLockout | .budgetTimeout => .busy

/-- The TARGET command of an order or of the Sequencer towards a position (R58, R69, R152). -/
def targetCommand (m : Mover) (t : Nat) : Command := ⟨.opening, .target, m, some t, false⟩

/-- A MOVE-WINDOW towards a position: refused, done at once, or TAKEN (R69). -/
def Part.moveTo (p : Part) (s : Slot) (c : Corner) (t : Nat) : Part :=
  let w := p.window c
  let cmd := w.aimed p.cfg (targetCommand (.order s) t)
  match p.verdict c cmd with
  | .busy => p.orderRefused s .busy
  | .refused r => (p.noteRefusal c r).orderRefused s r.order
  | .already r =>
    let stops := if w.underWay then some r else none
    ((p.orderTaken s).applyDone c cmd r).endMoveOrder c s .completed stops
  | .passes => (p.orderTaken s).applyPassed c cmd

/-- R70: the STOP target. -/
def Part.moveStop (p : Part) (s : Slot) (c : Corner) : Part :=
  let w := p.window c
  if (p.monitor c).learn.isSome ∨ w.motion = .reversing then p.orderRefused s .busy
  else
    let q := (p.orderTaken s).endWatch c
    if w.underWay then ((q.stopWindow c .cancelled).tellLost c w.mover (some .cancelled)).endMoveOrder c s .completed (some .cancelled)
    else (q.pendingLost c).endMoveOrder c s .completed none

def Part.moveOrder (p : Part) (s : Slot) (c : Corner) : MoveTarget → Part
  | .fullOpen => p.moveTo s c 0
  | .fullClose => p.moveTo s c (p.window c).travel
  | .position n => p.moveTo s c n
  | .stop => p.moveStop s c

/-- R71, R94: the cancel of an order that moves or waits for a window. -/
def Part.cancelMove (p : Part) (s : Slot) : Part :=
  let moves := fun c => (p.window c).underWay && decide ((p.window c).mover = some (.order s))
  let waits := fun c => (p.window c).pending.any fun pend => decide (pend.cmd.mover = .order s)
  match Corner.all.find? moves, Corner.all.find? waits with
  | some c, _ => p.stopAndTell c .cancelled true
  | none, some c => p.withdrawPending c .cancelled .cancelled true
  | none, none => p.orderDone s .cancelled

/-! ### Wait limits (R101) -/

/-- The pending command's end by its wait limit (R61). -/
def Part.pendingTimeout (p : Part) (c : Corner) : Part :=
  match (p.window c).pending with
  | none => p
  | some pend =>
    let q := p.setWindow c { p.window c with pending := none }
    match pend.cmd.mover with
    | .masterSwitch => q.appendRow (startRefusedRow c .budgetTimeout (.master c) pend.cmd.mode)
    | .doorSwitch => q.appendRow (startRefusedRow c .budgetTimeout (.door c) pend.cmd.mode)
    | .order s => q.tellMover c (some (.order s)) .budgetTimeout .budgetTimeout none true
    | .sequencer => q.tellMover c (some .sequencer) .budgetTimeout .budgetTimeout none true

/-- The limit expiry of an actuator's entry (R101). -/
def Part.waitExpiry (p : Part) (a : Actuator) : Part :=
  if p.waiting.any fun w => decide (w.actuator = a ∧ w.limit ≤ p.clock) then
    let q := p.dropWaiter a
    match a with
    | .window c => q.pendingTimeout c
    | .latch d => q.endRelease d .budgetTimeout
  else p

/-! ### Heat (R67, R68) -/

/-- The block set at the limit, cleared below the resume level, kept between (R68). -/
def Part.judgeThermal (p : Part) (c : Corner) : Part :=
  let w := p.window c
  if p.cfg.heatLimit ≤ w.heat ∧ w.thermal = false then
    (p.setWindow c { w with thermal := true }).appendRow (thermalSetRow c w.heat)
  else if w.heat < p.cfg.heatResume ∧ w.thermal = true then
    (p.setWindow c { w with thermal := false }).appendRow (thermalClearedRow c w.heat)
  else p

def Part.heatRise (p : Part) (c : Corner) : Part :=
  let w := p.window c
  if 50 ≤ w.energised then
    (p.setWindow c { w with heat := min 2000 (w.heat + 1), energised := w.energised - 50 }).judgeThermal c
  else p

def Part.heatFall (p : Part) (c : Corner) : Part :=
  let w := p.window c
  if 500 ≤ w.idle then (p.setWindow c { w with heat := w.heat - 1, idle := w.idle - 500 }).judgeThermal c
  else p

end Sys2Proof.Machine
end

