-- ==== Sys2Proof/Machine/Monitor.lean ====
section
/-! DEFINITION. The Pinch and Travel Monitor (spec/04) and hall counting (R50, R51): pulses, stalls, re-reference
watches, learns, and the timers of a window. -/

namespace Sys2Proof.Machine

/-! ### Counting (R50) -/

/-- The position after one counted pulse; a learn lifts the upper bound (R92). -/
def WindowRec.count (w : WindowRec) (dir : Direction) (learning : Bool) : Nat :=
  match dir with
  | .opening => w.position - 1
  | .closing => if learning || decide (w.position < w.travel) then w.position + 1 else w.position

/-- A counted pulse leaves the window as `w`; a changed position is a change of its record (R50, R73, R207; log 79). -/
def Part.countPulse (p : Part) (c : Corner) (w : WindowRec) : Part :=
  let q := p.setWindow c w
  if w.position = (p.window c).position then q else q.noteChange (.window c)

/-! ### Periods (R77 to R79), in microseconds -/

/-- The limit a period is judged by, and how a pinch is then found (R78). -/
def Part.pinchTest (p : Part) (c : Corner) (period : Nat) : Option PinchFound :=
  let w := p.window c
  let m := p.monitor c
  let absolute := if p.cfg.absoluteLimit * 100 < period then some (.absolute period (p.cfg.absoluteLimit * 100)) else none
  if w.motion ≠ .closing then none
  else if w.learned = false then absolute
  else if !w.inPinchZone p.cfg then none
  else if m.baseline.length < 16 then absolute
  else
    let ratio := if m.forceInUse then p.cfg.forceRatio else p.cfg.pinchRatio
    let scaled := m.baseline.sum * (100 + ratio)
    if scaled < period * 1600 then
      some (if m.forceInUse then .force period (scaled / 1600) else .ratio period (scaled / 1600))
    else none

/-- The list with a period at its end, the oldest of sixteen removed first (R77). -/
def addPeriod (l : List Nat) (period : Nat) : List Nat := l.drop (l.length - 15) ++ [period]

/-- The baseline after a pulse that is no pinch: the period added once the ramp has settled, the list emptied where
the glass enters or leaves the slow zone (R77). -/
def MonitorRec.afterPulse (m : MonitorRec) (period : Option Nat) (crossed : Bool) : MonitorRec :=
  if crossed then { m with baseline := [] }
  else
    match period with
    | some t => if m.settled then { m with baseline := addPeriod m.baseline t } else m
    | none => m

/-! ### Ends by counting (R65, R81, R92) -/

/-- The stop a counted pulse brings, by the motion and mode (R65, R81). -/
def Part.countedEnd (p : Part) (c : Corner) : Option StopReason :=
  let w := p.window c
  match w.motion, w.mode with
  | .reversing, _ => if (p.monitor c).reversalTarget.any fun t => decide (w.position ≤ t) then some .pinch else none
  | .stopped, _ => none
  | m, some .express => if w.learned && w.atSoftStop p.cfg m.dir then some .atEnd else none
  | m, some .target =>
    match w.target with
    | none => none
    | some t =>
      let reached := match m.dir with
        | .opening => decide (w.position ≤ t)
        | .closing => decide (t ≤ w.position)
      if w.learned && reached then some (if w.isSoftStop p.cfg t then .atEnd else .target) else none
  | _, _ => none

/-- A learn phase whose count exceeds 4400 ends at that pulse (R92). -/
def Part.learnOverrun (p : Part) (c : Corner) : Bool := (p.monitor c).learn.any fun l => decide (4400 < l.count)

/-- What a counted pulse that is no pinch ends. -/
def Part.pulseEnds (p : Part) (c : Corner) : Part :=
  if p.learnOverrun c then (p.stopWindow c .stall).endLearn c .learnFailed none true
  else
    match p.countedEnd c with
    | some r => p.stopAndTell c r true
    | none => p

/-- A counted pulse of a driven window at `now` microseconds (R50, R51, R77 to R79, R85, R92). -/
def Part.drivenPulse (p : Part) (c : Corner) (now : Nat) : Part :=
  let w := p.window c
  let m := p.monitor c
  let period := w.lastPulse.map fun t => now - t
  let w' := { w with position := w.count w.motion.dir m.learn.isSome, lastPulse := some now }
  let crossed := w.learned && (w.inSlowZone p.cfg != w'.inSlowZone p.cfg)
  let m' := { m with
    stallAt := some (max m.floor (p.clock + 150))
    learn := m.learn.map fun l => { l with count := l.count + 1 } }
  let q := (p.countPulse c w').setMonitor c m'
  match period.bind (q.pinchTest c) with
  | some found => q.pinch c found
  | none => (q.setMonitor c (m'.afterPulse period crossed)).pulseEnds c

/-- R50, R51: a hall pulse. One shorter than 0.2 ms is a glitch; one on a window neither driven nor coasting is not
counted; one of a coast moves the position alone. -/
def Part.hallPulse (p : Part) (c : Corner) (high micros : Nat) : Part :=
  let w := p.window c
  if high < 200 then p
  else if w.driven then p.drivenPulse c (p.clock * 1000 + micros)
  else
    match w.coast with
    | some k => p.countPulse c { w with position := w.count k.dir false }
    | none => p

/-! ### Stalls (R85 to R88, R92) -/

/-- R87: a STALL on a LEARNED window; the UNLEARNED row stands after the STOPPED row and before the mover is told
(log 50). -/
def Part.stallUnlearn (p : Part) (c : Corner) : Part :=
  let w := p.window c
  let q := (p.stopWindow c .stall).unlearn c
  (q.appendRow (unlearnedRow c (q.window c).position)).tellStop c (if w.motion = .reversing then none else w.mover) .stall true

/-- A stall at an end: the position corrected, then the stop with END; a MANUAL close clears the lockout (R86). -/
def Part.stallEnd (p : Part) (c : Corner) (position : Nat) (clears : Bool) : Part :=
  let q := (p.setWindow c { p.window c with position := position }).stopAndTell c .atEnd true
  if clears then q.clearPinchLockout c .manualTop else q

/-- R86: the stall of a LEARNED window. -/
def Part.stallLearned (p : Part) (c : Corner) : Part :=
  let w := p.window c
  match w.motion with
  | .closing =>
    if w.travel ≤ w.position + 20 then p.stallEnd c w.travel (decide (w.mode = some .manual))
    else if w.inPinchZone p.cfg then p.pinch c .stall
    else p.stallUnlearn c
  | .opening | .reversing | .stopped => if w.position ≤ 20 then p.stallEnd c 0 false else p.stallUnlearn c

/-- The switch that is a mover. -/
def Mover.switch (c : Corner) : Mover → Option Switch
  | .masterSwitch => some (.master c)
  | .doorSwitch => some (.door c)
  | .order _ | .sequencer => none

/-- R88: the stall of an UNLEARNED window, with its re-reference watch. -/
def Part.stallUnlearned (p : Part) (c : Corner) : Part :=
  let w := p.window c
  let q := p.stopAndTell c .stall true
  let watched := if w.motion = .closing ∧ w.travel ≠ 0 then w.mover.bind (Mover.switch c) else none
  match watched with
  | some sw => q.setMonitor c { q.monitor c with watch := some ⟨sw, p.clock + 500⟩ }
  | none => q

/-- R92: phase DOWN stalls; phase UP begins in the same grant, unless the crash latch is set (R169) or was set during the
phase, whether it was cleared since or not (R92, R93; log 80). -/
def Part.learnTurn (p : Part) (c : Corner) (l : Learn) : Part :=
  let q := p.setWindow c { p.window c with position := 0 }
  if p.crashSet ∨ l.crash then (q.stopWindow c .atEnd).endLearn c .crash none true
  else
    let q := q.setMonitor c { q.monitor c with learn := some { l with phase := .up, count := 0 } }
    (q.halt c .atEnd).startMove c ⟨.closing, .manual, .order l.slot, none, false⟩

/-- R92: phase UP stalls, and the travel is measured; PINCH-LOCKOUT-CLEARED stands before LEARN-END (log 84). -/
def Part.learnMeasured (p : Part) (c : Corner) : Part :=
  let w := p.window c
  let n := w.position
  if 1000 ≤ n ∧ n ≤ 4000 then
    let q := (p.setWindow c { w with travel := n, learned := true }).stopWindow c .atEnd
    (q.clearPinchLockout c .learned).endLearn c .completed (some n) true
  else (p.stopWindow c .stall).endLearn c .learnFailed (some n) true

/-- R85: the stall timer expires while the window is driven. -/
def Part.stallExpiry (p : Part) (c : Corner) : Part :=
  let w := p.window c
  if due (p.monitor c).stallAt p.clock && w.driven then
    match (p.monitor c).learn with
    | some l =>
      match w.motion with
      | .opening => p.learnTurn c l
      | .closing | .reversing | .stopped => p.learnMeasured c
    | none => if w.learned then p.stallLearned c else p.stallUnlearned c
  else p

/-! ### The timers of a window -/

/-- R89: the re-reference watch expires. -/
def Part.watchExpiry (p : Part) (c : Corner) : Part :=
  match (p.monitor c).watch with
  | none => p
  | some k =>
    if p.clock < k.expiry then p
    else
      let q := p.endWatch c
      if Stage.dir (levelStage (p.input (.switch k.switch)).level) = some .closing then
        let w := q.window c
        let q := q.setWindow c { w with position := w.travel, learned := true }
        ((q.clearPinchLockout c .reReferenced).appendRow (reReferencedRow c w.travel)).markDirty (.window c)
      else q

/-- R50: the coast ends. -/
def Part.coastEnd (p : Part) (c : Corner) : Part :=
  let w := p.window c
  if due (w.coast.map (·.ends)) p.clock then p.setWindow c { w with coast := none } else p

/-- R66, R76: the ramp time ends and the monitor is told that the ramp has settled. -/
def Part.softStartEnd (p : Part) (c : Corner) : Part :=
  let w := p.window c
  if due (w.ramp.map (·.finish)) p.clock then
    (p.setWindow c { w with ramp := none }).setMonitor c { p.monitor c with settled := true }
  else p

/-- R83: force armed expires without a row. -/
def Part.forceExpiry (p : Part) (c : Corner) : Part :=
  let m := p.monitor c
  if due m.forceArmed p.clock then p.setMonitor c { m with forceArmed := none } else p

/-! ### LEARN-WINDOW (R91, R94) -/

/-- R91: a LEARN-WINDOW order. -/
def Part.learnOrder (p : Part) (s : Slot) (c : Corner) : Part :=
  let w := p.window c
  if w.atRest = false ∨ (p.monitor c).learn.isSome then p.orderRefused s .busy
  else if p.outOfService c then p.orderRefused s .outOfService
  else if w.thermal then p.orderRefused s .thermal
  else if p.crashSet then p.orderRefused s .crashLatch
  else
    let q := p.orderTaken s
    let q := q.setMonitor c { q.monitor c with learn := some ⟨.pending, s, 0, false⟩, watch := none }
    let q := q.setWindow c { q.window c with
      learned := false
      pending := some ⟨⟨.opening, .manual, .order s, none, false⟩, p.clock⟩ }
    (q.markDirty (.window c)).request (.window c) .window

/-! ### SAFE-HOLD, port reset and the crash event at the windows -/

/-- R72, R95: a window as SAFE-HOLD is entered: stopped with RESET, and its pending command withdrawn. -/
def Part.windowSafeHold (p : Part) (c : Corner) : Part :=
  let p := p.endWatch c
  let q := if (p.window c).driven then p.stopAndTell c .reset false else p
  q.withdrawPending c .cancelled .reset false

/-- A learn ended by a port reset (R92, R93, R95): its LEARN-END row after the STOPPED row, no order outcome (log 65). -/
def Part.resetLearn (p : Part) (c : Corner) : Part :=
  match (p.monitor c).learn with
  | none => p
  | some l => (p.closeLearn c l none none).clampPosition c

/-- R75, R95: a window at a port reset: no mover is told. -/
def Part.windowPortReset (p : Part) (c : Corner) : Part :=
  let p := p.endWatch c
  let q := if (p.window c).driven then p.stopWindow c .reset else p
  (q.resetLearn c).dropPending c

/-- R92, R93: a crash event marks a learn in phase DOWN, which goes on and ends at its turn (log 80). -/
def Part.markLearn (p : Part) (c : Corner) : Part :=
  let m := p.monitor c
  p.setMonitor c { m with learn := m.learn.map fun l => { l with crash := l.crash || decide (l.phase = .down) } }

/-- R168: a window in the crash event: a learn in phase DOWN is marked, a close stops, a pending close is withdrawn
(log 78). -/
def Part.windowCrash (p : Part) (c : Corner) : Part :=
  let p := p.markLearn c
  let q := if (p.window c).motion = .closing then p.stopAndTell c .crash false else p
  match (q.window c).pending with
  | some pend => if pend.cmd.dir = .closing then q.withdrawPending c .crash .crash false else q
  | none => q

/-- An event that reaches several windows takes FL first and RR last: the spec's order for a crash event and a new operation
(R168, R152), the model's for the others (log 100). -/
def Part.eachCorner (p : Part) (f : Part → Corner → Part) : Part := Corner.all.foldl f p

end Sys2Proof.Machine
end

