-- ==== Sys2Proof/Machine/Combined.lean ====
section
/-! DEFINITION. The Closure Sequencer's operations (spec/08): starting one, and what ends it early; and the hold
trackers that start and end operations of origin HOLD (R140, R141). -/

namespace Sys2Proof.Machine

/-! ### Starting (R150 to R153) -/

/-- Why a request is refused: BUSY while one runs, CRASH-LATCH for a refused LOCK (R150, R151). -/
def Part.operationRefusal (p : Part) (k : OpKind) : Option OrderRefusal :=
  if p.sequencerRuns then some .busy
  else if k = .comfortClose ∧ p.crashSet = true then some .crashLatch
  else none

/-- The position a kind aims a window at (R152). -/
def WindowRec.aim (w : WindowRec) (cfg : Config) : OpKind → Nat
  | .comfortClose => w.topStop cfg
  | .comfortOpen => bottomStop cfg
  | .vent => w.travel - cfg.ventDepth

/-- Why a window is given no command (R152). -/
def Part.skipReason (p : Part) (c : Corner) : Option EntryReason :=
  let w := p.window c
  if p.outOfService c then some .outOfService
  else if w.learned = false then some .unlearned
  else if w.thermal then some .thermal
  else none

def StartRefusal.entry : StartRefusal → EntryReason
  | .outOfService => .outOfService
  | .thermal => .thermal
  | .crashLatch => .crashLatch
  | .unlearned => .unlearned
  | .pinchLockout => .busy
  | .budgetTimeout => .budgetTimeout

def skipped (r : EntryReason) : Entry := ⟨.skipped, none, some r⟩

/-- The direction of a kind's command for a window (the table of R152). -/
def OpKind.direction (k : OpKind) (w : WindowRec) (target : Nat) : Direction :=
  match k with
  | .comfortClose => .closing
  | .comfortOpen => .opening
  | .vent => if w.position < target then .closing else .opening

/-- The command a kind sends a window (R152). -/
def WindowRec.sequenced (w : WindowRec) (cfg : Config) (k : OpKind) : Command :=
  { targetCommand .sequencer (w.aim cfg k) with dir := k.direction w (w.aim cfg k) }

/-- One window of an operation: skipped, or its command issued and its answer entered (R152, R153). -/
def Part.answer (k : OpKind) (p : Part) (c : Corner) : Part :=
  match p.skipReason c with
  | some r => p.setEntry c (skipped r)
  | none =>
    let cmd := (p.window c).sequenced p.cfg k
    match p.verdict c cmd with
    | .busy => p.setEntry c (skipped .busy)
    | .refused r => (p.noteRefusal c r).setEntry c (skipped r.entry)
    | .already r => (p.applyDone c cmd r).setEntry c ⟨.done, cmd.target, some r.entry⟩
    | .passes =>
      let q := p.applyPassed c cmd
      q.setEntry c ⟨if (q.window c).underWay then .moving else .waiting, cmd.target, none⟩

/-- One window dealt with whole: granting runs before the next window's command, so that each is answered before the
next is issued (R152, R100); a grant sets the entry MOVING (R154). -/
def Part.issue (k : OpKind) (p : Part) (c : Corner) : Part := settle (Part.answer k · c) p

/-- The lock action a kind begins with (R151). -/
def OpKind.lock : OpKind → Option LockAction
  | .comfortClose => some .lock
  | .comfortOpen => some .unlock
  | .vent => none

/-- An accepted operation: its lock action, the record RUNNING, the windows in order, and the judgement of R155. -/
def Part.beginOperation (p : Part) (k : OpKind) (o : Origin) : Part :=
  let taken := k.lock.map p.doors.taken
  let q := match k.lock with
    | some a => p.lockAction .sequencer a allDoors
    | none => p
  let q := q.setOperation (some ⟨k, o, q.clock, taken, PerCorner.all ⟨.waiting, none, none⟩, none⟩)
  (q.eachCorner (Part.issue k)).judgeOperation

/-- A COMFORT-CLOSE, COMFORT-OPEN or VENT order (R150). -/
def Part.combinedOrder (p : Part) (s : Slot) (k : OpKind) : Part :=
  match p.operationRefusal k with
  | some r => p.orderRefused s r
  | none => (p.orderTaken s).beginOperation k (.order s)

/-! ### Ending early (R156 to R160) -/

/-- A window's live entry is ended by the Sequencer: its move stopped, its pending command withdrawn. -/
def Part.dismissEntry (r : StopReason) (p : Part) (c : Corner) : Part :=
  match p.liveEntry c with
  | none => p
  | some e =>
    let q := if e.state = .moving then
        if (p.window c).underWay then p.stopAndTell c r false else p
      else p.withdrawPending c r.outcome r.entry false
    q.reportEnd c r.entry false

/-- R156: the end of a hold session, the windows FL to RR (log 100). -/
def Part.sessionEnd (p : Part) (f : Fob) : Part :=
  match p.operation with
  | none => p
  | some o =>
    if o.running ∧ o.origin = .hold f then (p.eachCorner (Part.dismissEntry .switchReleased)).judgeOperation else p

/-- R157: the cancel of an operation's order, the windows FL to RR (log 100). -/
def Part.cancelOperation (p : Part) (s : Slot) : Part :=
  match p.operation with
  | none => p.orderDone s .cancelled
  | some o =>
    if o.running ∧ o.origin = .order s then (p.eachCorner (Part.dismissEntry .cancelled)).endOperation .cancelled
    else p.orderDone s .cancelled

/-- R158: an entry as the crash event ends the operation: a pending opening command is withdrawn, an opening window
goes on. -/
def Part.crashEntry (p : Part) (c : Corner) : Part :=
  match p.liveEntry c with
  | none => p
  | some e =>
    let q := if e.state = .waiting then p.withdrawPending c .crash .crash false else p
    q.reportEnd c .crash false

def Part.crashOperation (p : Part) : Part :=
  if p.sequencerRuns then (p.eachCorner Part.crashEntry).endOperation .crash else p

/-- R159: after the windows have stopped, the operation ends CANCELLED. -/
def Part.safeHoldOperation (p : Part) : Part :=
  if p.sequencerRuns then (p.eachCorner fun q c => q.reportEnd c .reset false).endOperation .cancelled else p

/-! ### Hold trackers (R140, R141) -/

def Part.setTracker (p : Part) (f : Fob) (t : Tracker) : Part := p.setFob f { p.fob f with tracker := t }

/-- A session ends and the Sequencer is told, then the HOLD-ENDED row; a tracker in another state becomes IDLE. -/
def Part.endTracker (p : Part) (f : Fob) (cause : HoldCause) : Part :=
  match (p.fob f).tracker with
  | .session _ _ => ((p.setTracker f .idle).sessionEnd f).appendRow (holdEndedRow f cause)
  | .idle | .tracking _ _ | .spent _ _ => p.setTracker f .idle

/-- The crash latch sets: every tracker that is not IDLE becomes SPENT (R141). -/
def Part.crashTracker (p : Part) (f : Fob) : Part :=
  match (p.fob f).tracker with
  | .idle => p
  | .tracking b t | .spent b t => p.setTracker f (.spent b t)
  | .session b t => (p.setTracker f (.spent b t)).appendRow (holdEndedRow f .crash)

/-- SAFE-HOLD and port reset: IDLE, the Sequencer not told (R141). -/
def Part.resetTracker (p : Part) (f : Fob) : Part :=
  match (p.fob f).tracker with
  | .idle => p
  | .tracking _ _ | .spent _ _ => p.setTracker f .idle
  | .session _ _ => (p.setTracker f .idle).appendRow (holdEndedRow f .reset)

/-- An event that reaches several fobs takes them in index order: the spec's order at the end of a search (07, 7.4), the model's
for the trackers (R141; log 101). -/
def Part.eachFob (p : Part) (f : Part → Fob → Part) : Part := Fob.all.foldl f p

/-- A tracker's 300 ms since its fob's last frame have passed (R141). -/
def FobRec.holdDue (r : FobRec) (clock : Nat) : Bool :=
  decide (r.tracker ≠ .idle) && r.lastFrame.any fun l => decide (l.time + 300 ≤ clock)

def Part.holdExpiry (p : Part) (f : Fob) : Part :=
  if (p.fob f).holdDue p.clock then p.endTracker f .released else p

end Sys2Proof.Machine
end

