-- ==== Sys2Proof/Machine/Locator.lean ====
section
/-! DEFINITION. The Key Locator (spec/06): requests, the search operation, zones, completion, aborts. -/

namespace Sys2Proof.Machine

/-! ### Requests (R110 to R113) -/

def searchFor (p : Part) (u : Purpose) (d : Door) : Request := ⟨u, some d, none, [], false, p.clock⟩

/-- The antennas a request would drive, less the faulty (R114, R128). -/
def Part.usableSet (p : Part) (r : Request) : PerAntenna Bool :=
  .build fun a => (r.antennas.all fun s => s.get a) && p.soundAntenna a

def anyAntenna (s : PerAntenna Bool) : Bool := Antenna.all.any s.get

def Part.zonesMet (p : Part) (r : Request) : Bool :=
  match r.purpose, r.door with
  | .entry, some d => p.zoneAvailable (doorZone d)
  | .entry, none => false
  | .lock, _ => p.zoneAvailable .inside && (p.zoneAvailable .outLeft || p.zoneAvailable .outRight || p.zoneAvailable .outRear)
  | .tailgate, _ => p.zoneAvailable .outRear
  | .locate, _ => anyAntenna (p.usableSet r)

/-- R111, in its order. -/
def Part.searchFault (p : Part) (r : Request) : Option UnavailableReason :=
  if p.degraded.receiver then some .receiver
  else if p.critical then some .supply
  else if p.zonesMet r then none
  else some .zone

/-- A set of slots with one more, in slot order. -/
def insertSlot (l : List Slot) (s : Slot) : List Slot := (List.finRange 16).filter fun x => decide (x = s) || l.contains x

def Request.matches_ (a b : Request) : Bool := decide (a.purpose = b.purpose ∧ a.door = b.door)

def unionAntennas (a b : Option (PerAntenna Bool)) : Option (PerAntenna Bool) :=
  match a, b with
  | some x, some y => some (.build fun k => x.get k || y.get k)
  | x, none => x
  | none, y => y

def Request.addSlot (r : Request) (slot : Option Slot) : Request :=
  match slot with
  | some s => { r with orders := insertSlot r.orders s }
  | none => r

/-- A request joins the search in flight, which keeps its antennas (R112). -/
def Flight.join (f : Flight) (slot : Option Slot) : Flight := { f with request := f.request.addSlot slot }

/-- A request joins a listed one, which keeps its place and time (R112). -/
def Request.join (r new : Request) (slot : Option Slot) : Request :=
  { r.addSlot slot with antennas := unionAntennas r.antennas new.antennas }

/-! ### Starting (R114) -/

def FobResult.empty : FobResult := ⟨.noReply, 0, PerAntenna.all 0, none, 0⟩

/-- The first antenna of a set in transmission order that stands after `a` (from the beginning where none is given). -/
def nextAntenna (s : PerAntenna Bool) : Option Antenna → Option Antenna
  | none => Antenna.all.find? s.get
  | some a => Antenna.all.find? fun b => s.get b && decide (a.ctorIdx < b.ctorIdx)

def Part.maySearch (p : Part) : Bool :=
  p.inService && p.locator.flight.isNone && !p.locator.list.isEmpty && !p.critical

/-- The oldest request becomes the search in flight, with a fresh challenge (a free value, log 10). -/
def Part.startSearch (p : Part) : Part :=
  match p.locator.list with
  | [] => p
  | r :: rest =>
    let used := p.usableSet r
    let phase : SearchPhase × Nat := match nextAntenna used none with
      | some a => (.transmit a, 14)
      | none => (.reply .f0, 10)
    p.setLocator {
      list := rest
      flight := some ⟨r, used, p.clock, phase.1, p.clock + phase.2, Config.challenge p.locator.draws, PerFob.all .empty⟩
      draws := p.locator.draws + 1 }

def Part.trySearch (p : Part) : Part := if p.maySearch then p.startSearch else p

/-- A request judged, joined, listed or turned away, and a search started where none runs (R111 to R114). -/
def Part.searchRequest (p : Part) (r : Request) (slot : Option Slot) : Part :=
  let taken := match slot with
    | some s => p.orderTaken s
    | none => p
  match p.searchFault r with
  | some why =>
    match slot with
    | some s => p.orderRefused s .unavailable
    | none => p.appendRow (keyUnavailableRow r why)
  | none =>
    if p.locator.flight.any fun f => f.request.matches_ r then
      taken.setLocator { taken.locator with flight := taken.locator.flight.map (·.join slot) }
    else if p.locator.list.any (·.matches_ r) then
      taken.setLocator { taken.locator with
        list := taken.locator.list.map fun x => if x.matches_ r then x.join r slot else x }
    else if 6 ≤ p.locator.list.length then
      match slot with
      | some s => p.orderRefused s .busy
      | none => p.appendRow (searchBusyRow r)
    else (taken.setLocator { taken.locator with list := taken.locator.list ++ [r.addSlot slot] }).trySearch

/-! ### Phases and replies (R115 to R118) -/

def Fob.next : Fob → Option Fob
  | .f0 => some .f1
  | .f1 => some .f2
  | .f2 => some .f3
  | .f3 => none

def Part.setFlight (p : Part) (f : Option Flight) : Part := p.setLocator { p.locator with flight := f }

/-- A 14 ms transmission ends (R115). -/
def Part.transmissionEnd (p : Part) : Part :=
  match p.locator.flight with
  | none => p
  | some f =>
    match f.phase with
    | .reply _ => p
    | .transmit a =>
      if p.clock < f.phaseEnd then p
      else
        match nextAntenna f.used (some a) with
        | some b => p.setFlight (some { f with phase := .transmit b, phaseEnd := p.clock + 14 })
        | none => p.setFlight (some { f with phase := .reply .f0, phaseEnd := p.clock + 10 })

/-- A reply slot other than the last ends (R115). -/
def Part.slotEnd (p : Part) : Part :=
  match p.locator.flight with
  | none => p
  | some f =>
    match f.phase with
    | .transmit _ => p
    | .reply i =>
      if p.clock < f.phaseEnd then p
      else
        match Fob.next i with
        | some j => p.setFlight (some { f with phase := .reply j, phaseEnd := p.clock + 10 })
        | none => p

/-- The zone an exterior antenna gives (R118, R128). -/
def antennaZone : Antenna → Zone
  | .afl | .arl => .outLeft
  | .afr | .arr => .outRight
  | .atg => .outRear
  | .acf | .acr => .inside

/-- R118: the zone of a PASS reply's recorded strengths. -/
def zoneOf (cfg : Config) (s : PerAntenna (BitVec 8)) : Zone :=
  let v := fun a => (s.get a).toNat
  let outer := [Antenna.afl, .afr, .arl, .arr, .atg].filter fun a => decide (cfg.outsideThreshold ≤ v a)
  let best := (outer.map v).foldl max 0
  let zones := (outer.filter fun a => decide (v a = best)).map antennaZone
  if cfg.insideThreshold ≤ v .acf ∨ cfg.insideThreshold ≤ v .acr then .inside
  else
    match zones with
    | [] => .nowhere
    | z :: zs => if zs.all fun x => decide (x = z) then z else .nowhere

/-- R116, R117: a reply heard in the reply slot of the search in flight. -/
def Part.takeReply (p : Part) (r : Reply) : Part :=
  match p.locator.flight with
  | none => p
  | some f =>
    match f.phase with
    | .transmit _ => p
    | .reply i =>
      let k := (p.fob i).keep
      if k.state = .vacant ∨ k.id ≠ r.id ∨ (f.results.get i).reply ≠ .noReply then p
      else
        let strengths : PerAntenna (BitVec 8) := .build fun a => if f.used.get a then r.strengths.get a else 0
        let res : FobResult := match r.check with
          | .pass => ⟨.pass, r.id, strengths, some (zoneOf p.cfg strengths), p.clock⟩
          | .fail => ⟨.fail, r.id, strengths, none, p.clock⟩
        p.setFlight (some { f with results := f.results.set i res })

/-! ### Completion (R119 to R125) -/

/-- The result of an index is set aside against the records at completion (R119). -/
def Part.setAside (p : Part) (res : PerFob FobResult) (i : Fob) : Bool :=
  let k := (p.fob i).keep
  decide (k.state = .vacant ∨ ((res.get i).reply ≠ .noReply ∧ (res.get i).id ≠ k.id))

/-- A candidate older than 5000 ms is shown absent from the next change of the record (R136). -/
def FobRec.trimmed (r : FobRec) (now : Nat) : FobRec :=
  { r with candidate := r.candidate.filter fun k => decide (now - k.time ≤ 5000) }

/-- The record after a completion, each of which is a change of the record (R117, R119, R136, R142; log 87). -/
def FobRec.afterSearch (r : FobRec) (res : FobResult) (now : Nat) : FobRec :=
  let k := r.keep
  let r := r.trimmed now
  match res.reply with
  | .noReply => { r with zone := .nowhere }
  | .pass => { r with
      keep := { k with run := 0 }
      zone := res.zone.getD .nowhere
      lastSeen := some res.time }
  | .fail =>
    let run := min 8 (k.run + 1)
    { r with keep := { k with run := run, blocked := k.blocked || decide (run = 8) }, zone := .nowhere }

/-- One index settled: the record, the FOB-BLOCKED row, the mark (R119, R132). -/
def Part.settleFob (res : PerFob FobResult) (p : Part) (i : Fob) : Part :=
  if p.setAside res i then p
  else
    let r := p.fob i
    let r' := r.afterSearch (res.get i) p.clock
    let q := p.setFob i r'
    let q := if r'.keep.blocked && !r.keep.blocked then q.appendRow (fobBlockedRow i r'.keep.run) else q
    if r'.keep = r.keep then q else q.markDirty (.fob i)

/-- A fob qualifies for a purpose (R119). -/
def Part.qualifies (p : Part) (res : PerFob FobResult) (i : Fob) : Bool :=
  let k := (p.fob i).keep
  decide (k.state = .enrolled ∧ (res.get i).reply = .pass) && !k.blocked && k.permitted && !p.setAside res i

/-- The lowest index that qualifies in one of the zones (R121, R123, R124; log 86). -/
def Part.finder (p : Part) (res : PerFob FobResult) (zones : List Zone) : Option Fob :=
  Fob.all.find? fun i => p.qualifies res i && zones.any fun z => decide ((res.get i).zone = some z)

def Part.clearPull (p : Part) (d : Door) : Part := p.setDoor d { p.door d with pull := false }

/-- R121, R122: an ENTRY result for a door. -/
def Part.entryResult (p : Part) (r : Request) (d : Door) (res : PerFob FobResult) : Part :=
  match p.finder res [doorZone d] with
  | some f =>
    let q := (p.appendRow (passedRow r f res)).passiveUnlock d
    let pulled := (q.door d).pull
    let q := q.clearPull d
    if pulled then q.releaseRequest d .outer none else q
  | none => (p.appendRow (noFobRow r res)).clearPull d

/-- R123: a LOCK result. -/
def Part.lockResult (p : Part) (r : Request) (res : PerFob FobResult) : Part :=
  if Fob.all.any fun i => decide ((res.get i).reply = .pass ∧ (res.get i).zone = some .inside) then p.appendRow (keyInsideRow r res)
  else if r.opened then p.appendRow (keyDoorOpenedRow r res)
  else
    match p.finder res [.outLeft, .outRight, .outRear] with
    | some f => (p.appendRow (passedRow r f res)).lockAction (.passive .lock) .lock allDoors
    | none => p.appendRow (noFobRow r res)

/-- R124: a TAILGATE result. -/
def Part.tailgateResult (p : Part) (r : Request) (res : PerFob FobResult) : Part :=
  match p.finder res [.outRear] with
  | some f => (p.appendRow (passedRow r f res)).releaseRequest .tg .tgButton none
  | none => p.appendRow (noFobRow r res)

/-- NO-RECORD, NO-REPLY, FAIL, then the zones (R125). -/
def Part.locateCode (p : Part) (res : PerFob FobResult) (i : Fob) : Nat :=
  if p.setAside res i then 0
  else
    match (res.get i).reply with
    | .noReply => 1
    | .fail => 2
    | .pass => 3 + ((res.get i).zone.getD .nowhere).ctorIdx

/-- R125: a LOCATE result, its orders ending in slot order. -/
def Part.locateResult (p : Part) (f : Flight) : Part :=
  let word6 := packWord (Fob.all.map fun i => codeField 8 (p.locateCode f.results i))
  let word7 := packWord [antennaSet f.used, timeField p.clock]
  f.request.orders.foldl (fun q s => q.orderDone s .completed word6 word7)
    (p.appendRow (locatedRow f.request f.results f.used))

def Part.applyResult (p : Part) (f : Flight) : Part :=
  let r := f.request
  match r.purpose, r.door with
  | .entry, some d => p.entryResult r d f.results
  | .entry, none => p.appendRow (noFobRow r f.results)
  | .lock, _ => p.lockResult r f.results
  | .tailgate, _ => p.tailgateResult r f.results
  | .locate, _ => p.locateResult f

/-- The end of reply slot 3 completes the search (R119, R120). -/
def Part.completeSearch (p : Part) : Part :=
  match p.locator.flight with
  | none => p
  | some f =>
    if f.phase = .reply .f3 ∧ f.phaseEnd ≤ p.clock then
      (((p.eachFob (Part.settleFob f.results)).applyResult f).setFlight none).trySearch
    else p

/-! ### Cancels, aborts, discards (R126, R127, R129, R130) -/

def Request.dropSlot (r : Request) (s : Slot) : Request := { r with orders := r.orders.filter fun x => decide (x ≠ s) }

/-- R126. -/
def Part.cancelLocate (p : Part) (s : Slot) : Part :=
  let stays := fun r : Request => decide (r.purpose ≠ .locate ∨ r.orders ≠ [])
  (p.setLocator { p.locator with
    list := (p.locator.list.map (·.dropSlot s)).filter stays
    flight := p.locator.flight.map fun f => { f with request := f.request.dropSlot s } }).orderDone s .cancelled

/-- One request ended by an abort: its ABORTED row, its ORDER rows, its door's pending pull, before the next request's
(log 60). -/
def Part.abortRequest (cause : AbortCause) (p : Part) (r : Request) : Part :=
  let q := p.appendRow (abortedRow r cause)
  let out : OrderOutcome := match cause with
    | .supply => .supply
    | .safeHold => .cancelled
  let q := r.orders.foldl (fun q s => q.orderDone s out) q
  match r.purpose, r.door with
  | .entry, some d => q.clearPull d
  | _, _ => q

/-- Every request ended, the search in flight first (R127, R129). -/
def Part.abortSearches (p : Part) (cause : AbortCause) : Part :=
  let all := (p.locator.flight.map (·.request)).toList ++ p.locator.list
  all.foldl (Part.abortRequest cause) (p.setLocator { p.locator with list := [], flight := none })

/-- R130: a port reset discards them without a row; pending pulls are cleared (R28). -/
def Part.discardSearches (p : Part) : Part :=
  Door.all.foldl Part.clearPull (p.setLocator { p.locator with list := [], flight := none })

end Sys2Proof.Machine
end

