-- ==== Sys2Proof/Machine/Fobs.lean ====
section
/-! DEFINITION. The Fob Service (spec/07): remote frames, held buttons, the fob orders and their waits for a commit. -/

namespace Sys2Proof.Machine

/-! ### Judging a frame (R133 to R137) -/

inductive FrameVerdict where
  | ignored
  | rejected (f : Fob) (why : FrameFault)
  | candidate (f : Fob) (d : Nat)
  | press (f : Fob) (pair : Bool)
  | continuation (f : Fob)
  deriving DecidableEq, Repr

/-- A candidate not older than 5000 ms (R136). -/
def FobRec.liveCandidate (r : FobRec) (now : Nat) : Option Candidate := (r.trimmed now).candidate

/-- The frame is one count above a live candidate (R135). -/
def FobRec.pairs (r : FobRec) (fr : Frame) (now : Nat) : Bool :=
  (r.liveCandidate now).any fun k => decide (fr.counter.toNat = k.counter.toNat + 1)

/-- The frame continues the last frame (R137). -/
def FobRec.continues (r : FobRec) (fr : Frame) (now : Nat) : Bool :=
  r.lastFrame.any fun l => decide (l.counter = fr.counter ∧ l.rep < fr.rep ∧ now - l.time ≤ 250)

/-- The judgement by counter of a frame sound in the rest (R135 to R137). -/
def FobRec.judgeCounter (r : FobRec) (f : Fob) (fr : Frame) (now : Nat) : FrameVerdict :=
  let last := r.keep.counter.toNat
  let n := fr.counter.toNat
  if r.pairs fr now then .press f true
  else if n < last ∨ last + 4096 < n then .rejected f .counter
  else if n = last then (if r.continues fr now then .continuation f else .ignored)
  else if n ≤ last + 64 then .press f false
  else if (r.liveCandidate now).any fun k => decide (k.counter = fr.counter) then .ignored
  else .candidate f (n - last)

/-- The record whose id a frame carries (R133). -/
def Part.fobOf (p : Part) (id : Word) : Option Fob :=
  Fob.all.find? fun f => decide ((p.fob f).keep.state ≠ .vacant ∧ (p.fob f).keep.id = id)

/-- R133, R134: a taken frame judged at the time it was heard. -/
def Part.judgeFrame (p : Part) (fr : Frame) (now : Nat) : FrameVerdict :=
  if p.degraded.receiver then .ignored
  else
    match p.fobOf fr.id with
    | none => .ignored
    | some f =>
      if (p.fob f).keep.state = .suspended then .rejected f .suspended
      else if fr.check = .fail then .rejected f .check
      else (p.fob f).judgeCounter f fr now

/-! ### Accepted frames (R138 to R140) -/

def Button.lockButton : Button → Option LockButton
  | .lock => some .lock
  | .unlock => some .unlock
  | .tailgate => none

/-- R139: the button of a new press or a pair acts. -/
def Part.buttonAction (p : Part) (f : Fob) (b : Button) : Part :=
  match Button.lockButton b with
  | some k => p.remotePress f k
  | none => p.releaseRequest .tg .remoteTg none

/-- R140, R141: the tracker at a new press; a session ends first. -/
def Part.pressTracker (p : Part) (f : Fob) (b : Button) (now : Nat) : Part :=
  let q := p.endTracker f .press
  match Button.lockButton b with
  | some k => q.setTracker f (.tracking k now)
  | none => q

def LockButton.operation : LockButton → OpKind
  | .lock => .comfortClose
  | .unlock => .comfortOpen

/-- R140: a session asked of the Sequencer, which answers in the event; HOLD-STARTED stands after the rows of the
operation's lock action and windows (log 63). -/
def Part.startSession (p : Part) (f : Fob) (b : LockButton) (since : Nat) : Part :=
  let k := b.operation
  match p.operationRefusal k with
  | some r => (p.setTracker f (.spent b since)).appendRow (holdRejectedRow f k r.code)
  | none => ((p.setTracker f (.session b since)).beginOperation k (.hold f)).appendRow (holdStartedRow f k)

/-- R140: the tracker at a continuation. -/
def Part.continueTracker (p : Part) (f : Fob) (now : Nat) : Part :=
  match (p.fob f).tracker with
  | .tracking b since => if 1500 ≤ now - since then p.startSession f b since else p
  | .idle | .session _ _ | .spent _ _ => p

/-- Steps 1 to 3 of R138 on the record; a continuation stores no counter (R137). -/
def FobRec.accept (r : FobRec) (fr : Frame) (now : Nat) (stores : Bool) : FobRec :=
  { r with
    keep := { r.keep with
      counter := if stores then fr.counter else r.keep.counter
      run := 0
      blocked := false }
    candidate := none
    lastFrame := some ⟨fr.counter, fr.rep, now⟩
    lastSeen := some now }

/-- R138: an accepted frame, `press` telling a new press or a pair (with whether it is a pair) from a continuation. RESYNCED
stands before UNBLOCKED (log 72). -/
def Part.acceptFrame (p : Part) (f : Fob) (fr : Frame) (now : Nat) (press : Option Bool) : Part :=
  let r := p.fob f
  let r' := r.accept fr now press.isSome
  let q := p.setFob f r'
  let q := if press = some true then q.appendRow (resyncedRow f r.keep.counter fr.counter) else q
  let q := if r.keep.blocked then q.appendRow (unblockedRow f) else q
  let q := match press with
    | some pair => q.appendRow (pressRow f fr.button fr.counter pair)
    | none => q
  let q := if r'.keep = r.keep then q else q.markDirty (.fob f)
  match press with
  | some _ => (q.buttonAction f fr.button).pressTracker f fr.button now
  | none => q.continueTracker f now

/-- What a judged frame does in SERVICE (R134 to R138). -/
def Part.applyFrame (p : Part) (fr : Frame) (now : Nat) : FrameVerdict → Part
  | .ignored => p
  | .rejected f why => p.appendRow (frameRejectedRow f why fr.button fr.counter)
  | .candidate f d =>
    (p.setFob f { p.fob f with candidate := some ⟨fr.counter, now⟩ }).appendRow (resyncCandidateRow f fr.counter d)
  | .press f pair => p.acceptFrame f fr now (some pair)
  | .continuation f => p.acceptFrame f fr now none

/-- A frame taken in SERVICE. -/
def Part.serveFrame (p : Part) (fr : Frame) (now : Nat) : Part := p.applyFrame fr now (p.judgeFrame fr now)

/-! ### Fob orders (R143 to R146) -/

/-- A fob order's results: index, state (11.6). -/
def Part.fobWord6 (p : Part) (f : Fob) : Word :=
  packWord [codeField 4 f.ctorIdx, codeField 3 (p.fob f).keep.state.ctorIdx]

def Part.fobOrderDone (p : Part) (f : Fob) (s : Slot) (o : OrderOutcome) : Part := p.orderDone s o (p.fobWord6 f)

/-- The record takes a changed form, with its FOB row, and the order waits for its commit; then an order waiting before ends
OVERRIDDEN, its results showing the record as the new order leaves it (R143 to R146; log 61). -/
def Part.changeFob (p : Part) (f : Fob) (s : Slot) (r : FobRec) (row : Row) : Part :=
  let old := (p.fob f).waits
  let q := (p.orderTaken s).setFob f { r with waits := some ⟨s, false⟩ }
  let q := q.appendRow row
  let q := match old with
    | some w => q.fobOrderDone f w.slot .overridden
    | none => q
  q.markDirty (.fob f)

/-- Word `j` of the enrolment block of an index (R143). -/
def enrolWord (f : Fob) (j : Nat) : Nat := 992 + 8 * f.ctorIdx + j

def Part.blockWord (p : Part) (f : Fob) (j : Nat) : Word := Memory.readWord p.port.memory (enrolWord f j)

def Part.blockSound (p : Part) (f : Fob) : Bool :=
  (List.range 7).all fun j => decide (Memory.readByte p.port.parity (enrolWord f j) = 0)

/-- The block of an index cleared to zero, with sound parity (R143). -/
def Part.clearBlock (p : Part) (f : Fob) : Part :=
  let q := p.storeWords (enrolWord f 0) (List.replicate 8 0)
  { q with port := { q.port with
      parity := (List.range 8).foldl (fun m j => Memory.writeByte m (enrolWord f j) 0) q.port.parity } }

/-- The record a block describes (R143); word 1 holds the secret's least significant bits (log 62). -/
def Part.blockRecord (p : Part) (f : Fob) : FobKeep where
  state := .enrolled
  id := p.blockWord f 0
  secret := p.blockWord f 4 ++ p.blockWord f 3 ++ p.blockWord f 2 ++ p.blockWord f 1
  counter := (p.blockWord f 5).setWidth 28
  run := 0
  blocked := false
  permitted := decide (p.blockWord f 6 = 1)

/-- R143 step 2: what refuses an enrolment. -/
def Part.enrolFault (p : Part) (f : Fob) : Option OrderRefusal :=
  let id := p.blockWord f 0
  if !p.blockSound f then some .parity
  else if (p.fob f).keep.state ≠ .vacant then some .busy
  else if id = 0 ∨ (p.fobOf id).isSome ∨ 268435455 < (p.blockWord f 5).toNat ∨ 1 < (p.blockWord f 6).toNat then some .badParameter
  else none

/-- R143. -/
def Part.enrolOrder (p : Part) (s : Slot) (f : Fob) : Part :=
  let q := p.clearBlock f
  match p.enrolFault f with
  | some r => q.orderRefused s r
  | none => q.changeFob f s (.restored (p.blockRecord f)) (enrolledRow f (p.blockWord f 0))

/-- R144. -/
def Part.dismissOrder (p : Part) (s : Slot) (f : Fob) : Part :=
  if (p.fob f).keep.state = .vacant then p.orderRefused s .noFob
  else
    let q := p.endTracker f .record
    q.changeFob f s { FobRec.restored .vacant with waits := (q.fob f).waits } (dismissedRow f (p.fob f).keep.id)

/-- R145. -/
def Part.suspendOrder (p : Part) (s : Slot) (f : Fob) (resume : Bool) : Part :=
  let k := (p.fob f).keep
  match k.state, resume with
  | .vacant, _ => p.orderRefused s .noFob
  | .enrolled, false =>
    let q := p.endTracker f .record
    let r := q.fob f
    q.changeFob f s { r with
      keep := { r.keep with state := .suspended }
      candidate := none
      lastFrame := none } (suspendedRow f)
  | .suspended, true => p.changeFob f s { (p.fob f).trimmed p.clock with keep := { k with state := .enrolled } } (resumedRow f)
  | .suspended, false | .enrolled, true => (p.orderTaken s).fobOrderDone f s .completed

/-- R146: the cancel of a waiting fob order; the change stays. -/
def Part.cancelFob (p : Part) (s : Slot) : Part :=
  match Fob.all.find? fun f => decide (((p.fob f).waits.map (·.slot)) = some s) with
  | none => p.orderDone s .cancelled
  | some f => (p.setFob f { p.fob f with waits := none }).fobOrderDone f s .cancelled

/-! ### Commits (R207, R146) -/

/-- The owner is told its record's copy is written: a fob order waiting for this commit ends. -/
def Part.tellCommitted (p : Part) : RecordId → Part
  | .fob f =>
    match (p.fob f).waits with
    | some w => if w.begun then (p.setFob f { p.fob f with waits := none }).fobOrderDone f w.slot .completed else p
    | none => p
  | .lock | .window _ => p

/-- The end of a commit: the copy written, the owner told, the record marked again where it changed meanwhile, and the
next commit begun (R207). -/
def Part.commitEnd (p : Part) : Part :=
  match p.store.commit with
  | none => p
  | some k =>
    if p.clock < k.due then p
    else
      let r := k.content.record
      let q := { p with store := { p.store with copies := p.store.copies.commit k.content, commit := none } }
      let q := q.tellCommitted r
      if k.changed then q.markDirty r else q.tryCommit

end Sys2Proof.Machine
end

