-- ==== Sys2Proof/Machine/Supply.lean ====
section
/-! DEFINITION. The Supply and Crash Monitor (spec/09): the supply class, the CRASH line, the crash event and latch. -/

namespace Sys2Proof.Machine

/-! ### Classes (R161 to R165) -/

/-- The class a measurement indicates against the class in force (R162). -/
def indicated (cfg : Config) (cls : SupplyClass) (mv : Nat) : SupplyClass :=
  match cls with
  | .normal => if mv < cfg.criticalEntry then .critical else if mv < cfg.lowEntry then .low else .normal
  | .low => if mv < cfg.criticalEntry then .critical else if cfg.lowExit < mv then .normal else .low
  | .critical => if cfg.lowExit < mv then .normal else if cfg.criticalExit < mv then .low else .critical

/-- The candidate after a measurement (R163). -/
def Supply.nextCandidate (s : Supply) (ind : SupplyClass) : SupplyCandidate :=
  match s.candidate with
  | some k => if k.cls = ind then ⟨ind, k.count + 1⟩ else ⟨ind, 1⟩
  | none => ⟨ind, 1⟩

/-- R164: the class changes, in the rule's order. -/
def Part.changeClass (p : Part) (cls : SupplyClass) (mv : Nat) : Part :=
  let old := p.supply.cls
  let q := p.appendRow (classChangedRow old cls mv)
  let q := settle (fun q => { q with supply := { q.supply with cls := cls, candidate := none } }.meetBudget q.budget) q
  let q := if cls = .critical then q.abortSearches .supply else q
  if old = .critical then q.tryCommit else q

/-- The power-on DRIVERS stage collects the first three readings; the class is not judged before its end (R165). -/
def Part.collecting (p : Part) : Bool := decide (p.state = .start .full .drivers)

/-- R161 to R163: a measurement; in the power-on DRIVERS stage a fourth one changes the voltage alone (log 76). -/
def Part.measure (p : Part) (mv : Nat) : Part :=
  let q := { p with supply := { p.supply with millivolts := mv } }
  if p.collecting then { q with supply := { q.supply with first := (p.supply.first ++ [mv]).take 3 } }
  else
    let ind := indicated p.cfg p.supply.cls mv
    if ind = p.supply.cls then { q with supply := { q.supply with candidate := none } }
    else
      let k := p.supply.nextCandidate ind
      if 3 ≤ k.count then q.changeClass ind mv
      else { q with supply := { q.supply with candidate := some k } }

/-- The lower of two classes. -/
def lowerClass (a b : SupplyClass) : SupplyClass := if a.ctorIdx < b.ctorIdx then b else a

/-- R165: the class from the readings of the DRIVERS stage, each judged as from NORMAL (log 23). -/
def Part.classify (p : Part) : Part :=
  { p with supply := { p.supply with
      cls := (p.supply.first.map (indicated p.cfg .normal)).foldl lowerClass .normal
      candidate := none
      first := [] } }

/-! ### The crash event (R166 to R170) -/

/-- The latch after a crash event (R169). -/
def Part.nextLatch (p : Part) : CrashLatch :=
  match p.crash.latch with
  | none => ⟨p.clock, 1⟩
  | some l => ⟨l.since, min 255 (l.count + 1)⟩

/-- How many windows the event stops (R167). -/
def Part.closingCount (p : Part) : Nat := (Corner.all.filter fun c => decide ((p.window c).motion = .closing)).length

/-- R167, R168: the crash event, in the order of its rows; the windows one at a time (log 78). With the latch already set it
does the same, and ends an operation or a hold begun since (log 96). -/
def Part.crashEvent (p : Part) : Part :=
  let l := p.nextLatch
  let q := { p with crash := { p.crash with latch := some l } }
  let q := q.appendRow (crashEventRow l.count p.state p.crashDoorChanges p.crashChildChanges p.closingCount)
  let q := q.crashDoors
  let q := (q.eachCorner Part.windowCrash).crashOperation
  q.eachFob Part.crashTracker

/-- The assertion has lasted 4 ms and its event is not taken (R166). -/
def Assertion.due (a : Assertion) (clock : Nat) : Bool := !a.taken && decide (a.since + 4 ≤ clock)

def Part.setAssertion (p : Part) (a : Option Assertion) : Part := { p with crash := { p.crash with assertion := a } }

/-- The record is marked as having its event. -/
def Part.markAssertion (p : Part) : Part := p.setAssertion (p.crash.assertion.map fun a => { a with taken := true })

/-- The level the monitor holds the CRASH line at: the line's, or, where its sense circuit is faulty, the one it held
when the INPUTS stage ended, which its assertion record shows (R178, R199). -/
def Part.crashAsserted (p : Part) : Bool :=
  if p.degraded.inputs.crash then p.crash.assertion.isSome else decide ((p.input .crash).raw ≠ .rest)

/-- R170, R166 at the end of a DRIVERS stage: the line's level against the record. -/
def Part.rereadCrash (p : Part) : Part :=
  if p.crashAsserted = false then p.setAssertion none
  else
    match p.crash.assertion with
    | none => p.setAssertion (some ⟨p.clock, false⟩)
    | some a => if a.due p.clock then p.markAssertion.crashEvent else p

/-- R171: RELEASE-CRASH. -/
def Part.releaseCrash (p : Part) (s : Slot) : Part :=
  let after := fun b : Bool => packWord [onOff b]
  match p.crash.latch with
  | none => p.orderDone s .completed (after false)
  | some l =>
    if p.doors.ign ∨ p.doors.vehicle ≠ .standstill then p.orderRefused s .vehicleMoving
    else
      let q := { p with crash := { p.crash with latch := none } }
      let q := q.appendRow (latchClearedRow l)
      let q := if p.crashAsserted then q.setAssertion (some ⟨p.clock, false⟩) else q
      (q.orderTaken s).orderDone s .completed (after false)

end Sys2Proof.Machine
end

