-- ==== Sys2Proof/Machine/Board.lean ====
section
/-! DEFINITION. The Order Board's taking of an order and of a cancel (R190, R192), the configuration checks and the
adoption (R201, R202), and SERVICE and DOZE entry (R201, R203). -/

namespace Sys2Proof.Machine

/-! ### The Configuration Page (R201, 11.6) -/

def Part.pageWord (p : Part) (i : Nat) : Nat := (Memory.readWord p.port.memory i).toNat
def Part.pageBit (p : Part) (i k : Nat) : Bool := bitAt (Memory.readWord p.port.memory i) k

/-- The page's items (11.6). -/
def Part.page (p : Part) : Config where
  relockTime := p.pageWord 272
  selectiveUnlock := p.pageBit 273 0
  entryUnlocksAll := p.pageBit 273 1
  driveAwayLock := p.pageBit 273 2
  unlockAtIgnitionOff := p.pageBit 273 3
  latchPulse := p.pageWord 274
  confirmWindow := p.pageWord 275
  pwmFrequency := p.pageWord 276
  rampTime := p.pageWord 277
  softStopOffset := p.pageWord 278
  slowZone := p.pageWord 279
  ventDepth := p.pageWord 280
  pinchZone := p.pageWord 281
  absoluteLimit := p.pageWord 282
  pinchRatio := p.pageWord 283
  forceRatio := p.pageWord 284
  reversalDistance := p.pageWord 285
  heatLimit := p.pageWord 286
  heatResume := p.pageWord 287
  lowEntry := p.pageWord 288
  lowExit := p.pageWord 289
  criticalEntry := p.pageWord 290
  criticalExit := p.pageWord 291
  normalBudget := p.pageWord 292
  lowBudget := p.pageWord 293
  dozeDwell := p.pageWord 294
  receiverPeriod := p.pageWord 295
  insideThreshold := p.pageWord 296
  outsideThreshold := p.pageWord 297
  wakeTouch := p.pageBit 298 0
  wakePulls := p.pageBit 298 1
  wakeSwitches := p.pageBit 298 2
  wakeRocker := p.pageBit 298 3
  wakeTailgate := p.pageBit 298 4

def within (lo hi v : Nat) : Bool := decide (lo ≤ v ∧ v ≤ hi)

/-- Check 0: no word of the page has a parity error. -/
def Part.pageSound (p : Part) : Bool :=
  p.port.parity.all fun c => !(decide (272 ≤ c.1 ∧ c.1 ≤ 351))

/-- Checks 1 to 13, each with its number (R201). -/
def configChecks (g : Config) : List (Nat × Bool) :=
  [(1, decide (g.relockTime = 0) || within 10000 120000 g.relockTime),
   (2, within 80 400 g.latchPulse),
   (3, within 100 1000 g.confirmWindow),
   (4, within 160 250 g.pwmFrequency),
   (5, within 50 300 g.rampTime && within 4 20 g.softStopOffset && decide (g.softStopOffset < g.slowZone) &&
     decide (g.slowZone ≤ 200) && decide (g.softStopOffset + g.slowZone < g.ventDepth) && decide (g.ventDepth ≤ 600)),
   (6, within 100 600 g.pinchZone && within 20 200 g.absoluteLimit),
   (7, within 5 60 g.pinchRatio && within 5 60 g.forceRatio && decide (g.pinchRatio ≤ g.forceRatio)),
   (8, within 100 1000 g.reversalDistance),
   (9, decide (1 ≤ g.heatResume) && decide (g.heatResume < g.heatLimit) && decide (g.heatLimit ≤ 2000)),
   (10, within 6000 14000 g.lowEntry && within 6000 14000 g.lowExit && within 6000 14000 g.criticalEntry &&
     within 6000 14000 g.criticalExit && decide (g.criticalEntry + 200 ≤ g.criticalExit) &&
     decide (g.criticalExit ≤ g.lowEntry) && decide (g.lowEntry + 200 ≤ g.lowExit)),
   (11, within 4 12 g.normalBudget && decide (2 ≤ g.lowBudget) && decide (g.lowBudget ≤ g.normalBudget)),
   (12, within 5000 600000 g.dozeDwell && within 50 1000 g.receiverPeriod),
   (13, within 1 255 g.insideThreshold && within 1 255 g.outsideThreshold &&
     decide (g.outsideThreshold ≤ g.insideThreshold))]

/-- The number of the first check that fails (R201). -/
def Part.failingCheck (p : Part) : Option Nat :=
  if p.pageSound then ((configChecks p.page).find? fun k => !k.2).map (·.1) else some 0

/-- The page is adopted: the items in force, the candidate emptied, the thermal blocks judged afresh, window FL first and RR
last (log 100), the arbiter at its new budget (R201, R162, R68, R96). -/
def Part.adopt (p : Part) : Part :=
  let q := { p with check := .passed, cfg := p.page, supply := { p.supply with candidate := none } }
  (q.eachCorner Part.judgeThermal).meetBudget p.budget

/-! ### RECONFIGURE (R202) -/

def Part.reconfigure (p : Part) (s : Slot) : Part :=
  if p.quiet then
    match p.failingCheck with
    | some n => { p with check := .failed n }.orderRefused s .config (packWord [numField 4 n])
    | none => (p.orderTaken s).adopt.orderDone s .completed
  else p.orderRefused s .busy

/-! ### SET-WINDOW-LOCKOUT, LOCK-DOORS, SET-CHILD-LOCK, LOCATE-FOB orders (R57, R9, R25, R125) -/

def Part.lockoutOrder (p : Part) (s : Slot) (on : Bool) : Part :=
  let q := p.orderTaken s
  let q := if p.lockout = on then q else q.changeLockout true on
  q.orderDone s .completed (packWord [lockoutField on])

/-- The results: action taken, doors changed, doors LOCK-PENDING (11.6); the action asked for (R5) stays in the slot's
parameter word 1 (log 81). -/
def Part.lockDoorsOrder (p : Part) (s : Slot) (a : LockAction) (who : PerDoor Bool) : Part :=
  if p.lockRefused a then p.orderRefused s .crashLatch
  else
    let q := (p.orderTaken s).lockAction .order a who
    q.orderDone s .completed
      (packWord [actionField (p.doors.taken a), doorSet (p.lockChanges a who), doorSet q.doors.lockPendingSet])

def Part.childLockOrder (p : Part) (s : Slot) (rl rr : Bool) (child : ChildLock) : Part :=
  if child = .engaged ∧ p.crashSet = true then p.orderRefused s .crashLatch
  else
    let q := (p.orderTaken s).changeChildLocks true (if rl then child else p.doors.childRL) (if rr then child else p.doors.childRR)
    q.orderDone s .completed (packWord [childField q.doors.childRL, childField q.doors.childRR])

def Part.locateOrder (p : Part) (s : Slot) (set : PerAntenna Bool) : Part :=
  p.searchRequest ⟨.locate, none, some set, [], false, p.clock⟩ (some s)

/-! ### Taking an order (R190) -/

/-- The owner's part of an order that has passed the common checks. -/
def Part.serveOrder (p : Part) (s : Slot) : Order → Part
  | .lockDoors a who => p.lockDoorsOrder s a who
  | .setChildLock rl rr child => p.childLockOrder s rl rr child
  | .releaseLatch d => p.releaseOrder s d
  | .moveWindow c t => p.moveOrder s c t
  | .setWindowLockout on => p.lockoutOrder s on
  | .learnWindow c => p.learnOrder s c
  | .locateFob a => p.locateOrder s a
  | .enrolFob f => p.enrolOrder s f
  | .dismissFob f => p.dismissOrder s f
  | .suspendFob f r => p.suspendOrder s f r
  | .combined k => p.combinedOrder s k
  | .releaseCrash => p.releaseCrash s
  | .reconfigure => p.reconfigure s

/-- The common checks, in order, then the owner (R190). -/
def Part.takeOrder (p : Part) (s : Slot) : Part :=
  match kindOf (p.head s).kind with
  | none => p.orderRefused s .unknownKind
  | some k =>
    if !p.orderSound s k then p.orderRefused s .parity
    else if p.inSafeHold then p.orderRefused s .safeHold
    else if !p.inService then p.orderRefused s .notInService
    else
      match p.readOrder s k with
      | none => p.orderRefused s .badParameter
      | some o => p.serveOrder s o

/-- Every order POSTED, in slot order, each completely before the next (R190). -/
def Part.takePosted (p : Part) : Part :=
  (List.finRange 16).foldl (fun q s => if (q.head s).state = .posted then settle (·.takeOrder s) q else q) p

/-- A cancel handed to the order's owner, which ends the order in the event (R192). -/
def Part.cancelOrder (p : Part) (s : Slot) : Part :=
  match kindOf (p.head s).kind with
  | some .releaseLatch => p.cancelRelease s
  | some .moveWindow | some .learnWindow => p.cancelMove s
  | some .locateFob => p.cancelLocate s
  | some .enrolFob | some .dismissFob | some .suspendFob => p.cancelFob s
  | some .comfortClose | some .comfortOpen | some .vent => p.cancelOperation s
  | _ => p.orderDone s .cancelled

/-! ### SERVICE, DOZE, SAFE-HOLD -/

/-- The doze dwell starts from full (R203). -/
def Part.startDwell (p : Part) : Part := { p with dwell := some (p.clock + p.cfg.dozeDwell) }

/-- Activity restarts the dwell in SERVICE (R203). -/
def Part.activity (p : Part) : Part := if p.inService then p.startDwell else p

/-- The switches away from NEUTRAL are marked spent as SERVICE is entered, but for those with a held change (R52, R72,
R180). -/
def Part.spendHeld (p : Part) (but : List Input) : Part :=
  Switch.all.foldl (fun q sw =>
    if decide ((q.input (.switch sw)).level = .rest) || but.contains (.switch sw) then q else markSpent q sw true) p

/-- R201: the checks pass and the part enters SERVICE. -/
def Part.enterService (p : Part) : Part :=
  let q := settle (fun q => q.adopt) p
  let q := (q.setState .service).appendRow serviceEnteredRow
  (q.startDwell.spendHeld []).takePosted

/-- R201: a write of 1 to START in HELD. -/
def Part.startWrite (p : Part) : Part :=
  if p.state = .held then
    match p.failingCheck with
    | some n => { p with check := .failed n }.appendRow (configFailedRow n)
    | none => p.enterService
  else p

/-- R203: the dwell expires. DOZE is entered without a re-reference watch: one still running ends without a row (R95;
log 68). -/
def Part.dwellExpiry (p : Part) : Part :=
  if p.inService && due p.dwell p.clock then
    if p.mayDoze then
      let q := p.eachCorner Part.endWatch
      { (q.setState .doze).appendRow dozeEnteredRow with
        dwell := none
        listen := some ⟨p.cfg.receiverPeriod, p.clock, none⟩ }
    else p.startDwell
  else p

/-- R203, R147: a listen window opens at the start of each receiver period, for 5 ms (log 25). -/
def Part.listenWindow (p : Part) : Part :=
  match p.listen with
  | none => p
  | some l =>
    if l.next ≤ p.clock then
      { p with listen := some { l with next := l.next + max 1 l.period, openUntil := some (p.clock + 5) } }
    else p

/-- Every block takes the entry into SAFE-HOLD: doors, windows, Sequencer, searches, trackers, posted orders (R18, R11,
R72, R159, R129, R147, R190; log 38). The windows FL to RR, each one's stop and then its pending command before the next one's
(log 100), the trackers of fobs 0 to 3 (log 101). -/
def Part.safeHoldBlocks (p : Part) : Part :=
  let q := p.setDoors { p.doors with relock := none, press := none }
  let q := settle (fun q => (q.eachCorner Part.windowSafeHold).safeHoldOperation) q
  let q := q.abortSearches .safeHold
  (q.eachFob Part.resetTracker).takePosted

end Sys2Proof.Machine
end

