-- ==== Sys2Proof/WellFormed.lean ====
section
/-! DEFINITION. The checks on a command's operands that the types of Syntax.lean do not make: each says what the
spec's own ranges require of a command that can arrive. A command's meaning is total on ill-formed operands too. -/

namespace Sys2Proof

/-- The number of levels of an input (R173). -/
def Input.levels : Input → Nat
  | .switch _ => 5
  | .rocker => 3
  | .ajar _ | .outer _ | .tailgate | .inner _ | .touch _ | .lockTouch _ | .childButton | .lockoutButton | .ign | .crash => 2

/-- The place of a level among an input's levels. -/
def Level.place : Level → Nat
  | .rest => 0
  | .l1 => 1
  | .l2 => 2
  | .l3 => 3
  | .l4 => 4

/-- A level is one of the input's own (R173). -/
def Level.fits (l : Level) (i : Input) : Bool := decide (l.place < i.levels)

/-- What each command's operands must meet:
- REGISTER_WRITE is the row that selects no operation (R182): PORT STATUS, or PORT CONTROL with both request bits 0;
- UNKNOWN_COMMAND carries a kind other than 1 to 5 (spec/11, 11.6);
- RAW_INPUT_CHANGE names a level its input has, and not the CRASH line, which has its own row (R173, R166);
- INPUT_STUCK and the window switch rows name any place; which places exist follows the strap (R173);
- a battery reading lies from 0 to 20 000 mV (R161);
- a hall pulse's microsecond lies within its millisecond. -/
def Instr.wellFormed : Instr → Bool
  | .registerWrite .status _ => true
  | .registerWrite .control v => decide (bitsAt v 0 2 = 0)
  | .unknownCommand k => decide (k = 0#3 ∨ 5#3 < k)
  | .rawInputChange i l => l.fits i && decide (i ≠ .crash)
  | .batteryMeasurement mv => decide (mv ≤ 20000)
  | .hallPulse _ _ us => decide (us < 1000)
  | .powerOnReset _ | .portReset | .wake | .registerRead _ | .memoryRead _ _ | .memoryWrite _ _ | .writeOn _ => true
  | .lockDoors _ _ _ | .setChildLock _ _ _ | .releaseLatch _ _ | .moveWindow _ _ _ _ | .setWindowLockout _ _ => true
  | .learnWindow _ _ | .locateFob _ _ | .enrolFob _ _ | .dismissFob _ _ | .suspendFob _ _ _ => true
  | .comfortClose _ | .comfortOpen _ | .vent _ | .releaseCrash _ | .reconfigure _ => true
  | .driversStageEnd _ | .inputsStageEnd _ | .memoryStageEnd _ | .storeStageEnd _ | .antennasStageEnd _ => true
  | .receiverStageEnd _ | .timeBaseCheck _ | .dozeDwellExpiry | .listenWindow | .woke | .commitStart | .commitEnd => true
  | .ajarChange _ _ | .outerPull _ _ | .tailgateButton _ | .innerHandlePull _ _ | .outerTouch _ _ | .lockTouch _ _ => true
  | .windowSwitchChange _ _ | .lockRocker _ | .childLockButton _ | .lockoutButton _ | .ignChange _ | .inputStuck _ => true
  | .crashLineChange _ | .crashEvent | .relockExpiry | .grantFromHead | .waitLimitExpiry _ | .latchPulseExpiry _ => true
  | .confirmExpiry _ | .coastEnd _ | .softStartEnd _ | .stallExpiry _ | .rereferenceWatchExpiry _ => true
  | .forceArmedExpiry _ | .heatRise _ | .heatFall _ | .searchStart | .antennaTransmissionEnd | .replySlotEnd => true
  | .searchReply _ | .searchCompletion | .remoteFrame _ | .holdTrackerExpiry _ | .partWordParityError => true

end Sys2Proof
end

