-- ==== Sys2Proof/Machine/Inputs.lean ====
section
/-! DEFINITION. The Input Sense Unit (spec/10): raw changes, debounce, routing by part state, stuck inputs, wake
requests, and the CRASH line. -/

namespace Sys2Proof.Machine

/-! ### Where an event goes (R175 to R177) -/

/-- R33: a press of the tailgate button. -/
def Part.tailgatePress (p : Part) : Part :=
  match (p.door .tg).lock with
  | .unlocked => p.releaseRequest .tg .tgButton none
  | .lockPending => p
  | .locked | .deadlocked =>
    if p.inService then p.searchRequest (searchFor p .tailgate .tg) none
    else p.appendRow (outerRefusedRow .tg (p.door .tg).lock)

/-- R177: an outer pull. -/
def Part.outerPull (p : Part) (c : Corner) : Part :=
  let d := c.toDoor
  if (p.door d).lock.barred && p.locator.entryFor d then p.setDoor d { p.door d with pull := true }
  else p.outerRequest d

/-- R176: a touch of an outer touch sensor. -/
def Part.outerTouch (p : Part) (c : Corner) : Part :=
  if (p.door c.toDoor).lock.barred then p.searchRequest (searchFor p .entry c.toDoor) none else p

/-- R8: LOCK on a move from centre, UNLOCK on each move into UNLOCK (log 51). -/
def Part.rockerMove (p : Part) (old new : Level) : Part :=
  if new = .l1 ∧ old = .rest then p.lockAction .rocker .lock allDoors
  else if new = .l2 then p.lockAction .rocker .unlock allDoors
  else p

/-- R175 sends the event to an owner: every change, or the events that leave rest. -/
def routed : Input → Level → Bool
  | .ajar _, _ | .switch _, _ | .rocker, _ | .ign, _ => true
  | .outer _, l | .tailgate, l | .inner _, l | .touch _, l | .lockTouch _, l | .childButton, l | .lockoutButton, l =>
    decide (l ≠ .rest)
  | .crash, _ => false

/-- The owner takes the event. -/
def Part.deliver (p : Part) (i : Input) (old new : Level) : Part :=
  if !routed i new then p
  else
    match i with
    | .ajar d => p.deliverAjar d (if new = .rest then .isClosed else .isOpen)
    | .outer c => p.outerPull c
    | .tailgate => p.tailgatePress
    | .inner c => p.innerPull c
    | .touch c => p.outerTouch c
    | .lockTouch f => p.searchRequest (searchFor p .lock f.toCorner.toDoor) none
    | .switch sw => p.switchStage sw (levelStage old) (levelStage new)
    | .rocker => p.rockerMove old new
    | .childButton => p.childToggle
    | .lockoutButton => p.changeLockout false (!p.lockout)
    | .ign => p.ignEvent (decide (new ≠ .rest))
    | .crash => p

/-- What START after the DRIVERS stage and HELD take, and what SAFE-HOLD takes (R179). -/
def takenInHeld : Input → Bool
  | .ajar _ | .outer _ | .tailgate | .inner _ | .rocker | .childButton | .ign => true
  | .touch _ | .lockTouch _ | .switch _ | .lockoutButton | .crash => false

def takenInSafeHold : Input → Bool
  | .ajar _ | .inner _ | .ign => true
  | _ => false

/-! ### Wake requests (R180, R204) -/

/-- A wake request: the first names the cause (R204). -/
def Part.requestWake (p : Part) (c : WakeCause) : Part :=
  match p.waking with
  | some _ => p
  | none => { p with waking := some ⟨c, p.clock, [], false, false⟩ }

/-- An event held until SERVICE. -/
def Part.holdEvent (p : Part) (e : HeldEvent) : Part :=
  { p with waking := p.waking.map fun w => { w with held := w.held ++ [e] } }

/-- R180: an event in DOZE. A change of the rocker or of a window switch between two levels away from rest neither leaves
rest nor returns to it: it is lost without a wake (log 55). -/
def Part.dozeEvent (p : Part) (i : Input) (old new : Level) : Part :=
  if p.waking.isSome then p.holdEvent (.input i old new)
  else
    match i with
    | .ajar _ => p.deliver i old new
    | _ =>
      if !wakeEnabled p.cfg i then p
      else if new = .rest then p.deliver i old new
      else if old = .rest then (p.requestWake (.input i)).holdEvent (.input i old new)
      else p

/-- An event delivered in SERVICE, and the activity it is, a touch that asks for no search too (R175, R203; log 32). -/
def Part.serviceEvent (p : Part) (i : Input) (old new : Level) : Part :=
  let q := settle (·.deliver i old new) p
  if routed i new then q.activity else q

/-- R179, R180: an input event by the part state. -/
def Part.takeEvent (p : Part) (i : Input) (old new : Level) : Part :=
  match p.state with
  | .start _ .drivers => p
  | .start _ _ | .held => if takenInHeld i then settle (·.deliver i old new) p else p
  | .service => p.serviceEvent i old new
  | .doze => settle (·.dozeEvent i old new) p
  | .safeHold _ => if takenInSafeHold i then settle (·.deliver i old new) p else p

/-! ### Raw levels and debounce (R173) -/

/-- A change of the raw level starts the count, a return to the debounced level ends it. -/
def Part.rawChange (p : Part) (i : Input) (l : Level) : Part :=
  let r := p.input i
  if l.fits i && inputPresent p.driverDoor i && decide (i ≠ .crash) && decide (l ≠ r.raw) then
    p.setInput i { r with raw := l, since := if l = r.level then none else some p.clock }
  else p

/-- The raw level has held for the input's debounce time. -/
def Part.settledLevel (p : Part) (i : Input) (l : Level) : Bool :=
  let r := p.input i
  decide (r.raw = l ∧ l ≠ r.level) && due (r.since.map (· + debounceTime i)) p.clock

/-- The debounced level changes, with its stuck timer (R173, R178). -/
def InputRec.moved (r : InputRec) (l : Level) (clock : Nat) (judged : Bool) : InputRec :=
  { r with
    level := l
    since := none
    stuckAt := if l = .rest then none else if r.level = .rest ∧ judged = true then some (clock + 60000) else r.stuckAt
    stuck := r.stuck && decide (l ≠ .rest) }

/-- A debounced change: the level, a spent switch's return, INPUT-CLEARED, and the event where its input is not muted
(R173, R178, R52; log 31). -/
def Part.debounced (p : Part) (i : Input) (l : Level) : Part :=
  if p.settledLevel i l then
    let r := p.input i
    let q := p.setInput i (r.moved l p.clock (stuckJudged i))
    let unspend := fun q : Part => match i with
      | .switch sw => if l = .rest then markSpent q sw false else q
      | _ => q
    if p.degraded.inputs.get i then unspend q
    else if r.stuck then unspend (if l = .rest then q.appendRow (inputClearedRow p.driverDoor i) else q)
    else unspend (q.takeEvent i r.level l)
  else p

/-- R178: the stuck timer expires; the owner sees a return to rest, where the part state delivers it, and that is no
activity (log 89). -/
def Part.stuckExpiry (p : Part) (i : Input) : Part :=
  let r := p.input i
  if due r.stuckAt p.clock && !p.muted i then
    let q := p.setInput i { r with stuckAt := none, stuck := true }
    let q := q.appendRow (inputStuckRow p.driverDoor i r.level)
    match p.state with
    | .start _ .drivers => q
    | .start _ _ | .held => if takenInHeld i then settle (·.deliver i r.level .rest) q else q
    | .service => settle (·.deliver i r.level .rest) q
    | .doze => settle (·.dozeEvent i r.level .rest) q
    | .safeHold _ => if takenInSafeHold i then settle (·.deliver i r.level .rest) q else q
  else p

/-! ### The CRASH line (R166, R170) -/

/-- A change of the line's level, passed on without debounce; in DOZE an assertion's start wakes the part. -/
def Part.crashLine (p : Part) (asserted : Bool) : Part :=
  let r := p.input .crash
  let l := twoLevel asserted
  if l = r.raw then p
  else
    let q := p.setInput .crash { r with raw := l, level := l }
    if !p.doorService || p.degraded.inputs.crash then q
    else
      let q := q.setAssertion (if asserted then some ⟨p.clock, false⟩ else none)
      let q := if asserted && decide (p.state = .doze) then q.requestWake .crash else q
      q.activity

/-- The 4 ms expiry (R166): taken, or in DOZE held for SERVICE (R170). -/
def Part.crashExpiry (p : Part) : Part :=
  if p.doorService && p.crash.assertion.any (·.due p.clock) then
    if p.state = .doze then
      let q := p.markAssertion.requestWake .crash
      { q with waking := q.waking.map fun w => { w with crashHeld := true } }
    else settle (fun q => q.markAssertion.crashEvent) p
  else p

/-- R147: a remote frame by the part state: in SERVICE served; in DOZE, heard in a listen window only. -/
def Part.frameHeard (p : Part) (fr : Frame) : Part :=
  match p.state with
  | .service => if p.degraded.receiver then p else (settle (·.serveFrame fr p.clock) p).activity
  | .doze =>
    if p.listen.any fun l => l.openUntil.any fun t => decide (p.clock < t) then
      match p.judgeFrame fr p.clock with
      | .ignored => p
      | .rejected f why => p.applyFrame fr p.clock (.rejected f why)
      | .candidate f d => (p.applyFrame fr p.clock (.candidate f d)).requestWake (.frame f)
      | .press f _ | .continuation f => (p.requestWake (.frame f)).holdEvent (.frame fr p.clock)
    else p
  | .start _ _ | .held | .safeHold _ => p

end Sys2Proof.Machine
end

