-- ==== Sys2Proof/Machine/SelfTest.lean ====
section
/-! DEFINITION. Part Control's self-test stages (R198, R199, R208), door service's beginning (R27, R28, R47), SAFE-HOLD
(R205), both resets (R198, R200) and the end of a wake (R204). -/

namespace Sys2Proof.Machine

def Part.eachDoor (p : Part) (f : Part → Door → Part) : Part := Door.all.foldl f p

/-! ### Door service begins (R27, R28, R47, R166, R181) -/

/-- The debounced level of an input of the part taken from the raw one, without an event, with its stuck timer where it
is away from rest (R181); the place of a switch that the driver side lacks stays at rest. -/
def Part.adoptLevel (p : Part) (i : Input) : InputRec :=
  let r := p.input i
  let l := if inputPresent p.driverDoor i then r.raw else .rest
  { r with
    level := l
    since := none
    stuckAt := if stuckJudged i && decide (l ≠ .rest) then some (p.clock + 60000) else none }

def Part.adoptLevels (p : Part) : Part := { p with inputs := .build p.adoptLevel }

/-- R27, R74: the doors' first samples, the IGN level, and the switches found away from NEUTRAL marked spent. -/
def Part.firstSamples (p : Part) : Part :=
  let q := p.adoptLevels
  let q := q.beginDoorService (.build fun d => if (q.input (.ajar d)).level = .rest then .isClosed else .isOpen)
    (decide ((q.input .ign).level ≠ .rest))
  q.spendHeld []

/-- R28: a door's ajar field against the debounced level, a difference taken as an ajar event. -/
def Part.rereadAjar (p : Part) (d : Door) : Part :=
  let a : Ajar := if (p.input (.ajar d)).level = .rest then .isClosed else .isOpen
  if (p.door d).ajar = a ∨ p.muted (.ajar d) = true then p else settle (·.deliverAjar d a) p

/-- R47: an inner handle found pulled on a CLOSED door is taken as a pull, but for a handle whose sense circuit is
faulty, whose owner keeps the level it holds (R178; log 56). -/
def Part.rereadInner (p : Part) (c : Corner) : Part :=
  if (p.input (.inner c)).level ≠ .rest ∧ (p.door c.toDoor).ajar = .isClosed ∧ p.muted (.inner c) = false then
    settle (·.innerPull c) p
  else p

/-- R27, R28: what the end of the DRIVERS stage takes from the inputs, in each self-test. -/
def Part.readInputs (p : Part) : SelfTest → Part
  | .full => p.firstSamples
  | .short => p.eachDoor Part.rereadAjar

/-- Door service begins at the end of the DRIVERS stage of either self-test; a relock expiry that fell due is taken
after the ajar re-read (R20; log 21). The state already stands past the DRIVERS stage. -/
def Part.beginService (p : Part) (test : SelfTest) : Part :=
  let q := settle Part.relockExpiry (p.readInputs test)
  let q := q.eachCorner Part.rereadInner
  settle Part.rereadCrash q

/-! ### SAFE-HOLD (R205) -/

/-- The full self-test judges the supply class as its DRIVERS stage ends (R165), and the arbiter meets its budget. -/
def Part.judgeClass (p : Part) : SelfTest → Part
  | .full => p.classify.meetBudget p.budget
  | .short => p

/-- Where the state left was a DRIVERS stage, the class is judged and door service begins (R165; log 22). -/
def Part.leaveDrivers (p : Part) : PartState → Part
  | .start test .drivers => (p.judgeClass test).beginService test
  | _ => p

/-- An event held for a wake that SAFE-HOLD overtook: an input event is taken as SAFE-HOLD takes it (R46, R179); a frame
is lost, since SAFE-HOLD takes none (R133; log 54). -/
def Part.overtaken (p : Part) : HeldEvent → Part
  | .input i old new => p.takeEvent i old new
  | .frame _ _ => p

/-- What a wake held, as SAFE-HOLD is entered before it ends: the crash event (log 39), then the input events in the order
they were held; a held port reset is lost (log 54). -/
def Part.overtakeWake (p : Part) : Option Waking → Part
  | none => p
  | some w => w.held.foldl Part.overtaken (if w.crashHeld then settle Part.crashEvent p else p)

/-- SAFE-HOLD is entered with a hold code (R205). From the DRIVERS stage, door service begins first (log 22). -/
def Part.enterSafeHold (p : Part) (code : HoldCode) : Part :=
  if p.inSafeHold then p
  else
    let q := { p with state := .safeHold code, dwell := none, waking := none, listen := none }
    let q := q.leaveDrivers p.state
    let q := if q.port.served then q.appendRow (safeHoldEnteredRow code) else q
    q.safeHoldBlocks.overtakeWake p.waking

/-! ### The stages (R198, R199) -/

/-- The latch fault DRIVER follows the stage's finding (R3). -/
def DoorRec.judged (d : DoorRec) (faulty : Bool) : DoorRec :=
  { d with fault := if faulty then .driver else if d.fault = .driver then .sound else d.fault }

/-- The DRIVERS stage's findings; a latch driver energised by a release as the stage ends keeps its entry (R45, R199;
log 82). -/
def Part.judgeDrivers (p : Part) (found : DriversFindings) : Part :=
  let energised := fun d => (p.latch d).any fun op => decide (op.state = .pulsing)
  let latches : PerDoor Bool := .build fun d => if energised d then p.degraded.latches.get d else found.latches.get d
  let q := { p with degraded := { p.degraded with bridges := found.bridges, latches := latches } }
  let judge := fun d => if energised d then q.door d else (q.door d).judged (found.latches.get d)
  q.setDoors { q.doors with recs := .build judge }

/-- The stage after the DRIVERS stage (R198, R200). -/
def SelfTest.afterDrivers : SelfTest → TestStage
  | .full => .inputs
  | .short => .store

def Part.driversEnd (p : Part) (found : DriversFindings) : Part :=
  match p.state with
  | .start test .drivers =>
    let q := (p.judgeDrivers found).judgeClass test
    let q := q.setState (.start test test.afterDrivers)
    let q := q.beginService test
    if found.supplyFault then q.enterSafeHold .supplyFault else q
  | _ => p

def Part.inputsEnd (p : Part) (found : InputsFindings) : Part :=
  match p.state with
  | .start .full .inputs =>
    { p with
      degraded := { p.degraded with inputs := found.inputs, halls := found.halls }
      state := .start .full .memory }
  | _ => p

/-- The MEMORY stage ends: every word zero and served, and the GAP row of R196. -/
def Part.memoryEnd (p : Part) (fault : Bool) : Part :=
  match p.state with
  | .start .full .memory =>
    if fault then p.enterSafeHold .memoryFault
    else
      ({ p with
        port := { p.port with memory := [], parity := [], served := true }
        heads := Vector.replicate 16 .free
        state := .start .full .store } : Part).writeGap
  | _ => p

/-! ### The STORE stage (R208) -/

/-- The newer copy whose check is sound (R208). -/
def Copies.read {α : Type} (c : Copies α) (newerBad olderBad : Bool) : Option α :=
  if newerBad then (if olderBad then none else c.older)
  else
    match c.newer with
    | some x => some x
    | none => if olderBad then none else c.older

def Copies.isBlank {α : Type} (c : Copies α) : Bool := c.newer.isNone && c.older.isNone

def Part.readFob (p : Part) (s : StoreFindings) (f : Fob) : Option FobKeep :=
  (p.store.copies.fobs.get f).read (s.newerUnsound.get (.fob f)) (s.olderUnsound.get (.fob f))
def Part.readLock (p : Part) (s : StoreFindings) : Option LockKeep :=
  p.store.copies.lock.read (s.newerUnsound.get .lock) (s.olderUnsound.get .lock)
def Part.readWindow (p : Part) (s : StoreFindings) (c : Corner) : Option WindowKeep :=
  (p.store.copies.windows.get c).read (s.newerUnsound.get (.window c)) (s.olderUnsound.get (.window c))

def Part.recordBad (p : Part) (s : StoreFindings) : RecordId → Bool
  | .fob f => (p.readFob s f).isNone
  | .lock => (p.readLock s).isNone
  | .window c => (p.readWindow s c).isNone

def Part.recordBlank (p : Part) : RecordId → Bool
  | .fob f => (p.store.copies.fobs.get f).isBlank
  | .lock => p.store.copies.lock.isBlank
  | .window c => (p.store.copies.windows.get c).isBlank

/-- The store is unreadable as a whole (R208). -/
def Part.storeUnreadable (p : Part) (s : StoreFindings) : Bool :=
  !s.answers || RecordId.all.all fun r => p.recordBad s r && !p.recordBlank r

def WindowKeep.default : WindowKeep := ⟨0, 0, false, false⟩

/-- R74, R90: a window takes its retained record; the moving flag makes it UNLEARNED. A stored position above the stored
travel is taken as it is (log 93). -/
def WindowRec.restored (w : WindowRec) (k : WindowKeep) : WindowRec :=
  { w with travel := k.travel, position := k.position, learned := k.learned && !k.moving }

/-- The owner takes its record, or its defaults (R208). -/
def Part.adoptRecord (p : Part) (s : StoreFindings) : RecordId → Part
  | .fob f => p.setFob f (.restored ((p.readFob s f).getD .vacant))
  | .lock => p.deliverLocks ((p.readLock s).getD .default)
  | .window c => p.setWindow c ((p.window c).restored ((p.readWindow s c).getD .default))

/-- A record delivered to its owner after a power-on reset, with the mark and the row where its defaults were (R208). -/
def Part.deliverRecord (s : StoreFindings) (p : Part) (r : RecordId) : Part :=
  let q := p.adoptRecord s r
  if p.recordBad s r then (q.markDirty r).appendRow (storeDefaultsRow r) else q

/-- The nine records in the order in which 12.5 names them, fobs 0 to 3, the lock record, windows FL to RR: so stand the marks
of several bad ones in the dirty set, and their rows (R208; log 99). -/
def Part.eachRecord (p : Part) (f : Part → RecordId → Part) : Part := RecordId.all.foldl f p

/-- The records the stage finds bad: all nine where the store does not answer (R199, R206; log 66). -/
def Part.badRecords (p : Part) (s : StoreFindings) : PerRecord Bool := .build fun r => !s.answers || p.recordBad s r

/-- The stage's own entries of the degraded map and its count in the store summary (R199, R206). -/
def Part.judgeStore (p : Part) (bad : PerRecord Bool) : Part :=
  { p with
    degraded := { p.degraded with records := bad }
    store := { p.store with bad := (RecordId.all.filter bad.get).length } }

/-- What the stage delivers after a power-on reset, and marks after a port reset (R208). -/
def Part.takeRecords (p : Part) (s : StoreFindings) (bad : PerRecord Bool) : SelfTest → Part
  | .full => p.eachRecord (Part.deliverRecord s)
  | .short => p.eachRecord fun q r => if bad.get r then q.markDirty r else q

/-- From the end of a STORE stage without a fatal finding on, commits may begin (R207; log 40). -/
def Part.openStore (p : Part) : Part := { p with store := { p.store with ready := true } }.tryCommit

def Part.storeEnd (p : Part) (s : StoreFindings) : Part :=
  match p.state with
  | .start test .store =>
    let bad := p.badRecords s
    let q := p.judgeStore bad
    if p.storeUnreadable s then q.enterSafeHold .storeFault
    else ((q.setState (.start test .antennas)).takeRecords s bad test).openStore
  | _ => p

def Part.antennasEnd (p : Part) (faulty : PerAntenna Bool) : Part :=
  match p.state with
  | .start test .antennas =>
    { p with degraded := { p.degraded with antennas := faulty }, state := .start test .receiver }
  | _ => p

/-- The last stage ends: HELD, and SELF-TEST-FINDINGS where the map is not empty (R198, R199). -/
def Part.receiverEnd (p : Part) (faulty : Bool) : Part :=
  match p.state with
  | .start _ .receiver =>
    let q := { p with degraded := { p.degraded with receiver := faulty }, state := .held }
    if q.degraded = .none then q else q.appendRow (selfTestFindingsRow q.driverDoor q.degraded)
  | _ => p

/-- R205: the comparison of 100 ms of the counter with the reference, in its microseconds (log 24). -/
def Part.timeBase (p : Part) (refMicros : Nat) : Part :=
  let bad := decide (refMicros < 97000 ∨ 103000 < refMicros)
  let q := { p with timeBaseBad := bad }
  if bad && p.timeBaseBad then q.enterSafeHold .timeBaseFault else q

/-! ### Resets -/

/-- R198: a power-on reset. The raw levels, the retained copies and the random source are outside it (log 13). -/
def Part.powerOn (p : Part) (strap : Strap) : Part :=
  Part.poweredOn (match strap with | .ground => .fl | .supply => .fr) (.build fun i => (p.input i).raw)
    p.store.copies p.locator.draws

/-- The port's, the board's and the scroll's part of a port reset (R183, R184, R188, R189, R196). -/
def Part.portResetMemory (p : Part) : Part :=
  { p with
    port := { p.port with
      memory := Memory.keep p.port.memory (4 * 272) (4 * 352)
      parity := Memory.keep p.port.parity 272 352
      misuse := false
      pointer := 256
      mask := 0
      vehicleWord := 0 }
    heads := Vector.replicate 16 .free
    scroll := ⟨0, 0, 0⟩ }

/-- WINDOW entries leave both lists (R109). -/
def Part.dropWindows (p : Part) : Part :=
  p.setLists (p.holders.filter fun h => decide (h.prec ≠ .window)) (p.waiting.filter fun w => decide (w.prec ≠ .window))

/-- R28, R48, R146: what the reset takes from the doors, the releases and the fob orders. -/
def Part.forgetOrders (p : Part) : Part :=
  { p with
    latches := .build fun d => (p.latch d).map fun op => { op with orders := [] }
    fobs := .build fun f => { p.fob f with waits := none }
    operation := none }

/-- START's short self-test begins: no configuration check, no dwell, wake or listen window (R200). -/
def Part.restart (p : Part) : Part :=
  { p with
    check := .notRun
    state := .start .short .drivers
    dwell := none
    waking := none
    listen := none }

/-- R200: what a port reset does to each block, in the order log 37 gives. -/
def Part.portResetBlocks (p : Part) : Part :=
  let q := (p.portResetMemory.eachCorner Part.windowPortReset).dropWindows
  (q.eachFob Part.resetTracker).discardSearches.forgetOrders.restart

/-- R200: a port reset, then granting from the head. -/
def Part.portReset (p : Part) : Part := settle Part.portResetBlocks p

/-- A PORT RESET write by the part state (R200); in DOZE it follows the wake its own burst causes. -/
def Part.portResetWrite (p : Part) : Part :=
  match p.state with
  | .start _ _ => p
  | .held | .service => p.portReset
  | .safeHold _ => if p.port.served then p.portReset else p
  | .doze =>
    let q := p.requestWake .link
    { q with waking := q.waking.map fun w => { w with resetHeld := true } }

/-! ### The end of a wake (R204, R180, R170; log 19) -/

/-- A held event is served as though taken in SERVICE; a held frame at the time it was heard (log 20). -/
def Part.serveHeld (p : Part) : HeldEvent → Part
  | .input i old new => p.serviceEvent i old new
  | .frame fr t => (settle (·.serveFrame fr t) p).activity

def HeldEvent.input? : HeldEvent → Option Input
  | .input i _ _ => some i
  | .frame _ _ => none

/-- The part returns to SERVICE: WOKE, the dwell, spent switches, the held crash event, the held events, the posted
orders, the held port reset. -/
def Part.wake (p : Part) : Part :=
  match p.state, p.waking with
  | .doze, some w =>
    let q := { p with state := .service, waking := none, listen := none }
    let q := q.appendRow (wokeRow q.driverDoor w.cause)
    let q := q.startDwell.spendHeld (w.held.filterMap HeldEvent.input?)
    let q := if w.crashHeld then settle Part.crashEvent q else q
    let q := w.held.foldl Part.serveHeld q
    let q := q.takePosted
    if w.resetHeld then q.portReset else q
  | _, _ => p

end Sys2Proof.Machine
end

