-- ==== Sys2Proof/Machine/Status.lean ====
section
/-! DEFINITION. What the host reads: the Status Page computed from the owners' state (11.6, log 6), ATTN (R195), PORT
STATUS (R187), the slot heads and every other word. -/

namespace Sys2Proof.Machine

/-! ### Records of the Status Page, in their tables' field order -/

def Part.doorWords (p : Part) (d : Door) : List Word :=
  let r := p.door d
  packWords 8 [codeField 5 d.ctorIdx, lockField r.lock, codeOrAbsent 2 ((p.doors.childLock d).map (·.ctorIdx)),
    codeField 2 r.ajar.ctorIdx, codeField 5 (match p.latch d with | none => 0 | some op => op.state.ctorIdx + 1),
    codeOrAbsent 4 (r.outcome.map (·.ctorIdx)), codeField 3 r.fault.ctorIdx, onOff r.pull]

def targetField (t : Option Nat) : Field := positionOrAbsent t

/-- A pending command's fields: direction, mode, mover, target, request time; all absent when there is none. -/
def pendingFields : Option Pending → List Field
  | none => [codeOrAbsent 2 none, modeField none] ++ moverFields none ++ [targetField none, timeOrAbsent none]
  | some x => [codeOrAbsent 2 (some x.cmd.dir.ctorIdx), modeField (some x.cmd.mode)] ++ moverFields (some x.cmd.mover) ++
      [targetField x.cmd.target, timeOrAbsent (some x.since)]

/-- The window record (R49), then the fields R76 adds: learn phase, number of pinch entries, force armed. -/
def Part.windowWords (p : Part) (c : Corner) : List Word :=
  let w := p.window c
  let m := p.monitor c
  packWords 8 ([positionField w.position, numField 12 w.travel, codeField 2 (!w.learned).toNat, codeField 4 w.motion.ctorIdx,
    modeField w.mode, targetField w.target] ++ moverFields w.mover ++ pendingFields w.pending ++
    [numField 11 w.heat, onOff w.thermal, onOff w.pinchLockout, onOff (p.outOfService c),
      codeOrAbsent 12 (w.lastStop.map (·.ctorIdx)), codeOrAbsent 3 (m.learn.map (·.phase.ctorIdx)),
      numField 2 m.history.length, flagField m.forceArmed.isSome])

def trackerFields : Tracker → List Field
  | .idle => [codeField 4 0, codeOrAbsent 2 none, timeOrAbsent none]
  | .tracking b t => [codeField 4 1, codeOrAbsent 2 (some b.ctorIdx), timeOrAbsent (some t)]
  | .session b t => [codeField 4 2, codeOrAbsent 2 (some b.ctorIdx), timeOrAbsent (some t)]
  | .spent b t => [codeField 4 3, codeOrAbsent 2 (some b.ctorIdx), timeOrAbsent (some t)]

/-- The public fob record (R131); an EMPTY record shows a fob id of 0. -/
def Part.fobWords (p : Part) (f : Fob) : List Word :=
  let r := p.fob f
  packWords 8 ([codeField 3 r.keep.state.ctorIdx, ⟨32, r.keep.id.toNat⟩, ⟨28, r.keep.counter.toNat⟩, numField 4 r.keep.run,
    onOff r.keep.blocked, onOff r.keep.permitted, codeField 5 r.zone.ctorIdx, timeOrAbsent r.lastSeen,
    numOrAbsent 29 (r.candidate.map (·.counter.toNat)), timeOrAbsent (r.candidate.map (·.time))] ++ trackerFields r.tracker)

/-- The door-opened mark: present for LOCK only (R110). -/
def openedField (r : Request) : Field := codeOrAbsent 2 (if r.purpose = .lock then some (!r.opened).toNat else none)

/-- A listed request (R110). -/
def requestFields (r : Request) : List Field :=
  [codeField 4 r.purpose.ctorIdx, codeOrAbsent 5 (r.door.map (·.ctorIdx))] ++
    [antennaSetOrAbsent r.antennas, slotSet r.orders, openedField r, timeField r.since]

def Part.searchListWords (p : Part) : List Word :=
  ((p.locator.list.flatMap fun r => packWords 4 (requestFields r)) ++ List.replicate 24 0).take 24

/-- The phase of a search: kind, antenna (absent in REPLY), reply slot (absent in TRANSMIT) (R114; log 71). -/
def phaseFields : SearchPhase → List Field
  | .transmit a => [codeField 2 0, codeOrAbsent 7 (some a.ctorIdx), codeOrAbsent 4 none]
  | .reply f => [codeField 2 1, codeOrAbsent 7 none, codeOrAbsent 4 (some f.ctorIdx)]

/-- The search in flight as shown (R114); zeros while there is none (log 85). -/
def Part.flightWords (p : Part) : List Word :=
  match p.locator.flight with
  | none => List.replicate 8 0
  | some f => packWords 8 ([codeField 4 f.request.purpose.ctorIdx, codeOrAbsent 5 (f.request.door.map (·.ctorIdx))] ++
      [antennaSet f.used] ++ phaseFields f.phase ++ [timeField f.since, slotSet f.request.orders, openedField f.request] ++
      Fob.all.flatMap fun i => [codeField 3 (f.results.get i).reply.ctorIdx, zoneField (f.results.get i).zone])

def originFields : Origin → List Field
  | .order s => [codeField 2 0, numField 4 s.val]
  | .hold f => [codeField 2 1, numField 4 f.ctorIdx]

/-- A lock result: TAKEN or NONE, then the action taken, absent for NONE (R149). -/
def lockResultFields (l : Option LockAction) : List Field :=
  [codeField 2 l.isNone.toNat, codeOrAbsent 3 (l.map (·.ctorIdx))]

/-- The combined operation record (R149): its state first (log 74); IDLE shows zeros (log 75). -/
def Part.operationWords (p : Part) : List Word :=
  match p.operation with
  | none => List.replicate 16 0
  | some o => packWords 16 ([codeField 3 (if o.running then 1 else 2), codeField 3 o.kind.ctorIdx] ++ originFields o.origin ++
      [timeField o.since] ++ lockResultFields o.lock ++
      (Corner.all.flatMap fun c =>
        [codeField 4 (o.entries.get c).state.ctorIdx, targetField (o.entries.get c).target, reasonField (o.entries.get c).reason]) ++
      [codeOrAbsent 4 (o.ended.map (·.outcome.ctorIdx)), timeOrAbsent (o.ended.map (·.time))])

/-- Input levels, stuck flags, wake enables in force (R173, R178, 10.5). -/
def Part.inputWords (p : Part) : List Word :=
  let ins := inputList p.driverDoor
  packWords 16 ((ins.map fun i => codeField i.levels (p.input i).level.ctorIdx) ++ (ins.map fun i => flagField (p.muted i)) ++
    [p.cfg.wakeTouch, p.cfg.wakePulls, p.cfg.wakeSwitches, p.cfg.wakeRocker, p.cfg.wakeTailgate].map flagField)

/-- An actuator: windows FL to RR, then latches FL to TG. -/
def actuatorCode : Actuator → Nat
  | .window c => c.ctorIdx
  | .latch d => 4 + d.ctorIdx

def holderWords (h : Holder) : List Word :=
  packWords 2 [codeField 9 (actuatorCode h.actuator), numField 2 h.units, codeField 3 h.prec.ctorIdx, timeField h.since,
    codeField 4 h.kind.ctorIdx]

def waiterWords (w : Waiter) : List Word :=
  packWords 2 [codeField 9 (actuatorCode w.actuator), numField 2 w.units, codeField 2 (if w.prec = .release then 0 else 1),
    timeField w.since, timeField w.limit]

def padTo (n : Nat) (l : List Word) : List Word := (l ++ List.replicate n 0).take n

/-! ### The part block -/

def Part.writeRowIndex (p : Part) : Nat := (p.scroll.start + p.scroll.unread) % 128
def Part.fullFlag (p : Part) : Bool := decide (p.scroll.unread = 128)

/-- The budget summary (R97): at most 13 units are held, four windows and five latches, and at most five, the escapes,
over the budget. -/
def Part.budgetWord (p : Part) : Word :=
  packWord [codeField 3 p.supply.cls.ctorIdx, numField 4 p.budget, numField 4 (unitsHeld p.holders), numField 4 p.unitsFree,
    numField 3 p.unitsOver]

/-- The part block (11.6). The count of an absent candidate reads 0 (log 77), and so do the event count and time set of a
clear latch (log 88); the dropped-class mark is coded by class code (log 92). -/
def Part.partBlock (p : Part) : List Word :=
  [packWord [codeField 5 p.state.code, numField 3 p.stageCode, numField 3 p.holdCode],
   packWord (degradedPlain p.degraded),
   packWord [timeField p.clock],
   packWord [codeField 3 p.supply.cls.ctorIdx, numField 15 p.supply.millivolts],
   packWord [codeOrAbsent 3 (p.supply.candidate.map (·.cls.ctorIdx)), numField 2 ((p.supply.candidate.map (·.count)).getD 0)],
   packWord [onOff p.crashSet, numField 8 ((p.crash.latch.map (·.count)).getD 0)],
   packWord [timeField ((p.crash.latch.map (·.since)).getD 0)],
   p.budgetWord,
   packWord (match p.check with
     | .notRun => [codeField 3 0, numOrAbsent 4 none]
     | .passed => [codeField 3 1, numOrAbsent 4 none]
     | .failed n => [codeField 3 2, numField 4 n]),
   packWord [numField 7 p.scroll.start, numField 7 p.writeRowIndex, numField 8 p.scroll.unread, flagField p.fullFlag],
   packWord [⟨16, p.scroll.mark.toNat⟩],
   packWord [numField 4 p.store.dirty.length, codeOrAbsent 9 (p.store.commit.map fun k => recordCode k.content.record),
     numField 4 p.store.bad],
   packWord [codeField 3 p.doors.vehicle.ctorIdx],
   0, 0, 0]

/-- The whole Status Page (11.6). -/
def Part.statusPage (p : Part) : List Word :=
  p.partBlock ++ Door.all.flatMap p.doorWords ++ Corner.all.flatMap p.windowWords ++ Fob.all.flatMap p.fobWords ++
    p.searchListWords ++ p.flightWords ++ List.replicate 32 0 ++ p.operationWords ++ p.inputWords ++
    padTo 18 (p.holders.flatMap holderWords) ++ padTo 18 (p.waiting.flatMap waiterWords) ++ List.replicate 4 0

/-! ### Other words -/

def Head.word (h : Head) : Word :=
  BitVec.ofNat 32 ((h.state.ctorIdx <<< 29) ||| (h.kind.toNat <<< 24) ||| (h.tag.toNat <<< 16) ||| (h.code.toNat <<< 8))

/-- Word `i` as the host reads it while the memory is served (R184, R188, 11.6). -/
def Part.hostRead (p : Part) (i : Nat) : Word :=
  if i < 256 then p.statusPage.getD i 0
  else if i = 256 then BitVec.ofNat 32 p.scroll.start
  else if i = 257 then p.port.mask
  else if i = 258 then p.port.vehicleWord
  else if i < 272 then 0
  else if 352 ≤ i ∧ i < 480 ∧ (i - 352) % 8 = 0 then (p.heads.toList.getD ((i - 352) / 8) .free).word
  else if i < 992 then Memory.readWord p.port.memory i
  else 0

/-- The row `k` places into the unread span: its class code, and for a GAP row its mark. -/
def Part.unreadRow (p : Part) (k : Nat) : Word × Word :=
  let i := 480 + 4 * ((p.scroll.start + k) % 128)
  (Memory.readWord p.port.memory i, Memory.readWord p.port.memory (i + 2))

/-- The classes ATTENTION MASK enables: its bits 1 to 9 (R188). -/
def Part.enabledClasses (p : Part) : Word := p.port.mask &&& 0x3FE#32

/-- A row of the unread span asks for attention (R195). -/
def Part.rowAttends (p : Part) (k : Nat) : Bool :=
  let row := p.unreadRow k
  let cls := bitsAt row.1 28 4
  if cls = 15 then decide (row.2 &&& p.enabledClasses ≠ 0) else bitAt p.enabledClasses cls

/-- R195: ATTN is driven. -/
def Part.attn (p : Part) : Bool :=
  decide (p.state = .held) || p.inSafeHold || (List.range p.scroll.unread).any p.rowAttends

/-- R187, 11.6: PORT STATUS. -/
def Part.portStatus (p : Part) : Word :=
  BitVec.ofNat 32 (p.state.code ||| (p.stageCode <<< 3) ||| (p.holdCode <<< 6) ||| (p.attn.toNat <<< 9) |||
    (p.port.misuse.toNat <<< 10))

end Sys2Proof.Machine
end

