-- ==== Sys2Proof/Machine/Link.lean ====
section
/-! DEFINITION. The link (spec/11): bursts, the areas and their access rights, the Control Words, head writes, register
reads and writes. -/

namespace Sys2Proof.Machine

/-! ### The header (R182, 11.6) -/

/-- The command kind of a header: bits 15 to 13. -/
def headerKind (h : BitVec 16) : BitVec 3 := h.extractLsb' 13 3

/-- The start index of a header: bits 9 to 0. -/
def headerStart (h : BitVec 16) : BitVec 10 := h.extractLsb' 0 10

/-- The register select of a header: bit 0. -/
def headerRegister (h : BitVec 16) : Register := if h.getLsbD 0 then .control else .status

/-- The command that a burst's header picks: `clocked` is the number of words a read clocks, `words` those a write
carries, of which a REGISTER WRITE takes the first; one that ends before a whole word writes 0, which asks for nothing
(log 67). Bits 12 to 10 are ignored (log 90). -/
def burstCommand (header : BitVec 16) (clocked : Nat) (words : List HostWord) : Instr :=
  match (headerKind header).toNat with
  | 1 => .memoryRead (headerStart header) clocked
  | 2 => .memoryWrite (headerStart header) words
  | 3 => .writeOn words
  | 4 => .registerRead (headerRegister header)
  | 5 => .registerWrite (headerRegister header) ((words.map (·.value)).headD 0)
  | _ => .unknownCommand (headerKind header)

/-! ### Areas (11.6) -/

/-- The index after the last word of the area that holds word `i`. -/
def areaEnd (i : Nat) : Nat :=
  if i < 256 then 256 else if i < 272 then 272 else if i < 352 then 352 else if i < 480 then 480 else if i < 992 then 992 else 1024

/-- Word `k` of a read that starts at `start`: zero beyond the area, but the Report Scroll wraps (R182). -/
def Part.burstWord (p : Part) (start k : Nat) : Word :=
  if 480 ≤ start ∧ start < 992 then p.hostRead (480 + (start - 480 + k) % 512)
  else if start + k < areaEnd start then p.hostRead (start + k)
  else 0

/-- The words a MEMORY READ sends (R182, R185). -/
def Part.readBurst (p : Part) (start count : Nat) : List Word :=
  (List.range count).map fun k => if p.port.served then p.burstWord start k else 0

/-- The words the port sends on the link (log 46). -/
def Part.send (p : Part) (ws : List Word) : Part := { p with port := { p.port with sent := ws } }

/-- What every burst does to the part state: it wakes the part from DOZE, and is activity in SERVICE (R187, R203). -/
def Part.burstTaken (p : Part) (c : WakeCause) : Part :=
  if p.state = .doze then p.requestWake c else p.activity

/-! ### Control Words (R188, R194) -/

/-- How many rows a SCROLL START value gives back, or none where it is not accepted (R194). -/
def Scroll.givenBack (s : Scroll) (v : Nat) : Option Nat :=
  if 127 < v then none
  else if v = (s.start + s.unread) % 128 then some s.unread
  else
    let k := (v + 128 - s.start) % 128
    if k < s.unread then some k else none

/-- R194: a write to SCROLL START. -/
def Part.scrollWrite (p : Part) (v : Nat) : Part :=
  match p.scroll.givenBack v with
  | none => p.setMisuse
  | some k => ({ p with scroll := { p.scroll with start := v, unread := p.scroll.unread - k } } : Part).writeGap

/-- R21, R188: a write to VEHICLE STATE (log 33). -/
def Part.vehicleWordWrite (p : Part) (v : Word) : Part :=
  match pickVehicle v with
  | none => p.setMisuse
  | some x =>
    if p.doorService then { p with port := { p.port with vehicleWord := v } }.vehicleWrite x else p

/-! ### Writes (R184) -/

/-- A word stored with its parity (R186). -/
def Part.storeHost (p : Part) (i : Nat) (w : HostWord) : Part :=
  let q := p.storeWords i [w.value]
  { q with port := { q.port with parity := Memory.writeByte q.port.parity i (if w.sound then 0 else 1) } }

/-- The slot and word of an Order Board index. -/
def boardSlot (i : Nat) : Slot := Fin.ofNat 16 ((i - 352) / 8)

/-- One word of a write burst, judged by its area; a head waits for the burst's end (R184, R189). -/
def Part.hostWrite (p : Part) (i : Nat) (w : HostWord) : Part :=
  if i < 256 then p.setMisuse
  else if i = 256 then p.scrollWrite w.value.toNat
  else if i = 257 then { p with port := { p.port with mask := w.value } }
  else if i = 258 then p.vehicleWordWrite w.value
  else if i = 259 then (if w.value = 1 then p.startWrite else p)
  else if i < 272 then p
  else if i < 352 then p.storeHost i w
  else if i < 480 then
    if (i - 352) % 8 = 0 then p
    else if (p.head (boardSlot i)).state = .free then p.storeHost i w
    else p.setMisuse
  else if i < 992 then p.setMisuse
  else if (i - 992) % 8 = 7 then p
  else p.storeHost i w

/-- The words of a burst with their indices, up to the end of the area it starts in (R182). -/
def burstWords (start : Nat) (ws : List HostWord) : List (Nat × HostWord) :=
  (ws.mapIdx fun k w => (start + k, w)).filter fun x => decide (x.1 < areaEnd start)

def SlotState.ofBits (w : Word) : Option SlotState :=
  pick [.free, .posted, .taken, .cancelAsked, .done, .refused] (BitVec.ofNat 32 (bitsAt w 29 3))

/-- A posting is taken at once but in START after the DRIVERS stage, in HELD and in DOZE: for every order by R190's table, for
LOCATE-FOB too, which R129 has wait throughout START (log 102). -/
def Part.takesAtOnce (p : Part) : Bool :=
  match p.state with
  | .start _ .drivers | .service | .safeHold _ => true
  | .start _ _ | .held | .doze => false

/-- A head write accepted as a posting: the head takes kind and tag (R189), its parity its mark (R186). -/
def Part.post (p : Part) (s : Slot) (w : HostWord) : Part :=
  let h : Head := ⟨.posted, BitVec.ofNat 5 (bitsAt w.value 24 5), BitVec.ofNat 8 (bitsAt w.value 16 8), 0⟩
  let q := p.setHead s h
  let q := { q with port := { q.port with parity := Memory.writeByte q.port.parity (slotWord s 0) (if w.sound then 0 else 1) } }
  if q.takesAtOnce then q.takeOrder s else q

/-- R189: a head write judged as a transition. -/
def Part.headWrite (p : Part) (s : Slot) (w : HostWord) : Part :=
  let h := p.head s
  match h.state, SlotState.ofBits w.value with
  | .free, some .posted => p.post s w
  | .taken, some .cancelAsked => (p.setHead s { h with state := .cancelAsked }).cancelOrder s
  | .done, some .free | .refused, some .free => p.setHead s .free
  | .posted, some .free => if p.state = .held then p.setHead s .free else p.setMisuse
  | _, _ => p.setMisuse

/-- A head of the burst, acted on at its end (R189). -/
def Part.burstHead (p : Part) (x : Nat × HostWord) : Part :=
  if 352 ≤ x.1 ∧ x.1 < 480 ∧ (x.1 - 352) % 8 = 0 then settle (·.headWrite (boardSlot x.1) x.2) p else p

/-- The words of a burst taken each in turn, then its heads (R189); the memory not served, nothing is stored. -/
def Part.takeWords (p : Part) (words : List (Nat × HostWord)) : Part :=
  if p.port.served then words.foldl Part.burstHead (words.foldl (fun q x => settle (·.hostWrite x.1 x.2) q) p) else p

/-- A MEMORY WRITE or WRITE ON burst, with the pointer after it (R182, R183): at its start where it carries no word
(log 91). -/
def Part.writeBurst (p : Part) (start : BitVec 10) (ws : List HostWord) : Part :=
  let q := p.takeWords (burstWords start.toNat ws)
  { q with port := { q.port with pointer := BitVec.ofNat 10 (start.toNat + ws.length) } }

/-- The whole burst with its wake or activity, which is taken before its words and heads act: an adoption they cause
leaves the dwell the burst restarted (R202, R203; log 64). -/
def Part.memoryWrite (p : Part) (start : BitVec 10) (ws : List HostWord) : Part := (p.burstTaken .link).writeBurst start ws

/-- An order command: the burst that posts it (log 8). -/
def Part.postOrder (p : Part) (h : OrderHead) (k : OrderKind) (params : List HostWord) : Part :=
  p.memoryWrite (slotStart h.slot) (postingBurst h k params)

/-! ### Registers (R187) -/

/-- A read of PORT STATUS returns MISUSE and clears it (R184); PORT CONTROL reads 0. -/
def Part.registerRead (p : Part) : Register → Part
  | .status =>
    let q := p.send [p.portStatus]
    { q with port := { q.port with misuse := false } }
  | .control => p.send [0]

/-- A write of PORT CONTROL: the wake, then the port reset (R187, R200); a write to PORT STATUS is misuse (R182). -/
def Part.registerWrite (p : Part) (sel : Register) (v : Word) : Part :=
  match sel with
  | .status => p.setMisuse.burstTaken .link
  | .control =>
    let q := p.burstTaken (if bitAt v 1 then .wakeWrite else .link)
    if bitAt v 0 then q.portResetWrite else q

end Sys2Proof.Machine
end

