-- ==== Sys2Proof/Machine/Tick.lean ====
section
/-! DEFINITION. What the part does of itself on an empty queue (log 1): the timer event that is due, or one
millisecond. Each test here is the guard of the event's own meaning. -/

namespace Sys2Proof.Machine

/-- The command that says an input's debounced level becomes `l`; none for the CRASH line and for a level the input does
not have. -/
def inputCommand (i : Input) (l : Level) : Option Instr :=
  let away := decide (l ≠ .rest)
  if l.fits i = false then none else
  match i with
  | .ajar d => some (.ajarChange d (if away then .isOpen else .isClosed))
  | .outer c => some (.outerPull c away)
  | .tailgate => some (.tailgateButton away)
  | .inner c => some (.innerHandlePull c away)
  | .touch c => some (.outerTouch c away)
  | .lockTouch f => some (.lockTouch f away)
  | .switch sw => some (.windowSwitchChange sw (levelStage l))
  | .rocker => some (.lockRocker (if l = .rest then .centre else if l = .l1 then .lock else .unlock))
  | .childButton => some (.childLockButton away)
  | .lockoutButton => some (.lockoutButton away)
  | .ign => some (.ignChange away)
  | .crash => none

def whenDue (b : Bool) (c : Instr) : Option Instr := if b then some c else none

def Part.dueInput (p : Part) (i : Input) : Option Instr :=
  (if p.settledLevel i (p.input i).raw then inputCommand i (p.input i).raw else none).or
    (whenDue (due (p.input i).stuckAt p.clock && !p.muted i) (.inputStuck i))

def Part.dueLatch (p : Part) (d : Door) : Option Instr :=
  match p.latch d with
  | none => none
  | some op =>
    match op.state with
    | .pulsing => whenDue (due op.timer p.clock) (.latchPulseExpiry d)
    | .confirming => whenDue (due op.timer p.clock) (.confirmExpiry d)
    | .waiting | .retry => none

def Part.dueWindow (p : Part) (c : Corner) : Option Instr :=
  let w := p.window c
  let m := p.monitor c
  [whenDue (due (w.coast.map (·.ends)) p.clock) (.coastEnd c),
   whenDue (due (w.ramp.map (·.finish)) p.clock) (.softStartEnd c),
   whenDue (due m.stallAt p.clock && w.driven) (.stallExpiry c),
   whenDue (due (m.watch.map (·.expiry)) p.clock) (.rereferenceWatchExpiry c),
   whenDue (due m.forceArmed p.clock) (.forceArmedExpiry c),
   whenDue (decide (50 ≤ w.energised)) (.heatRise c),
   whenDue (decide (500 ≤ w.idle)) (.heatFall c)].findSome? id

def Part.dueSearch (p : Part) : Option Instr :=
  match p.locator.flight with
  | none => none
  | some f =>
    whenDue (decide (f.phaseEnd ≤ p.clock)) (match f.phase with
      | .transmit _ => .antennaTransmissionEnd
      | .reply .f3 => .searchCompletion
      | .reply _ => .replySlotEnd)

/-- The timer event that is due, the first in this order (log 1). -/
def Part.nextDue (p : Part) : Option Instr :=
  [whenDue (decide (p.state = .doze) && p.waking.any fun w => decide (w.since + 5 ≤ p.clock)) .woke,
   whenDue (p.doorService && p.crash.assertion.any (·.due p.clock)) .crashEvent,
   Input.all.findSome? p.dueInput,
   whenDue (due p.doors.relock p.clock && p.doorService && !p.inSafeHold) .relockExpiry,
   (p.waiting.find? fun w => decide (w.limit ≤ p.clock)).map fun w => .waitLimitExpiry w.actuator,
   Door.all.findSome? p.dueLatch,
   Corner.all.findSome? p.dueWindow,
   p.dueSearch,
   (Fob.all.find? fun f => (p.fob f).holdDue p.clock).map .holdTrackerExpiry,
   whenDue (due (p.store.commit.map (·.due)) p.clock) .commitEnd,
   whenDue (p.inService && due p.dwell p.clock) .dozeDwellExpiry,
   whenDue (due (p.listen.map (·.next)) p.clock) .listenWindow].findSome? id

/-- A window's accumulators over one millisecond (R67). -/
def WindowRec.passMs (w : WindowRec) : WindowRec :=
  if w.driven then { w with energised := w.energised + 1 } else { w with idle := w.idle + 1 }

/-- One millisecond passes. -/
def Part.passMs (p : Part) : Part :=
  { p with clock := p.clock + 1, windows := .build fun c => (p.window c).passMs }

end Sys2Proof.Machine
end

