-- ==== Sys2Proof/Machine/LinkFamily.lean ====
section
/-! DEFINITION. The commands of the supply, the reset line and the link: resets, wake, register and memory bursts (spec/11, spec/12). -/

namespace Sys2Proof.Machine

/-- A command's effect on the part; the queue stands. -/
def State.run (s : State) (f : Part → Part) : Host.Outcome State Fault Refusal := .next { s with part := f s.part }

/-- R198: POWER_ON_RESET. -/
def execPowerOnReset (strap : Strap) (s : State) : Host.Outcome State Fault Refusal := s.run (·.powerOn strap)

/-- R200: PORT_RESET, a write of 1 to PORT RESET. -/
def execPortReset (s : State) : Host.Outcome State Fault Refusal := s.run (·.registerWrite .control 1)

/-- R187: WAKE, a write of 1 to the WAKE bit. -/
def execWake (s : State) : Host.Outcome State Fault Refusal := s.run (·.registerWrite .control 2)

/-- R182, R187: REGISTER_WRITE. -/
def execRegisterWrite (sel : Register) (v : Word) (s : State) : Host.Outcome State Fault Refusal := s.run (·.registerWrite sel v)

/-- R187, R184: REGISTER_READ. -/
def execRegisterRead (sel : Register) (s : State) : Host.Outcome State Fault Refusal := s.run fun p => (p.registerRead sel).burstTaken .link

/-- R182, R185: MEMORY_READ. -/
def execMemoryRead (start : BitVec 10) (count : Nat) (s : State) : Host.Outcome State Fault Refusal := s.run fun p => (p.send (p.readBurst start.toNat count)).burstTaken .link

/-- R182 to R189: MEMORY_WRITE. -/
def execMemoryWrite (start : BitVec 10) (words : List HostWord) (s : State) : Host.Outcome State Fault Refusal := s.run (·.memoryWrite start words)

/-- R183: WRITE_ON, from the burst write-continue pointer. -/
def execWriteOn (words : List HostWord) (s : State) : Host.Outcome State Fault Refusal := s.run fun p => p.memoryWrite p.port.pointer words

/-- R182, R184: UNKNOWN_COMMAND is served as no command and sets MISUSE. -/
def execUnknownCommand (_kind : BitVec 3) (s : State) : Host.Outcome State Fault Refusal := s.run fun p => p.setMisuse.burstTaken .link

/-- R186, R205: PART_WORD_PARITY_ERROR, hold code 4. -/
def execPartWordParityError (s : State) : Host.Outcome State Fault Refusal := s.run (·.enterSafeHold .parityFault)

end Sys2Proof.Machine
end

