-- ==== Sys2Proof/Machine/InputFamily.lean ====
section
/-! DEFINITION. The input events (spec/10) and those of the supply and the CRASH line (spec/09). -/

namespace Sys2Proof.Machine

/-- R173: RAW_INPUT_CHANGE. -/
def execRawInputChange (i : Input) (l : Level) (s : State) : Host.Outcome State Fault Refusal := s.run (·.rawChange i l)

/-- R2, R173: AJAR_CHANGE. -/
def execAjarChange (d : Door) (a : Ajar) (s : State) : Host.Outcome State Fault Refusal := s.run (·.debounced (.ajar d) (twoLevel (decide (a = .isOpen))))

/-- R177, R173: OUTER_PULL. -/
def execOuterPull (c : Corner) (pulled : Bool) (s : State) : Host.Outcome State Fault Refusal := s.run (·.debounced (.outer c) (twoLevel pulled))

/-- R33, R173: TAILGATE_BUTTON. -/
def execTailgateButton (pressed : Bool) (s : State) : Host.Outcome State Fault Refusal := s.run (·.debounced .tailgate (twoLevel pressed))

/-- R35, R173: INNER_HANDLE_PULL. -/
def execInnerHandlePull (c : Corner) (pulled : Bool) (s : State) : Host.Outcome State Fault Refusal := s.run (·.debounced (.inner c) (twoLevel pulled))

/-- R176, R173: OUTER_TOUCH. -/
def execOuterTouch (c : Corner) (touched : Bool) (s : State) : Host.Outcome State Fault Refusal := s.run (·.debounced (.touch c) (twoLevel touched))

/-- R176, R173: LOCK_TOUCH. -/
def execLockTouch (f : Front) (touched : Bool) (s : State) : Host.Outcome State Fault Refusal := s.run (·.debounced (.lockTouch f) (twoLevel touched))

/-- R52, R173: WINDOW_SWITCH_CHANGE. -/
def execWindowSwitchChange (sw : Switch) (stage : Stage) (s : State) : Host.Outcome State Fault Refusal := s.run (·.debounced (.switch sw) (stageLevel stage))

/-- R8, R173: LOCK_ROCKER. -/
def execLockRocker (r : Rocker) (s : State) : Host.Outcome State Fault Refusal := s.run (·.debounced .rocker (rockerLevel r))

/-- R24, R173: CHILD_LOCK_BUTTON. -/
def execChildLockButton (pressed : Bool) (s : State) : Host.Outcome State Fault Refusal := s.run (·.debounced .childButton (twoLevel pressed))

/-- R56, R173: LOCKOUT_BUTTON. -/
def execLockoutButton (pressed : Bool) (s : State) : Host.Outcome State Fault Refusal := s.run (·.debounced .lockoutButton (twoLevel pressed))

/-- R23, R173: IGN_CHANGE. -/
def execIgnChange (on : Bool) (s : State) : Host.Outcome State Fault Refusal := s.run (·.debounced .ign (twoLevel on))

/-- R178: INPUT_STUCK. -/
def execInputStuck (i : Input) (s : State) : Host.Outcome State Fault Refusal := s.run (·.stuckExpiry i)

/-- R166, R170: CRASH_LINE_CHANGE. -/
def execCrashLineChange (asserted : Bool) (s : State) : Host.Outcome State Fault Refusal := s.run (·.crashLine asserted)

/-- R166 to R169: CRASH_EVENT. -/
def execCrashEvent (s : State) : Host.Outcome State Fault Refusal := s.run (·.crashExpiry)

/-- R161 to R165: BATTERY_MEASUREMENT. -/
def execBatteryMeasurement (mv : Nat) (s : State) : Host.Outcome State Fault Refusal := s.run (settle (·.measure mv))

end Sys2Proof.Machine
end

