-- ==== Sys2Proof/Machine/KeyFamily.lean ====
section
/-! DEFINITION. The search's events, remote frames and the hold tracker (spec/06, spec/07). -/

namespace Sys2Proof.Machine

/-- R114: SEARCH_START. -/
def execSearchStart (s : State) : Host.Outcome State Fault Refusal := s.run (·.trySearch)

/-- R115: ANTENNA_TRANSMISSION_END. -/
def execAntennaTransmissionEnd (s : State) : Host.Outcome State Fault Refusal := s.run (·.transmissionEnd)

/-- R115: REPLY_SLOT_END. -/
def execReplySlotEnd (s : State) : Host.Outcome State Fault Refusal := s.run (·.slotEnd)

/-- R116 to R118: SEARCH_REPLY. -/
def execSearchReply (r : Reply) (s : State) : Host.Outcome State Fault Refusal := s.run (·.takeReply r)

/-- R119 to R125: SEARCH_COMPLETION. -/
def execSearchCompletion (s : State) : Host.Outcome State Fault Refusal := s.run (settle (·.completeSearch))

/-- R133 to R141, R147: REMOTE_FRAME. -/
def execRemoteFrame (fr : Frame) (s : State) : Host.Outcome State Fault Refusal := s.run (·.frameHeard fr)

/-- R141: HOLD_TRACKER_EXPIRY. -/
def execHoldTrackerExpiry (f : Fob) (s : State) : Host.Outcome State Fault Refusal := s.run (settle (·.holdExpiry f))

end Sys2Proof.Machine
end

