-- ==== Sys2Proof/Machine/OrderFamily.lean ====
section
/-! DEFINITION. The fifteen orders: each command is the burst that posts the order (R189, log 8), which the Order Board takes or keeps (R190). -/

namespace Sys2Proof.Machine

/-- R9, R190: LOCK_DOORS. -/
def execLockDoors (h : OrderHead) (action mask : HostWord) (s : State) : Host.Outcome State Fault Refusal := s.run (·.postOrder h .lockDoors [action, mask])

/-- R25, R190: SET_CHILD_LOCK. -/
def execSetChildLock (h : OrderHead) (doors action : HostWord) (s : State) : Host.Outcome State Fault Refusal := s.run (·.postOrder h .setChildLock [doors, action])

/-- R44, R190: RELEASE_LATCH. -/
def execReleaseLatch (h : OrderHead) (door : HostWord) (s : State) : Host.Outcome State Fault Refusal := s.run (·.postOrder h .releaseLatch [door])

/-- R69 to R71, R190: MOVE_WINDOW. -/
def execMoveWindow (h : OrderHead) (window target position : HostWord) (s : State) : Host.Outcome State Fault Refusal := s.run (·.postOrder h .moveWindow [window, target, position])

/-- R57, R190: SET_WINDOW_LOCKOUT. -/
def execSetWindowLockout (h : OrderHead) (wanted : HostWord) (s : State) : Host.Outcome State Fault Refusal := s.run (·.postOrder h .setWindowLockout [wanted])

/-- R91, R190: LEARN_WINDOW. -/
def execLearnWindow (h : OrderHead) (window : HostWord) (s : State) : Host.Outcome State Fault Refusal := s.run (·.postOrder h .learnWindow [window])

/-- R125, R190: LOCATE_FOB. -/
def execLocateFob (h : OrderHead) (antennas : HostWord) (s : State) : Host.Outcome State Fault Refusal := s.run (·.postOrder h .locateFob [antennas])

/-- R143, R190: ENROL_FOB. -/
def execEnrolFob (h : OrderHead) (index : HostWord) (s : State) : Host.Outcome State Fault Refusal := s.run (·.postOrder h .enrolFob [index])

/-- R144, R190: DISMISS_FOB. -/
def execDismissFob (h : OrderHead) (index : HostWord) (s : State) : Host.Outcome State Fault Refusal := s.run (·.postOrder h .dismissFob [index])

/-- R145, R190: SUSPEND_FOB. -/
def execSuspendFob (h : OrderHead) (index resume : HostWord) (s : State) : Host.Outcome State Fault Refusal := s.run (·.postOrder h .suspendFob [index, resume])

/-- R150, R190: COMFORT_CLOSE. -/
def execComfortClose (h : OrderHead) (s : State) : Host.Outcome State Fault Refusal := s.run (·.postOrder h .comfortClose [])

/-- R150, R190: COMFORT_OPEN. -/
def execComfortOpen (h : OrderHead) (s : State) : Host.Outcome State Fault Refusal := s.run (·.postOrder h .comfortOpen [])

/-- R150, R190: VENT. -/
def execVent (h : OrderHead) (s : State) : Host.Outcome State Fault Refusal := s.run (·.postOrder h .vent [])

/-- R171, R190: RELEASE_CRASH. -/
def execReleaseCrash (h : OrderHead) (s : State) : Host.Outcome State Fault Refusal := s.run (·.postOrder h .releaseCrash [])

/-- R202, R190: RECONFIGURE. -/
def execReconfigure (h : OrderHead) (s : State) : Host.Outcome State Fault Refusal := s.run (·.postOrder h .reconfigure [])

end Sys2Proof.Machine
end

