-- ==== Sys2Proof/Machine/PartFamily.lean ====
section
/-! DEFINITION. Part Control's events and the Retained Store's (spec/12): stage ends, the time base, doze, wake, commits. -/

namespace Sys2Proof.Machine

/-- R198, R199: DRIVERS_STAGE_END. -/
def execDriversStageEnd (found : DriversFindings) (s : State) : Host.Outcome State Fault Refusal := s.run (·.driversEnd found)

/-- R198, R199: INPUTS_STAGE_END. -/
def execInputsStageEnd (found : InputsFindings) (s : State) : Host.Outcome State Fault Refusal := s.run (·.inputsEnd found)

/-- R198, R196: MEMORY_STAGE_END. -/
def execMemoryStageEnd (fault : Bool) (s : State) : Host.Outcome State Fault Refusal := s.run (·.memoryEnd fault)

/-- R208: STORE_STAGE_END. -/
def execStoreStageEnd (found : StoreFindings) (s : State) : Host.Outcome State Fault Refusal := s.run (·.storeEnd found)

/-- R198: ANTENNAS_STAGE_END. -/
def execAntennasStageEnd (faulty : PerAntenna Bool) (s : State) : Host.Outcome State Fault Refusal := s.run (·.antennasEnd faulty)

/-- R198: RECEIVER_STAGE_END. -/
def execReceiverStageEnd (faulty : Bool) (s : State) : Host.Outcome State Fault Refusal := s.run (·.receiverEnd faulty)

/-- R205: TIME_BASE_CHECK. -/
def execTimeBaseCheck (refMicros : Nat) (s : State) : Host.Outcome State Fault Refusal := s.run (·.timeBase refMicros)

/-- R203: DOZE_DWELL_EXPIRY. -/
def execDozeDwellExpiry (s : State) : Host.Outcome State Fault Refusal := s.run (·.dwellExpiry)

/-- R203, R147: LISTEN_WINDOW. -/
def execListenWindow (s : State) : Host.Outcome State Fault Refusal := s.run (·.listenWindow)

/-- R204: WOKE. -/
def execWoke (s : State) : Host.Outcome State Fault Refusal := s.run (·.wake)

/-- R207: COMMIT_START. -/
def execCommitStart (s : State) : Host.Outcome State Fault Refusal := s.run (·.tryCommit)

/-- R207: COMMIT_END. -/
def execCommitEnd (s : State) : Host.Outcome State Fault Refusal := s.run (·.commitEnd)

end Sys2Proof.Machine
end

