-- ==== Sys2Proof/Machine/TimerFamily.lean ====
section
/-! DEFINITION. The timers of the doors, the arbiter, the latches and the windows, and the hall pulses (spec/01 to spec/05). -/

namespace Sys2Proof.Machine

/-- R19, R20: RELOCK_EXPIRY. -/
def execRelockExpiry (s : State) : Host.Outcome State Fault Refusal := s.run (settle (·.relockExpiry))

/-- R100: GRANT_FROM_HEAD. -/
def execGrantFromHead (s : State) : Host.Outcome State Fault Refusal := s.run (·.grantFromHead)

/-- R101: WAIT_LIMIT_EXPIRY. -/
def execWaitLimitExpiry (a : Actuator) (s : State) : Host.Outcome State Fault Refusal := s.run (settle (·.waitExpiry a))

/-- R38: LATCH_PULSE_EXPIRY. -/
def execLatchPulseExpiry (d : Door) (s : State) : Host.Outcome State Fault Refusal := s.run (settle (·.pulseExpiry d))

/-- R39, R40: CONFIRM_EXPIRY. -/
def execConfirmExpiry (d : Door) (s : State) : Host.Outcome State Fault Refusal := s.run (settle (·.confirmExpiry d))

/-- R50, R51, R77 to R81: HALL_PULSE. -/
def execHallPulse (c : Corner) (high micros : Nat) (s : State) : Host.Outcome State Fault Refusal := s.run (settle (·.hallPulse c high micros))

/-- R50: COAST_END. -/
def execCoastEnd (c : Corner) (s : State) : Host.Outcome State Fault Refusal := s.run (·.coastEnd c)

/-- R66, R76: SOFT_START_END. -/
def execSoftStartEnd (c : Corner) (s : State) : Host.Outcome State Fault Refusal := s.run (·.softStartEnd c)

/-- R85 to R88, R92: STALL_EXPIRY. -/
def execStallExpiry (c : Corner) (s : State) : Host.Outcome State Fault Refusal := s.run (settle (·.stallExpiry c))

/-- R89: REREFERENCE_WATCH_EXPIRY. -/
def execRereferenceWatchExpiry (c : Corner) (s : State) : Host.Outcome State Fault Refusal := s.run (·.watchExpiry c)

/-- R83: FORCE_ARMED_EXPIRY. -/
def execForceArmedExpiry (c : Corner) (s : State) : Host.Outcome State Fault Refusal := s.run (·.forceExpiry c)

/-- R67, R68: HEAT_RISE. -/
def execHeatRise (c : Corner) (s : State) : Host.Outcome State Fault Refusal := s.run (·.heatRise c)

/-- R67, R68: HEAT_FALL. -/
def execHeatFall (c : Corner) (s : State) : Host.Outcome State Fault Refusal := s.run (·.heatFall c)

end Sys2Proof.Machine
end

