-- ==== Sys2Proof/Machine/Dispatch.lean ====
section
/-! DEFINITION. One arm for each command: its meaning. -/

namespace Sys2Proof.Machine

def exec (i : Instr) (s : State) : Host.Outcome State Fault Refusal :=
  match i with
  | .powerOnReset a0 => Sys2Proof.Machine.execPowerOnReset a0 s
  | .portReset => Sys2Proof.Machine.execPortReset s
  | .wake => Sys2Proof.Machine.execWake s
  | .registerWrite a0 a1 => Sys2Proof.Machine.execRegisterWrite a0 a1 s
  | .registerRead a0 => Sys2Proof.Machine.execRegisterRead a0 s
  | .memoryRead a0 a1 => Sys2Proof.Machine.execMemoryRead a0 a1 s
  | .memoryWrite a0 a1 => Sys2Proof.Machine.execMemoryWrite a0 a1 s
  | .writeOn a0 => Sys2Proof.Machine.execWriteOn a0 s
  | .unknownCommand a0 => Sys2Proof.Machine.execUnknownCommand a0 s
  | .lockDoors a0 a1 a2 => Sys2Proof.Machine.execLockDoors a0 a1 a2 s
  | .setChildLock a0 a1 a2 => Sys2Proof.Machine.execSetChildLock a0 a1 a2 s
  | .releaseLatch a0 a1 => Sys2Proof.Machine.execReleaseLatch a0 a1 s
  | .moveWindow a0 a1 a2 a3 => Sys2Proof.Machine.execMoveWindow a0 a1 a2 a3 s
  | .setWindowLockout a0 a1 => Sys2Proof.Machine.execSetWindowLockout a0 a1 s
  | .learnWindow a0 a1 => Sys2Proof.Machine.execLearnWindow a0 a1 s
  | .locateFob a0 a1 => Sys2Proof.Machine.execLocateFob a0 a1 s
  | .enrolFob a0 a1 => Sys2Proof.Machine.execEnrolFob a0 a1 s
  | .dismissFob a0 a1 => Sys2Proof.Machine.execDismissFob a0 a1 s
  | .suspendFob a0 a1 a2 => Sys2Proof.Machine.execSuspendFob a0 a1 a2 s
  | .comfortClose a0 => Sys2Proof.Machine.execComfortClose a0 s
  | .comfortOpen a0 => Sys2Proof.Machine.execComfortOpen a0 s
  | .vent a0 => Sys2Proof.Machine.execVent a0 s
  | .releaseCrash a0 => Sys2Proof.Machine.execReleaseCrash a0 s
  | .reconfigure a0 => Sys2Proof.Machine.execReconfigure a0 s
  | .driversStageEnd a0 => Sys2Proof.Machine.execDriversStageEnd a0 s
  | .inputsStageEnd a0 => Sys2Proof.Machine.execInputsStageEnd a0 s
  | .memoryStageEnd a0 => Sys2Proof.Machine.execMemoryStageEnd a0 s
  | .storeStageEnd a0 => Sys2Proof.Machine.execStoreStageEnd a0 s
  | .antennasStageEnd a0 => Sys2Proof.Machine.execAntennasStageEnd a0 s
  | .receiverStageEnd a0 => Sys2Proof.Machine.execReceiverStageEnd a0 s
  | .timeBaseCheck a0 => Sys2Proof.Machine.execTimeBaseCheck a0 s
  | .dozeDwellExpiry => Sys2Proof.Machine.execDozeDwellExpiry s
  | .listenWindow => Sys2Proof.Machine.execListenWindow s
  | .woke => Sys2Proof.Machine.execWoke s
  | .commitStart => Sys2Proof.Machine.execCommitStart s
  | .commitEnd => Sys2Proof.Machine.execCommitEnd s
  | .rawInputChange a0 a1 => Sys2Proof.Machine.execRawInputChange a0 a1 s
  | .ajarChange a0 a1 => Sys2Proof.Machine.execAjarChange a0 a1 s
  | .outerPull a0 a1 => Sys2Proof.Machine.execOuterPull a0 a1 s
  | .tailgateButton a0 => Sys2Proof.Machine.execTailgateButton a0 s
  | .innerHandlePull a0 a1 => Sys2Proof.Machine.execInnerHandlePull a0 a1 s
  | .outerTouch a0 a1 => Sys2Proof.Machine.execOuterTouch a0 a1 s
  | .lockTouch a0 a1 => Sys2Proof.Machine.execLockTouch a0 a1 s
  | .windowSwitchChange a0 a1 => Sys2Proof.Machine.execWindowSwitchChange a0 a1 s
  | .lockRocker a0 => Sys2Proof.Machine.execLockRocker a0 s
  | .childLockButton a0 => Sys2Proof.Machine.execChildLockButton a0 s
  | .lockoutButton a0 => Sys2Proof.Machine.execLockoutButton a0 s
  | .ignChange a0 => Sys2Proof.Machine.execIgnChange a0 s
  | .inputStuck a0 => Sys2Proof.Machine.execInputStuck a0 s
  | .crashLineChange a0 => Sys2Proof.Machine.execCrashLineChange a0 s
  | .crashEvent => Sys2Proof.Machine.execCrashEvent s
  | .batteryMeasurement a0 => Sys2Proof.Machine.execBatteryMeasurement a0 s
  | .relockExpiry => Sys2Proof.Machine.execRelockExpiry s
  | .grantFromHead => Sys2Proof.Machine.execGrantFromHead s
  | .waitLimitExpiry a0 => Sys2Proof.Machine.execWaitLimitExpiry a0 s
  | .latchPulseExpiry a0 => Sys2Proof.Machine.execLatchPulseExpiry a0 s
  | .confirmExpiry a0 => Sys2Proof.Machine.execConfirmExpiry a0 s
  | .hallPulse a0 a1 a2 => Sys2Proof.Machine.execHallPulse a0 a1 a2 s
  | .coastEnd a0 => Sys2Proof.Machine.execCoastEnd a0 s
  | .softStartEnd a0 => Sys2Proof.Machine.execSoftStartEnd a0 s
  | .stallExpiry a0 => Sys2Proof.Machine.execStallExpiry a0 s
  | .rereferenceWatchExpiry a0 => Sys2Proof.Machine.execRereferenceWatchExpiry a0 s
  | .forceArmedExpiry a0 => Sys2Proof.Machine.execForceArmedExpiry a0 s
  | .heatRise a0 => Sys2Proof.Machine.execHeatRise a0 s
  | .heatFall a0 => Sys2Proof.Machine.execHeatFall a0 s
  | .searchStart => Sys2Proof.Machine.execSearchStart s
  | .antennaTransmissionEnd => Sys2Proof.Machine.execAntennaTransmissionEnd s
  | .replySlotEnd => Sys2Proof.Machine.execReplySlotEnd s
  | .searchReply a0 => Sys2Proof.Machine.execSearchReply a0 s
  | .searchCompletion => Sys2Proof.Machine.execSearchCompletion s
  | .remoteFrame a0 => Sys2Proof.Machine.execRemoteFrame a0 s
  | .holdTrackerExpiry a0 => Sys2Proof.Machine.execHoldTrackerExpiry a0 s
  | .partWordParityError => Sys2Proof.Machine.execPartWordParityError s

end Sys2Proof.Machine
end

