-- ==== Sys2Proof/Machine/Step.lean ====
section
/-! DEFINITION. One step: the command at the front of the queue, or on an empty queue the timer event that is due, or
one millisecond (log 1). -/

namespace Sys2Proof.Machine

/-- What the part does of itself (log 1). -/
def idle (s : State) : Host.Outcome State Fault Refusal :=
  match s.part.nextDue with
  | some c => exec c s
  | none => .next { s with part := s.part.passMs }

/-- The command at the front of the queue, taken with the queue's rest. -/
def step (s : State) : Host.Outcome State Fault Refusal :=
  match s.pending with
  | c :: rest => exec c { s with pending := rest }
  | [] => idle s

/-- The command a table word spells, put at the front of the queue: no row of the table gives bits, so `s` itself. -/
def State.withFetchWord (s : State) (nbits w : Nat) : State :=
  match decodeTableWord nbits w with
  | some c => { s with pending := c :: s.pending }
  | none => s

end Sys2Proof.Machine
end

