-- ==== Sys2Proof/Safety.lean ====
section
/-! DEFINITION. The laws of the part that every step is to keep: the stored bytes and the scroll, the doors against
their ajar contacts (R2), the crash latch (R169), the drive units and grants (R100, R62), the search list (R110), the dirty
set (R206), the candidates (R135), the entries of a running operation (R154); when each timer event is due (log 1); and the
predicates the statements share, among them the pinch judgement of a pulse (R78), the order of withdrawals (R107) and the
configuration checks (R201). -/

namespace Sys2Proof.Machine

/-! ### Laws of every state -/

/-- The stored bytes and parity marks are in canonical form, and the scroll is within its bounds (R193). -/
def Part.tidy (p : Part) : Prop :=
  Memory.wf p.port.memory = true ∧ Memory.wf p.port.parity = true ∧ p.scroll.start < 128 ∧ p.scroll.unread ≤ 128

/-- A door's lock state fits its ajar field (R2): OPEN is UNLOCKED or LOCK-PENDING, CLOSED is not LOCK-PENDING. -/
def DoorRec.fits (d : DoorRec) : Prop :=
  (d.ajar = .isOpen → d.lock = .unlocked ∨ d.lock = .lockPending) ∧ (d.ajar = .isClosed → d.lock ≠ .lockPending)

/-- A lock record as it is stored: LOCK-PENDING is stored as LOCKED (R26). -/
def LockKeep.storable (k : LockKeep) : Prop := ∀ d, k.locks.get d ≠ .lockPending

def Content.storable : Content → Prop
  | .lock k => k.storable
  | .fob _ _ | .window _ _ => True

/-- Every door fits (R2), and no stored or commencing lock record holds LOCK-PENDING (R26). -/
def Part.doorsFit (p : Part) : Prop :=
  (∀ d, (p.door d).fits) ∧ (∀ k, p.store.copies.lock.newer = some k → k.storable) ∧
    (∀ k, p.store.copies.lock.older = some k → k.storable) ∧ (∀ k, p.store.commit = some k → k.content.storable)

/-- What the crash latch holds while it is set (R169): no door LOCKED, DEADLOCKED or LOCK-PENDING, no child lock
ENGAGED, no window CLOSING. -/
def Part.crashHolds (p : Part) : Prop :=
  p.crashSet = true →
    (∀ d, (p.door d).lock = .unlocked) ∧ p.doors.childRL = .released ∧ p.doors.childRR = .released ∧
      ∀ c, (p.window c).motion ≠ .closing

/-- What keeps `crashHolds`: while the latch is set no pending command closes, the provisional period has settled
everything, and the part is not in the full self-test's DRIVERS stage. -/
def Part.crashSafe (p : Part) : Prop :=
  p.crashHolds ∧
    (p.crashSet = true →
      (∀ c x, (p.window c).pending = some x → x.cmd.dir = .opening) ∧
        (∀ t, p.doors.settling = some t → t = ⟨allDoors, true, true⟩) ∧ p.state ≠ .start .full .drivers)

/-- The units held outside escape releases. -/
def plainUnits (l : List Holder) : Nat := unitsHeld (l.filter fun h => decide (h.prec ≠ .escape))

/-- Outside escape releases the units held fit the budget in force (R100). -/
def Part.unitsFit (p : Part) : Prop := plainUnits p.holders ≤ p.budget

/-- A window holds a grant (R62, R98). -/
def Part.holdsGrant (p : Part) (c : Corner) : Prop := ∃ h ∈ p.holders, h.actuator = .window c

/-- Every window that is not STOPPED holds a grant (R62, R98), and every holder and every waiting request has the units of its
actuator, 2 for a window and 1 for a latch (R98, R99). -/
def Part.grantsFit (p : Part) : Prop :=
  (∀ c, (p.window c).motion ≠ .stopped → p.holdsGrant c) ∧
    (∀ h ∈ p.holders, h.units = match h.actuator with | .window _ => 2 | .latch _ => 1) ∧
    ∀ w ∈ p.waiting, w.units = match w.actuator with | .window _ => 2 | .latch _ => 1

/-- The search list: at most six requests, no two with the same purpose and door (R110). -/
def Part.searchesFit (p : Part) : Prop :=
  p.locator.list.length ≤ 6 ∧ p.locator.list.Pairwise fun a b => a.matches_ b = false

/-- The dirty set holds no record twice (R206). -/
def Part.dirtyFits (p : Part) : Prop := p.store.dirty.Nodup

/-- A candidate's counter stands above the stored one (R135, R136). -/
def Part.candidatesFit (p : Part) : Prop :=
  ∀ f k, (p.fob f).candidate = some k → (p.fob f).keep.counter.toNat < k.counter.toNat

/-- A window's pending command stands only while the window is STOPPED (R58, R61), and a WAITING or MOVING entry of a running
operation has its window's command (R149, R152 to R154): no learn on the window, and mover SEQUENCER for the pending command
of a WAITING entry and for the move of a MOVING one. -/
def Part.entryFits (p : Part) (c : Corner) : Prop :=
  ((p.window c).pending ≠ none → (p.window c).motion = .stopped) ∧
    ∀ o, p.operation = some o → o.ended = none →
      ((o.entries.get c).state = .waiting → (p.monitor c).learn = none ∧
        ∃ x, (p.window c).pending = some x ∧ x.cmd.mover = .sequencer) ∧
      ((o.entries.get c).state = .moving → (p.monitor c).learn = none ∧
        (p.window c).underWay = true ∧ (p.window c).mover = some .sequencer)

def Part.entriesFit (p : Part) : Prop := ∀ c, p.entryFits c

/-! ### The timer events that are due (log 1) -/

/-- The event falls due now: the guard of each timer event and of each debounced input event, as the rules give them. -/
def Part.isDue (p : Part) : Instr → Prop
  | .woke => p.state = .doze ∧ ∃ w, p.waking = some w ∧ w.since + 5 ≤ p.clock
  | .crashEvent => p.doorService = true ∧ ∃ a, p.crash.assertion = some a ∧ a.taken = false ∧ a.since + 4 ≤ p.clock
  | .ajarChange d a => p.settledLevel (.ajar d) (twoLevel (decide (a = .isOpen))) = true
  | .outerPull c b => p.settledLevel (.outer c) (twoLevel b) = true
  | .tailgateButton b => p.settledLevel .tailgate (twoLevel b) = true
  | .innerHandlePull c b => p.settledLevel (.inner c) (twoLevel b) = true
  | .outerTouch c b => p.settledLevel (.touch c) (twoLevel b) = true
  | .lockTouch f b => p.settledLevel (.lockTouch f) (twoLevel b) = true
  | .windowSwitchChange sw st => p.settledLevel (.switch sw) (stageLevel st) = true
  | .lockRocker r => p.settledLevel .rocker (rockerLevel r) = true
  | .childLockButton b => p.settledLevel .childButton (twoLevel b) = true
  | .lockoutButton b => p.settledLevel .lockoutButton (twoLevel b) = true
  | .ignChange b => p.settledLevel .ign (twoLevel b) = true
  | .inputStuck i => due (p.input i).stuckAt p.clock = true ∧ p.muted i = false
  | .relockExpiry => due p.doors.relock p.clock = true ∧ p.doorService = true ∧ p.inSafeHold = false
  | .waitLimitExpiry a => ∃ w ∈ p.waiting, w.actuator = a ∧ w.limit ≤ p.clock
  | .latchPulseExpiry d => ∃ op, p.latch d = some op ∧ op.state = .pulsing ∧ due op.timer p.clock = true
  | .confirmExpiry d => ∃ op, p.latch d = some op ∧ op.state = .confirming ∧ due op.timer p.clock = true
  | .coastEnd c => ∃ k, (p.window c).coast = some k ∧ k.ends ≤ p.clock
  | .softStartEnd c => ∃ r, (p.window c).ramp = some r ∧ r.finish ≤ p.clock
  | .stallExpiry c => (p.window c).motion ≠ .stopped ∧ due (p.monitor c).stallAt p.clock = true
  | .rereferenceWatchExpiry c => ∃ k, (p.monitor c).watch = some k ∧ k.expiry ≤ p.clock
  | .forceArmedExpiry c => due (p.monitor c).forceArmed p.clock = true
  | .heatRise c => 50 ≤ (p.window c).energised
  | .heatFall c => 500 ≤ (p.window c).idle
  | .antennaTransmissionEnd => ∃ f a, p.locator.flight = some f ∧ f.phase = .transmit a ∧ f.phaseEnd ≤ p.clock
  | .replySlotEnd => ∃ f i, p.locator.flight = some f ∧ f.phase = .reply i ∧ i ≠ .f3 ∧ f.phaseEnd ≤ p.clock
  | .searchCompletion => ∃ f, p.locator.flight = some f ∧ f.phase = .reply .f3 ∧ f.phaseEnd ≤ p.clock
  | .holdTrackerExpiry f => (p.fob f).tracker ≠ .idle ∧ ∃ l, (p.fob f).lastFrame = some l ∧ l.time + 300 ≤ p.clock
  | .commitEnd => ∃ k, p.store.commit = some k ∧ k.due ≤ p.clock
  | .dozeDwellExpiry => p.state = .service ∧ due p.dwell p.clock = true
  | .listenWindow => ∃ l, p.listen = some l ∧ l.next ≤ p.clock
  | _ => False

/-! ### The ORDER row of every ended order (R191, R193) -/

/-- The slot's order has ended (R189). -/
def Head.ended (h : Head) : Bool := decide (h.state = .done ∨ h.state = .refused)

/-- Row `j` of the unread span, word `i` (R193). -/
def Part.unreadWord (p : Part) (j i : Nat) : Word :=
  Memory.readWord p.port.memory (480 + 4 * ((p.scroll.start + j) % 128) + i)

/-- The unread span holds an ORDER row of the slot, written now, with the code, tag, kind and state of its head; or ORDER
is in the dropped-class mark (R193). -/
def Part.reported (p : Part) (k : Slot) : Prop :=
  p.scroll.mark.getLsbD RowClass.order.code = true ∨
    ∃ j w, j < p.scroll.unread ∧ ∀ i, i < 4 → some (p.unreadWord j i) = ((orderRow k (p.head k) w).words p.clock)[i]?

/-- `q` has the report row `r` that was handed over in `p` at the end of its unread span, with the rows before it as they
stood; or, the scroll full or the memory not served, no row changed and the row's class in the mark (R193, R196). -/
def Part.addsRow (p q : Part) (r : Row) : Prop :=
  if p.port.served = true ∧ p.scroll.unread < 128 then
    q.scroll = { p.scroll with unread := p.scroll.unread + 1 } ∧
      (∀ i, i < 4 → some (q.unreadWord p.scroll.unread i) = (r.words p.clock)[i]?) ∧
      ∀ j i, j < p.scroll.unread → i < 4 → q.unreadWord j i = p.unreadWord j i
  else
    q.scroll = { p.scroll with mark := p.scroll.mark ||| BitVec.ofNat 16 (1 <<< r.cls.code) } ∧
      ∀ j i, j < 128 → i < 4 → q.unreadWord j i = p.unreadWord j i

/-! ### Predicates the statements share -/

/-- What an order command posts: its head, its kind and its parameter words (R189; log 8). -/
def orderPosted : Instr → Option (OrderHead × OrderKind × List HostWord)
  | .lockDoors h a m => some (h, .lockDoors, [a, m])
  | .setChildLock h d a => some (h, .setChildLock, [d, a])
  | .releaseLatch h d => some (h, .releaseLatch, [d])
  | .moveWindow h w t n => some (h, .moveWindow, [w, t, n])
  | .setWindowLockout h w => some (h, .setWindowLockout, [w])
  | .learnWindow h w => some (h, .learnWindow, [w])
  | .locateFob h a => some (h, .locateFob, [a])
  | .enrolFob h i => some (h, .enrolFob, [i])
  | .dismissFob h i => some (h, .dismissFob, [i])
  | .suspendFob h i r => some (h, .suspendFob, [i, r])
  | .comfortClose h => some (h, .comfortClose, [])
  | .comfortOpen h => some (h, .comfortOpen, [])
  | .vent h => some (h, .vent, [])
  | .releaseCrash h => some (h, .releaseCrash, [])
  | .reconfigure h => some (h, .reconfigure, [])
  | _ => none

/-- The Order Board takes an order posted now with this head: SERVICE, the memory served and in canonical form, the
slot FREE, the head's parity sound. -/
def Part.accepts (p : Part) (h : OrderHead) : Prop :=
  p.tidy ∧ p.state = .service ∧ p.port.served = true ∧ (p.head h.slot).state = .free ∧ h.sound = true

/-- The head of a slot after its order has ended DONE. -/
def Part.endedDone (p : Part) (h : OrderHead) (k : OrderKind) (o : OrderOutcome) : Prop :=
  p.head h.slot = ⟨.done, BitVec.ofNat 5 k.code, h.tag, BitVec.ofNat 8 o.code⟩

/-- The head of a slot after its order has been refused. -/
def Part.endedRefused (p : Part) (h : OrderHead) (k : OrderKind) (r : OrderRefusal) : Prop :=
  p.head h.slot = ⟨.refused, BitVec.ofNat 5 k.code, h.tag, BitVec.ofNat 8 r.code⟩

/-- The head of a slot whose order the owner has accepted. -/
def Part.orderStands (p : Part) (h : OrderHead) (k : OrderKind) : Prop :=
  p.head h.slot = ⟨.taken, BitVec.ofNat 5 k.code, h.tag, 0⟩

/-- An input's change to `l` is settled and its events count: SERVICE, not STUCK, its circuit sound (R173, R175). -/
def Part.ready (p : Part) (i : Input) (l : Level) : Prop :=
  p.state = .service ∧ p.settledLevel i l = true ∧ (p.input i).stuck = false ∧ p.degraded.inputs.get i = false

/-- The same in every part state in which the inputs' owners take an event at once: START after its DRIVERS stage, HELD,
SERVICE and SAFE-HOLD (R175, R179). -/
def Part.hears (p : Part) (i : Input) (l : Level) : Prop :=
  p.doorService = true ∧ p.state ≠ .doze ∧ p.settledLevel i l = true ∧ (p.input i).stuck = false ∧
    p.degraded.inputs.get i = false

/-- `z` is the zone of a PASS reply with the recorded strengths `s` (R118). -/
def zoneJudged (cfg : Config) (s : PerAntenna (BitVec 8)) (z : Zone) : Prop :=
  let v := fun a => (s.get a).toNat
  let cabin := cfg.insideThreshold ≤ v .acf ∨ cfg.insideThreshold ≤ v .acr
  let heard := fun a : Antenna => a ≠ .acf ∧ a ≠ .acr ∧ cfg.outsideThreshold ≤ v a
  let greatest := fun a => heard a ∧ ∀ b, heard b → v b ≤ v a
  let gives := fun x : Zone => ¬ cabin ∧ (∃ a, greatest a) ∧ ∀ a, greatest a → antennaZone a = x
  (z = .inside ↔ cabin) ∧ (z = .outLeft ↔ gives .outLeft) ∧ (z = .outRight ↔ gives .outRight) ∧
    (z = .outRear ↔ gives .outRear)

/-- The result of an index counts for nothing against the record it meets at completion (R119). -/
def FobRec.setsAside (r : FobRec) (res : FobResult) : Prop :=
  r.keep.state = .vacant ∨ (res.reply ≠ .noReply ∧ res.id ≠ r.keep.id)

/-- The fob record `r` qualifies with the result `res` of its index, found in zone `z` (R119). -/
def FobRec.qualifiesIn (r : FobRec) (res : FobResult) (z : Zone) : Prop :=
  r.keep.state = .enrolled ∧ r.keep.blocked = false ∧ r.keep.permitted = true ∧ res.reply = .pass ∧ res.id = r.keep.id ∧
    res.zone = some z

/-- Two fob records that differ at most in whether the commit a waiting order needs has begun. -/
def FobRec.same (r r' : FobRec) : Prop :=
  r'.keep = r.keep ∧ r'.zone = r.zone ∧ r'.lastSeen = r.lastSeen ∧ r'.candidate = r.candidate ∧
    r'.lastFrame = r.lastFrame ∧ r'.tracker = r.tracker ∧ r'.waits.map (·.slot) = r.waits.map (·.slot)

def Part.sameFobs (p q : Part) : Prop := ∀ f, (p.fob f).same (q.fob f)

/-- The pulse at microsecond `us` of the present millisecond, counted on the CLOSING window, is a pinch: it carries a period,
and that is above the limit R78's table gives at the position it counts to, the absolute one or the baseline's mean raised by
the ratio (R77 to R79; log 14). -/
def Part.pulsePinches (p : Part) (c : Corner) (us : Nat) : Prop :=
  let w := p.window c
  let m := p.monitor c
  let pos := min w.travel (w.position + 1)
  let top := w.travel - p.cfg.softStopOffset
  let inZone := top ≤ pos + p.cfg.pinchZone ∧ pos ≤ top
  let ratio := if m.forceInUse then p.cfg.forceRatio else p.cfg.pinchRatio
  ∃ t, w.lastPulse = some t ∧
    let period := p.clock * 1000 + us - t
    ((w.learned = false ∧ 100 * p.cfg.absoluteLimit < period) ∨
      (w.learned = true ∧ inZone ∧ m.baseline.length < 16 ∧ 100 * p.cfg.absoluteLimit < period) ∨
      (w.learned = true ∧ inZone ∧ m.baseline.length = 16 ∧ m.baseline.sum * (100 + ratio) < period * (16 * 100)))

/-- The actuators of the holders in the order in which a fallen budget withdraws them: WINDOW holders, the newest first, then
RELEASE holders, the newest first (R107). -/
def withdrawalOrder (l : List Holder) : List Actuator :=
  let newest := fun prec : Precedence => (l.reverse.filter fun h => decide (h.prec = prec)).map (·.actuator)
  newest .window ++ newest .release

/-- The holders left when the first `n` of that order are withdrawn. -/
def afterWithdrawals (l : List Holder) (n : Nat) : List Holder :=
  l.filter fun h => decide (h.actuator ∉ (withdrawalOrder l).take n)

/-- The first `n` are withdrawn one at a time until the units held fit the budget or only escapes are left, and none once they
fit (R107). -/
def withdrawalsMeet (l : List Holder) (budget n : Nat) : Prop :=
  (∀ j, j < n → budget < unitsHeld (afterWithdrawals l j)) ∧
    (unitsHeld (afterWithdrawals l n) ≤ budget ∨ ∀ h ∈ afterWithdrawals l n, h.prec = .escape)

/-- The condition of check `n` on the items of a Configuration Page, by R201's table; check 0 judges the stored words. -/
def checkPasses (g : Config) : Nat → Prop
  | 1 => g.relockTime = 0 ∨ (10000 ≤ g.relockTime ∧ g.relockTime ≤ 120000)
  | 2 => 80 ≤ g.latchPulse ∧ g.latchPulse ≤ 400
  | 3 => 100 ≤ g.confirmWindow ∧ g.confirmWindow ≤ 1000
  | 4 => 160 ≤ g.pwmFrequency ∧ g.pwmFrequency ≤ 250
  | 5 => 50 ≤ g.rampTime ∧ g.rampTime ≤ 300 ∧ 4 ≤ g.softStopOffset ∧ g.softStopOffset ≤ 20 ∧ g.softStopOffset < g.slowZone ∧
      g.slowZone ≤ 200 ∧ g.softStopOffset + g.slowZone < g.ventDepth ∧ g.ventDepth ≤ 600
  | 6 => 100 ≤ g.pinchZone ∧ g.pinchZone ≤ 600 ∧ 20 ≤ g.absoluteLimit ∧ g.absoluteLimit ≤ 200
  | 7 => 5 ≤ g.pinchRatio ∧ g.pinchRatio ≤ g.forceRatio ∧ g.forceRatio ≤ 60
  | 8 => 100 ≤ g.reversalDistance ∧ g.reversalDistance ≤ 1000
  | 9 => 1 ≤ g.heatResume ∧ g.heatResume < g.heatLimit ∧ g.heatLimit ≤ 2000
  | 10 => (∀ v ∈ [g.lowEntry, g.lowExit, g.criticalEntry, g.criticalExit], 6000 ≤ v ∧ v ≤ 14000) ∧
      g.criticalEntry + 200 ≤ g.criticalExit ∧ g.criticalExit ≤ g.lowEntry ∧ g.lowEntry + 200 ≤ g.lowExit
  | 11 => 4 ≤ g.normalBudget ∧ g.normalBudget ≤ 12 ∧ 2 ≤ g.lowBudget ∧ g.lowBudget ≤ g.normalBudget
  | 12 => 5000 ≤ g.dozeDwell ∧ g.dozeDwell ≤ 600000 ∧ 50 ≤ g.receiverPeriod ∧ g.receiverPeriod ≤ 1000
  | 13 => 1 ≤ g.outsideThreshold ∧ g.outsideThreshold ≤ g.insideThreshold ∧ g.insideThreshold ≤ 255
  | _ => True

/-- What no door or latch event changes: windows, monitors, searches, fobs, operation, supply, configuration. -/
def Part.sameElsewhere (p q : Part) : Prop :=
  q.windows = p.windows ∧ q.monitors = p.monitors ∧ q.locator = p.locator ∧ p.sameFobs q ∧
    q.operation = p.operation ∧ q.supply = p.supply ∧ q.crash = p.crash ∧ q.cfg = p.cfg ∧ q.lockout = p.lockout

/-- What no window event changes: doors, latches, searches, fobs, supply, crash, configuration. -/
def Part.sameOutsideWindows (p q : Part) : Prop :=
  q.doors = p.doors ∧ q.latches = p.latches ∧ q.locator = p.locator ∧ p.sameFobs q ∧ q.supply = p.supply ∧
    q.crash = p.crash ∧ q.cfg = p.cfg ∧ q.lockout = p.lockout

/-- A command's result: the next state, its queue as before, its part with the property. -/
def Completes (c : Instr) (s : State) (post : Part → Prop) : Prop :=
  ∃ t, exec c s = .next t ∧ t.pending = s.pending ∧ post t.part

end Sys2Proof.Machine
end

