-- ==== Sys2Proof/Certificates/Slice0/Obligations.lean ====
section
/-! DEFINITION. The statements for the provers. `Completes c s post` (Safety.lean) says that `exec c s` answers a next
state whose queue is that of `s` and whose part has `post`. -/

open Sys2Proof Sys2Proof.Machine

/-! ### The machine's steps and resets -/

/-- A step runs the command at the front of the queue with the queue's rest. -/
def Obligations.FrontCommandRuns : Prop :=
  ∀ (c : Instr) (rest : List Instr) (s : Sys2Proof.Machine.State),
    step { s with pending := c :: rest } = exec c { s with pending := rest }

/-- On an empty queue a timer event or a debounced input event that is due runs; where none is due one millisecond passes:
the counter rises by 1, each driven window's energised time and each other window's idle time rises by 1, and nothing else
changes. `isDue` (Safety.lean) gives each event's guard as its rule does; that the part runs them so, and in which order, is
the model's choice (log 1). -/
def Obligations.EmptyQueueRunsDueEventOrMillisecond : Prop :=
  ∀ s : Sys2Proof.Machine.State, s.pending = [] →
    (∀ c, s.part.nextDue = some c → s.part.isDue c ∧ step s = exec c s) ∧
    (s.part.nextDue = none → (∀ c, ¬ s.part.isDue c) ∧ ∃ t, step s = .next t ∧ t.pending = [] ∧
      t.part = { s.part with clock := s.part.clock + 1, windows := t.part.windows } ∧
      ∀ c, t.part.window c =
        if (s.part.window c).motion = .stopped then { s.part.window c with idle := (s.part.window c).idle + 1 }
        else { s.part.window c with energised := (s.part.window c).energised + 1 })

/-- What the rules give the part right after a power-on reset, as `State.reset` holds it; and the reset state meets the laws
that the tier 3 statements say every step keeps. -/
def Obligations.ResetStateIsThatOfTheRules : Prop :=
  let p := Sys2Proof.Machine.State.reset.part
  Sys2Proof.Machine.State.reset.pending = [] ∧ p.clock = 0 ∧ p.state = .start .full .drivers ∧ p.holdCode = 0 ∧
    p.stageCode = 7 ∧ p.check = .notRun ∧ p.crash = ⟨none, none⟩ ∧ p.operation = none ∧ p.holders = [] ∧ p.waiting = [] ∧
    p.locator.list = [] ∧ p.locator.flight = none ∧ p.scroll = ⟨0, 0, 0⟩ ∧ p.port.pointer = 256 ∧ p.port.misuse = false ∧
    p.port.mask = 0 ∧ p.port.served = false ∧ p.store.dirty = [] ∧ p.store.commit = none ∧
    p.doors.relock = none ∧ p.doors.press = none ∧ p.doors.driveAway = false ∧ p.doors.vehicle = .standstill ∧
    (∀ d, p.latch d = none ∧ (p.door d).outcome = none ∧ (p.door d).pull = false) ∧
    (∀ c, (p.window c).motion = .stopped ∧ (p.window c).heat = 0 ∧ (p.window c).thermal = false ∧
      (p.window c).pending = none ∧ (p.window c).lastStop = none ∧ (p.window c).pinchLockout = false ∧
      (p.monitor c).history = [] ∧ (p.monitor c).forceArmed = none ∧ (p.monitor c).learn = none) ∧
    (∀ f, (p.fob f).zone = .nowhere ∧ (p.fob f).lastSeen = none ∧ (p.fob f).candidate = none ∧
      (p.fob f).lastFrame = none ∧ (p.fob f).tracker = .idle) ∧
    (∀ i, (p.input i).level = .rest ∧ (p.input i).stuck = false ∧ (p.input i).stuckAt = none) ∧ (∀ s, p.head s = .free) ∧
    p.tidy ∧ p.doorsFit ∧ p.crashSafe ∧ p.unitsFit ∧ p.grantsFit ∧ p.searchesFit ∧ p.dirtyFits ∧ p.candidatesFit ∧ p.entriesFit

/-- POWER_ON_RESET in any state: the strap chooses the driver door, START begins at the DRIVERS stage, and the part is
that of a fresh power-on: nothing but the retained copies, the raw levels and the random source is left of the state
before. What the rules name of it follows. That the raw levels and the random source go on and that every item starts at
its default is the model's choice (logs 10, 13). -/
def Obligations.PowerOnResetStartsAfresh : Prop :=
  ∀ (strap : Strap) (s : Sys2Proof.Machine.State),
    let side : Front := match strap with
      | .ground => .fl
      | .supply => .fr
    let p := Part.poweredOn side (.build fun i => (s.part.input i).raw) s.part.store.copies s.part.locator.draws
    exec (.powerOnReset strap) s = .next { s with part := p } ∧
      p.clock = 0 ∧ p.driverDoor = side ∧ p.state = .start .full .drivers ∧
      p.check = .notRun ∧ p.crash = ⟨none, none⟩ ∧ p.operation = none ∧ p.holders = [] ∧ p.waiting = [] ∧
      p.locator = ⟨[], none, s.part.locator.draws⟩ ∧ p.scroll = ⟨0, 0, 0⟩ ∧ p.port.pointer = 256 ∧ p.port.misuse = false ∧
      p.port.served = false ∧ p.port.memory = [] ∧ p.port.mask = 0 ∧ p.store.dirty = [] ∧ p.store.commit = none ∧
      p.store.copies = s.part.store.copies ∧ p.cfg = .default ∧ p.degraded = .none ∧ p.lockout = false ∧
      p.dwell = none ∧ p.waking = none ∧ p.listen = none ∧ p.timeBaseBad = false ∧ p.supply.cls = .normal ∧
      p.doors.relock = none ∧ p.doors.press = none ∧ p.doors.driveAway = false ∧ p.doors.vehicle = .standstill ∧
      (∀ d, p.latch d = none) ∧ (∀ k, p.head k = .free) ∧ (∀ sw, p.spent.get sw = false) ∧
      (∀ c, (p.window c).motion = .stopped ∧ (p.window c).heat = 0 ∧ p.monitor c = .fresh) ∧
      (∀ f, (p.fob f).zone = .nowhere ∧ (p.fob f).lastSeen = none ∧ (p.fob f).candidate = none ∧
        (p.fob f).lastFrame = none ∧ (p.fob f).tracker = .idle) ∧
      ∀ i, (p.input i).raw = (s.part.input i).raw ∧ (p.input i).level = .rest ∧ (p.input i).stuck = false

/-- PORT_RESET in HELD, in SERVICE and in SAFE-HOLD with the memory served enters START's short self-test: slots FREE,
Control Words zero, no window driven or pending; the doors as they stand but for pending pulls (R28); the releases in
flight go on without their orders, a waiting one pulsing where the reset frees its unit; crash latch, supply, fob records
and configuration kept. In START it has no effect. -/
def Obligations.PortResetRunsTheShortSelfTest : Prop :=
  ∀ s : Sys2Proof.Machine.State,
    (s.part.state = .held ∨ s.part.state = .service ∨ (s.part.inSafeHold = true ∧ s.part.port.served = true) →
      Completes .portReset s fun p =>
        p.state = .start .short .drivers ∧ p.check = .notRun ∧ p.clock = s.part.clock ∧ p.driverDoor = s.part.driverDoor ∧
        (∀ k, p.head k = .free) ∧ p.port.pointer = 256 ∧ p.port.mask = 0 ∧ p.port.vehicleWord = 0 ∧ p.port.misuse = false ∧
        p.scroll.start = 0 ∧ p.operation = none ∧ p.locator.list = [] ∧ p.locator.flight = none ∧
        (∀ c, (p.window c).motion = .stopped ∧ (p.window c).pending = none ∧ (p.monitor c).learn = none ∧
          (p.window c).learned = (s.part.window c).learned ∧ (p.window c).travel = (s.part.window c).travel ∧
          (p.window c).heat = (s.part.window c).heat) ∧
        (∀ d, p.door d = { s.part.door d with pull := false }) ∧
        p.doors = { s.part.doors with recs := p.doors.recs } ∧
        (∀ d, s.part.latch d = none → p.latch d = none) ∧
        (∀ d op, s.part.latch d = some op → ∃ op', p.latch d = some op' ∧ op'.orders = [] ∧ op'.prec = op.prec ∧
          op'.second = op.second ∧ op'.sources = op.sources ∧
          ((op'.state = op.state ∧ op'.timer = op.timer) ∨
            (op'.state = .pulsing ∧ ∃ w ∈ s.part.waiting, w.actuator = .latch d ∧ w.prec ≠ .window))) ∧
        (∀ h ∈ s.part.holders, ∀ d, h.actuator = .latch d → h.prec ≠ .window → h ∈ p.holders) ∧
        (∀ h ∈ p.holders, h.prec ≠ .window) ∧
        p.crash = s.part.crash ∧ p.supply = s.part.supply ∧ p.cfg = s.part.cfg ∧
        ∀ f, (p.fob f).keep = (s.part.fob f).keep ∧ (p.fob f).tracker = .idle ∧ (p.fob f).waits = none) ∧
    (∀ test stage, s.part.state = .start test stage → exec .portReset s = .next s)

/-- In DOZE with no wake under way every burst requests the wake: a WAKE write with the cause WAKE-WRITE, any other burst
with LINK, and the burst is served at once. A read's words are sent, a read of PORT STATUS clears MISUSE, an unknown
command and a write of PORT STATUS set it, a PORT RESET is held for the wake, and the write and order bursts leave the
part in DOZE. That the words stand in `port.sent` (log 46), and that a register read sends one word (log 44), are the model's
choices. -/
def Obligations.BurstsWakeTheDozingPart : Prop :=
  ∀ s : Sys2Proof.Machine.State, s.part.state = .doze → s.part.waking = none →
    let link : Option Waking := some ⟨.link, s.part.clock, [], false, false⟩
    let woken := fun p : Sys2Proof.Machine.Part => p.state = .doze ∧ p.waking = link
    (exec .wake s = .next { s with part := { s.part with waking := some ⟨.wakeWrite, s.part.clock, [], false, false⟩ } }) ∧
    (∀ start count, exec (.memoryRead start count) s = .next { s with part := { s.part with
      port := { s.part.port with sent := s.part.readBurst start.toNat count }
      waking := link } }) ∧
    (exec (.registerRead .status) s = .next { s with part := { s.part with
      port := { s.part.port with sent := [s.part.portStatus], misuse := false }
      waking := link } }) ∧
    (exec (.registerRead .control) s = .next { s with part := { s.part with
      port := { s.part.port with sent := [0] }
      waking := link } }) ∧
    (∀ v : Sys2Proof.Word, v.getLsbD 0 = false → exec (.registerWrite .control v) s = .next { s with part := { s.part with
      waking := if v.getLsbD 1 then some ⟨.wakeWrite, s.part.clock, [], false, false⟩ else link } }) ∧
    (∀ v, exec (.registerWrite .status v) s = .next { s with part := { s.part with
      port := { s.part.port with misuse := true }
      waking := link } }) ∧
    (∀ k, exec (.unknownCommand k) s = .next { s with part := { s.part with
      port := { s.part.port with misuse := true }
      waking := link } }) ∧
    (∀ start words, Completes (.memoryWrite start words) s woken) ∧
    (∀ words, Completes (.writeOn words) s woken) ∧
    (∀ c h k ws, orderPosted c = some (h, k, ws) → Completes c s woken) ∧
    Completes .portReset s fun p => p.waking = some ⟨.link, s.part.clock, [], false, true⟩ ∧ p.state = .doze

/-- What the host reads of the registers, the part block, the Control Words, the heads and the Enrolment Area (R187, R195, R197,
R97, R161, R169, R193, R206, 11.6): PORT STATUS shows part state, stage code, hold code, ATTN and MISUSE; ATTN is driven in HELD,
in SAFE-HOLD, and while the unread span holds a row of an enabled class or a GAP row whose mark holds one; words 0 to 15 are the
part block. The model's choices: the widths of word 7 and the latch, listed set before clear, coded 0 where it is set (log 15);
word 1 with the entries that are not inputs (log 16); a flag coded 1 where it is set (log 17); 0 for the count of an absent
candidate (log 77) and for the event count and time set of a clear latch (log 88); word 10 coded by class code (log 92). -/
def Obligations.RegistersAndStatusPageShowThePart : Prop :=
  ∀ s : Sys2Proof.Machine.State,
    let p := s.part
    let state : Nat := match p.state with
      | .start _ _ => 0
      | .held => 1
      | .service => 2
      | .doze => 3
      | .safeHold _ => 4
    let stage : Nat := match p.state with
      | .start _ .drivers => 7
      | .start _ .inputs => 6
      | .start _ .memory => 5
      | .start _ .store => 4
      | .start _ .antennas => 3
      | .start _ .receiver => 2
      | .held => 1
      | .service | .doze | .safeHold _ => 0
    let hold : Nat := match p.state with
      | .safeHold .memoryFault => 1
      | .safeHold .supplyFault => 2
      | .safeHold .storeFault => 3
      | .safeHold .parityFault => 4
      | .safeHold .timeBaseFault => 5
      | _ => 0
    let enabled := fun k : Nat => 1 ≤ k ∧ k ≤ 9 ∧ p.port.mask.getLsbD k = true
    let cls := fun j => bitsAt (p.unreadWord j 0) 28 4
    (p.portStatus.toNat = state + 8 * stage + 64 * hold + 512 * p.attn.toNat + 1024 * p.port.misuse.toNat) ∧
    (p.attn = true ↔ p.state = .held ∨ p.inSafeHold = true ∨ ∃ j, j < p.scroll.unread ∧
      (enabled (cls j) ∨ (cls j = 15 ∧ ∃ k, enabled k ∧ (p.unreadWord j 2).getLsbD k = true))) ∧
    (p.hostRead 0).toNat = state + 8 * stage + 64 * hold ∧
    (∀ c : Corner, (p.hostRead 1).getLsbD c.ctorIdx = p.degraded.bridges.get c ∧
      (p.hostRead 1).getLsbD (4 + c.ctorIdx) = p.degraded.halls.get c ∧
      (p.hostRead 1).getLsbD (26 + c.ctorIdx) = p.degraded.records.get (.window c)) ∧
    (∀ d : Door, (p.hostRead 1).getLsbD (8 + d.ctorIdx) = p.degraded.latches.get d) ∧
    (∀ a : Antenna, (p.hostRead 1).getLsbD (13 + a.ctorIdx) = p.degraded.antennas.get a) ∧
    (p.hostRead 1).getLsbD 20 = p.degraded.receiver ∧
    (∀ f : Fob, (p.hostRead 1).getLsbD (21 + f.ctorIdx) = p.degraded.records.get (.fob f)) ∧
    (p.hostRead 1).getLsbD 25 = p.degraded.records.get .lock ∧ (p.hostRead 1).toNat < 2 ^ 30 ∧
    (p.hostRead 2).toNat = p.clock % 2 ^ 24 ∧
    (p.hostRead 3).toNat = p.supply.cls.ctorIdx + 4 * (p.supply.millivolts % 2 ^ 15) ∧
    (p.hostRead 4).toNat = (match p.supply.candidate with
      | none => 3
      | some k => k.cls.ctorIdx + 4 * (k.count % 4)) ∧
    (p.hostRead 5).toNat = (if p.crashSet then 0 else 1) + 2 * (((p.crash.latch.map (·.count)).getD 0) % 256) ∧
    (p.hostRead 6).toNat = (match p.crash.latch with
      | none => 0
      | some l => l.since % 2 ^ 24) ∧
    (p.budget ≤ 12 → unitsHeld p.holders ≤ 13 → (p.hostRead 7).toNat = p.supply.cls.ctorIdx + 4 * p.budget +
      64 * unitsHeld p.holders + 1024 * (p.budget - unitsHeld p.holders) +
      16384 * ((unitsHeld p.holders - p.budget) % 8)) ∧
    (p.hostRead 8).toNat = (match p.check with
      | .notRun => 4 * 15
      | .passed => 1 + 4 * 15
      | .failed n => 2 + 4 * (n % 16)) ∧
    (p.tidy → (p.hostRead 9).toNat = p.scroll.start + 128 * ((p.scroll.start + p.scroll.unread) % 128) +
      16384 * p.scroll.unread + 4194304 * (if p.scroll.unread = 128 then 1 else 0)) ∧
    (p.hostRead 10).toNat = p.scroll.mark.toNat ∧
    (p.hostRead 11).toNat = p.store.dirty.length % 16 + 256 * (p.store.bad % 16) +
      16 * (match p.store.commit.map (·.content.record) with
        | none => 15
        | some (.fob f) => f.ctorIdx
        | some .lock => 4
        | some (.window c) => 5 + c.ctorIdx) ∧
    (∀ i, 13 ≤ i → i < 16 → p.hostRead i = 0) ∧ (p.hostRead 12).toNat = p.doors.vehicle.ctorIdx ∧
    (p.tidy → (p.hostRead 256).toNat = p.scroll.start) ∧ p.hostRead 257 = p.port.mask ∧
    p.hostRead 258 = p.port.vehicleWord ∧ (∀ i, 259 ≤ i → i < 272 → p.hostRead i = 0) ∧
    (∀ k : Slot, (p.hostRead (352 + 8 * k.val)).toNat = 536870912 * (p.head k).state.ctorIdx +
      16777216 * (p.head k).kind.toNat + 65536 * (p.head k).tag.toNat + 256 * (p.head k).code.toNat) ∧
    ∀ i, 992 ≤ i → p.hostRead i = 0

/-- The records of the Status Page, words 16 to 255, as 11.6 packs the fields of their tables: each door (R1), window (R49, R76)
and fob record (R131), the six places of the search list (R110), the search in flight (R114), the operation record (R149), the
levels and stuck flags of the inputs in R173's order with the wake enables (R173, R178, R179), and the first nine holders and
waiting entries (R98, R99); every other word and bit is 0. A field absent is all ones. The model's choices: the widths and
places that 11.6 leaves open, and a set or on value listed first coded 0 (log 15); a flag coded 1 where it is set (log 17); the
parts of a search's phase (log 71); the codes of an entry's reasons (log 18); the operation's state first, and zeros for an IDLE one (logs 74, 75) and for no search in
flight (log 85). -/
def Obligations.StatusPageRecordsShowTheirOwners : Prop :=
  ∀ s : Sys2Proof.Machine.State,
    let p := s.part
    let word := fun i => (p.hostRead i).toNat
    let zeros := fun lo hi => ∀ i, lo ≤ i → i < hi → p.hostRead i = 0
    let time := fun t : Nat => t % 2 ^ 24
    let timeOr := fun t : Option Nat => (t.map fun x => x % 2 ^ 24).getD (2 ^ 25 - 1)
    let place := fun t : Option Nat => (t.map fun x => x % 2 ^ 13).getD (2 ^ 13 - 1)
    let off := fun b : Bool => if b then 0 else 1
    let kind := fun m : Option Mover => match m with
      | none => 7
      | some .doorSwitch => 0
      | some .masterSwitch => 1
      | some (.order _) => 2
      | some .sequencer => 3
    let slot := fun m : Option Mover => match m with
      | some (.order k) => k.val
      | _ => 31
    let slots := fun l : List Slot => ((List.finRange 16).map fun k => if k ∈ l then 2 ^ k.val else 0).sum
    let antennas := fun v : PerAntenna Bool => (Antenna.all.map fun a => if v.get a then 2 ^ a.ctorIdx else 0).sum
    let opened := fun r : Request => if r.purpose = .lock then off r.opened else 3
    let actuator := fun a : Actuator => match a with
      | .window c => c.ctorIdx
      | .latch d => 4 + d.ctorIdx
    (∀ d : Door, let at_ := 16 + 8 * d.ctorIdx
      let r := p.door d
      word at_ = d.ctorIdx + 2 ^ 3 * r.lock.ctorIdx + 2 ^ 5 * ((p.doors.childLock d).map (·.ctorIdx)).getD 3 +
        2 ^ 7 * r.ajar.ctorIdx + 2 ^ 8 * ((p.latch d).map fun op => op.state.ctorIdx + 1).getD 0 +
        2 ^ 11 * (r.outcome.map (·.ctorIdx)).getD 7 + 2 ^ 14 * r.fault.ctorIdx + 2 ^ 16 * off r.pull ∧
      zeros (at_ + 1) (at_ + 8)) ∧
    (∀ c : Corner, let at_ := 56 + 8 * c.ctorIdx
      let w := p.window c
      let x := w.pending.map (·.cmd)
      word at_ = w.position % 2 ^ 13 + 2 ^ 13 * (w.travel % 2 ^ 12) + 2 ^ 25 * off w.learned + 2 ^ 26 * w.motion.ctorIdx +
        2 ^ 28 * (w.mode.map (·.ctorIdx)).getD 3 ∧
      word (at_ + 1) = place w.target + 2 ^ 13 * kind w.mover + 2 ^ 16 * slot w.mover +
        2 ^ 21 * (x.map (·.dir.ctorIdx)).getD 3 + 2 ^ 23 * (x.map (·.mode.ctorIdx)).getD 3 +
        2 ^ 25 * kind (x.map (·.mover)) ∧
      word (at_ + 2) = slot (x.map (·.mover)) + 2 ^ 5 * place (x.bind (·.target)) ∧
      word (at_ + 3) = timeOr (w.pending.map (·.since)) ∧
      word (at_ + 4) = w.heat % 2 ^ 11 + 2 ^ 11 * off w.thermal + 2 ^ 12 * off w.pinchLockout +
        2 ^ 13 * off (p.outOfService c) + 2 ^ 14 * (w.lastStop.map (·.ctorIdx)).getD 15 +
        2 ^ 18 * ((p.monitor c).learn.map (·.phase.ctorIdx)).getD 3 + 2 ^ 20 * ((p.monitor c).history.length % 4) +
        2 ^ 22 * (p.monitor c).forceArmed.isSome.toNat ∧
      zeros (at_ + 5) (at_ + 8)) ∧
    (∀ f : Fob, let at_ := 88 + 8 * f.ctorIdx
      let r := p.fob f
      let tracker : Nat × Option LockButton × Option Nat := match r.tracker with
        | .idle => (0, none, none)
        | .tracking b t => (1, some b, some t)
        | .session b t => (2, some b, some t)
        | .spent b t => (3, some b, some t)
      word at_ = r.keep.state.ctorIdx ∧ p.hostRead (at_ + 1) = r.keep.id ∧
      word (at_ + 2) = r.keep.counter.toNat + 2 ^ 28 * (r.keep.run % 16) ∧
      word (at_ + 3) = off r.keep.blocked + 2 * off r.keep.permitted + 2 ^ 2 * r.zone.ctorIdx + 2 ^ 5 * timeOr r.lastSeen ∧
      word (at_ + 4) = (r.candidate.map (·.counter.toNat)).getD (2 ^ 29 - 1) ∧
      word (at_ + 5) = timeOr (r.candidate.map (·.time)) + 2 ^ 25 * tracker.1 +
        2 ^ 27 * (tracker.2.1.map (·.ctorIdx)).getD 3 ∧
      word (at_ + 6) = timeOr tracker.2.2 ∧ p.hostRead (at_ + 7) = 0) ∧
    (∀ k, k < 6 → (p.locator.list[k]? = none → zeros (120 + 4 * k) (124 + 4 * k)) ∧
      ∀ r, p.locator.list[k]? = some r →
        word (120 + 4 * k) = r.purpose.ctorIdx + 2 ^ 2 * (r.door.map (·.ctorIdx)).getD 7 +
          2 ^ 5 * (r.antennas.map antennas).getD 255 + 2 ^ 13 * slots r.orders + 2 ^ 29 * opened r ∧
        word (121 + 4 * k) = time r.since ∧ zeros (122 + 4 * k) (124 + 4 * k)) ∧
    (p.locator.flight = none → zeros 144 152) ∧
    (∀ f, p.locator.flight = some f →
      let reply := fun i => (f.results.get i).reply.ctorIdx
      let zone := fun i => ((f.results.get i).zone.map (·.ctorIdx)).getD 7
      word 144 = f.request.purpose.ctorIdx + 2 ^ 2 * (f.request.door.map (·.ctorIdx)).getD 7 + 2 ^ 5 * antennas f.used +
        (match f.phase with
          | .transmit a => 2 ^ 13 * a.ctorIdx + 2 ^ 16 * 7
          | .reply i => 2 ^ 12 + 2 ^ 13 * 7 + 2 ^ 16 * i.ctorIdx) ∧
      word 145 = time f.since ∧
      word 146 = slots f.request.orders + 2 ^ 16 * opened f.request + 2 ^ 18 * reply .f0 + 2 ^ 20 * zone .f0 +
        2 ^ 23 * reply .f1 + 2 ^ 25 * zone .f1 + 2 ^ 28 * reply .f2 ∧
      word 147 = zone .f2 + 2 ^ 3 * reply .f3 + 2 ^ 5 * zone .f3 ∧ zeros 148 152) ∧
    (p.operation = none → zeros 184 200) ∧
    (∀ o, p.operation = some o →
      let state := fun c => (o.entries.get c).state.ctorIdx
      let aim := fun c => place (o.entries.get c).target + 2 ^ 13 * ((o.entries.get c).reason.map (·.ctorIdx)).getD 31
      word 184 = (if o.ended = none then 1 else 2) + 2 ^ 2 * o.kind.ctorIdx +
        (match o.origin with
          | .order k => 2 ^ 5 * k.val
          | .hold f => 2 ^ 4 + 2 ^ 5 * f.ctorIdx) ∧
      word 185 = time o.since + 2 ^ 24 * o.lock.isNone.toNat + 2 ^ 25 * (o.lock.map (·.ctorIdx)).getD 3 + 2 ^ 27 * state .fl ∧
      word 186 = aim .fl + 2 ^ 18 * state .fr ∧ word 187 = aim .fr + 2 ^ 18 * state .rl ∧
      word 188 = aim .rl + 2 ^ 18 * state .rr ∧
      word 189 = aim .rr + 2 ^ 18 * (o.ended.map (·.outcome.ctorIdx)).getD 7 ∧
      word 190 = timeOr (o.ended.map (·.time)) ∧ zeros 191 200) ∧
    (∀ k i, (inputList p.driverDoor)[k]? = some i →
      let level := (p.input i).level.ctorIdx
      (k < 20 → bitsAt (p.hostRead 200) k 1 = level % 2) ∧
      (20 ≤ k → k < 24 → bitsAt (p.hostRead 200) (20 + 3 * (k - 20)) 3 = level) ∧
      (24 ≤ k → k < 27 → bitsAt (p.hostRead 201) (3 * (k - 24)) 3 = level) ∧
      (k = 27 → bitsAt (p.hostRead 201) 9 2 = level % 4) ∧
      (28 ≤ k → bitsAt (p.hostRead 201) (k - 17) 1 = level % 2) ∧
      (k < 17 → (p.hostRead 201).getLsbD (15 + k) = p.muted i) ∧
      (17 ≤ k → (p.hostRead 202).getLsbD (k - 17) = p.muted i)) ∧
    bitsAt (p.hostRead 202) 15 17 = p.cfg.wakeTouch.toNat + 2 * p.cfg.wakePulls.toNat + 4 * p.cfg.wakeSwitches.toNat +
      8 * p.cfg.wakeRocker.toNat + 16 * p.cfg.wakeTailgate.toNat ∧ zeros 203 216 ∧
    (∀ k, k < 9 →
      (p.holders[k]? = none → zeros (216 + 2 * k) (218 + 2 * k)) ∧
      (∀ h, p.holders[k]? = some h →
        word (216 + 2 * k) = actuator h.actuator + 2 ^ 4 * (h.units % 4) + 2 ^ 6 * h.prec.ctorIdx + 2 ^ 8 * time h.since ∧
        word (217 + 2 * k) = h.kind.ctorIdx) ∧
      (p.waiting[k]? = none → zeros (234 + 2 * k) (236 + 2 * k)) ∧
      ∀ w, p.waiting[k]? = some w →
        word (234 + 2 * k) = actuator w.actuator + 2 ^ 4 * (w.units % 4) + (if w.prec = .release then 0 else 2 ^ 6) +
          2 ^ 7 * time w.since ∧
        word (235 + 2 * k) = time w.limit) ∧
    zeros 152 184 ∧ zeros 252 256

/-- The command a burst's header picks (R182, 11.6): bits 15 to 13 its kind, bits 9 to 0 the start index, bit 0 of a
register command the register. Outside DOZE: a REGISTER_WRITE that selects PORT STATUS and an UNKNOWN_COMMAND set MISUSE, a
PORT CONTROL write with both request bits 0 and a WAKE do nothing, a read of PORT STATUS sends it and clears MISUSE, and
PORT CONTROL reads as 0. In SERVICE each is activity: the doze dwell restarts. The model's choices: a header with one of bits
12 to 10 set acts as if they were zero (log 90), a REGISTER WRITE burst that ends before a whole word writes 0 (log 67), a
read's words stand in `port.sent` (log 46), one for a register (log 44), and each of these is activity (log 32). -/
def Obligations.RegisterBurstsActAsTheirHeadersSay : Prop :=
  (∀ (header : BitVec 16) (count : Nat) (words : List HostWord),
      let kind := (header.extractLsb' 13 3).toNat
      let start := header.extractLsb' 0 10
      let reg : Register := if header.getLsbD 0 then .control else .status
      (kind = 1 → burstCommand header count words = .memoryRead start count) ∧
      (kind = 2 → burstCommand header count words = .memoryWrite start words) ∧
      (kind = 3 → burstCommand header count words = .writeOn words) ∧
      (kind = 4 → burstCommand header count words = .registerRead reg) ∧
      (∀ w rest, kind = 5 → words = w :: rest → burstCommand header count words = .registerWrite reg w.value) ∧
      (kind = 5 → words = [] → burstCommand header count words = .registerWrite reg 0) ∧
      (kind = 0 ∨ kind = 6 ∨ kind = 7 → burstCommand header count words = .unknownCommand (header.extractLsb' 13 3))) ∧
  ∀ s : Sys2Proof.Machine.State, s.part.state ≠ .doze →
    let dwell := if s.part.state = .service then some (s.part.clock + s.part.cfg.dozeDwell) else s.part.dwell
    (∀ v, exec (.registerWrite .status v) s =
      .next { s with part := { s.part with port := { s.part.port with misuse := true }, dwell := dwell } }) ∧
    (∀ k, exec (.unknownCommand k) s =
      .next { s with part := { s.part with port := { s.part.port with misuse := true }, dwell := dwell } }) ∧
    (∀ v : Sys2Proof.Word, v.getLsbD 0 = false →
      exec (.registerWrite .control v) s = .next { s with part := { s.part with dwell := dwell } }) ∧
    (exec .wake s = .next { s with part := { s.part with dwell := dwell } }) ∧
    (exec (.registerRead .status) s = .next { s with part := { s.part with
      port := { s.part.port with sent := [s.part.portStatus], misuse := false }
      dwell := dwell } }) ∧
    (exec (.registerRead .control) s = .next { s with part := { s.part with
      port := { s.part.port with sent := [0] }
      dwell := dwell } })

/-- MEMORY_READ outside DOZE sends, for each word clocked, the word there, 0 beyond the area's end (the Report Scroll
goes on at word 480), and 0 throughout while the memory is not served; it changes nothing else but the dwell. That the words
stand in `port.sent` and that the burst sees one moment are the model's choices (logs 5, 46). -/
def Obligations.MemoryReadStaysInItsArea : Prop :=
  ∀ (s : Sys2Proof.Machine.State) (start : BitVec 10) (count : Nat), s.part.state ≠ .doze →
    ∃ words : List Sys2Proof.Word, words.length = count ∧
      exec (.memoryRead start count) s = .next { s with part := { s.part with
        port := { s.part.port with sent := words }
        dwell := if s.part.state = .service then some (s.part.clock + s.part.cfg.dozeDwell) else s.part.dwell } } ∧
      ∀ k, k < count → words[k]? = some (
        if s.part.port.served = false then 0
        else if 480 ≤ start.toNat ∧ start.toNat < 992 then s.part.hostRead (480 + (start.toNat - 480 + k) % 512)
        else if (start.toNat < 256 ∧ 256 ≤ start.toNat + k) ∨ (start.toNat < 272 ∧ 272 ≤ start.toNat + k) ∨
          (start.toNat < 352 ∧ 352 ≤ start.toNat + k) ∨ (start.toNat < 480 ∧ 480 ≤ start.toNat + k) ∨
          1024 ≤ start.toNat + k then 0
        else s.part.hostRead (start.toNat + k))

/-- R183, the burst write-continue pointer: what each write burst leaves in it, where WRITE_ON starts, that it stays in the
area of the pointer (words beyond the area's end change nothing but the pointer), what leaves the pointer, and both
resets (a port reset taken in DOZE runs as the part wakes). That a write burst without a whole word leaves the pointer at the
index where the burst starts is the model's choice (log 91). -/
def Obligations.WriteContinuePointerFollowsWrites : Prop :=
  ∀ s : Sys2Proof.Machine.State,
    let pointer := s.part.port.pointer
    (∀ start words, Completes (.memoryWrite start words) s fun p =>
      p.port.pointer = BitVec.ofNat 10 ((start.toNat + words.length) % 1024)) ∧
    (∀ words, Completes (.writeOn words) s fun p =>
      p.port.pointer = BitVec.ofNat 10 ((pointer.toNat + words.length) % 1024)) ∧
    (∀ words, exec (.writeOn words) s = exec (.memoryWrite pointer words) s) ∧
    (∀ words, ∃ t u, exec (.writeOn words) s = .next t ∧ t.pending = u.pending ∧
      exec (.writeOn (words.take (areaEnd pointer.toNat - pointer.toNat))) s = .next u ∧
      t.part = { u.part with port := { u.part.port with pointer := t.part.port.pointer } }) ∧
    (∀ start count, Completes (.memoryRead start count) s fun p => p.port.pointer = pointer) ∧
    (∀ r, Completes (.registerRead r) s fun p => p.port.pointer = pointer) ∧
    (∀ r (v : Sys2Proof.Word), r = .status ∨ v.getLsbD 0 = false →
      Completes (.registerWrite r v) s fun p => p.port.pointer = pointer) ∧
    (∀ strap, Completes (.powerOnReset strap) s fun p => p.port.pointer = 256) ∧
    (s.part.state = .held ∨ s.part.state = .service ∨ (s.part.inSafeHold = true ∧ s.part.port.served = true) →
      Completes .portReset s fun p => p.port.pointer = 256) ∧
    (∀ w, s.part.state = .doze → s.part.waking = some w → w.resetHeld = true → Completes .woke s fun p => p.port.pointer = 256)

/-- A MEMORY_WRITE of one word, with the memory served (R184, R186, R188). A Configuration Page word, a word 1 to 7 of a
FREE slot and a word 0 to 6 of an Enrolment block are stored with their parity and no other word changes; a word 1 to 7 of
a slot that is not FREE, a Status Page word and a Report Scroll word set MISUSE and store nothing; ATTENTION MASK takes
the value; a VEHICLE STATE value above 2 sets MISUSE; a START write but 1 in HELD, words 260 to 271 and word 7 of a block
are discarded without MISUSE. SCROLL START, head words, the three VEHICLE STATE values and START in HELD have statements
of their own. -/
def Obligations.WrittenWordsAreJudgedByArea : Prop :=
  ∀ (s : Sys2Proof.Machine.State) (start : BitVec 10) (w : HostWord), s.part.port.served = true → s.part.tidy →
    let i := start.toNat
    let inSlot := 352 ≤ i ∧ i < 480 ∧ (i - 352) % 8 ≠ 0
    let slotFree := (s.part.head (Fin.ofNat 16 ((i - 352) / 8))).state = .free
    let unchanged := fun p : Sys2Proof.Machine.Part => p.port.memory = s.part.port.memory ∧
      p.port.parity = s.part.port.parity ∧ p.port.mask = s.part.port.mask ∧ p.port.vehicleWord = s.part.port.vehicleWord ∧
      p.heads = s.part.heads ∧ p.scroll = s.part.scroll ∧ p.cfg = s.part.cfg ∧ p.state = s.part.state ∧
      p.doors = s.part.doors ∧ p.windows = s.part.windows
    ((272 ≤ i ∧ i < 352) ∨ (inSlot ∧ slotFree) ∨ (992 ≤ i ∧ (i - 992) % 8 ≠ 7) →
      Completes (.memoryWrite start [w]) s fun p =>
        Memory.readWord p.port.memory i = w.value ∧
        (Memory.readByte p.port.parity i = 0 ↔ w.sound = true) ∧
        (∀ j, j ≠ i → Memory.readWord p.port.memory j = Memory.readWord s.part.port.memory j ∧
          Memory.readByte p.port.parity j = Memory.readByte s.part.port.parity j) ∧
        p.port.misuse = s.part.port.misuse ∧ p.heads = s.part.heads ∧ p.scroll = s.part.scroll ∧ p.cfg = s.part.cfg) ∧
    (i < 256 ∨ (480 ≤ i ∧ i < 992) ∨ (inSlot ∧ ¬ slotFree) ∨ (i = 258 ∧ 2 < w.value.toNat) →
      Completes (.memoryWrite start [w]) s fun p => p.port.misuse = true ∧ unchanged p) ∧
    (i = 257 → Completes (.memoryWrite start [w]) s fun p =>
      p.port.mask = w.value ∧ p.port.memory = s.part.port.memory ∧ p.port.misuse = s.part.port.misuse ∧
      p.heads = s.part.heads ∧ p.scroll = s.part.scroll ∧ p.doors = s.part.doors) ∧
    ((i = 259 ∧ (w.value ≠ 1 ∨ s.part.state ≠ .held)) ∨ (260 ≤ i ∧ i < 272) ∨ (992 ≤ i ∧ (i - 992) % 8 = 7) →
      Completes (.memoryWrite start [w]) s fun p => p.port.misuse = s.part.port.misuse ∧ unchanged p)

/-- R194: a write of `v` to SCROLL START. `k` is the number of rows it gives back. -/
def Obligations.ScrollStartGivesBackRows : Prop :=
  ∀ (s : Sys2Proof.Machine.State) (w : HostWord), s.part.port.served = true → s.part.tidy →
    let old := s.part.scroll
    let v := w.value.toNat
    let writeRow := (old.start + old.unread) % 128
    let gives := fun k => Completes (.memoryWrite 256 [w]) s fun p =>
      p.port.misuse = s.part.port.misuse ∧ p.scroll.start = v ∧
      (if old.unread - k < 128 ∧ old.mark ≠ 0 then
        let base := 480 + 4 * ((v + (old.unread - k)) % 128)
        p.scroll.unread = old.unread - k + 1 ∧ p.scroll.mark = 0 ∧
        (∀ j, j < 4 → some (Memory.readWord p.port.memory (base + j)) = ((gapRow old.mark).words s.part.clock)[j]?) ∧
        ∀ j, j < base ∨ base + 4 ≤ j → Memory.readWord p.port.memory j = Memory.readWord s.part.port.memory j
      else p.scroll.unread = old.unread - k ∧ p.scroll.mark = old.mark ∧ p.port.memory = s.part.port.memory)
    (v = writeRow → gives old.unread) ∧
    (v < 128 → v ≠ writeRow → (v + 128 - old.start) % 128 < old.unread → gives ((v + 128 - old.start) % 128)) ∧
    ((v < 128 ∧ v ≠ writeRow ∧ old.unread ≤ (v + 128 - old.start) % 128) ∨ 127 < v →
      Completes (.memoryWrite 256 [w]) s fun p => p.scroll = old ∧ p.port.misuse = true ∧ p.port.memory = s.part.port.memory)

/-- Report rows (R193, R196): a row handed over is written with its time at the end of the unread span, the rows before it
kept; with the scroll full or the memory not served its class joins the dropped-class mark and no row changes. So for
RECEIVER_STAGE_END's SELF-TEST-FINDINGS and for INPUT_STUCK in SAFE-HOLD for an input that SAFE-HOLD does not take. -/
def Obligations.ReportRowsAreWrittenOrMarked : Prop :=
  (∀ (p : Sys2Proof.Machine.Part) (r : Row), p.tidy → p.addsRow (p.appendRow r) r) ∧
  (∀ (s : Sys2Proof.Machine.State) test faulty, s.part.tidy → s.part.state = .start test .receiver →
    ({ s.part.degraded with receiver := faulty } : Degraded) ≠ .none → Completes (.receiverStageEnd faulty) s fun p =>
      s.part.addsRow p (selfTestFindingsRow s.part.driverDoor { s.part.degraded with receiver := faulty })) ∧
  ∀ (s : Sys2Proof.Machine.State) (i : Input), s.part.tidy → s.part.inSafeHold = true → takenInSafeHold i = false →
    due (s.part.input i).stuckAt s.part.clock = true → s.part.muted i = false → Completes (.inputStuck i) s fun p =>
      s.part.addsRow p (inputStuckRow s.part.driverDoor i (s.part.input i).level)

/-! ### Orders. `accepts`: SERVICE, the memory served and canonical, the slot FREE, the head's parity sound -/

/-- LOCK_DOORS (R9, R4, R5): UNLOCK unlocks the named doors; LOCK, with the crash latch clear, locks them, an OPEN one
LOCK-PENDING, and leaves the others of R4's rows; DEADLOCK with all doors CLOSED and IGN off deadlocks them, and with a door
OPEN or IGN on is taken as LOCK. Other doors stay, the relock timer stops, the order ends COMPLETED, word 6 showing the action
taken; with the latch set LOCK and DEADLOCK are refused CRASH-LATCH. That word 6 shows the action taken alone is 11.6's table
(log 81). -/
def Obligations.LockDoorsOrderTakesItsAction : Prop :=
  ∀ (s : Sys2Proof.Machine.State) (h : OrderHead) (a m : HostWord), s.part.accepts h → a.sound = true → m.sound = true →
    0 < m.value.toNat → m.value.toNat < 32 →
    let named := fun d : Door => m.value.getLsbD d.ctorIdx = true
    let deadlocks := (∀ d, (s.part.door d).ajar = .isClosed) ∧ s.part.doors.ign = false
    let took := fun (p : Sys2Proof.Machine.Part) (k : LockAction) => p.endedDone h .lockDoors .completed ∧
      bitsAt (Memory.readWord p.port.memory (slotWord h.slot 6)) 0 2 = k.ctorIdx ∧ p.doors.relock = none ∧
      s.part.sameElsewhere p ∧ p.latches = s.part.latches ∧ ∀ d, ¬ named d → p.door d = s.part.door d
    (a.value = 1 → Completes (.lockDoors h a m) s fun p => took p .unlock ∧
      ∀ d, (p.door d).ajar = (s.part.door d).ajar ∧ (named d → (p.door d).lock = .unlocked)) ∧
    (a.value = 0 ∨ (a.value = 2 ∧ ¬ deadlocks) → s.part.crashSet = false → Completes (.lockDoors h a m) s fun p =>
      took p .lock ∧ ∀ d, named d → (p.door d).ajar = (s.part.door d).ajar ∧
        ((s.part.door d).lock = .unlocked →
          (p.door d).lock = if (s.part.door d).ajar = .isClosed then .locked else .lockPending) ∧
        ((s.part.door d).lock ≠ .unlocked → (p.door d).lock = (s.part.door d).lock)) ∧
    (a.value = 2 → deadlocks → s.part.crashSet = false → Completes (.lockDoors h a m) s fun p => took p .deadlock ∧
      ∀ d, named d → (p.door d).ajar = .isClosed ∧ ((s.part.door d).lock ≠ .lockPending → (p.door d).lock = .deadlocked)) ∧
    (a.value = 0 ∨ a.value = 2 → s.part.crashSet = true → Completes (.lockDoors h a m) s fun p =>
      p.endedRefused h .lockDoors .crashLatch ∧ p.doors = s.part.doors)

/-- The child locks (R24, R25). SET_CHILD_LOCK: the named rear doors' child locks take the action's state, the order ends
COMPLETED; an ENGAGE while the crash latch is set is refused CRASH-LATCH. CHILD_LOCK_BUTTON with the latch clear: both
ENGAGED unless both were, then both RELEASED; with it set a toggle that would engage changes nothing. SET_WINDOW_LOCKOUT
(R57) and the lockout button (R56): the lockout takes the wanted state, or turns over. As it turns on, a rear window moved by
its door switch stops with OVERRIDDEN and gives its grant back, a pending command of a rear door switch is withdrawn with its
waiting entry, where nothing else waits, and every other window stays; as it turns off, a rear door switch away from NEUTRAL
is spent and no window changes. -/
def Obligations.ChildLocksAndRearLockoutTakeTheWantedState : Prop :=
  ((∀ (s : Sys2Proof.Machine.State) (h : OrderHead) (d a : HostWord), s.part.accepts h → d.sound = true → a.sound = true →
      0 < d.value.toNat → d.value.toNat < 4 → a.value.toNat < 2 →
      let wanted : ChildLock := if a.value = 0 then .engaged else .released
      (wanted = .released ∨ s.part.crashSet = false → Completes (.setChildLock h d a) s fun p =>
        p.endedDone h .setChildLock .completed ∧
        p.doors.childRL = (if d.value.getLsbD 0 then wanted else s.part.doors.childRL) ∧
        p.doors.childRR = (if d.value.getLsbD 1 then wanted else s.part.doors.childRR) ∧
        p.doors.recs = s.part.doors.recs ∧ p.doors.relock = s.part.doors.relock ∧ s.part.sameElsewhere p ∧
        p.latches = s.part.latches) ∧
      (wanted = .engaged → s.part.crashSet = true → Completes (.setChildLock h d a) s fun p =>
        p.endedRefused h .setChildLock .crashLatch ∧ p.doors = s.part.doors)) ∧
    (∀ s : Sys2Proof.Machine.State, s.part.ready .childButton .l1 →
      (s.part.crashSet = false → Completes (.childLockButton true) s fun p =>
        let both := s.part.doors.childRL = .engaged ∧ s.part.doors.childRR = .engaged
        (both → p.doors.childRL = .released ∧ p.doors.childRR = .released) ∧
        (¬ both → p.doors.childRL = .engaged ∧ p.doors.childRR = .engaged) ∧ p.doors.recs = s.part.doors.recs) ∧
      (s.part.crashSet = true → s.part.doors.childRL = .released ∨ s.part.doors.childRR = .released →
        Completes (.childLockButton true) s fun p => p.doors = s.part.doors))) ∧
  ∀ s : Sys2Proof.Machine.State,
    let rear := fun c : Corner => c = .rl ∨ c = .rr
    let moves := fun c => rear c ∧ (s.part.window c).underWay = true ∧ (s.part.window c).mover = some .doorSwitch
    let waits := fun c => rear c ∧ (s.part.window c).underWay = false ∧
      ∃ x, (s.part.window c).pending = some x ∧ x.cmd.mover = .doorSwitch
    let turnsOn := fun p : Sys2Proof.Machine.Part => p.lockout = true ∧ p.waiting = [] ∧
      (∀ h, h ∈ p.holders ↔ h ∈ s.part.holders ∧ ∀ c, moves c → h.actuator ≠ .window c) ∧ p.spent = s.part.spent ∧
      ∀ c, let w := s.part.window c
        (moves c → w.position ≤ w.travel → p.window c = { w with
          motion := .stopped
          mode := none
          target := none
          mover := none
          forExpress := false
          lastStop := some .overridden
          movingFlag := false
          coast := some ⟨s.part.clock + 100, if w.motion = .opening then .opening else .closing⟩
          lastPulse := none
          ramp := none } ∧ (p.monitor c).stallAt = none) ∧
        (waits c → p.window c = { w with pending := none }) ∧ (¬ moves c → ¬ waits c → p.window c = w)
    let turnsOff := fun p : Sys2Proof.Machine.Part => p.lockout = false ∧ p.windows = s.part.windows ∧
      p.holders = s.part.holders ∧ p.waiting = s.part.waiting ∧
      ∀ sw, p.spent.get sw = (s.part.spent.get sw ||
        decide ((sw = .door .rl ∨ sw = .door .rr) ∧ (s.part.input (.switch sw)).level ≠ .rest))
    let alone := ∀ x ∈ s.part.waiting, ∃ c, waits c ∧ x.actuator = .window c
    (∀ (h : OrderHead) (w : HostWord), s.part.accepts h → w.sound = true → w.value.toNat < 2 →
      (Completes (.setWindowLockout h w) s fun p => p.endedDone h .setWindowLockout .completed ∧
        p.lockout = decide (w.value = 1) ∧ p.doors = s.part.doors ∧
        (s.part.lockout = decide (w.value = 1) → p.windows = s.part.windows ∧ p.spent = s.part.spent)) ∧
      (s.part.lockout = false → w.value = 1 → alone → Completes (.setWindowLockout h w) s turnsOn) ∧
      (s.part.lockout = true → w.value = 0 → Completes (.setWindowLockout h w) s turnsOff)) ∧
    (s.part.ready .lockoutButton .l1 →
      (Completes (.lockoutButton true) s fun p => p.lockout = !s.part.lockout ∧ p.doors = s.part.doors ∧
        (p.input .lockoutButton).level = .l1 ∧ p.heads = s.part.heads) ∧
      (s.part.lockout = false → alone → Completes (.lockoutButton true) s turnsOn) ∧
      (s.part.lockout = true → Completes (.lockoutButton true) s turnsOff))

/-- RELEASE_LATCH (R44, R31, R37, R38): a CLOSED door neither LOCKED nor DEADLOCKED, its latch sound and IDLE, with a
unit free and nothing waiting, is pulsed for the order, which stays TAKEN; a LOCKED or DEADLOCKED door is refused
DOOR-LOCKED, an OPEN one ends ALREADY-OPEN. -/
def Obligations.ReleaseLatchOrderPulsesTheLatch : Prop :=
  ∀ (s : Sys2Proof.Machine.State) (h : OrderHead) (w : HostWord) (d : Door), s.part.accepts h → w.sound = true →
    w.value = BitVec.ofNat 32 d.ctorIdx →
    ((s.part.door d).lock.barred = false → (s.part.door d).ajar = .isClosed → (s.part.door d).fault ≠ .driver →
      s.part.latch d = none → s.part.waiting = [] → 1 ≤ s.part.unitsFree →
      Completes (.releaseLatch h w) s fun p => p.orderStands h .releaseLatch ∧
        p.latch d = some ⟨.pulsing, false, .release, ⟨false, false, false, false, true⟩, [h.slot],
          some (s.part.clock + s.part.cfg.latchPulse)⟩ ∧
        p.holders = s.part.holders ++ [⟨.latch d, 1, .release, s.part.clock, .withinBudget⟩] ∧ p.waiting = [] ∧
        (∀ x, x ≠ d → p.latch x = s.part.latch x) ∧ p.doors = s.part.doors ∧ s.part.sameElsewhere p) ∧
    ((s.part.door d).lock.barred = true → Completes (.releaseLatch h w) s fun p =>
      p.endedRefused h .releaseLatch .doorLocked ∧ p.latches = s.part.latches ∧ p.doors = s.part.doors) ∧
    ((s.part.door d).lock.barred = false → (s.part.door d).ajar = .isOpen → Completes (.releaseLatch h w) s fun p =>
      p.endedDone h .releaseLatch .alreadyOpen ∧ p.latches = s.part.latches ∧ p.doors = s.part.doors)

/-- MOVE_WINDOW on a window at rest that does not learn (R69, R61, R62, R65). FULL-OPEN, FULL-CLOSE and a position within the
travel aim at that position, a target beyond a soft stop at the soft stop; the window is sound, LEARNED and not thermally
blocked, and the crash latch clear for a close. With 2 units free and nothing waiting it moves there in TARGET mode for the
order, which stays TAKEN; where it is there already, or at or beyond the soft stop aimed at, the order ends COMPLETED and no
window or grant changes. STOP ends COMPLETED and leaves the windows (R70). LEARN_WINDOW (R91, R92): a sound window at rest,
neither learning nor thermally blocked, with the crash latch clear, 2 units free and nothing waiting, begins phase DOWN for the
order, which stays TAKEN; the window is UNLEARNED. That the target taken within the soft stops gives the direction, decides
whether the crash latch bars the move, and is what the position is held against is the model's reading (log 36). -/
def Obligations.WindowOrdersMoveOrLearn : Prop :=
  (∀ (s : Sys2Proof.Machine.State) (h : OrderHead) (w t n : HostWord) (c : Corner), s.part.accepts h → w.sound = true →
      t.sound = true → n.sound = true → w.value = BitVec.ofNat 32 c.ctorIdx → (s.part.window c).motion = .stopped →
      (s.part.window c).pending = none → (s.part.monitor c).learn = none →
      let x := s.part.window c
      let bottom := s.part.cfg.softStopOffset
      let top := x.travel - s.part.cfg.softStopOffset
      (∀ aim, (t.value = 0 ∧ aim = bottom) ∨ (t.value = 1 ∧ aim = top) ∨
          (t.value = 2 ∧ n.value.toNat ≤ x.travel ∧ aim = max bottom (min n.value.toNat top)) →
        x.learned = true → s.part.outOfService c = false → x.thermal = false → 1000 ≤ x.travel → bottom ≤ 20 →
        (x.position < aim → s.part.crashSet = false) →
        let there := x.position = aim ∨ (aim = bottom ∧ x.position ≤ bottom) ∨ (aim = top ∧ top ≤ x.position)
        (there → Completes (.moveWindow h w t n) s fun p => p.endedDone h .moveWindow .completed ∧
          p.windows = s.part.windows ∧ p.holders = s.part.holders ∧ s.part.sameOutsideWindows p) ∧
        (¬ there → s.part.waiting = [] → 2 ≤ s.part.unitsFree → Completes (.moveWindow h w t n) s fun p =>
          p.orderStands h .moveWindow ∧ (p.window c).motion = (if x.position < aim then .closing else .opening) ∧
          (p.window c).mode = some .target ∧ (p.window c).target = some aim ∧
          (p.window c).mover = some (.order h.slot) ∧ (p.window c).pending = none ∧ (p.window c).movingFlag = true ∧
          (p.window c).position = x.position ∧
          p.holders = s.part.holders ++ [⟨.window c, 2, .window, s.part.clock, .withinBudget⟩] ∧ p.waiting = [] ∧
          (∀ y, y ≠ c → p.window y = s.part.window y) ∧ s.part.sameOutsideWindows p)) ∧
      (t.value = 3 → Completes (.moveWindow h w t n) s fun p => p.endedDone h .moveWindow .completed ∧
        p.windows = s.part.windows ∧ s.part.sameOutsideWindows p)) ∧
  ∀ (s : Sys2Proof.Machine.State) (h : OrderHead) (w : HostWord) (c : Corner), s.part.accepts h → w.sound = true →
    w.value = BitVec.ofNat 32 c.ctorIdx → (s.part.window c).motion = .stopped → (s.part.window c).pending = none →
    (s.part.monitor c).learn = none → s.part.outOfService c = false → (s.part.window c).thermal = false →
    s.part.crashSet = false → s.part.waiting = [] → 2 ≤ s.part.unitsFree →
    Completes (.learnWindow h w) s fun p => p.orderStands h .learnWindow ∧
      (p.monitor c).learn = some ⟨.down, h.slot, 0, false⟩ ∧ (p.monitor c).watch = none ∧ (p.window c).motion = .opening ∧
      (p.window c).mode = some .manual ∧ (p.window c).mover = some (.order h.slot) ∧ (p.window c).learned = false ∧
      (p.window c).travel = (s.part.window c).travel ∧
      p.holders = s.part.holders ++ [⟨.window c, 2, .window, s.part.clock, .withinBudget⟩] ∧
      (∀ x, x ≠ c → p.window x = s.part.window x) ∧ s.part.sameOutsideWindows p

/-- ENROL_FOB (R143): a sound block with a new fob id, a counter of 28 bits and a flag of 0 or 1 fills the EMPTY record,
the block is cleared, the record waits for its commit and the order stays TAKEN. A record that is not EMPTY is refused
BUSY, and the block is cleared all the same. DISMISS_FOB and SUSPEND_FOB (R144, R145): the record becomes EMPTY, or SUSPENDED
with its retained fields but the state kept, or ENROLLED again, and the order waits TAKEN; an EMPTY record is refused NO-FOB; a
change already made ends COMPLETED. Which of the secret's words is the lowest is the model's choice (log 62). -/
def Obligations.FobOrdersChangeTheirRecord : Prop :=
  (∀ (s : Sys2Proof.Machine.State) (h : OrderHead) (w : HostWord) (f : Fob), s.part.accepts h → w.sound = true →
      w.value = BitVec.ofNat 32 f.ctorIdx → (∀ x, (s.part.fob f).waits = some x → x.slot ≠ h.slot) →
      s.part.blockSound f = true →
      ((s.part.fob f).keep.state = .vacant → s.part.fobOf (s.part.blockWord f 0) = none → s.part.blockWord f 0 ≠ 0 →
        (s.part.blockWord f 5).toNat ≤ 268435455 → (s.part.blockWord f 6).toNat ≤ 1 →
        Completes (.enrolFob h w) s fun p => p.orderStands h .enrolFob ∧
          (p.fob f).keep.state = .enrolled ∧ (p.fob f).keep.id = s.part.blockWord f 0 ∧
          (p.fob f).keep.secret =
            s.part.blockWord f 4 ++ s.part.blockWord f 3 ++ s.part.blockWord f 2 ++ s.part.blockWord f 1 ∧
          (p.fob f).keep.counter.toNat = (s.part.blockWord f 5).toNat ∧ (p.fob f).keep.run = 0 ∧
          (p.fob f).keep.blocked = false ∧ (p.fob f).keep.permitted = decide (s.part.blockWord f 6 = 1) ∧
          (p.fob f).zone = .nowhere ∧ (p.fob f).lastSeen = none ∧ (p.fob f).candidate = none ∧ (p.fob f).lastFrame = none ∧
          (p.fob f).tracker = .idle ∧ (p.fob f).waits.map (·.slot) = some h.slot ∧
          (∀ j, j < 8 → p.blockWord f j = 0) ∧ ∀ g, g ≠ f → (p.fob g).keep = (s.part.fob g).keep) ∧
      ((s.part.fob f).keep.state ≠ .vacant → Completes (.enrolFob h w) s fun p =>
        p.endedRefused h .enrolFob .busy ∧ p.fobs = s.part.fobs ∧ ∀ j, j < 8 → p.blockWord f j = 0)) ∧
  ∀ (s : Sys2Proof.Machine.State) (h : OrderHead) (w r : HostWord) (f : Fob), s.part.accepts h → w.sound = true →
    r.sound = true → w.value = BitVec.ofNat 32 f.ctorIdx → (∀ x, (s.part.fob f).waits = some x → x.slot ≠ h.slot) →
    let k := (s.part.fob f).keep
    (k.state ≠ .vacant → (s.part.fob f).tracker = .idle → Completes (.dismissFob h w) s fun p =>
      p.orderStands h .dismissFob ∧ (p.fob f).keep = FobKeep.vacant ∧ (p.fob f).zone = .nowhere ∧
      (p.fob f).lastSeen = none ∧ (p.fob f).candidate = none ∧ (p.fob f).lastFrame = none ∧
      ∀ g, g ≠ f → (p.fob g).keep = (s.part.fob g).keep) ∧
    (k.state = .vacant → (Completes (.dismissFob h w) s fun p => p.endedRefused h .dismissFob .noFob ∧ p.fobs = s.part.fobs) ∧
      (r.value.toNat < 2 → Completes (.suspendFob h w r) s fun p =>
        p.endedRefused h .suspendFob .noFob ∧ p.fobs = s.part.fobs)) ∧
    (k.state = .enrolled → r.value = 0 → (s.part.fob f).tracker = .idle → Completes (.suspendFob h w r) s fun p =>
      p.orderStands h .suspendFob ∧ (p.fob f).keep = { k with state := .suspended } ∧ (p.fob f).candidate = none ∧
      (p.fob f).lastFrame = none) ∧
    (k.state = .suspended → r.value = 1 → Completes (.suspendFob h w r) s fun p =>
      p.orderStands h .suspendFob ∧ (p.fob f).keep = { k with state := .enrolled }) ∧
    ((k.state = .suspended ∧ r.value = 0) ∨ (k.state = .enrolled ∧ r.value = 1) → Completes (.suspendFob h w r) s fun p =>
      p.endedDone h .suspendFob .completed ∧ p.fobs = s.part.fobs)

/-- COMFORT_CLOSE, COMFORT_OPEN and VENT (R150, R151): with no operation running (and for a close the crash latch clear)
the record holds the kind, the order as origin, the time and the lock result, and the lock action is taken; while one
runs, the order is refused BUSY and changes neither the record nor the doors. -/
def Obligations.CombinedOrdersBeginAnOperation : Prop :=
  ∀ (s : Sys2Proof.Machine.State) (h : OrderHead), s.part.accepts h →
    let starts := fun (p : Sys2Proof.Machine.Part) (k : OpKind) (l : Option LockAction) =>
      ∃ o, p.operation = some o ∧ o.kind = k ∧ o.origin = .order h.slot ∧ o.since = s.part.clock ∧ o.lock = l
    (s.part.sequencerRuns = false →
      (s.part.crashSet = false → Completes (.comfortClose h) s fun p =>
        starts p .comfortClose (some .lock) ∧ ∀ d, (p.door d).lock ≠ .unlocked) ∧
      (Completes (.comfortOpen h) s fun p => starts p .comfortOpen (some .unlock) ∧ ∀ d, (p.door d).lock = .unlocked) ∧
      (Completes (.vent h) s fun p => starts p .vent none ∧ p.doors = s.part.doors)) ∧
    (s.part.sequencerRuns = true →
      (Completes (.comfortClose h) s fun p =>
        p.endedRefused h .comfortClose .busy ∧ p.operation = s.part.operation ∧ p.doors = s.part.doors) ∧
      (Completes (.comfortOpen h) s fun p =>
        p.endedRefused h .comfortOpen .busy ∧ p.operation = s.part.operation ∧ p.doors = s.part.doors) ∧
      (Completes (.vent h) s fun p =>
        p.endedRefused h .vent .busy ∧ p.operation = s.part.operation ∧ p.doors = s.part.doors))

/-- RELEASE_CRASH (R171): with IGN off and the vehicle at STANDSTILL the latch is cleared and the order ends COMPLETED;
with IGN on or the vehicle not at STANDSTILL a set latch stays set and the order is refused VEHICLE-MOVING. CRASH_EVENT (R167
to R169): an assertion of 4 ms with no event taken, in every state but DOZE and START's DRIVERS stage, sets the latch and
raises its count up to 255, unlocks every door, releases both child locks, stops the relock timer, empties the press record,
leaves no window CLOSING and no close pending, and ends a running operation and every hold. That it ends those begun while the
latch was set is the model's choice (log 96). -/
def Obligations.CrashEventOpensTheCarUntilReleased : Prop :=
  (∀ (s : Sys2Proof.Machine.State) (h : OrderHead), s.part.accepts h →
      (s.part.doors.ign = false → s.part.doors.vehicle = .standstill → Completes (.releaseCrash h) s fun p =>
        p.endedDone h .releaseCrash .completed ∧ p.crash.latch = none ∧ p.doors = s.part.doors ∧ p.windows = s.part.windows) ∧
      (s.part.crashSet = true → s.part.doors.ign = true ∨ s.part.doors.vehicle ≠ .standstill →
        Completes (.releaseCrash h) s fun p =>
          p.endedRefused h .releaseCrash .vehicleMoving ∧ p.crash = s.part.crash ∧ p.doors = s.part.doors)) ∧
  ∀ (s : Sys2Proof.Machine.State) (a : Assertion), s.part.crash.assertion = some a → a.taken = false →
    a.since + 4 ≤ s.part.clock → s.part.doorService = true → s.part.state ≠ .doze →
    Completes .crashEvent s fun p =>
      p.crash.assertion = some ⟨a.since, true⟩ ∧
      p.crash.latch = (match s.part.crash.latch with
        | none => some ⟨s.part.clock, 1⟩
        | some l => some ⟨l.since, min 255 (l.count + 1)⟩) ∧
      (∀ d, (p.door d).lock = .unlocked ∧ (p.door d).ajar = (s.part.door d).ajar ∧ (p.door d).fault = (s.part.door d).fault) ∧
      p.doors.childRL = .released ∧ p.doors.childRR = .released ∧ p.doors.relock = none ∧ p.doors.press = none ∧
      p.doors.driveAway = s.part.doors.driveAway ∧ p.doors.vehicle = s.part.doors.vehicle ∧
      (∀ c, (p.window c).motion ≠ .closing ∧ ∀ x, (p.window c).pending = some x → x.cmd.dir = .opening) ∧
      p.sequencerRuns = false ∧ p.state = s.part.state ∧ p.supply = s.part.supply ∧ p.locator = s.part.locator ∧
      ∀ f b t, (p.fob f).tracker ≠ .tracking b t ∧ (p.fob f).tracker ≠ .session b t

/-- The Configuration Page (R201, R202): the word of each item (11.6), and the check that fails, the first in the order of R201's
table, check 0 first; with none, none fails. RECONFIGURE with nothing in motion and every check passing adopts the page and ends
COMPLETED, the running doze dwell keeping its expiry; a failing check refuses it with CONFIG, its number in word 6; with
something in motion it is refused BUSY. A write of 1 to START in HELD enters SERVICE with the page adopted where every
check passes; a failing check leaves the part in HELD with its number, and the CONFIG-FAILED row is handed over. Wherever
it is not adopted, the configuration in force is kept. That the order's burst restarts the dwell before the page is adopted
is the model's reading (log 64). -/
def Obligations.ReconfigureAndStartAdoptThePage : Prop :=
  (∀ p : Sys2Proof.Machine.Part, p.tidy →
    let g := p.page
    let word := fun i => (Memory.readWord p.port.memory i).toNat
    let flag := fun i k => (Memory.readWord p.port.memory i).getLsbD k
    let sound := ∀ i, 272 ≤ i → i < 352 → Memory.readByte p.port.parity i = 0
    (g.relockTime = word 272 ∧ g.selectiveUnlock = flag 273 0 ∧ g.entryUnlocksAll = flag 273 1 ∧ g.driveAwayLock = flag 273 2 ∧
      g.unlockAtIgnitionOff = flag 273 3 ∧ g.latchPulse = word 274 ∧ g.confirmWindow = word 275 ∧ g.pwmFrequency = word 276 ∧
      g.rampTime = word 277 ∧ g.softStopOffset = word 278 ∧ g.slowZone = word 279 ∧ g.ventDepth = word 280 ∧
      g.pinchZone = word 281 ∧ g.absoluteLimit = word 282 ∧ g.pinchRatio = word 283 ∧ g.forceRatio = word 284 ∧
      g.reversalDistance = word 285 ∧ g.heatLimit = word 286 ∧ g.heatResume = word 287 ∧ g.lowEntry = word 288 ∧
      g.lowExit = word 289 ∧ g.criticalEntry = word 290 ∧ g.criticalExit = word 291 ∧ g.normalBudget = word 292 ∧
      g.lowBudget = word 293 ∧ g.dozeDwell = word 294 ∧ g.receiverPeriod = word 295 ∧ g.insideThreshold = word 296 ∧
      g.outsideThreshold = word 297 ∧ g.wakeTouch = flag 298 0 ∧ g.wakePulls = flag 298 1 ∧ g.wakeSwitches = flag 298 2 ∧
      g.wakeRocker = flag 298 3 ∧ g.wakeTailgate = flag 298 4) ∧
    (p.failingCheck = some 0 ↔ ¬ sound) ∧
    (∀ n, 1 ≤ n → (p.failingCheck = some n ↔ sound ∧ (∀ k, k < n → checkPasses g k) ∧ ¬ checkPasses g n)) ∧
    (p.failingCheck = none ↔ sound ∧ ∀ k, checkPasses g k)) ∧
  (∀ (s : Sys2Proof.Machine.State) (h : OrderHead), s.part.accepts h →
    (s.part.quiet = true → s.part.failingCheck = none → Completes (.reconfigure h) s fun p =>
      p.endedDone h .reconfigure .completed ∧ p.cfg = s.part.page ∧ p.check = .passed ∧ p.supply.candidate = none ∧
      p.supply.cls = s.part.supply.cls ∧ p.dwell = some (s.part.clock + s.part.cfg.dozeDwell)) ∧
    (∀ n, s.part.quiet = true → s.part.failingCheck = some n → Completes (.reconfigure h) s fun p =>
      p.endedRefused h .reconfigure .config ∧ p.cfg = s.part.cfg ∧ p.check = .failed n ∧
      Memory.readWord p.port.memory (slotWord h.slot 6) = BitVec.ofNat 32 n) ∧
    (s.part.quiet = false → Completes (.reconfigure h) s fun p =>
      p.endedRefused h .reconfigure .busy ∧ p.cfg = s.part.cfg ∧ p.check = s.part.check)) ∧
  ∀ (s : Sys2Proof.Machine.State) (w : HostWord), s.part.state = .held → s.part.port.served = true → s.part.tidy →
    w.value = 1 →
    (s.part.failingCheck = none → Completes (.memoryWrite 259 [w]) s fun p =>
      p.state = .service ∧ p.check = .passed ∧ p.cfg = s.part.page ∧
      p.dwell = some (s.part.clock + s.part.page.dozeDwell)) ∧
    (∀ n, s.part.failingCheck = some n → Completes (.memoryWrite 259 [w]) s fun p =>
      p.state = .held ∧ p.check = .failed n ∧ p.cfg = s.part.cfg ∧ p.heads = s.part.heads ∧ p.doors = s.part.doors ∧
      p.windows = s.part.windows ∧ s.part.addsRow p (configFailedRow n))

/-- An order of any kind posted on a FREE slot outside SERVICE (R190): in START after its DRIVERS stage, in HELD and in
DOZE it waits POSTED and changes no other head, no door, latch, window or row; in START's DRIVERS stage it is refused
NOT-IN-SERVICE and in SAFE-HOLD SAFE-HOLD, its result words zero and its ORDER row handed over. That a LOCATE-FOB too is refused
in the DRIVERS stage is the model's reading (log 102). -/
def Obligations.OrdersWaitOrAreRefusedOutsideService : Prop :=
  ∀ (c : Instr) (s : Sys2Proof.Machine.State) (h : OrderHead) (k : OrderKind) (ws : List HostWord),
    orderPosted c = some (h, k, ws) → s.part.tidy → s.part.port.served = true → (s.part.head h.slot).state = .free →
    h.sound = true → (∀ w ∈ ws, w.sound = true) →
    let rest := fun p : Sys2Proof.Machine.Part => (∀ x, x ≠ h.slot → p.head x = s.part.head x) ∧ p.doors = s.part.doors ∧
      p.latches = s.part.latches ∧ p.windows = s.part.windows ∧ s.part.sameElsewhere p ∧ p.state = s.part.state
    let refused := fun (p : Sys2Proof.Machine.Part) (r : OrderRefusal) => p.endedRefused h k r ∧ rest p ∧
      Memory.readWord p.port.memory (slotWord h.slot 6) = 0 ∧ Memory.readWord p.port.memory (slotWord h.slot 7) = 0 ∧
      s.part.addsRow p (orderRow h.slot (p.head h.slot) 0)
    ((∃ test stage, s.part.state = .start test stage ∧ stage ≠ .drivers) ∨ s.part.state = .held ∨ s.part.state = .doze →
      Completes c s fun p => p.head h.slot = ⟨.posted, BitVec.ofNat 5 k.code, h.tag, 0⟩ ∧ rest p ∧
        p.scroll = s.part.scroll) ∧
    (∀ test, s.part.state = .start test .drivers → Completes c s fun p => refused p .notInService) ∧
    (s.part.inSafeHold = true → Completes c s fun p => refused p .safeHold)

/-- Head writes (R189, R192). FREE gives a DONE or REFUSED slot back, and a POSTED one in HELD. CANCEL-ASKED on a TAKEN slot,
in a state that keeps the law of the entries (R154), which every step keeps, ends its order CANCELLED in the event, the other
heads and the doors as they stand and every release going on, and its ORDER row is handed over. Any other head write, but POSTED
on a FREE slot, which posts an order, is misuse and changes no head. -/
def Obligations.HeadWritesGiveBackCancelOrAreMisuse : Prop :=
  ∀ (s : Sys2Proof.Machine.State) (slot : Slot) (w : HostWord), s.part.port.served = true → s.part.state ≠ .doze →
    let asks := bitsAt w.value 29 3
    let head := s.part.head slot
    let old := head.state
    (asks = 0 → old = .done ∨ old = .refused ∨ (old = .posted ∧ s.part.state = .held) →
      Completes (.memoryWrite (slotStart slot) [w]) s fun p =>
        p.head slot = .free ∧ (∀ x, x ≠ slot → p.head x = s.part.head x) ∧ p.port.memory = s.part.port.memory ∧
        p.port.misuse = s.part.port.misuse ∧ p.scroll = s.part.scroll) ∧
    (asks = 3 → old = .taken → s.part.entriesFit → Completes (.memoryWrite (slotStart slot) [w]) s fun p =>
      p.head slot = ⟨.done, head.kind, head.tag, BitVec.ofNat 8 OrderOutcome.cancelled.code⟩ ∧
      (∀ x, x ≠ slot → p.head x = s.part.head x) ∧ p.port.misuse = s.part.port.misuse ∧ p.doors = s.part.doors ∧
      (∀ d, (p.latch d).isSome = (s.part.latch d).isSome) ∧ (s.part.tidy → p.reported slot)) ∧
    (¬ ((asks = 0 ∧ (old = .done ∨ old = .refused ∨ (old = .posted ∧ s.part.state = .held))) ∨
        (asks = 3 ∧ old = .taken) ∨ (asks = 1 ∧ old = .free)) →
      Completes (.memoryWrite (slotStart slot) [w]) s fun p =>
        p.heads = s.part.heads ∧ p.port.misuse = true ∧ p.port.memory = s.part.port.memory)

/-! ### Self-test, faults, doze, commits -/

/-- The stage ends without a fatal finding (R198, R199): each, in its own stage, moves START to the next stage or to
HELD, and sets and clears the entries it judged, but for a latch driver that is pulsing; the MEMORY stage
leaves the memory zero but for a GAP row, and served. That a driver counts as pulsing by what it does at the end of the
DRIVERS stage is the model's choice (log 82). -/
def Obligations.SelfTestStagesFollowInOrder : Prop :=
  ∀ s : Sys2Proof.Machine.State,
    (∀ test found, s.part.state = .start test .drivers → found.supplyFault = false →
      Completes (.driversStageEnd found) s fun p =>
        p.state = .start test (match test with | .full => .inputs | .short => .store) ∧
        p.degraded.bridges = found.bridges ∧ p.degraded.halls = s.part.degraded.halls ∧
        ∀ d, (s.part.latch d).map (·.state) ≠ some .pulsing → p.degraded.latches.get d = found.latches.get d) ∧
    (∀ found, s.part.state = .start .full .inputs → exec (.inputsStageEnd found) s = .next { s with part := { s.part with
      degraded := { s.part.degraded with inputs := found.inputs, halls := found.halls }
      state := .start .full .memory } }) ∧
    (s.part.state = .start .full .memory → s.part.scroll = ⟨0, 0, s.part.scroll.mark⟩ →
      Completes (.memoryStageEnd false) s fun p => p.state = .start .full .store ∧ p.port.served = true ∧
        (∀ k, p.head k = .free) ∧ p.port.parity = [] ∧ p.scroll.mark = 0 ∧
        (∀ j, j < 480 ∨ 484 ≤ j → Memory.readWord p.port.memory j = 0) ∧
        (s.part.scroll.mark = 0 → p.port.memory = [] ∧ p.scroll.unread = 0) ∧
        (s.part.scroll.mark ≠ 0 → p.scroll.unread = 1)) ∧
    (∀ test found, s.part.state = .start test .store → s.part.storeUnreadable found = false →
      Completes (.storeStageEnd found) s fun p => p.state = .start test .antennas ∧
        (∀ r, p.degraded.records.get r = s.part.recordBad found r) ∧ p.store.copies = s.part.store.copies ∧
        (test = .full → p.store.ready = true ∧ p.doors.settling = none) ∧
        (test = .short → p.windows = s.part.windows ∧ p.doors = s.part.doors)) ∧
    (∀ test faulty, s.part.state = .start test .antennas → exec (.antennasStageEnd faulty) s =
      .next { s with part := { s.part with
        degraded := { s.part.degraded with antennas := faulty }
        state := .start test .receiver } }) ∧
    (∀ test faulty, s.part.state = .start test .receiver → Completes (.receiverStageEnd faulty) s fun p =>
      p.state = .held ∧ p.degraded = { s.part.degraded with receiver := faulty } ∧ p.doors = s.part.doors)

/-- What the power-on self-test's STORE stage delivers (R27, R74, R90, R131, R148, R208), the store readable as a whole: each
fob its record or EMPTY, its other fields cleared; each window its travel, position and learn state, UNLEARNED where the
moving flag is set, or its defaults; doors, child locks and lockout what the lock record holds, but for what an event has
settled, an open LOCKED or DEADLOCKED door becoming LOCK-PENDING. A record taken as its defaults is dirty or being
committed. The short self-test's stage delivers nothing. That a stored position above the stored travel is delivered uncut is
the model's choice (log 93). -/
def Obligations.StoreStageDeliversTheRecords : Prop :=
  ∀ (s : Sys2Proof.Machine.State) (found : StoreFindings), s.part.storeUnreadable found = false →
    (s.part.state = .start .full .store → Completes (.storeStageEnd found) s fun p =>
      (∀ f, let k := (s.part.readFob found f).getD FobKeep.vacant
        p.fob f = ⟨k, .nowhere, none, none, none, .idle, none⟩) ∧
      (∀ c,
        (∀ k, s.part.readWindow found c = some k → p.window c = { s.part.window c with
          travel := k.travel
          position := k.position
          learned := k.learned && !k.moving }) ∧
        (s.part.readWindow found c = none → p.window c = { s.part.window c with
          travel := 0
          position := 0
          learned := false })) ∧
      (∀ t, s.part.doors.settling = some t →
        let k := (s.part.readLock found).getD ⟨PerDoor.all .unlocked, .engaged, .engaged, false⟩
        p.doors.settling = none ∧ p.lockout = k.lockout ∧
        p.doors.childRL = (if t.childRL then s.part.doors.childRL else k.childRL) ∧
        p.doors.childRR = (if t.childRR then s.part.doors.childRR else k.childRR) ∧
        p.doors = { s.part.doors with
          recs := p.doors.recs
          childRL := p.doors.childRL
          childRR := p.doors.childRR
          settling := none } ∧
        ∀ d, p.door d = { s.part.door d with lock := (p.door d).lock } ∧ (p.door d).lock =
          if t.doors.get d then (s.part.door d).lock
          else if (s.part.door d).ajar = .isOpen ∧ (k.locks.get d = .locked ∨ k.locks.get d = .deadlocked) then .lockPending
          else k.locks.get d) ∧
      (∀ r, s.part.recordBad found r = true →
        r ∈ p.store.dirty ∨ ∃ k, p.store.commit = some k ∧ k.content.record = r) ∧
      p.latches = s.part.latches ∧ p.holders = s.part.holders) ∧
    (s.part.state = .start .short .store → Completes (.storeStageEnd found) s fun p =>
      s.part.sameFobs p ∧ p.windows = s.part.windows ∧ p.doors = s.part.doors ∧ p.lockout = s.part.lockout ∧
      (∀ r, s.part.recordBad found r = true →
        r ∈ p.store.dirty ∨ ∃ k, p.store.commit = some k ∧ k.content.record = r))

/-- The part's faults lead to SAFE-HOLD with their hold codes (R199, R205): a bridge supply fault 2, a memory fault 1,
an unreadable store 3, a part word's parity error 4, and 5 at the second of two time base comparisons in a row off by
more than 3 %. In SAFE-HOLD a later parity error changes nothing. The microseconds a
time base comparison carries are the model's choice (log 24). -/
def Obligations.PartFaultsEnterSafeHold : Prop :=
  ∀ s : Sys2Proof.Machine.State,
    (∀ test found, s.part.state = .start test .drivers → found.supplyFault = true →
      Completes (.driversStageEnd found) s fun p => p.state = .safeHold .supplyFault ∧ p.holdCode = 2) ∧
    (s.part.state = .start .full .memory →
      Completes (.memoryStageEnd true) s fun p => p.state = .safeHold .memoryFault ∧ p.holdCode = 1) ∧
    (∀ test found, s.part.state = .start test .store → s.part.storeUnreadable found = true →
      Completes (.storeStageEnd found) s fun p => p.state = .safeHold .storeFault ∧ p.holdCode = 3) ∧
    (s.part.inSafeHold = false → Completes .partWordParityError s fun p =>
      p.state = .safeHold .parityFault ∧ p.holdCode = 4 ∧ p.doors.relock = none ∧ p.doors.press = none ∧
      (∀ c, (p.window c).motion = .stopped ∧ (p.window c).pending = none ∧ (p.monitor c).watch = none) ∧
      p.locator.list = [] ∧ p.locator.flight = none ∧ (∀ f, (p.fob f).tracker = .idle) ∧ p.dwell = none) ∧
    (s.part.inSafeHold = true → exec .partWordParityError s = .next s) ∧
    (∀ us, 97000 ≤ us → us ≤ 103000 →
      exec (.timeBaseCheck us) s = .next { s with part := { s.part with timeBaseBad := false } }) ∧
    (∀ us, us < 97000 ∨ 103000 < us → s.part.timeBaseBad = false →
      exec (.timeBaseCheck us) s = .next { s with part := { s.part with timeBaseBad := true } }) ∧
    (∀ us, us < 97000 ∨ 103000 < us → s.part.timeBaseBad = true → s.part.inSafeHold = false →
      Completes (.timeBaseCheck us) s fun p => p.state = .safeHold .timeBaseFault ∧ p.holdCode = 5)

/-- The doze dwell's expiry in SERVICE enters DOZE where R203's conditions hold, its DOZE-ENTERED row handed over, and
restarts the dwell where they do not; a re-reference watch still running ends as DOZE is entered (R95); in DOZE each
receiver period opens a listen window of 5 ms. WOKE (R204): the dozing part with a wake under way returns to SERVICE, or, where a
port reset was held for the wake, goes on to its short self-test. With nothing held nor posted the WOKE row is handed over, the
dwell starts, every switch away from NEUTRAL is marked spent (R52) and all else stays; a crash event held is taken (R170). An
input event held (R180), and an order posted (R190), while the part wakes are served as the same event, or the same order,
taken right after WOKE; so is a frame that is held, judged again at the time it was heard. Where a listen window opens in its
period, the order of what follows the WOKE row, that the watch ends, what the row shows for CRASH, WAKE-WRITE and LINK beside the
cause, and that second judgement are the model's choices (logs 25, 19, 68, 97, 20). -/
def Obligations.DozeIsEnteredAtRestAndLeftByWoke : Prop :=
  ∀ s : Sys2Proof.Machine.State,
    (s.part.state = .service → due s.part.dwell s.part.clock = true → s.part.mayDoze = true →
      Completes .dozeDwellExpiry s fun p => p.state = .doze ∧ p.dwell = none ∧
        p.listen = some ⟨s.part.cfg.receiverPeriod, s.part.clock, none⟩ ∧ p.lfDrivers = false ∧
        p.doors = s.part.doors ∧ p.windows = s.part.windows ∧ p.fobs = s.part.fobs ∧ p.store = s.part.store ∧
        (∀ c, p.monitor c = { s.part.monitor c with watch := none }) ∧
        (s.part.tidy → s.part.addsRow p dozeEnteredRow)) ∧
    (s.part.state = .service → due s.part.dwell s.part.clock = true → s.part.mayDoze = false →
      exec .dozeDwellExpiry s =
        .next { s with part := { s.part with dwell := some (s.part.clock + s.part.cfg.dozeDwell) } }) ∧
    (∀ l, s.part.listen = some l → l.next ≤ s.part.clock → exec .listenWindow s = .next { s with part := { s.part with
      listen := some { l with next := l.next + max 1 l.period, openUntil := some (s.part.clock + 5) } } }) ∧
    (∀ w, s.part.state = .doze → s.part.waking = some w → Completes .woke s fun p => p.waking = none ∧ p.listen = none ∧
      p.state = (if w.resetHeld then .start .short .drivers else .service) ∧
      (w.resetHeld = false → p.dwell.isSome = true) ∧ p.driverDoor = s.part.driverDoor) ∧
    (∀ w, s.part.state = .doze → s.part.waking = some w → w.held = [] → w.resetHeld = false →
      (∀ k, (s.part.head k).state ≠ .posted) → s.part.tidy →
      let servedAfterWoke := fun e : Instr => ∃ t u v : Sys2Proof.Machine.State,
        exec e s = .next t ∧ exec .woke t = .next u ∧ exec .woke s = .next v ∧ exec e v = .next u
      (w.crashHeld = true → Completes .woke s fun p => (∀ d, (p.door d).lock = .unlocked) ∧
        p.crash.latch = (match s.part.crash.latch with
          | none => some ⟨s.part.clock, 1⟩
          | some l => some ⟨l.since, min 255 (l.count + 1)⟩)) ∧
      (w.crashHeld = false →
        (Completes .woke s fun p => s.part.addsRow p (wokeRow s.part.driverDoor w.cause) ∧
          p.dwell = some (s.part.clock + s.part.cfg.dozeDwell) ∧
          (∀ sw, p.spent.get sw = (s.part.spent.get sw || decide ((s.part.input (.switch sw)).level ≠ .rest))) ∧
          p = { s.part with
            state := .service
            waking := none
            listen := none
            dwell := p.dwell
            spent := p.spent
            scroll := p.scroll
            port := { s.part.port with memory := p.port.memory } }) ∧
        (∀ i l e, inputCommand i l = some e → s.part.settledLevel i l = true → s.part.muted i = false →
          ((∃ sw, i = .switch sw) → (s.part.input i).level = .rest) → servedAfterWoke e) ∧
        (∀ c h k ws, orderPosted c = some (h, k, ws) → s.part.port.served = true → (s.part.head h.slot).state = .free →
          servedAfterWoke c) ∧
        (∀ fr, (∃ t, exec (.remoteFrame fr) s = .next t ∧ t.part.waking.map (·.held) = some [.frame fr s.part.clock]) →
          servedAfterWoke (.remoteFrame fr))))

/-- Commits (R207): the oldest dirty record leaves the set with its owner's contents and 6 ms to go; at its end its copy
is the newer one and the newer before is the older. A fob order that waits for its record waits for the first commit that
begins after its change, and ends DONE with COMPLETED as that commit ends (R146); a record that changed during its commit is
then dirty again or being committed. That COMMIT_START begins a commit of itself is the model's reading (log 12). -/
def Obligations.CommitsWriteTheOldestRecord : Prop :=
  ∀ s : Sys2Proof.Machine.State,
    (∀ r rest, s.part.store.dirty = r :: rest → s.part.store.commit = none → s.part.critical = false →
      s.part.store.ready = true → Completes .commitStart s fun p =>
        p.store.dirty = rest ∧ p.store.commit = some ⟨s.part.contentOf r, s.part.clock + 6, false⟩ ∧
        p.store.copies = s.part.store.copies ∧ p.doors = s.part.doors ∧ p.windows = s.part.windows ∧
        s.part.sameFobs p ∧ (∀ f, r = .fob f → (p.fob f).waits = (s.part.fob f).waits.map fun x => ⟨x.slot, true⟩) ∧
        ∀ f, r ≠ .fob f → p.fob f = s.part.fob f) ∧
    (∀ k, s.part.store.commit = some k → k.due ≤ s.part.clock → Completes .commitEnd s fun p =>
      p.store.copies = s.part.store.copies.commit k.content ∧ p.doors = s.part.doors ∧ p.windows = s.part.windows ∧
      (k.changed = false → s.part.store.dirty = [] → p.store.dirty = [] ∧ p.store.commit = none) ∧
      (k.changed = true → k.content.record ∈ p.store.dirty ∨
        ∃ j, p.store.commit = some j ∧ j.content.record = k.content.record ∧ j.due = s.part.clock + 6) ∧
      (∀ f x, k.content = .fob f x → (s.part.fob f).keep = (p.fob f).keep ∧
        (∀ n, (s.part.fob f).waits = some ⟨n, true⟩ → (p.fob f).waits = none ∧ p.head n =
          { s.part.head n with state := .done, code := BitVec.ofNat 8 OrderOutcome.completed.code }) ∧
        (∀ n, (s.part.fob f).waits = some ⟨n, false⟩ → (p.fob f).waits.map (·.slot) = some n ∧ p.heads = s.part.heads))) ∧
    ∀ l : StoredCopies,
      (∀ x, l.commit (.lock x) = { l with lock := ⟨some x, l.lock.newer⟩ }) ∧
      (∀ f x, l.commit (.fob f x) = { l with fobs := l.fobs.set f ⟨some x, (l.fobs.get f).newer⟩ }) ∧
      ∀ c x, l.commit (.window c x) = { l with windows := l.windows.set c ⟨some x, (l.windows.get c).newer⟩ }

/-! ### Inputs, doors, latches -/

/-- A raw level's change starts the debounce count, a return to the debounced level ends it (R173); the CRASH line is
followed without debounce and its assertion record with it (R166). INPUT_STUCK (R178): a due stuck timer marks the input
STUCK in every part state, and the level shown stays; for an input that is STUCK already or whose circuit is faulty nothing
happens. -/
def Obligations.RawLevelsAndStuckTimersAreFollowed : Prop :=
  (∀ s : Sys2Proof.Machine.State,
      (∀ i l, l.fits i = true → inputPresent s.part.driverDoor i = true → i ≠ .crash → l ≠ (s.part.input i).raw →
        Completes (.rawInputChange i l) s fun p =>
          p.input i = { s.part.input i with
            raw := l
            since := if l = (s.part.input i).level then none else some s.part.clock } ∧
          (∀ j, j ≠ i → p.input j = s.part.input j) ∧ p = { s.part with inputs := p.inputs }) ∧
      (∀ on : Bool, s.part.doorService = true → s.part.degraded.inputs.crash = false → s.part.state ≠ .doze →
        (s.part.input .crash).raw ≠ twoLevel on → Completes (.crashLineChange on) s fun p =>
          (p.input .crash).raw = twoLevel on ∧ (p.input .crash).level = twoLevel on ∧
          p.crash = { s.part.crash with assertion := if on then some ⟨s.part.clock, false⟩ else none } ∧
          p.doors = s.part.doors ∧ p.windows = s.part.windows)) ∧
  ∀ (s : Sys2Proof.Machine.State) (i : Input), due (s.part.input i).stuckAt s.part.clock = true →
    (s.part.muted i = false → Completes (.inputStuck i) s fun p =>
      (p.input i).stuck = true ∧ (p.input i).stuckAt = none ∧ (p.input i).level = (s.part.input i).level ∧
      (∀ j, j ≠ i → p.input j = s.part.input j) ∧ p.state = s.part.state) ∧
    (s.part.muted i = true → exec (.inputStuck i) s = .next s)

/-- AJAR_CHANGE in SERVICE (R2, R18): an opening makes a LOCKED or DEADLOCKED door LOCK-PENDING and stops the relock
timer, a closing makes a LOCK-PENDING door LOCKED; the other doors stay. An opening with a release in flight ends it OPENED
(R37 to R41): its outcome, a latch fault HELD cleared (R3), its unit or its waiting entry given up, and its orders DONE with
OPENED; the arbiter's list holds nothing but entries of that latch, and those only in WAITING and RETRY. -/
def Obligations.AjarChangeMovesTheLockState : Prop :=
  (∀ (s : Sys2Proof.Machine.State) (d : Door) (a : Ajar),
    s.part.ready (.ajar d) (twoLevel (decide (a = .isOpen))) → s.part.latch d = none ∨ a = .isClosed →
    Completes (.ajarChange d a) s fun p =>
      (p.door d).ajar = a ∧
      (p.door d).lock = (match a, (s.part.door d).lock with
        | .isOpen, .locked | .isOpen, .deadlocked => .lockPending
        | .isClosed, .lockPending => .locked
        | _, l => l) ∧
      (p.door d).outcome = (s.part.door d).outcome ∧ (p.door d).fault = (s.part.door d).fault ∧
      (∀ x, x ≠ d → p.door x = s.part.door x) ∧ p.doors.childRL = s.part.doors.childRL ∧
      p.doors.childRR = s.part.doors.childRR ∧ p.latches = s.part.latches ∧ p.windows = s.part.windows ∧
      p.doors.relock = (match a with | .isOpen => none | .isClosed => s.part.doors.relock) ∧
      p.dwell = some (s.part.clock + s.part.cfg.dozeDwell)) ∧
  ∀ (s : Sys2Proof.Machine.State) (d : Door) (op : ReleaseOp), s.part.ready (.ajar d) .l1 → s.part.latch d = some op →
    (∀ w ∈ s.part.waiting, w.actuator = .latch d ∧ (op.state = .waiting ∨ op.state = .retry)) →
    Completes (.ajarChange d .isOpen) s fun p =>
      (p.door d).ajar = .isOpen ∧ (p.door d).outcome = some .opened ∧
      (p.door d).fault = (if (s.part.door d).fault = .held then .sound else (s.part.door d).fault) ∧
      (p.door d).lock = (if (s.part.door d).lock = .unlocked then .unlocked else .lockPending) ∧
      (∀ x, x ≠ d → p.door x = s.part.door x) ∧ p.doors.relock = none ∧ p.latch d = none ∧
      (∀ x, x ≠ d → p.latch x = s.part.latch x) ∧ p.waiting = [] ∧
      (∀ h, h ∈ p.holders ↔ h ∈ s.part.holders ∧ (op.state = .pulsing → h.actuator ≠ .latch d)) ∧
      (∀ k ∈ op.orders, p.head k =
        { s.part.head k with state := .done, code := BitVec.ofNat 8 OrderOutcome.opened.code }) ∧
      ∀ k, k ∉ op.orders → p.head k = s.part.head k

/-- Outer pulls, the tailgate button and touches. An outer pull and the tailgate button on an UNLOCKED CLOSED door whose latch is
sound and IDLE, with a unit free and nothing waiting, pulse the latch (R32, R33, R37, R38). A pull on a LOCKED or DEADLOCKED door
sets its pending pull where an ENTRY request for the door is listed or in flight, and else is refused OUTER-REFUSED (R177, R122,
R32). A press on a LOCKED or DEADLOCKED tailgate starts its TAILGATE search in SERVICE and is refused OUTER-REFUSED elsewhere
(R33). A pull or press on an OPEN LOCK-PENDING door does nothing. Touches (R176, R110 to R114): a touch on a LOCKED or
DEADLOCKED door starts its ENTRY search, on another door none, and a lock-touch its LOCK search; a search starts with the
receiver and every antenna sound, the class not CRITICAL and no search listed or in flight. That a press on a LOCK-PENDING tailgate
writes no row in any part state, and that a LOCKED or DEADLOCKED one is refused OUTER-REFUSED in START too, are the model's
readings (log 34). -/
def Obligations.TouchesAndPullsActOnTheirDoor : Prop :=
  (∀ s : Sys2Proof.Machine.State, s.part.waiting = [] → 1 ≤ s.part.unitsFree →
      let opens := fun d : Door => (s.part.door d).lock = .unlocked ∧ (s.part.door d).ajar = .isClosed ∧
        (s.part.door d).fault ≠ .driver ∧ s.part.latch d = none
      (∀ c : Corner, s.part.ready (.outer c) .l1 → opens c.toDoor → Completes (.outerPull c true) s fun p =>
        p.latch c.toDoor = some ⟨.pulsing, false, .release, ⟨true, false, false, false, false⟩, [],
          some (s.part.clock + s.part.cfg.latchPulse)⟩ ∧
        (∀ x, x ≠ c.toDoor → p.latch x = s.part.latch x) ∧ p.doors = s.part.doors ∧ s.part.sameElsewhere p) ∧
      (s.part.ready .tailgate .l1 → opens .tg → Completes (.tailgateButton true) s fun p =>
        p.latch .tg = some ⟨.pulsing, false, .release, ⟨false, false, true, false, false⟩, [],
          some (s.part.clock + s.part.cfg.latchPulse)⟩ ∧
        (∀ x, x ≠ .tg → p.latch x = s.part.latch x) ∧ p.doors = s.part.doors ∧ s.part.sameElsewhere p)) ∧
  (∀ s : Sys2Proof.Machine.State, s.part.inSafeHold = false →
    let stays := fun p : Sys2Proof.Machine.Part => p.doors = s.part.doors ∧ p.latches = s.part.latches ∧
      p.holders = s.part.holders ∧ p.waiting = s.part.waiting ∧ p.heads = s.part.heads ∧ s.part.sameElsewhere p
    let refused := fun (p : Sys2Proof.Machine.Part) (d : Door) => stays p ∧
      (s.part.tidy → s.part.addsRow p (outerRefusedRow d (s.part.door d).lock))
    let pending := fun d : Door => (s.part.door d).lock = .lockPending ∧ (s.part.door d).ajar = .isOpen
    (∀ c : Corner, s.part.hears (.outer c) .l1 →
      let d := c.toDoor
      let sought := ∃ r : Request, (r ∈ s.part.locator.list ∨ ∃ f, s.part.locator.flight = some f ∧ f.request = r) ∧
        r.purpose = .entry ∧ r.door = some d
      ((s.part.door d).lock.barred = true → sought → Completes (.outerPull c true) s fun p =>
        p.doors = { s.part.doors with recs := p.doors.recs } ∧
        (∀ x, p.door x = if x = d then { s.part.door x with pull := true } else s.part.door x) ∧
        p.latches = s.part.latches ∧ p.holders = s.part.holders ∧ p.scroll = s.part.scroll ∧ s.part.sameElsewhere p) ∧
      ((s.part.door d).lock.barred = true → ¬ sought → Completes (.outerPull c true) s fun p => refused p d) ∧
      (pending d → Completes (.outerPull c true) s fun p => stays p ∧ p.scroll = s.part.scroll)) ∧
    (s.part.hears .tailgate .l1 →
      ((s.part.door .tg).lock.barred = true → s.part.state ≠ .service →
        Completes (.tailgateButton true) s fun p => refused p .tg) ∧
      (pending .tg → Completes (.tailgateButton true) s fun p => stays p ∧ p.scroll = s.part.scroll)) ∧
    (∀ c : Corner, s.part.ready (.touch c) .l1 → (s.part.door c.toDoor).lock.barred = false →
      Completes (.outerTouch c true) s fun p => stays p ∧ p.scroll = s.part.scroll)) ∧
  ∀ s : Sys2Proof.Machine.State, s.part.degraded.receiver = false → (∀ a, s.part.degraded.antennas.get a = false) →
    s.part.supply.cls ≠ .critical → s.part.locator.list = [] → s.part.locator.flight = none →
    let started := fun (p : Sys2Proof.Machine.Part) (u : Purpose) (d : Door) => (∃ f, p.locator.flight = some f ∧
      f.request.purpose = u ∧ f.request.door = some d ∧ f.phase = .transmit .afl ∧ f.phaseEnd = s.part.clock + 14 ∧
      (∀ a, f.used.get a = true) ∧ p.locator.list = []) ∧ p.doors = s.part.doors ∧ p.latches = s.part.latches
    (∀ c, s.part.ready (.touch c) .l1 → (s.part.door c.toDoor).lock.barred = true →
      Completes (.outerTouch c true) s fun p => started p .entry c.toDoor) ∧
    (∀ f, s.part.ready (.lockTouch f) .l1 → Completes (.lockTouch f true) s fun p =>
      started p .lock f.toCorner.toDoor) ∧
    (s.part.ready .tailgate .l1 → (s.part.door .tg).lock.barred = true → Completes (.tailgateButton true) s fun p =>
      started p .tailgate .tg)

/-- An inner handle pull (R35, R36, R42), in START after its DRIVERS stage, HELD, SERVICE and SAFE-HOLD: on a CLOSED door that
is UNLOCKED or LOCKED with its child lock not ENGAGED the door is UNLOCKED, and an IDLE latch is PULSING with precedence
ESCAPE and an escape holder when the event ends, whatever the supply, the latch fault, the crash latch and the holders; a
release in flight is raised to ESCAPE, a waiting one pulsing at once. On a DEADLOCKED or child-locked door no latch changes.
In DOZE the pull wakes the part and is held (R180). -/
def Obligations.InnerPullPulsesUnlessDeadlockedOrChildLocked : Prop :=
  ∀ (s : Sys2Proof.Machine.State) (c : Corner),
    let d := c.toDoor
    let escapes := fun p : Sys2Proof.Machine.Part => ∃ h ∈ p.holders, h.actuator = .latch d ∧ h.prec = .escape
    (s.part.hears (.inner c) .l1 → (s.part.door d).ajar = .isClosed →
      ((s.part.door d).lock = .unlocked ∨ (s.part.door d).lock = .locked → s.part.doors.childLock d ≠ some .engaged →
        (s.part.latch d = none → Completes (.innerHandlePull c true) s fun p => (p.door d).lock = .unlocked ∧ escapes p ∧
          p.latch d = some ⟨.pulsing, false, .escape, ⟨false, true, false, false, false⟩, [],
            some (s.part.clock + s.part.cfg.latchPulse)⟩ ∧ ∀ x, x ≠ d → p.door x = s.part.door x) ∧
        (∀ op, s.part.latch d = some op → op.prec = .release →
          (op.state = .waiting ∨ op.state = .retry → Completes (.innerHandlePull c true) s fun p =>
            (p.door d).lock = .unlocked ∧ escapes p ∧ p.latch d = some { op with
              state := .pulsing
              prec := .escape
              sources := { op.sources with inner := true }
              timer := some (s.part.clock + s.part.cfg.latchPulse) } ∧ ∀ w ∈ p.waiting, w.actuator ≠ .latch d) ∧
          (op.state = .pulsing ∨ op.state = .confirming → (∀ w ∈ s.part.waiting, w.actuator ≠ .latch d) →
            Completes (.innerHandlePull c true) s fun p => (p.door d).lock = .unlocked ∧
              p.latch d = some { op with prec := .escape, sources := { op.sources with inner := true } } ∧
              (op.state = .pulsing → ∀ h ∈ p.holders, h.actuator = .latch d → h.prec = .escape)))) ∧
      ((s.part.door d).lock = .deadlocked ∨ s.part.doors.childLock d = some .engaged →
        Completes (.innerHandlePull c true) s fun p => p.latches = s.part.latches ∧ p.doors = s.part.doors ∧
          p.holders = s.part.holders ∧ p.windows = s.part.windows)) ∧
    (s.part.state = .doze → s.part.waking = none → s.part.settledLevel (.inner c) .l1 = true →
      (s.part.input (.inner c)).level = .rest → (s.part.input (.inner c)).stuck = false →
      s.part.degraded.inputs.get (.inner c) = false → Completes (.innerHandlePull c true) s fun p =>
        p.waking = some ⟨.input (.inner c), s.part.clock, [.input (.inner c) .rest .l1], false, false⟩ ∧
        p.state = .doze ∧ p.doors = s.part.doors ∧ p.latches = s.part.latches)

/-- A switch's move from NEUTRAL to a stage (R52 to R54, R58 to R62, R82, R84): on a sound window at rest, not thermally
blocked and not learning, the switch not spent nor locked out, 2 units free and nothing waiting, a close with the crash latch
clear. A first stage moves the window in MANUAL; a second stage moves it in EXPRESS, or where the window is UNLEARNED or its
pinch lockout stands against the close in MANUAL, or not at all at its soft stop. A MANUAL close takes an armed force. -/
def Obligations.SwitchStagesMoveTheWindow : Prop :=
  ∀ (s : Sys2Proof.Machine.State) (sw : Switch) (st : Stage) (dir : Direction), Stage.dir st = some dir →
    s.part.ready (.switch sw) (stageLevel st) → (s.part.input (.switch sw)).level = .rest →
    let c := sw.window
    let w := s.part.window c
    let m := s.part.monitor c
    s.part.spent.get sw = false → (s.part.lockout = false ∨ ∃ x, sw = .master x) → s.part.outOfService c = false →
    w.motion = .stopped → w.pending = none → w.thermal = false → m.learn = none → s.part.waiting = [] →
    2 ≤ s.part.unitsFree → (dir = .closing → s.part.crashSet = false) →
    let second := st = .up2 ∨ st = .down2
    let standsIn := second ∧ (w.learned = false ∨ (dir = .closing ∧ w.pinchLockout = true))
    let atStop := (dir = .closing ∧ w.travel - s.part.cfg.softStopOffset ≤ w.position) ∨
      (dir = .opening ∧ w.position ≤ s.part.cfg.softStopOffset)
    let force := dir = .closing ∧ m.forceArmed.isSome = true
    let moves := fun (p : Sys2Proof.Machine.Part) (mode : Mode) (for_ : Bool) => (p.window c).motion = dir.motion ∧
      (p.window c).mode = some mode ∧ (p.window c).mover = some (Switch.mover sw) ∧ (p.window c).forExpress = for_ ∧
      (p.window c).pending = none ∧ (p.window c).movingFlag = true ∧ (p.window c).position = w.position ∧
      (p.window c).learned = w.learned ∧ (p.monitor c).stallAt = some (s.part.clock + 200) ∧
      (p.monitor c).baseline = [] ∧ (p.monitor c).settled = false ∧ (p.monitor c).watch = none ∧
      p.holders = s.part.holders ++ [⟨.window c, 2, .window, s.part.clock, .withinBudget⟩] ∧
      (∀ x, x ≠ c → p.window x = s.part.window x) ∧ s.part.sameOutsideWindows p
    let keepsForce := fun p : Sys2Proof.Machine.Part => (p.monitor c).forceInUse = m.forceInUse ∧
      (p.monitor c).forceArmed = m.forceArmed ∧ (p.monitor c).history = m.history
    (¬ second ∨ standsIn → Completes (.windowSwitchChange sw st) s fun p =>
      moves p .manual (decide (st = .up2 ∨ st = .down2)) ∧
      (force → (p.monitor c).forceInUse = true ∧ (p.monitor c).forceArmed = none ∧ (p.monitor c).history = []) ∧
      (¬ force → keepsForce p)) ∧
    (second → ¬ standsIn → ¬ atStop → Completes (.windowSwitchChange sw st) s fun p =>
      moves p .express false ∧ keepsForce p) ∧
    (second → ¬ standsIn → atStop → Completes (.windowSwitchChange sw st) s fun p =>
      p.windows = s.part.windows ∧ p.holders = s.part.holders ∧ s.part.sameOutsideWindows p)

/-- Commands on a window that moves OPENING or CLOSING, not for a learn, with no pending command and nothing waiting. A switch
that makes commands, back at NEUTRAL, stops its own MANUAL move with SWITCH-RELEASED and leaves any other (R53); eased from stage
2 to stage 1 it makes none (R52); against an EXPRESS move of a switch it stops it with SWITCH-RELEASED and is spent (R55). A first
stage on a sound window: with the motion the switch takes the move over in MANUAL without a stop; against a MANUAL or TARGET
move it turns the window in its grant, the move stopped OVERRIDDEN (R58, R59). A second stage on a LEARNED one does so in EXPRESS,
or stops the move with END at its soft stop (R54). MOVE_WINDOW on a sound LEARNED window does so in TARGET towards its target;
where that is reached it stops the move, with END at a soft stop, else TARGET, and ends COMPLETED (R69); STOP stops the move with
CANCELLED (R70). An order that loses the window ends OVERRIDDEN. That the target taken within the soft stops gives the
direction, decides whether the crash latch bars the move, and is what the position is held against is the model's reading (log
36). -/
def Obligations.CommandsActOnAMovingWindow : Prop :=
  ∀ (s : Sys2Proof.Machine.State) (c : Corner),
    let w := s.part.window c
    let m := s.part.monitor c
    let bottom := s.part.cfg.softStopOffset
    let top := w.travel - s.part.cfg.softStopOffset
    w.motion = .opening ∨ w.motion = .closing → w.pending = none → m.learn = none → s.part.waiting = [] →
    w.position ≤ w.travel →
    let others := fun p : Sys2Proof.Machine.Part => (∀ x, x ≠ c → p.window x = s.part.window x) ∧ s.part.sameOutsideWindows p
    let lost := fun p : Sys2Proof.Machine.Part => ∀ k, w.mover = some (.order k) →
      p.head k = { s.part.head k with state := .done, code := BitVec.ofNat 8 OrderOutcome.overridden.code }
    let stops := fun (p : Sys2Proof.Machine.Part) (r : StopReason) => others p ∧ lost p ∧
      p.window c = { w with
        motion := .stopped
        mode := none
        target := none
        mover := none
        forExpress := false
        lastStop := some r
        movingFlag := false
        coast := some ⟨s.part.clock + 100, if w.motion = .opening then .opening else .closing⟩
        lastPulse := none
        ramp := none } ∧
      (p.monitor c).stallAt = none ∧ (p.monitor c).baseline = [] ∧ (p.monitor c).forceInUse = false ∧
      ∀ h, h ∈ p.holders ↔ h ∈ s.part.holders ∧ h.actuator ≠ .window c
    let takenOver := fun (p : Sys2Proof.Machine.Part) (v : Mover) (mode : Mode) (t : Option Nat) => others p ∧ lost p ∧
      p.window c = { w with mover := some v, mode := some mode, target := t, forExpress := false } ∧
      (p.monitor c).stallAt = m.stallAt ∧ p.holders = s.part.holders
    let turned := fun (p : Sys2Proof.Machine.Part) (v : Mover) (mode : Mode) (t : Option Nat) => others p ∧ lost p ∧
      p.window c = { w with
        motion := if w.motion = .opening then .closing else .opening
        mode := some mode
        target := t
        mover := some v
        forExpress := false
        lastStop := some .overridden
        movingFlag := true
        idle := 0
        coast := none
        lastPulse := none
        ramp := some ⟨s.part.clock, s.part.clock + s.part.cfg.rampTime⟩ } ∧
      (p.monitor c).stallAt = some (s.part.clock + 200) ∧ (p.monitor c).baseline = [] ∧ (p.monitor c).settled = false ∧
      p.holders = s.part.holders
    (∀ sw st, sw.window = c → s.part.ready (.switch sw) (stageLevel st) → s.part.spent.get sw = false →
      s.part.lockout = false ∨ (∃ x, sw = .master x) →
      let eases := ∃ d, Stage.dir st = some d ∧ (st = .up1 ∨ st = .down1) ∧
        Stage.dir (levelStage (s.part.input (.switch sw)).level) = some d
      let keeps := fun p : Sys2Proof.Machine.Part => p.windows = s.part.windows ∧ p.holders = s.part.holders ∧
        p.heads = s.part.heads ∧ s.part.sameOutsideWindows p
      (st = .neutral → w.mover = some (Switch.mover sw) → w.mode = some .manual →
        Completes (.windowSwitchChange sw st) s fun p => stops p .switchReleased ∧ p.heads = s.part.heads) ∧
      (st = .neutral → w.mover ≠ some (Switch.mover sw) ∨ w.mode ≠ some .manual →
        Completes (.windowSwitchChange sw st) s keeps) ∧
      (eases → Completes (.windowSwitchChange sw st) s keeps) ∧
      (∀ d, Stage.dir st = some d → ¬ eases → d.motion ≠ w.motion → w.mode = some .express →
        w.mover = some .doorSwitch ∨ w.mover = some .masterSwitch →
        Completes (.windowSwitchChange sw st) s fun p => stops p .switchReleased ∧ p.heads = s.part.heads ∧
          p.spent.get sw = true) ∧
      (∀ d, Stage.dir st = some d → st = .up1 ∨ st = .down1 → ¬ eases → s.part.outOfService c = false →
        (d = .closing → s.part.crashSet = false) →
        (d.motion = w.motion → Completes (.windowSwitchChange sw st) s fun p => takenOver p (Switch.mover sw) .manual none) ∧
        (d.motion ≠ w.motion → w.mode = some .manual ∨ w.mode = some .target →
          Completes (.windowSwitchChange sw st) s fun p => turned p (Switch.mover sw) .manual none)) ∧
      (∀ d, Stage.dir st = some d → st = .up2 ∨ st = .down2 → s.part.outOfService c = false →
        (d = .closing → s.part.crashSet = false ∧ w.pinchLockout = false) → w.learned = true →
        let atStop := (d = .closing ∧ top ≤ w.position) ∨ (d = .opening ∧ w.position ≤ bottom)
        d.motion = w.motion ∨ w.mode = some .manual ∨ w.mode = some .target →
        (atStop → Completes (.windowSwitchChange sw st) s fun p => stops p .atEnd) ∧
        (¬ atStop → d.motion = w.motion → Completes (.windowSwitchChange sw st) s fun p =>
          takenOver p (Switch.mover sw) .express none) ∧
        (¬ atStop → d.motion ≠ w.motion → Completes (.windowSwitchChange sw st) s fun p =>
          turned p (Switch.mover sw) .express none))) ∧
    ∀ (h : OrderHead) (x t n : HostWord), s.part.accepts h → x.sound = true → t.sound = true → n.sound = true →
      x.value = BitVec.ofNat 32 c.ctorIdx → w.mover ≠ some (.order h.slot) →
      (t.value = 3 → Completes (.moveWindow h x t n) s fun p => p.endedDone h .moveWindow .completed ∧ stops p .cancelled) ∧
      ∀ aim, (t.value = 0 ∧ aim = bottom) ∨ (t.value = 1 ∧ aim = top) ∨
          (t.value = 2 ∧ n.value.toNat ≤ w.travel ∧ aim = max bottom (min n.value.toNat top)) →
        w.learned = true → s.part.outOfService c = false → 1000 ≤ w.travel → bottom ≤ 20 →
        (w.position < aim → s.part.crashSet = false) →
        let there := w.position = aim ∨ (aim = bottom ∧ w.position ≤ bottom) ∨ (aim = top ∧ top ≤ w.position)
        let onward := (w.motion = .closing ∧ w.position < aim) ∨ (w.motion = .opening ∧ aim < w.position)
        (there → Completes (.moveWindow h x t n) s fun p => p.endedDone h .moveWindow .completed ∧
          stops p (if aim = bottom ∨ aim = top then .atEnd else .target)) ∧
        (¬ there → onward → Completes (.moveWindow h x t n) s fun p =>
          p.orderStands h .moveWindow ∧ takenOver p (.order h.slot) .target (some aim)) ∧
        (¬ there → ¬ onward → Completes (.moveWindow h x t n) s fun p =>
          p.orderStands h .moveWindow ∧ turned p (.order h.slot) .target (some aim))

/-- LOCK_ROCKER in SERVICE (R8): centre to LOCK with the crash latch clear leaves no door UNLOCKED and stops the relock
timer; into UNLOCK unlocks all five; the return to centre changes no door. IGN_CHANGE (R23): the level; a rise stops the relock
timer, a fall clears the drive-away flag and, where configured, unlocks all doors. A write of VEHICLE STATE with one of its
three values (R21, R22), once door service has begun: the held state takes it and the word reads as it; a change to MOVING that
the drive-away lock judges, outside SAFE-HOLD, locks every UNLOCKED door and sets the flag, or with the crash latch set leaves
the doors and the flag; nothing else of the doors changes. That the write is discarded before door service is the model's
reading (log 33). -/
def Obligations.RockerIgnitionAndVehicleStateActOnTheDoors : Prop :=
  ∀ s : Sys2Proof.Machine.State,
    (s.part.ready .rocker .l1 → (s.part.input .rocker).level = .rest → s.part.crashSet = false →
      Completes (.lockRocker .lock) s fun p => p.doors.relock = none ∧ p.doors.press = s.part.doors.press ∧
        s.part.sameElsewhere p ∧ p.latches = s.part.latches ∧
        ∀ d, (p.door d).lock = if (s.part.door d).lock = .unlocked then
          (if (s.part.door d).ajar = .isClosed then .locked else .lockPending) else (s.part.door d).lock) ∧
    (s.part.ready .rocker .l2 → Completes (.lockRocker .unlock) s fun p =>
      p.doors.relock = none ∧ s.part.sameElsewhere p ∧ p.latches = s.part.latches ∧ ∀ d, (p.door d).lock = .unlocked) ∧
    (s.part.ready .rocker .rest → Completes (.lockRocker .centre) s fun p =>
      p.doors = s.part.doors ∧ p.latches = s.part.latches ∧ s.part.sameElsewhere p) ∧
    (s.part.ready .ign .l1 → Completes (.ignChange true) s fun p =>
      p.doors = { s.part.doors with ign := true, relock := none }) ∧
    (s.part.ready .ign .rest → Completes (.ignChange false) s fun p => p.doors.ign = false ∧ p.doors.driveAway = false ∧
      (s.part.cfg.unlockAtIgnitionOff = true → ∀ d, (p.door d).lock = .unlocked) ∧
      (s.part.cfg.unlockAtIgnitionOff = false → p.doors = { s.part.doors with ign := false, driveAway := false })) ∧
    ∀ (w : HostWord) (v : Vehicle), s.part.port.served = true → w.value = BitVec.ofNat 32 v.ctorIdx →
      (s.part.doorService = false → Completes (.memoryWrite 258 [w]) s fun p =>
        p.doors = s.part.doors ∧ p.port.vehicleWord = s.part.port.vehicleWord ∧ p.port.misuse = s.part.port.misuse) ∧
      (s.part.doorService = true → Completes (.memoryWrite 258 [w]) s fun p =>
        let judged := v = .moving ∧ s.part.doors.vehicle ≠ .moving ∧ s.part.inSafeHold = false ∧
          s.part.cfg.driveAwayLock = true ∧ s.part.doors.driveAway = false ∧
          (∀ d, (s.part.door d).ajar = .isClosed) ∧
          ∃ d, (s.part.door d).lock ≠ .locked ∧ (s.part.door d).lock ≠ .deadlocked
        p.port.vehicleWord = w.value ∧ p.port.misuse = s.part.port.misuse ∧ p.doors.vehicle = v ∧
        p.latches = s.part.latches ∧ p.windows = s.part.windows ∧
        (¬ judged → p.doors = { s.part.doors with vehicle := v }) ∧
        (judged → s.part.crashSet = true → p.doors = { s.part.doors with vehicle := v }) ∧
        (judged → s.part.crashSet = false → p.doors.driveAway = true ∧ p.doors.relock = none ∧
          ∀ d, (p.door d).ajar = .isClosed ∧
            (p.door d).lock = if (s.part.door d).lock = .unlocked then .locked else (s.part.door d).lock))

/-! ### Supply -/

/-- A class change (R164) and a fall of the budget (R96, R107), nothing waiting in the arbiter's list. The third agreeing
measurement: where the new class's budget is below the one in force, holders are withdrawn one at a time, WINDOW holders newest
first and then RELEASE holders newest first, until the units held fit or only escapes are left; a window withdrawn stops with
SUPPLY and its MOVE-WINDOW order ends SUPPLY, a release ends ABORTED-SUPPLY with its orders, every other window and latch stays;
a higher or equal budget withdraws nothing. The LF drivers follow the class; no commit begins at CRITICAL, and the oldest dirty
record's begins as the class leaves it; with no holder and no search the CLASS-CHANGED row alone is handed over. An adoption at
the START write in HELD that lowers the budget withdraws in the same way. That the commit begins in the event (log 12),
and that in DOZE the LF drivers stay disabled whatever the class (log 42), are the model's readings. -/
def Obligations.BudgetFallsWithdrawHolders : Prop :=
  (∀ (s : Sys2Proof.Machine.State) (mv : Nat), s.part.state ≠ .start .full .drivers → s.part.waiting = [] →
    let now := s.part.supply
    let ind := indicated s.part.cfg now.cls mv
    let budget := match ind with | .normal => s.part.cfg.normalBudget | .low => s.part.cfg.lowBudget | .critical => 0
    let all := s.part.holders
    let ended := fun (p : Sys2Proof.Machine.Part) (k : Slot) (o : OrderOutcome) =>
      p.head k = { s.part.head k with state := .done, code := BitVec.ofNat 8 o.code }
    ind ≠ now.cls → now.candidate = some ⟨ind, 2⟩ →
    (s.part.budget ≤ budget → Completes (.batteryMeasurement mv) s fun p => p.holders = all ∧ p.waiting = [] ∧
      p.windows = s.part.windows ∧ p.latches = s.part.latches) ∧
    (budget < s.part.budget → ∃ n, withdrawalsMeet all budget n ∧ Completes (.batteryMeasurement mv) s fun p =>
      let gone := fun a => a ∈ (withdrawalOrder all).take n
      p.holders = afterWithdrawals all n ∧ p.waiting = [] ∧
      (∀ c, (gone (.window c) → (p.window c).motion = .stopped ∧ (p.window c).lastStop = some .supply ∧
          (p.window c).mover = none ∧ (p.window c).movingFlag = false) ∧
        (¬ gone (.window c) → p.window c = s.part.window c)) ∧
      (∀ d, (p.door d).lock = (s.part.door d).lock ∧
        (gone (.latch d) → p.latch d = none ∧ (s.part.latch d ≠ none → (p.door d).outcome = some .abortedSupply)) ∧
        (¬ gone (.latch d) → p.latch d = s.part.latch d ∧ (p.door d).outcome = (s.part.door d).outcome)) ∧
      (s.part.latchesIdle = true → s.part.sequencerRuns = false → ∀ c k, gone (.window c) →
        (s.part.window c).motion ≠ .reversing → (s.part.window c).mover = some (.order k) → ended p k .supply) ∧
      (s.part.noSearch = true → (∀ c, (s.part.window c).mover = none) → ∀ d op, gone (.latch d) →
        s.part.latch d = some op → ∀ k ∈ op.orders, ended p k .abortedSupply)) ∧
    Completes (.batteryMeasurement mv) s fun p => p.state = s.part.state ∧
      p.lfDrivers = decide (ind ≠ .critical ∧ s.part.state ≠ .doze) ∧
      (ind = .critical → s.part.store.commit = none → p.store.commit = none) ∧
      (now.cls = .critical → ∀ r rest, s.part.store.dirty = r :: rest → s.part.store.commit = none →
        s.part.store.ready = true → p.store.dirty = rest ∧
          p.store.commit = some ⟨s.part.contentOf r, s.part.clock + 6, false⟩) ∧
      (s.part.tidy → all = [] → s.part.noSearch = true → s.part.addsRow p (classChangedRow now.cls ind mv))) ∧
  ∀ (s : Sys2Proof.Machine.State) (w : HostWord), s.part.state = .held → s.part.port.served = true → w.value = 1 →
    s.part.failingCheck = none → s.part.waiting = [] → (∀ k, (s.part.head k).state ≠ .posted) →
    let all := s.part.holders
    let budget := match s.part.supply.cls with
      | .normal => s.part.page.normalBudget
      | .low => s.part.page.lowBudget
      | .critical => 0
    budget < s.part.budget → ∃ n, withdrawalsMeet all budget n ∧ Completes (.memoryWrite 259 [w]) s fun p =>
      let gone := fun a => a ∈ (withdrawalOrder all).take n
      p.holders = afterWithdrawals all n ∧ p.waiting = [] ∧ p.state = .service ∧
      (∀ c, (gone (.window c) → (p.window c).motion = .stopped ∧ (p.window c).lastStop = some .supply) ∧
        (¬ gone (.window c) → (p.window c).motion = (s.part.window c).motion)) ∧
      ∀ d, (gone (.latch d) → p.latch d = none ∧ (s.part.latch d ≠ none → (p.door d).outcome = some .abortedSupply)) ∧
        (¬ gone (.latch d) → p.latch d = s.part.latch d)

/-- R163: three consecutive measurements that indicate the same class other than the one in force change it; the
candidate holds the readings before. Not in the full self-test's DRIVERS stage, whose readings R165 collects. What a
measurement indicates from each class in force is R162's table. With the change the budget in force is that of R96's table, and
at CRITICAL every search has ended (R164). -/
def Obligations.ThreeAgreeingMeasurementsChangeTheClass : Prop :=
  (∀ (s : Sys2Proof.Machine.State) (mv : Nat), s.part.state ≠ .start .full .drivers →
    let now := s.part.supply
    let ind := indicated s.part.cfg now.cls mv
    (ind = now.cls → Completes (.batteryMeasurement mv) s fun p =>
      p.supply = { now with millivolts := mv, candidate := none } ∧ p.windows = s.part.windows ∧ p.doors = s.part.doors) ∧
    (ind ≠ now.cls → (∀ k, now.candidate = some k → k.cls ≠ ind) → Completes (.batteryMeasurement mv) s fun p =>
      p.supply = { now with millivolts := mv, candidate := some ⟨ind, 1⟩ } ∧ p.windows = s.part.windows) ∧
    (ind ≠ now.cls → now.candidate = some ⟨ind, 1⟩ → Completes (.batteryMeasurement mv) s fun p =>
      p.supply = { now with millivolts := mv, candidate := some ⟨ind, 2⟩ } ∧ p.windows = s.part.windows) ∧
    (ind ≠ now.cls → now.candidate = some ⟨ind, 2⟩ → Completes (.batteryMeasurement mv) s fun p =>
      p.supply = { now with cls := ind, millivolts := mv, candidate := none } ∧
      p.budget = (match ind with | .normal => s.part.cfg.normalBudget | .low => s.part.cfg.lowBudget | .critical => 0) ∧
      (ind = .critical → p.locator.list = [] ∧ p.locator.flight = none) ∧ p.crash = s.part.crash ∧
      ∀ d, (p.door d).lock = (s.part.door d).lock)) ∧
  ∀ (g : Sys2Proof.Config) (mv : Nat),
    (mv < g.criticalEntry → indicated g .normal mv = .critical ∧ indicated g .low mv = .critical) ∧
    (g.criticalEntry ≤ mv → mv < g.lowEntry → indicated g .normal mv = .low) ∧
    (g.criticalEntry ≤ mv → g.lowEntry ≤ mv → indicated g .normal mv = .normal) ∧
    (g.criticalEntry ≤ mv → g.lowExit < mv → indicated g .low mv = .normal) ∧
    (g.criticalEntry ≤ mv → mv ≤ g.lowExit → indicated g .low mv = .low) ∧
    (g.lowExit < mv → indicated g .critical mv = .normal) ∧
    (g.criticalExit < mv → mv ≤ g.lowExit → indicated g .critical mv = .low) ∧
    (mv ≤ g.criticalExit → mv ≤ g.lowExit → indicated g .critical mv = .critical)

/-! ### Timers of doors, arbiter, latches and windows -/

/-- RELOCK_EXPIRY (R19, R20): a due relock timer, in a state with door service but SAFE-HOLD, is stopped and, with the
crash latch clear, no door is left UNLOCKED. HOLD_TRACKER_EXPIRY (R141): 300 ms after the fob's last frame a tracker that
is not IDLE becomes IDLE. That either command changes nothing while its timer is not due is the model's choice (log 3). -/
def Obligations.RelockAndHoldTimersActWhenDue : Prop :=
  (∀ s : Sys2Proof.Machine.State, s.part.doorService = true → s.part.inSafeHold = false →
    (due s.part.doors.relock s.part.clock = true → s.part.crashSet = false → Completes .relockExpiry s fun p =>
      p.doors.relock = none ∧ s.part.sameElsewhere p ∧ p.latches = s.part.latches ∧
      ∀ d, (p.door d).ajar = (s.part.door d).ajar ∧ (p.door d).lock ≠ .unlocked ∧
        ((s.part.door d).lock ≠ .unlocked → (p.door d).lock = (s.part.door d).lock) ∧
        ((s.part.door d).ajar = .isClosed → (s.part.door d).lock = .unlocked → (p.door d).lock = .locked)) ∧
    (due s.part.doors.relock s.part.clock = false → exec .relockExpiry s = .next s)) ∧
  ∀ (s : Sys2Proof.Machine.State) (f : Fob) (l : LastFrame), (s.part.fob f).lastFrame = some l →
    (l.time + 300 ≤ s.part.clock → (s.part.fob f).tracker ≠ .idle → Completes (.holdTrackerExpiry f) s fun p =>
      (p.fob f).tracker = .idle ∧ (p.fob f).keep = (s.part.fob f).keep ∧ p.doors = s.part.doors ∧
      ∀ g, g ≠ f → (s.part.fob g).same (p.fob g)) ∧
    (s.part.clock < l.time + 300 → exec (.holdTrackerExpiry f) s = .next s)

/-- GRANT_FROM_HEAD and WAIT_LIMIT_EXPIRY (R100, R101, R61, R37): a latch at the head that fits is granted WITHIN-BUDGET
and pulses; an empty waiting list or a head that does not fit changes nothing; the one waiting entry, its limit reached,
leaves the list, and a window's pending command is gone or a release ends BUDGET-TIMEOUT. A window at the head that fits starts
its pending command (R62): its move, a fresh stall timer, a learn in phase DOWN (R92), force taken by a MANUAL close (R84), a
Sequencer's entry MOVING (R154). LATCH_PULSE_EXPIRY and CONFIRM_EXPIRY (R38, R39, R40): a due pulse returns its unit and the
operation is CONFIRMING; a due confirm window on attempt 2 ends HELD with the latch fault set, and on attempt 1, nothing
waiting, pulses again on attempt 2: a RELEASE operation with a unit free, an ESCAPE operation always, by a free unit, by the
newest window holder that is not REVERSING, which stops PREEMPTED, or over the budget (R104). -/
def Obligations.ReleasesAndWaitsFollowTheirTimers : Prop :=
  (∀ s : Sys2Proof.Machine.State,
      (∀ w d, s.part.waiting = [w] → w.actuator = .latch d → w.units ≤ s.part.unitsFree → Completes .grantFromHead s fun p =>
        p.holders = s.part.holders ++ [⟨.latch d, w.units, w.prec, s.part.clock, .withinBudget⟩] ∧ p.waiting = [] ∧
        p.latch d = (s.part.latch d).map (fun op =>
          { op with state := .pulsing, timer := some (s.part.clock + s.part.cfg.latchPulse) }) ∧
        p.windows = s.part.windows ∧ p.doors = s.part.doors) ∧
      (∀ w c x, s.part.waiting = [w] → w.actuator = .window c → w.units ≤ s.part.unitsFree →
        (s.part.window c).pending = some x → Completes .grantFromHead s fun p =>
          let v := s.part.window c
          let m := s.part.monitor c
          let force := m.forceArmed.isSome = true ∧ x.cmd.mode = .manual ∧ x.cmd.dir = .closing
          p.holders = s.part.holders ++ [⟨.window c, w.units, w.prec, s.part.clock, .withinBudget⟩] ∧ p.waiting = [] ∧
          p.window c = { v with
            motion := x.cmd.dir.motion
            mode := some x.cmd.mode
            target := x.cmd.target
            mover := some x.cmd.mover
            forExpress := x.cmd.forExpress
            pending := none
            movingFlag := true
            idle := 0
            coast := none
            lastPulse := none
            ramp := some ⟨s.part.clock, s.part.clock + s.part.cfg.rampTime⟩ } ∧
          p.monitor c = { m with
            baseline := []
            settled := false
            stallAt := some (s.part.clock + 200)
            floor := s.part.clock + 200
            learn := m.learn.map fun l => { l with phase := .down, count := 0 }
            forceInUse := (p.monitor c).forceInUse
            forceArmed := (p.monitor c).forceArmed
            history := (p.monitor c).history } ∧
          (force → (p.monitor c).forceInUse = true ∧ (p.monitor c).forceArmed = none ∧ (p.monitor c).history = []) ∧
          (¬ force → (p.monitor c).forceInUse = m.forceInUse ∧ (p.monitor c).forceArmed = m.forceArmed ∧
            (p.monitor c).history = m.history) ∧
          (x.cmd.mover ≠ .sequencer → p.operation = s.part.operation) ∧
          (∀ o, x.cmd.mover = .sequencer → s.part.operation = some o → o.ended = none →
            (o.entries.get c).state = .waiting → ∃ q, p.operation = some q ∧ q.ended = none ∧
              q.entries.get c = { o.entries.get c with state := .moving } ∧
              ∀ y, y ≠ c → q.entries.get y = o.entries.get y) ∧
          (∀ y, y ≠ c → p.window y = s.part.window y) ∧ p.heads = s.part.heads ∧ s.part.sameOutsideWindows p) ∧
      (s.part.waiting = [] → exec .grantFromHead s = .next s) ∧
      (∀ w rest, s.part.waiting = w :: rest → s.part.unitsFree < w.units → exec .grantFromHead s = .next s) ∧
      (∀ w c, s.part.waiting = [w] → w.limit ≤ s.part.clock → w.actuator = .window c →
        Completes (.waitLimitExpiry w.actuator) s fun p =>
          p.waiting = [] ∧ p.holders = s.part.holders ∧ (p.window c).pending = none ∧
          (p.window c).motion = (s.part.window c).motion) ∧
      (∀ w d op, s.part.waiting = [w] → w.limit ≤ s.part.clock → w.actuator = .latch d → s.part.latch d = some op →
        Completes (.waitLimitExpiry w.actuator) s fun p =>
          p.waiting = [] ∧ p.holders = s.part.holders ∧ p.latch d = none ∧
          (p.door d).outcome = some .budgetTimeout ∧ (p.door d).lock = (s.part.door d).lock)) ∧
  ∀ (s : Sys2Proof.Machine.State) (d : Door) (op : ReleaseOp), s.part.latch d = some op → s.part.waiting = [] →
    due op.timer s.part.clock = true →
    (op.state = .pulsing → Completes (.latchPulseExpiry d) s fun p =>
      p.latch d = some { op with state := .confirming, timer := some (s.part.clock + s.part.cfg.confirmWindow) } ∧
      (∀ h, h ∈ p.holders ↔ h ∈ s.part.holders ∧ h.actuator ≠ .latch d) ∧ p.doors = s.part.doors) ∧
    (op.state = .confirming → op.second = true → Completes (.confirmExpiry d) s fun p => p.latch d = none ∧
      (p.door d).outcome = some .held ∧
      (p.door d).fault = (if (s.part.door d).fault = .sound then .held else (s.part.door d).fault) ∧
      p.holders = s.part.holders) ∧
    (op.state = .confirming → op.second = false → op.prec = .release → 1 ≤ s.part.unitsFree →
      Completes (.confirmExpiry d) s fun p =>
        p.latch d = some { op with
          state := .pulsing
          second := true
          timer := some (s.part.clock + s.part.cfg.latchPulse) } ∧
        p.holders = s.part.holders ++ [⟨.latch d, 1, .release, s.part.clock, .withinBudget⟩] ∧ p.doors = s.part.doors) ∧
    (op.state = .confirming → op.second = false → op.prec = .escape →
      let pulses := fun p : Sys2Proof.Machine.Part => p.latch d = some { op with
          state := .pulsing
          second := true
          timer := some (s.part.clock + s.part.cfg.latchPulse) } ∧
        (∀ y, y ≠ d → p.latch y = s.part.latch y) ∧ p.doors = s.part.doors
      let granted := fun k : GrantKind => (⟨.latch d, 1, .escape, s.part.clock, k⟩ : Holder)
      (1 ≤ s.part.unitsFree → Completes (.confirmExpiry d) s fun p => pulses p ∧
        p.holders = s.part.holders ++ [granted .freeUnit] ∧ p.windows = s.part.windows) ∧
      (∀ before h after c, s.part.unitsFree = 0 → s.part.holders = before ++ h :: after → h.actuator = .window c →
        (s.part.window c).motion ≠ .reversing →
        (∀ x ∈ after, ∀ y, x.actuator = .window y → (s.part.window y).motion = .reversing) →
        Completes (.confirmExpiry d) s fun p => pulses p ∧
          (∀ x, x ∈ p.holders ↔ (x ∈ s.part.holders ∧ x.actuator ≠ .window c) ∨ x = granted .preempted) ∧
          (p.window c).motion = .stopped ∧ (p.window c).lastStop = some .preempted ∧ (p.window c).movingFlag = false ∧
          ∀ y, y ≠ c → p.window y = s.part.window y) ∧
      (s.part.unitsFree = 0 → (∀ h ∈ s.part.holders, ∀ c, h.actuator = .window c → (s.part.window c).motion = .reversing) →
        Completes (.confirmExpiry d) s fun p => pulses p ∧
          p.holders = s.part.holders ++ [granted .overBudget] ∧ p.windows = s.part.windows))

/-- HALL_PULSE (R50, R51): a high phase under 0.2 ms, and a pulse on a window neither driven nor coasting, change
nothing; a pulse of a coast moves the position by 1 in the coast's direction within 0 and the travel; a MANUAL opening
pulse lowers the position by 1 and moves the stall expiry. A position that moves during the commit of the window's own record
marks that commit's record as changed, else the store stays (R73, R207). The microsecond of a pulse and that marking are the
model's choices (logs 14, 79). -/
def Obligations.HallPulsesCountTravel : Prop :=
  ∀ (s : Sys2Proof.Machine.State) (c : Corner) (high us : Nat),
    let w := s.part.window c
    let notes := fun (p : Sys2Proof.Machine.Part) (pos : Nat) =>
      (∀ k, s.part.store.commit = some k → k.content.record = .window c → pos ≠ w.position →
        p.store = { s.part.store with commit := some { k with changed := true } }) ∧
      (pos = w.position ∨ (∀ k, s.part.store.commit = some k → k.content.record ≠ .window c) → p.store = s.part.store)
    (high < 200 → exec (.hallPulse c high us) s = .next s) ∧
    (200 ≤ high → w.motion = .stopped → w.coast = none → exec (.hallPulse c high us) s = .next s) ∧
    (∀ k, 200 ≤ high → w.motion = .stopped → w.coast = some k → w.position ≤ w.travel →
      Completes (.hallPulse c high us) s fun p =>
        p.window c = { w with position :=
          match k.dir with
          | .opening => w.position - 1
          | .closing => min w.travel (w.position + 1) } ∧ notes p (p.window c).position ∧
        (∀ x, x ≠ c → p.window x = s.part.window x) ∧ p.monitors = s.part.monitors ∧ p.holders = s.part.holders) ∧
    (200 ≤ high → w.motion = .opening → w.mode = some .manual → (s.part.monitor c).learn = none →
      Completes (.hallPulse c high us) s fun p =>
        p.window c = { w with position := w.position - 1, lastPulse := some (s.part.clock * 1000 + us) } ∧
        notes p (w.position - 1) ∧ (p.monitor c).stallAt = some (max (s.part.monitor c).floor (s.part.clock + 150)) ∧
        (∀ x, x ≠ c → p.window x = s.part.window x) ∧ p.holders = s.part.holders)

/-- A pulse counted on a CLOSING window that does not learn (R77 to R80, R83). A pinch, found by a period above the limit of
R78's table: the window reverses in its grant towards the position less the reversal distance, its move's fields are gone
but the mover, the lockout is on, the pinch joins the history, three MANUAL ones within 10 000 ms arm force, force in use
ends, and a MOVE-WINDOW order that is the mover ends DONE with PINCH. No pinch, in a MANUAL move: the pulse is counted,
the stall expiry moves, and a settled ramp adds the period to the baseline, which empties where the glass enters or
leaves the slow zone. The microsecond of a pulse is the model's choice (log 14), and so are the order of what one pulse
does, judged a pinch before an end of its move, a crossing leaving the baseline empty (log 28), and that the reversal's first
counted pulse is to carry no period (log 95). -/
def Obligations.PinchedClosesReverse : Prop :=
  ∀ (s : Sys2Proof.Machine.State) (c : Corner) (high us : Nat), 200 ≤ high →
    let w := s.part.window c
    let m := s.part.monitor c
    let g := s.part.cfg
    let now := s.part.clock * 1000 + us
    let pos := min w.travel (w.position + 1)
    let top := w.travel - g.softStopOffset
    let slow := fun x => w.learned = true ∧ (x ≤ g.softStopOffset + g.slowZone ∨ top ≤ x + g.slowZone)
    let pinched := s.part.pulsePinches c us
    let kept := m.history.drop (m.history.length - 2)
    let arms := w.mode = some .manual ∧ kept.map (·.kind) = [.manual, .manual] ∧
      ∀ e, kept.head? = some e → s.part.clock - e.time ≤ 10000
    w.motion = .closing → m.learn = none → w.position ≤ w.travel → m.baseline.length ≤ 16 →
    (pinched → Completes (.hallPulse c high us) s fun p =>
      p.window c = { w with
        position := pos
        motion := .reversing
        mode := none
        target := none
        forExpress := false
        pinchLockout := true
        lastStop := some .pinch
        movingFlag := true
        idle := 0
        coast := none
        lastPulse := none
        ramp := some ⟨s.part.clock, s.part.clock + g.rampTime⟩ } ∧
      p.monitor c = { m with
        baseline := []
        settled := false
        stallAt := some (s.part.clock + 200)
        floor := s.part.clock + 200
        history := kept ++ [⟨s.part.clock, if w.mode = some .manual then .manual else .other⟩]
        forceArmed := (p.monitor c).forceArmed
        forceInUse := false
        reversalTarget := some (pos - g.reversalDistance) } ∧
      (arms → (p.monitor c).forceArmed = some (s.part.clock + 10000)) ∧ (¬ arms → (p.monitor c).forceArmed = none) ∧
      p.holders = s.part.holders ∧ p.waiting = s.part.waiting ∧ (∀ x, x ≠ c → p.window x = s.part.window x) ∧
      s.part.sameOutsideWindows p ∧
      (∀ k, w.mover = some (.order k) →
        p.head k = { s.part.head k with state := .done, code := BitVec.ofNat 8 OrderOutcome.pinch.code }) ∧
      (w.mover = some .doorSwitch ∨ w.mover = some .masterSwitch → p.heads = s.part.heads)) ∧
    (¬ pinched → w.mode = some .manual → Completes (.hallPulse c high us) s fun p =>
      p.window c = { w with position := pos, lastPulse := some now } ∧
      p.monitor c = { m with
        stallAt := some (max m.floor (s.part.clock + 150))
        baseline := (p.monitor c).baseline } ∧
      ((slow w.position ↔ slow pos) → m.settled = true → ∀ t, w.lastPulse = some t →
        (p.monitor c).baseline = m.baseline.drop (m.baseline.length - 15) ++ [now - t]) ∧
      ((slow w.position ↔ slow pos) → m.settled = false ∨ w.lastPulse = none → (p.monitor c).baseline = m.baseline) ∧
      (¬ (slow w.position ↔ slow pos) → (p.monitor c).baseline = []) ∧
      p.holders = s.part.holders ∧ p.heads = s.part.heads ∧ ∀ x, x ≠ c → p.window x = s.part.window x)

/-- A counted pulse that ends a move (R65, R81): an EXPRESS close or open of a LEARNED window at its soft stop with END, a
TARGET at its target with TARGET, or END where that is a soft stop, a MOVE-WINDOW order then ending DONE with COMPLETED; a
reversal at its target with PINCH, no mover being told. The pulses before it count on. Nothing waits in the arbiter's list,
and the period of a close's pulse, where it carries one, is not above the limit of R78's table. The model's choices: the
microsecond of a pulse (log 14), and the pinch judged before the end of the move (log 28). -/
def Obligations.CountedPulsesEndMovesAtTheirTargets : Prop :=
  ∀ (s : Sys2Proof.Machine.State) (c : Corner) (high us : Nat), 200 ≤ high →
    let w := s.part.window c
    let m := s.part.monitor c
    let bottom := s.part.cfg.softStopOffset
    let top := w.travel - s.part.cfg.softStopOffset
    let stops := fun (d : Direction) (pos : Nat) (r : StopReason) => Completes (.hallPulse c high us) s fun p =>
      p.window c = { w with
        position := pos
        motion := .stopped
        mode := none
        target := none
        mover := none
        forExpress := false
        lastStop := some r
        movingFlag := false
        coast := some ⟨s.part.clock + 100, d⟩
        lastPulse := none
        ramp := none } ∧
      (p.monitor c).stallAt = none ∧ (p.monitor c).baseline = [] ∧ (p.monitor c).forceInUse = false ∧
      (p.monitor c).reversalTarget = none ∧
      (∀ h, h ∈ p.holders ↔ h ∈ s.part.holders ∧ h.actuator ≠ .window c) ∧
      (∀ k, w.mover = some (.order k) → w.motion ≠ .reversing →
        p.head k = { s.part.head k with state := .done, code := BitVec.ofNat 8 OrderOutcome.completed.code }) ∧
      (w.mover = some .doorSwitch ∨ w.mover = some .masterSwitch ∨ w.motion = .reversing → p.heads = s.part.heads) ∧
      ∀ x, x ≠ c → p.window x = s.part.window x
    let goesOn := fun (pos : Nat) => Completes (.hallPulse c high us) s fun p =>
      p.window c = { w with position := pos, lastPulse := some (s.part.clock * 1000 + us) } ∧
      p.holders = s.part.holders ∧ p.heads = s.part.heads ∧ p.operation = s.part.operation
    let up := min w.travel (w.position + 1)
    m.learn = none → s.part.waiting = [] → w.position ≤ w.travel → m.baseline.length ≤ 16 →
    (w.motion = .closing → w.learned = true → ¬ s.part.pulsePinches c us →
      (w.mode = some .express → (top ≤ up → stops .closing up .atEnd) ∧ (up < top → goesOn up)) ∧
      (∀ t, w.mode = some .target → w.target = some t →
        (t ≤ up → (t = top ∨ t = bottom → stops .closing up .atEnd) ∧
          (t ≠ top → t ≠ bottom → stops .closing up .target)) ∧
        (up < t → goesOn up))) ∧
    (w.motion = .opening → w.learned = true →
      (w.mode = some .express → (w.position - 1 ≤ bottom → stops .opening (w.position - 1) .atEnd) ∧
        (bottom < w.position - 1 → goesOn (w.position - 1))) ∧
      (∀ t, w.mode = some .target → w.target = some t →
        (w.position - 1 ≤ t → (t = top ∨ t = bottom → stops .opening (w.position - 1) .atEnd) ∧
          (t ≠ top → t ≠ bottom → stops .opening (w.position - 1) .target)) ∧
        (t < w.position - 1 → goesOn (w.position - 1)))) ∧
    (w.motion = .reversing → ∀ t, m.reversalTarget = some t →
      (w.position - 1 ≤ t → stops .opening (w.position - 1) .pinch) ∧
      (t < w.position - 1 → goesOn (w.position - 1)))

/-- COAST_END, SOFT_START_END, FORCE_ARMED_EXPIRY, HEAT_RISE and HEAT_FALL (R50, R66, R76, R83, R67, R68), each due:
the field each changes, and the thermal block as the heat limit and the resume level judge it. -/
def Obligations.WindowTimersChangeTheirOwnField : Prop :=
  ∀ (s : Sys2Proof.Machine.State) (c : Corner),
    let w := s.part.window c
    let m := s.part.monitor c
    (∀ k, w.coast = some k → k.ends ≤ s.part.clock →
      exec (.coastEnd c) s = .next { s with part := s.part.setWindow c { w with coast := none } }) ∧
    (∀ r, w.ramp = some r → r.finish ≤ s.part.clock → exec (.softStartEnd c) s =
      .next { s with part := (s.part.setWindow c { w with ramp := none }).setMonitor c { m with settled := true } }) ∧
    (∀ t, m.forceArmed = some t → t ≤ s.part.clock →
      exec (.forceArmedExpiry c) s = .next { s with part := s.part.setMonitor c { m with forceArmed := none } }) ∧
    let judged := fun h : Nat => (w.thermal = false ∧ s.part.cfg.heatLimit ≤ h) ∨ (w.thermal = true ∧ s.part.cfg.heatResume ≤ h)
    (50 ≤ w.energised → Completes (.heatRise c) s fun p =>
      (p.window c).heat = min 2000 (w.heat + 1) ∧ (p.window c).energised = w.energised - 50 ∧
      ((p.window c).thermal = true ↔ judged (min 2000 (w.heat + 1))) ∧ (p.window c).motion = w.motion ∧
      p.holders = s.part.holders) ∧
    (500 ≤ w.idle → Completes (.heatFall c) s fun p =>
      (p.window c).heat = w.heat - 1 ∧ (p.window c).idle = w.idle - 500 ∧
      ((p.window c).thermal = true ↔ judged (w.heat - 1)) ∧ (p.window c).motion = w.motion ∧
      p.holders = s.part.holders)

/-- STALL_EXPIRY (R85 to R88), nothing waiting in the arbiter's list. LEARNED and moving in MANUAL for a switch: a stall
within 20 counts of an end stops it with END, the position corrected to the end; a closing one in the pinch zone is a pinch;
any other stops with STALL and makes it UNLEARNED. A reversal's stall ends it so too, no mover being told. UNLEARNED: STALL;
a close by a switch, with a travel, starts the watch, whose expiry with the switch still UP makes the window LEARNED (R89). -/
def Obligations.StallsAreJudgedByPosition : Prop :=
  ∀ (s : Sys2Proof.Machine.State) (c : Corner) (sw : Switch), sw.window = c →
    let w := s.part.window c
    let m := s.part.monitor c
    let top := w.travel - s.part.cfg.softStopOffset
    let stops := fun (p : Sys2Proof.Machine.Part) (r : StopReason) => (p.window c).motion = .stopped ∧
      (p.window c).lastStop = some r ∧ (p.window c).travel = w.travel ∧ (p.window c).movingFlag = false ∧
      (p.monitor c).stallAt = none ∧ (∀ h, h ∈ p.holders ↔ h ∈ s.part.holders ∧ h.actuator ≠ .window c) ∧
      p.heads = s.part.heads ∧ ∀ x, x ≠ c → p.window x = s.part.window x
    (due m.stallAt s.part.clock = true → m.learn = none → s.part.waiting = [] →
      (w.mode = some .manual → w.mover = some (Switch.mover sw) →
        (w.learned = true → w.motion = .closing →
          (w.travel ≤ w.position + 20 → Completes (.stallExpiry c) s fun p => stops p .atEnd ∧
            (p.window c).position = w.travel ∧ (p.window c).learned = true ∧ (p.window c).pinchLockout = false) ∧
          (w.position + 20 < w.travel → top ≤ w.position + s.part.cfg.pinchZone → w.position ≤ top →
            Completes (.stallExpiry c) s fun p => (p.window c).motion = .reversing ∧ (p.window c).mode = none ∧
              (p.window c).lastStop = some .pinch ∧ (p.window c).pinchLockout = true ∧ (p.window c).learned = true ∧
              (p.monitor c).reversalTarget = some (w.position - s.part.cfg.reversalDistance) ∧
              (p.monitor c).history = m.history.drop (m.history.length - 2) ++ [⟨s.part.clock, .manual⟩] ∧
              p.holders = s.part.holders ∧ p.heads = s.part.heads) ∧
          (w.position + 20 < w.travel → w.position + s.part.cfg.pinchZone < top → Completes (.stallExpiry c) s fun p =>
            stops p .stall ∧ (p.window c).learned = false ∧ (p.window c).position = w.position)) ∧
        (w.learned = true → w.motion = .opening →
          (w.position ≤ 20 → Completes (.stallExpiry c) s fun p => stops p .atEnd ∧ (p.window c).position = 0 ∧
            (p.window c).learned = true) ∧
          (20 < w.position → Completes (.stallExpiry c) s fun p => stops p .stall ∧ (p.window c).learned = false)) ∧
        (w.learned = false → w.motion = .opening → Completes (.stallExpiry c) s fun p => stops p .stall ∧
          (p.window c).learned = false ∧ (p.monitor c).watch = m.watch) ∧
        (w.learned = false → w.motion = .closing → w.travel ≠ 0 → Completes (.stallExpiry c) s fun p => stops p .stall ∧
          (p.window c).learned = false ∧ (p.monitor c).watch = some ⟨sw, s.part.clock + 500⟩)) ∧
      (w.motion = .reversing →
        (w.learned = true → w.position ≤ 20 → Completes (.stallExpiry c) s fun p => stops p .atEnd ∧
          (p.window c).position = 0 ∧ (p.window c).learned = true ∧ (p.monitor c).reversalTarget = none) ∧
        (w.learned = false ∨ 20 < w.position → Completes (.stallExpiry c) s fun p => stops p .stall ∧
          (p.window c).learned = false ∧ (p.monitor c).reversalTarget = none))) ∧
    (∀ k, m.watch = some k → k.expiry ≤ s.part.clock →
      (Stage.dir (levelStage (s.part.input (.switch k.switch)).level) = some .closing →
        Completes (.rereferenceWatchExpiry c) s fun p => (p.window c).learned = true ∧
          (p.window c).position = w.travel ∧ (p.window c).pinchLockout = false ∧ (p.monitor c).watch = none) ∧
      (Stage.dir (levelStage (s.part.input (.switch k.switch)).level) ≠ some .closing →
        exec (.rereferenceWatchExpiry c) s = .next { s with part := s.part.setMonitor c { m with watch := none } }))

/-- A learn's phases (R92, R93, R168, R169), nothing waiting in the arbiter's list. The stall of phase DOWN turns the window up
in the same grant, or with the crash latch set then or since the phase began ends the learn CRASH; a crash event in phase DOWN
lets the learn go on and is remembered. The stall of phase UP between 1000 and 4000 counts measures the travel and ends
COMPLETED, otherwise LEARN-FAILED. A pulse counts, in phase UP beyond any travel; one beyond 4400 ends LEARN-FAILED; a pinch
by the absolute limit in phase UP reverses the window and ends PINCH. Where a learn ends the order ends with it, and the window
is LEARNED only if measured. The model's choices: the microsecond of a pulse (log 14), the pinch judged before the count limit
(log 28), the position brought within the travel as a learn fails, but not at a pinch (log 29), and the crash remembered in
the learn once the latch is cleared (log 80). -/
def Obligations.LearnPhasesMeasureTheTravel : Prop :=
  ∀ (s : Sys2Proof.Machine.State) (c : Corner) (l : Learn) (high us : Nat), 200 ≤ high →
    let w := s.part.window c
    let m := s.part.monitor c
    let now := s.part.clock * 1000 + us
    let limit := 100 * s.part.cfg.absoluteLimit
    let ends := fun (p : Sys2Proof.Machine.Part) (o : OrderOutcome) => (p.monitor c).learn = none ∧
      p.head l.slot = { s.part.head l.slot with state := .done, code := BitVec.ofNat 8 o.code } ∧
      (∀ k, k ≠ l.slot → p.head k = s.part.head k) ∧ ∀ x, x ≠ c → p.window x = s.part.window x
    let stops := fun (p : Sys2Proof.Machine.Part) (o : OrderOutcome) (r : StopReason) => ends p o ∧
      (p.window c).motion = .stopped ∧ (p.window c).lastStop = some r ∧ (p.window c).movingFlag = false ∧
      ∀ h, h ∈ p.holders ↔ h ∈ s.part.holders ∧ h.actuator ≠ .window c
    m.learn = some l → s.part.waiting = [] → w.mover = some (.order l.slot) → w.mode = some .manual → w.learned = false →
    (l.phase = .down → w.motion = .opening →
      (due m.stallAt s.part.clock = true → s.part.crashSet = false → l.crash = false → Completes (.stallExpiry c) s fun p =>
        (p.monitor c).learn = some ⟨.up, l.slot, 0, false⟩ ∧ (p.monitor c).stallAt = some (s.part.clock + 200) ∧
        (p.window c).motion = .closing ∧ (p.window c).mode = some .manual ∧ (p.window c).mover = some (.order l.slot) ∧
        (p.window c).position = 0 ∧ (p.window c).learned = false ∧ (p.window c).lastStop = some .atEnd ∧
        p.holders = s.part.holders ∧ p.heads = s.part.heads) ∧
      (due m.stallAt s.part.clock = true → s.part.crashSet = true ∨ l.crash = true → Completes (.stallExpiry c) s fun p =>
        stops p .crash .atEnd ∧ (p.window c).position = 0 ∧ (p.window c).learned = false) ∧
      (∀ a, s.part.crash.assertion = some a → a.taken = false → a.since + 4 ≤ s.part.clock → s.part.doorService = true →
        s.part.state ≠ .doze → w.pending = none → Completes .crashEvent s fun p => p.crashSet = true ∧
          (p.monitor c).learn = some { l with crash := true } ∧ p.window c = w) ∧
      (l.count < 4400 → Completes (.hallPulse c high us) s fun p =>
        p.window c = { w with position := w.position - 1, lastPulse := some now } ∧
        (p.monitor c).learn = some { l with count := l.count + 1 } ∧ p.heads = s.part.heads) ∧
      (4400 ≤ l.count → Completes (.hallPulse c high us) s fun p =>
        stops p .learnFailed .stall ∧ (p.window c).position = min (w.position - 1) w.travel ∧
        (p.window c).learned = false ∧ (p.window c).travel = w.travel)) ∧
    (l.phase = .up → w.motion = .closing →
      (due m.stallAt s.part.clock = true → 1000 ≤ w.position → w.position ≤ 4000 → Completes (.stallExpiry c) s fun p =>
        stops p .completed .atEnd ∧ (p.window c).travel = w.position ∧ (p.window c).position = w.position ∧
        (p.window c).learned = true ∧ (p.window c).pinchLockout = false) ∧
      (due m.stallAt s.part.clock = true → w.position < 1000 ∨ 4000 < w.position → Completes (.stallExpiry c) s fun p =>
        stops p .learnFailed .stall ∧ (p.window c).travel = w.travel ∧ (p.window c).position = min w.position w.travel ∧
        (p.window c).learned = false) ∧
      ((∀ t, w.lastPulse = some t → now - t ≤ limit) → l.count < 4400 → Completes (.hallPulse c high us) s fun p =>
        p.window c = { w with position := w.position + 1, lastPulse := some now } ∧
        (p.monitor c).learn = some { l with count := l.count + 1 } ∧ p.heads = s.part.heads) ∧
      ((∀ t, w.lastPulse = some t → now - t ≤ limit) → 4400 ≤ l.count → Completes (.hallPulse c high us) s fun p =>
        stops p .learnFailed .stall ∧ (p.window c).position = min (w.position + 1) w.travel ∧
        (p.window c).learned = false ∧ (p.window c).travel = w.travel) ∧
      (∀ t, w.lastPulse = some t → limit < now - t → Completes (.hallPulse c high us) s fun p =>
        ends p .pinch ∧ (p.window c).motion = .reversing ∧ (p.window c).position = w.position + 1 ∧
        (p.window c).learned = false ∧ (p.window c).pinchLockout = true ∧
        (p.monitor c).reversalTarget = some (w.position + 1 - s.part.cfg.reversalDistance) ∧ p.holders = s.part.holders))

/-! ### Searches and fobs -/

/-- The course of a search (R114 to R117): SEARCH_START takes the oldest request; a transmission's end goes on to the next
antenna of the set, or to reply slot 0; a reply slot's end to the next slot. SEARCH_REPLY: the first reply of the slot's
own fob is the result of its index, PASS with its zone (R118) or FAIL with none, with the strengths of antennas outside the
set taken as 0; a reply of another fob, of an EMPTY record, after a first, or outside the reply slots changes nothing. No fob
record changes. LOCATE_FOB (R125, R111 to R114): with the receiver sound, the class not CRITICAL, a sound antenna in the set and
no search listed or in flight, the search starts over the set's sound antennas for the order, which stays TAKEN. -/
def Obligations.SearchesRunTheirAntennasAndReplySlots : Prop :=
  (∀ s : Sys2Proof.Machine.State,
    (∀ r rest, s.part.state = .service → s.part.locator.flight = none → s.part.locator.list = r :: rest →
      s.part.supply.cls ≠ .critical → Completes .searchStart s fun p => p.locator.list = rest ∧
        ∃ f, p.locator.flight = some f ∧ f.request = r ∧ f.since = s.part.clock ∧
          (∀ a, f.used.get a = ((r.antennas.all fun x => x.get a) && !s.part.degraded.antennas.get a)) ∧
          ∀ i, (f.results.get i).reply = .noReply) ∧
    (∀ f a, s.part.locator.flight = some f → f.phase = .transmit a → f.phaseEnd ≤ s.part.clock →
      (∀ b, f.used.get b = true → a.ctorIdx < b.ctorIdx →
        (∀ x : Antenna, a.ctorIdx < x.ctorIdx → x.ctorIdx < b.ctorIdx → f.used.get x = false) →
        Completes .antennaTransmissionEnd s fun p =>
          p.locator.flight = some { f with phase := .transmit b, phaseEnd := s.part.clock + 14 }) ∧
      ((∀ x : Antenna, a.ctorIdx < x.ctorIdx → f.used.get x = false) → Completes .antennaTransmissionEnd s fun p =>
        p.locator.flight = some { f with phase := .reply .f0, phaseEnd := s.part.clock + 10 })) ∧
    (∀ f i j, s.part.locator.flight = some f → f.phase = .reply i → f.phaseEnd ≤ s.part.clock →
      i.ctorIdx + 1 = j.ctorIdx → Completes .replySlotEnd s fun p =>
        p.locator.flight = some { f with phase := .reply j, phaseEnd := s.part.clock + 10 } ∧ p.fobs = s.part.fobs)) ∧
  (∀ (s : Sys2Proof.Machine.State) (r : Reply) (f : Flight), s.part.locator.flight = some f →
      (∀ i, f.phase = .reply i → (s.part.fob i).keep.state ≠ .vacant → (s.part.fob i).keep.id = r.id →
        (f.results.get i).reply = .noReply → Completes (.searchReply r) s fun p => p.fobs = s.part.fobs ∧
          ∃ g, p.locator.flight = some g ∧ g.request = f.request ∧ g.phase = f.phase ∧
            (g.results.get i).reply = (match r.check with | .pass => .pass | .fail => .fail) ∧
            (g.results.get i).id = r.id ∧ (g.results.get i).time = s.part.clock ∧
            (r.check = .pass →
              ∃ z, (g.results.get i).zone = some z ∧ zoneJudged s.part.cfg (g.results.get i).strengths z) ∧
            (r.check = .fail → (g.results.get i).zone = none) ∧
            (∀ a, (g.results.get i).strengths.get a = if f.used.get a then r.strengths.get a else 0) ∧
            ∀ j, j ≠ i → g.results.get j = f.results.get j) ∧
      (∀ i, f.phase = .reply i → (s.part.fob i).keep.state = .vacant ∨ (s.part.fob i).keep.id ≠ r.id ∨
        (f.results.get i).reply ≠ .noReply → exec (.searchReply r) s = .next s) ∧
      (∀ a, f.phase = .transmit a → exec (.searchReply r) s = .next s)) ∧
  ∀ (s : Sys2Proof.Machine.State) (h : OrderHead) (w : HostWord), s.part.accepts h → w.sound = true →
    0 < w.value.toNat → w.value.toNat < 128 → s.part.degraded.receiver = false → s.part.supply.cls ≠ .critical →
    s.part.locator.list = [] → s.part.locator.flight = none →
    (∃ a : Antenna, w.value.getLsbD a.ctorIdx = true ∧ s.part.degraded.antennas.get a = false) →
    Completes (.locateFob h w) s fun p => p.orderStands h .locateFob ∧ p.locator.list = [] ∧
      ∃ f, p.locator.flight = some f ∧ f.request.purpose = .locate ∧ f.request.door = none ∧ f.request.orders = [h.slot] ∧
        f.since = s.part.clock ∧ (∃ a, f.phase = .transmit a) ∧ f.phaseEnd = s.part.clock + 14 ∧
        (∀ a, f.used.get a = (w.value.getLsbD a.ctorIdx && !s.part.degraded.antennas.get a)) ∧
        (∀ i, (f.results.get i).reply = .noReply) ∧ p.doors = s.part.doors ∧ p.windows = s.part.windows ∧
        p.fobs = s.part.fobs

/-- The records at a search's completion (R117, R119), whatever its purpose, with nothing listed behind it: an index whose
record is EMPTY, or whose reply has another id, is set aside and its record stays; NO-REPLY makes the last zone NONE; PASS
sets the run to 0 and takes the zone and the time of the reply; FAIL raises the run up to 8, which blocks the fob, and makes
the zone NONE. Nothing else of the record changes but that a candidate older than 5000 ms goes (R136); that it goes at every
completion that settles the record, also where no other field takes a new value, is the model's reading (log 87). The search
ends. -/
def Obligations.CompletedSearchesSettleTheRecords : Prop :=
  ∀ (s : Sys2Proof.Machine.State) (f : Flight), s.part.locator.flight = some f → f.phase = .reply .f3 →
    f.phaseEnd ≤ s.part.clock → s.part.locator.list = [] → Completes .searchCompletion s fun p =>
      p.locator = ⟨[], none, s.part.locator.draws⟩ ∧ ∀ i,
        let r := s.part.fob i
        let res := f.results.get i
        let after := fun (k : FobKeep) (z : Zone) (seen : Option Nat) =>
          (p.fob i).keep = k ∧ (p.fob i).zone = z ∧ (p.fob i).lastSeen = seen ∧ (p.fob i).lastFrame = r.lastFrame ∧
            (p.fob i).tracker = r.tracker ∧ (p.fob i).waits.map (·.slot) = r.waits.map (·.slot) ∧
            ∀ x, (p.fob i).candidate = some x ↔ r.candidate = some x ∧ s.part.clock - x.time ≤ 5000
        (r.setsAside res → r.same (p.fob i)) ∧
        (¬ r.setsAside res → res.reply = .noReply → after r.keep .nowhere r.lastSeen) ∧
        (¬ r.setsAside res → res.reply = .pass → after { r.keep with run := 0 } (res.zone.getD .nowhere) (some res.time)) ∧
        (¬ r.setsAside res → res.reply = .fail → after { r.keep with
          run := min 8 (r.keep.run + 1)
          blocked := r.keep.blocked || decide (7 ≤ r.keep.run) } .nowhere r.lastSeen)

/-- SEARCH_COMPLETION by purpose (R119 to R125, R14, R17), nothing listed behind the search. LOCK: with a PASS reply found
INSIDE, or the door-opened mark set, no lock state changes; else a fob that qualifies outside, the crash latch clear, locks
every UNLOCKED CLOSED door. The others with nothing waiting for the arbiter. ENTRY: a fob that qualifies on the door's side
unlocks the door, or all five where configured, the relock timer starts from full where R17's conditions hold, and a pending
pull is served as an outer pull; without one only the pending pull goes. TAILGATE: a fob that qualifies behind the car pulses
the tailgate's latch and moves no lock; without one nothing changes. LOCATE: every requesting order ends DONE with COMPLETED,
word 6 giving each index's code, word 7 the antennas used and the time. -/
def Obligations.SearchResultsActByPurpose : Prop :=
  (∀ (s : Sys2Proof.Machine.State) (f : Flight), s.part.locator.flight = some f → f.phase = .reply .f3 →
      f.phaseEnd ≤ s.part.clock → f.request.purpose = .lock → s.part.locator.list = [] →
      let inside := ∃ i, (f.results.get i).reply = .pass ∧ (f.results.get i).zone = some .inside
      let outside := ∃ i z, (s.part.fob i).keep.state = .enrolled ∧ (s.part.fob i).keep.id = (f.results.get i).id ∧
        (s.part.fob i).keep.blocked = false ∧ (s.part.fob i).keep.permitted = true ∧ (f.results.get i).reply = .pass ∧
        (f.results.get i).zone = some z ∧ z ≠ .inside ∧ z ≠ .nowhere
      (inside ∨ f.request.opened = true → Completes .searchCompletion s fun p => p.doors = s.part.doors ∧
        p.locator.flight = none ∧ p.locator.list = []) ∧
      (¬ inside → f.request.opened = false → outside → s.part.crashSet = false → Completes .searchCompletion s fun p =>
        p.locator.flight = none ∧ ∀ d, (s.part.door d).ajar = .isClosed → (s.part.door d).lock = .unlocked →
          (p.door d).lock = .locked)) ∧
  ∀ (s : Sys2Proof.Machine.State) (f : Flight), s.part.locator.flight = some f → f.phase = .reply .f3 →
    f.phaseEnd ≤ s.part.clock → s.part.locator.list = [] → s.part.waiting = [] →
    let foundIn := fun z => ∃ i, (s.part.fob i).qualifiesIn (f.results.get i) z
    let pulses := fun (p : Sys2Proof.Machine.Part) (d : Door) (src : SourceSet) =>
      p.latch d = some ⟨.pulsing, false, .release, src, [], some (s.part.clock + s.part.cfg.latchPulse)⟩ ∧
        p.holders = s.part.holders ++ [⟨.latch d, 1, .release, s.part.clock, .withinBudget⟩]
    let frees := fun d => (s.part.door d).ajar = .isClosed ∧ (s.part.door d).fault ≠ .driver ∧ s.part.latch d = none ∧
      1 ≤ s.part.unitsFree
    (∀ d, f.request.purpose = .entry → f.request.door = some d →
      (foundIn (doorZone d) → Completes .searchCompletion s fun p =>
        let all := s.part.cfg.entryUnlocksAll = true
        let relocks := s.part.cfg.relockTime ≠ 0 ∧ s.part.crashSet = false ∧ s.part.doors.ign = false ∧
          ∀ x, (s.part.door x).ajar = .isClosed
        (p.door d).lock = .unlocked ∧ (p.door d).pull = false ∧ (all → ∀ x, (p.door x).lock = .unlocked) ∧
        (¬ all → ∀ x, x ≠ d → p.door x = s.part.door x) ∧
        (relocks → p.doors.relock = some (s.part.clock + s.part.cfg.relockTime)) ∧
        (¬ relocks → p.doors.relock = none) ∧
        ((s.part.door d).pull = false → p.latches = s.part.latches ∧ p.holders = s.part.holders) ∧
        ((s.part.door d).pull = true → frees d → pulses p d ⟨true, false, false, false, false⟩)) ∧
      (¬ foundIn (doorZone d) → Completes .searchCompletion s fun p => p.latches = s.part.latches ∧
        p.holders = s.part.holders ∧ p.doors = { s.part.doors with recs := p.doors.recs } ∧
        ∀ x, p.door x = if x = d then { s.part.door x with pull := false } else s.part.door x)) ∧
    (f.request.purpose = .tailgate →
      (foundIn .outRear → frees .tg → Completes .searchCompletion s fun p =>
        pulses p .tg ⟨false, false, true, false, false⟩ ∧ p.doors = s.part.doors) ∧
      (¬ foundIn .outRear → Completes .searchCompletion s fun p => p.latches = s.part.latches ∧
        p.doors = s.part.doors ∧ p.holders = s.part.holders)) ∧
    (f.request.purpose = .locate → s.part.tidy → Completes .searchCompletion s fun p => p.doors = s.part.doors ∧
      p.latches = s.part.latches ∧ (∀ k, k ∉ f.request.orders → p.head k = s.part.head k) ∧
      ∀ k ∈ f.request.orders,
        p.head k = { s.part.head k with state := .done, code := BitVec.ofNat 8 OrderOutcome.completed.code } ∧
        let word6 := (Memory.readWord p.port.memory (slotWord k 6)).toNat
        let word7 := (Memory.readWord p.port.memory (slotWord k 7)).toNat
        (∀ i, let r := s.part.fob i
          let res := f.results.get i
          (word6 / 8 ^ i.ctorIdx) % 8 = if r.keep.state = .vacant ∨ (res.reply ≠ .noReply ∧ res.id ≠ r.keep.id) then 0 else
            match res.reply with
            | .noReply => 1
            | .fail => 2
            | .pass => 3 + (res.zone.getD .nowhere).ctorIdx) ∧
        word6 < 4096 ∧ (∀ a, word7.testBit a.ctorIdx = f.used.get a) ∧ word7 / 128 % 2 ^ 24 = s.part.clock % 2 ^ 24)

/-- REMOTE_FRAME in SERVICE with the receiver sound (R11 to R13, R34, R133 to R141). An unknown id changes nothing but the
dwell; a frame of a SUSPENDED record or a wrong check code changes no fob record. A new press (1 to 64 ahead), or the pair of
a candidate, stores its counter, lifts the passive block, and its button acts: UNLOCK without selective unlock unlocks all
doors; LOCK locks, or as the second of a pair within 2000 ms on a shut car with IGN off deadlocks, and is refused with the
crash latch set; TAILGATE releases the tailgate whatever its lock. A frame 65 to 4096 ahead becomes the candidate; one behind,
or further ahead, changes no record. A continuation stores no counter, and 1500 ms after the press starts the hold's
operation, or makes its tracker SPENT where that is refused. -/
def Obligations.RemoteFramesAreJudgedAndAct : Prop :=
  (∀ (s : Sys2Proof.Machine.State) (fr : Frame), s.part.state = .service → s.part.degraded.receiver = false →
      (s.part.fobOf fr.id = none → exec (.remoteFrame fr) s =
        .next { s with part := { s.part with dwell := some (s.part.clock + s.part.cfg.dozeDwell) } }) ∧
      (∀ f, s.part.fobOf fr.id = some f → (s.part.fob f).keep.state = .suspended ∨ fr.check = .fail →
        Completes (.remoteFrame fr) s fun p => p.fobs = s.part.fobs ∧ p.doors = s.part.doors) ∧
      (∀ f, s.part.fobOf fr.id = some f → (s.part.fob f).keep.state ≠ .suspended → fr.check = .pass →
        fr.button = .unlock → (s.part.fob f).candidate = none → (s.part.fob f).tracker = .idle →
        (s.part.fob f).keep.counter.toNat < fr.counter.toNat → fr.counter.toNat ≤ (s.part.fob f).keep.counter.toNat + 64 →
        Completes (.remoteFrame fr) s fun p =>
          (p.fob f).keep = { (s.part.fob f).keep with counter := fr.counter, run := 0, blocked := false } ∧
          (p.fob f).lastFrame = some ⟨fr.counter, fr.rep, s.part.clock⟩ ∧ (p.fob f).lastSeen = some s.part.clock ∧
          (p.fob f).zone = (s.part.fob f).zone ∧ (p.fob f).tracker = .tracking .unlock s.part.clock ∧
          (∀ g, g ≠ f → (s.part.fob g).same (p.fob g)) ∧
          (s.part.cfg.selectiveUnlock = false → ∀ d, (p.door d).lock = .unlocked))) ∧
  ∀ (s : Sys2Proof.Machine.State) (fr : Frame) (f : Fob), s.part.state = .service → s.part.degraded.receiver = false →
    s.part.fobOf fr.id = some f → (s.part.fob f).keep.state ≠ .suspended → fr.check = .pass →
    let r := s.part.fob f
    let last := r.keep.counter.toNat
    let n := fr.counter.toNat
    let now := s.part.clock
    let presses := (r.candidate = none ∧ last < n ∧ n ≤ last + 64) ∨
      ∃ k, r.candidate = some k ∧ now - k.time ≤ 5000 ∧ n = k.counter.toNat + 1
    let stored := fun p : Sys2Proof.Machine.Part =>
      (p.fob f).keep = { r.keep with counter := fr.counter, run := 0, blocked := false } ∧ (p.fob f).candidate = none ∧
        (p.fob f).lastFrame = some ⟨fr.counter, fr.rep, now⟩ ∧ (p.fob f).lastSeen = some now
    let pairs := ∃ x, s.part.doors.press = some ⟨.lock, x⟩ ∧ (stampOf now - x).toNat ≤ 2000
    let continues := r.candidate = none ∧ n = last ∧
      ∃ l, r.lastFrame = some l ∧ l.counter = fr.counter ∧ l.rep < fr.rep ∧ now - l.time ≤ 250
    (presses → r.tracker = .idle → fr.button = .lock →
      (Completes (.remoteFrame fr) s fun p => stored p ∧ (p.fob f).tracker = .tracking .lock now ∧
        p.latches = s.part.latches ∧ p.windows = s.part.windows) ∧
      (s.part.crashSet = true → Completes (.remoteFrame fr) s fun p => p.doors = s.part.doors) ∧
      (s.part.crashSet = false → ¬ pairs → Completes (.remoteFrame fr) s fun p => p.doors.relock = none ∧
        p.doors.press = some ⟨.lock, stampOf now⟩ ∧
        ∀ d, p.door d = { s.part.door d with lock := (p.door d).lock } ∧ (p.door d).lock =
          if (s.part.door d).lock = .unlocked then (if (s.part.door d).ajar = .isClosed then .locked else .lockPending)
          else (s.part.door d).lock) ∧
      (s.part.crashSet = false → pairs → s.part.doors.ign = false → (∀ d, (s.part.door d).ajar = .isClosed) →
        Completes (.remoteFrame fr) s fun p => p.doors.relock = none ∧ p.doors.press = none ∧
          ∀ d, (s.part.door d).lock ≠ .lockPending → (p.door d).lock = .deadlocked)) ∧
    (presses → r.tracker = .idle → fr.button = .tailgate → s.part.waiting = [] → 1 ≤ s.part.unitsFree →
      (s.part.door .tg).ajar = .isClosed → (s.part.door .tg).fault ≠ .driver → s.part.latch .tg = none →
      Completes (.remoteFrame fr) s fun p => stored p ∧ (p.fob f).tracker = .idle ∧ p.doors = s.part.doors ∧
        p.latch .tg = some ⟨.pulsing, false, .release, ⟨false, false, false, true, false⟩, [],
          some (now + s.part.cfg.latchPulse)⟩) ∧
    (r.candidate = none → last + 64 < n → n ≤ last + 4096 → Completes (.remoteFrame fr) s fun p =>
      p.fob f = { r with candidate := some ⟨fr.counter, now⟩ } ∧ p.doors = s.part.doors ∧ p.latches = s.part.latches) ∧
    (r.candidate = none → n < last ∨ last + 4096 < n → Completes (.remoteFrame fr) s fun p =>
      p.fobs = s.part.fobs ∧ p.doors = s.part.doors ∧ p.latches = s.part.latches) ∧
    (continues → ∀ b since, r.tracker = .tracking b since →
      let kind : OpKind := match b with
        | .lock => .comfortClose
        | .unlock => .comfortOpen
      let keeps := fun p : Sys2Proof.Machine.Part => (p.fob f).keep = { r.keep with run := 0, blocked := false } ∧
        (p.fob f).lastFrame = some ⟨fr.counter, fr.rep, now⟩ ∧ (p.fob f).lastSeen = some now
      (now - since < 1500 → Completes (.remoteFrame fr) s fun p => keeps p ∧ (p.fob f).tracker = r.tracker ∧
        p.doors = s.part.doors ∧ p.operation = s.part.operation ∧ p.windows = s.part.windows) ∧
      (1500 ≤ now - since → s.part.sequencerRuns = false → b = .unlock ∨ s.part.crashSet = false →
        Completes (.remoteFrame fr) s fun p => keeps p ∧ (p.fob f).tracker = .session b since ∧
          ∃ o, p.operation = some o ∧ o.kind = kind ∧ o.origin = .hold f ∧ o.since = now) ∧
      (1500 ≤ now - since → s.part.sequencerRuns = true ∨ (b = .lock ∧ s.part.crashSet = true) →
        Completes (.remoteFrame fr) s fun p => keeps p ∧ (p.fob f).tracker = .spent b since ∧
          p.operation = s.part.operation ∧ p.doors = s.part.doors ∧ p.windows = s.part.windows)) ∧
    (r.candidate = none → n = last → ¬ continues → Completes (.remoteFrame fr) s fun p =>
      p.fobs = s.part.fobs ∧ p.doors = s.part.doors)

/-- How a combined operation starts (R150 to R153, R155), every window at rest and none learning, 8 units free, nothing waiting,
the crash latch clear: a window out of service, UNLEARNED or thermally blocked is SKIPPED with that reason, one at its target
is DONE with END or for the vent position TARGET, every other is MOVING and its window moves in TARGET mode for the
Sequencer. With an entry MOVING the order stays TAKEN; with none the operation ends at once, COMPLETED or PARTIAL, and the
order with it. The bounds on travel, offset and vent depth are those of configuration check 5 and of a learn (R92). -/
def Obligations.OperationsAnswerEachWindow : Prop :=
  ∀ (s : Sys2Proof.Machine.State) (h : OrderHead) (k : OpKind) (e : Instr) (o : OrderKind), s.part.accepts h →
    (k = .comfortClose ∧ e = .comfortClose h ∧ o = .comfortClose) ∨ (k = .comfortOpen ∧ e = .comfortOpen h ∧ o = .comfortOpen) ∨
      (k = .vent ∧ e = .vent h ∧ o = .vent) →
    s.part.sequencerRuns = false → s.part.crashSet = false → s.part.waiting = [] → 8 ≤ s.part.unitsFree →
    (∀ c, (s.part.window c).motion = .stopped ∧ (s.part.window c).pending = none ∧ (s.part.monitor c).learn = none ∧
      ((s.part.window c).learned = true → 1000 ≤ (s.part.window c).travel)) →
    s.part.cfg.softStopOffset ≤ 20 → s.part.cfg.softStopOffset + s.part.cfg.slowZone < s.part.cfg.ventDepth →
    s.part.cfg.ventDepth ≤ 600 →
    let target := fun c => match k with
      | .comfortClose => (s.part.window c).travel - s.part.cfg.softStopOffset
      | .comfortOpen => s.part.cfg.softStopOffset
      | .vent => (s.part.window c).travel - s.part.cfg.ventDepth
    let skips := fun c => if s.part.outOfService c then some EntryReason.outOfService
      else if (s.part.window c).learned = false then some .unlearned
      else if (s.part.window c).thermal then some .thermal
      else none
    let already := fun c => (k = .comfortClose ∧ target c ≤ (s.part.window c).position) ∨
      (k = .comfortOpen ∧ (s.part.window c).position ≤ target c) ∨ (k = .vent ∧ (s.part.window c).position = target c)
    let reason : EntryReason := if k = .vent then .target else .atEnd
    Completes e s fun p => ∃ op, p.operation = some op ∧ op.kind = k ∧ op.origin = .order h.slot ∧
      op.since = s.part.clock ∧
      (∀ c,
        (∀ r, skips c = some r → op.entries.get c = ⟨.skipped, none, some r⟩ ∧ p.window c = s.part.window c) ∧
        (skips c = none → already c →
          op.entries.get c = ⟨.done, some (target c), some reason⟩ ∧ p.window c = s.part.window c) ∧
        (skips c = none → ¬ already c → op.entries.get c = ⟨.moving, some (target c), none⟩ ∧
          (p.window c).mode = some .target ∧ (p.window c).target = some (target c) ∧
          (p.window c).mover = some .sequencer ∧ (p.window c).pending = none ∧
          (p.window c).motion = if (s.part.window c).position < target c then .closing else .opening)) ∧
      ((∃ c, skips c = none ∧ ¬ already c) → op.ended = none ∧ p.orderStands h o) ∧
      ((∀ c, skips c = none → already c) →
        ((∀ c, skips c = none) → op.ended = some ⟨.completed, s.part.clock⟩ ∧ p.endedDone h o .completed) ∧
        ((∃ c, skips c ≠ none) → op.ended = some ⟨.partway, s.part.clock⟩ ∧ p.endedDone h o .partway))

/-- How a running operation follows its windows and ends (R154 to R158). A counted pulse at the soft stop makes a MOVING
entry DONE with END, a wait limit a WAITING one DONE with BUDGET-TIMEOUT; where no other entry is WAITING or MOVING the
operation ends, COMPLETED if every entry is DONE with END or for VENT TARGET, else PARTIAL, and its order with it. The crash
event makes every WAITING or MOVING entry DONE with CRASH and ends it CRASH; the end of its hold session makes them DONE
with SWITCH-RELEASED, stops its windows and ends it PARTIAL. A pulse of a close is one that its period does not make a pinch.
The microsecond of a pulse (log 14) and that a crash event with the latch already set ends the operation too (log 96) are the
model's choices. -/
def Obligations.OperationsFollowTheirWindows : Prop :=
  ∀ (s : Sys2Proof.Machine.State) (o : Operation), s.part.operation = some o → o.ended = none →
    let live := fun c => (o.entries.get c).state = .waiting ∨ (o.entries.get c).state = .moving
    let slotDone := fun (p : Sys2Proof.Machine.Part) (out : OrderOutcome) => ∀ k, o.origin = .order k →
      p.head k = { s.part.head k with state := .done, code := BitVec.ofNat 8 out.code }
    let takes := fun (p : Sys2Proof.Machine.Part) (c : Corner) (r : EntryReason) =>
      ∃ q, p.operation = some q ∧ q.kind = o.kind ∧ q.origin = o.origin ∧ q.since = o.since ∧ q.lock = o.lock ∧
        q.entries.get c = { o.entries.get c with state := .done, reason := some r } ∧
        (∀ x, x ≠ c → q.entries.get x = o.entries.get x) ∧
        let good := ∀ x, (q.entries.get x).state = .done ∧ ((q.entries.get x).reason = some .atEnd ∨
          (o.kind = .vent ∧ (q.entries.get x).reason = some .target))
        ((∃ x, x ≠ c ∧ live x) → q.ended = none ∧ p.heads = s.part.heads) ∧
        ((∀ x, x ≠ c → ¬ live x) → good → q.ended = some ⟨.completed, s.part.clock⟩ ∧ slotDone p .completed) ∧
        ((∀ x, x ≠ c → ¬ live x) → ¬ good → q.ended = some ⟨.partway, s.part.clock⟩ ∧ slotDone p .partway)
    let allTake := fun (p : Sys2Proof.Machine.Part) (r : EntryReason) (out : OpOutcome) =>
      ∃ q, p.operation = some q ∧ q.kind = o.kind ∧ q.origin = o.origin ∧ q.ended = some ⟨out, s.part.clock⟩ ∧
        ∀ c, (live c → q.entries.get c = { o.entries.get c with state := .done, reason := some r }) ∧
          (¬ live c → q.entries.get c = o.entries.get c)
    (∀ c high us, 200 ≤ high → live c → (s.part.window c).mover = some .sequencer → (s.part.window c).mode = some .target →
      (s.part.window c).learned = true → (s.part.monitor c).learn = none → s.part.waiting = [] →
      (∀ t, (s.part.window c).target = some t →
        ((s.part.window c).motion = .opening → t = s.part.cfg.softStopOffset → (s.part.window c).position ≤ t + 1 →
          Completes (.hallPulse c high us) s fun p => takes p c .atEnd ∧ (p.window c).motion = .stopped) ∧
        ((s.part.window c).motion = .closing → t = (s.part.window c).travel - s.part.cfg.softStopOffset →
          (s.part.monitor c).baseline.length ≤ 16 → ¬ s.part.pulsePinches c us →
          (s.part.window c).position ≤ (s.part.window c).travel → t ≤ (s.part.window c).position + 1 →
          Completes (.hallPulse c high us) s fun p => takes p c .atEnd ∧ (p.window c).motion = .stopped))) ∧
    (∀ c w x, live c → s.part.waiting = [w] → w.actuator = .window c → w.limit ≤ s.part.clock →
      (s.part.window c).pending = some x → x.cmd.mover = .sequencer →
      Completes (.waitLimitExpiry (.window c)) s fun p => takes p c .budgetTimeout ∧ p.waiting = [] ∧
        (p.window c).pending = none) ∧
    (∀ a, s.part.crash.assertion = some a → a.taken = false → a.since + 4 ≤ s.part.clock → s.part.doorService = true →
      s.part.state ≠ .doze → Completes .crashEvent s fun p => allTake p .crash .crash ∧ slotDone p .crash) ∧
    (∀ f b t l, o.origin = .hold f → (∃ c, live c) → (s.part.fob f).tracker = .session b t →
      (s.part.fob f).lastFrame = some l → l.time + 300 ≤ s.part.clock →
      Completes (.holdTrackerExpiry f) s fun p => allTake p .switchReleased .partway ∧ (p.fob f).tracker = .idle ∧
        (s.part.waiting = [] → ∀ c, (o.entries.get c).state = .moving → (s.part.window c).underWay = true →
          (p.window c).motion = .stopped ∧ (p.window c).lastStop = some .switchReleased))

/-! ### Laws that every step keeps -/

/-- Every step keeps the stored bytes and parity marks in canonical form, and the scroll within 128 rows (R193). -/
def Obligations.StepsKeepMemoryAndScrollTidy : Prop :=
  ∀ s t : Sys2Proof.Machine.State, s.part.tidy → step s = .next t → t.part.tidy

/-- Every step keeps each door's lock state fitting its ajar field (R2), and the stored lock record free of
LOCK-PENDING (R26). -/
def Obligations.StepsKeepDoorsFittingTheirContacts : Prop :=
  ∀ s t : Sys2Proof.Machine.State, s.part.doorsFit → step s = .next t → t.part.doorsFit

/-- Every step keeps the law of the crash latch (R169): while it is set no door is LOCKED, DEADLOCKED or LOCK-PENDING, no
child lock ENGAGED and no window CLOSING. -/
def Obligations.StepsKeepTheCrashLatchLaw : Prop :=
  ∀ s t : Sys2Proof.Machine.State, s.part.crashSafe → step s = .next t → t.part.crashSafe

/-- Every step keeps the units held outside escape releases within the budget in force (R100); a grant with every window that
is not STOPPED (R62, R98), and the units of every holder and of every waiting request as its actuator's, 2 for a window and 1
for a latch (R98, R99); the search list at six requests or fewer, no two alike (R110); and no record twice in the dirty set
(R206). -/
def Obligations.StepsKeepUnitsGrantsAndLists : Prop :=
  ∀ s t : Sys2Proof.Machine.State, step s = .next t →
    (s.part.unitsFit → t.part.unitsFit) ∧ (s.part.grantsFit → t.part.grantsFit) ∧
      (s.part.searchesFit → t.part.searchesFit) ∧ (s.part.dirtyFits → t.part.dirtyFits)

/-- Every step keeps the entries of a running operation with their windows' commands (R149, R152 to R154): a WAITING entry's
window has a pending command with mover SEQUENCER, a MOVING entry's window moves for the SEQUENCER, and no learn runs there;
and it keeps pending commands to windows that are STOPPED (R58, R61). -/
def Obligations.StepsKeepEntriesWithTheirCommands : Prop :=
  ∀ s t : Sys2Proof.Machine.State, s.part.entriesFit → step s = .next t → t.part.entriesFit

/-- Every command keeps each candidate's counter above the stored one; and a stored counter never falls (R135): of the
commands other than the power-on reset, the STORE stage, and those that can take an order from the board (the orders, a burst
of words, the end of a wake), none makes or empties a record, changes its fob id or lowers its counter. -/
def Obligations.StoredCountersNeverFall : Prop :=
  ∀ (e : Instr) (s t : Sys2Proof.Machine.State), exec e s = .next t → s.part.candidatesFit →
    t.part.candidatesFit ∧
    ((∀ strap, e ≠ .powerOnReset strap) → (∀ found, e ≠ .storeStageEnd found) → orderPosted e = none →
      (∀ i ws, e ≠ .memoryWrite i ws) → (∀ ws, e ≠ .writeOn ws) → e ≠ .woke →
      ∀ f, ((t.part.fob f).keep.state = .vacant ↔ (s.part.fob f).keep.state = .vacant) ∧
        (t.part.fob f).keep.id = (s.part.fob f).keep.id ∧
        (s.part.fob f).keep.counter.toNat ≤ (t.part.fob f).keep.counter.toNat)

/-- R191, R193: a command that ends an order, whichever it is, leaves the slot's ORDER row in the unread span, written now
with the code, tag, kind and state of its head, or ORDER in the dropped-class mark. -/
def Obligations.EveryEndedOrderIsReported : Prop :=
  ∀ (c : Instr) (s t : Sys2Proof.Machine.State), s.part.tidy → exec c s = .next t → ∀ k : Slot,
    (s.part.head k).ended = false → (t.part.head k).ended = true → t.part.reported k

/-- The strap fixes the driver door until the next power-on reset (R198), and only a power-on reset turns the time
counter back (R197): every other command keeps both. -/
def Obligations.OnlyPowerOnResetChangesDriverDoorAndClock : Prop :=
  ∀ (c : Instr) (s t : Sys2Proof.Machine.State), (∀ strap, c ≠ .powerOnReset strap) → exec c s = .next t →
    t.part.driverDoor = s.part.driverDoor ∧ t.part.clock = s.part.clock ∧ t.pending = s.pending
end

