-- ==== Sys2Proof/Laws/Memory.lean ====
section
/-! SUPPORT. The memory's operations: what a read gives after a write, and that every operation keeps the canonical
form (log 7). -/

-- One theorem at a time: elaborated side by side, the lemmas take more threads than the check has memory for.
set_option deprecated.oldSectionVars true

namespace Sys2Proof.Machine

/-! ### The canonical form -/

theorem Memory.wfFrom_cons {lo k : Nat} {v : Byte} {m : Memory} :
    Memory.wfFrom lo ((k, v) :: m) = true ↔ lo ≤ k ∧ v ≠ 0 ∧ Memory.wfFrom (k + 1) m = true := by
  simp only [Memory.wfFrom, Bool.and_eq_true, decide_eq_true_eq, and_assoc]

theorem Memory.wfFrom_mono {lo lo' : Nat} (h : lo' ≤ lo) : ∀ {m : Memory}, Memory.wfFrom lo m = true → Memory.wfFrom lo' m = true
  | [], _ => rfl
  | (k, v) :: m, hw => by
    rw [Memory.wfFrom_cons] at hw ⊢
    exact ⟨by omega, hw.2⟩

theorem Memory.wfFrom_writeByte {a : Nat} {b : Byte} :
    ∀ {lo : Nat} {m : Memory}, lo ≤ a → Memory.wfFrom lo m = true → Memory.wfFrom lo (m.writeByte a b) = true
  | lo, [], hl, _ => by
    unfold Memory.writeByte
    split
    · rfl
    · exact Memory.wfFrom_cons.2 ⟨hl, by assumption, rfl⟩
  | lo, (k, v) :: m, hl, hw => by
    obtain ⟨hk, hv, hm⟩ := Memory.wfFrom_cons.1 hw
    unfold Memory.writeByte
    split
    · split
      · exact hw
      · exact Memory.wfFrom_cons.2 ⟨hl, by assumption, Memory.wfFrom_cons.2 ⟨by omega, hv, hm⟩⟩
    · split
      · subst_vars
        split
        · exact Memory.wfFrom_mono (by omega) hm
        · exact Memory.wfFrom_cons.2 ⟨hl, by assumption, hm⟩
      · exact Memory.wfFrom_cons.2 ⟨hk, hv, Memory.wfFrom_writeByte (by omega) hm⟩

theorem Memory.wf_writeByte {m : Memory} (h : m.wf = true) (a : Nat) (b : Byte) : (m.writeByte a b).wf = true :=
  Memory.wfFrom_writeByte (Nat.zero_le _) h

theorem Memory.wf_writeWord {m : Memory} (h : m.wf = true) (i : Nat) (w : Word) : (m.writeWord i w).wf = true :=
  Memory.wf_writeByte (Memory.wf_writeByte (Memory.wf_writeByte (Memory.wf_writeByte h ..) ..) ..) ..

theorem Memory.wf_writeWords : ∀ (ws : List Word) {m : Memory} (_ : m.wf = true) (i : Nat), (m.writeWords i ws).wf = true
  | [], _, h, _ => h
  | w :: ws, _, h, i => Memory.wf_writeWords ws (Memory.wf_writeWord h i w) (i + 1)

theorem Memory.wfFrom_filter (q : Host.Cell → Bool) :
    ∀ {lo : Nat} {m : Memory}, Memory.wfFrom lo m = true → Memory.wfFrom lo (m.filter q) = true
  | _, [], _ => rfl
  | lo, (k, v) :: m, hw => by
    obtain ⟨hk, hv, hm⟩ := Memory.wfFrom_cons.1 hw
    simp only [List.filter_cons]
    split
    · exact Memory.wfFrom_cons.2 ⟨hk, hv, Memory.wfFrom_filter q hm⟩
    · exact Memory.wfFrom_mono (by omega) (Memory.wfFrom_filter q hm)

theorem Memory.wf_keep {m : Memory} (h : m.wf = true) (lo hi : Nat) : (m.keep lo hi).wf = true := Memory.wfFrom_filter _ h

@[simp] theorem Memory.wf_nil : Memory.wf [] = true := rfl

/-! ### Bytes -/

@[simp] theorem Memory.readByte_nil (a : Nat) : Memory.readByte [] a = 0 := rfl

theorem Memory.readByte_below {a : Nat} : ∀ {lo : Nat} {m : Memory}, Memory.wfFrom lo m = true → a < lo → m.readByte a = 0
  | _, [], _, _ => rfl
  | lo, (k, v) :: m, hw, ha => by
    obtain ⟨hk, -, hm⟩ := Memory.wfFrom_cons.1 hw
    have : k ≠ a := by omega
    simp only [Memory.readByte, this, if_false]
    exact Memory.readByte_below hm (by omega)

theorem Memory.readByte_writeByte_ne {a a' : Nat} {b : Byte} (h : a' ≠ a) :
    ∀ (m : Memory), (m.writeByte a b).readByte a' = m.readByte a'
  | [] => by
    have := Ne.symm h
    unfold Memory.writeByte
    split <;> simp [Memory.readByte, this]
  | (k, v) :: m => by
    have h' := Ne.symm h
    unfold Memory.writeByte
    split
    · split
      · rfl
      · simp [Memory.readByte, h']
    · split
      · subst_vars
        split <;> simp [Memory.readByte, h']
      · simp [Memory.readByte, Memory.readByte_writeByte_ne h m]

theorem Memory.readByte_writeByte_same {a : Nat} {b : Byte} :
    ∀ {lo : Nat} {m : Memory}, Memory.wfFrom lo m = true → (m.writeByte a b).readByte a = b
  | _, [], _ => by
    unfold Memory.writeByte
    split <;> simp [Memory.readByte, *]
  | _, (k, v) :: m, hw => by
    obtain ⟨-, -, hm⟩ := Memory.wfFrom_cons.1 hw
    unfold Memory.writeByte
    split
    · rename_i hlt
      have hne : k ≠ a := by omega
      split
      · rename_i hb
        simp only [Memory.readByte, hne, if_false]
        rw [Memory.readByte_below hm (by omega), hb]
      · simp [Memory.readByte]
    · split
      · subst_vars
        split
        · rename_i hb
          rw [Memory.readByte_below hm (by omega), hb]
        · simp [Memory.readByte]
      · rename_i h1 h2
        simp only [Memory.readByte, Ne.symm h2, if_false]
        exact Memory.readByte_writeByte_same hm

theorem Memory.readByte_writeByte {m : Memory} (h : m.wf = true) (a a' : Nat) (b : Byte) :
    (m.writeByte a b).readByte a' = if a' = a then b else m.readByte a' := by
  split
  · subst_vars; exact Memory.readByte_writeByte_same h
  · exact Memory.readByte_writeByte_ne (by assumption) m

theorem Memory.readByte_filter (q : Host.Cell → Bool) {a : Nat} (hq : ∀ v, q (a, v) = true) :
    ∀ (m : Memory), Memory.readByte (m.filter q) a = m.readByte a
  | [] => rfl
  | (k, v) :: m => by
    simp only [List.filter_cons]
    split
    · simp [Memory.readByte, Memory.readByte_filter q hq m]
    · rename_i h
      have : k ≠ a := by rintro rfl; exact h (hq v)
      simp [Memory.readByte, Memory.readByte_filter q hq m, this]

/-! ### Words -/

theorem Memory.readWord_writeWord_ne {i j : Nat} (h : j ≠ i) (m : Memory) (w : Word) :
    (m.writeWord i w).readWord j = m.readWord j := by
  have e (a b : Nat) (ha : a < 4) (hb : b < 4) : 4 * j + a ≠ 4 * i + b := by omega
  have e0 (b : Nat) (hb : b < 4) : 4 * j ≠ 4 * i + b := by omega
  have e1 (a : Nat) (ha : a < 4) : 4 * j + a ≠ 4 * i := by omega
  have e2 : 4 * j ≠ 4 * i := by omega
  unfold Memory.readWord Memory.writeWord
  rw [Memory.readByte_writeByte_ne (e 3 3 (by omega) (by omega)), Memory.readByte_writeByte_ne (e 3 2 (by omega) (by omega)),
    Memory.readByte_writeByte_ne (e 3 1 (by omega) (by omega)), Memory.readByte_writeByte_ne (e1 3 (by omega)),
    Memory.readByte_writeByte_ne (e 2 3 (by omega) (by omega)), Memory.readByte_writeByte_ne (e 2 2 (by omega) (by omega)),
    Memory.readByte_writeByte_ne (e 2 1 (by omega) (by omega)), Memory.readByte_writeByte_ne (e1 2 (by omega)),
    Memory.readByte_writeByte_ne (e 1 3 (by omega) (by omega)), Memory.readByte_writeByte_ne (e 1 2 (by omega) (by omega)),
    Memory.readByte_writeByte_ne (e 1 1 (by omega) (by omega)), Memory.readByte_writeByte_ne (e1 1 (by omega)),
    Memory.readByte_writeByte_ne (e0 3 (by omega)), Memory.readByte_writeByte_ne (e0 2 (by omega)),
    Memory.readByte_writeByte_ne (e0 1 (by omega)), Memory.readByte_writeByte_ne e2]

theorem bytes_of_word (w : Word) :
    w.extractLsb' 24 8 ++ w.extractLsb' 16 8 ++ w.extractLsb' 8 8 ++ w.extractLsb' 0 8 = w := by
  apply BitVec.eq_of_getLsbD_eq
  intro i hi
  simp only [BitVec.getLsbD_append, BitVec.getLsbD_extractLsb']
  split
  · simp [*]
  · split
    · have : i - 8 < 8 := by omega
      simp [this, show 8 + (i - 8) = i by omega]
    · split
      · have : i - 8 - 8 < 8 := by omega
        simp [this, show 16 + (i - 8 - 8) = i by omega]
      · have : i - 8 - 8 - 8 < 8 := by omega
        simp [this, show 24 + (i - 8 - 8 - 8) = i by omega]

theorem Memory.readWord_writeWord_same {m : Memory} (h : m.wf = true) (i : Nat) (w : Word) :
    (m.writeWord i w).readWord i = w := by
  unfold Memory.readWord Memory.writeWord
  have h0 := Memory.wf_writeByte h (4 * i) (w.extractLsb' 0 8)
  have h1 := Memory.wf_writeByte h0 (4 * i + 1) (w.extractLsb' 8 8)
  have h2 := Memory.wf_writeByte h1 (4 * i + 2) (w.extractLsb' 16 8)
  have e1 : 4 * i + 1 ≠ 4 * i + 3 := by omega
  have e3 : 4 * i ≠ 4 * i + 3 := by omega
  have e4 : 4 * i + 1 ≠ 4 * i + 2 := by omega
  have e5 : 4 * i ≠ 4 * i + 2 := by omega
  have e6 : 4 * i ≠ 4 * i + 1 := by omega
  rw [Memory.readByte_writeByte_same h2, Memory.readByte_writeByte_ne (by omega : 4 * i + 2 ≠ 4 * i + 3),
    Memory.readByte_writeByte_same h1, Memory.readByte_writeByte_ne e1, Memory.readByte_writeByte_ne e4,
    Memory.readByte_writeByte_same h0, Memory.readByte_writeByte_ne e3, Memory.readByte_writeByte_ne e5,
    Memory.readByte_writeByte_ne e6, Memory.readByte_writeByte_same h]
  exact bytes_of_word w

theorem Memory.readWord_writeWord {m : Memory} (h : m.wf = true) (i j : Nat) (w : Word) :
    (m.writeWord i w).readWord j = if j = i then w else m.readWord j := by
  split
  · subst_vars; exact Memory.readWord_writeWord_same h ..
  · exact Memory.readWord_writeWord_ne (by assumption) m w

/-- Words outside a run of written words read as before, in any memory. -/
theorem Memory.readWord_writeWords_ne : ∀ (ws : List Word) (m : Memory) (i : Nat) {j : Nat}, j < i ∨ i + ws.length ≤ j →
    (m.writeWords i ws).readWord j = m.readWord j
  | [], _, _, _, _ => rfl
  | w :: ws, m, i, j, h => by
    simp only [List.length_cons] at h
    rw [Memory.writeWords, Memory.readWord_writeWords_ne ws _ _ (by omega), Memory.readWord_writeWord_ne (by omega)]

/-- A run of written words reads as written. -/
theorem Memory.readWord_writeWords : ∀ (ws : List Word) {m : Memory} (_ : m.wf = true) (i k : Nat), k < ws.length →
    some ((m.writeWords i ws).readWord (i + k)) = ws[k]?
  | [], _, _, _, _, hk => absurd hk (by simp)
  | w :: ws, m, h, i, 0, _ => by
    rw [Memory.writeWords, Memory.readWord_writeWords_ne ws _ _ (by omega), Nat.add_zero, Memory.readWord_writeWord_same h]
    rfl
  | w :: ws, m, h, i, k + 1, hk => by
    rw [Memory.writeWords, show i + (k + 1) = i + 1 + k by omega,
      Memory.readWord_writeWords ws (Memory.wf_writeWord h i w) (i + 1) k (by simpa using hk)]
    rfl

@[simp] theorem Memory.readWord_nil (i : Nat) : Memory.readWord [] i = 0 := by
  unfold Memory.readWord
  simp only [Memory.readByte_nil]
  decide

end Sys2Proof.Machine
end

