-- ==== Sys2Proof/Laws/State.lean ====
section
/-! SUPPORT. What each named update of the part leaves and sets: one lemma for each update, true by `rfl`, so that no
proof unfolds a record update; and the reads and writes of the containers. -/

-- One theorem at a time: elaborated side by side, the lemmas take more threads than the check has memory for.
set_option deprecated.oldSectionVars true

namespace Sys2Proof.Machine

@[simp] theorem Part.setDoor_fields (p : Part) (d : Door) (x : DoorRec) :
    (p.setDoor d x).doors = { p.doors with recs := p.doors.recs.set d x } ∧ (p.setDoor d x).clock = p.clock ∧
    (p.setDoor d x).driverDoor = p.driverDoor ∧ (p.setDoor d x).state = p.state ∧ (p.setDoor d x).degraded =
    p.degraded ∧ (p.setDoor d x).check = p.check ∧ (p.setDoor d x).dwell = p.dwell ∧ (p.setDoor d x).waking =
    p.waking ∧ (p.setDoor d x).listen = p.listen ∧ (p.setDoor d x).timeBaseBad = p.timeBaseBad ∧ (p.setDoor d
    x).inputs = p.inputs ∧ (p.setDoor d x).latches = p.latches ∧ (p.setDoor d x).windows = p.windows ∧ (p.setDoor d
    x).lockout = p.lockout ∧ (p.setDoor d x).spent = p.spent ∧ (p.setDoor d x).monitors = p.monitors ∧ (p.setDoor d
    x).holders = p.holders ∧ (p.setDoor d x).waiting = p.waiting ∧ (p.setDoor d x).locator = p.locator ∧ (p.setDoor
    d x).fobs = p.fobs ∧ (p.setDoor d x).operation = p.operation ∧ (p.setDoor d x).supply = p.supply ∧ (p.setDoor d
    x).crash = p.crash ∧ (p.setDoor d x).port = p.port ∧ (p.setDoor d x).heads = p.heads ∧ (p.setDoor d x).scroll =
    p.scroll ∧ (p.setDoor d x).store = p.store ∧ (p.setDoor d x).cfg = p.cfg ∧ (p.setDoor d x).budget = p.budget ∧
    (p.setDoor d x).unitsFree = p.unitsFree ∧ (p.setDoor d x).crashSet = p.crashSet ∧ (p.setDoor d x).inService =
    p.inService ∧ (p.setDoor d x).doorService = p.doorService ∧ (p.setDoor d x).inSafeHold = p.inSafeHold ∧
    (p.setDoor d x).sequencerRuns = p.sequencerRuns ∧ (∀ y, (p.setDoor d x).window y = p.window y) ∧ (∀ y,
    (p.setDoor d x).monitor y = p.monitor y) ∧ (∀ y, (p.setDoor d x).fob y = p.fob y) ∧ (∀ y, (p.setDoor d x).input
    y = p.input y) ∧ (∀ y, (p.setDoor d x).latch y = p.latch y) ∧ (∀ y, (p.setDoor d x).head y = p.head y) ∧ (∀ y,
    (p.setDoor d x).muted y = p.muted y) ∧ (∀ y, (p.setDoor d x).outOfService y = p.outOfService y) := by
  and_intros <;> intros <;> rfl

@[simp] theorem Part.setWindow_fields (p : Part) (c : Corner) (x : WindowRec) :
    (p.setWindow c x).windows = p.windows.set c x ∧ (p.setWindow c x).clock = p.clock ∧ (p.setWindow c x).driverDoor
    = p.driverDoor ∧ (p.setWindow c x).state = p.state ∧ (p.setWindow c x).degraded = p.degraded ∧ (p.setWindow c
    x).check = p.check ∧ (p.setWindow c x).dwell = p.dwell ∧ (p.setWindow c x).waking = p.waking ∧ (p.setWindow c
    x).listen = p.listen ∧ (p.setWindow c x).timeBaseBad = p.timeBaseBad ∧ (p.setWindow c x).inputs = p.inputs ∧
    (p.setWindow c x).doors = p.doors ∧ (p.setWindow c x).latches = p.latches ∧ (p.setWindow c x).lockout =
    p.lockout ∧ (p.setWindow c x).spent = p.spent ∧ (p.setWindow c x).monitors = p.monitors ∧ (p.setWindow c
    x).holders = p.holders ∧ (p.setWindow c x).waiting = p.waiting ∧ (p.setWindow c x).locator = p.locator ∧
    (p.setWindow c x).fobs = p.fobs ∧ (p.setWindow c x).operation = p.operation ∧ (p.setWindow c x).supply =
    p.supply ∧ (p.setWindow c x).crash = p.crash ∧ (p.setWindow c x).port = p.port ∧ (p.setWindow c x).heads =
    p.heads ∧ (p.setWindow c x).scroll = p.scroll ∧ (p.setWindow c x).store = p.store ∧ (p.setWindow c x).cfg =
    p.cfg ∧ (p.setWindow c x).budget = p.budget ∧ (p.setWindow c x).unitsFree = p.unitsFree ∧ (p.setWindow c
    x).crashSet = p.crashSet ∧ (p.setWindow c x).inService = p.inService ∧ (p.setWindow c x).doorService =
    p.doorService ∧ (p.setWindow c x).inSafeHold = p.inSafeHold ∧ (p.setWindow c x).sequencerRuns = p.sequencerRuns
    ∧ (∀ y, (p.setWindow c x).door y = p.door y) ∧ (∀ y, (p.setWindow c x).monitor y = p.monitor y) ∧ (∀ y,
    (p.setWindow c x).fob y = p.fob y) ∧ (∀ y, (p.setWindow c x).input y = p.input y) ∧ (∀ y, (p.setWindow c
    x).latch y = p.latch y) ∧ (∀ y, (p.setWindow c x).head y = p.head y) ∧ (∀ y, (p.setWindow c x).muted y = p.muted
    y) ∧ (∀ y, (p.setWindow c x).outOfService y = p.outOfService y) := by
  and_intros <;> intros <;> rfl

@[simp] theorem Part.setMonitor_fields (p : Part) (c : Corner) (x : MonitorRec) :
    (p.setMonitor c x).monitors = p.monitors.set c x ∧ (p.setMonitor c x).clock = p.clock ∧ (p.setMonitor c
    x).driverDoor = p.driverDoor ∧ (p.setMonitor c x).state = p.state ∧ (p.setMonitor c x).degraded = p.degraded ∧
    (p.setMonitor c x).check = p.check ∧ (p.setMonitor c x).dwell = p.dwell ∧ (p.setMonitor c x).waking = p.waking ∧
    (p.setMonitor c x).listen = p.listen ∧ (p.setMonitor c x).timeBaseBad = p.timeBaseBad ∧ (p.setMonitor c
    x).inputs = p.inputs ∧ (p.setMonitor c x).doors = p.doors ∧ (p.setMonitor c x).latches = p.latches ∧
    (p.setMonitor c x).windows = p.windows ∧ (p.setMonitor c x).lockout = p.lockout ∧ (p.setMonitor c x).spent =
    p.spent ∧ (p.setMonitor c x).holders = p.holders ∧ (p.setMonitor c x).waiting = p.waiting ∧ (p.setMonitor c
    x).locator = p.locator ∧ (p.setMonitor c x).fobs = p.fobs ∧ (p.setMonitor c x).operation = p.operation ∧
    (p.setMonitor c x).supply = p.supply ∧ (p.setMonitor c x).crash = p.crash ∧ (p.setMonitor c x).port = p.port ∧
    (p.setMonitor c x).heads = p.heads ∧ (p.setMonitor c x).scroll = p.scroll ∧ (p.setMonitor c x).store = p.store ∧
    (p.setMonitor c x).cfg = p.cfg ∧ (p.setMonitor c x).budget = p.budget ∧ (p.setMonitor c x).unitsFree =
    p.unitsFree ∧ (p.setMonitor c x).crashSet = p.crashSet ∧ (p.setMonitor c x).inService = p.inService ∧
    (p.setMonitor c x).doorService = p.doorService ∧ (p.setMonitor c x).inSafeHold = p.inSafeHold ∧ (p.setMonitor c
    x).sequencerRuns = p.sequencerRuns ∧ (∀ y, (p.setMonitor c x).door y = p.door y) ∧ (∀ y, (p.setMonitor c
    x).window y = p.window y) ∧ (∀ y, (p.setMonitor c x).fob y = p.fob y) ∧ (∀ y, (p.setMonitor c x).input y =
    p.input y) ∧ (∀ y, (p.setMonitor c x).latch y = p.latch y) ∧ (∀ y, (p.setMonitor c x).head y = p.head y) ∧ (∀ y,
    (p.setMonitor c x).muted y = p.muted y) ∧ (∀ y, (p.setMonitor c x).outOfService y = p.outOfService y) := by
  and_intros <;> intros <;> rfl

@[simp] theorem Part.setFob_fields (p : Part) (f : Fob) (x : FobRec) :
    (p.setFob f x).fobs = p.fobs.set f x ∧ (p.setFob f x).clock = p.clock ∧ (p.setFob f x).driverDoor = p.driverDoor
    ∧ (p.setFob f x).state = p.state ∧ (p.setFob f x).degraded = p.degraded ∧ (p.setFob f x).check = p.check ∧
    (p.setFob f x).dwell = p.dwell ∧ (p.setFob f x).waking = p.waking ∧ (p.setFob f x).listen = p.listen ∧ (p.setFob
    f x).timeBaseBad = p.timeBaseBad ∧ (p.setFob f x).inputs = p.inputs ∧ (p.setFob f x).doors = p.doors ∧ (p.setFob
    f x).latches = p.latches ∧ (p.setFob f x).windows = p.windows ∧ (p.setFob f x).lockout = p.lockout ∧ (p.setFob f
    x).spent = p.spent ∧ (p.setFob f x).monitors = p.monitors ∧ (p.setFob f x).holders = p.holders ∧ (p.setFob f
    x).waiting = p.waiting ∧ (p.setFob f x).locator = p.locator ∧ (p.setFob f x).operation = p.operation ∧ (p.setFob
    f x).supply = p.supply ∧ (p.setFob f x).crash = p.crash ∧ (p.setFob f x).port = p.port ∧ (p.setFob f x).heads =
    p.heads ∧ (p.setFob f x).scroll = p.scroll ∧ (p.setFob f x).store = p.store ∧ (p.setFob f x).cfg = p.cfg ∧
    (p.setFob f x).budget = p.budget ∧ (p.setFob f x).unitsFree = p.unitsFree ∧ (p.setFob f x).crashSet = p.crashSet
    ∧ (p.setFob f x).inService = p.inService ∧ (p.setFob f x).doorService = p.doorService ∧ (p.setFob f
    x).inSafeHold = p.inSafeHold ∧ (p.setFob f x).sequencerRuns = p.sequencerRuns ∧ (∀ y, (p.setFob f x).door y =
    p.door y) ∧ (∀ y, (p.setFob f x).window y = p.window y) ∧ (∀ y, (p.setFob f x).monitor y = p.monitor y) ∧ (∀ y,
    (p.setFob f x).input y = p.input y) ∧ (∀ y, (p.setFob f x).latch y = p.latch y) ∧ (∀ y, (p.setFob f x).head y =
    p.head y) ∧ (∀ y, (p.setFob f x).muted y = p.muted y) ∧ (∀ y, (p.setFob f x).outOfService y = p.outOfService y) := by
  and_intros <;> intros <;> rfl

@[simp] theorem Part.setInput_fields (p : Part) (i : Input) (x : InputRec) :
    (p.setInput i x).inputs = p.inputs.set i x ∧ (p.setInput i x).clock = p.clock ∧ (p.setInput i x).driverDoor =
    p.driverDoor ∧ (p.setInput i x).state = p.state ∧ (p.setInput i x).degraded = p.degraded ∧ (p.setInput i
    x).check = p.check ∧ (p.setInput i x).dwell = p.dwell ∧ (p.setInput i x).waking = p.waking ∧ (p.setInput i
    x).listen = p.listen ∧ (p.setInput i x).timeBaseBad = p.timeBaseBad ∧ (p.setInput i x).doors = p.doors ∧
    (p.setInput i x).latches = p.latches ∧ (p.setInput i x).windows = p.windows ∧ (p.setInput i x).lockout =
    p.lockout ∧ (p.setInput i x).spent = p.spent ∧ (p.setInput i x).monitors = p.monitors ∧ (p.setInput i x).holders
    = p.holders ∧ (p.setInput i x).waiting = p.waiting ∧ (p.setInput i x).locator = p.locator ∧ (p.setInput i
    x).fobs = p.fobs ∧ (p.setInput i x).operation = p.operation ∧ (p.setInput i x).supply = p.supply ∧ (p.setInput i
    x).crash = p.crash ∧ (p.setInput i x).port = p.port ∧ (p.setInput i x).heads = p.heads ∧ (p.setInput i x).scroll
    = p.scroll ∧ (p.setInput i x).store = p.store ∧ (p.setInput i x).cfg = p.cfg ∧ (p.setInput i x).budget =
    p.budget ∧ (p.setInput i x).unitsFree = p.unitsFree ∧ (p.setInput i x).crashSet = p.crashSet ∧ (p.setInput i
    x).inService = p.inService ∧ (p.setInput i x).doorService = p.doorService ∧ (p.setInput i x).inSafeHold =
    p.inSafeHold ∧ (p.setInput i x).sequencerRuns = p.sequencerRuns ∧ (∀ y, (p.setInput i x).door y = p.door y) ∧ (∀
    y, (p.setInput i x).window y = p.window y) ∧ (∀ y, (p.setInput i x).monitor y = p.monitor y) ∧ (∀ y, (p.setInput
    i x).fob y = p.fob y) ∧ (∀ y, (p.setInput i x).latch y = p.latch y) ∧ (∀ y, (p.setInput i x).head y = p.head y)
    ∧ (∀ y, (p.setInput i x).outOfService y = p.outOfService y) := by
  and_intros <;> intros <;> rfl

@[simp] theorem Part.setLatch_fields (p : Part) (d : Door) (x : Option ReleaseOp) :
    (p.setLatch d x).latches = p.latches.set d x ∧ (p.setLatch d x).clock = p.clock ∧ (p.setLatch d x).driverDoor =
    p.driverDoor ∧ (p.setLatch d x).state = p.state ∧ (p.setLatch d x).degraded = p.degraded ∧ (p.setLatch d
    x).check = p.check ∧ (p.setLatch d x).dwell = p.dwell ∧ (p.setLatch d x).waking = p.waking ∧ (p.setLatch d
    x).listen = p.listen ∧ (p.setLatch d x).timeBaseBad = p.timeBaseBad ∧ (p.setLatch d x).inputs = p.inputs ∧
    (p.setLatch d x).doors = p.doors ∧ (p.setLatch d x).windows = p.windows ∧ (p.setLatch d x).lockout = p.lockout ∧
    (p.setLatch d x).spent = p.spent ∧ (p.setLatch d x).monitors = p.monitors ∧ (p.setLatch d x).holders = p.holders
    ∧ (p.setLatch d x).waiting = p.waiting ∧ (p.setLatch d x).locator = p.locator ∧ (p.setLatch d x).fobs = p.fobs ∧
    (p.setLatch d x).operation = p.operation ∧ (p.setLatch d x).supply = p.supply ∧ (p.setLatch d x).crash = p.crash
    ∧ (p.setLatch d x).port = p.port ∧ (p.setLatch d x).heads = p.heads ∧ (p.setLatch d x).scroll = p.scroll ∧
    (p.setLatch d x).store = p.store ∧ (p.setLatch d x).cfg = p.cfg ∧ (p.setLatch d x).budget = p.budget ∧
    (p.setLatch d x).unitsFree = p.unitsFree ∧ (p.setLatch d x).crashSet = p.crashSet ∧ (p.setLatch d x).inService =
    p.inService ∧ (p.setLatch d x).doorService = p.doorService ∧ (p.setLatch d x).inSafeHold = p.inSafeHold ∧
    (p.setLatch d x).sequencerRuns = p.sequencerRuns ∧ (∀ y, (p.setLatch d x).door y = p.door y) ∧ (∀ y, (p.setLatch
    d x).window y = p.window y) ∧ (∀ y, (p.setLatch d x).monitor y = p.monitor y) ∧ (∀ y, (p.setLatch d x).fob y =
    p.fob y) ∧ (∀ y, (p.setLatch d x).input y = p.input y) ∧ (∀ y, (p.setLatch d x).head y = p.head y) ∧ (∀ y,
    (p.setLatch d x).muted y = p.muted y) ∧ (∀ y, (p.setLatch d x).outOfService y = p.outOfService y) := by
  and_intros <;> intros <;> rfl

@[simp] theorem Part.setHead_fields (p : Part) (s : Slot) (h : Head) :
    (p.setHead s h).heads = p.heads.set s.val h ∧ (p.setHead s h).clock = p.clock ∧ (p.setHead s h).driverDoor =
    p.driverDoor ∧ (p.setHead s h).state = p.state ∧ (p.setHead s h).degraded = p.degraded ∧ (p.setHead s h).check =
    p.check ∧ (p.setHead s h).dwell = p.dwell ∧ (p.setHead s h).waking = p.waking ∧ (p.setHead s h).listen =
    p.listen ∧ (p.setHead s h).timeBaseBad = p.timeBaseBad ∧ (p.setHead s h).inputs = p.inputs ∧ (p.setHead s
    h).doors = p.doors ∧ (p.setHead s h).latches = p.latches ∧ (p.setHead s h).windows = p.windows ∧ (p.setHead s
    h).lockout = p.lockout ∧ (p.setHead s h).spent = p.spent ∧ (p.setHead s h).monitors = p.monitors ∧ (p.setHead s
    h).holders = p.holders ∧ (p.setHead s h).waiting = p.waiting ∧ (p.setHead s h).locator = p.locator ∧ (p.setHead
    s h).fobs = p.fobs ∧ (p.setHead s h).operation = p.operation ∧ (p.setHead s h).supply = p.supply ∧ (p.setHead s
    h).crash = p.crash ∧ (p.setHead s h).port = p.port ∧ (p.setHead s h).scroll = p.scroll ∧ (p.setHead s h).store =
    p.store ∧ (p.setHead s h).cfg = p.cfg ∧ (p.setHead s h).budget = p.budget ∧ (p.setHead s h).unitsFree =
    p.unitsFree ∧ (p.setHead s h).crashSet = p.crashSet ∧ (p.setHead s h).inService = p.inService ∧ (p.setHead s
    h).doorService = p.doorService ∧ (p.setHead s h).inSafeHold = p.inSafeHold ∧ (p.setHead s h).sequencerRuns =
    p.sequencerRuns ∧ (∀ y, (p.setHead s h).door y = p.door y) ∧ (∀ y, (p.setHead s h).window y = p.window y) ∧ (∀
    y, (p.setHead s h).monitor y = p.monitor y) ∧ (∀ y, (p.setHead s h).fob y = p.fob y) ∧ (∀ y, (p.setHead s
    h).input y = p.input y) ∧ (∀ y, (p.setHead s h).latch y = p.latch y) ∧ (∀ y, (p.setHead s h).muted y = p.muted
    y) ∧ (∀ y, (p.setHead s h).outOfService y = p.outOfService y) := by
  and_intros <;> intros <;> rfl

@[simp] theorem Part.setLocator_fields (p : Part) (l : Locator) :
    (p.setLocator l).locator = l ∧ (p.setLocator l).clock = p.clock ∧ (p.setLocator l).driverDoor = p.driverDoor ∧
    (p.setLocator l).state = p.state ∧ (p.setLocator l).degraded = p.degraded ∧ (p.setLocator l).check = p.check ∧
    (p.setLocator l).dwell = p.dwell ∧ (p.setLocator l).waking = p.waking ∧ (p.setLocator l).listen = p.listen ∧
    (p.setLocator l).timeBaseBad = p.timeBaseBad ∧ (p.setLocator l).inputs = p.inputs ∧ (p.setLocator l).doors =
    p.doors ∧ (p.setLocator l).latches = p.latches ∧ (p.setLocator l).windows = p.windows ∧ (p.setLocator l).lockout
    = p.lockout ∧ (p.setLocator l).spent = p.spent ∧ (p.setLocator l).monitors = p.monitors ∧ (p.setLocator
    l).holders = p.holders ∧ (p.setLocator l).waiting = p.waiting ∧ (p.setLocator l).fobs = p.fobs ∧ (p.setLocator
    l).operation = p.operation ∧ (p.setLocator l).supply = p.supply ∧ (p.setLocator l).crash = p.crash ∧
    (p.setLocator l).port = p.port ∧ (p.setLocator l).heads = p.heads ∧ (p.setLocator l).scroll = p.scroll ∧
    (p.setLocator l).store = p.store ∧ (p.setLocator l).cfg = p.cfg ∧ (p.setLocator l).budget = p.budget ∧
    (p.setLocator l).unitsFree = p.unitsFree ∧ (p.setLocator l).crashSet = p.crashSet ∧ (p.setLocator l).inService =
    p.inService ∧ (p.setLocator l).doorService = p.doorService ∧ (p.setLocator l).inSafeHold = p.inSafeHold ∧
    (p.setLocator l).sequencerRuns = p.sequencerRuns ∧ (∀ y, (p.setLocator l).door y = p.door y) ∧ (∀ y,
    (p.setLocator l).window y = p.window y) ∧ (∀ y, (p.setLocator l).monitor y = p.monitor y) ∧ (∀ y, (p.setLocator
    l).fob y = p.fob y) ∧ (∀ y, (p.setLocator l).input y = p.input y) ∧ (∀ y, (p.setLocator l).latch y = p.latch y)
    ∧ (∀ y, (p.setLocator l).head y = p.head y) ∧ (∀ y, (p.setLocator l).muted y = p.muted y) ∧ (∀ y, (p.setLocator
    l).outOfService y = p.outOfService y) := by
  and_intros <;> intros <;> rfl

@[simp] theorem Part.setDoors_fields (p : Part) (d : Doors) :
    (p.setDoors d).doors = d ∧ (p.setDoors d).clock = p.clock ∧ (p.setDoors d).driverDoor = p.driverDoor ∧
    (p.setDoors d).state = p.state ∧ (p.setDoors d).degraded = p.degraded ∧ (p.setDoors d).check = p.check ∧
    (p.setDoors d).dwell = p.dwell ∧ (p.setDoors d).waking = p.waking ∧ (p.setDoors d).listen = p.listen ∧
    (p.setDoors d).timeBaseBad = p.timeBaseBad ∧ (p.setDoors d).inputs = p.inputs ∧ (p.setDoors d).latches =
    p.latches ∧ (p.setDoors d).windows = p.windows ∧ (p.setDoors d).lockout = p.lockout ∧ (p.setDoors d).spent =
    p.spent ∧ (p.setDoors d).monitors = p.monitors ∧ (p.setDoors d).holders = p.holders ∧ (p.setDoors d).waiting =
    p.waiting ∧ (p.setDoors d).locator = p.locator ∧ (p.setDoors d).fobs = p.fobs ∧ (p.setDoors d).operation =
    p.operation ∧ (p.setDoors d).supply = p.supply ∧ (p.setDoors d).crash = p.crash ∧ (p.setDoors d).port = p.port ∧
    (p.setDoors d).heads = p.heads ∧ (p.setDoors d).scroll = p.scroll ∧ (p.setDoors d).store = p.store ∧ (p.setDoors
    d).cfg = p.cfg ∧ (p.setDoors d).budget = p.budget ∧ (p.setDoors d).unitsFree = p.unitsFree ∧ (p.setDoors
    d).crashSet = p.crashSet ∧ (p.setDoors d).inService = p.inService ∧ (p.setDoors d).doorService = p.doorService ∧
    (p.setDoors d).inSafeHold = p.inSafeHold ∧ (p.setDoors d).sequencerRuns = p.sequencerRuns ∧ (∀ y, (p.setDoors
    d).window y = p.window y) ∧ (∀ y, (p.setDoors d).monitor y = p.monitor y) ∧ (∀ y, (p.setDoors d).fob y = p.fob
    y) ∧ (∀ y, (p.setDoors d).input y = p.input y) ∧ (∀ y, (p.setDoors d).latch y = p.latch y) ∧ (∀ y, (p.setDoors
    d).head y = p.head y) ∧ (∀ y, (p.setDoors d).muted y = p.muted y) ∧ (∀ y, (p.setDoors d).outOfService y =
    p.outOfService y) := by
  and_intros <;> intros <;> rfl

@[simp] theorem Part.setState_fields (p : Part) (s : PartState) :
    (p.setState s).state = s ∧ (p.setState s).clock = p.clock ∧ (p.setState s).driverDoor = p.driverDoor ∧
    (p.setState s).degraded = p.degraded ∧ (p.setState s).check = p.check ∧ (p.setState s).dwell = p.dwell ∧
    (p.setState s).waking = p.waking ∧ (p.setState s).listen = p.listen ∧ (p.setState s).timeBaseBad = p.timeBaseBad
    ∧ (p.setState s).inputs = p.inputs ∧ (p.setState s).doors = p.doors ∧ (p.setState s).latches = p.latches ∧
    (p.setState s).windows = p.windows ∧ (p.setState s).lockout = p.lockout ∧ (p.setState s).spent = p.spent ∧
    (p.setState s).monitors = p.monitors ∧ (p.setState s).holders = p.holders ∧ (p.setState s).waiting = p.waiting ∧
    (p.setState s).locator = p.locator ∧ (p.setState s).fobs = p.fobs ∧ (p.setState s).operation = p.operation ∧
    (p.setState s).supply = p.supply ∧ (p.setState s).crash = p.crash ∧ (p.setState s).port = p.port ∧ (p.setState
    s).heads = p.heads ∧ (p.setState s).scroll = p.scroll ∧ (p.setState s).store = p.store ∧ (p.setState s).cfg =
    p.cfg ∧ (p.setState s).budget = p.budget ∧ (p.setState s).unitsFree = p.unitsFree ∧ (p.setState s).crashSet =
    p.crashSet ∧ (p.setState s).sequencerRuns = p.sequencerRuns ∧ (∀ y, (p.setState s).door y = p.door y) ∧ (∀ y,
    (p.setState s).window y = p.window y) ∧ (∀ y, (p.setState s).monitor y = p.monitor y) ∧ (∀ y, (p.setState s).fob
    y = p.fob y) ∧ (∀ y, (p.setState s).input y = p.input y) ∧ (∀ y, (p.setState s).latch y = p.latch y) ∧ (∀ y,
    (p.setState s).head y = p.head y) ∧ (∀ y, (p.setState s).muted y = p.muted y) ∧ (∀ y, (p.setState
    s).outOfService y = p.outOfService y) := by
  and_intros <;> intros <;> rfl

@[simp] theorem Part.setOperation_fields (p : Part) (o : Option Operation) :
    (p.setOperation o).operation = o ∧ (p.setOperation o).clock = p.clock ∧ (p.setOperation o).driverDoor =
    p.driverDoor ∧ (p.setOperation o).state = p.state ∧ (p.setOperation o).degraded = p.degraded ∧ (p.setOperation
    o).check = p.check ∧ (p.setOperation o).dwell = p.dwell ∧ (p.setOperation o).waking = p.waking ∧ (p.setOperation
    o).listen = p.listen ∧ (p.setOperation o).timeBaseBad = p.timeBaseBad ∧ (p.setOperation o).inputs = p.inputs ∧
    (p.setOperation o).doors = p.doors ∧ (p.setOperation o).latches = p.latches ∧ (p.setOperation o).windows =
    p.windows ∧ (p.setOperation o).lockout = p.lockout ∧ (p.setOperation o).spent = p.spent ∧ (p.setOperation
    o).monitors = p.monitors ∧ (p.setOperation o).holders = p.holders ∧ (p.setOperation o).waiting = p.waiting ∧
    (p.setOperation o).locator = p.locator ∧ (p.setOperation o).fobs = p.fobs ∧ (p.setOperation o).supply = p.supply
    ∧ (p.setOperation o).crash = p.crash ∧ (p.setOperation o).port = p.port ∧ (p.setOperation o).heads = p.heads ∧
    (p.setOperation o).scroll = p.scroll ∧ (p.setOperation o).store = p.store ∧ (p.setOperation o).cfg = p.cfg ∧
    (p.setOperation o).budget = p.budget ∧ (p.setOperation o).unitsFree = p.unitsFree ∧ (p.setOperation o).crashSet
    = p.crashSet ∧ (p.setOperation o).inService = p.inService ∧ (p.setOperation o).doorService = p.doorService ∧
    (p.setOperation o).inSafeHold = p.inSafeHold ∧ (∀ y, (p.setOperation o).door y = p.door y) ∧ (∀ y,
    (p.setOperation o).window y = p.window y) ∧ (∀ y, (p.setOperation o).monitor y = p.monitor y) ∧ (∀ y,
    (p.setOperation o).fob y = p.fob y) ∧ (∀ y, (p.setOperation o).input y = p.input y) ∧ (∀ y, (p.setOperation
    o).latch y = p.latch y) ∧ (∀ y, (p.setOperation o).head y = p.head y) ∧ (∀ y, (p.setOperation o).muted y =
    p.muted y) ∧ (∀ y, (p.setOperation o).outOfService y = p.outOfService y) := by
  and_intros <;> intros <;> rfl

@[simp] theorem Part.setLists_fields (p : Part) (h : List Holder) (w : List Waiter) :
    (p.setLists h w).holders = h ∧ (p.setLists h w).waiting = w ∧ (p.setLists h w).clock = p.clock ∧ (p.setLists h
    w).driverDoor = p.driverDoor ∧ (p.setLists h w).state = p.state ∧ (p.setLists h w).degraded = p.degraded ∧
    (p.setLists h w).check = p.check ∧ (p.setLists h w).dwell = p.dwell ∧ (p.setLists h w).waking = p.waking ∧
    (p.setLists h w).listen = p.listen ∧ (p.setLists h w).timeBaseBad = p.timeBaseBad ∧ (p.setLists h w).inputs =
    p.inputs ∧ (p.setLists h w).doors = p.doors ∧ (p.setLists h w).latches = p.latches ∧ (p.setLists h w).windows =
    p.windows ∧ (p.setLists h w).lockout = p.lockout ∧ (p.setLists h w).spent = p.spent ∧ (p.setLists h w).monitors
    = p.monitors ∧ (p.setLists h w).locator = p.locator ∧ (p.setLists h w).fobs = p.fobs ∧ (p.setLists h
    w).operation = p.operation ∧ (p.setLists h w).supply = p.supply ∧ (p.setLists h w).crash = p.crash ∧ (p.setLists
    h w).port = p.port ∧ (p.setLists h w).heads = p.heads ∧ (p.setLists h w).scroll = p.scroll ∧ (p.setLists h
    w).store = p.store ∧ (p.setLists h w).cfg = p.cfg ∧ (p.setLists h w).budget = p.budget ∧ (p.setLists h
    w).crashSet = p.crashSet ∧ (p.setLists h w).inService = p.inService ∧ (p.setLists h w).doorService =
    p.doorService ∧ (p.setLists h w).inSafeHold = p.inSafeHold ∧ (p.setLists h w).sequencerRuns = p.sequencerRuns ∧
    (∀ y, (p.setLists h w).door y = p.door y) ∧ (∀ y, (p.setLists h w).window y = p.window y) ∧ (∀ y, (p.setLists h
    w).monitor y = p.monitor y) ∧ (∀ y, (p.setLists h w).fob y = p.fob y) ∧ (∀ y, (p.setLists h w).input y = p.input
    y) ∧ (∀ y, (p.setLists h w).latch y = p.latch y) ∧ (∀ y, (p.setLists h w).head y = p.head y) ∧ (∀ y, (p.setLists
    h w).muted y = p.muted y) ∧ (∀ y, (p.setLists h w).outOfService y = p.outOfService y) := by
  and_intros <;> intros <;> rfl

@[simp] theorem Part.setMisuse_fields (p : Part) :
    p.setMisuse.port = { p.port with misuse := true } ∧ p.setMisuse.clock = p.clock ∧ p.setMisuse.driverDoor =
    p.driverDoor ∧ p.setMisuse.state = p.state ∧ p.setMisuse.degraded = p.degraded ∧ p.setMisuse.check = p.check ∧
    p.setMisuse.dwell = p.dwell ∧ p.setMisuse.waking = p.waking ∧ p.setMisuse.listen = p.listen ∧
    p.setMisuse.timeBaseBad = p.timeBaseBad ∧ p.setMisuse.inputs = p.inputs ∧ p.setMisuse.doors = p.doors ∧
    p.setMisuse.latches = p.latches ∧ p.setMisuse.windows = p.windows ∧ p.setMisuse.lockout = p.lockout ∧
    p.setMisuse.spent = p.spent ∧ p.setMisuse.monitors = p.monitors ∧ p.setMisuse.holders = p.holders ∧
    p.setMisuse.waiting = p.waiting ∧ p.setMisuse.locator = p.locator ∧ p.setMisuse.fobs = p.fobs ∧
    p.setMisuse.operation = p.operation ∧ p.setMisuse.supply = p.supply ∧ p.setMisuse.crash = p.crash ∧
    p.setMisuse.heads = p.heads ∧ p.setMisuse.scroll = p.scroll ∧ p.setMisuse.store = p.store ∧ p.setMisuse.cfg =
    p.cfg ∧ p.setMisuse.budget = p.budget ∧ p.setMisuse.unitsFree = p.unitsFree ∧ p.setMisuse.crashSet = p.crashSet
    ∧ p.setMisuse.inService = p.inService ∧ p.setMisuse.doorService = p.doorService ∧ p.setMisuse.inSafeHold =
    p.inSafeHold ∧ p.setMisuse.sequencerRuns = p.sequencerRuns ∧ (∀ y, p.setMisuse.door y = p.door y) ∧ (∀ y,
    p.setMisuse.window y = p.window y) ∧ (∀ y, p.setMisuse.monitor y = p.monitor y) ∧ (∀ y, p.setMisuse.fob y =
    p.fob y) ∧ (∀ y, p.setMisuse.input y = p.input y) ∧ (∀ y, p.setMisuse.latch y = p.latch y) ∧ (∀ y,
    p.setMisuse.head y = p.head y) ∧ (∀ y, p.setMisuse.muted y = p.muted y) ∧ (∀ y, p.setMisuse.outOfService y =
    p.outOfService y) := by
  and_intros <;> intros <;> rfl

@[simp] theorem Part.storeWords_fields (p : Part) (i : Nat) (ws : List Word) :
    (p.storeWords i ws).port = { p.port with memory := Memory.writeWords p.port.memory i ws } ∧ (p.storeWords i
    ws).clock = p.clock ∧ (p.storeWords i ws).driverDoor = p.driverDoor ∧ (p.storeWords i ws).state = p.state ∧
    (p.storeWords i ws).degraded = p.degraded ∧ (p.storeWords i ws).check = p.check ∧ (p.storeWords i ws).dwell =
    p.dwell ∧ (p.storeWords i ws).waking = p.waking ∧ (p.storeWords i ws).listen = p.listen ∧ (p.storeWords i
    ws).timeBaseBad = p.timeBaseBad ∧ (p.storeWords i ws).inputs = p.inputs ∧ (p.storeWords i ws).doors = p.doors ∧
    (p.storeWords i ws).latches = p.latches ∧ (p.storeWords i ws).windows = p.windows ∧ (p.storeWords i ws).lockout
    = p.lockout ∧ (p.storeWords i ws).spent = p.spent ∧ (p.storeWords i ws).monitors = p.monitors ∧ (p.storeWords i
    ws).holders = p.holders ∧ (p.storeWords i ws).waiting = p.waiting ∧ (p.storeWords i ws).locator = p.locator ∧
    (p.storeWords i ws).fobs = p.fobs ∧ (p.storeWords i ws).operation = p.operation ∧ (p.storeWords i ws).supply =
    p.supply ∧ (p.storeWords i ws).crash = p.crash ∧ (p.storeWords i ws).heads = p.heads ∧ (p.storeWords i
    ws).scroll = p.scroll ∧ (p.storeWords i ws).store = p.store ∧ (p.storeWords i ws).cfg = p.cfg ∧ (p.storeWords i
    ws).budget = p.budget ∧ (p.storeWords i ws).unitsFree = p.unitsFree ∧ (p.storeWords i ws).crashSet = p.crashSet
    ∧ (p.storeWords i ws).inService = p.inService ∧ (p.storeWords i ws).doorService = p.doorService ∧ (p.storeWords
    i ws).inSafeHold = p.inSafeHold ∧ (p.storeWords i ws).sequencerRuns = p.sequencerRuns ∧ (∀ y, (p.storeWords i
    ws).door y = p.door y) ∧ (∀ y, (p.storeWords i ws).window y = p.window y) ∧ (∀ y, (p.storeWords i ws).monitor y
    = p.monitor y) ∧ (∀ y, (p.storeWords i ws).fob y = p.fob y) ∧ (∀ y, (p.storeWords i ws).input y = p.input y) ∧
    (∀ y, (p.storeWords i ws).latch y = p.latch y) ∧ (∀ y, (p.storeWords i ws).head y = p.head y) ∧ (∀ y,
    (p.storeWords i ws).muted y = p.muted y) ∧ (∀ y, (p.storeWords i ws).outOfService y = p.outOfService y) := by
  and_intros <;> intros <;> rfl

@[simp] theorem Part.setAssertion_fields (p : Part) (a : Option Assertion) :
    (p.setAssertion a).crash = { p.crash with assertion := a } ∧ (p.setAssertion a).clock = p.clock ∧
    (p.setAssertion a).driverDoor = p.driverDoor ∧ (p.setAssertion a).state = p.state ∧ (p.setAssertion a).degraded
    = p.degraded ∧ (p.setAssertion a).check = p.check ∧ (p.setAssertion a).dwell = p.dwell ∧ (p.setAssertion
    a).waking = p.waking ∧ (p.setAssertion a).listen = p.listen ∧ (p.setAssertion a).timeBaseBad = p.timeBaseBad ∧
    (p.setAssertion a).inputs = p.inputs ∧ (p.setAssertion a).doors = p.doors ∧ (p.setAssertion a).latches =
    p.latches ∧ (p.setAssertion a).windows = p.windows ∧ (p.setAssertion a).lockout = p.lockout ∧ (p.setAssertion
    a).spent = p.spent ∧ (p.setAssertion a).monitors = p.monitors ∧ (p.setAssertion a).holders = p.holders ∧
    (p.setAssertion a).waiting = p.waiting ∧ (p.setAssertion a).locator = p.locator ∧ (p.setAssertion a).fobs =
    p.fobs ∧ (p.setAssertion a).operation = p.operation ∧ (p.setAssertion a).supply = p.supply ∧ (p.setAssertion
    a).port = p.port ∧ (p.setAssertion a).heads = p.heads ∧ (p.setAssertion a).scroll = p.scroll ∧ (p.setAssertion
    a).store = p.store ∧ (p.setAssertion a).cfg = p.cfg ∧ (p.setAssertion a).budget = p.budget ∧ (p.setAssertion
    a).unitsFree = p.unitsFree ∧ (p.setAssertion a).crashSet = p.crashSet ∧ (p.setAssertion a).inService =
    p.inService ∧ (p.setAssertion a).doorService = p.doorService ∧ (p.setAssertion a).inSafeHold = p.inSafeHold ∧
    (p.setAssertion a).sequencerRuns = p.sequencerRuns ∧ (∀ y, (p.setAssertion a).door y = p.door y) ∧ (∀ y,
    (p.setAssertion a).window y = p.window y) ∧ (∀ y, (p.setAssertion a).monitor y = p.monitor y) ∧ (∀ y,
    (p.setAssertion a).fob y = p.fob y) ∧ (∀ y, (p.setAssertion a).input y = p.input y) ∧ (∀ y, (p.setAssertion
    a).latch y = p.latch y) ∧ (∀ y, (p.setAssertion a).head y = p.head y) ∧ (∀ y, (p.setAssertion a).muted y =
    p.muted y) ∧ (∀ y, (p.setAssertion a).outOfService y = p.outOfService y) := by
  and_intros <;> intros <;> rfl

@[simp] theorem Part.send_fields (p : Part) (ws : List Word) :
    (p.send ws).port = { p.port with sent := ws } ∧ (p.send ws).clock = p.clock ∧ (p.send ws).driverDoor =
    p.driverDoor ∧ (p.send ws).state = p.state ∧ (p.send ws).degraded = p.degraded ∧ (p.send ws).check = p.check ∧
    (p.send ws).dwell = p.dwell ∧ (p.send ws).waking = p.waking ∧ (p.send ws).listen = p.listen ∧ (p.send
    ws).timeBaseBad = p.timeBaseBad ∧ (p.send ws).inputs = p.inputs ∧ (p.send ws).doors = p.doors ∧ (p.send
    ws).latches = p.latches ∧ (p.send ws).windows = p.windows ∧ (p.send ws).lockout = p.lockout ∧ (p.send ws).spent
    = p.spent ∧ (p.send ws).monitors = p.monitors ∧ (p.send ws).holders = p.holders ∧ (p.send ws).waiting =
    p.waiting ∧ (p.send ws).locator = p.locator ∧ (p.send ws).fobs = p.fobs ∧ (p.send ws).operation = p.operation ∧
    (p.send ws).supply = p.supply ∧ (p.send ws).crash = p.crash ∧ (p.send ws).heads = p.heads ∧ (p.send ws).scroll =
    p.scroll ∧ (p.send ws).store = p.store ∧ (p.send ws).cfg = p.cfg ∧ (p.send ws).budget = p.budget ∧ (p.send
    ws).unitsFree = p.unitsFree ∧ (p.send ws).crashSet = p.crashSet ∧ (p.send ws).inService = p.inService ∧ (p.send
    ws).doorService = p.doorService ∧ (p.send ws).inSafeHold = p.inSafeHold ∧ (p.send ws).sequencerRuns =
    p.sequencerRuns ∧ (∀ y, (p.send ws).door y = p.door y) ∧ (∀ y, (p.send ws).window y = p.window y) ∧ (∀ y,
    (p.send ws).monitor y = p.monitor y) ∧ (∀ y, (p.send ws).fob y = p.fob y) ∧ (∀ y, (p.send ws).input y = p.input
    y) ∧ (∀ y, (p.send ws).latch y = p.latch y) ∧ (∀ y, (p.send ws).head y = p.head y) ∧ (∀ y, (p.send ws).muted y =
    p.muted y) ∧ (∀ y, (p.send ws).outOfService y = p.outOfService y) := by
  and_intros <;> intros <;> rfl

@[simp] theorem Part.startDwell_fields (p : Part) :
    p.startDwell.dwell = some (p.clock + p.cfg.dozeDwell) ∧ p.startDwell.clock = p.clock ∧ p.startDwell.driverDoor =
    p.driverDoor ∧ p.startDwell.state = p.state ∧ p.startDwell.degraded = p.degraded ∧ p.startDwell.check = p.check
    ∧ p.startDwell.waking = p.waking ∧ p.startDwell.listen = p.listen ∧ p.startDwell.timeBaseBad = p.timeBaseBad ∧
    p.startDwell.inputs = p.inputs ∧ p.startDwell.doors = p.doors ∧ p.startDwell.latches = p.latches ∧
    p.startDwell.windows = p.windows ∧ p.startDwell.lockout = p.lockout ∧ p.startDwell.spent = p.spent ∧
    p.startDwell.monitors = p.monitors ∧ p.startDwell.holders = p.holders ∧ p.startDwell.waiting = p.waiting ∧
    p.startDwell.locator = p.locator ∧ p.startDwell.fobs = p.fobs ∧ p.startDwell.operation = p.operation ∧
    p.startDwell.supply = p.supply ∧ p.startDwell.crash = p.crash ∧ p.startDwell.port = p.port ∧ p.startDwell.heads
    = p.heads ∧ p.startDwell.scroll = p.scroll ∧ p.startDwell.store = p.store ∧ p.startDwell.cfg = p.cfg ∧
    p.startDwell.budget = p.budget ∧ p.startDwell.unitsFree = p.unitsFree ∧ p.startDwell.crashSet = p.crashSet ∧
    p.startDwell.inService = p.inService ∧ p.startDwell.doorService = p.doorService ∧ p.startDwell.inSafeHold =
    p.inSafeHold ∧ p.startDwell.sequencerRuns = p.sequencerRuns ∧ (∀ y, p.startDwell.door y = p.door y) ∧ (∀ y,
    p.startDwell.window y = p.window y) ∧ (∀ y, p.startDwell.monitor y = p.monitor y) ∧ (∀ y, p.startDwell.fob y =
    p.fob y) ∧ (∀ y, p.startDwell.input y = p.input y) ∧ (∀ y, p.startDwell.latch y = p.latch y) ∧ (∀ y,
    p.startDwell.head y = p.head y) ∧ (∀ y, p.startDwell.muted y = p.muted y) ∧ (∀ y, p.startDwell.outOfService y =
    p.outOfService y) := by
  and_intros <;> intros <;> rfl

/-! ### Containers -/

section Containers
variable {α : Type}

@[simp] theorem PerDoor.get_set (v : PerDoor α) (a b : Door) (x : α) : (v.set a x).get b = if b = a then x else v.get b := by
  cases a <;> cases b <;> rfl
@[simp] theorem PerCorner.get_set (v : PerCorner α) (a b : Corner) (x : α) :
    (v.set a x).get b = if b = a then x else v.get b := by
  cases a <;> cases b <;> rfl
@[simp] theorem PerFront.get_set (v : PerFront α) (a b : Front) (x : α) :
    (v.set a x).get b = if b = a then x else v.get b := by
  cases a <;> cases b <;> rfl
@[simp] theorem PerFob.get_set (v : PerFob α) (a b : Fob) (x : α) : (v.set a x).get b = if b = a then x else v.get b := by
  cases a <;> cases b <;> rfl
@[simp] theorem PerSwitch.get_set (v : PerSwitch α) (a b : Switch) (x : α) :
    (v.set a x).get b = if b = a then x else v.get b := by
  cases a <;> cases b <;> simp [PerSwitch.set, PerSwitch.get]
@[simp] theorem PerInput.get_set (v : PerInput α) (a b : Input) (x : α) :
    (v.set a x).get b = if b = a then x else v.get b := by
  cases a <;> cases b <;> simp [PerInput.set, PerInput.get]

@[simp] theorem PerDoor.get_build (f : Door → α) (a : Door) : (PerDoor.build f).get a = f a := by cases a <;> rfl
@[simp] theorem PerCorner.get_build (f : Corner → α) (a : Corner) : (PerCorner.build f).get a = f a := by cases a <;> rfl
@[simp] theorem PerAntenna.get_build (f : Antenna → α) (a : Antenna) : (PerAntenna.build f).get a = f a := by
  cases a <;> rfl
@[simp] theorem PerFob.get_build (f : Fob → α) (a : Fob) : (PerFob.build f).get a = f a := by cases a <;> rfl
@[simp] theorem PerSwitch.get_build (f : Switch → α) (a : Switch) : (PerSwitch.build f).get a = f a := by
  cases a <;> simp [PerSwitch.build, PerSwitch.get]
@[simp] theorem PerInput.get_build (f : Input → α) (a : Input) : (PerInput.build f).get a = f a := by
  cases a with
  | lockTouch f => cases f <;> rfl
  | _ => simp [PerInput.build, PerInput.get]
@[simp] theorem PerRecord.get_build (f : RecordId → α) (a : RecordId) : (PerRecord.build f).get a = f a := by
  cases a <;> simp [PerRecord.build, PerRecord.get]

@[simp] theorem PerDoor.get_all (x : α) (a : Door) : (PerDoor.all x).get a = x := by simp [PerDoor.all]
@[simp] theorem PerCorner.get_all (x : α) (a : Corner) : (PerCorner.all x).get a = x := by simp [PerCorner.all]
@[simp] theorem PerAntenna.get_all (x : α) (a : Antenna) : (PerAntenna.all x).get a = x := by simp [PerAntenna.all]
@[simp] theorem PerFob.get_all (x : α) (a : Fob) : (PerFob.all x).get a = x := by simp [PerFob.all]
@[simp] theorem PerSwitch.get_all (x : α) (a : Switch) : (PerSwitch.all x).get a = x := by simp [PerSwitch.all]
@[simp] theorem PerInput.get_all (x : α) (a : Input) : (PerInput.all x).get a = x := by simp [PerInput.all]
@[simp] theorem PerRecord.get_all (x : α) (a : RecordId) : (PerRecord.all x).get a = x := by simp [PerRecord.all]

theorem PerDoor.ext_get {v w : PerDoor α} (h : ∀ a, v.get a = w.get a) : v = w := by
  have h1 := h .fl; have h2 := h .fr; have h3 := h .rl; have h4 := h .rr; have h5 := h .tg
  cases v; cases w; simp_all [PerDoor.get]
theorem PerCorner.ext_get {v w : PerCorner α} (h : ∀ a, v.get a = w.get a) : v = w := by
  have h1 := h .fl; have h2 := h .fr; have h3 := h .rl; have h4 := h .rr
  cases v; cases w; simp_all [PerCorner.get]
theorem PerFob.ext_get {v w : PerFob α} (h : ∀ a, v.get a = w.get a) : v = w := by
  have h1 := h .f0; have h2 := h .f1; have h3 := h .f2; have h4 := h .f3
  cases v; cases w; simp_all [PerFob.get]

@[simp] theorem PerDoor.set_get (v : PerDoor α) (a : Door) : v.set a (v.get a) = v := by cases a <;> rfl
@[simp] theorem PerCorner.set_get (v : PerCorner α) (a : Corner) : v.set a (v.get a) = v := by cases a <;> rfl
@[simp] theorem PerFob.set_get (v : PerFob α) (a : Fob) : v.set a (v.get a) = v := by cases a <;> rfl
@[simp] theorem PerDoor.build_get (v : PerDoor α) : (PerDoor.build v.get) = v := rfl
@[simp] theorem PerCorner.build_get (v : PerCorner α) : (PerCorner.build v.get) = v := rfl

end Containers

/-! ### The record an update writes -/

@[simp] theorem Part.setDoor_door (p : Part) (d e : Door) (x : DoorRec) :
    (p.setDoor d x).door e = if e = d then x else p.door e := PerDoor.get_set ..
@[simp] theorem Part.setWindow_window (p : Part) (c e : Corner) (x : WindowRec) :
    (p.setWindow c x).window e = if e = c then x else p.window e := PerCorner.get_set ..
@[simp] theorem Part.setMonitor_monitor (p : Part) (c e : Corner) (x : MonitorRec) :
    (p.setMonitor c x).monitor e = if e = c then x else p.monitor e := PerCorner.get_set ..
@[simp] theorem Part.setFob_fob (p : Part) (f e : Fob) (x : FobRec) :
    (p.setFob f x).fob e = if e = f then x else p.fob e := PerFob.get_set ..
@[simp] theorem Part.setInput_input (p : Part) (i e : Input) (x : InputRec) :
    (p.setInput i x).input e = if e = i then x else p.input e := PerInput.get_set ..
@[simp] theorem Part.setLatch_latch (p : Part) (d e : Door) (x : Option ReleaseOp) :
    (p.setLatch d x).latch e = if e = d then x else p.latch e := PerDoor.get_set ..
@[simp] theorem Part.setHead_head (p : Part) (s e : Slot) (h : Head) :
    (p.setHead s h).head e = if e = s then h else p.head e := by
  simp only [Part.setHead, Part.head, Vector.get_eq_getElem, Vector.getElem_set]
  rcases eq_or_ne e s with rfl | hne
  · simp
  · have : s.val ≠ e.val := fun h => hne (Fin.ext h.symm)
    simp [hne, this]
@[simp] theorem Part.setDoors_door (p : Part) (d : Doors) (e : Door) : (p.setDoors d).door e = d.recs.get e := rfl

end Sys2Proof.Machine
end

