-- ==== Sys2Proof/Laws/Frames.lean ====
section
/-! SUPPORT. What an operation of the part can do: `Does K p q` says that `q` differs from `p` in the areas of `K` only,
with the strap's choice and the clock as they were, and that every law of Safety.lean that holds in `p` holds in `q`.
One lemma for each operation; a proof about a longer one composes them with `Does.trans`. -/

-- One theorem at a time: elaborated side by side, the lemmas take more threads than the check has memory for.
set_option deprecated.oldSectionVars true

namespace Sys2Proof.Machine

/-- The areas of the part: its fields, the fob records with and without the begun marks, and the regions of the memory. -/
inductive Area where
  | state | degraded | check | dwell | waking | listen | timeBase | inputs | doors | latches | windows | lockout | spent
  | monitors | holders | waiting | locator | fobs | begun | operation | supply | crash | memory | page | board | rows
  | enrol | parity | misuse | portRest | heads | scroll | store | cfg | reports | roster
  deriving DecidableEq

/-- Words `lo` up to, not including, `hi` read the same. -/
abbrev sameWords (lo hi : Nat) (p q : Part) : Prop :=
  ∀ i, lo ≤ i → i < hi → Memory.readWord q.port.memory i = Memory.readWord p.port.memory i

theorem FobRec.same_refl (r : FobRec) : r.same r := ⟨rfl, rfl, rfl, rfl, rfl, rfl, rfl⟩

theorem FobRec.same_trans {a b c : FobRec} (h : a.same b) (k : b.same c) : a.same c := by
  obtain ⟨h1, h2, h3, h4, h5, h6, h7⟩ := h
  obtain ⟨k1, k2, k3, k4, k5, k6, k7⟩ := k
  exact ⟨k1.trans h1, k2.trans h2, k3.trans h3, k4.trans h4, k5.trans h5, k6.trans h6, k7.trans h7⟩

/-- No row of the unread span is given back or written over, the dropped-class mark keeps its classes, and a slot whose
head becomes DONE or REFUSED has its ORDER row, or ORDER is in the mark (R193). -/
structure Part.Reports (p q : Part) : Prop where
  tidy : p.tidy → q.tidy
  start : q.scroll.start = p.scroll.start
  unread : p.scroll.unread ≤ q.scroll.unread
  mark : ∀ k, p.scroll.mark.getLsbD k = true → q.scroll.mark.getLsbD k = true
  kept : ∀ j i, j < p.scroll.unread → i < 4 → q.unreadWord j i = p.unreadWord j i
  ends : p.tidy → ∀ k, (q.head k).ended = true → q.head k = p.head k ∨ q.reported k

/-- Heads, scroll and rows as they were. -/
theorem Part.Reports.same {p q : Part} (ht : p.tidy → q.tidy) (hh : q.heads = p.heads) (hs : q.scroll = p.scroll)
    (hr : sameWords 480 992 p q) : Part.Reports p q where
  tidy := ht
  start := by rw [hs]
  unread := by rw [hs]
  mark k h := by rwa [hs]
  kept j i _ hi := by
    simp only [Part.unreadWord, hs]
    exact hr _ (by omega) (by omega)
  ends _ k _ := .inl (by rw [Part.head, Part.head, hh])

/-- What was reported stays so while the head stands. -/
theorem Part.Reports.keeps {p q : Part} (h : Part.Reports p q) (hc : q.clock = p.clock) {k : Slot}
    (hk : q.head k = p.head k) (r : p.reported k) : q.reported k := by
  rcases r with hm | ⟨j, w, hj, hw⟩
  · exact .inl (h.mark _ hm)
  · refine .inr ⟨j, w, by have := h.unread; omega, fun i hi => ?_⟩
    rw [h.kept j i hj hi, hk, hc]
    exact hw i hi

theorem Part.Reports.trans {p q r : Part} (h : Part.Reports p q) (k : Part.Reports q r) (hc : r.clock = q.clock) :
    Part.Reports p r where
  tidy t := k.tidy (h.tidy t)
  start := k.start.trans h.start
  unread := le_trans h.unread k.unread
  mark b hb := k.mark b (h.mark b hb)
  kept j i hj hi := (k.kept j i (lt_of_lt_of_le hj h.unread) hi).trans (h.kept j i hj hi)
  ends t s hs := by
    rcases k.ends (h.tidy t) s hs with e | e
    · rcases h.ends t s (e ▸ hs) with g | g
      · exact .inl (e.trans g)
      · exact .inr (k.keeps hc e g)
    · exact .inr e

/-- The record's candidate, where it has one, is above its stored counter (R135). -/
def FobRec.fits (r : FobRec) : Prop := ∀ k, r.candidate = some k → r.keep.counter.toNat < k.counter.toNat

/-- `x` is EMPTY where `r` is, with its fob id and with a stored counter no lower, and its candidate is above that. -/
def FobRec.Follows (r x : FobRec) : Prop :=
  r.fits → x.fits ∧ (x.keep.state = .vacant ↔ r.keep.state = .vacant) ∧ x.keep.id = r.keep.id ∧
    r.keep.counter.toNat ≤ x.keep.counter.toNat

theorem FobRec.Follows.refl (r : FobRec) : r.Follows r := fun h => ⟨h, Iff.rfl, rfl, Nat.le_refl _⟩

theorem FobRec.Follows.trans {a b c : FobRec} (h : a.Follows b) (k : b.Follows c) : a.Follows c := fun f =>
  have ⟨h1, h2, h3, h4⟩ := h f
  have ⟨k1, k2, k3, k4⟩ := k h1
  ⟨k1, k2.trans h2, k3.trans h3, h4.trans k4⟩

/-- The same stored record, the candidate kept or dropped. -/
theorem FobRec.Follows.same {r x : FobRec} (h : x.keep = r.keep) (k : x.candidate = r.candidate ∨ x.candidate = none) :
    r.Follows x := fun f => by
  refine ⟨fun c hc => ?_, by rw [h], by rw [h], by rw [h]⟩
  rcases k with k | k
  · rw [h]
    exact f c (k ▸ hc)
  · rw [k] at hc
    cases hc

/-- Every record follows the one before. -/
structure Part.Counts (p q : Part) : Prop where
  follows : ∀ f, (p.fob f).Follows (q.fob f)

theorem Part.Counts.same {p q : Part} (h : q.fobs = p.fobs) : Part.Counts p q :=
  ⟨fun f => by rw [Part.fob, Part.fob, h]; exact .refl _⟩

theorem Part.Counts.trans {p q r : Part} (h : Part.Counts p q) (k : Part.Counts q r) : Part.Counts p r :=
  ⟨fun f => (h.follows f).trans (k.follows f)⟩

theorem Part.Counts.fit {p q : Part} (h : Part.Counts p q) (k : p.candidatesFit) : q.candidatesFit :=
  fun f => (h.follows f (k f)).1

/-- `q` differs from `p` in the areas of `K` only. `begun` is the fob records whole, `fobs` all of them but the begun
marks; `portRest` is served, pointer, mask, vehicle word and sent words; `roster` is which records are EMPTY, their ids, and
their counters, but for a rise. -/
structure Part.Within (K : List Area) (p q : Part) : Prop where
  driver : q.driverDoor = p.driverDoor
  clock : q.clock = p.clock
  state : .state ∉ K → q.state = p.state
  degraded : .degraded ∉ K → q.degraded = p.degraded
  check : .check ∉ K → q.check = p.check
  dwell : .dwell ∉ K → q.dwell = p.dwell
  waking : .waking ∉ K → q.waking = p.waking
  listen : .listen ∉ K → q.listen = p.listen
  timeBase : .timeBase ∉ K → q.timeBaseBad = p.timeBaseBad
  inputs : .inputs ∉ K → q.inputs = p.inputs
  doors : .doors ∉ K → q.doors = p.doors
  latches : .latches ∉ K → q.latches = p.latches
  windows : .windows ∉ K → q.windows = p.windows
  lockout : .lockout ∉ K → q.lockout = p.lockout
  spent : .spent ∉ K → q.spent = p.spent
  monitors : .monitors ∉ K → q.monitors = p.monitors
  holders : .holders ∉ K → q.holders = p.holders
  waiting : .waiting ∉ K → q.waiting = p.waiting
  locator : .locator ∉ K → q.locator = p.locator
  begun : .begun ∉ K → q.fobs = p.fobs
  operation : .operation ∉ K → q.operation = p.operation
  supply : .supply ∉ K → q.supply = p.supply
  crash : .crash ∉ K → q.crash = p.crash
  memory : .memory ∉ K → q.port.memory = p.port.memory
  parity : .parity ∉ K → q.port.parity = p.port.parity
  misuse : .misuse ∉ K → q.port.misuse = p.port.misuse
  heads : .heads ∉ K → q.heads = p.heads
  scroll : .scroll ∉ K → q.scroll = p.scroll
  store : .store ∉ K → q.store = p.store
  cfg : .cfg ∉ K → q.cfg = p.cfg
  fobs : .fobs ∉ K → p.sameFobs q
  page : .page ∉ K → sameWords 272 352 p q
  board : .board ∉ K → sameWords 352 480 p q
  rows : .rows ∉ K → sameWords 480 992 p q
  enrol : .enrol ∉ K → sameWords 992 1024 p q
  served : .portRest ∉ K → q.port.served = p.port.served
  pointer : .portRest ∉ K → q.port.pointer = p.port.pointer
  mask : .portRest ∉ K → q.port.mask = p.port.mask
  vehicleWord : .portRest ∉ K → q.port.vehicleWord = p.port.vehicleWord
  sent : .portRest ∉ K → q.port.sent = p.port.sent
  reports : .reports ∉ K → Part.Reports p q
  roster : .roster ∉ K → Part.Counts p q

/-- Every law that holds in `p` holds in `q`. -/
structure Part.Keeps (p q : Part) : Prop where
  tidyLaw : p.tidy → q.tidy
  doorsLaw : p.doorsFit → q.doorsFit
  crashLaw : p.crashSafe → q.crashSafe
  unitsLaw : p.unitsFit → q.unitsFit
  searchesLaw : p.searchesFit → q.searchesFit
  dirtyLaw : p.dirtyFits → q.dirtyFits
  grantsLaw : p.grantsFit → q.grantsFit
  candidatesLaw : p.candidatesFit → q.candidatesFit
  entriesLaw : p.entriesFit → q.entriesFit

structure Part.Does (K : List Area) (p q : Part) : Prop extends Part.Within K p q, Part.Keeps p q

/-- `Does` without the laws of the grants and of the entries, which a longer operation may keep where one of its steps does
not. -/
structure Part.DoesBare (K : List Area) (p q : Part) : Prop extends Part.Within K p q where
  tidyLaw : p.tidy → q.tidy
  doorsLaw : p.doorsFit → q.doorsFit
  crashLaw : p.crashSafe → q.crashSafe
  unitsLaw : p.unitsFit → q.unitsFit
  searchesLaw : p.searchesFit → q.searchesFit
  dirtyLaw : p.dirtyFits → q.dirtyFits
  candidatesLaw : p.candidatesFit → q.candidatesFit

/-- `Does` without the law of the entries. -/
structure Part.Acts (K : List Area) (p q : Part) : Prop extends Part.DoesBare K p q where
  grantsLaw : p.grantsFit → q.grantsFit

theorem Part.DoesBare.holding {K : List Area} {p q : Part} (h : Part.DoesBare K p q) (g : p.grantsFit → q.grantsFit) :
    Part.Acts K p q := ⟨h, g⟩

theorem Part.Acts.keeping {K : List Area} {p q : Part} (h : Part.Acts K p q) (e : p.entriesFit → q.entriesFit) :
    Part.Does K p q :=
  ⟨h.toWithin, ⟨h.tidyLaw, h.doorsLaw, h.crashLaw, h.unitsLaw, h.searchesLaw, h.dirtyLaw, h.grantsLaw, h.candidatesLaw, e⟩⟩

theorem Part.Does.bare {K : List Area} {p q : Part} (h : Part.Does K p q) : Part.DoesBare K p q :=
  ⟨h.toWithin, h.tidyLaw, h.doorsLaw, h.crashLaw, h.unitsLaw, h.searchesLaw, h.dirtyLaw, h.candidatesLaw⟩

theorem Part.Does.acts {K : List Area} {p q : Part} (h : Part.Does K p q) : Part.Acts K p q := ⟨h.bare, h.grantsLaw⟩

theorem Part.Within.refl (K : List Area) (p : Part) : Part.Within K p p := by
  constructor <;> first | rfl | exact fun _ => rfl | exact fun _ => .same rfl | exact fun _ _ _ _ => rfl
                        | exact fun _ _ => FobRec.same_refl _
                        | exact fun _ => .same id rfl rfl fun _ _ _ => rfl

theorem Part.Within.trans {K L M : List Area} {p q r : Part} (h : Part.Within K p q) (k : Part.Within L q r) (hk : K ⊆ M)
    (hl : L ⊆ M) : Part.Within M p r where
  driver := k.driver.trans h.driver
  clock := k.clock.trans h.clock
  state ha := (k.state fun x => ha (hl x)).trans (h.state fun x => ha (hk x))
  degraded ha := (k.degraded fun x => ha (hl x)).trans (h.degraded fun x => ha (hk x))
  check ha := (k.check fun x => ha (hl x)).trans (h.check fun x => ha (hk x))
  dwell ha := (k.dwell fun x => ha (hl x)).trans (h.dwell fun x => ha (hk x))
  waking ha := (k.waking fun x => ha (hl x)).trans (h.waking fun x => ha (hk x))
  listen ha := (k.listen fun x => ha (hl x)).trans (h.listen fun x => ha (hk x))
  timeBase ha := (k.timeBase fun x => ha (hl x)).trans (h.timeBase fun x => ha (hk x))
  inputs ha := (k.inputs fun x => ha (hl x)).trans (h.inputs fun x => ha (hk x))
  doors ha := (k.doors fun x => ha (hl x)).trans (h.doors fun x => ha (hk x))
  latches ha := (k.latches fun x => ha (hl x)).trans (h.latches fun x => ha (hk x))
  windows ha := (k.windows fun x => ha (hl x)).trans (h.windows fun x => ha (hk x))
  lockout ha := (k.lockout fun x => ha (hl x)).trans (h.lockout fun x => ha (hk x))
  spent ha := (k.spent fun x => ha (hl x)).trans (h.spent fun x => ha (hk x))
  monitors ha := (k.monitors fun x => ha (hl x)).trans (h.monitors fun x => ha (hk x))
  holders ha := (k.holders fun x => ha (hl x)).trans (h.holders fun x => ha (hk x))
  waiting ha := (k.waiting fun x => ha (hl x)).trans (h.waiting fun x => ha (hk x))
  locator ha := (k.locator fun x => ha (hl x)).trans (h.locator fun x => ha (hk x))
  begun ha := (k.begun fun x => ha (hl x)).trans (h.begun fun x => ha (hk x))
  operation ha := (k.operation fun x => ha (hl x)).trans (h.operation fun x => ha (hk x))
  supply ha := (k.supply fun x => ha (hl x)).trans (h.supply fun x => ha (hk x))
  crash ha := (k.crash fun x => ha (hl x)).trans (h.crash fun x => ha (hk x))
  memory ha := (k.memory fun x => ha (hl x)).trans (h.memory fun x => ha (hk x))
  parity ha := (k.parity fun x => ha (hl x)).trans (h.parity fun x => ha (hk x))
  misuse ha := (k.misuse fun x => ha (hl x)).trans (h.misuse fun x => ha (hk x))
  heads ha := (k.heads fun x => ha (hl x)).trans (h.heads fun x => ha (hk x))
  scroll ha := (k.scroll fun x => ha (hl x)).trans (h.scroll fun x => ha (hk x))
  store ha := (k.store fun x => ha (hl x)).trans (h.store fun x => ha (hk x))
  cfg ha := (k.cfg fun x => ha (hl x)).trans (h.cfg fun x => ha (hk x))
  served ha := (k.served fun x => ha (hl x)).trans (h.served fun x => ha (hk x))
  pointer ha := (k.pointer fun x => ha (hl x)).trans (h.pointer fun x => ha (hk x))
  mask ha := (k.mask fun x => ha (hl x)).trans (h.mask fun x => ha (hk x))
  vehicleWord ha := (k.vehicleWord fun x => ha (hl x)).trans (h.vehicleWord fun x => ha (hk x))
  sent ha := (k.sent fun x => ha (hl x)).trans (h.sent fun x => ha (hk x))
  reports ha := (h.reports fun x => ha (hk x)).trans (k.reports fun x => ha (hl x)) k.clock
  roster ha := (h.roster fun x => ha (hk x)).trans (k.roster fun x => ha (hl x))
  fobs ha f := FobRec.same_trans (h.fobs (fun x => ha (hk x)) f) (k.fobs (fun x => ha (hl x)) f)
  page ha i h1 h2 := (k.page (fun x => ha (hl x)) i h1 h2).trans (h.page (fun x => ha (hk x)) i h1 h2)
  board ha i h1 h2 := (k.board (fun x => ha (hl x)) i h1 h2).trans (h.board (fun x => ha (hk x)) i h1 h2)
  rows ha i h1 h2 := (k.rows (fun x => ha (hl x)) i h1 h2).trans (h.rows (fun x => ha (hk x)) i h1 h2)
  enrol ha i h1 h2 := (k.enrol (fun x => ha (hl x)) i h1 h2).trans (h.enrol (fun x => ha (hk x)) i h1 h2)

/-- Areas whose `reports` the operation keeps all the same. -/
theorem Part.Within.reporting {K : List Area} {p q : Part} (w : Part.Within (.reports :: K) p q) (h : Part.Reports p q) :
    Part.Within K p q := by
  have m {a : Area} (ha : a ∉ K) (hne : a ≠ .reports := by decide) : a ∉ Area.reports :: K :=
    fun x => (List.mem_cons.1 x).elim hne ha
  exact { w with
    state := fun x => w.state (m x), degraded := fun x => w.degraded (m x), check := fun x => w.check (m x)
    dwell := fun x => w.dwell (m x), waking := fun x => w.waking (m x), listen := fun x => w.listen (m x)
    timeBase := fun x => w.timeBase (m x), inputs := fun x => w.inputs (m x), doors := fun x => w.doors (m x)
    latches := fun x => w.latches (m x), windows := fun x => w.windows (m x), lockout := fun x => w.lockout (m x)
    spent := fun x => w.spent (m x), monitors := fun x => w.monitors (m x), holders := fun x => w.holders (m x)
    waiting := fun x => w.waiting (m x), locator := fun x => w.locator (m x), begun := fun x => w.begun (m x)
    operation := fun x => w.operation (m x), supply := fun x => w.supply (m x), crash := fun x => w.crash (m x)
    memory := fun x => w.memory (m x), parity := fun x => w.parity (m x), misuse := fun x => w.misuse (m x)
    heads := fun x => w.heads (m x), scroll := fun x => w.scroll (m x), store := fun x => w.store (m x)
    cfg := fun x => w.cfg (m x), fobs := fun x => w.fobs (m x), page := fun x => w.page (m x)
    board := fun x => w.board (m x), rows := fun x => w.rows (m x), enrol := fun x => w.enrol (m x)
    served := fun x => w.served (m x), pointer := fun x => w.pointer (m x), mask := fun x => w.mask (m x)
    vehicleWord := fun x => w.vehicleWord (m x), sent := fun x => w.sent (m x), roster := fun x => w.roster (m x)
    reports := fun _ => h }

theorem Part.Within.mono {K L : List Area} {p q : Part} (h : Part.Within K p q) (hk : K ⊆ L) : Part.Within L p q :=
  h.trans (.refl L q) hk (List.Subset.refl L)

theorem Part.Keeps.refl (p : Part) : Part.Keeps p p := ⟨id, id, id, id, id, id, id, id, id⟩

theorem Part.Keeps.trans {p q r : Part} (h : Part.Keeps p q) (k : Part.Keeps q r) : Part.Keeps p r :=
  ⟨k.tidyLaw ∘ h.tidyLaw, k.doorsLaw ∘ h.doorsLaw, k.crashLaw ∘ h.crashLaw, k.unitsLaw ∘ h.unitsLaw,
    k.searchesLaw ∘ h.searchesLaw, k.dirtyLaw ∘ h.dirtyLaw, k.grantsLaw ∘ h.grantsLaw,
    k.candidatesLaw ∘ h.candidatesLaw, k.entriesLaw ∘ h.entriesLaw⟩

theorem Part.Does.refl (K : List Area) (p : Part) : Part.Does K p p := ⟨.refl K p, .refl p⟩

theorem Part.Does.mono {K L : List Area} {p q : Part} (h : Part.Does K p q) (hk : K ⊆ L := by decide) : Part.Does L p q :=
  ⟨h.toWithin.mono hk, h.toKeeps⟩

/-- One operation, then another. -/
theorem Part.Does.trans {K L M : List Area} {p q r : Part} (h : Part.Does K p q) (k : Part.Does L q r)
    (hk : K ⊆ M := by decide) (hl : L ⊆ M := by decide) : Part.Does M p r :=
  ⟨h.toWithin.trans k.toWithin hk hl, h.toKeeps.trans k.toKeeps⟩

/-- A further operation within the same areas. -/
theorem Part.Does.andThen {L M : List Area} {p q r : Part} (h : Part.Does M p q) (k : Part.Does L q r)
    (hl : L ⊆ M := by decide) : Part.Does M p r :=
  h.trans k (List.Subset.refl M) hl

/-- The last operation first, so that its form gives the state before it. -/
theorem Part.Does.after {L M : List Area} {p q r : Part} (k : Part.Does L q r) (h : Part.Does M p q)
    (hl : L ⊆ M := by decide) : Part.Does M p r :=
  h.andThen k hl

theorem Part.DoesBare.after {L M : List Area} {p q r : Part} (k : Part.DoesBare L q r) (h : Part.DoesBare M p q)
    (hl : L ⊆ M := by decide) : Part.DoesBare M p r :=
  ⟨h.toWithin.trans k.toWithin (List.Subset.refl M) hl, k.tidyLaw ∘ h.tidyLaw, k.doorsLaw ∘ h.doorsLaw, k.crashLaw ∘ h.crashLaw,
    k.unitsLaw ∘ h.unitsLaw, k.searchesLaw ∘ h.searchesLaw, k.dirtyLaw ∘ h.dirtyLaw, k.candidatesLaw ∘ h.candidatesLaw⟩

theorem Part.Acts.after {L M : List Area} {p q r : Part} (k : Part.Acts L q r) (h : Part.Acts M p q)
    (hl : L ⊆ M := by decide) : Part.Acts M p r :=
  ⟨k.toDoesBare.after h.toDoesBare hl, k.grantsLaw ∘ h.grantsLaw⟩

theorem Part.Acts.mono {K L : List Area} {p q : Part} (h : Part.Acts K p q) (hk : K ⊆ L := by decide) : Part.Acts L p q :=
  h.after (Part.Does.refl L p).acts hk

theorem Part.Does.foldl {α : Type} {K : List Area} {f : Part → α → Part} (h : ∀ p x, Part.Does K p (f p x)) :
    ∀ (l : List α) (p : Part), Part.Does K p (l.foldl f p)
  | [], p => .refl K p
  | x :: l, p => (h p x).trans (Part.Does.foldl h l (f p x)) (List.Subset.refl K) (List.Subset.refl K)

/-- An operation done under a condition. -/
theorem Part.Does.ite {c : Prop} [Decidable c] {K : List Area} {p q r : Part} (h : c → Part.Does K p q)
    (k : ¬ c → Part.Does K p r) : Part.Does K p (if c then q else r) := by
  split
  · exact h (by assumption)
  · exact k (by assumption)

/-! ### The command of one window, and the entry it answers (R154) -/

/-- The entry of a corner comes to no life: one that is WAITING or MOVING in a running operation was so before. -/
def Part.Fades (c : Corner) (p q : Part) : Prop :=
  ∀ o, q.operation = some o → o.ended = none → (o.entries.get c).state.live = true →
    ∃ x, p.operation = some x ∧ x.ended = none ∧ (x.entries.get c).state = (o.entries.get c).state

theorem Part.Fades.same {c : Corner} {p q : Part} (h : q.operation = p.operation) : Part.Fades c p q :=
  fun o ho he _ => ⟨o, h ▸ ho, he, rfl⟩

theorem Part.Fades.trans {c : Corner} {p q r : Part} (h : Part.Fades c p q) (k : Part.Fades c q r) : Part.Fades c p r :=
  fun o ho he hl => by
    obtain ⟨x, hx, hex, e⟩ := k o ho he hl
    obtain ⟨y, hy, hey, e'⟩ := h x hx hex (by rw [e]; exact hl)
    exact ⟨y, hy, hey, e'.trans e⟩

/-- No entry of a running operation is WAITING or MOVING at the corner. -/
def Part.dormant (p : Part) (c : Corner) : Prop :=
  ∀ o, p.operation = some o → o.ended = none → (o.entries.get c).state.live = false

theorem Part.Fades.dormant {c : Corner} {p q : Part} (h : Part.Fades c p q) (k : p.dormant c) : q.dormant c := fun o ho he => by
  by_contra hl
  obtain ⟨x, hx, hex, e⟩ := h o ho he (by simpa using hl)
  rw [← e, k x hx hex] at hl
  exact hl rfl

/-- The corner's window keeps its command, begins no learn, and its entry comes to no life. -/
structure Part.Spares (c : Corner) (p q : Part) : Prop where
  motion : (q.window c).motion = (p.window c).motion
  mover : (q.window c).mover = (p.window c).mover
  pending : (q.window c).pending = (p.window c).pending
  learn : (p.monitor c).learn = none → (q.monitor c).learn = none
  entry : Part.Fades c p q

theorem Part.Spares.trans {c : Corner} {p q r : Part} (h : Part.Spares c p q) (k : Part.Spares c q r) : Part.Spares c p r :=
  ⟨k.motion.trans h.motion, k.mover.trans h.mover, k.pending.trans h.pending, k.learn ∘ h.learn, h.entry.trans k.entry⟩

/-- What a WAITING or a MOVING entry of a running operation says of its window. -/
theorem Part.entryFits_of {p q : Part} {c : Corner} (h : p.entryFits c) (f : Part.Fades c p q)
    (hs : (q.window c).pending ≠ none → (q.window c).motion = .stopped)
    (hw : (p.monitor c).learn = none → ∀ x, (p.window c).pending = some x → (p.window c).motion = .stopped →
      x.cmd.mover = .sequencer → q.dormant c ∨ ((q.monitor c).learn = none ∧
        ∃ x, (q.window c).pending = some x ∧ x.cmd.mover = .sequencer))
    (hm : (p.monitor c).learn = none → (p.window c).underWay = true → (p.window c).mover = some .sequencer →
      q.dormant c ∨ ((q.monitor c).learn = none ∧ (q.window c).underWay = true ∧ (q.window c).mover = some .sequencer)) :
    q.entryFits c := by
  refine ⟨hs, fun o ho he => ⟨fun e => ?_, fun e => ?_⟩⟩ <;> obtain ⟨x, hx, hex, ex⟩ := f o ho he (by rw [e]; rfl)
  · obtain ⟨k1, y, k2, k3⟩ := (h.2 x hx hex).1 (ex.trans e)
    refine (hw k1 y k2 (h.1 (by rw [k2]; exact Option.some_ne_none y)) k3).resolve_left fun d => ?_
    have := d o ho he
    rw [e] at this
    cases this
  · obtain ⟨k1, k2, k3⟩ := (h.2 x hx hex).2 (ex.trans e)
    refine (hm k1 k2 k3).resolve_left fun d => ?_
    have := d o ho he
    rw [e] at this
    cases this

theorem Part.Spares.fits {p q : Part} {c : Corner} (s : Part.Spares c p q) (h : p.entryFits c) : q.entryFits c :=
  Part.entryFits_of h s.entry (by rw [s.pending, s.motion]; exact h.1)
    (fun k x hx _ hv => .inr ⟨s.learn k, x, by rw [s.pending, hx], hv⟩)
    fun k hu hv => .inr ⟨s.learn k, by rw [WindowRec.underWay, s.motion]; exact hu, by rw [s.mover, hv]⟩

/-- Every corner spared: the law of the entries is kept. -/
theorem Part.spares_entries {p q : Part} (s : ∀ c, Part.Spares c p q) : p.entriesFit → q.entriesFit :=
  fun h c => (s c).fits (h c)

/-- An operation that changes neither windows nor monitors, nor gives an entry life. -/
theorem Part.Within.spares {K : List Area} {p q : Part} (w : Part.Within K p q) {c : Corner} (f : Part.Fades c p q)
    (hw : .windows ∉ K := by decide) (hm : .monitors ∉ K := by decide) : Part.Spares c p q := by
  have h : q.window c = p.window c := congrArg (fun v : PerCorner WindowRec => v.get c) (w.windows hw)
  have k : q.monitor c = p.monitor c := congrArg (fun v : PerCorner MonitorRec => v.get c) (w.monitors hm)
  exact ⟨by rw [h], by rw [h], by rw [h], by rw [k]; exact id, f⟩

/-- An operation at one corner: the others are spared, its own learn is not begun and its entry comes to no life. -/
structure Part.Touches (c : Corner) (p q : Part) : Prop where
  others : ∀ d, d ≠ c → Part.Spares d p q
  learn : (p.monitor c).learn = none → (q.monitor c).learn = none
  entry : Part.Fades c p q

theorem Part.Touches.of {c : Corner} {p q : Part} (h : ∀ d, Part.Spares d p q) : Part.Touches c p q :=
  ⟨fun d _ => h d, (h c).learn, (h c).entry⟩

theorem Part.Touches.trans {c : Corner} {p q r : Part} (h : Part.Touches c p q) (k : Part.Touches c q r) : Part.Touches c p r :=
  ⟨fun d hd => (h.others d hd).trans (k.others d hd), k.learn ∘ h.learn, h.entry.trans k.entry⟩

/-- The last operation first. -/
theorem Part.Touches.after {c : Corner} {p q r : Part} (k : Part.Touches c q r) (h : Part.Touches c p q) : Part.Touches c p r :=
  h.trans k

theorem Part.Touches.ite {a : Prop} [Decidable a] {c : Corner} {p q r : Part} (h : a → Part.Touches c p q)
    (k : ¬ a → Part.Touches c p r) : Part.Touches c p (if a then q else r) := by
  split
  · exact h (by assumption)
  · exact k (by assumption)

/-- An operation outside windows, monitors and the Sequencer's record. -/
theorem Part.Within.touches {K : List Area} {p q : Part} (w : Part.Within K p q) {c : Corner}
    (hw : .windows ∉ K := by decide) (hm : .monitors ∉ K := by decide) (ho : .operation ∉ K := by decide) :
    Part.Touches c p q := .of fun _ => w.spares (.same (w.operation ho)) hw hm

/-- An operation at one corner that leaves this corner's law, leaves the law of the entries. -/
theorem Part.Touches.keeps {c : Corner} {p q : Part} (t : Part.Touches c p q) (h : p.entryFits c → q.entryFits c) :
    p.entriesFit → q.entriesFit := fun k d =>
  if e : d = c then e ▸ h (k c) else (t.others d e).fits (k d)

/-- A window that stops, its pending command as it was: a move of the Sequencer's is told. -/
theorem Part.Touches.stops {c : Corner} {p q : Part} (t : Part.Touches c p q) (hs : (q.window c).motion = .stopped)
    (hp : (q.window c).pending = (p.window c).pending)
    (hd : (p.monitor c).learn = none → (p.window c).underWay = true → (p.window c).mover = some .sequencer → q.dormant c) :
    p.entriesFit → q.entriesFit :=
  t.keeps fun h => Part.entryFits_of h t.entry (fun _ => hs)
    (fun k x hx _ hv => .inr ⟨t.learn k, x, by rw [hp, hx], hv⟩) fun k hu hv => .inl (hd k hu hv)

/-- A window whose pending command goes: the Sequencer is told of its own. -/
theorem Part.Touches.drops {c : Corner} {p q : Part} (t : Part.Touches c p q) (hm : (q.window c).motion = (p.window c).motion)
    (hv : (q.window c).mover = (p.window c).mover) (hp : (q.window c).pending = none)
    (hd : ∀ x, (p.window c).pending = some x → x.cmd.mover = .sequencer → q.dormant c) : p.entriesFit → q.entriesFit :=
  t.keeps fun h => Part.entryFits_of h t.entry (fun k => absurd hp k) (fun _ x hx _ he => .inl (hd x hx he))
    fun k hu he => .inr ⟨t.learn k, by rw [WindowRec.underWay, hm]; exact hu, by rw [hv, he]⟩

/-- A corner without a live entry. -/
theorem Part.dormant_fits {p : Part} {c : Corner} (h : p.dormant c)
    (hs : (p.window c).pending ≠ none → (p.window c).motion = .stopped) : p.entryFits c :=
  ⟨hs, fun o ho he => by
    have := h o ho he
    constructor <;> intro e <;> rw [e] at this <;> cases this⟩

theorem Part.setWindow_touches (p : Part) (c : Corner) (x : WindowRec) : Part.Touches c p (p.setWindow c x) := by
  refine ⟨fun d hd => ?_, id, .same rfl⟩
  have h : (p.setWindow c x).window d = p.window d := by rw [Part.setWindow_window, if_neg hd]
  exact ⟨by rw [h], by rw [h], by rw [h], id, .same rfl⟩

theorem Part.setMonitor_others (p : Part) {c d : Corner} (x : MonitorRec) (h : d ≠ c) : Part.Spares d p (p.setMonitor c x) :=
  ⟨rfl, rfl, rfl, fun k => by rw [Part.setMonitor_monitor, if_neg h]; exact k, .same rfl⟩

theorem Part.setMonitor_touches (p : Part) (c : Corner) (x : MonitorRec)
    (h : (p.monitor c).learn = none → x.learn = none := by first | exact id | exact fun _ => rfl) :
    Part.Touches c p (p.setMonitor c x) := by
  refine ⟨fun d hd => p.setMonitor_others x hd, fun k => ?_, .same rfl⟩
  rw [Part.setMonitor_monitor, if_pos rfl]
  exact h k

/-! ### Rows -/

abbrev rowAreas : List Area := [.memory, .rows, .scroll]

theorem Part.writeRow_word (p : Part) (r : Row) {i : Nat} (hi : i < 480 ∨ 992 ≤ i) :
    Memory.readWord (p.writeRow r).port.memory i = Memory.readWord p.port.memory i := by
  refine Memory.readWord_writeWords_ne _ _ _ ?_
  rw [show (r.words p.clock).length = 4 by simp [Row.words, packWords]]
  omega

theorem Part.writeRow_tidy {p : Part} (h : p.tidy) (hu : p.scroll.unread < 128) (r : Row) : (p.writeRow r).tidy := by
  obtain ⟨h1, h2, h3, h4⟩ := h
  exact ⟨Memory.wf_writeWords _ h1 _, h2, h3, by show p.scroll.unread + 1 ≤ 128; omega⟩

/-- The words of a row. -/
theorem Row.words_length (r : Row) (t : Nat) : (r.words t).length = 4 := by simp [Row.words, packWords]

/-- The row stands in the unread span, at its end. -/
theorem Part.writeRow_last {p : Part} (ht : p.tidy) (r : Row) {i : Nat} (hi : i < 4) :
    some ((p.writeRow r).unreadWord p.scroll.unread i) = (r.words p.clock)[i]? := by
  have hl := r.words_length p.clock
  exact Memory.readWord_writeWords _ ht.1 _ _ (by omega)

/-- The rows before it stay. -/
theorem Part.writeRow_before (p : Part) (r : Row) {j i : Nat} (hu : p.scroll.unread < 128) (hj : j < p.scroll.unread)
    (hi : i < 4) : (p.writeRow r).unreadWord j i = p.unreadWord j i := by
  refine Memory.readWord_writeWords_ne _ _ _ ?_
  rw [Row.words_length]
  show 480 + 4 * ((p.scroll.start + j) % 128) + i < 480 + 4 * ((p.scroll.start + p.scroll.unread) % 128) ∨
    480 + 4 * ((p.scroll.start + p.scroll.unread) % 128) + 4 ≤ 480 + 4 * ((p.scroll.start + j) % 128) + i
  omega

theorem Part.writeRow_reports (p : Part) (r : Row) (hu : p.scroll.unread < 128) : Part.Reports p (p.writeRow r) where
  tidy t := Part.writeRow_tidy t hu r
  start := rfl
  unread := Nat.le_succ _
  mark _ h := h
  kept _ _ hj hi := p.writeRow_before r hu hj hi
  ends _ _ _ := .inl rfl

theorem Part.writeRow_does (p : Part) (r : Row) (hu : p.scroll.unread < 128) : Part.Does rowAreas p (p.writeRow r) := by
  refine ⟨.reporting ?_ (p.writeRow_reports r hu), ⟨fun ht => Part.writeRow_tidy ht hu r, id, id, id, id, id, id, id, id⟩⟩
  constructor <;> first | rfl | exact fun _ => rfl | exact fun _ => .same rfl | exact fun h => absurd (by decide) h
                        | exact fun _ _ => FobRec.same_refl _
                        | exact fun _ i h1 h2 => p.writeRow_word r (by omega)

theorem Part.mark_does (p : Part) (m : BitVec 16) :
    Part.Does (.reports :: rowAreas) p { p with scroll := { p.scroll with mark := m } } := by
  refine ⟨?_, ⟨id, id, id, id, id, id, id, id, id⟩⟩
  constructor <;> first | rfl | exact fun _ => rfl | exact fun _ => .same rfl | exact fun _ _ _ _ => rfl
                        | exact fun h => absurd (by decide) h
                        | exact fun _ _ => FobRec.same_refl _

/-- A class joins the mark. -/
theorem Part.drop_does (p : Part) (m : BitVec 16) :
    Part.Does rowAreas p { p with scroll := { p.scroll with mark := p.scroll.mark ||| m } } :=
  ⟨.reporting (p.mark_does _).toWithin
    { tidy := id
      start := rfl
      unread := Nat.le_refl _
      mark := fun k h => by simp [h]
      kept := fun _ _ _ _ => rfl
      ends := fun _ _ _ => .inl rfl }, (p.mark_does _).toKeeps⟩

theorem Part.appendRow_does (p : Part) (r : Row) : Part.Does rowAreas p (p.appendRow r) := by
  unfold Part.appendRow
  refine .ite (fun h => p.writeRow_does r ?_) fun _ => p.drop_does _
  simp only [Bool.and_eq_true, decide_eq_true_eq] at h
  exact h.2

/-- A row handed over stands last in the unread span, or its class is in the mark (R193). -/
theorem Part.appendRow_reported {p : Part} (ht : p.tidy) (r : Row) :
    (p.appendRow r).scroll.mark.getLsbD r.cls.code = true ∨
      ∃ j, j < (p.appendRow r).scroll.unread ∧ ∀ i, i < 4 → some ((p.appendRow r).unreadWord j i) = (r.words p.clock)[i]? := by
  unfold Part.appendRow
  split
  · exact .inr ⟨p.scroll.unread, Nat.lt_succ_self _, fun i hi => Part.writeRow_last ht r hi⟩
  · refine .inl ?_
    rw [BitVec.getLsbD_or]
    cases r.cls <;> exact Bool.or_eq_true_iff.2 (.inr rfl)

theorem Part.writeGap_does (p : Part) : Part.Does (.reports :: rowAreas) p p.writeGap := by
  unfold Part.writeGap
  exact .ite (fun _ => .refl _ p) fun _ => (p.writeRow_does _ (by omega)).trans (Part.mark_does _ _)

theorem Part.appendRows_does (p : Part) (rs : List Row) : Part.Does rowAreas p (p.appendRows rs) :=
  Part.Does.foldl Part.appendRow_does rs p

/-! ### Single fields and records -/

theorem Part.degraded_does (p : Part) (x : Degraded) : Part.Does [.degraded] p { p with degraded := x } := by
  refine ⟨?_, ⟨id, id, id, id, id, id, id, id, id⟩⟩
  constructor <;> first | rfl | exact fun _ => rfl | exact fun _ => .same rfl | exact fun _ _ _ _ => rfl
                        | exact fun h => absurd (by decide) h
                        | exact fun _ _ => FobRec.same_refl _ | exact fun _ => .same id rfl rfl fun _ _ _ => rfl

theorem Part.check_does (p : Part) (x : CheckResult) : Part.Does [.check] p { p with check := x } := by
  refine ⟨?_, ⟨id, id, id, id, id, id, id, id, id⟩⟩
  constructor <;> first | rfl | exact fun _ => rfl | exact fun _ => .same rfl | exact fun _ _ _ _ => rfl
                        | exact fun h => absurd (by decide) h
                        | exact fun _ _ => FobRec.same_refl _ | exact fun _ => .same id rfl rfl fun _ _ _ => rfl

theorem Part.dwell_does (p : Part) (x : Option Nat) : Part.Does [.dwell] p { p with dwell := x } := by
  refine ⟨?_, ⟨id, id, id, id, id, id, id, id, id⟩⟩
  constructor <;> first | rfl | exact fun _ => rfl | exact fun _ => .same rfl | exact fun _ _ _ _ => rfl
                        | exact fun h => absurd (by decide) h
                        | exact fun _ _ => FobRec.same_refl _ | exact fun _ => .same id rfl rfl fun _ _ _ => rfl

theorem Part.waking_does (p : Part) (x : Option Waking) : Part.Does [.waking] p { p with waking := x } := by
  refine ⟨?_, ⟨id, id, id, id, id, id, id, id, id⟩⟩
  constructor <;> first | rfl | exact fun _ => rfl | exact fun _ => .same rfl | exact fun _ _ _ _ => rfl
                        | exact fun h => absurd (by decide) h
                        | exact fun _ _ => FobRec.same_refl _ | exact fun _ => .same id rfl rfl fun _ _ _ => rfl

theorem Part.listen_does (p : Part) (x : Option Listen) : Part.Does [.listen] p { p with listen := x } := by
  refine ⟨?_, ⟨id, id, id, id, id, id, id, id, id⟩⟩
  constructor <;> first | rfl | exact fun _ => rfl | exact fun _ => .same rfl | exact fun _ _ _ _ => rfl
                        | exact fun h => absurd (by decide) h
                        | exact fun _ _ => FobRec.same_refl _ | exact fun _ => .same id rfl rfl fun _ _ _ => rfl

theorem Part.timeBase_does (p : Part) (x : Bool) : Part.Does [.timeBase] p { p with timeBaseBad := x } := by
  refine ⟨?_, ⟨id, id, id, id, id, id, id, id, id⟩⟩
  constructor <;> first | rfl | exact fun _ => rfl | exact fun _ => .same rfl | exact fun _ _ _ _ => rfl
                        | exact fun h => absurd (by decide) h
                        | exact fun _ _ => FobRec.same_refl _ | exact fun _ => .same id rfl rfl fun _ _ _ => rfl

theorem Part.inputs_does (p : Part) (x : PerInput InputRec) : Part.Does [.inputs] p { p with inputs := x } := by
  refine ⟨?_, ⟨id, id, id, id, id, id, id, id, id⟩⟩
  constructor <;> first | rfl | exact fun _ => rfl | exact fun _ => .same rfl | exact fun _ _ _ _ => rfl
                        | exact fun h => absurd (by decide) h
                        | exact fun _ _ => FobRec.same_refl _ | exact fun _ => .same id rfl rfl fun _ _ _ => rfl

theorem Part.latches_does (p : Part) (x : PerDoor (Option ReleaseOp)) : Part.Does [.latches] p { p with latches := x } := by
  refine ⟨?_, ⟨id, id, id, id, id, id, id, id, id⟩⟩
  constructor <;> first | rfl | exact fun _ => rfl | exact fun _ => .same rfl | exact fun _ _ _ _ => rfl
                        | exact fun h => absurd (by decide) h
                        | exact fun _ _ => FobRec.same_refl _ | exact fun _ => .same id rfl rfl fun _ _ _ => rfl

theorem Part.lockout_does (p : Part) (x : Bool) : Part.Does [.lockout] p { p with lockout := x } := by
  refine ⟨?_, ⟨id, id, id, id, id, id, id, id, id⟩⟩
  constructor <;> first | rfl | exact fun _ => rfl | exact fun _ => .same rfl | exact fun _ _ _ _ => rfl
                        | exact fun h => absurd (by decide) h
                        | exact fun _ _ => FobRec.same_refl _ | exact fun _ => .same id rfl rfl fun _ _ _ => rfl

theorem Part.spent_does (p : Part) (x : PerSwitch Bool) : Part.Does [.spent] p { p with spent := x } := by
  refine ⟨?_, ⟨id, id, id, id, id, id, id, id, id⟩⟩
  constructor <;> first | rfl | exact fun _ => rfl | exact fun _ => .same rfl | exact fun _ _ _ _ => rfl
                        | exact fun h => absurd (by decide) h
                        | exact fun _ _ => FobRec.same_refl _ | exact fun _ => .same id rfl rfl fun _ _ _ => rfl

theorem Part.setMonitor_acts (p : Part) (c : Corner) (x : MonitorRec) : Part.Acts [.monitors] p (p.setMonitor c x) := by
  refine ⟨⟨?_, id, id, id, id, id, id, id⟩, id⟩
  constructor <;> first | rfl | exact fun _ => rfl | exact fun _ => .same rfl | exact fun _ _ _ _ => rfl
                        | exact fun h => absurd (by decide) h
                        | exact fun _ _ => FobRec.same_refl _ | exact fun _ => .same id rfl rfl fun _ _ _ => rfl

/-- A new monitor record that begins no learn. -/
theorem Part.setMonitor_does (p : Part) (c : Corner) (x : MonitorRec)
    (h : (p.monitor c).learn = none → x.learn = none := by first | exact id | exact fun _ => rfl) :
    Part.Does [.monitors] p (p.setMonitor c x) :=
  (p.setMonitor_acts c x).keeping (Part.spares_entries fun d => by
    refine ⟨rfl, rfl, rfl, fun k => ?_, .same rfl⟩
    rw [Part.setMonitor_monitor]
    split
    · subst_vars
      exact h k
    · exact k)

theorem Part.setInput_does (p : Part) (i : Input) (x : InputRec) : Part.Does [.inputs] p (p.setInput i x) := by
  refine ⟨?_, ⟨id, id, id, id, id, id, id, id, id⟩⟩
  constructor <;> first | rfl | exact fun _ => rfl | exact fun _ => .same rfl | exact fun _ _ _ _ => rfl
                        | exact fun h => absurd (by decide) h
                        | exact fun _ _ => FobRec.same_refl _ | exact fun _ => .same id rfl rfl fun _ _ _ => rfl

theorem Part.setLatch_does (p : Part) (d : Door) (x : Option ReleaseOp) : Part.Does [.latches] p (p.setLatch d x) := by
  refine ⟨?_, ⟨id, id, id, id, id, id, id, id, id⟩⟩
  constructor <;> first | rfl | exact fun _ => rfl | exact fun _ => .same rfl | exact fun _ _ _ _ => rfl
                        | exact fun h => absurd (by decide) h
                        | exact fun _ _ => FobRec.same_refl _ | exact fun _ => .same id rfl rfl fun _ _ _ => rfl

theorem Part.setHead_any (p : Part) (k : Slot) (h : Head) : Part.Does [.reports, .heads] p (p.setHead k h) := by
  refine ⟨?_, ⟨id, id, id, id, id, id, id, id, id⟩⟩
  constructor <;> first | rfl | exact fun _ => rfl | exact fun _ => .same rfl | exact fun _ _ _ _ => rfl
                        | exact fun h => absurd (by decide) h
                        | exact fun _ _ => FobRec.same_refl _

/-- A new head that is not DONE or REFUSED. -/
theorem Part.setHead_does (p : Part) (k : Slot) {h : Head} (hn : h.ended = false) : Part.Does [.heads] p (p.setHead k h) :=
  ⟨.reporting (p.setHead_any k h).toWithin
    { tidy := id
      start := rfl
      unread := Nat.le_refl _
      mark := fun _ h => h
      kept := fun _ _ _ _ => rfl
      ends := fun _ s hs => by
        rw [Part.setHead_head] at hs ⊢
        split at hs
        · rw [hn] at hs
          exact absurd hs (by decide)
        · exact .inl (by simp_all) }, (p.setHead_any k h).toKeeps⟩

theorem Part.setOperation_acts (p : Part) (o : Option Operation) : Part.Acts [.operation] p (p.setOperation o) := by
  refine ⟨⟨?_, id, id, id, id, id, id, id⟩, id⟩
  constructor <;> first | rfl | exact fun _ => rfl | exact fun _ => .same rfl | exact fun _ _ _ _ => rfl
                        | exact fun h => absurd (by decide) h
                        | exact fun _ _ => FobRec.same_refl _ | exact fun _ => .same id rfl rfl fun _ _ _ => rfl

theorem Part.setMisuse_does (p : Part) : Part.Does [.misuse] p p.setMisuse := by
  refine ⟨?_, ⟨id, id, id, id, id, id, id, id, id⟩⟩
  constructor <;> first | rfl | exact fun _ => rfl | exact fun _ => .same rfl | exact fun _ _ _ _ => rfl
                        | exact fun h => absurd (by decide) h
                        | exact fun _ _ => FobRec.same_refl _ | exact fun _ => .same id rfl rfl fun _ _ _ => rfl

theorem Part.setAssertion_does (p : Part) (a : Option Assertion) : Part.Does [.crash] p (p.setAssertion a) := by
  refine ⟨?_, ⟨id, id, id, id, id, id, id, id, id⟩⟩
  constructor <;> first | rfl | exact fun _ => rfl | exact fun _ => .same rfl | exact fun _ _ _ _ => rfl
                        | exact fun h => absurd (by decide) h
                        | exact fun _ _ => FobRec.same_refl _ | exact fun _ => .same id rfl rfl fun _ _ _ => rfl

theorem Part.startDwell_does (p : Part) : Part.Does [.dwell] p p.startDwell := by
  refine ⟨?_, ⟨id, id, id, id, id, id, id, id, id⟩⟩
  constructor <;> first | rfl | exact fun _ => rfl | exact fun _ => .same rfl | exact fun _ _ _ _ => rfl
                        | exact fun h => absurd (by decide) h
                        | exact fun _ _ => FobRec.same_refl _ | exact fun _ => .same id rfl rfl fun _ _ _ => rfl

theorem Part.send_does (p : Part) (ws : List Word) : Part.Does [.portRest] p (p.send ws) := by
  refine ⟨?_, ⟨id, id, id, id, id, id, id, id, id⟩⟩
  constructor <;> first | rfl | exact fun _ => rfl | exact fun _ => .same rfl | exact fun _ _ _ _ => rfl
                        | exact fun h => absurd (by decide) h
                        | exact fun _ _ => FobRec.same_refl _ | exact fun _ => .same id rfl rfl fun _ _ _ => rfl

/-- A record whose candidate is above its stored counter. -/
theorem Part.setFob_any (p : Part) (f : Fob) {x : FobRec} (h : (p.fob f).fits → x.fits) :
    Part.Does [.fobs, .begun, .roster] p (p.setFob f x) := by
  refine ⟨?_, ⟨id, id, id, id, id, id, id, fun k g => ?_, id⟩⟩
  · constructor <;> first | rfl | exact fun _ => rfl | exact fun _ _ _ _ => rfl | exact fun h => absurd (by decide) h
                          | exact fun _ => .same id rfl rfl fun _ _ _ => rfl
  · rw [Part.setFob_fob]
    split
    · subst_vars
      exact h (k _)
    · exact k g

/-- A record that follows the one before. -/
theorem Part.setFob_does (p : Part) (f : Fob) {x : FobRec} (h : (p.fob f).Follows x) :
    Part.Does [.fobs, .begun] p (p.setFob f x) := by
  have c : Part.Counts p (p.setFob f x) := ⟨fun g => by
    rw [Part.setFob_fob]
    split
    · subst_vars
      exact h
    · exact .refl _⟩
  refine ⟨?_, ⟨id, id, id, id, id, id, id, c.fit, id⟩⟩
  constructor <;> first | rfl | exact fun _ => rfl | exact fun _ => c | exact fun _ _ _ _ => rfl
                        | exact fun h => absurd (by decide) h | exact fun _ => .same id rfl rfl fun _ _ _ => rfl

theorem Part.parity_does (p : Part) {m : List Host.Cell} (h : Memory.wf p.port.parity = true → Memory.wf m = true) :
    Part.Does [.parity] p { p with port := { p.port with parity := m } } := by
  refine ⟨?_, ⟨fun t => ⟨t.1, h t.2.1, t.2.2⟩, id, id, id, id, id, id, id, id⟩⟩
  constructor <;> first | rfl | exact fun _ => rfl | exact fun _ => .same rfl | exact fun _ _ _ _ => rfl
                        | exact fun h => absurd (by decide) h
                        | exact fun _ _ => FobRec.same_refl _
                        | exact fun _ => .same (fun t => ⟨t.1, h t.2.1, t.2.2⟩) rfl rfl fun _ _ _ => rfl

theorem Part.setState_does (p : Part) {x : PartState} (h : p.crashSet = true → x ≠ .start .full .drivers) :
    Part.Does [.state] p (p.setState x) := by
  refine ⟨?_, ⟨id, id, fun k => ⟨k.1, fun hc => ⟨(k.2 hc).1, (k.2 hc).2.1, h hc⟩⟩, id, id, id, id, id, id⟩⟩
  constructor <;> first | rfl | exact fun _ => rfl | exact fun _ => .same rfl | exact fun _ _ _ _ => rfl
                        | exact fun h => absurd (by decide) h
                        | exact fun _ _ => FobRec.same_refl _ | exact fun _ => .same id rfl rfl fun _ _ _ => rfl

theorem Part.setDoors_within (p : Part) (x : Doors) : Part.Within [.doors] p (p.setDoors x) := by
  constructor <;> first | rfl | exact fun _ => rfl | exact fun _ => .same rfl | exact fun _ _ _ _ => rfl
                        | exact fun h => absurd (by decide) h
                        | exact fun _ _ => FobRec.same_refl _ | exact fun _ => .same id rfl rfl fun _ _ _ => rfl

/-- New doors: they fit if the old did, and the crash latch's law is theirs where it was the old ones'. -/
theorem Part.setDoors_does (p : Part) {x : Doors} (hf : (∀ e, (p.door e).fits) → ∀ e, (x.recs.get e).fits)
    (hc : p.crashSafe → p.crashSet = true → (∀ e, (x.recs.get e).lock = .unlocked) ∧ x.childRL = .released ∧
      x.childRR = .released ∧ ∀ t, x.settling = some t → t = ⟨allDoors, true, true⟩) :
    Part.Does [.doors] p (p.setDoors x) := by
  refine ⟨p.setDoors_within x, ⟨id, fun k => ⟨hf k.1, k.2⟩, fun k => ⟨fun hs => ?_, fun hs => ?_⟩, id, id, id, id, id, id⟩⟩
  · exact ⟨(hc k hs).1, (hc k hs).2.1, (hc k hs).2.2.1, (k.1 hs).2.2.2⟩
  · exact ⟨(k.2 hs).1, (hc k hs).2.2.2, (k.2 hs).2.2⟩

/-- A new door record. -/
theorem Part.setDoor_does (p : Part) (d : Door) {x : DoorRec} (hf : (p.door d).fits → x.fits)
    (hc : p.crashSafe → p.crashSet = true → x.lock = .unlocked) : Part.Does [.doors] p (p.setDoor d x) := by
  refine p.setDoors_does (x := { p.doors with recs := p.doors.recs.set d x }) (fun h e => ?_) fun k hs => ⟨fun e => ?_, ?_⟩
  · rw [PerDoor.get_set]
    split
    · exact hf (h d)
    · exact h e
  · show ((p.doors.recs.set d x).get e).lock = _
    rw [PerDoor.get_set]
    split
    · exact hc k hs
    · exact (k.1 hs).1 e
  · exact ⟨(k.1 hs).2.1, (k.1 hs).2.2.1, (k.2 hs).2.1⟩

/-- New doors with the same records, child locks and settling. -/
theorem Part.setDoors_sameLocks (p : Part) {x : Doors} (hr : x.recs = p.doors.recs) (h1 : x.childRL = p.doors.childRL)
    (h2 : x.childRR = p.doors.childRR) (h3 : x.settling = p.doors.settling) : Part.Does [.doors] p (p.setDoors x) :=
  p.setDoors_does (fun h e => by rw [hr]; exact h e) fun k hs =>
    ⟨fun e => by rw [hr]; exact (k.1 hs).1 e, h1 ▸ (k.1 hs).2.1, h2 ▸ (k.1 hs).2.2.1, h3 ▸ (k.2 hs).2.1⟩

/-- A new window record: while the crash latch is set neither closing nor waiting to close. -/
theorem Part.setWindow_bare (p : Part) (c : Corner) {x : WindowRec} (h : p.crashSafe → p.crashSet = true →
      x.motion ≠ .closing ∧ ∀ y, x.pending = some y → y.cmd.dir = .opening) : Part.DoesBare [.windows] p (p.setWindow c x) := by
  refine ⟨?_, id, id, fun k => ⟨fun hs => ?_, fun hs => ?_⟩, id, id, id, id⟩
  · constructor <;> first | rfl | exact fun _ => rfl | exact fun _ => .same rfl | exact fun _ _ _ _ => rfl
                          | exact fun h => absurd (by decide) h
                          | exact fun _ _ => FobRec.same_refl _ | exact fun _ => .same id rfl rfl fun _ _ _ => rfl
  · refine ⟨(k.1 hs).1, (k.1 hs).2.1, (k.1 hs).2.2.1, fun e => ?_⟩
    rw [Part.setWindow_window]
    split
    · exact (h k hs).1
    · exact (k.1 hs).2.2.2 e
  · refine ⟨fun e => ?_, (k.2 hs).2⟩
    rw [Part.setWindow_window]
    split
    · exact (h k hs).2
    · exact (k.2 hs).1 e

/-- And it moves only where the window moved before or holds a grant. -/
theorem Part.setWindow_acts (p : Part) (c : Corner) {x : WindowRec} (h : p.crashSafe → p.crashSet = true →
      x.motion ≠ .closing ∧ ∀ y, x.pending = some y → y.cmd.dir = .opening)
    (hg : p.grantsFit → x.motion ≠ .stopped → (p.window c).motion ≠ .stopped ∨ p.holdsGrant c := by exact fun _ => Or.inl) :
    Part.Acts [.windows] p (p.setWindow c x) := by
  refine (p.setWindow_bare c h).holding fun k => ⟨fun e he => ?_, k.2⟩
  rw [Part.setWindow_window] at he
  split at he
  · rename_i hc
    subst hc
    exact (hg k he).elim (k.1 e) id
  · exact k.1 e he

/-- A window record with the same pending command that moves as before, stands, or reverses from a move. -/
theorem Part.setWindow_samePending (p : Part) (c : Corner) {x : WindowRec} (hp : x.pending = (p.window c).pending)
    (hm : x.motion = (p.window c).motion ∨ x.motion = .stopped ∨ x.motion = .reversing ∧ (p.window c).motion ≠ .stopped) :
    Part.Acts [.windows] p (p.setWindow c x) :=
  p.setWindow_acts c
    (fun k hs => ⟨by
      rcases hm with hm | hm | hm
      · rw [hm]; exact (k.1 hs).2.2.2 c
      · rw [hm]; decide
      · rw [hm.1]; decide, by rw [hp]; exact (k.2 hs).1 c⟩)
    fun _ hx => .inl (by
      rcases hm with hm | hm | hm
      · rwa [← hm]
      · exact absurd hm hx
      · exact hm.2)

/-- A window record with the same command. -/
theorem Part.setWindow_does (p : Part) (c : Corner) {x : WindowRec} (hp : x.pending = (p.window c).pending := by rfl)
    (hm : x.motion = (p.window c).motion := by rfl) (hv : x.mover = (p.window c).mover := by rfl) :
    Part.Does [.windows] p (p.setWindow c x) :=
  (p.setWindow_samePending c hp (.inl hm)).keeping (Part.spares_entries fun d => by
    have h : (p.setWindow c x).window d = if d = c then x else p.window d := Part.setWindow_window ..
    split at h
    · subst_vars
      exact ⟨by rw [h, hm], by rw [h, hv], by rw [h, hp], id, .same rfl⟩
    · exact ⟨by rw [h], by rw [h], by rw [h], id, .same rfl⟩)

/-- New lists whose units outside escapes are no more than before, or fit; each entry with its actuator's units, and a
holder for every window that moves. -/
theorem Part.setLists_does (p : Part) {h : List Holder} {w : List Waiter}
    (hu : plainUnits p.holders ≤ p.budget → plainUnits h ≤ p.budget)
    (hg : p.grantsFit → (p.setLists h w).grantsFit) : Part.Does [.holders, .waiting] p (p.setLists h w) := by
  refine ⟨?_, ⟨id, id, id, hu, id, id, hg, id, id⟩⟩
  constructor <;> first | rfl | exact fun _ => rfl | exact fun _ => .same rfl | exact fun _ _ _ _ => rfl
                        | exact fun h => absurd (by decide) h
                        | exact fun _ _ => FobRec.same_refl _ | exact fun _ => .same id rfl rfl fun _ _ _ => rfl

/-- A new search list within its bounds. -/
theorem Part.setLocator_does (p : Part) {l : Locator} (h : p.searchesFit → l.list.length ≤ 6 ∧
      l.list.Pairwise fun a b => a.matches_ b = false) : Part.Does [.locator] p (p.setLocator l) := by
  refine ⟨?_, ⟨id, id, id, id, h, id, id, id, id⟩⟩
  constructor <;> first | rfl | exact fun _ => rfl | exact fun _ => .same rfl | exact fun _ _ _ _ => rfl
                        | exact fun h => absurd (by decide) h
                        | exact fun _ _ => FobRec.same_refl _ | exact fun _ => .same id rfl rfl fun _ _ _ => rfl

/-- A new store whose lock records are storable, its dirty set without doubles. -/
theorem Part.store_does (p : Part) {x : Store} (hd : p.doorsFit → (∀ k, x.copies.lock.newer = some k → k.storable) ∧
      (∀ k, x.copies.lock.older = some k → k.storable) ∧ ∀ k, x.commit = some k → k.content.storable)
    (hn : p.dirtyFits → x.dirty.Nodup) : Part.Does [.store] p { p with store := x } := by
  refine ⟨?_, ⟨id, fun k => ⟨k.1, hd k⟩, id, id, id, hn, id, id, id⟩⟩
  constructor <;> first | rfl | exact fun _ => rfl | exact fun _ => .same rfl | exact fun _ _ _ _ => rfl
                        | exact fun h => absurd (by decide) h
                        | exact fun _ _ => FobRec.same_refl _ | exact fun _ => .same id rfl rfl fun _ _ _ => rfl

/-! ### Slots and orders -/

abbrev slotAreas : List Area := [.memory, .board, .parity]
abbrev orderAreas : List Area := [.memory, .board, .rows, .parity, .heads, .scroll]

theorem Part.storeSlot_does (p : Part) (k : Slot) {j : Nat} {ws : List Word} (h : j + ws.length ≤ 8) :
    Part.Does [.memory, .board] p (p.storeWords (slotWord k j) ws) := by
  have hw (i : Nat) (hi : i < 352 ∨ 480 ≤ i) :
      Memory.readWord (p.storeWords (slotWord k j) ws).port.memory i = Memory.readWord p.port.memory i := by
    refine Memory.readWord_writeWords_ne _ _ _ ?_
    have := k.isLt
    simp only [slotWord]
    omega
  refine ⟨?_, ⟨fun t => ⟨Memory.wf_writeWords _ t.1 _, t.2⟩, id, id, id, id, id, id, id, id⟩⟩
  constructor <;> first | rfl | exact fun _ => rfl | exact fun _ => .same rfl | exact fun h => absurd (by decide) h
                        | exact fun _ _ => FobRec.same_refl _
                        | exact fun _ i h1 h2 => hw i (by omega)
                        | exact fun _ => .same (fun t => ⟨Memory.wf_writeWords _ t.1 _, t.2⟩) rfl rfl fun i h1 h2 => hw i (by omega)

theorem Part.writeResults_does (p : Part) (k : Slot) (a b : Word) : Part.Does slotAreas p (p.writeResults k a b) := by
  refine (p.storeSlot_does k (j := 6) (ws := [a, b]) (by simp)).trans (Part.parity_does _ ?_)
  exact fun h => Memory.wf_writeByte (Memory.wf_writeByte h _ _) _ _

/-- A slot's order ends with its ORDER row. -/
theorem Part.endOrder_reports (p : Part) (k : Slot) (st : SlotState) (code : Nat) (a b : Word) :
    Part.Reports p (p.endOrder k st code a b) := by
  let h : Head := { p.head k with state := st, code := BitVec.ofNat 8 code }
  let q := (p.setHead k h).writeResults k a b
  have hr : Part.Reports q (q.appendRow (orderRow k h a)) := (q.appendRow_does _).reports (by decide)
  have hw := (Part.writeResults_does (p.setHead k h) k a b).toWithin
  have hq : ∀ s, q.head s = if s = k then h else p.head s := fun s => by
    rw [Part.head, hw.heads (by decide)]
    exact p.setHead_head k s h
  have he : (q.appendRow (orderRow k h a)).heads = q.heads := (q.appendRow_does _).heads (by decide)
  have hwr := hw.reports (by decide)
  exact
    { tidy := fun t => hr.tidy (hwr.tidy t)
      start := hr.start.trans hwr.start
      unread := hwr.unread.trans hr.unread
      mark := fun i hi => hr.mark i (hwr.mark i hi)
      kept := fun j i hj hi => (hr.kept j i (lt_of_lt_of_le hj hwr.unread) hi).trans (hwr.kept j i hj hi)
      ends := fun t s _ => by
        show (q.appendRow (orderRow k h a)).head s = _ ∨ (q.appendRow (orderRow k h a)).reported s
        rw [Part.head, he, ← Part.head, hq s]
        split
        · rename_i e
          subst e
          refine .inr ?_
          rcases Part.appendRow_reported (hwr.tidy t) (orderRow s h a) with hm | ⟨j, hj, hw⟩
          · exact .inl hm
          · refine .inr ⟨j, a, hj, ?_⟩
            rw [Part.head, he, ← Part.head, hq s, if_pos rfl, (q.appendRow_does _).clock]
            exact hw
        · exact .inl rfl }

theorem Part.endOrder_does (p : Part) (k : Slot) (st : SlotState) (code : Nat) (a b : Word) :
    Part.Does orderAreas p (p.endOrder k st code a b) :=
  have h := ((p.setHead_any k { p.head k with state := st, code := BitVec.ofNat 8 code }).trans
    (Part.writeResults_does _ k a b) (M := .reports :: orderAreas)).andThen
      (Part.appendRow_does _ (orderRow k { p.head k with state := st, code := BitVec.ofNat 8 code } a))
  ⟨.reporting h.toWithin (p.endOrder_reports k st code a b), h.toKeeps⟩

theorem Part.orderDone_does (p : Part) (k : Slot) (o : OrderOutcome) (a b : Word) :
    Part.Does orderAreas p (p.orderDone k o a b) := p.endOrder_does ..

theorem Part.orderRefused_does (p : Part) (k : Slot) (r : OrderRefusal) (a : Word) :
    Part.Does orderAreas p (p.orderRefused k r a) := p.endOrder_does ..

theorem Part.orderTaken_does (p : Part) (k : Slot) : Part.Does orderAreas p (p.orderTaken k) :=
  (p.setHead_does k rfl).trans (Part.writeResults_does _ k 0 0)

/-! ### The Retained Store -/

abbrev markAreas : List Area := [.begun, .store]

theorem LockState.kept_storable (l : LockState) : l.kept ≠ .lockPending := by cases l <;> decide

theorem Part.lockKeep_storable (p : Part) : p.lockKeep.storable := fun d => by
  simp only [Part.lockKeep, PerDoor.get_build]
  exact LockState.kept_storable _

theorem Part.contentOf_storable (p : Part) (r : RecordId) : (p.contentOf r).storable := by
  cases r <;> first | exact p.lockKeep_storable | trivial

theorem Part.begun_does (p : Part) (f : Fob) (g : FobWait → FobWait) (hg : ∀ w, (g w).slot = w.slot) :
    Part.Does [.begun] p (p.setFob f { p.fob f with waits := (p.fob f).waits.map g }) := by
  have d := p.setFob_does f (x := { p.fob f with waits := (p.fob f).waits.map g }) (.same rfl (.inl rfl))
  refine ⟨?_, d.toKeeps⟩
  constructor <;> first | rfl | exact fun _ => rfl | exact fun _ => d.roster (by decide) | exact fun _ _ _ _ => rfl
                        | exact fun h => absurd (by decide) h | exact fun _ => .same id rfl rfl fun _ _ _ => rfl | skip
  intro _ e
  rw [Part.setFob_fob]
  split
  · subst_vars
    refine ⟨rfl, rfl, rfl, rfl, rfl, rfl, ?_⟩
    simp [Option.map_map, Function.comp_def, hg]
  · exact FobRec.same_refl _

theorem Part.beginCommit_does (p : Part) : Part.Does markAreas p p.beginCommit := by
  unfold Part.beginCommit
  split
  · exact .refl _ p
  · rename_i r rest hd
    have h1 : Part.Does [.store] p { p with store := { p.store with
        dirty := rest
        commit := some ⟨p.contentOf r, p.clock + 6, false⟩ } } :=
      p.store_does (fun k => ⟨k.2.1, k.2.2.1, fun x hx => by
        simp only [Option.some.injEq] at hx
        subst hx
        exact p.contentOf_storable r⟩) fun k => by
        simp only [Part.dirtyFits, hd] at k
        exact (List.nodup_cons.1 k).2
    dsimp only
    split
    · exact h1.trans (Part.begun_does _ _ _ fun _ => rfl)
    · exact h1.mono
    · exact h1.mono

theorem Part.tryCommit_does (p : Part) : Part.Does markAreas p p.tryCommit :=
  .ite (fun _ => p.beginCommit_does) fun _ => .refl _ p

theorem Part.markDirty_does (p : Part) (r : RecordId) : Part.Does markAreas p (p.markDirty r) := by
  have add (h : p.store.dirty.contains r = false) :
      Part.Does [.store] p { p with store := { p.store with dirty := p.store.dirty ++ [r] } } :=
    p.store_does (fun k => k.2) fun k => by
      simp only [List.contains_eq_mem, decide_eq_false_iff_not] at h
      exact List.Nodup.append k (List.nodup_singleton r) (by simpa using h)
  unfold Part.markDirty
  split
  · rename_i k hk
    split
    · refine .mono (K := [.store]) (L := markAreas) (p.store_does (fun l => ⟨l.2.1, l.2.2.1, fun x hx => ?_⟩) id)
      simp only [Option.some.injEq] at hx
      subst hx
      exact l.2.2.2 k hk
    · split
      · exact .refl _ p
      · exact (add (by simp_all)).mono
  · split
    · exact p.tryCommit_does
    · exact (add (by simp_all)).trans (Part.tryCommit_does _)

theorem Part.noteChange_does (p : Part) (r : RecordId) : Part.Does [.store] p (p.noteChange r) := by
  unfold Part.noteChange
  split
  · rename_i k hk
    refine .ite (fun _ => p.store_does (fun l => ⟨l.2.1, l.2.2.1, fun x hx => ?_⟩) id) fun _ => .refl _ p
    simp only [Option.some.injEq] at hx
    subst hx
    exact l.2.2.2 k hk
  · exact .refl _ p

/-! ### What the short operations leave -/

@[simp] theorem Part.appendRow_fields (p : Part) (r : Row) :
    (p.appendRow r).driverDoor = p.driverDoor ∧ (p.appendRow r).clock = p.clock ∧ (p.appendRow r).state = p.state ∧
    (p.appendRow r).degraded = p.degraded ∧ (p.appendRow r).check = p.check ∧ (p.appendRow r).dwell = p.dwell ∧
    (p.appendRow r).waking = p.waking ∧ (p.appendRow r).listen = p.listen ∧ (p.appendRow r).timeBaseBad =
    p.timeBaseBad ∧ (p.appendRow r).inputs = p.inputs ∧ (p.appendRow r).doors = p.doors ∧ (p.appendRow r).latches =
    p.latches ∧ (p.appendRow r).windows = p.windows ∧ (p.appendRow r).lockout = p.lockout ∧ (p.appendRow r).spent =
    p.spent ∧ (p.appendRow r).monitors = p.monitors ∧ (p.appendRow r).holders = p.holders ∧ (p.appendRow r).waiting =
    p.waiting ∧ (p.appendRow r).locator = p.locator ∧ (p.appendRow r).fobs = p.fobs ∧ (p.appendRow r).operation =
    p.operation ∧ (p.appendRow r).supply = p.supply ∧ (p.appendRow r).crash = p.crash ∧ (p.appendRow r).port.parity =
    p.port.parity ∧ (p.appendRow r).port.misuse = p.port.misuse ∧ (p.appendRow r).heads = p.heads ∧ (p.appendRow
    r).store = p.store ∧ (p.appendRow r).cfg = p.cfg ∧ (p.appendRow r).port.served = p.port.served ∧ (p.appendRow
    r).port.pointer = p.port.pointer ∧ (p.appendRow r).port.mask = p.port.mask ∧ (p.appendRow r).port.vehicleWord =
    p.port.vehicleWord ∧ (p.appendRow r).port.sent = p.port.sent ∧ (∀ y, (p.appendRow r).door y = p.door y) ∧ (∀ y,
    (p.appendRow r).window y = p.window y) ∧ (∀ y, (p.appendRow r).monitor y = p.monitor y) ∧ (∀ y, (p.appendRow
    r).fob y = p.fob y) ∧ (∀ y, (p.appendRow r).input y = p.input y) ∧ (∀ y, (p.appendRow r).latch y = p.latch y) ∧ (∀
    y, (p.appendRow r).head y = p.head y) := by
  have h := p.appendRow_does r
  exact ⟨h.driver, h.clock, h.state (by decide), h.degraded (by decide), h.check (by decide), h.dwell (by decide), h.waking
    (by decide), h.listen (by decide), h.timeBase (by decide), h.inputs (by decide), h.doors (by decide), h.latches
    (by decide), h.windows (by decide), h.lockout (by decide), h.spent (by decide), h.monitors (by decide), h.holders
    (by decide), h.waiting (by decide), h.locator (by decide), h.begun (by decide), h.operation (by decide), h.supply
    (by decide), h.crash (by decide), h.parity (by decide), h.misuse (by decide), h.heads (by decide), h.store (by
    decide), h.cfg (by decide), h.served (by decide), h.pointer (by decide), h.mask (by decide), h.vehicleWord (by
    decide), h.sent (by decide), fun y => congrArg (fun d : Doors => d.recs.get y) (h.doors (by decide)), fun y =>
    congrArg (fun v : PerCorner WindowRec => v.get y) (h.windows (by decide)), fun y => congrArg (fun v : PerCorner
    MonitorRec => v.get y) (h.monitors (by decide)), fun y => congrArg (fun v : PerFob FobRec => v.get y) (h.begun (by
    decide)), fun y => congrArg (fun v : PerInput InputRec => v.get y) (h.inputs (by decide)), fun y => congrArg (fun
    v : PerDoor (Option ReleaseOp) => v.get y) (h.latches (by decide)), fun y => congrArg (fun v : Vector Head 16 =>
    v.get y) (h.heads (by decide))⟩

@[simp] theorem Part.writeGap_fields (p : Part) :
    p.writeGap.driverDoor = p.driverDoor ∧ p.writeGap.clock = p.clock ∧ p.writeGap.state = p.state ∧
    p.writeGap.degraded = p.degraded ∧ p.writeGap.check = p.check ∧ p.writeGap.dwell = p.dwell ∧ p.writeGap.waking =
    p.waking ∧ p.writeGap.listen = p.listen ∧ p.writeGap.timeBaseBad = p.timeBaseBad ∧ p.writeGap.inputs = p.inputs ∧
    p.writeGap.doors = p.doors ∧ p.writeGap.latches = p.latches ∧ p.writeGap.windows = p.windows ∧ p.writeGap.lockout
    = p.lockout ∧ p.writeGap.spent = p.spent ∧ p.writeGap.monitors = p.monitors ∧ p.writeGap.holders = p.holders ∧
    p.writeGap.waiting = p.waiting ∧ p.writeGap.locator = p.locator ∧ p.writeGap.fobs = p.fobs ∧ p.writeGap.operation
    = p.operation ∧ p.writeGap.supply = p.supply ∧ p.writeGap.crash = p.crash ∧ p.writeGap.port.parity = p.port.parity
    ∧ p.writeGap.port.misuse = p.port.misuse ∧ p.writeGap.heads = p.heads ∧ p.writeGap.store = p.store ∧
    p.writeGap.cfg = p.cfg ∧ p.writeGap.port.served = p.port.served ∧ p.writeGap.port.pointer = p.port.pointer ∧
    p.writeGap.port.mask = p.port.mask ∧ p.writeGap.port.vehicleWord = p.port.vehicleWord ∧ p.writeGap.port.sent =
    p.port.sent ∧ (∀ y, p.writeGap.door y = p.door y) ∧ (∀ y, p.writeGap.window y = p.window y) ∧ (∀ y,
    p.writeGap.monitor y = p.monitor y) ∧ (∀ y, p.writeGap.fob y = p.fob y) ∧ (∀ y, p.writeGap.input y = p.input y) ∧
    (∀ y, p.writeGap.latch y = p.latch y) ∧ (∀ y, p.writeGap.head y = p.head y) := by
  have h := p.writeGap_does
  exact ⟨h.driver, h.clock, h.state (by decide), h.degraded (by decide), h.check (by decide), h.dwell (by decide), h.waking
    (by decide), h.listen (by decide), h.timeBase (by decide), h.inputs (by decide), h.doors (by decide), h.latches
    (by decide), h.windows (by decide), h.lockout (by decide), h.spent (by decide), h.monitors (by decide), h.holders
    (by decide), h.waiting (by decide), h.locator (by decide), h.begun (by decide), h.operation (by decide), h.supply
    (by decide), h.crash (by decide), h.parity (by decide), h.misuse (by decide), h.heads (by decide), h.store (by
    decide), h.cfg (by decide), h.served (by decide), h.pointer (by decide), h.mask (by decide), h.vehicleWord (by
    decide), h.sent (by decide), fun y => congrArg (fun d : Doors => d.recs.get y) (h.doors (by decide)), fun y =>
    congrArg (fun v : PerCorner WindowRec => v.get y) (h.windows (by decide)), fun y => congrArg (fun v : PerCorner
    MonitorRec => v.get y) (h.monitors (by decide)), fun y => congrArg (fun v : PerFob FobRec => v.get y) (h.begun (by
    decide)), fun y => congrArg (fun v : PerInput InputRec => v.get y) (h.inputs (by decide)), fun y => congrArg (fun
    v : PerDoor (Option ReleaseOp) => v.get y) (h.latches (by decide)), fun y => congrArg (fun v : Vector Head 16 =>
    v.get y) (h.heads (by decide))⟩

@[simp] theorem Part.markDirty_fields (p : Part) (r : RecordId) :
    (p.markDirty r).driverDoor = p.driverDoor ∧ (p.markDirty r).clock = p.clock ∧ (p.markDirty r).state = p.state ∧
    (p.markDirty r).degraded = p.degraded ∧ (p.markDirty r).check = p.check ∧ (p.markDirty r).dwell = p.dwell ∧
    (p.markDirty r).waking = p.waking ∧ (p.markDirty r).listen = p.listen ∧ (p.markDirty r).timeBaseBad =
    p.timeBaseBad ∧ (p.markDirty r).inputs = p.inputs ∧ (p.markDirty r).doors = p.doors ∧ (p.markDirty r).latches =
    p.latches ∧ (p.markDirty r).windows = p.windows ∧ (p.markDirty r).lockout = p.lockout ∧ (p.markDirty r).spent =
    p.spent ∧ (p.markDirty r).monitors = p.monitors ∧ (p.markDirty r).holders = p.holders ∧ (p.markDirty r).waiting =
    p.waiting ∧ (p.markDirty r).locator = p.locator ∧ (p.markDirty r).operation = p.operation ∧ (p.markDirty r).supply
    = p.supply ∧ (p.markDirty r).crash = p.crash ∧ (p.markDirty r).port.memory = p.port.memory ∧ (p.markDirty
    r).port.parity = p.port.parity ∧ (p.markDirty r).port.misuse = p.port.misuse ∧ (p.markDirty r).heads = p.heads ∧
    (p.markDirty r).scroll = p.scroll ∧ (p.markDirty r).cfg = p.cfg ∧ (p.markDirty r).port.served = p.port.served ∧
    (p.markDirty r).port.pointer = p.port.pointer ∧ (p.markDirty r).port.mask = p.port.mask ∧ (p.markDirty
    r).port.vehicleWord = p.port.vehicleWord ∧ (p.markDirty r).port.sent = p.port.sent ∧ (∀ y, (p.markDirty r).door y
    = p.door y) ∧ (∀ y, (p.markDirty r).window y = p.window y) ∧ (∀ y, (p.markDirty r).monitor y = p.monitor y) ∧ (∀
    y, (p.markDirty r).input y = p.input y) ∧ (∀ y, (p.markDirty r).latch y = p.latch y) ∧ (∀ y, (p.markDirty r).head
    y = p.head y) := by
  have h := p.markDirty_does r
  exact ⟨h.driver, h.clock, h.state (by decide), h.degraded (by decide), h.check (by decide), h.dwell (by decide), h.waking
    (by decide), h.listen (by decide), h.timeBase (by decide), h.inputs (by decide), h.doors (by decide), h.latches
    (by decide), h.windows (by decide), h.lockout (by decide), h.spent (by decide), h.monitors (by decide), h.holders
    (by decide), h.waiting (by decide), h.locator (by decide), h.operation (by decide), h.supply (by decide), h.crash
    (by decide), h.memory (by decide), h.parity (by decide), h.misuse (by decide), h.heads (by decide), h.scroll (by
    decide), h.cfg (by decide), h.served (by decide), h.pointer (by decide), h.mask (by decide), h.vehicleWord (by
    decide), h.sent (by decide), fun y => congrArg (fun d : Doors => d.recs.get y) (h.doors (by decide)), fun y =>
    congrArg (fun v : PerCorner WindowRec => v.get y) (h.windows (by decide)), fun y => congrArg (fun v : PerCorner
    MonitorRec => v.get y) (h.monitors (by decide)), fun y => congrArg (fun v : PerInput InputRec => v.get y)
    (h.inputs (by decide)), fun y => congrArg (fun v : PerDoor (Option ReleaseOp) => v.get y) (h.latches (by decide)),
    fun y => congrArg (fun v : Vector Head 16 => v.get y) (h.heads (by decide))⟩

@[simp] theorem Part.tryCommit_fields (p : Part) :
    p.tryCommit.driverDoor = p.driverDoor ∧ p.tryCommit.clock = p.clock ∧ p.tryCommit.state = p.state ∧
    p.tryCommit.degraded = p.degraded ∧ p.tryCommit.check = p.check ∧ p.tryCommit.dwell = p.dwell ∧ p.tryCommit.waking
    = p.waking ∧ p.tryCommit.listen = p.listen ∧ p.tryCommit.timeBaseBad = p.timeBaseBad ∧ p.tryCommit.inputs =
    p.inputs ∧ p.tryCommit.doors = p.doors ∧ p.tryCommit.latches = p.latches ∧ p.tryCommit.windows = p.windows ∧
    p.tryCommit.lockout = p.lockout ∧ p.tryCommit.spent = p.spent ∧ p.tryCommit.monitors = p.monitors ∧
    p.tryCommit.holders = p.holders ∧ p.tryCommit.waiting = p.waiting ∧ p.tryCommit.locator = p.locator ∧
    p.tryCommit.operation = p.operation ∧ p.tryCommit.supply = p.supply ∧ p.tryCommit.crash = p.crash ∧
    p.tryCommit.port.memory = p.port.memory ∧ p.tryCommit.port.parity = p.port.parity ∧ p.tryCommit.port.misuse =
    p.port.misuse ∧ p.tryCommit.heads = p.heads ∧ p.tryCommit.scroll = p.scroll ∧ p.tryCommit.cfg = p.cfg ∧
    p.tryCommit.port.served = p.port.served ∧ p.tryCommit.port.pointer = p.port.pointer ∧ p.tryCommit.port.mask =
    p.port.mask ∧ p.tryCommit.port.vehicleWord = p.port.vehicleWord ∧ p.tryCommit.port.sent = p.port.sent ∧ (∀ y,
    p.tryCommit.door y = p.door y) ∧ (∀ y, p.tryCommit.window y = p.window y) ∧ (∀ y, p.tryCommit.monitor y =
    p.monitor y) ∧ (∀ y, p.tryCommit.input y = p.input y) ∧ (∀ y, p.tryCommit.latch y = p.latch y) ∧ (∀ y,
    p.tryCommit.head y = p.head y) := by
  have h := p.tryCommit_does
  exact ⟨h.driver, h.clock, h.state (by decide), h.degraded (by decide), h.check (by decide), h.dwell (by decide), h.waking
    (by decide), h.listen (by decide), h.timeBase (by decide), h.inputs (by decide), h.doors (by decide), h.latches
    (by decide), h.windows (by decide), h.lockout (by decide), h.spent (by decide), h.monitors (by decide), h.holders
    (by decide), h.waiting (by decide), h.locator (by decide), h.operation (by decide), h.supply (by decide), h.crash
    (by decide), h.memory (by decide), h.parity (by decide), h.misuse (by decide), h.heads (by decide), h.scroll (by
    decide), h.cfg (by decide), h.served (by decide), h.pointer (by decide), h.mask (by decide), h.vehicleWord (by
    decide), h.sent (by decide), fun y => congrArg (fun d : Doors => d.recs.get y) (h.doors (by decide)), fun y =>
    congrArg (fun v : PerCorner WindowRec => v.get y) (h.windows (by decide)), fun y => congrArg (fun v : PerCorner
    MonitorRec => v.get y) (h.monitors (by decide)), fun y => congrArg (fun v : PerInput InputRec => v.get y)
    (h.inputs (by decide)), fun y => congrArg (fun v : PerDoor (Option ReleaseOp) => v.get y) (h.latches (by decide)),
    fun y => congrArg (fun v : Vector Head 16 => v.get y) (h.heads (by decide))⟩

@[simp] theorem Part.endOrder_fields (p : Part) (k : Slot) (st : SlotState) (code : Nat) (a b : Word) :
    (p.endOrder k st code a b).driverDoor = p.driverDoor ∧ (p.endOrder k st code a b).clock = p.clock ∧ (p.endOrder k
    st code a b).state = p.state ∧ (p.endOrder k st code a b).degraded = p.degraded ∧ (p.endOrder k st code a b).check
    = p.check ∧ (p.endOrder k st code a b).dwell = p.dwell ∧ (p.endOrder k st code a b).waking = p.waking ∧
    (p.endOrder k st code a b).listen = p.listen ∧ (p.endOrder k st code a b).timeBaseBad = p.timeBaseBad ∧
    (p.endOrder k st code a b).inputs = p.inputs ∧ (p.endOrder k st code a b).doors = p.doors ∧ (p.endOrder k st code
    a b).latches = p.latches ∧ (p.endOrder k st code a b).windows = p.windows ∧ (p.endOrder k st code a b).lockout =
    p.lockout ∧ (p.endOrder k st code a b).spent = p.spent ∧ (p.endOrder k st code a b).monitors = p.monitors ∧
    (p.endOrder k st code a b).holders = p.holders ∧ (p.endOrder k st code a b).waiting = p.waiting ∧ (p.endOrder k st
    code a b).locator = p.locator ∧ (p.endOrder k st code a b).fobs = p.fobs ∧ (p.endOrder k st code a b).operation =
    p.operation ∧ (p.endOrder k st code a b).supply = p.supply ∧ (p.endOrder k st code a b).crash = p.crash ∧
    (p.endOrder k st code a b).port.misuse = p.port.misuse ∧ (p.endOrder k st code a b).store = p.store ∧ (p.endOrder
    k st code a b).cfg = p.cfg ∧ (p.endOrder k st code a b).port.served = p.port.served ∧ (p.endOrder k st code a
    b).port.pointer = p.port.pointer ∧ (p.endOrder k st code a b).port.mask = p.port.mask ∧ (p.endOrder k st code a
    b).port.vehicleWord = p.port.vehicleWord ∧ (p.endOrder k st code a b).port.sent = p.port.sent ∧ (∀ y, (p.endOrder
    k st code a b).door y = p.door y) ∧ (∀ y, (p.endOrder k st code a b).window y = p.window y) ∧ (∀ y, (p.endOrder k
    st code a b).monitor y = p.monitor y) ∧ (∀ y, (p.endOrder k st code a b).fob y = p.fob y) ∧ (∀ y, (p.endOrder k st
    code a b).input y = p.input y) ∧ (∀ y, (p.endOrder k st code a b).latch y = p.latch y) := by
  have h := p.endOrder_does k st code a b
  exact ⟨h.driver, h.clock, h.state (by decide), h.degraded (by decide), h.check (by decide), h.dwell (by decide), h.waking
    (by decide), h.listen (by decide), h.timeBase (by decide), h.inputs (by decide), h.doors (by decide), h.latches
    (by decide), h.windows (by decide), h.lockout (by decide), h.spent (by decide), h.monitors (by decide), h.holders
    (by decide), h.waiting (by decide), h.locator (by decide), h.begun (by decide), h.operation (by decide), h.supply
    (by decide), h.crash (by decide), h.misuse (by decide), h.store (by decide), h.cfg (by decide), h.served (by
    decide), h.pointer (by decide), h.mask (by decide), h.vehicleWord (by decide), h.sent (by decide), fun y =>
    congrArg (fun d : Doors => d.recs.get y) (h.doors (by decide)), fun y => congrArg (fun v : PerCorner WindowRec =>
    v.get y) (h.windows (by decide)), fun y => congrArg (fun v : PerCorner MonitorRec => v.get y) (h.monitors (by
    decide)), fun y => congrArg (fun v : PerFob FobRec => v.get y) (h.begun (by decide)), fun y => congrArg (fun v :
    PerInput InputRec => v.get y) (h.inputs (by decide)), fun y => congrArg (fun v : PerDoor (Option ReleaseOp) =>
    v.get y) (h.latches (by decide))⟩

@[simp] theorem Part.orderDone_fields (p : Part) (k : Slot) (o : OrderOutcome) (a b : Word) :
    (p.orderDone k o a b).driverDoor = p.driverDoor ∧ (p.orderDone k o a b).clock = p.clock ∧ (p.orderDone k o a
    b).state = p.state ∧ (p.orderDone k o a b).degraded = p.degraded ∧ (p.orderDone k o a b).check = p.check ∧
    (p.orderDone k o a b).dwell = p.dwell ∧ (p.orderDone k o a b).waking = p.waking ∧ (p.orderDone k o a b).listen =
    p.listen ∧ (p.orderDone k o a b).timeBaseBad = p.timeBaseBad ∧ (p.orderDone k o a b).inputs = p.inputs ∧
    (p.orderDone k o a b).doors = p.doors ∧ (p.orderDone k o a b).latches = p.latches ∧ (p.orderDone k o a b).windows
    = p.windows ∧ (p.orderDone k o a b).lockout = p.lockout ∧ (p.orderDone k o a b).spent = p.spent ∧ (p.orderDone k o
    a b).monitors = p.monitors ∧ (p.orderDone k o a b).holders = p.holders ∧ (p.orderDone k o a b).waiting = p.waiting
    ∧ (p.orderDone k o a b).locator = p.locator ∧ (p.orderDone k o a b).fobs = p.fobs ∧ (p.orderDone k o a
    b).operation = p.operation ∧ (p.orderDone k o a b).supply = p.supply ∧ (p.orderDone k o a b).crash = p.crash ∧
    (p.orderDone k o a b).port.misuse = p.port.misuse ∧ (p.orderDone k o a b).store = p.store ∧ (p.orderDone k o a
    b).cfg = p.cfg ∧ (p.orderDone k o a b).port.served = p.port.served ∧ (p.orderDone k o a b).port.pointer =
    p.port.pointer ∧ (p.orderDone k o a b).port.mask = p.port.mask ∧ (p.orderDone k o a b).port.vehicleWord =
    p.port.vehicleWord ∧ (p.orderDone k o a b).port.sent = p.port.sent ∧ (∀ y, (p.orderDone k o a b).door y = p.door
    y) ∧ (∀ y, (p.orderDone k o a b).window y = p.window y) ∧ (∀ y, (p.orderDone k o a b).monitor y = p.monitor y) ∧
    (∀ y, (p.orderDone k o a b).fob y = p.fob y) ∧ (∀ y, (p.orderDone k o a b).input y = p.input y) ∧ (∀ y,
    (p.orderDone k o a b).latch y = p.latch y) := by
  have h := p.orderDone_does k o a b
  exact ⟨h.driver, h.clock, h.state (by decide), h.degraded (by decide), h.check (by decide), h.dwell (by decide), h.waking
    (by decide), h.listen (by decide), h.timeBase (by decide), h.inputs (by decide), h.doors (by decide), h.latches
    (by decide), h.windows (by decide), h.lockout (by decide), h.spent (by decide), h.monitors (by decide), h.holders
    (by decide), h.waiting (by decide), h.locator (by decide), h.begun (by decide), h.operation (by decide), h.supply
    (by decide), h.crash (by decide), h.misuse (by decide), h.store (by decide), h.cfg (by decide), h.served (by
    decide), h.pointer (by decide), h.mask (by decide), h.vehicleWord (by decide), h.sent (by decide), fun y =>
    congrArg (fun d : Doors => d.recs.get y) (h.doors (by decide)), fun y => congrArg (fun v : PerCorner WindowRec =>
    v.get y) (h.windows (by decide)), fun y => congrArg (fun v : PerCorner MonitorRec => v.get y) (h.monitors (by
    decide)), fun y => congrArg (fun v : PerFob FobRec => v.get y) (h.begun (by decide)), fun y => congrArg (fun v :
    PerInput InputRec => v.get y) (h.inputs (by decide)), fun y => congrArg (fun v : PerDoor (Option ReleaseOp) =>
    v.get y) (h.latches (by decide))⟩

@[simp] theorem Part.orderRefused_fields (p : Part) (k : Slot) (r : OrderRefusal) (a : Word) :
    (p.orderRefused k r a).driverDoor = p.driverDoor ∧ (p.orderRefused k r a).clock = p.clock ∧ (p.orderRefused k r
    a).state = p.state ∧ (p.orderRefused k r a).degraded = p.degraded ∧ (p.orderRefused k r a).check = p.check ∧
    (p.orderRefused k r a).dwell = p.dwell ∧ (p.orderRefused k r a).waking = p.waking ∧ (p.orderRefused k r a).listen
    = p.listen ∧ (p.orderRefused k r a).timeBaseBad = p.timeBaseBad ∧ (p.orderRefused k r a).inputs = p.inputs ∧
    (p.orderRefused k r a).doors = p.doors ∧ (p.orderRefused k r a).latches = p.latches ∧ (p.orderRefused k r
    a).windows = p.windows ∧ (p.orderRefused k r a).lockout = p.lockout ∧ (p.orderRefused k r a).spent = p.spent ∧
    (p.orderRefused k r a).monitors = p.monitors ∧ (p.orderRefused k r a).holders = p.holders ∧ (p.orderRefused k r
    a).waiting = p.waiting ∧ (p.orderRefused k r a).locator = p.locator ∧ (p.orderRefused k r a).fobs = p.fobs ∧
    (p.orderRefused k r a).operation = p.operation ∧ (p.orderRefused k r a).supply = p.supply ∧ (p.orderRefused k r
    a).crash = p.crash ∧ (p.orderRefused k r a).port.misuse = p.port.misuse ∧ (p.orderRefused k r a).store = p.store ∧
    (p.orderRefused k r a).cfg = p.cfg ∧ (p.orderRefused k r a).port.served = p.port.served ∧ (p.orderRefused k r
    a).port.pointer = p.port.pointer ∧ (p.orderRefused k r a).port.mask = p.port.mask ∧ (p.orderRefused k r
    a).port.vehicleWord = p.port.vehicleWord ∧ (p.orderRefused k r a).port.sent = p.port.sent ∧ (∀ y, (p.orderRefused
    k r a).door y = p.door y) ∧ (∀ y, (p.orderRefused k r a).window y = p.window y) ∧ (∀ y, (p.orderRefused k r
    a).monitor y = p.monitor y) ∧ (∀ y, (p.orderRefused k r a).fob y = p.fob y) ∧ (∀ y, (p.orderRefused k r a).input y
    = p.input y) ∧ (∀ y, (p.orderRefused k r a).latch y = p.latch y) := by
  have h := p.orderRefused_does k r a
  exact ⟨h.driver, h.clock, h.state (by decide), h.degraded (by decide), h.check (by decide), h.dwell (by decide), h.waking
    (by decide), h.listen (by decide), h.timeBase (by decide), h.inputs (by decide), h.doors (by decide), h.latches
    (by decide), h.windows (by decide), h.lockout (by decide), h.spent (by decide), h.monitors (by decide), h.holders
    (by decide), h.waiting (by decide), h.locator (by decide), h.begun (by decide), h.operation (by decide), h.supply
    (by decide), h.crash (by decide), h.misuse (by decide), h.store (by decide), h.cfg (by decide), h.served (by
    decide), h.pointer (by decide), h.mask (by decide), h.vehicleWord (by decide), h.sent (by decide), fun y =>
    congrArg (fun d : Doors => d.recs.get y) (h.doors (by decide)), fun y => congrArg (fun v : PerCorner WindowRec =>
    v.get y) (h.windows (by decide)), fun y => congrArg (fun v : PerCorner MonitorRec => v.get y) (h.monitors (by
    decide)), fun y => congrArg (fun v : PerFob FobRec => v.get y) (h.begun (by decide)), fun y => congrArg (fun v :
    PerInput InputRec => v.get y) (h.inputs (by decide)), fun y => congrArg (fun v : PerDoor (Option ReleaseOp) =>
    v.get y) (h.latches (by decide))⟩

@[simp] theorem Part.orderTaken_fields (p : Part) (k : Slot) :
    (p.orderTaken k).driverDoor = p.driverDoor ∧ (p.orderTaken k).clock = p.clock ∧ (p.orderTaken k).state = p.state ∧
    (p.orderTaken k).degraded = p.degraded ∧ (p.orderTaken k).check = p.check ∧ (p.orderTaken k).dwell = p.dwell ∧
    (p.orderTaken k).waking = p.waking ∧ (p.orderTaken k).listen = p.listen ∧ (p.orderTaken k).timeBaseBad =
    p.timeBaseBad ∧ (p.orderTaken k).inputs = p.inputs ∧ (p.orderTaken k).doors = p.doors ∧ (p.orderTaken k).latches =
    p.latches ∧ (p.orderTaken k).windows = p.windows ∧ (p.orderTaken k).lockout = p.lockout ∧ (p.orderTaken k).spent =
    p.spent ∧ (p.orderTaken k).monitors = p.monitors ∧ (p.orderTaken k).holders = p.holders ∧ (p.orderTaken k).waiting
    = p.waiting ∧ (p.orderTaken k).locator = p.locator ∧ (p.orderTaken k).fobs = p.fobs ∧ (p.orderTaken k).operation =
    p.operation ∧ (p.orderTaken k).supply = p.supply ∧ (p.orderTaken k).crash = p.crash ∧ (p.orderTaken k).port.misuse
    = p.port.misuse ∧ (p.orderTaken k).store = p.store ∧ (p.orderTaken k).cfg = p.cfg ∧ (p.orderTaken k).port.served =
    p.port.served ∧ (p.orderTaken k).port.pointer = p.port.pointer ∧ (p.orderTaken k).port.mask = p.port.mask ∧
    (p.orderTaken k).port.vehicleWord = p.port.vehicleWord ∧ (p.orderTaken k).port.sent = p.port.sent ∧ (∀ y,
    (p.orderTaken k).door y = p.door y) ∧ (∀ y, (p.orderTaken k).window y = p.window y) ∧ (∀ y, (p.orderTaken
    k).monitor y = p.monitor y) ∧ (∀ y, (p.orderTaken k).fob y = p.fob y) ∧ (∀ y, (p.orderTaken k).input y = p.input
    y) ∧ (∀ y, (p.orderTaken k).latch y = p.latch y) := by
  have h := p.orderTaken_does k
  exact ⟨h.driver, h.clock, h.state (by decide), h.degraded (by decide), h.check (by decide), h.dwell (by decide), h.waking
    (by decide), h.listen (by decide), h.timeBase (by decide), h.inputs (by decide), h.doors (by decide), h.latches
    (by decide), h.windows (by decide), h.lockout (by decide), h.spent (by decide), h.monitors (by decide), h.holders
    (by decide), h.waiting (by decide), h.locator (by decide), h.begun (by decide), h.operation (by decide), h.supply
    (by decide), h.crash (by decide), h.misuse (by decide), h.store (by decide), h.cfg (by decide), h.served (by
    decide), h.pointer (by decide), h.mask (by decide), h.vehicleWord (by decide), h.sent (by decide), fun y =>
    congrArg (fun d : Doors => d.recs.get y) (h.doors (by decide)), fun y => congrArg (fun v : PerCorner WindowRec =>
    v.get y) (h.windows (by decide)), fun y => congrArg (fun v : PerCorner MonitorRec => v.get y) (h.monitors (by
    decide)), fun y => congrArg (fun v : PerFob FobRec => v.get y) (h.begun (by decide)), fun y => congrArg (fun v :
    PerInput InputRec => v.get y) (h.inputs (by decide)), fun y => congrArg (fun v : PerDoor (Option ReleaseOp) =>
    v.get y) (h.latches (by decide))⟩

end Sys2Proof.Machine
end

