-- ==== Sys2Proof/Laws/Blocks.lean ====
section
/-! SUPPORT. What the operations of the doors, the Sequencer's record, the window moves and the latches can do: one
lemma for each. -/

-- One theorem at a time: elaborated side by side, the lemmas take more threads than the check has memory for.
set_option deprecated.oldSectionVars true

namespace Sys2Proof.Machine

/-! ### Doors -/

abbrev lockAreas : List Area := [.doors, .memory, .rows, .scroll, .begun, .store]

theorem DoorRec.fits_lockAfter {d : DoorRec} (h : d.fits) (a : LockAction) : ({ d with lock := lockAfter a d } : DoorRec).fits := by
  obtain ⟨l, aj, o, f, pl⟩ := d
  cases a <;> cases l <;> cases aj <;> simp_all [DoorRec.fits, lockAfter, DoorRec.isShut]

theorem DoorRec.fits_unlocked (d : DoorRec) (h : d.lock = .unlocked) : d.fits := by
  simp [DoorRec.fits, h]

theorem Settling.markDoors_all (v : PerDoor Bool) : Settling.markDoors ⟨allDoors, true, true⟩ v = ⟨allDoors, true, true⟩ := by
  simp [Settling.markDoors, allDoors, PerDoor.all, PerDoor.build, PerDoor.get]

theorem Part.setLocks_does (p : Part) {t : Door → LockState}
    (hf : ∀ d, (p.door d).fits → ({ p.door d with lock := t d } : DoorRec).fits)
    (hc : p.crashSafe → p.crashSet = true → ∀ d, t d = .unlocked) : Part.Does [.doors] p (p.setLocks t) := by
  refine p.setDoors_does (fun h e => ?_) fun k hs => ⟨fun e => ?_, (k.1 hs).2.1, (k.1 hs).2.2.1, fun x hx => ?_⟩
  · simpa using hf e (h e)
  · simpa using hc k hs e
  · simp only [Option.map_eq_some_iff] at hx
    obtain ⟨y, hy, rfl⟩ := hx
    rw [(k.2 hs).2.1 y hy, Settling.markDoors_all]

theorem Part.takeLock_does (p : Part) (src : LockSource) (a : LockAction) (who : PerDoor Bool)
    (h : p.crashSet = true → a = .unlock) : Part.Does lockAreas p (p.takeLock src a who) := by
  have h1 : Part.Does lockAreas p (p.setLocks (p.lockTargets a who)) := by
    refine (p.setLocks_does (fun d hd => ?_) fun k hs d => ?_).mono
    · unfold Part.lockTargets
      split
      · exact DoorRec.fits_lockAfter hd _
      · exact hd
    · unfold Part.lockTargets
      rw [h hs]
      split
      · rfl
      · exact (k.1 hs).1 d
  have h2 := h1.andThen ((p.setLocks (p.lockTargets a who)).setDoors_sameLocks
    (x := { (p.setLocks (p.lockTargets a who)).doors with relock := none }) rfl rfl rfl rfl)
  unfold Part.takeLock
  exact .ite (fun _ => (h2.andThen (Part.appendRow_does _ _)).andThen (Part.markDirty_does _ _)) fun _ => h2

theorem Part.lockAction_does (p : Part) (src : LockSource) (a : LockAction) (who : PerDoor Bool) :
    Part.Does lockAreas p (p.lockAction src a who) := by
  unfold Part.lockAction
  refine .ite (fun _ => .ite (fun _ => (p.appendRow_does _).mono) fun _ => .refl _ p) fun h => p.takeLock_does src a who fun hs => ?_
  simpa [Part.lockRefused, hs] using h

theorem Part.setLocks_door (p : Part) (t : Door → LockState) (d : Door) : (p.setLocks t).door d = { p.door d with lock := t d } := by
  cases d <;> rfl

/-- The doors after a lock action that is not refused: the relock timer stopped, each door's lock state as the action
gives it, and of the controller's other fields only the settling marks changed. -/
theorem Part.takeLock_doors (p : Part) (src : LockSource) (a : LockAction) (who : PerDoor Bool) :
    (∀ d, (p.takeLock src a who).door d = { p.door d with lock := p.lockTargets a who d }) ∧
      ∃ r t, (p.takeLock src a who).doors = { p.doors with recs := r, relock := none, settling := t } := by
  have h (d : Door) : ((p.setLocks (p.lockTargets a who)).setDoors
      { (p.setLocks (p.lockTargets a who)).doors with relock := none }).door d =
      { p.door d with lock := p.lockTargets a who d } := p.setLocks_door _ d
  unfold Part.takeLock
  dsimp only
  split
  · exact ⟨fun d => by simpa using h d, _, _, by simp only [Part.markDirty_fields, Part.appendRow_fields]; rfl⟩
  · exact ⟨h, _, _, rfl⟩

theorem Part.lockAction_taken {p : Part} {src : LockSource} {a : LockAction} {who : PerDoor Bool} (h : p.lockRefused a = false) :
    p.lockAction src a who = p.takeLock src a who := if_neg (by simp [h])

/-- A refused lock action changes no door. -/
theorem Part.lockAction_refused {p : Part} {src : LockSource} {a : LockAction} {who : PerDoor Bool} (h : p.lockRefused a = true) :
    (p.lockAction src a who).doors = p.doors := by
  unfold Part.lockAction
  rw [if_pos h]
  split
  · simp
  · rfl

theorem Part.startRelock_does (p : Part) : Part.Does [.doors] p p.startRelock := by
  unfold Part.startRelock
  exact .ite (fun _ => p.setDoors_sameLocks rfl rfl rfl rfl) fun _ => .refl _ p

theorem Part.relockExpiry_does (p : Part) : Part.Does lockAreas p p.relockExpiry := by
  unfold Part.relockExpiry
  exact .ite (fun _ => .after (Part.lockAction_does _ _ _ _) (.mono (Part.setDoors_sameLocks p rfl rfl rfl rfl)))
    fun _ => .refl _ p

theorem Part.remotePress_does (p : Part) (f : Fob) (b : LockButton) : Part.Does lockAreas p (p.remotePress f b) := by
  unfold Part.remotePress
  refine .ite (fun _ => p.lockAction_does ..) fun _ => ?_
  cases b
  · exact .after (Part.setDoors_sameLocks _ rfl rfl rfl rfl) (p.lockAction_does _ _ _)
  · exact .after (Part.startRelock_does _) (.after (Part.setDoors_sameLocks _ rfl rfl rfl rfl) (p.lockAction_does _ _ _))

theorem Part.passiveUnlock_does (p : Part) (d : Door) : Part.Does lockAreas p (p.passiveUnlock d) :=
  .after (Part.startRelock_does _) (p.lockAction_does _ _ _)

theorem Part.driveAwayLock_does (p : Part) : Part.Does lockAreas p p.driveAwayLock := by
  unfold Part.driveAwayLock
  exact .ite (fun _ => .ite (fun _ => p.lockAction_does _ _ _) fun _ =>
    .after (Part.setDoors_sameLocks _ rfl rfl rfl rfl) (p.lockAction_does _ _ _)) fun _ => .refl _ p

theorem Part.vehicleWrite_does (p : Part) (v : Vehicle) : Part.Does lockAreas p (p.vehicleWrite v) := by
  unfold Part.vehicleWrite
  exact .ite (fun _ => .ite (fun _ => .after (Part.driveAwayLock_does _) (.mono (p.setDoors_sameLocks rfl rfl rfl rfl)))
    fun _ => .mono (p.setDoors_sameLocks rfl rfl rfl rfl)) fun _ => .refl _ p

theorem Part.ignEvent_does (p : Part) (on : Bool) : Part.Does lockAreas p (p.ignEvent on) := by
  have h (x : Doors) (hr : x.recs = p.doors.recs) (h1 : x.childRL = p.doors.childRL) (h2 : x.childRR = p.doors.childRR)
      (h3 : x.settling = p.doors.settling) : Part.Does lockAreas p (p.setDoors x) := .mono (p.setDoors_sameLocks hr h1 h2 h3)
  unfold Part.ignEvent
  refine .ite (fun _ => h _ rfl rfl rfl rfl) fun _ => .ite (fun _ => ?_) fun _ => ?_
  · exact .after (Part.setDoors_sameLocks _ rfl rfl rfl rfl) (h _ rfl rfl rfl rfl)
  · refine .ite (fun _ => .after (Part.lockAction_does _ _ _ _) ?_) fun _ => ?_ <;>
      exact .after (Part.setDoors_sameLocks _ rfl rfl rfl rfl) (h _ rfl rfl rfl rfl)

theorem Part.setChildLocks_does (p : Part) {rl rr : ChildLock}
    (h : p.crashSafe → p.crashSet = true → rl = .released ∧ rr = .released) : Part.Does [.doors] p (p.setChildLocks rl rr) := by
  refine p.setDoors_does id fun k hs => ⟨(k.1 hs).1, (h k hs).1, (h k hs).2, fun x hx => ?_⟩
  simp only [Option.map_eq_some_iff] at hx
  obtain ⟨y, hy, rfl⟩ := hx
  simp [(k.2 hs).2.1 y hy]

theorem Part.changeChildLocks_does (p : Part) (fromOrder : Bool) {rl rr : ChildLock}
    (h : p.crashSafe → p.crashSet = true → rl = .released ∧ rr = .released) :
    Part.Does lockAreas p (p.changeChildLocks fromOrder rl rr) := by
  unfold Part.changeChildLocks
  exact .ite (fun _ => .after (Part.markDirty_does _ _) (.after (Part.appendRow_does _ _) (.mono (p.setChildLocks_does h))))
    fun _ => .refl _ p

/-- The child locks take the states given, whether they change or not. -/
theorem Part.changeChildLocks_doors (p : Part) (fromOrder : Bool) (rl rr : ChildLock) :
    (∃ t, (p.changeChildLocks fromOrder rl rr).doors = { p.doors with childRL := rl, childRR := rr, settling := t }) ∧
      (p.changeChildLocks fromOrder rl rr).heads = p.heads := by
  unfold Part.changeChildLocks
  split
  · exact ⟨⟨_, by simp only [Part.markDirty_fields, Part.appendRow_fields]; rfl⟩, by simp [Part.setChildLocks]⟩
  · rename_i h
    simp only [Part.childLocksDiffer, decide_eq_true_eq, not_or, not_not] at h
    exact ⟨⟨p.doors.settling, by rw [h.1, h.2]⟩, rfl⟩

theorem Part.childToggle_does (p : Part) : Part.Does lockAreas p p.childToggle := by
  unfold Part.childToggle
  refine .ite (fun _ => .mono (p.appendRow_does _)) fun h => p.changeChildLocks_does _ fun _ hs => ?_
  simp only [hs, true_and] at h
  split
  · simp_all
  · exact ⟨rfl, rfl⟩

abbrev ajarAreas : List Area := .locator :: lockAreas

theorem DoorRec.fits_ajarLock {d : DoorRec} (h : d.fits) (a : Ajar) :
    ({ d with ajar := a, lock := ajarLock a d.lock } : DoorRec).fits := by
  obtain ⟨l, aj, o, f, pl⟩ := d
  cases a <;> cases l <;> cases aj <;> simp_all [DoorRec.fits, ajarLock]

theorem Request.matches_comm (a b : Request) : a.matches_ b = b.matches_ a := by
  simp [Request.matches_, eq_comm]

theorem Request.matches_congr {a a' b b' : Request} (h1 : a'.purpose = a.purpose) (h2 : a'.door = a.door)
    (h3 : b'.purpose = b.purpose) (h4 : b'.door = b.door) : a'.matches_ b' = a.matches_ b := by
  simp [Request.matches_, *]

/-- A change of every listed request that leaves purpose and door keeps the list within its bounds. -/
theorem Part.searchesFit_map {l : List Request} {g : Request → Request} (hg : ∀ r, (g r).purpose = r.purpose ∧ (g r).door = r.door)
    (h : l.length ≤ 6 ∧ l.Pairwise fun a b => a.matches_ b = false) :
    (l.map g).length ≤ 6 ∧ (l.map g).Pairwise fun a b => a.matches_ b = false := by
  refine ⟨by simpa using h.1, ?_⟩
  rw [List.pairwise_map]
  exact h.2.imp fun {a b} hab => by rw [Request.matches_congr (hg a).1 (hg a).2 (hg b).1 (hg b).2]; exact hab

theorem Part.ajarEvent_does (p : Part) (d : Door) (a : Ajar) : Part.Does ajarAreas p (p.ajarEvent d a) := by
  have h1 (o : Settling → Settling) (ho : ∀ t, p.crashSafe → p.crashSet = true → t = ⟨allDoors, true, true⟩ → o t = t) :
      Part.Does ajarAreas p ((p.setDoor d { p.door d with ajar := a, lock := ajarLock a (p.door d).lock }).setDoors
        { (p.setDoor d { p.door d with ajar := a, lock := ajarLock a (p.door d).lock }).doors with
          settling := (p.setDoor d { p.door d with ajar := a, lock := ajarLock a (p.door d).lock }).doors.settling.map o }) := by
    refine .mono (K := [.doors]) (p.setDoors_does (fun hf e => ?_) fun k hs => ⟨fun e => ?_, (k.1 hs).2.1, (k.1 hs).2.2.1, ?_⟩)
    · show ((p.doors.recs.set d _).get e).fits
      rw [PerDoor.get_set]
      split
      · exact DoorRec.fits_ajarLock (hf d) a
      · exact hf e
    · show ((p.doors.recs.set d _).get e).lock = _
      rw [PerDoor.get_set]
      split
      · show ajarLock a (p.door d).lock = _
        rw [(k.1 hs).1 d]
        cases a <;> rfl
      · exact (k.1 hs).1 e
    · intro t ht
      simp only [Option.map_eq_some_iff] at ht
      obtain ⟨y, hy, rfl⟩ := ht
      rw [ho y k hs ((k.2 hs).2.1 y hy)]
      exact (k.2 hs).2.1 y hy
  have h2 := h1 (fun t => { t with doors := t.doors.set d (t.doors.get d || decide (ajarLock a (p.door d).lock ≠ (p.door d).lock)) }) (by
    rintro _ _ _ rfl
    cases d <;> simp [allDoors, PerDoor.all, PerDoor.build, PerDoor.set, PerDoor.get])
  unfold Part.ajarEvent
  refine .ite (fun _ => ?_) fun _ => .after (Part.markDirty_does _ _) ?_
  all_goals
    cases a
    · refine .after (Part.appendRow_does _ _) (.after (Part.setLocator_does _ ?_) (.after (Part.setDoors_sameLocks _ rfl rfl rfl rfl) h2))
      exact fun k => Part.searchesFit_map (fun r => ⟨rfl, rfl⟩) k
    · exact .after (Part.appendRow_does _ _) h2

/-- In a state whose crash latch is clear. -/
theorem Part.beginDoorService_does (p : Part) (aj : PerDoor Ajar) (ign : Bool) (h : p.crashSafe → p.crashSet = false) :
    Part.Does [.doors] p (p.beginDoorService aj ign) := by
  refine p.setDoors_does (fun _ e => ?_) fun hc hs => by simp [h hc] at hs
  simp only [PerDoor.get_build]
  cases aj.get e <;> simp [DoorRec.fits]

theorem Part.deliverLocks_does (p : Part) {k : LockKeep} (hk : p.doorsFit → k.storable) :
    Part.Does [.doors, .lockout, .begun, .store] p (p.deliverLocks k) := by
  unfold Part.deliverLocks
  split
  · exact .refl _ p
  · rename_i t ht
    have h1 : ∀ x : Doors, (x = { p.doors with
        recs := .build fun d => { p.door d with
          lock := if t.doors.get d then (p.door d).lock
            else if (k.locks.get d).barred ∧ (p.door d).ajar = .isOpen then .lockPending else k.locks.get d }
        childRL := if t.childRL then p.doors.childRL else k.childRL
        childRR := if t.childRR then p.doors.childRR else k.childRR
        settling := none }) → Part.Does [.doors, .lockout, .begun, .store] p { p.setDoors x with lockout := k.lockout } := by
      rintro x rfl
      refine .after (Part.lockout_does _ _) ?_
      refine ⟨(p.setDoors_within _).mono (by decide), ⟨id, fun hd => ⟨fun e => ?_, hd.2⟩, fun hc => ?_, id, id, id, id, id, id⟩⟩
      · have hl := hk hd e
        have hf := hd.1 e
        simp only [Part.setDoors_door, PerDoor.get_build]
        revert hl hf
        generalize p.door e = r
        generalize k.locks.get e = l
        obtain ⟨rl, aj, o, f, pl⟩ := r
        intro hl hf
        split
        · exact hf
        · cases l <;> cases aj <;> simp_all [DoorRec.fits, LockState.barred]
      · refine ⟨fun hs => ?_, fun hs => ?_⟩
        all_goals
          have ht' := (hc.2 hs).2.1 t ht
          subst ht'
        · refine ⟨fun e => ?_, ?_, ?_, (hc.1 hs).2.2.2⟩
          · simpa [allDoors] using (hc.1 hs).1 e
          · simpa using (hc.1 hs).2.1
          · simpa using (hc.1 hs).2.2.1
        · exact ⟨(hc.2 hs).1, fun x hx => by simp at hx, (hc.2 hs).2.2⟩
    exact .ite (fun _ => h1 _ rfl) fun _ => .after (Part.markDirty_does _ _) (h1 _ rfl)

/-! ### The Sequencer's record -/

abbrev reportAreas : List Area := .operation :: orderAreas

theorem Part.endOperation_operation (p : Part) (out : OpOutcome) :
    (p.endOperation out).operation = p.operation.map fun o => { o with ended := some ⟨out, p.clock⟩ } := by
  unfold Part.endOperation
  split
  · rename_i h
    rw [h]
    rfl
  · rename_i o h
    rw [h]
    split <;> simp

/-- An operation that has ended has no live entry. -/
theorem Part.endOperation_dormant (p : Part) (out : OpOutcome) (c : Corner) : (p.endOperation out).dormant c := by
  intro o ho he
  rw [Part.endOperation_operation] at ho
  obtain ⟨x, -, rfl⟩ := Option.map_eq_some_iff.1 ho
  cases he

theorem Part.dormant_fades {p q : Part} {c : Corner} (h : q.dormant c) : Part.Fades c p q := fun o ho he hl => by
  rw [h o ho he] at hl
  cases hl

theorem Part.endOperation_does (p : Part) (out : OpOutcome) : Part.Does reportAreas p (p.endOperation out) := by
  have h : Part.Acts reportAreas p (p.endOperation out) := by
    unfold Part.endOperation
    split
    · exact (Part.Does.refl _ p).acts
    · split
      · exact .after (Part.orderDone_does _ _ _ _ _).acts (.mono (p.setOperation_acts _))
      · exact .mono (p.setOperation_acts _)
  exact h.keeping (Part.spares_entries fun c => h.toWithin.spares (Part.dormant_fades (p.endOperation_dormant out c)))

theorem Part.judgeOperation_does (p : Part) : Part.Does reportAreas p p.judgeOperation := by
  unfold Part.judgeOperation
  split
  · exact .refl _ p
  · exact .ite (fun _ => p.endOperation_does _) fun _ => .refl _ p

theorem Part.judgeOperation_fades (p : Part) (c : Corner) : Part.Fades c p p.judgeOperation := by
  unfold Part.judgeOperation
  split
  · exact .same rfl
  · split
    · exact Part.dormant_fades (p.endOperation_dormant _ c)
    · exact .same rfl

theorem Part.setEntry_acts (p : Part) (c : Corner) (e : Entry) : Part.Acts [.operation] p (p.setEntry c e) :=
  p.setOperation_acts _

theorem Part.setEntry_operation {p : Part} {c : Corner} {e : Entry} {o : Operation} (h : (p.setEntry c e).operation = some o) :
    ∃ x, p.operation = some x ∧ o.ended = x.ended ∧ ∀ d, o.entries.get d = if d = c then e else x.entries.get d := by
  obtain ⟨x, hx, rfl⟩ := Option.map_eq_some_iff.1 h
  exact ⟨x, hx, rfl, fun d => by rw [PerCorner.get_set]⟩

/-- The other corners' entries stay. -/
theorem Part.setEntry_fades (p : Part) {c d : Corner} (e : Entry) (h : d = c → e.state.live = false) :
    Part.Fades d p (p.setEntry c e) := fun o ho he hl => by
  obtain ⟨x, hx, h1, h2⟩ := Part.setEntry_operation ho
  rw [h2 d] at hl ⊢
  split at hl
  · rename_i hc
    rw [h hc] at hl
    cases hl
  · rename_i hc
    exact ⟨x, hx, h1 ▸ he, by rw [if_neg hc]⟩

theorem Part.setEntry_dormant (p : Part) (c : Corner) {e : Entry} (h : e.state.live = false) : (p.setEntry c e).dormant c :=
  fun o ho _ => by
    obtain ⟨x, -, -, h2⟩ := Part.setEntry_operation ho
    rw [h2 c, if_pos rfl, h]

/-- An entry that is neither WAITING nor MOVING. -/
theorem Part.setEntry_does (p : Part) (c : Corner) {e : Entry} (h : e.state.live = false) :
    Part.Does [.operation] p (p.setEntry c e) :=
  (p.setEntry_acts c e).keeping (Part.spares_entries fun _ =>
    (p.setEntry_acts c e).toWithin.spares (p.setEntry_fades e fun _ => h))

theorem Part.reportEnd_does (p : Part) (c : Corner) (r : EntryReason) (judge : Bool) :
    Part.Does reportAreas p (p.reportEnd c r judge) := by
  unfold Part.reportEnd
  split
  · exact .refl _ p
  · exact .ite (fun _ => .after (Part.judgeOperation_does _) (.mono (p.setEntry_does _ rfl))) fun _ => .mono (p.setEntry_does _ rfl)

theorem Part.reportEnd_fades (p : Part) (c d : Corner) (r : EntryReason) (judge : Bool) :
    Part.Fades d p (p.reportEnd c r judge) := by
  unfold Part.reportEnd
  split
  · exact .same rfl
  · split
    · exact (p.setEntry_fades _ fun _ => rfl).trans (Part.judgeOperation_fades _ d)
    · exact p.setEntry_fades _ fun _ => rfl

/-- No live entry where none is found. -/
theorem Part.liveEntry_none {p : Part} {c : Corner} (h : p.liveEntry c = none) : p.dormant c := fun o ho he => by
  simp only [Part.liveEntry, ho, Option.bind_some, Operation.running, he] at h
  simpa using h

/-- The entry that took a report is DONE. -/
theorem Part.reportEnd_dormant (p : Part) (c : Corner) (r : EntryReason) (judge : Bool) : (p.reportEnd c r judge).dormant c := by
  unfold Part.reportEnd
  split
  · exact Part.liveEntry_none (by assumption)
  · split
    · exact (Part.judgeOperation_fades _ c).dormant (p.setEntry_dormant c rfl)
    · exact p.setEntry_dormant c rfl

theorem Part.reportGrant_acts (p : Part) (c : Corner) : Part.Acts [.operation] p (p.reportGrant c) := by
  unfold Part.reportGrant
  split
  · exact (Part.Does.refl _ p).acts
  · exact p.setEntry_acts _ _

/-! ### Window moves -/

abbrev tellAreas : List Area := .windows :: .monitors :: .begun :: .store :: reportAreas
abbrev stopAreas : List Area := .holders :: .waiting :: tellAreas
abbrev startAreas : List Area := [.windows, .monitors, .memory, .rows, .scroll, .begun, .store]

theorem Part.clampPosition_does (p : Part) (c : Corner) : Part.Does [.windows, .begun, .store] p (p.clampPosition c) :=
  .ite (fun _ => .refl _ p) fun _ => .after (Part.markDirty_does _ _) (.mono (p.setWindow_does c))

theorem Part.closeLearn_does (p : Part) (c : Corner) (l : Learn) (o : Option OrderOutcome) (n : Option Nat) :
    Part.Does (.monitors :: rowAreas) p (p.closeLearn c l o n) :=
  .ite (fun _ => .mono (p.setMonitor_does _ _)) fun _ => .after (Part.appendRow_does _ _) (.mono (p.setMonitor_does _ _))

/-- No learn is left after its end. -/
theorem Part.closeLearn_learn (p : Part) (c d : Corner) (l : Learn) (o : Option OrderOutcome) (n : Option Nat)
    (h : (p.monitor d).learn = none) : ((p.closeLearn c l o n).monitor d).learn = none := by
  have k : ((p.setMonitor c { p.monitor c with learn := none }).monitor d).learn = none := by
    rw [Part.setMonitor_monitor]
    split
    · rfl
    · exact h
  unfold Part.closeLearn
  dsimp only
  split
  · exact k
  · simpa using k

theorem Part.endLearn_does (p : Part) (c : Corner) (o : OrderOutcome) (n : Option Nat) (clamp : Bool) :
    Part.Does tellAreas p (p.endLearn c o n clamp) := by
  have h (l : Learn) (a b : Word) : Part.Does tellAreas p ((p.closeLearn c l (some o) n).orderDone l.slot o a b) :=
    .after (Part.orderDone_does _ _ _ _ _) (.mono (p.closeLearn_does c l _ n))
  unfold Part.endLearn
  split
  · exact .refl _ p
  · exact .ite (fun _ => .after (Part.clampPosition_does _ _) (h _ _ _)) fun _ => h _ _ _

theorem Part.tellMover_does (p : Part) (c : Corner) (m : Option Mover) (o : OrderOutcome) (e : EntryReason)
    (stop : Option StopReason) (judge : Bool) : Part.Does tellAreas p (p.tellMover c m o e stop judge) := by
  unfold Part.tellMover
  split
  · exact .refl _ p
  · exact .refl _ p
  · exact .refl _ p
  · exact .mono (p.reportEnd_does _ _ _)
  · split
    · exact p.endLearn_does _ _ _ _
    · exact .mono (p.orderDone_does _ _ _ _)

theorem Part.tellStop_does (p : Part) (c : Corner) (m : Option Mover) (r : StopReason) (judge : Bool) :
    Part.Does tellAreas p (p.tellStop c m r judge) := p.tellMover_does ..

theorem Part.tellLost_does (p : Part) (c : Corner) (m : Option Mover) (stop : Option StopReason) :
    Part.Does tellAreas p (p.tellLost c m stop) := p.tellMover_does ..

theorem Part.reportEnd_window (p : Part) (c x : Corner) (r : EntryReason) (judge : Bool) :
    (p.reportEnd c r judge).window x = p.window x :=
  congrArg (fun v : PerCorner WindowRec => v.get x) ((p.reportEnd_does c r judge).windows (by decide))

/-- Two window records that differ at most in the position. -/
def WindowRec.sameButPosition (w w' : WindowRec) : Prop := w' = { w with position := w'.position }

theorem WindowRec.sameButPosition_refl (w : WindowRec) : w.sameButPosition w := rfl

theorem Part.clampPosition_window (p : Part) (c x : Corner) : (p.clampPosition c).window x =
    if x = c then { p.window c with position := min (p.window c).position (p.window c).travel } else p.window x := by
  unfold Part.clampPosition
  dsimp only
  split
  · rename_i h
    split
    · subst_vars
      rw [Nat.min_eq_left h]
    · rfl
  · rename_i h
    rw [Nat.min_eq_right (by omega)]
    simp

theorem Part.endLearn_window (p : Part) (c x : Corner) (o : OrderOutcome) (n : Option Nat) (clamp : Bool) :
    (p.window x).sameButPosition ((p.endLearn c o n clamp).window x) ∧
      (x ≠ c → (p.endLearn c o n clamp).window x = p.window x) := by
  unfold Part.endLearn
  split
  · exact ⟨rfl, fun _ => rfl⟩
  · rename_i l _
    dsimp only
    have h (y : Corner) (a b : Word) : ((p.closeLearn c l (some o) n).orderDone l.slot o a b).window y = p.window y :=
      congrArg (fun v : PerCorner WindowRec => v.get y)
        (((Part.orderDone_does _ _ _ _ _).windows (by decide)).trans ((p.closeLearn_does c l (some o) n).windows (by decide)))
    split
    · rw [Part.clampPosition_window, h, h]
      split
      · subst_vars
        exact ⟨rfl, fun hx => absurd rfl hx⟩
      · exact ⟨rfl, fun _ => rfl⟩
    · rw [h]
      exact ⟨rfl, fun _ => rfl⟩

/-- A mover that is told an end leaves every window but for the position of its own. -/
theorem Part.tellMover_window (p : Part) (c x : Corner) (m : Option Mover) (o : OrderOutcome) (e : EntryReason)
    (stop : Option StopReason) (judge : Bool) :
    (p.window x).sameButPosition ((p.tellMover c m o e stop judge).window x) ∧
      (x ≠ c → (p.tellMover c m o e stop judge).window x = p.window x) := by
  unfold Part.tellMover
  split
  · exact ⟨rfl, fun _ => rfl⟩
  · exact ⟨rfl, fun _ => rfl⟩
  · exact ⟨rfl, fun _ => rfl⟩
  · rw [Part.reportEnd_window]
    exact ⟨rfl, fun _ => rfl⟩
  · split
    · exact p.endLearn_window c x _ _ _
    · have h : (p.endMoveOrder c (by assumption) o stop).window x = p.window x := by simp [Part.endMoveOrder]
      rw [h]
      exact ⟨rfl, fun _ => rfl⟩

theorem Part.clampPosition_spares (p : Part) (c d : Corner) : Part.Spares d p (p.clampPosition c) := by
  have w := (p.clampPosition_does c).toWithin
  have hm : (p.clampPosition c).monitor d = p.monitor d :=
    congrArg (fun v : PerCorner MonitorRec => v.get d) (w.monitors (by decide))
  refine ⟨?_, ?_, ?_, by rw [hm]; exact id, .same (w.operation (by decide))⟩ <;>
  · rw [Part.clampPosition_window]
    split
    · subst_vars
      rfl
    · rfl

theorem Part.endLearn_spares (p : Part) (c d : Corner) (o : OrderOutcome) (n : Option Nat) (clamp : Bool) :
    Part.Spares d p (p.endLearn c o n clamp) := by
  unfold Part.endLearn
  split
  · exact ⟨rfl, rfl, rfl, id, .same rfl⟩
  · rename_i l _
    have h (a b : Word) : Part.Spares d p ((p.closeLearn c l (some o) n).orderDone l.slot o a b) := by
      have w := (p.closeLearn_does c l (some o) n).toWithin
      have e : (p.closeLearn c l (some o) n).window d = p.window d :=
        congrArg (fun v : PerCorner WindowRec => v.get d) (w.windows (by decide))
      refine ⟨by simp [e], by simp [e], by simp [e], fun k => ?_, .same ?_⟩
      · simpa using p.closeLearn_learn c d l (some o) n k
      · simpa using w.operation (by decide)
    dsimp only
    split
    · exact (h _ _).trans (Part.clampPosition_spares _ c d)
    · exact h _ _

/-- A mover that is told an end: no corner's command changes, no entry comes to life. -/
theorem Part.tellMover_spares (p : Part) (c d : Corner) (m : Option Mover) (o : OrderOutcome) (e : EntryReason)
    (stop : Option StopReason) (judge : Bool) : Part.Spares d p (p.tellMover c m o e stop judge) := by
  unfold Part.tellMover
  split
  · exact ⟨rfl, rfl, rfl, id, .same rfl⟩
  · exact ⟨rfl, rfl, rfl, id, .same rfl⟩
  · exact ⟨rfl, rfl, rfl, id, .same rfl⟩
  · exact (p.reportEnd_does c e judge).toWithin.spares (p.reportEnd_fades c d e judge)
  · split
    · exact p.endLearn_spares c d _ _ _
    · exact (p.orderDone_does ..).toWithin.spares (.same ((p.orderDone_does ..).operation (by decide)))

/-- The Sequencer told, its entry is DONE. -/
theorem Part.tellMover_dormant (p : Part) (c : Corner) {m : Option Mover} (h : m = some .sequencer) (o : OrderOutcome)
    (e : EntryReason) (stop : Option StopReason) (judge : Bool) : (p.tellMover c m o e stop judge).dormant c := by
  subst h
  exact p.reportEnd_dormant c e judge

theorem Part.tellMover_touches (p : Part) (c : Corner) (m : Option Mover) (o : OrderOutcome) (e : EntryReason)
    (stop : Option StopReason) (judge : Bool) : Part.Touches c p (p.tellMover c m o e stop judge) :=
  .of fun d => p.tellMover_spares c d m o e stop judge

theorem unitsHeld_cons (h : Holder) (l : List Holder) : unitsHeld (h :: l) = h.units + unitsHeld l := by
  simp [unitsHeld]

theorem unitsHeld_append (l m : List Holder) : unitsHeld (l ++ m) = unitsHeld l + unitsHeld m := by
  simp [unitsHeld]

theorem unitsHeld_sublist {l m : List Holder} (h : l.Sublist m) : unitsHeld l ≤ unitsHeld m :=
  (h.map _).sum_le_sum fun _ _ => Nat.zero_le _

theorem plainUnits_le (l : List Holder) : plainUnits l ≤ unitsHeld l := unitsHeld_sublist List.filter_sublist

theorem plainUnits_filter_le (l : List Holder) (q : Holder → Bool) : plainUnits (l.filter q) ≤ plainUnits l :=
  unitsHeld_sublist (List.filter_sublist.filter _)

/-- A holder leaves; a window's only once it stands. -/
theorem Part.dropHolder_does (p : Part) (a : Actuator) (hs : ∀ c, a = .window c → (p.window c).motion = .stopped) :
    Part.Does [.holders, .waiting] p (p.dropHolder a) := by
  refine p.setLists_does (fun h => (plainUnits_filter_le _ _).trans h) fun k => ⟨fun c hc => ?_, fun h hh => ?_, k.2.2⟩
  · obtain ⟨h, hh, ha⟩ := k.1 c hc
    refine ⟨h, List.mem_filter.2 ⟨hh, decide_eq_true fun e => hc (hs c ?_)⟩, ha⟩
    rw [← e, ha]
  · exact k.2.1 h (List.mem_filter.1 hh).1

theorem Part.dropWaiter_does (p : Part) (a : Actuator) : Part.Does [.holders, .waiting] p (p.dropWaiter a) :=
  p.setLists_does id fun k => ⟨k.1, k.2.1, fun w hw => k.2.2 w (List.mem_filter.1 hw).1⟩

theorem Part.halt_acts (p : Part) (c : Corner) (r : StopReason) : Part.Acts startAreas p (p.halt c r) :=
  .after (Part.appendRow_does _ _).acts (.after (Part.setMonitor_does _ _ _).acts
    (.mono (p.setWindow_samePending c rfl (.inr (.inl rfl)))))

theorem Part.halt_touches (p : Part) (c : Corner) (r : StopReason) : Part.Touches c p (p.halt c r) :=
  .after (Part.appendRow_does _ _).toWithin.touches (.after (Part.setMonitor_touches _ _ _) (p.setWindow_touches _ _))

theorem Part.halt_window (p : Part) (c x : Corner) (r : StopReason) : (p.halt c r).window x =
    if x = c then (p.window c).stopped r p.clock (p.monitor c).learn.isSome else p.window x := by
  simp only [Part.halt, Part.appendRow_fields, Part.setMonitor_fields, Part.setWindow_window]

theorem Part.stopWindow_acts (p : Part) (c : Corner) (r : StopReason) :
    Part.Acts (.holders :: .waiting :: startAreas) p (p.stopWindow c r) :=
  .after (Part.markDirty_does _ _).acts (.after (Part.dropHolder_does _ _ fun x hx => by
    obtain rfl := Actuator.window.inj hx
    rw [Part.halt_window, if_pos rfl]
    rfl).acts (.mono (p.halt_acts c r)))

theorem Part.stopWindow_touches (p : Part) (c : Corner) (r : StopReason) : Part.Touches c p (p.stopWindow c r) :=
  .after (Part.markDirty_does _ _).toWithin.touches (.after (Part.dropHolder_does _ _ fun x hx => by
    obtain rfl := Actuator.window.inj hx
    rw [Part.halt_window, if_pos rfl]
    rfl).toWithin.touches (p.halt_touches c r))

/-- What a stop leaves of the windows: its own stopped, the others as they were. -/
theorem Part.stopWindow_window (p : Part) (c x : Corner) (r : StopReason) : (p.stopWindow c r).window x =
    if x = c then (p.window c).stopped r p.clock (p.monitor c).learn.isSome else p.window x := by
  simp only [Part.stopWindow, Part.markDirty_fields, Part.dropHolder, Part.setLists_fields, Part.halt, Part.appendRow_fields,
    Part.setMonitor_fields, Part.setWindow_window]

theorem Part.stopAndTell_window (p : Part) (c x : Corner) (r : StopReason) (judge : Bool) :
    (if x = c then (p.window c).stopped r p.clock (p.monitor c).learn.isSome else p.window x).sameButPosition
      ((p.stopAndTell c r judge).window x) ∧ (x ≠ c → (p.stopAndTell c r judge).window x = p.window x) := by
  have h := (p.stopWindow c r).tellMover_window c x (if (p.window c).motion = .reversing then none else (p.window c).mover)
    r.outcome r.entry (some r) judge
  rw [Part.stopWindow_window] at h
  refine ⟨h.1, fun hx => ?_⟩
  have h2 := h.2 hx
  rw [if_neg hx] at h2
  exact h2

/-- A stop and what its window's mover is told, `q` between the two and `m` that mover where a move stopped: the law of the
entries is kept. -/
theorem Part.stop_tells {p q : Part} {c : Corner} {m : Option Mover} (t : Part.Touches c p q)
    (hs : (q.window c).motion = .stopped) (hp : (q.window c).pending = (p.window c).pending)
    (hm : (p.window c).underWay = true → m = (p.window c).mover) (o : OrderOutcome) (e : EntryReason)
    (stop : Option StopReason) (judge : Bool) : p.entriesFit → (q.tellMover c m o e stop judge).entriesFit := by
  have k := q.tellMover_spares c c m o e stop judge
  exact (t.trans (q.tellMover_touches c m o e stop judge)).stops (k.motion.trans hs) (k.pending.trans hp)
    fun _ hu hv => q.tellMover_dormant c ((hm hu).trans hv) o e stop judge

theorem WindowRec.underWay_drives {w : WindowRec} (h : w.underWay = true) : w.motion ≠ .reversing := by
  intro e
  simp [WindowRec.underWay, e] at h

theorem Part.stopAndTell_does (p : Part) (c : Corner) (r : StopReason) (judge : Bool) :
    Part.Does stopAreas p (p.stopAndTell c r judge) :=
  (Part.Acts.after (Part.tellStop_does _ _ _ _ _).acts (.mono (p.stopWindow_acts c r))).keeping <|
    Part.stop_tells (p.stopWindow_touches c r) (by rw [Part.stopWindow_window, if_pos rfl]; rfl)
      (by rw [Part.stopWindow_window, if_pos rfl]; rfl) (fun h => if_neg (WindowRec.underWay_drives h)) _ _ _ _

/-- A move starts; while the crash latch is set it opens. -/
theorem Part.startMove_bare (p : Part) (c : Corner) {cmd : Command}
    (h : p.crashSafe → p.crashSet = true → cmd.dir = .opening) : Part.DoesBare startAreas p (p.startMove c cmd) := by
  refine .after (Part.markDirty_does _ _).bare (.after (Part.appendRow_does _ _).bare (.after (Part.setMonitor_acts _ _ _).toDoesBare
    (.after (p.setWindow_bare c fun k hs => ⟨?_, fun y hy => ?_⟩) (Part.Does.refl _ p).bare)))
  · simp [h k hs, Direction.motion, WindowRec.driving]
  · simp at hy

/-- A move starts on a window that holds a grant; while the crash latch is set it opens. -/
theorem Part.startMove_acts (p : Part) (c : Corner) {cmd : Command}
    (h : p.crashSafe → p.crashSet = true → cmd.dir = .opening) (hg : p.grantsFit → p.holdsGrant c) :
    Part.Acts startAreas p (p.startMove c cmd) := by
  refine .after (Part.markDirty_does _ _).acts (.after (Part.appendRow_does _ _).acts (.after (Part.setMonitor_acts _ _ _)
    (.mono (p.setWindow_acts c (fun k hs => ⟨?_, fun y hy => ?_⟩) fun k _ => .inr (hg k)))))
  · simp [h k hs, Direction.motion, WindowRec.driving]
  · simp at hy

theorem Part.startMove_touches (p : Part) (c : Corner) (cmd : Command) : Part.Touches c p (p.startMove c cmd) := by
  refine .after (Part.markDirty_does _ _).toWithin.touches (.after (Part.appendRow_does _ _).toWithin.touches
    (.after (Part.setMonitor_touches _ _ _ fun k => ?_) (p.setWindow_touches _ _)))
  split <;> exact k

/-- The command of a window whose move has started. -/
theorem Part.startMove_command (p : Part) (c : Corner) (cmd : Command) : ((p.startMove c cmd).window c).pending = none ∧
    ((p.startMove c cmd).window c).underWay = true ∧ ((p.startMove c cmd).window c).mover = some cmd.mover := by
  simp only [Part.startMove, Part.markDirty_fields, Part.appendRow_fields, Part.setMonitor_fields, Part.setWindow_window, if_pos]
  refine ⟨trivial, ?_, trivial⟩
  cases cmd.dir <;> rfl

/-- A move started on a window without a live entry. -/
theorem Part.startMove_fits (q : Part) {c : Corner} {cmd : Command} (h : q.dormant c) : (q.startMove c cmd).entryFits c :=
  Part.dormant_fits ((q.startMove_touches c cmd).entry.dormant h) fun k => absurd (q.startMove_command c cmd).1 k

/-- A window that is driven has no pending command. -/
theorem Part.entryFits.stands {p : Part} {c : Corner} (h : p.entryFits c) (hm : (p.window c).motion ≠ .stopped) :
    (p.window c).pending = none := by
  by_contra k
  exact hm (h.1 k)

/-- A window that is driven: no live entry, or its move is the Sequencer's. -/
theorem Part.entryFits.driven {p : Part} {c : Corner} (h : p.entryFits c) (hm : (p.window c).motion ≠ .stopped) :
    p.dormant c ∨ (p.monitor c).learn = none ∧ (p.window c).underWay = true ∧ (p.window c).mover = some .sequencer := by
  by_contra k
  rw [not_or] at k
  refine k.1 fun o ho he => ?_
  cases e : (o.entries.get c).state
  · obtain ⟨-, x, hx, -⟩ := (h.2 o ho he).1 e
    rw [h.stands hm] at hx
    cases hx
  · exact absurd ((h.2 o ho he).2 e) k.2
  · rfl
  · rfl

/-- A learn, or a window at rest: no live entry. -/
theorem Part.entryFits.learns {p : Part} {c : Corner} (h : p.entryFits c) (hl : (p.monitor c).learn ≠ none) : p.dormant c :=
  fun o ho he => by
    cases e : (o.entries.get c).state
    · exact absurd ((h.2 o ho he).1 e).1 hl
    · exact absurd ((h.2 o ho he).2 e).1 hl
    · rfl
    · rfl

theorem Part.entryFits.rests {p : Part} {c : Corner} (h : p.entryFits c) (hm : (p.window c).motion = .stopped)
    (hp : (p.window c).pending = none) : p.dormant c := fun o ho he => by
  cases e : (o.entries.get c).state
  · obtain ⟨-, x, hx, -⟩ := (h.2 o ho he).1 e
    rw [hp] at hx
    cases hx
  · have hu := ((h.2 o ho he).2 e).2.1
    simp [WindowRec.underWay, hm] at hu
  · rfl
  · rfl

/-- A pending command of another mover than the Sequencer leaves no live entry. -/
theorem Part.entryFits_pending {p : Part} {c : Corner} (h : p.entryFits c) {x : Pending} (hx : (p.window c).pending = some x)
    (hv : x.cmd.mover ≠ .sequencer) : p.dormant c := fun o ho he => by
  have hs := h.1 (by rw [hx]; exact Option.some_ne_none x)
  cases e : (o.entries.get c).state
  · obtain ⟨-, y, hy, hm⟩ := (h.2 o ho he).1 e
    rw [hx] at hy
    cases hy
    exact absurd hm hv
  · have hu := ((h.2 o ho he).2 e).2.1
    simp [WindowRec.underWay, hs] at hu
  · rfl
  · rfl

/-- A pending command stands only while the window is STOPPED. -/
def Part.standsClear (p : Part) (c : Corner) : Prop := (p.window c).pending ≠ none → (p.window c).motion = .stopped

/-- Each corner keeps its law of the entries, and by itself the law of its pending command. -/
structure Part.Carries (p q : Part) : Prop where
  clear : ∀ c, p.standsClear c → q.standsClear c
  fits : ∀ c, p.entryFits c → q.entryFits c

theorem Part.Carries.trans {p q r : Part} (h : Part.Carries p q) (k : Part.Carries q r) : Part.Carries p r :=
  ⟨fun c => k.clear c ∘ h.clear c, fun c => k.fits c ∘ h.fits c⟩

theorem Part.Carries.entries {p q : Part} (h : Part.Carries p q) : p.entriesFit → q.entriesFit := fun k c => h.fits c (k c)

theorem Part.Spares.clear {p q : Part} {c : Corner} (s : Part.Spares c p q) (h : p.standsClear c) : q.standsClear c := by
  rw [Part.standsClear, s.pending, s.motion]
  exact h

theorem Part.Carries.of {p q : Part} (s : ∀ c, Part.Spares c p q) : Part.Carries p q :=
  ⟨fun c => (s c).clear, fun c => (s c).fits⟩

/-- A granted command's entry becomes MOVING, as its window does (R154). -/
theorem Part.reportGrant_fits {p q : Part} {c : Corner} (h : p.entryFits c) (t : Part.Touches c p q)
    (hp : (q.window c).pending = none) (hu : (q.window c).underWay = true) (hv : (q.window c).mover = some .sequencer) :
    (q.reportGrant c).entryFits c := by
  unfold Part.reportGrant
  cases hl : q.liveEntry c with
  | none => exact Part.dormant_fits (Part.liveEntry_none hl) fun k => absurd hp k
  | some e =>
    dsimp only
    refine ⟨fun k => absurd hp k, fun o ho he => ?_⟩
    obtain ⟨x, hx, g1, g2⟩ := Part.setEntry_operation ho
    have g3 := g2 c
    rw [if_pos rfl] at g3
    refine ⟨fun k => (by rw [g3] at k; cases k), fun _ => ⟨?_, hu, hv⟩⟩
    have hlive : ((x.entries.get c).state).live = true := by
      by_contra hn
      simp only [Part.liveEntry, hx, Option.bind_some] at hl
      simp only [Bool.not_eq_true] at hn
      simp [hn] at hl
    obtain ⟨y, hy, hey, ey⟩ := t.entry x hx (g1 ▸ he) hlive
    refine t.learn ?_
    cases es : (y.entries.get c).state
    · exact ((h.2 y hy hey).1 es).1
    · exact ((h.2 y hy hey).2 es).1
    all_goals
      rw [← ey, es] at hlive
      cases hlive

/-- The other corners' entries stay. -/
theorem Part.reportGrant_spares (p : Part) {c d : Corner} (h : d ≠ c) : Part.Spares d p (p.reportGrant c) := by
  refine (p.reportGrant_acts c).toWithin.spares ?_
  unfold Part.reportGrant
  split
  · exact .same rfl
  · exact Part.setEntry_fades _ _ fun e => absurd e h

theorem Part.windowGranted_carries (p : Part) (c : Corner) : Part.Carries p (p.windowGranted c) := by
  unfold Part.windowGranted
  split
  · exact ⟨fun _ => id, fun _ => id⟩
  · rename_i pend hp
    dsimp only
    generalize hq : p.setMonitor c { p.monitor c with
      learn := (p.monitor c).learn.map (fun l => { l with phase := .down, count := 0 }) } = q
    have t : Part.Touches c p q := by
      rw [← hq]
      exact p.setMonitor_touches _ _ fun k => by rw [k]; rfl
    have t2 := t.trans (q.startMove_touches c pend.cmd)
    obtain ⟨h1, h2, h3⟩ := q.startMove_command c pend.cmd
    split
    · rename_i hv
      have hw : ((q.startMove c pend.cmd).reportGrant c).window c = (q.startMove c pend.cmd).window c :=
        congrArg (fun v : PerCorner WindowRec => v.get c) ((Part.reportGrant_acts _ c).toWithin.windows (by decide))
      refine ⟨fun d k => ?_, fun d k => ?_⟩ <;> by_cases e : d = c
      · subst e
        exact fun hn => absurd (by rw [hw]; exact h1) hn
      · exact ((t2.others d e).trans (Part.reportGrant_spares _ e)).clear k
      · subst e
        exact Part.reportGrant_fits k t2 h1 h2 (h3.trans (by rw [hv]))
      · exact ((t2.others d e).trans (Part.reportGrant_spares _ e)).fits k
    · rename_i hv
      refine ⟨fun d k => ?_, fun d k => ?_⟩ <;> by_cases e : d = c
      · subst e
        exact fun hn => absurd h1 hn
      · exact (t2.others d e).clear k
      · subst e
        exact q.startMove_fits (t.entry.dormant (Part.entryFits_pending k hp hv))
      · exact (t2.others d e).fits k

theorem Part.windowGranted_does (p : Part) (c : Corner) (hg : p.holdsGrant c) :
    Part.Does (.operation :: startAreas) p (p.windowGranted c) := by
  refine Part.Acts.keeping ?_ (p.windowGranted_carries c).entries
  unfold Part.windowGranted
  split
  · exact (Part.Does.refl _ p).acts
  · rename_i pend hp
    have h1 : Part.Acts (.operation :: startAreas) p ((p.setMonitor c { p.monitor c with
        learn := (p.monitor c).learn.map (fun l => { l with phase := .down, count := 0 }) }).startMove c pend.cmd) :=
      .after (Part.startMove_acts _ _ (fun k hs => (k.2 hs).1 c pend hp) fun _ => hg) (.mono (p.setMonitor_acts _ _))
    dsimp only
    split
    · exact .after (Part.reportGrant_acts _ _) h1
    · exact h1

theorem Part.dropPending_acts (p : Part) (c : Corner) : Part.Acts [.windows, .holders, .waiting] p (p.dropPending c) :=
  .after (Part.dropWaiter_does _ _).acts (.mono (p.setWindow_acts c fun k hs => ⟨(k.1 hs).2.2.2 c, fun y hy => by simp at hy⟩))

theorem Part.dropPending_touches (p : Part) (c : Corner) : Part.Touches c p (p.dropPending c) :=
  .after (Part.dropWaiter_does _ _).toWithin.touches (p.setWindow_touches _ _)

theorem Part.dropPending_window (p : Part) (c x : Corner) : (p.dropPending c).window x =
    if x = c then { p.window c with pending := none } else p.window x := by
  simp [Part.dropPending, Part.dropWaiter]

/-- A pending command that is not the Sequencer's goes without a word. -/
theorem Part.dropPending_does (p : Part) (c : Corner)
    (h : ∀ x, (p.window c).pending = some x → x.cmd.mover ≠ .sequencer) :
    Part.Does [.windows, .holders, .waiting] p (p.dropPending c) :=
  (p.dropPending_acts c).keeping ((p.dropPending_touches c).drops (by rw [Part.dropPending_window, if_pos rfl])
    (by rw [Part.dropPending_window, if_pos rfl]) (by rw [Part.dropPending_window, if_pos rfl]) fun x hx e => absurd e (h x hx))

theorem Part.withdrawPending_does (p : Part) (c : Corner) (o : OrderOutcome) (e : EntryReason) (judge : Bool) :
    Part.Does stopAreas p (p.withdrawPending c o e judge) := by
  unfold Part.withdrawPending
  split
  · exact .refl _ p
  · rename_i pend hp
    have k := (p.dropPending c).tellMover_spares c c (some pend.cmd.mover) o e none judge
    have hw : (p.dropPending c).window c = { p.window c with pending := none } := by rw [Part.dropPending_window, if_pos rfl]
    refine (Part.Acts.after (Part.tellMover_does _ _ _ _ _ _ _).acts (.mono (p.dropPending_acts c))).keeping ?_
    refine ((p.dropPending_touches c).trans (Part.tellMover_touches ..)).drops (by rw [k.motion, hw]) (by rw [k.mover, hw])
      (by rw [k.pending, hw]) fun x hx hv => ?_
    rw [hp] at hx
    cases hx
    exact Part.tellMover_dormant _ c (congrArg some hv) _ _ _ _

theorem Part.withdrawPending_window (p : Part) (c x : Corner) (o : OrderOutcome) (e : EntryReason) (judge : Bool) :
    (if x = c then { p.window c with pending := none } else p.window x).sameButPosition
      ((p.withdrawPending c o e judge).window x) ∧ (x ≠ c → (p.withdrawPending c o e judge).window x = p.window x) := by
  unfold Part.withdrawPending
  cases hp : (p.window c).pending with
  | none =>
    have e : ({ p.window c with pending := none } : WindowRec) = p.window c := by rw [← hp]
    refine ⟨?_, fun _ => rfl⟩
    rw [e]
    split
    · subst_vars
      rfl
    · rfl
  | some pend =>
    have h := (p.dropPending c).tellMover_window c x (some pend.cmd.mover) o e none judge
    rw [Part.dropPending_window] at h
    refine ⟨h.1, fun hx => ?_⟩
    have h2 := h.2 hx
    rw [if_neg hx] at h2
    exact h2

theorem Part.pendingLost_does (p : Part) (c : Corner) : Part.Does stopAreas p (p.pendingLost c) := p.withdrawPending_does ..

theorem Part.unlearn_does (p : Part) (c : Corner) : Part.Does [.windows, .begun, .store] p (p.unlearn c) :=
  .after (Part.markDirty_does _ _) (.mono (p.setWindow_does c))

theorem Part.clearPinchLockout_does (p : Part) (c : Corner) (k : LockoutCause) :
    Part.Does startAreas p (p.clearPinchLockout c k) := by
  unfold Part.clearPinchLockout
  exact .ite (fun _ => .after (Part.appendRow_does _ _) (.mono (p.setWindow_does c))) fun _ => .refl _ p

/-- The part once the mover of a pinched window has been told (R80). -/
abbrev Part.pinchTold (p : Part) (c : Corner) : Part :=
  ((p.appendRow (stoppedRow c .pinch (p.window c).mover (p.window c).position)).setWindow c
    { p.window c with lastStop := some .pinch }).tellStop c (p.window c).mover .pinch true

/-- What follows: the window reverses, its monitor starts afresh, rows, and the mark. -/
theorem Part.pinch_eq (p : Part) (c : Corner) (found : PinchFound) : ∃ (x : WindowRec) (m : MonitorRec) (rs : List Row),
    x.motion = .reversing ∧ x.pending = ((p.pinchTold c).window c).pending ∧
      m.learn = ((p.pinchTold c).monitor c).learn ∧
      p.pinch c found = ((((p.pinchTold c).setWindow c x).setMonitor c m).appendRows rs).markDirty (.window c) := by
  by_cases h : armsForce (addPinch (p.monitor c).history
      ⟨p.clock, if (p.window c).mode = some .manual then .manual else .other⟩) = true
  · refine ⟨_, _, [_, _], ?_, ?_, ?_, by unfold Part.pinch; dsimp only; rw [if_pos h]; rfl⟩
    all_goals rfl
  · refine ⟨_, _, [_], ?_, ?_, ?_, by unfold Part.pinch; dsimp only; rw [if_neg h]; rfl⟩
    all_goals rfl

theorem Part.pinchTold_touches (p : Part) (c : Corner) : Part.Touches c p (p.pinchTold c) :=
  .after (Part.tellMover_touches _ _ _ _ _ _ _) (.after (Part.setWindow_touches _ _ _) (p.appendRow_does _).toWithin.touches)

theorem Part.pinchTold_command (p : Part) (c : Corner) : ((p.pinchTold c).window c).motion = (p.window c).motion ∧
    ((p.pinchTold c).window c).pending = (p.window c).pending := by
  have k := Part.tellMover_spares ((p.appendRow (stoppedRow c .pinch (p.window c).mover (p.window c).position)).setWindow c
    { p.window c with lastStop := some .pinch }) c c (p.window c).mover StopReason.pinch.outcome StopReason.pinch.entry
    (some .pinch) true
  exact ⟨k.motion.trans (by simp), k.pending.trans (by simp)⟩

/-- A pinch tells its mover before the window reverses: the law of the entries is kept (R80, R154). -/
theorem Part.pinch_entries (p : Part) (c : Corner) (found : PinchFound) (hm : (p.window c).motion ≠ .stopped) :
    p.entriesFit → (p.pinch c found).entriesFit := by
  obtain ⟨x, m, rs, -, h2, h3, e⟩ := p.pinch_eq c found
  rw [e]
  have t : Part.Touches c (p.pinchTold c)
      (((((p.pinchTold c).setWindow c x).setMonitor c m).appendRows rs).markDirty (.window c)) :=
    .after (Part.markDirty_does _ _).toWithin.touches (.after (Part.appendRows_does _ _).toWithin.touches
      (.after (Part.setMonitor_touches _ _ _ fun k => h3.trans k) (Part.setWindow_touches _ _ _)))
  refine ((p.pinchTold_touches c).trans t).keeps fun h => Part.dormant_fits (t.entry.dormant ?_) fun k => absurd (h.stands hm) ?_
  · rcases h.driven hm with hd | ⟨-, -, hv⟩
    · exact (p.pinchTold_touches c).entry.dormant hd
    · exact Part.tellMover_dormant _ c hv _ _ _ _
  · have w := (Part.appendRows_does (((p.pinchTold c).setWindow c x).setMonitor c m) rs).toWithin.windows (by decide)
    have hw : ((((((p.pinchTold c).setWindow c x).setMonitor c m).appendRows rs).markDirty (.window c)).window c).pending =
        (p.window c).pending := by
      simp only [Part.markDirty_fields]
      rw [Part.window, w]
      exact (congrArg WindowRec.pending (Part.setWindow_window _ c c x)).trans (by rw [if_pos rfl, h2, (p.pinchTold_command c).2])
    rwa [hw] at k

theorem Part.pinch_does (p : Part) (c : Corner) (found : PinchFound) (hm : (p.window c).motion ≠ .stopped) :
    Part.Does stopAreas p (p.pinch c found) := by
  refine Part.Acts.keeping ?_ (p.pinch_entries c found hm)
  obtain ⟨x, m, rs, h1, h2, -, e⟩ := p.pinch_eq c found
  rw [e]
  exact .after (Part.markDirty_does _ _).acts (.after (Part.appendRows_does _ _).acts (.after (Part.setMonitor_acts _ _ _)
    (.after (Part.setWindow_samePending _ c h2 (.inr (.inr ⟨h1, by rw [(p.pinchTold_command c).1]; exact hm⟩)))
    (.after (Part.tellStop_does _ _ _ _ _).acts (.after (Part.setWindow_does _ _ (by simp) (by simp) (by simp)).acts
    (.mono (p.appendRow_does _).acts))))))

/-! ### Latches and the arbiter -/

abbrev latchAreas : List Area := .doors :: .latches :: orderAreas
abbrev grantAreas : List Area := .holders :: .waiting :: .operation :: .latches :: startAreas

theorem DoorRec.withOutcome_lock (d : DoorRec) (o : ReleaseOutcome) :
    (d.withOutcome o).lock = d.lock ∧ (d.withOutcome o).ajar = d.ajar :=
  ⟨rfl, rfl⟩

/-- A door record with the lock and ajar fields it had. -/
theorem Part.setDoor_sameLock (p : Part) (d : Door) {x : DoorRec} (hl : x.lock = (p.door d).lock) (ha : x.ajar = (p.door d).ajar) :
    Part.Does [.doors] p (p.setDoor d x) :=
  p.setDoor_does d (fun h => by simpa [DoorRec.fits, hl, ha] using h) fun k hs => hl.trans ((k.1 hs).1 d)

theorem Part.endRelease_does (p : Part) (d : Door) (o : ReleaseOutcome) : Part.Does latchAreas p (p.endRelease d o) := by
  unfold Part.endRelease
  split
  · exact .refl _ p
  · exact .after (Part.setLatch_does _ _ _) (.after (Part.Does.foldl (fun q k => q.orderDone_does k _ _ _) _ _)
      (.after (Part.appendRow_does _ _) (.mono (p.setDoor_sameLock d rfl rfl))))

theorem Part.orderDone_foldl_latches (l : List Slot) (o : OrderOutcome) (w : Word) (p : Part) :
    (l.foldl (fun q k => q.orderDone k o w) p).latches = p.latches :=
  (Part.Does.foldl (fun q k => q.orderDone_does k o w 0) l p).latches (by decide)

theorem Part.endRelease_latch (p : Part) (d x : Door) (o : ReleaseOutcome) :
    (p.endRelease d o).latch x = if x = d then none else p.latch x := by
  unfold Part.endRelease
  split
  · split <;> simp_all
  · simp only [Part.latch, Part.setLatch_fields, PerDoor.get_set, Part.orderDone_foldl_latches, Part.appendRow_fields,
      Part.setDoor_fields]

theorem Part.startPulse_does (p : Part) (d : Door) : Part.Does [.latches] p (p.startPulse d) := by
  unfold Part.startPulse
  split
  · exact .refl _ p
  · exact p.setLatch_does _ _

theorem mem_placeWaiter {l : List Waiter} {w x : Waiter} (h : x ∈ placeWaiter l w) : x ∈ l ∨ x = w := by
  unfold placeWaiter at h
  split at h <;> simp only [List.mem_append, List.mem_singleton] at h
  · rcases h with (h | h) | h
    · exact .inl ((List.takeWhile_sublist _).subset h)
    · exact .inr h
    · exact .inl ((List.dropWhile_sublist _).subset h)
  all_goals exact h

theorem actuatorUnits_eq (a : Actuator) : actuatorUnits a = match a with | .window _ => 2 | .latch _ => 1 := by cases a <;> rfl

theorem Part.request_does (p : Part) (a : Actuator) (prec : Precedence) : Part.Does [.holders, .waiting] p (p.request a prec) :=
  p.setLists_does id fun k => ⟨k.1, k.2.1, fun w hw => (mem_placeWaiter hw).elim (k.2.2 w) fun e => by
    subst e
    exact actuatorUnits_eq a⟩

theorem Part.tellGrant_does (p : Part) (a : Actuator) (hg : ∀ c, a = .window c → p.holdsGrant c) :
    Part.Does grantAreas p (p.tellGrant a) := by
  cases a
  · exact .mono (p.windowGranted_does _ (hg _ rfl))
  · exact .mono (p.startPulse_does _)

theorem plainUnits_append (l m : List Holder) : plainUnits (l ++ m) = plainUnits l + plainUnits m := by
  simp [plainUnits, unitsHeld_append]

/-- A holder that fits within the units free, and an escape holder, keep the units within the budget. -/
theorem Part.holder_does (p : Part) {h : Holder} {w : List Waiter} (hu : h.prec = .escape ∨ h.units ≤ p.unitsFree)
    (hh : p.grantsFit → h.units = match h.actuator with | .window _ => 2 | .latch _ => 1) (hw : ∀ x ∈ w, x ∈ p.waiting) :
    Part.Does [.holders, .waiting] p (p.setLists (p.holders ++ [h]) w) := by
  refine p.setLists_does (fun k => ?_) fun k => ⟨fun c hc => ?_, fun x hx => ?_, fun x hx => k.2.2 x (hw x hx)⟩
  rotate_left
  · obtain ⟨x, hx, ha⟩ := k.1 c hc
    exact ⟨x, List.mem_append_left _ hx, ha⟩
  · rcases List.mem_append.1 hx with hx | hx
    · exact k.2.1 x hx
    · rw [List.mem_singleton.1 hx]
      exact hh k
  rw [plainUnits_append]
  rcases hu with hu | hu
  · simpa [plainUnits, hu, unitsHeld] using k
  · have h1 : plainUnits [h] ≤ h.units := by
      refine (plainUnits_le _).trans ?_
      simp [unitsHeld]
    have h2 := plainUnits_le p.holders
    simp only [Part.unitsFree] at hu
    omega

theorem grantHeads_does : ∀ (n : Nat) (p : Part), Part.Does grantAreas p (grantHeads n p)
  | 0, p => .refl _ p
  | n + 1, p => by
    unfold grantHeads
    split
    · exact .refl _ p
    · rename_i w rest hw
      exact .ite (fun h => Part.Does.andThen (Part.Does.after (Part.tellGrant_does _ _ fun c hc => ⟨_, List.mem_append_right _
        (List.mem_singleton_self _), hc⟩) (.mono (p.holder_does (Or.inr h) (fun k => k.2.2 w (by simp [hw])) fun x hx => by
          simp [hw, hx]))) (grantHeads_does n _)) fun _ => .refl _ p

theorem Part.Carries.refl (p : Part) : Part.Carries p p := ⟨fun _ => id, fun _ => id⟩

theorem Part.tellGrant_carries (p : Part) (a : Actuator) : Part.Carries p (p.tellGrant a) := by
  cases a
  · exact p.windowGranted_carries _
  · exact .of fun _ => (p.startPulse_does _).toWithin.spares (.same ((p.startPulse_does _).operation (by decide)))

theorem grantHeads_carries : ∀ (n : Nat) (p : Part), Part.Carries p (grantHeads n p)
  | 0, p => .refl p
  | n + 1, p => by
    unfold grantHeads
    split
    · exact .refl p
    · split
      · refine Part.Carries.trans (Part.Carries.trans ?_ (Part.tellGrant_carries _ _)) (grantHeads_carries n _)
        exact .of fun _ => ⟨rfl, rfl, rfl, id, .same rfl⟩
      · exact .refl p

/-- An event that carries each corner's laws, with granting after it. -/
theorem settle_carries {f : Part → Part} {p : Part} : Part.Carries (f p) (settle f p) := by
  unfold settle
  dsimp only
  split
  · exact .refl _
  · exact grantHeads_carries _ _

theorem Part.grantFromHead_does (p : Part) : Part.Does grantAreas p p.grantFromHead := grantHeads_does _ p

/-- An event with granting from the head after it. -/
theorem settle_does {K M : List Area} {f : Part → Part} {p : Part} (h : Part.Does K p (f p)) (hk : K ⊆ M := by decide)
    (hg : grantAreas ⊆ M := by decide) : Part.Does M p (settle f p) := by
  unfold settle
  exact .ite (fun _ => h.mono hk) fun _ => (h.mono hk).andThen (Part.grantFromHead_does _) hg

abbrev releaseAreas : List Area := .doors :: .latches :: stopAreas

theorem Part.escapeHolder_does (p : Part) (d : Door) (k : GrantKind) (w : Option Corner) :
    Part.Does releaseAreas p (p.escapeHolder d k w) :=
  .after (Part.appendRow_does _ _) (.after (Part.startPulse_does _ _) (.mono (p.holder_does (Or.inl rfl) (fun _ => rfl) fun _ => id)))

theorem Part.grantEscape_does (p : Part) (d : Door) : Part.Does releaseAreas p (p.grantEscape d) := by
  unfold Part.grantEscape
  refine .ite (fun _ => p.escapeHolder_does _ _ _) fun _ => ?_
  split
  · exact .after (Part.escapeHolder_does _ _ _ _) (.mono (p.stopAndTell_does _ _ _))
  · exact p.escapeHolder_does _ _ _

theorem Part.withdrawHolder_does (p : Part) (a : Actuator) : Part.Does releaseAreas p (p.withdrawHolder a) := by
  cases a
  · exact .mono (p.stopAndTell_does _ _ _)
  · exact .after (Part.endRelease_does _ _ _) (.mono (p.dropHolder_does _ fun _ h => by cases h))

theorem withdrawOver_does : ∀ (n : Nat) (p : Part), Part.Does releaseAreas p (withdrawOver n p)
  | 0, p => .refl _ p
  | n + 1, p => by
    unfold withdrawOver
    refine .ite (fun _ => .refl _ p) fun _ => ?_
    split
    · exact .refl _ p
    · exact (p.withdrawHolder_does _).andThen (withdrawOver_does n _)

theorem Part.meetBudget_does (p : Part) (before : Nat) : Part.Does releaseAreas p (p.meetBudget before) :=
  .ite (fun _ => withdrawOver_does _ p) fun _ => .refl _ p

theorem Part.tellStop_holders (p : Part) (c : Corner) (m : Option Mover) (r : StopReason) (judge : Bool) :
    (p.tellStop c m r judge).holders = p.holders := (p.tellStop_does c m r judge).holders (by decide)

/-- A withdrawal leaves the holders of the other actuators. -/
theorem Part.withdrawHolder_holders (p : Part) (a : Actuator) :
    (p.withdrawHolder a).holders = p.holders.filter fun h => decide (h.actuator ≠ a) := by
  cases a
  · simp only [Part.withdrawHolder, Part.stopAndTell, Part.tellStop_holders, Part.stopWindow, Part.markDirty_fields,
      Part.dropHolder, Part.setLists_fields, (p.halt_acts _ _).holders (by decide)]
  · simp only [Part.withdrawHolder, (Part.endRelease_does _ _ _).holders (by decide), Part.dropHolder, Part.setLists_fields]

/-- A withdrawal ends the release of its latch and leaves the other latches. -/
theorem Part.withdrawHolder_latch (p : Part) (a : Actuator) (x : Door) :
    (p.withdrawHolder a).latch x = if a = .latch x then none else p.latch x := by
  cases a with
  | window c => simp [Part.withdrawHolder, Part.latch, (p.stopAndTell_does c .supply true).latches (by decide)]
  | latch d =>
    rw [Part.withdrawHolder, Part.endRelease_latch]
    simp [Part.dropHolder, Part.latch, eq_comm]

/-- A withdrawal stops its window with SUPPLY and leaves the other windows. -/
theorem Part.withdrawHolder_window (p : Part) (a : Actuator) (x : Corner) :
    (a = .window x → ((p.window x).stopped .supply p.clock (p.monitor x).learn.isSome).sameButPosition
        ((p.withdrawHolder a).window x)) ∧
      (a ≠ .window x → (p.withdrawHolder a).window x = p.window x) := by
  refine ⟨?_, fun h => ?_⟩
  · rintro rfl
    have k := (p.stopAndTell_window x x .supply true).1
    rwa [if_pos rfl] at k
  · cases a with
    | window c => exact (p.stopAndTell_window c x .supply true).2 fun e => h (e ▸ rfl)
    | latch d => simp [Part.withdrawHolder, Part.window, (Part.endRelease_does _ _ _).windows (by decide), Part.dropHolder]

theorem Part.nextWithdrawn_mem {p : Part} {a : Actuator} (h : p.nextWithdrawn = some a) : ∃ x ∈ p.holders, x.actuator = a := by
  have key (prec : Precedence) {b : Actuator} (hb : (p.holders.reverse.find? fun h => decide (h.prec = prec)).map (·.actuator) = some b) :
      ∃ x ∈ p.holders, x.actuator = b := by
    simp only [Option.map_eq_some_iff] at hb
    obtain ⟨x, hx, rfl⟩ := hb
    exact ⟨x, by simpa using List.mem_of_find?_eq_some hx, rfl⟩
  simp only [Part.nextWithdrawn, Option.or_eq_some_iff] at h
  rcases h with h | ⟨-, h⟩
  · exact key _ h
  · exact key _ h

/-- Of the holders left, the order of withdrawals is what is left of it. -/
theorem withdrawalOrder_filter (l : List Holder) (as : List Actuator) :
    withdrawalOrder (l.filter fun h => decide (h.actuator ∉ as)) = (withdrawalOrder l).filter fun a => decide (a ∉ as) := by
  simp only [withdrawalOrder, List.filter_append, List.filter_map, ← List.filter_reverse, List.filter_filter, Function.comp_def,
    Bool.and_comm]

theorem Part.nextWithdrawn_eq (p : Part) : p.nextWithdrawn = (withdrawalOrder p.holders).head? := by
  simp only [Part.nextWithdrawn, withdrawalOrder, List.head?_append, List.head?_map, List.head?_filter]

theorem Part.withdrawHolder_budget (p : Part) (a : Actuator) : (p.withdrawHolder a).budget = p.budget := by
  have h := p.withdrawHolder_does a
  simp only [Part.budget, h.supply (by decide), h.cfg (by decide)]

/-- The first place of a list that its first `j` do not hold ends a longer start of the list, which holds it beside them. -/
theorem take_head_filter {α : Type} [DecidableEq α] {l : List α} {a : α} {j : Nat}
    (h : (l.filter fun x => decide (x ∉ l.take j)).head? = some a) :
    ∃ n, j < n ∧ a ∉ l.take j ∧ (∀ i, j ≤ i → i < n → ∀ x, x ∈ l.take i ↔ x ∈ l.take j) ∧
      ∀ x, x ∈ l.take n ↔ x ∈ l.take j ∨ x = a := by
  rw [List.head?_filter, List.find?_eq_some_iff_append] at h
  obtain ⟨ha, pre, post, hl, hpre⟩ := h
  have ha : a ∉ l.take j := by simpa using ha
  have hpre : ∀ x ∈ pre, x ∈ l.take j := by simpa using hpre
  have hj : j ≤ pre.length := by
    by_contra hlt
    refine ha (hl ▸ ?_)
    rw [List.take_append, List.take_of_length_le (by omega)]
    obtain ⟨k, hk⟩ : ∃ k, j - pre.length = k + 1 := ⟨j - pre.length - 1, by omega⟩
    simp [hk]
  have hsub (i : Nat) (h1 : j ≤ i) (h2 : i ≤ pre.length) (x : α) : x ∈ l.take i ↔ x ∈ l.take j := by
    refine ⟨fun hx => hpre x ?_, fun hx => (List.take_subset_take_left l h1) hx⟩
    rw [hl, List.take_append_of_le_length h2] at hx
    exact List.mem_of_mem_take hx
  refine ⟨pre.length + 1, by omega, ha, fun i h1 h2 => hsub i h1 (by omega), fun x => ?_⟩
  rw [← hsub pre.length hj le_rfl x, hl, List.take_append, List.take_append,
    List.take_of_length_le (Nat.le_succ _)]
  simp

theorem Part.nextWithdrawn_none {p : Part} (h : p.nextWithdrawn = none) : ∀ x ∈ p.holders, x.prec = .escape := by
  simp only [Part.nextWithdrawn, Option.or_eq_none_iff, Option.map_eq_none_iff, List.find?_eq_none, List.mem_reverse,
    decide_eq_true_eq] at h
  intro x hx
  have h1 := h.1 x hx
  have h2 := h.2 x hx
  cases hp : x.prec <;> simp_all

/-- Withdrawing from the holders that are left when the first `j` of the order of withdrawals of `l` are gone. -/
theorem withdrawOver_from {l : List Holder} : ∀ (k j : Nat) (p : Part), p.holders = afterWithdrawals l j →
    p.holders.length ≤ k → (∀ i, i < j → p.budget < unitsHeld (afterWithdrawals l i)) →
    ∃ (n : Nat) (gone : List Actuator), withdrawalsMeet l p.budget n ∧ gone.Nodup ∧
      (∀ a ∈ gone, a ∉ (withdrawalOrder l).take j) ∧
      (∀ a, a ∈ (withdrawalOrder l).take n ↔ a ∈ (withdrawalOrder l).take j ∨ a ∈ gone) ∧
      withdrawOver k p = gone.foldl Part.withdrawHolder p ∧ (withdrawOver k p).holders = afterWithdrawals l n
  | 0, j, p, hp, hk, hj => by
    have h0 : afterWithdrawals l j = [] := by rw [← hp]; simpa using hk
    exact ⟨j, [], ⟨hj, Or.inr (by simp [h0])⟩, .nil, by simp, by simp, rfl, hp⟩
  | k + 1, j, p, hp, hk, hj => by
    unfold withdrawOver
    split
    · rename_i hfit
      exact ⟨j, [], ⟨hj, Or.inl (by rwa [← hp])⟩, .nil, by simp, by simp, rfl, hp⟩
    · rename_i hover
      split
      · rename_i hn
        refine ⟨j, [], ⟨hj, Or.inr ?_⟩, .nil, by simp, by simp, rfl, hp⟩
        rw [← hp]
        exact Part.nextWithdrawn_none hn
      · rename_i a ha
        have hh := p.withdrawHolder_holders a
        obtain ⟨x, hx, hxa⟩ := Part.nextWithdrawn_mem ha
        rw [Part.nextWithdrawn_eq, hp, afterWithdrawals, withdrawalOrder_filter] at ha
        obtain ⟨m, hm, hnot, hsame, hnext⟩ := take_head_filter ha
        have hm' : (p.withdrawHolder a).holders = afterWithdrawals l m := by
          rw [hh, hp, afterWithdrawals, afterWithdrawals, List.filter_filter]
          simp only [hnext, not_or, Bool.decide_and, Bool.and_comm, ne_eq]
        have hlen : (p.withdrawHolder a).holders.length ≤ k := by
          have : (p.holders.filter fun h => decide (h.actuator ≠ a)).length < p.holders.length :=
            List.length_filter_lt_length_iff_exists.2 ⟨x, hx, by simp [hxa]⟩
          rw [hh]
          omega
        obtain ⟨n, gone, hmeet, hnodup, hout, hmem, hfold, hhold⟩ := withdrawOver_from k m (p.withdrawHolder a) hm' hlen (by
          intro i hi
          rw [p.withdrawHolder_budget]
          rcases Nat.lt_or_ge i j with h | h
          · exact hj i h
          · rw [afterWithdrawals]
            simp only [hsame i h hi]
            rw [← afterWithdrawals, ← hp]
            omega)
        rw [p.withdrawHolder_budget] at hmeet
        refine ⟨n, a :: gone, hmeet, List.nodup_cons.2 ⟨fun h => hout a h ((hnext a).2 (Or.inr rfl)), hnodup⟩, ?_, ?_, hfold, hhold⟩
        · simp only [List.mem_cons]
          rintro b (rfl | hb)
          · exact hnot
          · exact fun h => hout b hb ((hnext b).2 (Or.inl h))
        · intro b
          rw [hmem b, hnext b, List.mem_cons, or_assoc]

/-- Everything a fall of the budget does at the arbiter (R107): it withdraws, one at a time, distinct holders, the first of the
order of withdrawals, until the units held fit or only escapes are left. -/
theorem withdrawOver_is (p : Part) : ∃ (n : Nat) (gone : List Actuator), withdrawalsMeet p.holders p.budget n ∧ gone.Nodup ∧
    (∀ a, a ∈ gone ↔ a ∈ (withdrawalOrder p.holders).take n) ∧
    withdrawOver p.holders.length p = gone.foldl Part.withdrawHolder p ∧
    (withdrawOver p.holders.length p).holders = afterWithdrawals p.holders n := by
  obtain ⟨n, gone, h1, h2, -, h3, h4, h5⟩ := withdrawOver_from (l := p.holders) p.holders.length 0 p (by simp [afterWithdrawals])
    le_rfl (by simp)
  exact ⟨n, gone, h1, h2, fun a => by simp [h3 a], h4, h5⟩

/-- After the arbiter has met the budget the units that fitted the budget before fit it. -/
theorem Part.meetBudget_units (p : Part) {before : Nat} (h : plainUnits p.holders ≤ before) : (p.meetBudget before).unitsFit := by
  unfold Part.meetBudget
  split
  · obtain ⟨n, -, ⟨-, hmeet⟩, -, -, -, hh⟩ := withdrawOver_is p
    have hd := withdrawOver_does p.holders.length p
    have hb : (withdrawOver p.holders.length p).budget = p.budget := by
      simp only [Part.budget, hd.supply (by decide), hd.cfg (by decide)]
    rw [Part.unitsFit, hh, hb]
    rcases hmeet with hfit | hesc
    · exact (plainUnits_le _).trans hfit
    · rw [plainUnits, List.filter_eq_nil_iff.2 fun x hx => by simp [hesc x hx]]
      exact Nat.zero_le _
  · exact h.trans (by omega)

/-- A change of the budget in force that the arbiter then meets. -/
theorem Part.meetBudget_after {K M : List Area} {p q : Part} {before : Nat} (w : Part.Within K p q) (h1 : p.tidy → q.tidy)
    (h2 : p.doorsFit → q.doorsFit) (h3 : p.crashSafe → q.crashSafe) (h4 : p.searchesFit → q.searchesFit)
    (h5 : p.dirtyFits → q.dirtyFits) (h6 : p.unitsFit → plainUnits q.holders ≤ before) (h7 : p.grantsFit → q.grantsFit)
    (h8 : p.candidatesFit → q.candidatesFit) (h9 : p.entriesFit → q.entriesFit) (hk : K ⊆ M := by decide)
    (hr : releaseAreas ⊆ M := by decide) :
    Part.Does M p (q.meetBudget before) :=
  have m := q.meetBudget_does before
  ⟨w.trans m.toWithin hk hr, ⟨m.tidyLaw ∘ h1, m.doorsLaw ∘ h2, m.crashLaw ∘ h3, fun h => q.meetBudget_units (h6 h),
    m.searchesLaw ∘ h4, m.dirtyLaw ∘ h5, m.grantsLaw ∘ h7, m.candidatesLaw ∘ h8, m.entriesLaw ∘ h9⟩⟩

theorem plainUnits_cons (h : Holder) (l : List Holder) :
    plainUnits (h :: l) = (if h.prec = .escape then 0 else h.units) + plainUnits l := by
  by_cases hp : h.prec = .escape <;> simp [plainUnits, hp, unitsHeld]

theorem plainUnits_raise (l : List Holder) (q : Holder → Prop) [DecidablePred q] :
    plainUnits (l.map fun h => if q h then { h with prec := .escape } else h) ≤ plainUnits l := by
  induction l with
  | nil => exact le_rfl
  | cons h l ih =>
    rw [List.map_cons, plainUnits_cons, plainUnits_cons]
    by_cases hq : q h
    · simp only [hq, if_true]
      omega
    · simp only [hq, if_false]
      omega

theorem Part.raiseRelease_does (p : Part) (d : Door) (op : ReleaseOp) : Part.Does releaseAreas p (p.raiseRelease d op) := by
  have h : Part.Does releaseAreas p (p.setLatch d (some { op with prec := .escape })) := .mono (p.setLatch_does _ _)
  unfold Part.raiseRelease
  split
  · exact .after (Part.grantEscape_does _ _) (.after (Part.dropWaiter_does _ _) h)
  · exact .after (Part.grantEscape_does _ _) (.after (Part.dropWaiter_does _ _) h)
  · refine .after (Part.setLists_does _ (fun k => (plainUnits_raise _ _).trans k) fun k => ⟨fun c hc => ?_, fun x hx => ?_, k.2.2⟩) h
    · obtain ⟨x, hx, ha⟩ := k.1 c hc
      refine ⟨_, List.mem_map.2 ⟨x, hx, rfl⟩, ?_⟩
      split <;> exact ha
    · obtain ⟨y, hy, rfl⟩ := List.mem_map.1 hx
      have := k.2.1 y hy
      split <;> exact this
  · exact h

theorem Part.joinRelease_does (p : Part) (d : Door) (op : ReleaseOp) (src : ReleaseSource) (slot : Option Slot) :
    Part.Does releaseAreas p (p.joinRelease d op src slot) := by
  unfold Part.joinRelease
  exact .ite (fun _ => p.raiseRelease_does _ _) fun _ => .mono (p.setLatch_does _ _)

theorem Part.beginRelease_does (p : Part) (d : Door) (src : ReleaseSource) (slot : Option Slot) :
    Part.Does releaseAreas p (p.beginRelease d src slot) := by
  unfold Part.beginRelease
  dsimp only
  split
  · exact .after (Part.grantEscape_does _ _) (.mono (p.setLatch_does _ _))
  · exact .after (Part.request_does _ _ _) (.mono (p.setLatch_does _ _))

theorem Part.releaseRequest_does (p : Part) (d : Door) (src : ReleaseSource) (slot : Option Slot) :
    Part.Does releaseAreas p (p.releaseRequest d src slot) := by
  unfold Part.releaseRequest
  dsimp only
  refine .ite (fun _ => ?_) fun _ => .ite (fun _ => ?_) fun _ => ?_
  · cases slot
    · exact .refl _ p
    · exact .mono (p.orderDone_does _ _ _ _)
  · cases slot
    · exact .mono (p.appendRow_does _)
    · exact .after (Part.orderRefused_does _ _ _ _) (.mono (p.appendRow_does _))
  · split
    · exact .after (Part.joinRelease_does _ _ _ _ _) (by cases slot <;> [exact .refl _ p; exact .mono (p.orderTaken_does _)])
    · exact .after (Part.beginRelease_does _ _ _ _) (by cases slot <;> [exact .refl _ p; exact .mono (p.orderTaken_does _)])

theorem Part.innerPull_does (p : Part) (c : Corner) : Part.Does releaseAreas p (p.innerPull c) := by
  unfold Part.innerPull
  exact .ite (fun _ => .refl _ p) fun _ => .ite (fun _ => .mono (p.appendRow_does _)) fun _ =>
    .ite (fun _ => .mono (p.appendRow_does _)) fun _ =>
      .ite (fun _ => .after (Part.releaseRequest_does _ _ _ _) (.mono (p.lockAction_does _ _ _)))
        fun _ => p.releaseRequest_does _ _ _

theorem Part.outerRequest_does (p : Part) (d : Door) : Part.Does releaseAreas p (p.outerRequest d) := by
  unfold Part.outerRequest
  exact .ite (fun _ => .mono (p.appendRow_does _)) fun _ => p.releaseRequest_does _ _ _

theorem Part.releaseOrder_does (p : Part) (k : Slot) (d : Door) : Part.Does releaseAreas p (p.releaseOrder k d) := by
  unfold Part.releaseOrder
  exact .ite (fun _ => .mono (p.orderRefused_does _ _ _)) fun _ => p.releaseRequest_does _ _ _

theorem Part.latchOpened_does (p : Part) (d : Door) : Part.Does releaseAreas p (p.latchOpened d) := by
  unfold Part.latchOpened
  split
  · exact .refl _ p
  · split
    · exact .after (Part.endRelease_does _ _ _) (.mono (p.dropWaiter_does _))
    · exact .after (Part.endRelease_does _ _ _) (.mono (p.dropWaiter_does _))
    · exact .after (Part.endRelease_does _ _ _) (.mono (p.dropHolder_does _ fun _ h => by cases h))
    · exact .mono (p.endRelease_does _ _)

theorem Part.pulseExpiry_does (p : Part) (d : Door) : Part.Does releaseAreas p (p.pulseExpiry d) := by
  unfold Part.pulseExpiry
  split
  · exact .ite (fun _ => .after (Part.setLatch_does _ _ _)
      (.mono (p.dropHolder_does _ fun _ h => by cases h))) fun _ => .refl _ p
  · exact .refl _ p

theorem Part.confirmExpiry_does (p : Part) (d : Door) : Part.Does releaseAreas p (p.confirmExpiry d) := by
  unfold Part.confirmExpiry
  split
  · refine .ite (fun _ => .ite (fun _ => .mono (p.endRelease_does _ _)) fun _ => ?_) fun _ => .refl _ p
    dsimp only
    split
    · exact .after (Part.grantEscape_does _ _) (.mono (p.setLatch_does _ _))
    · exact .after (Part.request_does _ _ _) (.mono (p.setLatch_does _ _))
  · exact .refl _ p

theorem Part.cancelRelease_does (p : Part) (k : Slot) : Part.Does releaseAreas p (p.cancelRelease k) := by
  unfold Part.cancelRelease
  dsimp only
  split
  · exact .mono (p.orderDone_does _ _ _ _)
  · split
    · exact .mono (p.orderDone_does _ _ _ _)
    · exact .after (Part.orderDone_does _ _ _ _ _) (.mono (p.setLatch_does _ _))

abbrev openAreas : List Area := .locator :: releaseAreas

theorem Part.deliverAjar_does (p : Part) (d : Door) (a : Ajar) : Part.Does openAreas p (p.deliverAjar d a) := by
  unfold Part.deliverAjar
  cases a
  · exact .after (Part.latchOpened_does _ _) (.mono (p.ajarEvent_does _ _))
  · exact .mono (p.ajarEvent_does _ _)

end Sys2Proof.Machine
end

