-- ==== Sys2Proof/Laws/Windows.lean ====
section
/-! SUPPORT. What the operations of the Window Controller, the Pinch and Travel Monitor and the Closure Sequencer can do:
one lemma for each. -/

-- One theorem at a time: elaborated side by side, the lemmas take more threads than the check has memory for.
set_option deprecated.oldSectionVars true

namespace Sys2Proof.Machine

theorem Part.Within.crashSet {K : List Area} {p q : Part} (w : Part.Within K p q) (h : .crash ∉ K := by decide) :
    q.crashSet = p.crashSet := by
  rw [Part.crashSet, Part.crashSet, w.crash h]

/-! ### Commands -/

abbrev commandAreas : List Area := .spent :: stopAreas

/-- A command that passes while the crash latch is set opens (R60). -/
theorem Part.verdict_passes {p : Part} {c : Corner} {cmd : Command} (h : p.verdict c cmd = .passes) (hs : p.crashSet = true) :
    cmd.dir = .opening := by
  unfold Part.verdict at h
  dsimp only at h
  split at h
  · cases h
  · split at h
    · cases h
    · rename_i hc
      cases hd : cmd.dir
      · rfl
      · exfalso
        simp only [Part.startCheck, hd, hs, and_self, if_true] at hc
        split at hc <;> first | cases hc | (split at hc <;> cases hc)

/-- A command that is not met with BUSY: the window does not reverse, and no learn runs on it unless a switch commands
(R59, R93). -/
theorem Part.verdict_busy {p : Part} {c : Corner} {cmd : Command} (h : p.verdict c cmd ≠ .busy) :
    (p.window c).motion ≠ .reversing ∧ (cmd.mover.isSwitch = false → (p.monitor c).learn = none) := by
  unfold Part.verdict at h
  dsimp only at h
  split at h
  · exact absurd rfl h
  · rename_i hn
    rw [not_or, not_and] at hn
    refine ⟨hn.1, fun hs => ?_⟩
    by_contra hl
    exact hn.2 (Option.isSome_iff_ne_none.2 hl) hs

theorem Part.endWatch_does (p : Part) (c : Corner) : Part.Does [.monitors] p (p.endWatch c) := p.setMonitor_does _ _

theorem Part.endWatch_touches (p : Part) (c : Corner) : Part.Touches c p (p.endWatch c) := p.setMonitor_touches _ _

theorem Part.endWatch_window (p : Part) (c x : Corner) : (p.endWatch c).window x = p.window x := rfl

theorem Part.moverLoses_does (p : Part) (c : Corner) (old : Option Mover) (new : Mover) (stop : Option StopReason) :
    Part.Does tellAreas p (p.moverLoses c old new stop) := by
  unfold Part.moverLoses
  exact .ite (fun _ => .refl _ p) fun _ => p.tellLost_does _ _ _

theorem Part.moverLoses_spares (p : Part) (c d : Corner) (old : Option Mover) (new : Mover) (stop : Option StopReason) :
    Part.Spares d p (p.moverLoses c old new stop) := by
  unfold Part.moverLoses
  split
  · exact ⟨rfl, rfl, rfl, id, .same rfl⟩
  · exact p.tellMover_spares ..

/-- The Sequencer that loses a window to another has its entry DONE. -/
theorem Part.moverLoses_dormant (p : Part) (c : Corner) {old : Option Mover} {new : Mover} (h : old = some .sequencer)
    (hn : new ≠ .sequencer) (stop : Option StopReason) : (p.moverLoses c old new stop).dormant c := by
  unfold Part.moverLoses
  rw [if_neg fun e => hn (Option.some.inj (e.symm.trans h))]
  exact p.tellMover_dormant c h _ _ _ _

theorem Part.noteRefusal_does (p : Part) (c : Corner) (r : StartRefusal) : Part.Does [.windows] p (p.noteRefusal c r) := by
  cases r <;> first | exact .refl _ p | exact p.setWindow_does c

theorem Part.applyDone_acts (p : Part) (c : Corner) (cmd : Command) (r : StopReason) :
    Part.Acts stopAreas p (p.applyDone c cmd r) := by
  have h : Part.Acts stopAreas p (p.endWatch c) := .mono (p.endWatch_does c).acts
  unfold Part.applyDone
  dsimp only
  split
  · exact .after (Part.moverLoses_does _ _ _ _ _).acts (.after (Part.stopWindow_acts _ _ _) h)
  · split
    · exact h
    · split
      · exact .after (Part.dropPending_acts _ _) h
      · exact .after (Part.pendingLost_does _ _).acts h

theorem Part.pendingLost_touches (p : Part) (c : Corner) : Part.Touches c p (p.pendingLost c) := by
  unfold Part.pendingLost Part.withdrawPending
  split
  · exact .of fun _ => ⟨rfl, rfl, rfl, id, .same rfl⟩
  · exact (p.dropPending_touches c).trans (Part.tellMover_touches ..)

theorem Part.applyDone_touches (p : Part) (c : Corner) (cmd : Command) (r : StopReason) :
    Part.Touches c p (p.applyDone c cmd r) := by
  have h := p.endWatch_touches c
  unfold Part.applyDone
  refine .ite (fun _ => .after (.of fun _ => Part.moverLoses_spares ..) (.after (Part.stopWindow_touches _ _ _) h)) fun _ => ?_
  split
  · exact h
  · exact .ite (fun _ => .after (Part.dropPending_touches _ _) h) fun _ => .after (Part.pendingLost_touches _ _) h

/-- After a command found already done the window stands, or had none; nothing is pending. -/
theorem Part.applyDone_clear (p : Part) (c : Corner) (cmd : Command) (r : StopReason) (h : p.standsClear c) :
    (p.applyDone c cmd r).standsClear c := by
  unfold Part.applyDone
  dsimp only
  split
  · refine Part.Spares.clear (Part.moverLoses_spares ..) fun _ => ?_
    rw [Part.stopWindow_window, if_pos rfl]
    rfl
  · split
    · exact h
    · split
      · exact fun k => absurd (by rw [Part.dropPending_window, if_pos rfl]) k
      · intro k
        have e := ((p.endWatch c).withdrawPending_window c c .overridden .overridden true).1
        rw [if_pos rfl] at e
        exact absurd (by rw [Part.pendingLost, e]) k

theorem Part.applyDone_does (p : Part) (c : Corner) {cmd : Command} (r : StopReason) (hv : cmd.mover ≠ .sequencer) :
    Part.Does stopAreas p (p.applyDone c cmd r) := by
  have h : Part.Does stopAreas p (p.endWatch c) := .mono (p.endWatch_does c)
  by_cases hu : (p.window c).underWay = true
  · refine (p.applyDone_acts c cmd r).keeping ((p.applyDone_touches c cmd r).stops ?_ ?_ fun _ _ hm => ?_) <;>
      unfold Part.applyDone <;> rw [if_pos hu]
    · exact (Part.moverLoses_spares ..).motion.trans (by rw [Part.stopWindow_window, if_pos rfl]; rfl)
    · exact (Part.moverLoses_spares ..).pending.trans (by rw [Part.stopWindow_window, if_pos rfl]; rfl)
    · exact Part.moverLoses_dormant _ c hm hv _
  · unfold Part.applyDone
    rw [if_neg hu]
    split
    · exact h
    · rename_i pend hp
      split
      · rename_i e
        refine .after (Part.dropPending_does _ _ fun x hx => ?_) h
        rw [Part.endWatch_window, hp] at hx
        cases hx
        rw [e]
        exact hv
      · exact .after (Part.pendingLost_does _ _) h

theorem WindowRec.underWay_moves {w : WindowRec} (h : w.underWay = true) : w.motion ≠ .stopped := by
  intro e
  simp [WindowRec.underWay, e] at h

/-- A window neither under way nor reversing stands. -/
theorem WindowRec.stands {w : WindowRec} (h : ¬ w.underWay = true) (hr : w.motion ≠ .reversing) : w.motion = .stopped := by
  simp only [WindowRec.underWay, decide_eq_true_eq, not_or] at h
  cases e : w.motion <;> simp_all

/-- A move in place of another, the grant carried over (R59). -/
theorem Part.startMove_over {M : List Area} {p q : Part} {c : Corner} {cmd : Command} (h : Part.Acts M p q)
    (hh : q.holders = p.holders) (hm : (p.window c).motion ≠ .stopped) (hc : p.crashSet = true → cmd.dir = .opening)
    (hl : startAreas ⊆ M := by decide) (ha : Area.crash ∉ M := by decide) : Part.Acts M p (q.startMove c cmd) := by
  have hq : q.crashSafe → q.crashSet = true → cmd.dir = .opening := fun _ hs => hc (by rw [← h.crashSet ha]; exact hs)
  refine ((q.startMove_bare c hq).after h.toDoesBare hl).holding fun k => (q.startMove_acts c hq fun _ => ?_).grantsLaw (h.grantsLaw k)
  rw [Part.holdsGrant, hh]
  exact k.1 c hm

theorem Part.applyPassed_acts (p : Part) (c : Corner) {cmd : Command} (hc : p.crashSet = true → cmd.dir = .opening) :
    Part.Acts stopAreas p (p.applyPassed c cmd) := by
  have h : Part.Acts stopAreas p (p.endWatch c) := .mono (p.endWatch_does c).acts
  unfold Part.applyPassed
  dsimp only
  split
  · rename_i hu
    split
    · exact .after (Part.appendRow_does _ _).acts (.after (Part.setMonitor_acts _ _ _)
        (.after (Part.setWindow_samePending _ _ rfl (Or.inl rfl)) (.after (Part.moverLoses_does _ _ _ _ _).acts h)))
    · have h2 := Part.Acts.after (Part.moverLoses_does _ c (p.window c).mover cmd.mover (some .overridden)).acts
        (Part.Acts.after (Part.halt_acts _ c .overridden) h)
      refine Part.startMove_over h2 ?_ (WindowRec.underWay_moves hu) hc
      exact ((Part.moverLoses_does _ c _ _ _).holders (by decide)).trans
        (((Part.halt_acts _ c _).holders (by decide)).trans ((p.endWatch_does c).holders (by decide)))
  · split
    · refine .after (Part.request_does _ _ _).acts (.after (Part.setWindow_acts _ _ fun k hs => ⟨(k.1 hs).2.2.2 c, ?_⟩) h)
      intro y hy
      simp only [Option.some.injEq] at hy
      subst hy
      exact hc hs
    · rename_i pend hp
      have h2 := Part.Acts.after (Part.moverLoses_does _ c (some pend.cmd.mover) cmd.mover none).acts h
      refine .after (Part.setWindow_acts _ _ fun k hs => ⟨(k.1 hs).2.2.2 c, ?_⟩) h2
      intro y hy
      simp only [Option.some.injEq] at hy
      subst hy
      exact hc (by rw [← h2.crashSet]; exact hs)

theorem Part.applyPassed_touches (p : Part) (c : Corner) (cmd : Command) : Part.Touches c p (p.applyPassed c cmd) := by
  have h := p.endWatch_touches c
  have m {x : Part} (k : Part.Touches c p x) (old : Option Mover) (stop : Option StopReason) :
      Part.Touches c p (x.moverLoses c old cmd.mover stop) := k.trans (.of fun _ => x.moverLoses_spares ..)
  unfold Part.applyPassed
  refine .ite (fun _ => .ite (fun _ => ?_) fun _ => ?_) fun _ => ?_
  · refine .after (Part.appendRow_does _ _).toWithin.touches (.after (Part.setMonitor_touches _ _ _ fun k => ?_)
      (.after (Part.setWindow_touches _ _ _) (m h _ _)))
    unfold MonitorRec.replaced
    split <;> exact k
  · exact .after (Part.startMove_touches _ _ _) (m (.after (Part.halt_touches _ _ _) h) _ _)
  · split
    · exact .after (Part.request_does _ _ _).toWithin.touches (.after (Part.setWindow_touches _ _ _) h)
    · exact .after (Part.setWindow_touches _ _ _) (m h _ _)

/-- What a command that passes leaves its window with: the move, or the pending command (R58, R59, R61). -/
theorem Part.applyPassed_command (p : Part) (c : Corner) (cmd : Command) (h : p.standsClear c)
    (hr : (p.window c).motion ≠ .reversing) :
    let w := (p.applyPassed c cmd).window c
    if (p.window c).underWay then w.underWay = true ∧ w.mover = some cmd.mover ∧ w.pending = none
    else w.motion = .stopped ∧ ∃ x, w.pending = some x ∧ x.cmd = cmd := by
  unfold Part.applyPassed
  dsimp only
  split
  · rename_i hu
    have hn : (p.window c).pending = none := by
      by_contra k
      exact WindowRec.underWay_moves hu (h k)
    split
    · have s := (p.endWatch c).moverLoses_spares c c (p.window c).mover cmd.mover none
      simp only [Part.appendRow_fields, Part.setMonitor_fields, Part.setWindow_window, if_pos]
      exact ⟨by rw [WindowRec.underWay, s.motion]; exact hu, trivial, s.pending.trans hn⟩
    · have k := Part.startMove_command (((p.endWatch c).halt c .overridden).moverLoses c (p.window c).mover cmd.mover
        (some .overridden)) c cmd
      exact ⟨k.2.1, k.2.2, k.1⟩
  · rename_i hu
    have hs := WindowRec.stands hu hr
    split
    · have w (q : Part) : (q.request (.window c) .window).window c = q.window c := rfl
      rw [w, Part.setWindow_window, if_pos rfl]
      exact ⟨hs, _, rfl, rfl⟩
    · rename_i pend _
      have s := (p.endWatch c).moverLoses_spares c c (some pend.cmd.mover) cmd.mover none
      rw [Part.setWindow_window, if_pos rfl]
      exact ⟨s.motion.trans hs, _, rfl, rfl⟩

/-- A command of another mover than the Sequencer leaves its window without a live entry. -/
theorem Part.applyPassed_dormant (p : Part) (c : Corner) {cmd : Command} (h : p.entryFits c) (hv : cmd.mover ≠ .sequencer)
    (hr : (p.window c).motion ≠ .reversing) : (p.applyPassed c cmd).dormant c := by
  have t := p.applyPassed_touches c cmd
  by_cases hu : (p.window c).underWay = true
  · rcases h.driven (WindowRec.underWay_moves hu) with hd | ⟨-, -, hm⟩
    · exact t.entry.dormant hd
    · unfold Part.applyPassed
      dsimp only
      rw [if_pos hu]
      split
      · exact (Part.appendRow_does _ _).toWithin.touches.entry.dormant ((p.endWatch c).moverLoses_dormant c hm hv none)
      · exact (Part.startMove_touches _ _ _).entry.dormant (Part.moverLoses_dormant _ c hm hv _)
  · have hs := WindowRec.stands hu hr
    cases hp : (p.window c).pending with
    | none => exact t.entry.dormant (h.rests hs hp)
    | some pend =>
      by_cases e : pend.cmd.mover = .sequencer
      · unfold Part.applyPassed
        dsimp only
        rw [if_neg hu, Part.endWatch_window, hp]
        exact (p.endWatch c).moverLoses_dormant c (congrArg some e) hv none
      · exact t.entry.dormant (Part.entryFits_pending h hp e)

theorem Part.applyPassed_does (p : Part) (c : Corner) {cmd : Command} (hc : p.crashSet = true → cmd.dir = .opening)
    (hv : cmd.mover ≠ .sequencer) (hr : (p.window c).motion ≠ .reversing) : Part.Does stopAreas p (p.applyPassed c cmd) :=
  (p.applyPassed_acts c hc).keeping ((p.applyPassed_touches c cmd).keeps fun h =>
    Part.dormant_fits (p.applyPassed_dormant c h hv hr) fun k => by
      have := p.applyPassed_command c cmd h.1 hr
      dsimp only at this
      split at this
      · exact absurd this.2.2 k
      · exact this.1)

theorem Part.applyCommand_does (p : Part) (c : Corner) {cmd : Command} (hv : cmd.mover ≠ .sequencer) :
    Part.Does stopAreas p (p.applyCommand c cmd) := by
  unfold Part.applyCommand
  split
  · exact .refl _ p
  · exact .mono (p.noteRefusal_does _ _)
  · exact p.applyDone_does _ _ hv
  · rename_i h
    exact p.applyPassed_does _ (Part.verdict_passes h) hv (Part.verdict_busy (by rw [h]; exact fun k => by cases k)).1

theorem Switch.mover_ne (sw : Switch) : Switch.mover sw ≠ .sequencer := by cases sw <;> exact fun h => by cases h

theorem markSpent_does (p : Part) (sw : Switch) (b : Bool) : Part.Does [.spent] p (markSpent p sw b) := p.spent_does _

theorem Part.switchCommand_does (p : Part) (sw : Switch) (dir : Direction) (express : Bool) :
    Part.Does stopAreas p (p.switchCommand sw dir express) := by
  unfold Part.switchCommand
  dsimp only
  split
  · exact .ite (fun _ => .refl _ p) fun _ => .after (Part.applyCommand_does _ _ (Switch.mover_ne sw)) (.mono (p.appendRow_does _))
  · exact .ite (fun _ => .refl _ p) fun _ => .after (Part.applyCommand_does _ _ (Switch.mover_ne sw)) (.mono (p.appendRow_does _))
  · exact .after (Part.appendRow_does _ _) (.mono (p.noteRefusal_does _ _))
  all_goals exact p.applyCommand_does _ (Switch.mover_ne sw)

theorem Part.switchRelease_does (p : Part) (sw : Switch) : Part.Does stopAreas p (p.switchRelease sw) := by
  unfold Part.switchRelease
  refine .ite (fun _ => p.stopAndTell_does _ _ _) fun _ => ?_
  split
  · rename_i pend hp
    refine .ite (fun hm => .mono (p.dropPending_does _ fun x hx => ?_)) fun _ => .refl _ p
    rw [hp] at hx
    cases hx
    rw [hm.1]
    exact Switch.mover_ne sw
  · exact .refl _ p

theorem Part.stageEntry_does (p : Part) (sw : Switch) (old new : Stage) (dir : Direction) :
    Part.Does commandAreas p (p.stageEntry sw old new dir) := by
  unfold Part.stageEntry
  exact .ite (fun _ => .refl _ p) fun _ =>
    .ite (fun _ => .after (markSpent_does _ _ _) (.mono (p.stopAndTell_does _ _ _))) fun _ => .mono (p.switchCommand_does _ _ _)

theorem Part.switchStage_does (p : Part) (sw : Switch) (old new : Stage) :
    Part.Does commandAreas p (p.switchStage sw old new) := by
  unfold Part.switchStage
  dsimp only
  have h : Part.Does commandAreas p (if decide (((p.monitor sw.window).watch.map (·.switch)) = some sw ∧
      Stage.dir new ≠ some .closing) then p.endWatch sw.window else p) :=
    .ite (fun _ => .mono (p.endWatch_does _)) fun _ => .refl _ p
  refine .ite (fun _ => h) fun _ => ?_
  split
  · exact .after (Part.switchRelease_does _ _) h
  · exact .after (Part.stageEntry_does _ _ _ _ _) h

theorem Part.lockoutStops_does (p : Part) (c : Corner) : Part.Does stopAreas p (p.lockoutStops c) := by
  unfold Part.lockoutStops
  refine .ite (fun _ => p.stopAndTell_does _ _ _) fun _ => ?_
  split
  · rename_i pend hp
    refine .ite (fun hm => .mono (p.dropPending_does _ fun x hx => ?_)) fun _ => .refl _ p
    rw [hp] at hx
    cases hx
    rw [hm]
    exact fun h => by cases h
  · exact .refl _ p

theorem Part.spendIfHeld_does (p : Part) (sw : Switch) : Part.Does [.spent] p (p.spendIfHeld sw) := by
  unfold Part.spendIfHeld
  exact .ite (fun _ => .refl _ p) fun _ => markSpent_does _ _ _

theorem Part.changeLockout_does (p : Part) (fromOrder on : Bool) :
    Part.Does (.lockout :: commandAreas) p (p.changeLockout fromOrder on) := by
  have h : Part.Does (.lockout :: commandAreas) p
      (({ p with lockout := on }.appendRow (lockoutChangedRow fromOrder on)).markDirty .lock) :=
    .after (Part.markDirty_does _ _) (.after (Part.appendRow_does _ _) (.mono (p.lockout_does on)))
  unfold Part.changeLockout
  exact .ite (fun _ => .after (Part.lockoutStops_does _ _) (.after (Part.lockoutStops_does _ _) h)) fun _ =>
    .after (Part.spendIfHeld_does _ _) (.after (Part.spendIfHeld_does _ _) h)

theorem Part.endMoveOrder_does (p : Part) (c : Corner) (k : Slot) (o : OrderOutcome) (stop : Option StopReason) :
    Part.Does orderAreas p (p.endMoveOrder c k o stop) := p.orderDone_does ..

theorem WindowRec.aimed_mover (w : WindowRec) (cfg : Config) (cmd : Command) : (w.aimed cfg cmd).mover = cmd.mover := by
  unfold WindowRec.aimed
  split <;> rfl

theorem Part.moveTo_does (p : Part) (k : Slot) (c : Corner) (t : Nat) : Part.Does stopAreas p (p.moveTo k c t) := by
  have h : Part.Does stopAreas p (p.orderTaken k) := .mono (p.orderTaken_does k)
  have hm : ((p.window c).aimed p.cfg (targetCommand (.order k) t)).mover ≠ .sequencer := by
    rw [WindowRec.aimed_mover]
    exact fun h => by cases h
  unfold Part.moveTo
  dsimp only
  split
  · exact .mono (p.orderRefused_does _ _ _)
  · exact .after (Part.orderRefused_does _ _ _ _) (.mono (p.noteRefusal_does _ _))
  · exact .after (Part.endMoveOrder_does _ _ _ _ _) (.after (Part.applyDone_does _ _ _ hm) h)
  · rename_i hv
    refine .after (Part.applyPassed_does _ c (fun hs => Part.verdict_passes hv (by rw [← h.crashSet]; exact hs)) hm ?_) h
    simpa using (Part.verdict_busy (by rw [hv]; exact fun k => by cases k)).1

theorem Part.moveStop_does (p : Part) (k : Slot) (c : Corner) : Part.Does stopAreas p (p.moveStop k c) := by
  have h : Part.Does stopAreas p ((p.orderTaken k).endWatch c) := .after (Part.endWatch_does _ c) (.mono (p.orderTaken_does k))
  unfold Part.moveStop
  dsimp only
  refine .ite (fun _ => .mono (p.orderRefused_does _ _ _)) fun _ => .ite (fun _ => .after (Part.endMoveOrder_does _ _ _ _ _) ?_)
    fun _ => .after (Part.endMoveOrder_does _ _ _ _ _) (.after (Part.pendingLost_does _ _) h)
  refine Part.Acts.keeping (.after (Part.tellLost_does _ _ _ _).acts (.after (Part.stopWindow_acts _ _ _) h.acts)) fun hk => ?_
  exact Part.stop_tells (Part.stopWindow_touches _ c .cancelled) (by rw [Part.stopWindow_window, if_pos rfl]; rfl)
    (by rw [Part.stopWindow_window, if_pos rfl]; rfl)
    (fun _ => by rw [Part.endWatch_window]; simp) _ _ _ _ (h.entriesLaw hk)

theorem Part.moveOrder_does (p : Part) (k : Slot) (c : Corner) (t : MoveTarget) : Part.Does stopAreas p (p.moveOrder k c t) := by
  cases t
  · exact p.moveTo_does _ _ _
  · exact p.moveTo_does _ _ _
  · exact p.moveTo_does _ _ _
  · exact p.moveStop_does _ _

theorem Part.cancelMove_does (p : Part) (k : Slot) : Part.Does stopAreas p (p.cancelMove k) := by
  unfold Part.cancelMove
  dsimp only
  split
  · exact p.stopAndTell_does _ _ _
  · exact p.withdrawPending_does _ _ _ _
  · exact .mono (p.orderDone_does _ _ _ _)

theorem Part.pendingTimeout_does (p : Part) (c : Corner) : Part.Does stopAreas p (p.pendingTimeout c) := by
  have h : Part.Acts stopAreas p (p.setWindow c { p.window c with pending := none }) :=
    .mono (p.setWindow_acts c fun k hs => ⟨(k.1 hs).2.2.2 c, fun y hy => by simp at hy⟩)
  have hw : (p.setWindow c { p.window c with pending := none }).window c = { p.window c with pending := none } := by
    rw [Part.setWindow_window, if_pos rfl]
  have t := p.setWindow_touches c { p.window c with pending := none }
  unfold Part.pendingTimeout
  split
  · exact .refl _ p
  · rename_i pend hp
    have drop {q : Part} (a : Part.Acts stopAreas p q) (s : Part.Spares c (p.setWindow c { p.window c with pending := none }) q)
        (tq : Part.Touches c p q) (hd : pend.cmd.mover = .sequencer → q.dormant c) : Part.Does stopAreas p q :=
      a.keeping (tq.drops (by rw [s.motion, hw]) (by rw [s.mover, hw]) (by rw [s.pending, hw]) fun x hx hv =>
        hd (by rw [hp] at hx; cases hx; exact hv))
    have row (r : Row) (hn : pend.cmd.mover ≠ .sequencer) : Part.Does stopAreas p
        ((p.setWindow c { p.window c with pending := none }).appendRow r) :=
      have s := (Part.appendRow_does (p.setWindow c { p.window c with pending := none }) r).toWithin
      drop (.after (Part.appendRow_does _ _).acts h) (s.spares (.same (s.operation (by decide)))) (t.trans s.touches)
        fun e => absurd e hn
    have tell (m : Mover) (hm : pend.cmd.mover = m) : Part.Does stopAreas p
        ((p.setWindow c { p.window c with pending := none }).tellMover c (some m) .budgetTimeout .budgetTimeout none true) :=
      drop (.after (Part.tellMover_does _ _ _ _ _ _ _).acts h) (Part.tellMover_spares ..) (t.trans (Part.tellMover_touches ..))
        fun e => Part.tellMover_dormant _ c (congrArg some (hm.symm.trans e)) _ _ _ _
    dsimp only
    split
    · rename_i hm
      exact row _ fun e => by rw [e] at hm; cases hm
    · rename_i hm
      exact row _ fun e => by rw [e] at hm; cases hm
    · rename_i hm
      exact tell _ hm
    · rename_i hm
      exact tell _ hm

theorem Part.waitExpiry_does (p : Part) (a : Actuator) : Part.Does releaseAreas p (p.waitExpiry a) := by
  have h : Part.Does releaseAreas p (p.dropWaiter a) := .mono (p.dropWaiter_does a)
  unfold Part.waitExpiry
  refine .ite (fun _ => ?_) fun _ => .refl _ p
  cases a
  · exact .after (Part.pendingTimeout_does _ _) h
  · exact .after (Part.endRelease_does _ _ _) h

abbrev heatAreas : List Area := [.windows, .memory, .rows, .scroll]

theorem Part.judgeThermal_does (p : Part) (c : Corner) : Part.Does heatAreas p (p.judgeThermal c) := by
  unfold Part.judgeThermal
  exact .ite (fun _ => .after (Part.appendRow_does _ _) (.mono (p.setWindow_does c))) fun _ =>
    .ite (fun _ => .after (Part.appendRow_does _ _) (.mono (p.setWindow_does c))) fun _ => .refl _ p

theorem Part.heatRise_does (p : Part) (c : Corner) : Part.Does heatAreas p (p.heatRise c) := by
  unfold Part.heatRise
  exact .ite (fun _ => .after (Part.judgeThermal_does _ _) (.mono (p.setWindow_does c))) fun _ => .refl _ p

theorem Part.heatFall_does (p : Part) (c : Corner) : Part.Does heatAreas p (p.heatFall c) := by
  unfold Part.heatFall
  exact .ite (fun _ => .after (Part.judgeThermal_does _ _) (.mono (p.setWindow_does c))) fun _ => .refl _ p

/-! ### The monitor -/

/-- A window that stops at the end of its learn: its entry was not live. -/
theorem Part.learn_ends {p q : Part} {c : Corner} (hl : (p.monitor c).learn ≠ none) (t : Part.Touches c p q)
    (hs : (q.window c).motion = .stopped) (o : OrderOutcome) (n : Option Nat) (clamp : Bool) :
    p.entriesFit → (q.endLearn c o n clamp).entriesFit :=
  have e := q.endLearn_spares c c o n clamp
  (t.trans (.of fun d => q.endLearn_spares c d o n clamp)).keeps fun h =>
    Part.dormant_fits (e.entry.dormant (t.entry.dormant (h.learns hl))) fun _ => e.motion.trans hs

theorem Part.stopWindow_stands (p : Part) (c : Corner) (r : StopReason) : ((p.stopWindow c r).window c).motion = .stopped := by
  rw [Part.stopWindow_window, if_pos rfl]
  rfl

theorem Part.learnOverrun_learns {p : Part} {c : Corner} (h : p.learnOverrun c = true) : (p.monitor c).learn ≠ none := by
  intro e
  simp [Part.learnOverrun, e] at h

theorem Part.pulseEnds_does (p : Part) (c : Corner) : Part.Does stopAreas p (p.pulseEnds c) := by
  unfold Part.pulseEnds
  refine .ite (fun h => Part.Acts.keeping (.after (Part.endLearn_does _ _ _ _ _).acts (.mono (p.stopWindow_acts _ _)))
    (Part.learn_ends (Part.learnOverrun_learns h) (p.stopWindow_touches _ _) (p.stopWindow_stands _ _) _ _ _)) fun _ => ?_
  split
  · exact p.stopAndTell_does _ _ _
  · exact .refl _ p

theorem Part.countPulse_does (p : Part) (c : Corner) {w : WindowRec} (hp : w.pending = (p.window c).pending)
    (hm : w.motion = (p.window c).motion) (hv : w.mover = (p.window c).mover) :
    Part.Does [.windows, .store] p (p.countPulse c w) := by
  have h : Part.Does [.windows, .store] p (p.setWindow c w) := .mono (p.setWindow_does c hp hm hv)
  exact .ite (fun _ => h) fun _ => .after (Part.noteChange_does _ _) h

/-- What a counted pulse leaves of the windows. -/
theorem Part.countPulse_window (p : Part) (c x : Corner) (w : WindowRec) :
    (p.countPulse c w).window x = if x = c then w else p.window x := by
  have h (q : Part) : (q.noteChange (.window c)).window x = q.window x :=
    congrArg (fun v : PerCorner WindowRec => v.get x) ((q.noteChange_does _).windows (by decide))
  unfold Part.countPulse
  dsimp only
  split
  · rw [Part.setWindow_window]
  · rw [h, Part.setWindow_window]

/-- A pinch is found on a CLOSING window. -/
theorem Part.pinchTest_closing {p : Part} {c : Corner} {t : Nat} {f : PinchFound} (h : p.pinchTest c t = some f) :
    (p.window c).motion = .closing := by
  by_contra hn
  simp [Part.pinchTest, hn] at h

theorem Part.drivenPulse_does (p : Part) (c : Corner) (now : Nat) : Part.Does stopAreas p (p.drivenPulse c now) := by
  have h (w : WindowRec) (m : MonitorRec) (hp : w.pending = (p.window c).pending) (hm : w.motion = (p.window c).motion)
      (hv : w.mover = (p.window c).mover) (hl : (p.monitor c).learn = none → m.learn = none) :
      Part.Does stopAreas p ((p.countPulse c w).setMonitor c m) := by
    have k := (p.countPulse_does c hp hm hv).toWithin.monitors (by decide)
    refine .after (Part.setMonitor_does _ _ _ fun e => hl ?_) (.mono (p.countPulse_does c hp hm hv))
    rw [Part.monitor, k] at e
    exact e
  have hk (m : MonitorRec) (a : Option Nat) (b : Bool) : (m.afterPulse a b).learn = m.learn := by
    unfold MonitorRec.afterPulse
    split
    · rfl
    · split
      · split <;> rfl
      · rfl
  have hl (n : Nat) : (p.monitor c).learn = none → ({ p.monitor c with
      stallAt := some n
      learn := (p.monitor c).learn.map fun l => { l with count := l.count + 1 } } : MonitorRec).learn = none :=
    fun e => by rw [e]; rfl
  unfold Part.drivenPulse
  dsimp only
  split
  · rename_i found hf
    obtain ⟨t, -, ht⟩ := Option.bind_eq_some_iff.1 hf
    exact .after (Part.pinch_does _ _ _ (by rw [Part.pinchTest_closing ht]; decide)) (h _ _ rfl rfl rfl (hl _))
  · refine .after (Part.pulseEnds_does _ _) (.after (Part.setMonitor_does _ _ _ fun e => ?_) (h _ _ rfl rfl rfl (hl _)))
    rw [Part.setMonitor_monitor, if_pos rfl] at e
    rw [hk]
    exact e

theorem Part.hallPulse_does (p : Part) (c : Corner) (high us : Nat) : Part.Does stopAreas p (p.hallPulse c high us) := by
  unfold Part.hallPulse
  dsimp only
  refine .ite (fun _ => .refl _ p) fun _ => .ite (fun _ => p.drivenPulse_does _ _) fun _ => ?_
  split
  · exact .mono (p.countPulse_does c rfl rfl rfl)
  · exact .refl _ p

theorem Part.stallUnlearn_does (p : Part) (c : Corner) : Part.Does stopAreas p (p.stallUnlearn c) := by
  have hw (q : Part) (r : Row) : (((q.unlearn c).appendRow r).window c) = { q.window c with learned := false } := by
    simp [Part.unlearn]
  refine Part.Acts.keeping (.after (Part.tellStop_does _ _ _ _ _).acts (.after (Part.appendRow_does _ _).acts
    (.after (Part.unlearn_does _ _).acts (.mono (p.stopWindow_acts _ _))))) (Part.stop_tells ?_ ?_ ?_ ?_ _ _ _ _)
  · exact .after (Part.appendRow_does _ _).toWithin.touches (.after (Part.markDirty_does _ _).toWithin.touches
      (.after (Part.setWindow_touches _ _ _) (p.stopWindow_touches _ _)))
  · rw [hw]
    exact p.stopWindow_stands _ _
  · rw [hw, Part.stopWindow_window, if_pos rfl]
    rfl
  · exact fun h => if_neg (WindowRec.underWay_drives h)

theorem Part.stallEnd_does (p : Part) (c : Corner) (n : Nat) (clears : Bool) : Part.Does stopAreas p (p.stallEnd c n clears) := by
  have h : Part.Does stopAreas p ((p.setWindow c { p.window c with position := n }).stopAndTell c .atEnd true) :=
    .after (Part.stopAndTell_does _ _ _ _) (.mono (p.setWindow_does c))
  unfold Part.stallEnd
  exact .ite (fun _ => .after (Part.clearPinchLockout_does _ _ _) h) fun _ => h

theorem Part.stallLearned_does (p : Part) (c : Corner) : Part.Does stopAreas p (p.stallLearned c) := by
  unfold Part.stallLearned
  dsimp only
  split
  · rename_i hm
    exact .ite (fun _ => p.stallEnd_does _ _ _) fun _ => .ite (fun _ => p.pinch_does _ _ (by rw [hm]; decide)) fun _ => p.stallUnlearn_does _
  all_goals exact .ite (fun _ => p.stallEnd_does _ _ _) fun _ => p.stallUnlearn_does _

theorem Part.stallUnlearned_does (p : Part) (c : Corner) : Part.Does stopAreas p (p.stallUnlearned c) := by
  unfold Part.stallUnlearned
  dsimp only
  split
  · exact .after (Part.setMonitor_does _ _ _) (p.stopAndTell_does _ _ _)
  · exact p.stopAndTell_does _ _ _

theorem Part.learnTurn_does (p : Part) (c : Corner) {l : Learn} (hl : (p.monitor c).learn = some l)
    (hm : (p.window c).motion ≠ .stopped) : Part.Does stopAreas p (p.learnTurn c l) := by
  have h : Part.Acts stopAreas p (p.setWindow c { p.window c with position := 0 }) := .mono (p.setWindow_does c).acts
  have t := p.setWindow_touches c { p.window c with position := 0 }
  have hn : (p.monitor c).learn ≠ none := by rw [hl]; exact Option.some_ne_none l
  unfold Part.learnTurn
  refine .ite (fun _ => Part.Acts.keeping (.after (Part.endLearn_does _ _ _ _ _).acts (.after (Part.stopWindow_acts _ _ _) h))
    (Part.learn_ends hn (t.trans (Part.stopWindow_touches _ _ _)) (Part.stopWindow_stands _ _ _) _ _ _)) fun hc => ?_
  rw [not_or] at hc
  have k : Part.Acts stopAreas p ((p.setWindow c { p.window c with position := 0 }).setMonitor c
      { (p.setWindow c { p.window c with position := 0 }).monitor c with
        learn := some { l with phase := .up, count := 0 } }) := .after (Part.setMonitor_acts _ _ _) h
  have tk := t.trans ((p.setWindow c { p.window c with position := 0 }).setMonitor_touches c
    { (p.setWindow c { p.window c with position := 0 }).monitor c with
      learn := some { l with phase := .up, count := 0 } } fun e => absurd e hn)
  have h2 := Part.Acts.after (Part.halt_acts _ c .atEnd) k
  have t2 := tk.trans (Part.halt_touches _ c .atEnd)
  refine (Part.startMove_over h2 ?_ hm fun hs => absurd hs hc.1).keeping
    ((t2.trans (Part.startMove_touches _ _ _)).keeps fun e => Part.startMove_fits _ (t2.entry.dormant (e.learns hn)))
  exact ((Part.halt_acts _ c _).holders (by decide)).trans ((Part.setMonitor_acts _ c _).holders (by decide))

theorem Part.clearPinchLockout_spares (p : Part) (c d : Corner) (k : LockoutCause) :
    Part.Spares d p (p.clearPinchLockout c k) := by
  unfold Part.clearPinchLockout
  split
  · refine ⟨?_, ?_, ?_, by simp, .same (by simp)⟩ <;>
    · simp only [Part.appendRow_fields, Part.setWindow_window]
      split
      · subst_vars
        rfl
      · rfl
  · exact ⟨rfl, rfl, rfl, id, .same rfl⟩

theorem Part.learnMeasured_does (p : Part) (c : Corner) (hn : (p.monitor c).learn ≠ none) :
    Part.Does stopAreas p (p.learnMeasured c) := by
  unfold Part.learnMeasured
  refine .ite (fun _ => ?_) fun _ => Part.Acts.keeping (.after (Part.endLearn_does _ _ _ _ _).acts (.mono (p.stopWindow_acts _ _)))
    (Part.learn_ends hn (p.stopWindow_touches _ _) (p.stopWindow_stands _ _) _ _ _)
  refine Part.Acts.keeping (.after (Part.endLearn_does _ _ _ _ _).acts (.after (Part.clearPinchLockout_does _ _ _).acts
    (.after (Part.stopWindow_acts _ _ _) (.mono (p.setWindow_does c).acts)))) (Part.learn_ends hn ?_ ?_ _ _ _)
  · exact .after (.of fun _ => Part.clearPinchLockout_spares ..) (.after (Part.stopWindow_touches _ _ _) (p.setWindow_touches _ _))
  · exact (Part.clearPinchLockout_spares ..).motion.trans (Part.stopWindow_stands _ _ _)

theorem Part.stallExpiry_does (p : Part) (c : Corner) : Part.Does stopAreas p (p.stallExpiry c) := by
  unfold Part.stallExpiry
  refine .ite (fun hd => ?_) fun _ => .refl _ p
  split
  · rename_i l hl
    have hn : (p.monitor c).learn ≠ none := by rw [hl]; exact Option.some_ne_none l
    split
    · exact p.learnTurn_does _ hl fun e => by simp [WindowRec.driven, e] at hd
    all_goals exact p.learnMeasured_does _ hn
  · exact .ite (fun _ => p.stallLearned_does _) fun _ => p.stallUnlearned_does _

theorem Part.watchExpiry_does (p : Part) (c : Corner) : Part.Does startAreas p (p.watchExpiry c) := by
  have h : Part.Does startAreas p (p.endWatch c) := .mono (p.endWatch_does c)
  unfold Part.watchExpiry
  split
  · exact .refl _ p
  · refine .ite (fun _ => .refl _ p) fun _ => .ite (fun _ => ?_) fun _ => h
    exact .after (Part.markDirty_does _ _) (.after (Part.appendRow_does _ _) (.after (Part.clearPinchLockout_does _ _ _)
      (.after (Part.setWindow_does _ _) h)))

theorem Part.coastEnd_does (p : Part) (c : Corner) : Part.Does [.windows] p (p.coastEnd c) := by
  unfold Part.coastEnd
  exact .ite (fun _ => p.setWindow_does c) fun _ => .refl _ p

theorem Part.softStartEnd_does (p : Part) (c : Corner) : Part.Does [.windows, .monitors] p (p.softStartEnd c) := by
  unfold Part.softStartEnd
  exact .ite (fun _ => .after (Part.setMonitor_does _ _ _) (.mono (p.setWindow_does c))) fun _ => .refl _ p

theorem Part.forceExpiry_does (p : Part) (c : Corner) : Part.Does [.monitors] p (p.forceExpiry c) := by
  unfold Part.forceExpiry
  exact .ite (fun _ => p.setMonitor_does _ _) fun _ => .refl _ p

theorem Part.learnOrder_does (p : Part) (k : Slot) (c : Corner) : Part.Does stopAreas p (p.learnOrder k c) := by
  unfold Part.learnOrder
  refine .ite (fun _ => .mono (p.orderRefused_does _ _ _)) fun hr => .ite (fun _ => .mono (p.orderRefused_does _ _ _)) fun _ =>
    .ite (fun _ => .mono (p.orderRefused_does _ _ _)) fun _ => .ite (fun _ => .mono (p.orderRefused_does _ _ _)) fun hc => ?_
  have h : Part.Does stopAreas p (p.orderTaken k) := .mono (p.orderTaken_does _)
  have hw (d : Corner) : (p.orderTaken k).window d = p.window d := by simp
  have hr : (p.window c).motion = .stopped ∧ (p.window c).pending = none := by
    simpa [WindowRec.atRest] using (not_or.1 hr).1
  generalize p.orderTaken k = q at h hw
  refine h.andThen (Part.Acts.keeping (K := stopAreas) (.after (Part.request_does _ _ _).acts (.after (Part.markDirty_does _ _).acts
    (.after (Part.setWindow_acts _ _ fun _ hs => ?_) (.mono (q.setMonitor_acts _ _))))) fun e d => ?_) (List.Subset.refl _)
  · exact absurd (by rw [← h.crashSet]; exact hs) hc
  · have rest (r : Part) {a : Corner} : Part.Spares a r ((r.markDirty (.window c)).request (.window c) .window) :=
      (Part.markDirty_does _ _).toWithin.spares (.same (by simp)) |>.trans
        ((Part.request_does _ _ _).toWithin.spares (.same rfl))
    by_cases hd : d = c
    · subst hd
      refine Part.dormant_fits ((rest _).entry.dormant ?_) fun _ => (rest _).motion.trans ?_
      · exact (e d).rests (by rw [hw]; exact hr.1) (by rw [hw]; exact hr.2)
      · simpa [hw] using hr.1
    · exact (((q.setMonitor_others _ hd).trans ((Part.setWindow_touches _ c _).others d hd)).trans (rest _)).fits (e d)

theorem Part.windowSafeHold_does (p : Part) (c : Corner) : Part.Does stopAreas p (p.windowSafeHold c) := by
  have h : Part.Does stopAreas p (p.endWatch c) := .mono (p.endWatch_does c)
  unfold Part.windowSafeHold
  exact .after (Part.withdrawPending_does _ _ _ _ _) (.ite (fun _ => .after (Part.stopAndTell_does _ _ _ _) h) fun _ => h)

theorem Part.resetLearn_does (p : Part) (c : Corner) : Part.Does startAreas p (p.resetLearn c) := by
  unfold Part.resetLearn
  split
  · exact .refl _ p
  · exact .after (Part.clampPosition_does _ _) (.mono (p.closeLearn_does _ _ _ _))

theorem Part.windowPortReset_acts (p : Part) (c : Corner) :
    Part.Acts (.holders :: .waiting :: startAreas) p (p.windowPortReset c) := by
  have h : Part.Acts (.holders :: .waiting :: startAreas) p (p.endWatch c) := .mono (p.endWatch_does c).acts
  unfold Part.windowPortReset
  refine .after (Part.dropPending_acts _ _) (.after (Part.resetLearn_does _ _).acts ?_)
  split
  · exact .after (Part.stopWindow_acts _ _ _) h
  · exact h

theorem Part.markLearn_does (p : Part) (c : Corner) : Part.Does [.monitors] p (p.markLearn c) :=
  p.setMonitor_does _ _ fun k => by rw [k]; rfl

theorem Part.windowCrash_does (p : Part) (c : Corner) : Part.Does stopAreas p (p.windowCrash c) := by
  have hm : Part.Does stopAreas p (p.markLearn c) := .mono (p.markLearn_does c)
  have h : Part.Does stopAreas p (if ((p.markLearn c).window c).motion = .closing then (p.markLearn c).stopAndTell c .crash false
      else p.markLearn c) := .ite (fun _ => .after (Part.stopAndTell_does _ _ _ _) hm) fun _ => hm
  unfold Part.windowCrash
  dsimp only
  split
  · exact .ite (fun _ => .after (Part.withdrawPending_does _ _ _ _ _) h) fun _ => h
  · exact h

theorem Part.eachCorner_does {K : List Area} (p : Part) {f : Part → Corner → Part} (h : ∀ q c, Part.Does K q (f q c)) :
    Part.Does K p (p.eachCorner f) := Part.Does.foldl h _ p

/-! ### The Sequencer -/

abbrev issueAreas : List Area := .latches :: stopAreas
abbrev sessionAreas : List Area := .fobs :: .doors :: issueAreas

theorem Part.setEntry_spares (p : Part) {c d : Corner} (e : Entry) (h : d ≠ c) : Part.Spares d p (p.setEntry c e) :=
  (p.setEntry_acts c e).toWithin.spares (p.setEntry_fades e fun k => absurd k h)

/-- One window dealt with: the others' entries stay, and its own has its command (R152, R153). -/
theorem Part.answer_corner (k : OpKind) (p : Part) (c d : Corner) :
    (d ≠ c → Part.Spares d p (p.answer k c)) ∧ (p.standsClear c → (p.answer k c).entryFits c) := by
  have skip (q : Part) (r : EntryReason) (h : q.standsClear c) : (q.setEntry c (skipped r)).entryFits c :=
    Part.dormant_fits (q.setEntry_dormant c rfl) h
  unfold Part.answer
  split
  · exact ⟨fun h => p.setEntry_spares _ h, skip p _⟩
  · dsimp only
    split
    · exact ⟨fun h => p.setEntry_spares _ h, skip p _⟩
    · rename_i r _
      have t : Part.Spares c p (p.noteRefusal c r) ∧ (d ≠ c → Part.Spares d p (p.noteRefusal c r)) := by
        cases r <;> first
          | exact ⟨⟨rfl, rfl, rfl, id, .same rfl⟩, fun _ => ⟨rfl, rfl, rfl, id, .same rfl⟩⟩
          | exact ⟨⟨by simp [Part.noteRefusal], by simp [Part.noteRefusal], by simp [Part.noteRefusal], id, .same rfl⟩,
              fun h => (p.setWindow_touches c _).others d h⟩
      exact ⟨fun h => (t.2 h).trans (Part.setEntry_spares _ _ h), fun h => skip _ _ (t.1.clear h)⟩
    · exact ⟨fun h => ((p.applyDone_touches c _ _).others d h).trans (Part.setEntry_spares _ _ h),
        fun h => Part.dormant_fits (Part.setEntry_dormant _ c rfl) (p.applyDone_clear c _ _ h)⟩
    · rename_i hv
      have hb := Part.verdict_busy (p := p) (c := c) (cmd := (p.window c).sequenced p.cfg k) (by rw [hv]; exact fun k => by cases k)
      have t := p.applyPassed_touches c ((p.window c).sequenced p.cfg k)
      refine ⟨fun h => (t.others d h).trans (Part.setEntry_spares _ _ h), fun h => ?_⟩
      have hw := p.applyPassed_command c ((p.window c).sequenced p.cfg k) h hb.1
      have hl := t.learn (hb.2 rfl)
      generalize p.applyPassed c ((p.window c).sequenced p.cfg k) = q at hw hl ⊢
      dsimp only at hw
      by_cases hu : (p.window c).underWay = true
      · rw [if_pos hu] at hw
        rw [if_pos hw.1]
        refine ⟨fun e => absurd hw.2.2 e, fun o ho _ => ?_⟩
        obtain ⟨x, -, -, g⟩ := Part.setEntry_operation ho
        have g := g c
        rw [if_pos rfl] at g
        exact ⟨fun e => (by rw [g] at e; cases e), fun _ => ⟨hl, hw.1, hw.2.1⟩⟩
      · rw [if_neg hu] at hw
        rw [if_neg (by simp [WindowRec.underWay, hw.1])]
        refine ⟨fun _ => hw.1, fun o ho _ => ?_⟩
        obtain ⟨x, -, -, g⟩ := Part.setEntry_operation ho
        have g := g c
        rw [if_pos rfl] at g
        obtain ⟨y, hy, e⟩ := hw.2
        exact ⟨fun _ => ⟨hl, y, hy, by rw [e]; rfl⟩, fun e => (by rw [g] at e; cases e)⟩

theorem Part.answer_does (k : OpKind) (p : Part) (c : Corner) : Part.Does stopAreas p (p.answer k c) := by
  refine Part.Acts.keeping ?_ fun h d => if e : d = c then e ▸ (p.answer_corner k c c).2 (h c).1 else
    ((p.answer_corner k c d).1 e).fits (h d)
  unfold Part.answer
  split
  · exact .mono (p.setEntry_acts _ _)
  · dsimp only
    split
    · exact .mono (p.setEntry_acts _ _)
    · exact .after (Part.setEntry_acts _ _ _) (.mono (p.noteRefusal_does _ _).acts)
    · exact .after (Part.setEntry_acts _ _ _) (p.applyDone_acts _ _ _)
    · rename_i hv
      exact .after (Part.setEntry_acts _ _ _) (p.applyPassed_acts c (Part.verdict_passes hv))

theorem Part.issue_does (k : OpKind) (p : Part) (c : Corner) : Part.Does issueAreas p (p.issue k c) :=
  settle_does (f := (Part.answer k · c)) (p.answer_does k c)

/-- The same with the granting after it: a window dealt with has its law, the others keep theirs. -/
theorem Part.issue_corner (k : OpKind) (p : Part) (c d : Corner) :
    (p.standsClear d → (p.issue k c).standsClear d) ∧ (p.entryFits d → (p.issue k c).entryFits d) ∧
      (p.standsClear c → (p.issue k c).entryFits c) := by
  have s := settle_carries (f := (Part.answer k · c)) (p := p)
  refine ⟨fun h => ?_, fun h => s.fits d ?_, fun h => s.fits c ((p.answer_corner k c c).2 h)⟩
  · by_cases e : d = c
    · subst e
      exact (s.fits d ((p.answer_corner k d d).2 h)).1
    · exact s.clear d (((p.answer_corner k c d).1 e).clear h)
  · by_cases e : d = c
    · subst e
      exact (p.answer_corner k d d).2 h.1
    · exact ((p.answer_corner k c d).1 e).fits h

/-- After every window has been dealt with each entry has its command. -/
theorem Part.eachCorner_issue (k : OpKind) (p : Part) (h : ∀ c, p.standsClear c) : (p.eachCorner (Part.issue k)).entriesFit := by
  simp only [Part.eachCorner, Corner.all, List.foldl_cons, List.foldl_nil]
  have clear (q : Part) (x d : Corner) (hq : q.standsClear d) : (q.issue k x).standsClear d := (q.issue_corner k x d).1 hq
  have fits (q : Part) (x d : Corner) (hq : q.entryFits d) : (q.issue k x).entryFits d := (q.issue_corner k x d).2.1 hq
  have own (q : Part) (x : Corner) (hq : q.standsClear x) : (q.issue k x).entryFits x := (q.issue_corner k x x).2.2 hq
  intro c
  cases c
  · exact fits _ _ _ (fits _ _ _ (fits _ _ _ (own _ _ (h _))))
  · exact fits _ _ _ (fits _ _ _ (own _ _ (clear _ _ _ (h _))))
  · exact fits _ _ _ (own _ _ (clear _ _ _ (clear _ _ _ (h _))))
  · exact own _ _ (clear _ _ _ (clear _ _ _ (clear _ _ _ (h _))))

theorem Part.beginOperation_does (p : Part) (k : OpKind) (o : Origin) :
    Part.Does (.doors :: issueAreas) p (p.beginOperation k o) := by
  have key {q : Part} (hl : Part.Does (.doors :: issueAreas) p q) (x : Operation) :
      Part.Does (.doors :: issueAreas) p ((q.setOperation (some x)).eachCorner (Part.issue k)).judgeOperation := by
    refine .after (Part.judgeOperation_does _) (Part.Acts.keeping ?_ fun h => ?_)
    · exact .after (Part.eachCorner_does _ (Part.issue_does k)).acts (.after (Part.setOperation_acts _ _) hl.acts)
    · exact Part.eachCorner_issue k _ fun c => (hl.entriesLaw h c).1
  unfold Part.beginOperation
  refine key ?_ _
  generalize k.lock = a
  cases a
  · exact .refl _ p
  · exact .mono (p.lockAction_does _ _ _)

theorem Part.combinedOrder_does (p : Part) (s : Slot) (k : OpKind) : Part.Does (.doors :: issueAreas) p (p.combinedOrder s k) := by
  unfold Part.combinedOrder
  split
  · exact .mono (p.orderRefused_does _ _ _)
  · exact .after (Part.beginOperation_does _ _ _) (.mono (p.orderTaken_does _))

theorem Part.dismissEntry_does (r : StopReason) (p : Part) (c : Corner) : Part.Does stopAreas p (p.dismissEntry r c) := by
  unfold Part.dismissEntry
  split
  · exact .refl _ p
  · exact .after (Part.reportEnd_does _ _ _ _) (.ite (fun _ => .ite (fun _ => p.stopAndTell_does _ _ _) fun _ => .refl _ p)
      fun _ => p.withdrawPending_does _ _ _ _)

theorem Part.sessionEnd_does (p : Part) (f : Fob) : Part.Does stopAreas p (p.sessionEnd f) := by
  unfold Part.sessionEnd
  split
  · exact .refl _ p
  · exact .ite (fun _ => .after (Part.judgeOperation_does _) (Part.eachCorner_does _ (Part.dismissEntry_does _))) fun _ => .refl _ p

theorem Part.cancelOperation_does (p : Part) (s : Slot) : Part.Does stopAreas p (p.cancelOperation s) := by
  unfold Part.cancelOperation
  split
  · exact .mono (p.orderDone_does _ _ _ _)
  · exact .ite (fun _ => .after (Part.endOperation_does _ _) (Part.eachCorner_does _ (Part.dismissEntry_does _))) fun _ =>
      .mono (p.orderDone_does _ _ _ _)

theorem Part.crashEntry_does (p : Part) (c : Corner) : Part.Does stopAreas p (p.crashEntry c) := by
  unfold Part.crashEntry
  split
  · exact .refl _ p
  · exact .after (Part.reportEnd_does _ _ _ _) (.ite (fun _ => p.withdrawPending_does _ _ _ _) fun _ => .refl _ p)

theorem Part.crashOperation_does (p : Part) : Part.Does stopAreas p p.crashOperation := by
  unfold Part.crashOperation
  exact .ite (fun _ => .after (Part.endOperation_does _ _) (Part.eachCorner_does _ Part.crashEntry_does)) fun _ => .refl _ p

theorem Part.safeHoldOperation_does (p : Part) : Part.Does stopAreas p p.safeHoldOperation := by
  unfold Part.safeHoldOperation
  exact .ite (fun _ => .after (Part.endOperation_does _ _) (Part.eachCorner_does _ fun q c => .mono (q.reportEnd_does c _ _)))
    fun _ => .refl _ p

theorem Part.setTracker_does (p : Part) (f : Fob) (t : Tracker) : Part.Does [.fobs, .begun] p (p.setTracker f t) :=
  p.setFob_does _ (.same rfl (.inl rfl))

theorem Part.endTracker_does (p : Part) (f : Fob) (cause : HoldCause) : Part.Does sessionAreas p (p.endTracker f cause) := by
  unfold Part.endTracker
  split
  · exact .after (Part.appendRow_does _ _) (.after (Part.sessionEnd_does _ _) (.mono (p.setTracker_does _ _)))
  all_goals exact .mono (p.setTracker_does _ _)

abbrev trackerAreas : List Area := [.fobs, .begun, .memory, .rows, .scroll]

theorem Part.crashTracker_does (p : Part) (f : Fob) : Part.Does trackerAreas p (p.crashTracker f) := by
  unfold Part.crashTracker
  split
  · exact .refl _ p
  · exact .mono (p.setTracker_does _ _)
  · exact .mono (p.setTracker_does _ _)
  · exact .after (Part.appendRow_does _ _) (.mono (p.setTracker_does _ _))

theorem Part.resetTracker_does (p : Part) (f : Fob) : Part.Does trackerAreas p (p.resetTracker f) := by
  unfold Part.resetTracker
  split
  · exact .refl _ p
  · exact .mono (p.setTracker_does _ _)
  · exact .mono (p.setTracker_does _ _)
  · exact .after (Part.appendRow_does _ _) (.mono (p.setTracker_does _ _))

theorem Part.eachFob_does {K : List Area} (p : Part) {f : Part → Fob → Part} (h : ∀ q i, Part.Does K q (f q i)) :
    Part.Does K p (p.eachFob f) := Part.Does.foldl h _ p

theorem Part.holdExpiry_does (p : Part) (f : Fob) : Part.Does sessionAreas p (p.holdExpiry f) := by
  unfold Part.holdExpiry
  exact .ite (fun _ => p.endTracker_does _ _) fun _ => .refl _ p

end Sys2Proof.Machine
end

