-- ==== Sys2Proof/Laws/Keys.lean ====
section
/-! SUPPORT. What the operations of the Key Locator, the Fob Service and the Supply and Crash Monitor can do: one lemma
for each. -/

-- One theorem at a time: elaborated side by side, the lemmas take more threads than the check has memory for.
set_option deprecated.oldSectionVars true

namespace Sys2Proof.Machine

/-! ### Searches -/

abbrev searchAreas : List Area := .locator :: orderAreas
abbrev resultAreas : List Area := .fobs :: openAreas

theorem Part.setFlight_does (p : Part) (f : Option Flight) : Part.Does [.locator] p (p.setFlight f) := p.setLocator_does id

theorem Part.startSearch_does (p : Part) : Part.Does [.locator] p p.startSearch := by
  unfold Part.startSearch
  split
  · exact .refl _ p
  · rename_i r rest hl
    refine p.setLocator_does fun h => ?_
    simp only [Part.searchesFit, hl, List.length_cons, List.pairwise_cons] at h
    exact ⟨by show rest.length ≤ 6; omega, h.2.2⟩

theorem Part.trySearch_does (p : Part) : Part.Does [.locator] p p.trySearch :=
  .ite (fun _ => p.startSearch_does) fun _ => .refl _ p

theorem Request.addSlot_same (r : Request) (k : Option Slot) : (r.addSlot k).purpose = r.purpose ∧ (r.addSlot k).door = r.door := by
  cases k <;> exact ⟨rfl, rfl⟩

theorem Part.searchRequest_does (p : Part) (r : Request) (slot : Option Slot) : Part.Does searchAreas p (p.searchRequest r slot) := by
  have key (taken : Part) (h : Part.Does searchAreas p taken) (hl : taken.locator = p.locator) (q : Part)
      (hq : Part.Does searchAreas p q) : Part.Does searchAreas p
        (if (p.locator.flight.any fun f => f.request.matches_ r) = true then
          taken.setLocator { taken.locator with flight := taken.locator.flight.map (·.join slot) }
        else if p.locator.list.any (·.matches_ r) = true then
          taken.setLocator { taken.locator with
            list := taken.locator.list.map fun x => if x.matches_ r then x.join r slot else x }
        else if 6 ≤ p.locator.list.length then q
        else (taken.setLocator { taken.locator with list := taken.locator.list ++ [r.addSlot slot] }).trySearch) := by
    refine .ite (fun _ => .after (Part.setLocator_does _ id) h) fun _ => .ite (fun _ => .after (Part.setLocator_does _ ?_) h)
      fun hm => .ite (fun _ => hq) fun hn => .after (Part.trySearch_does _) (.after (Part.setLocator_does _ ?_) h)
    · refine fun k => Part.searchesFit_map (fun x => ?_) k
      split
      · exact x.addSlot_same slot
      · exact ⟨rfl, rfl⟩
    · intro k
      simp only [Part.searchesFit, hl] at k
      rw [hl]
      simp only [List.any_eq_true, not_exists, not_and, Bool.not_eq_true] at hm
      refine ⟨by simp; omega, List.pairwise_append.2 ⟨k.2, List.pairwise_singleton _ _, fun a ha b hb => ?_⟩⟩
      simp only [List.mem_singleton] at hb
      subst hb
      rw [Request.matches_congr rfl rfl (r.addSlot_same slot).1 (r.addSlot_same slot).2]
      exact hm a ha
  unfold Part.searchRequest
  dsimp only
  split
  · cases slot
    · exact .mono (p.appendRow_does _)
    · exact .mono (p.orderRefused_does _ _ _)
  · cases slot
    · exact key p (.refl _ p) rfl _ (.mono (p.appendRow_does _))
    · exact key _ (.mono (p.orderTaken_does _)) (by simp) _ (.mono (p.orderRefused_does _ _ _))

theorem Part.transmissionEnd_does (p : Part) : Part.Does [.locator] p p.transmissionEnd := by
  unfold Part.transmissionEnd
  split
  · exact .refl _ p
  · split
    · exact .refl _ p
    · refine .ite (fun _ => .refl _ p) fun _ => ?_
      split <;> exact p.setFlight_does _

theorem Part.slotEnd_does (p : Part) : Part.Does [.locator] p p.slotEnd := by
  unfold Part.slotEnd
  split
  · exact .refl _ p
  · split
    · exact .refl _ p
    · refine .ite (fun _ => .refl _ p) fun _ => ?_
      split
      · exact p.setFlight_does _
      · exact .refl _ p

theorem Part.takeReply_does (p : Part) (r : Reply) : Part.Does [.locator] p (p.takeReply r) := by
  unfold Part.takeReply
  split
  · exact .refl _ p
  · split
    · exact .refl _ p
    · exact .ite (fun _ => .refl _ p) fun _ => p.setFlight_does _

abbrev settleFobAreas : List Area := .store :: trackerAreas

theorem FobRec.trimmed_candidate (r : FobRec) (now : Nat) (k : Candidate) (h : (r.trimmed now).candidate = some k) :
    r.candidate = some k := by
  simp only [FobRec.trimmed, Option.filter_eq_some_iff] at h
  exact h.1

theorem FobRec.trimmed_follows (r : FobRec) (now : Nat) : r.Follows (r.trimmed now) := fun h =>
  ⟨fun k hk => h k (r.trimmed_candidate now k hk), Iff.rfl, rfl, Nat.le_refl _⟩

theorem FobRec.afterSearch_follows (r : FobRec) (res : FobResult) (now : Nat) : r.Follows (r.afterSearch res now) := by
  have h := r.trimmed_follows now
  unfold FobRec.afterSearch
  cases res.reply <;> exact h

theorem Part.settleFob_does (res : PerFob FobResult) (p : Part) (i : Fob) : Part.Does settleFobAreas p (p.settleFob res i) := by
  unfold Part.settleFob
  refine .ite (fun _ => .refl _ p) fun _ => ?_
  have h : Part.Does settleFobAreas p (p.setFob i ((p.fob i).afterSearch (res.get i) p.clock)) :=
    .mono (p.setFob_does i (FobRec.afterSearch_follows _ _ _))
  refine .ite (fun _ => .ite (fun _ => .after (Part.appendRow_does _ _) h) fun _ => h)
    fun _ => .after (Part.markDirty_does _ _) (.ite (fun _ => .after (Part.appendRow_does _ _) h) fun _ => h)

theorem Part.clearPull_does (p : Part) (d : Door) : Part.Does [.doors] p (p.clearPull d) := p.setDoor_sameLock d rfl rfl

theorem Part.entryResult_does (p : Part) (r : Request) (d : Door) (res : PerFob FobResult) :
    Part.Does releaseAreas p (p.entryResult r d res) := by
  unfold Part.entryResult
  split
  · have h (q : Part) (hq : Part.Does releaseAreas p q) : Part.Does releaseAreas p (q.clearPull d) := .after (q.clearPull_does d) hq
    have h2 (row : Row) : Part.Does releaseAreas p ((p.appendRow row).passiveUnlock d) :=
      .after (Part.passiveUnlock_does _ _) (.mono (p.appendRow_does _))
    exact .ite (fun _ => .after (Part.releaseRequest_does _ _ _ _) (h _ (h2 _))) fun _ => h _ (h2 _)
  · exact .after (Part.clearPull_does _ _) (.mono (p.appendRow_does _))

theorem Part.lockResult_does (p : Part) (r : Request) (res : PerFob FobResult) : Part.Does releaseAreas p (p.lockResult r res) := by
  unfold Part.lockResult
  refine .ite (fun _ => .mono (p.appendRow_does _)) fun _ => .ite (fun _ => .mono (p.appendRow_does _)) fun _ => ?_
  split
  · exact .after (Part.lockAction_does _ _ _ _) (.mono (p.appendRow_does _))
  · exact .mono (p.appendRow_does _)

theorem Part.tailgateResult_does (p : Part) (r : Request) (res : PerFob FobResult) :
    Part.Does releaseAreas p (p.tailgateResult r res) := by
  unfold Part.tailgateResult
  split
  · exact .after (Part.releaseRequest_does _ _ _ _) (.mono (p.appendRow_does _))
  · exact .mono (p.appendRow_does _)

theorem Part.locateResult_does (p : Part) (f : Flight) : Part.Does orderAreas p (p.locateResult f) :=
  .after (Part.Does.foldl (fun q k => q.orderDone_does k _ _ _) _ _) (.mono (p.appendRow_does _))

theorem Part.applyResult_does (p : Part) (f : Flight) : Part.Does releaseAreas p (p.applyResult f) := by
  unfold Part.applyResult
  dsimp only
  split
  · exact p.entryResult_does _ _ _
  · exact .mono (p.appendRow_does _)
  · exact p.lockResult_does _ _
  · exact p.tailgateResult_does _ _
  · exact .mono (p.locateResult_does _)

theorem Part.completeSearch_does (p : Part) : Part.Does resultAreas p p.completeSearch := by
  unfold Part.completeSearch
  split
  · exact .refl _ p
  · exact .ite (fun _ => .after (Part.trySearch_does _) (.after (Part.setFlight_does _ _) (.after (Part.applyResult_does _ _)
      (.mono (p.eachFob_does (Part.settleFob_does _)))))) fun _ => .refl _ p

theorem Part.cancelLocate_does (p : Part) (k : Slot) : Part.Does searchAreas p (p.cancelLocate k) := by
  refine .after (Part.orderDone_does _ _ _ _ _) (.mono (p.setLocator_does fun h => ?_))
  have := Part.searchesFit_map (g := fun r : Request => r.dropSlot k) (fun r => ⟨rfl, rfl⟩) h
  exact ⟨(List.length_filter_le _ _).trans this.1, this.2.filter _⟩

theorem Part.abortRequest_does (cause : AbortCause) (p : Part) (r : Request) :
    Part.Does latchAreas p (p.abortRequest cause r) := by
  have h (out : OrderOutcome) (row : Row) : Part.Does latchAreas p (r.orders.foldl (fun q s => q.orderDone s out) (p.appendRow row)) :=
    .after (Part.Does.foldl (fun q k => q.orderDone_does k _ _ _) _ _) (.mono (p.appendRow_does _))
  unfold Part.abortRequest
  dsimp only
  split
  · exact .after (Part.clearPull_does _ _) (h _ _)
  · exact h _ _

theorem Part.abortSearches_does (p : Part) (cause : AbortCause) : Part.Does (.locator :: latchAreas) p (p.abortSearches cause) :=
  .after (Part.Does.foldl (Part.abortRequest_does cause) _ _) (.mono (p.setLocator_does fun _ => ⟨by simp, List.Pairwise.nil⟩))

theorem Part.discardSearches_does (p : Part) : Part.Does [.locator, .doors] p p.discardSearches :=
  .after (Part.Does.foldl Part.clearPull_does _ _) (.mono (p.setLocator_does fun _ => ⟨by simp, List.Pairwise.nil⟩))

/-! ### Fobs -/

theorem Part.buttonAction_does (p : Part) (f : Fob) (b : Button) : Part.Does releaseAreas p (p.buttonAction f b) := by
  unfold Part.buttonAction
  split
  · exact .mono (p.remotePress_does _ _)
  · exact p.releaseRequest_does _ _ _

abbrev fobAreas : List Area := .fobs :: releaseAreas

theorem Part.pressTracker_does (p : Part) (f : Fob) (b : Button) (now : Nat) : Part.Does sessionAreas p (p.pressTracker f b now) := by
  unfold Part.pressTracker
  dsimp only
  split
  · exact .after (Part.setTracker_does _ _ _) (p.endTracker_does _ _)
  · exact p.endTracker_does _ _

theorem Part.startSession_does (p : Part) (f : Fob) (b : LockButton) (since : Nat) :
    Part.Does sessionAreas p (p.startSession f b since) := by
  unfold Part.startSession
  dsimp only
  split
  · exact .after (Part.appendRow_does _ _) (.mono (p.setTracker_does _ _))
  · exact .after (Part.appendRow_does _ _) (.after (Part.beginOperation_does _ _ _) (.mono (p.setTracker_does _ _)))

theorem Part.continueTracker_does (p : Part) (f : Fob) (now : Nat) : Part.Does sessionAreas p (p.continueTracker f now) := by
  unfold Part.continueTracker
  split
  · exact .ite (fun _ => p.startSession_does _ _ _) fun _ => .refl _ p
  all_goals exact .refl _ p

/-- A frame's counter is no lower than the stored one where the record takes it (R135). -/
def FrameVerdict.sound (p : Part) (fr : Frame) : FrameVerdict → Prop
  | .candidate f _ => (p.fob f).keep.counter.toNat < fr.counter.toNat
  | .press f _ => (p.fob f).fits → (p.fob f).keep.counter.toNat ≤ fr.counter.toNat
  | .ignored | .rejected _ _ | .continuation _ => True

theorem FobRec.judgeCounter_sound (p : Part) (f : Fob) (fr : Frame) (now : Nat) :
    ((p.fob f).judgeCounter f fr now).sound p fr := by
  unfold FobRec.judgeCounter
  dsimp only
  split
  · rename_i hp
    intro hf
    simp only [FobRec.pairs, Option.any_eq_true, decide_eq_true_eq] at hp
    obtain ⟨k, hk, he⟩ := hp
    have := hf k (FobRec.trimmed_candidate _ now k hk)
    omega
  · split
    · trivial
    · split
      · split <;> trivial
      · split
        · intro _
          omega
        · split
          · trivial
          · show _ < _
            omega

theorem Part.judgeFrame_sound (p : Part) (fr : Frame) (now : Nat) : (p.judgeFrame fr now).sound p fr := by
  unfold Part.judgeFrame
  split
  · trivial
  · split
    · trivial
    · split
      · trivial
      · split
        · trivial
        · exact FobRec.judgeCounter_sound p _ fr now

theorem FobRec.accept_follows {r : FobRec} {fr : Frame} {stores : Bool} (now : Nat)
    (h : stores = true → r.fits → r.keep.counter.toNat ≤ fr.counter.toNat) : r.Follows (r.accept fr now stores) := fun g => by
  refine ⟨fun k hk => (nomatch hk), Iff.rfl, rfl, ?_⟩
  cases stores
  · exact Nat.le_refl _
  · exact h rfl g

theorem Part.acceptFrame_does (p : Part) (f : Fob) (fr : Frame) (now : Nat) (press : Option Bool)
    (hs : press.isSome = true → (p.fob f).fits → (p.fob f).keep.counter.toNat ≤ fr.counter.toNat) :
    Part.Does fobAreas p (p.acceptFrame f fr now press) := by
  have h1 : Part.Does fobAreas p (p.setFob f ((p.fob f).accept fr now press.isSome)) :=
    .mono (p.setFob_does f (FobRec.accept_follows now hs))
  have row {q : Part} (r : Row) (h : Part.Does fobAreas p q) : Part.Does fobAreas p (q.appendRow r) := .after (q.appendRow_does r) h
  have mark {q : Part} (r : RecordId) (h : Part.Does fobAreas p q) : Part.Does fobAreas p (q.markDirty r) := .after (q.markDirty_does r) h
  unfold Part.acceptFrame
  dsimp only
  cases press
  · exact .after (Part.continueTracker_does _ _ _) (.ite (fun _ => .ite (fun _ => row _ (.ite (fun _ => row _ h1) fun _ => h1))
      fun _ => .ite (fun _ => row _ h1) fun _ => h1) fun _ => mark _ (.ite (fun _ => row _ (.ite (fun _ => row _ h1)
      fun _ => h1)) fun _ => .ite (fun _ => row _ h1) fun _ => h1))
  · exact .after (Part.pressTracker_does _ _ _ _) (.after (Part.buttonAction_does _ _ _)
      (.ite (fun _ => row _ (.ite (fun _ => row _ (.ite (fun _ => row _ h1) fun _ => h1))
      fun _ => .ite (fun _ => row _ h1) fun _ => h1)) fun _ => mark _ (row _ (.ite (fun _ => row _ (.ite (fun _ => row _ h1)
      fun _ => h1)) fun _ => .ite (fun _ => row _ h1) fun _ => h1))))

theorem Part.applyFrame_does (p : Part) {fr : Frame} (now : Nat) {v : FrameVerdict} (h : v.sound p fr) :
    Part.Does fobAreas p (p.applyFrame fr now v) := by
  cases v
  · exact .refl _ p
  · exact .mono (p.appendRow_does _)
  · refine .after (Part.appendRow_does _ _) (.mono (p.setFob_does _ fun _ => ⟨fun k hk => ?_, Iff.rfl, rfl, Nat.le_refl _⟩))
    cases hk
    exact h
  · exact p.acceptFrame_does _ fr now (some _) fun _ => h
  · exact p.acceptFrame_does _ fr now none fun e => (nomatch e)

theorem Part.serveFrame_does (p : Part) (fr : Frame) (now : Nat) : Part.Does fobAreas p (p.serveFrame fr now) :=
  p.applyFrame_does _ (p.judgeFrame_sound fr now)

abbrev changeAreas : List Area := .fobs :: .begun :: .store :: orderAreas
abbrev recordAreas : List Area := .roster :: changeAreas

theorem Part.changeFob_does (p : Part) (f : Fob) (k : Slot) {r : FobRec} (row : Row) (hr : (p.fob f).fits → r.fits) :
    Part.Does recordAreas p (p.changeFob f k r row) := by
  have hf : (p.orderTaken k).fob f = p.fob f := by simp [Part.fob]
  have h : Part.Does recordAreas p (((p.orderTaken k).setFob f { r with waits := some ⟨k, false⟩ }).appendRow row) :=
    .after (Part.appendRow_does _ _) (.after (Part.setFob_any _ _ fun g => hr (hf ▸ g)) (.mono (p.orderTaken_does k)))
  unfold Part.changeFob
  dsimp only
  refine .after (Part.markDirty_does _ _) ?_
  split
  · exact .after (Part.orderDone_does _ _ _ _ _) h
  · exact h

theorem Part.storeBlock_does (p : Part) (f : Fob) (ws : List Word) :
    Part.Does [.memory, .enrol] p (p.storeWords (enrolWord f 0) ws) := by
  have hw (i : Nat) (hi : i < 992) : Memory.readWord (p.storeWords (enrolWord f 0) ws).port.memory i =
      Memory.readWord p.port.memory i := by
    refine Memory.readWord_writeWords_ne _ _ _ ?_
    simp only [enrolWord]
    omega
  refine ⟨?_, ⟨fun t => ⟨Memory.wf_writeWords _ t.1 _, t.2⟩, id, id, id, id, id, id, id, id⟩⟩
  constructor <;> first | rfl | exact fun _ => rfl | exact fun _ => .same rfl | exact fun h => absurd (by decide) h
                        | exact fun _ _ => FobRec.same_refl _
                        | exact fun _ i h1 h2 => hw i (by omega)
                        | exact fun _ => .same (fun t => ⟨Memory.wf_writeWords _ t.1 _, t.2⟩) rfl rfl fun i h1 h2 => hw i (by omega)

theorem Part.clearBlock_does (p : Part) (f : Fob) : Part.Does [.memory, .enrol, .parity] p (p.clearBlock f) := by
  refine .after (Part.parity_does _ fun h => ?_) (.mono (p.storeBlock_does f _))
  have key : ∀ (l : List Nat) (m : Memory), Memory.wf m = true →
      Memory.wf (l.foldl (fun m j => Memory.writeByte m (enrolWord f j) 0) m) = true := by
    intro l
    induction l with
    | nil => exact fun m hm => hm
    | cons j l ih => exact fun m hm => ih _ (Memory.wf_writeByte hm _ _)
  exact key _ _ h

abbrev enrolAreas : List Area := .enrol :: recordAreas
abbrev dismissAreas : List Area := .roster :: sessionAreas

theorem FobRec.fits_restored (k : FobKeep) : (FobRec.restored k).fits := fun _ h => (nomatch h)

theorem Part.enrolOrder_does (p : Part) (k : Slot) (f : Fob) : Part.Does enrolAreas p (p.enrolOrder k f) := by
  unfold Part.enrolOrder
  dsimp only
  split
  · exact .after (Part.orderRefused_does _ _ _ _) (.mono (p.clearBlock_does f))
  · exact .after (Part.changeFob_does _ _ _ _ fun _ => FobRec.fits_restored _) (.mono (p.clearBlock_does f))

theorem Part.dismissOrder_does (p : Part) (k : Slot) (f : Fob) : Part.Does dismissAreas p (p.dismissOrder k f) := by
  unfold Part.dismissOrder
  exact .ite (fun _ => .mono (p.orderRefused_does _ _ _)) fun _ =>
    .after (Part.changeFob_does _ _ _ _ fun _ k hk => (nomatch hk)) (.mono (p.endTracker_does _ _))

theorem Part.fobOrderDone_does (p : Part) (f : Fob) (k : Slot) (o : OrderOutcome) : Part.Does orderAreas p (p.fobOrderDone f k o) :=
  p.orderDone_does ..

theorem Part.suspendOrder_does (p : Part) (k : Slot) (f : Fob) (resume : Bool) :
    Part.Does dismissAreas p (p.suspendOrder k f resume) := by
  unfold Part.suspendOrder
  dsimp only
  split
  · exact .mono (p.orderRefused_does _ _ _)
  · exact .after (Part.changeFob_does _ _ _ _ fun _ k hk => (nomatch hk)) (.mono (p.endTracker_does _ _))
  · exact .mono (p.changeFob_does _ _ _ fun g => ((p.fob f).trimmed_follows p.clock g).1)
  all_goals exact .after (Part.fobOrderDone_does _ _ _ _) (.mono (p.orderTaken_does _))

theorem Part.cancelFob_does (p : Part) (k : Slot) : Part.Does changeAreas p (p.cancelFob k) := by
  unfold Part.cancelFob
  split
  · exact .mono (p.orderDone_does _ _ _ _)
  · exact .after (Part.fobOrderDone_does _ _ _ _) (.mono (p.setFob_does _ (.same rfl (.inl rfl))))

theorem Part.tellCommitted_does (p : Part) (r : RecordId) : Part.Does changeAreas p (p.tellCommitted r) := by
  unfold Part.tellCommitted
  split
  · split
    · exact .ite (fun _ => .after (Part.fobOrderDone_does _ _ _ _) (.mono (p.setFob_does _ (.same rfl (.inl rfl))))) fun _ => .refl _ p
    · exact .refl _ p
  all_goals exact .refl _ p

theorem Part.commitEnd_does (p : Part) : Part.Does changeAreas p p.commitEnd := by
  unfold Part.commitEnd
  split
  · exact .refl _ p
  · rename_i k hk
    refine .ite (fun _ => .refl _ p) fun _ => ?_
    have h : Part.Does changeAreas p
        ({ p with store := { p.store with copies := p.store.copies.commit k.content, commit := none } } : Part) := by
      refine .mono (K := [.store]) (p.store_does (fun l => ?_) id)
      have hs := l.2.2.2 k hk
      revert hs
      cases k.content with
      | lock x =>
        intro hs
        refine ⟨fun y hy => ?_, fun y hy => l.2.1 y hy, fun y hy => by simp at hy⟩
        simp only [StoredCopies.commit, Copies.commit, Option.some.injEq] at hy
        exact hy ▸ hs
      | fob f x => exact fun _ => ⟨l.2.1, l.2.2.1, fun y hy => by simp at hy⟩
      | window c x => exact fun _ => ⟨l.2.1, l.2.2.1, fun y hy => by simp at hy⟩
    exact .ite (fun _ => .after (Part.markDirty_does _ _) (.after (Part.tellCommitted_does _ _) h))
      fun _ => .after (Part.tryCommit_does _) (.after (Part.tellCommitted_does _ _) h)

end Sys2Proof.Machine
end

