-- ==== Sys2Proof/Laws/Whole.lean ====
section
/-! SUPPORT. What the operations of the supply, the crash response, the Order Board, the inputs, the self-test and the link
can do: one lemma for each. -/

-- One theorem at a time: elaborated side by side, the lemmas take more threads than the check has memory for.
set_option deprecated.oldSectionVars true

namespace Sys2Proof.Machine

/-! ### The supply -/

abbrev supplyAreas : List Area := .supply :: openAreas

theorem Part.supply_within (p : Part) (x : Supply) : Part.Within [.supply] p { p with supply := x } := by
  constructor <;> first | rfl | exact fun _ => rfl | exact fun _ => .same rfl | exact fun _ _ _ _ => rfl
                        | exact fun h => absurd (by decide) h
                        | exact fun _ _ => FobRec.same_refl _ | exact fun _ => .same id rfl rfl fun _ _ _ => rfl

/-- A supply record of the same class. -/
theorem Part.supply_sameClass (p : Part) {x : Supply} (h : x.cls = p.supply.cls) : Part.Does [.supply] p { p with supply := x } :=
  ⟨p.supply_within x, ⟨id, id, id, fun k => by simpa [Part.unitsFit, Part.budget, h] using k, id, id, id, id, id⟩⟩

theorem Part.changeClass_does (p : Part) (cls : SupplyClass) (mv : Nat) : Part.Does supplyAreas p (p.changeClass cls mv) := by
  have h (q : Part) : Part.Does supplyAreas q
      (settle (fun q => { q with supply := { q.supply with cls := cls, candidate := none } }.meetBudget q.budget) q) :=
    settle_does (K := supplyAreas) (Part.meetBudget_after (K := [.supply]) (q.supply_within _) id id id id id id id id id)
  have h2 (row : Row) := (h (p.appendRow row)).after (.mono (K := rowAreas) (p.appendRow_does row)) (List.Subset.refl _)
  unfold Part.changeClass
  exact .ite (fun _ => .after (Part.tryCommit_does _) (.ite (fun _ => .after (Part.abortSearches_does _ _) (h2 _)) fun _ => h2 _))
    fun _ => .ite (fun _ => .after (Part.abortSearches_does _ _) (h2 _)) fun _ => h2 _

theorem Part.measure_does (p : Part) (mv : Nat) : Part.Does supplyAreas p (p.measure mv) := by
  have h : Part.Does supplyAreas p ({ p with supply := { p.supply with millivolts := mv } } : Part) :=
    .mono (K := [.supply]) (p.supply_sameClass rfl)
  unfold Part.measure
  dsimp only
  refine .ite (fun _ => ?_) fun _ => .ite (fun _ => ?_) fun _ => .ite (fun _ => .after (Part.changeClass_does _ _ _) h) fun _ => ?_
  all_goals exact .mono (K := [.supply]) (p.supply_sameClass rfl)

/-! ### The crash response -/

abbrev crashAreas : List Area := .crash :: .doors :: .fobs :: stopAreas

theorem Part.crashDoors_does (p : Part) : Part.Does lockAreas p p.crashDoors := by
  have h : Part.Does lockAreas p (((p.setLocks fun _ => .unlocked).setChildLocks .released .released).setDoors
      { ((p.setLocks fun _ => .unlocked).setChildLocks .released .released).doors with
        relock := none
        press := none
        settling := ((p.setLocks fun _ => .unlocked).setChildLocks .released .released).doors.settling.map
          (fun _ => (⟨allDoors, true, true⟩ : Settling)) }) := by
    refine .mono (K := [.doors]) (p.setDoors_does (fun _ e => ?_) fun _ _ => ⟨fun e => ?_, rfl, rfl, fun t ht => ?_⟩)
    · refine DoorRec.fits_unlocked _ ?_
      cases e <;> rfl
    · cases e <;> rfl
    · simp only [Option.map_eq_some_iff] at ht
      obtain ⟨y, -, rfl⟩ := ht
      rfl
  unfold Part.crashDoors
  exact .ite (fun _ => .after (Part.markDirty_does _ _) h) fun _ => h

/-- The doors after the controller's part of a crash event. -/
theorem Part.crashDoors_doors (p : Part) : (∀ e, (p.crashDoors.door e) = { p.door e with lock := .unlocked }) ∧
    p.crashDoors.doors.childRL = .released ∧ p.crashDoors.doors.childRR = .released ∧ p.crashDoors.doors.relock = none ∧
    p.crashDoors.doors.press = none ∧ (∀ t, p.crashDoors.doors.settling = some t → t = ⟨allDoors, true, true⟩) ∧
    p.crashDoors.doors.driveAway = p.doors.driveAway ∧ p.crashDoors.doors.vehicle = p.doors.vehicle ∧
    p.crashDoors.doors.ign = p.doors.ign := by
  have h (q : Part) : (if (anyDoor p.crashDoorChanges || p.crashChildChanges) = true then q.markDirty .lock else q).doors = q.doors := by
    split
    · simp
    · rfl
  unfold Part.crashDoors Part.door
  dsimp only
  rw [h]
  refine ⟨fun e => ?_, rfl, rfl, rfl, rfl, fun t ht => ?_, rfl, rfl, rfl⟩
  · cases e <;> rfl
  · simp only [Part.setDoors_fields, Option.map_eq_some_iff] at ht
    obtain ⟨y, -, rfl⟩ := ht
    rfl

/-- No close under way and none waiting at a window. -/
def WindowRec.noClose (w : WindowRec) : Prop := w.motion ≠ .closing ∧ ∀ y, w.pending = some y → y.cmd.dir = .opening

theorem WindowRec.noClose_position {w w' : WindowRec} (h : w.sameButPosition w') (k : w.noClose) : w'.noClose := by
  have h1 := congrArg WindowRec.motion h
  have h2 := congrArg WindowRec.pending h
  exact ⟨fun hm => k.1 (h1 ▸ hm), fun y hy => k.2 y (by rw [← hy, h2])⟩

theorem Part.windowCrash_window (p : Part) (c x : Corner) : (x ≠ c → (p.windowCrash c).window x = p.window x) ∧
    ((p.windowCrash c).window c).noClose := by
  have hq (m : Part) (hm : ∀ y, m.window y = p.window y) :
      (x ≠ c → (if (m.window c).motion = .closing then m.stopAndTell c .crash false else m).window x = p.window x) ∧
        (((if (m.window c).motion = .closing then m.stopAndTell c .crash false else m).window c).motion ≠ .closing) := by
    split
    · refine ⟨fun hx => ((m.stopAndTell_window c x .crash false).2 hx).trans (hm x), ?_⟩
      have h := (m.stopAndTell_window c c .crash false).1
      rw [if_pos rfl] at h
      have h2 : _ = Motion.stopped := congrArg WindowRec.motion h
      rw [h2]
      decide
    · exact ⟨fun _ => hm x, by assumption⟩
  replace hq := hq (p.markLearn c) fun _ => rfl
  unfold Part.windowCrash
  dsimp only
  generalize (if ((p.markLearn c).window c).motion = .closing then (p.markLearn c).stopAndTell c .crash false
    else p.markLearn c) = q at hq ⊢
  cases hp : (q.window c).pending with
  | none => exact ⟨hq.1, hq.2, fun y hy => by rw [hp] at hy; cases hy⟩
  | some pend =>
    dsimp only
    split
    · refine ⟨fun hx => ((q.withdrawPending_window c x .crash .crash false).2 hx).trans (hq.1 hx), ?_⟩
      refine WindowRec.noClose_position (q.withdrawPending_window c c .crash .crash false).1 ?_
      rw [if_pos rfl]
      exact ⟨hq.2, fun y hy => by cases hy⟩
    · rename_i hd
      refine ⟨hq.1, hq.2, fun y hy => ?_⟩
      rw [hp] at hy
      cases hy
      cases hy : pend.cmd.dir
      · rfl
      · exact absurd hy hd

/-- After every window has met the crash event none closes or waits to. -/
theorem Part.eachCorner_crash (p : Part) (x : Corner) : ((p.eachCorner Part.windowCrash).window x).noClose := by
  simp only [Part.eachCorner, Corner.all, List.foldl_cons, List.foldl_nil]
  have ne := fun (q : Part) (c : Corner) (h : x ≠ c) => (q.windowCrash_window c x).1 h
  have own := fun (q : Part) (c : Corner) => (q.windowCrash_window c c).2
  cases x
  · rw [ne _ _ (by decide), ne _ _ (by decide), ne _ _ (by decide)]
    exact own _ _
  · rw [ne _ _ (by decide), ne _ _ (by decide)]
    exact own _ _
  · rw [ne _ _ (by decide)]
    exact own _ _
  · exact own _ _

/-- The crash event brings about the crash latch's law, outside the power-on DRIVERS stage (R169). -/
theorem Part.crashEvent_safe (p : Part) (h : p.state ≠ .start .full .drivers) : p.crashEvent.crashSafe := by
  unfold Part.crashEvent
  dsimp only
  refine (Part.eachFob_does _ Part.crashTracker_does).crashLaw ((Part.crashOperation_does _).crashLaw ?_)
  generalize hq : Part.appendRow _ _ = q
  have hs : q.state = p.state := by rw [← hq]; simp
  have hw := (Part.eachCorner_does q.crashDoors Part.windowCrash_does)
  have hd : (q.crashDoors.eachCorner Part.windowCrash).doors = q.crashDoors.doors := hw.doors (by decide)
  obtain ⟨d1, d2, d3, d4, d5, d6, d7⟩ := q.crashDoors_doors
  refine ⟨fun _ => ⟨fun e => ?_, by rw [hd, d2], by rw [hd, d3], fun c => (Part.eachCorner_crash _ c).1⟩,
    fun _ => ⟨fun c => (Part.eachCorner_crash _ c).2, fun t ht => d6 t (by rw [← hd]; exact ht), ?_⟩⟩
  · have := d1 e
    simp only [Part.door] at this ⊢
    rw [hd, this]
  · rw [hw.state (by decide), (q.crashDoors_does).state (by decide), hs]
    exact h

theorem Part.crash_within (p : Part) (x : Crash) : Part.Within [.crash] p { p with crash := x } := by
  constructor <;> first | rfl | exact fun _ => rfl | exact fun _ => .same rfl | exact fun _ _ _ _ => rfl
                        | exact fun h => absurd (by decide) h
                        | exact fun _ _ => FobRec.same_refl _ | exact fun _ => .same id rfl rfl fun _ _ _ => rfl

/-- The crash event, outside the power-on DRIVERS stage. -/
theorem Part.crashEvent_does (p : Part) (h : p.state ≠ .start .full .drivers) : Part.Does crashAreas p p.crashEvent := by
  have k : Part.Does crashAreas { p with crash := { p.crash with latch := some p.nextLatch } } p.crashEvent := by
    unfold Part.crashEvent
    dsimp only
    exact .after (Part.eachFob_does _ Part.crashTracker_does) (.after (Part.crashOperation_does _)
      (.after (Part.eachCorner_does _ Part.windowCrash_does) (.after (Part.crashDoors_does _) (.mono (Part.appendRow_does _ _)))))
  exact ⟨(p.crash_within _).trans k.toWithin (by decide) (by decide), ⟨k.tidyLaw, k.doorsLaw, fun _ => p.crashEvent_safe h,
    k.unitsLaw, k.searchesLaw, k.dirtyLaw, k.grantsLaw, k.candidatesLaw, k.entriesLaw⟩⟩

theorem Part.markAssertion_does (p : Part) : Part.Does [.crash] p p.markAssertion := p.setAssertion_does _

theorem Part.rereadCrash_does (p : Part) (h : p.state ≠ .start .full .drivers) : Part.Does crashAreas p p.rereadCrash := by
  unfold Part.rereadCrash
  refine .ite (fun _ => .mono (p.setAssertion_does _)) fun _ => ?_
  split
  · exact .mono (p.setAssertion_does _)
  · exact .ite (fun _ => .after (Part.crashEvent_does _ h) (.mono p.markAssertion_does)) fun _ => .refl _ p

/-- A cleared crash latch keeps every law. -/
theorem Part.clearLatch_does (p : Part) : Part.Does [.crash] p { p with crash := { p.crash with latch := none } } :=
  ⟨p.crash_within _, ⟨id, id, fun _ => ⟨fun h => by simp [Part.crashSet] at h, fun h => by simp [Part.crashSet] at h⟩, id, id, id, id, id, id⟩⟩

theorem Part.releaseCrash_does (p : Part) (k : Slot) : Part.Does (.crash :: orderAreas) p (p.releaseCrash k) := by
  unfold Part.releaseCrash
  dsimp only
  split
  · exact .mono (p.orderDone_does _ _ _ _)
  · rename_i l _
    have h2 : Part.Does (.crash :: orderAreas) p (({ p with crash := { p.crash with latch := none } } : Part).appendRow (latchClearedRow l)) :=
      .after (Part.appendRow_does _ _) (.mono p.clearLatch_does)
    exact .ite (fun _ => .mono (p.orderRefused_does _ _ _)) fun _ => .after (Part.orderDone_does _ _ _ _ _)
      (.after (Part.orderTaken_does _ _) (.ite (fun _ => .after (Part.setAssertion_does _ _) h2) fun _ => h2))

/-! ### The configuration -/

abbrev adoptAreas : List Area := .check :: .cfg :: .supply :: releaseAreas

theorem Part.adopt_does (p : Part) : Part.Does adoptAreas p p.adopt := by
  have w : Part.Within [.check, .cfg, .supply] p
      { p with check := .passed, cfg := p.page, supply := { p.supply with candidate := none } } := by
    constructor <;> first | rfl | exact fun _ => rfl | exact fun _ => .same rfl | exact fun _ _ _ _ => rfl
                          | exact fun h => absurd (by decide) h
                          | exact fun _ _ => FobRec.same_refl _ | exact fun _ => .same id rfl rfl fun _ _ _ => rfl
  have k := Part.eachCorner_does { p with check := .passed, cfg := p.page, supply := { p.supply with candidate := none } }
    Part.judgeThermal_does
  exact Part.meetBudget_after (w.trans (M := adoptAreas) k.toWithin (by decide) (by decide)) k.tidyLaw k.doorsLaw k.crashLaw
    k.searchesLaw k.dirtyLaw (fun h => by rw [k.holders (by decide)]; exact h) k.grantsLaw k.candidatesLaw k.entriesLaw

theorem Part.reconfigure_does (p : Part) (k : Slot) : Part.Does adoptAreas p (p.reconfigure k) := by
  unfold Part.reconfigure
  refine .ite (fun _ => ?_) fun _ => .mono (p.orderRefused_does _ _ _)
  split
  · exact .after (Part.orderRefused_does _ _ _ _) (.mono (K := [.check]) (p.check_does _))
  · exact .after (Part.orderDone_does _ _ _ _ _) (.after (Part.adopt_does _) (.mono (p.orderTaken_does _)))

/-! ### Orders -/

/-- What an order can do, but for the roster, which only the fob orders change. -/
abbrev calmAreas : List Area := [.check, .doors, .latches, .windows, .lockout, .spent, .monitors, .holders, .waiting, .locator,
  .fobs, .begun, .operation, .supply, .crash, .memory, .board, .rows, .enrol, .parity, .heads, .scroll, .store, .cfg]
abbrev takeAreas : List Area := .roster :: calmAreas

theorem Part.lockoutOrder_does (p : Part) (k : Slot) (on : Bool) : Part.Does takeAreas p (p.lockoutOrder k on) := by
  have h : Part.Does takeAreas p (p.orderTaken k) := .mono (p.orderTaken_does k)
  exact .after (Part.orderDone_does _ _ _ _ _) (.ite (fun _ => h) fun _ => .after (Part.changeLockout_does _ _ _) h)

abbrev doorOrderAreas : List Area := .board :: .parity :: .heads :: lockAreas

theorem Part.lockDoorsOrder_does (p : Part) (k : Slot) (a : LockAction) (who : PerDoor Bool) :
    Part.Does doorOrderAreas p (p.lockDoorsOrder k a who) := by
  unfold Part.lockDoorsOrder
  exact .ite (fun _ => .mono (p.orderRefused_does _ _ _)) fun _ => .after (Part.orderDone_does _ _ _ _ _)
    (.after (Part.lockAction_does _ _ _ _) (.mono (p.orderTaken_does _)))

theorem Part.childLockOrder_does (p : Part) (k : Slot) (rl rr : Bool) (child : ChildLock) :
    Part.Does doorOrderAreas p (p.childLockOrder k rl rr child) := by
  unfold Part.childLockOrder
  refine .ite (fun _ => .mono (p.orderRefused_does _ _ _)) fun hn => .after (Part.orderDone_does _ _ _ _ _)
    (.after (Part.changeChildLocks_does _ _ fun hl hs => ?_) (.mono (p.orderTaken_does k)))
  have h1 : p.crashSet = true := by rw [← (p.orderTaken_does k).crashSet]; exact hs
  have hc : child = .released := by
    cases child
    · rfl
    · exact absurd ⟨rfl, h1⟩ hn
  obtain ⟨-, h2, h3, -⟩ := hl.1 hs
  simp only [Part.orderTaken_fields] at h2 h3
  rw [hc, h2, h3]
  simp

theorem Part.locateOrder_does (p : Part) (k : Slot) (set : PerAntenna Bool) : Part.Does takeAreas p (p.locateOrder k set) :=
  .mono (p.searchRequest_does _ _)

theorem Part.serveOrder_does (p : Part) (k : Slot) (o : Order) : Part.Does takeAreas p (p.serveOrder k o) := by
  cases o
  · exact .mono (p.lockDoorsOrder_does _ _ _)
  · exact .mono (p.childLockOrder_does _ _ _ _)
  · exact .mono (p.releaseOrder_does _ _)
  · exact .mono (p.moveOrder_does _ _ _)
  · exact p.lockoutOrder_does _ _
  · exact .mono (p.learnOrder_does _ _)
  · exact p.locateOrder_does _ _
  · exact .mono (p.enrolOrder_does _ _)
  · exact .mono (p.dismissOrder_does _ _)
  · exact .mono (p.suspendOrder_does _ _ _)
  · exact .mono (p.combinedOrder_does _ _)
  · exact .mono (p.releaseCrash_does _)
  · exact .mono (p.reconfigure_does _)

theorem Part.takeOrder_does (p : Part) (k : Slot) : Part.Does takeAreas p (p.takeOrder k) := by
  have h (r : OrderRefusal) : Part.Does takeAreas p (p.orderRefused k r) := .mono (p.orderRefused_does _ _ _)
  unfold Part.takeOrder
  split
  · exact h _
  · refine .ite (fun _ => h _) fun _ => .ite (fun _ => h _) fun _ => .ite (fun _ => h _) fun _ => ?_
    split
    · exact h _
    · exact p.serveOrder_does _ _

theorem Part.takePosted_does (p : Part) : Part.Does takeAreas p p.takePosted :=
  Part.Does.foldl (fun q k => .ite (fun _ => settle_does (q.takeOrder_does k)) fun _ => .refl _ q) _ p

/-- In SAFE-HOLD the orders POSTED are refused (R190). -/
theorem Part.takePosted_refuses (p : Part) (h : p.inSafeHold = true) : Part.Does calmAreas p p.takePosted := by
  have one (q : Part) (k : Slot) (hq : q.inSafeHold = true) : Part.Does calmAreas q
      (if (q.head k).state = .posted then settle (·.takeOrder k) q else q) := by
    have r (x : OrderRefusal) : Part.Does calmAreas q (q.orderRefused k x) := .mono (q.orderRefused_does _ _ _)
    refine .ite (fun _ => settle_does (K := calmAreas) (f := (·.takeOrder k)) ?_) fun _ => .refl _ q
    unfold Part.takeOrder
    split
    · exact r _
    · exact .ite (fun _ => r _) fun _ => .ite (fun _ => r _) fun hn => absurd hq hn
  have all : ∀ (l : List Slot) (q : Part), q.inSafeHold = true → Part.Does calmAreas q
      (l.foldl (fun q s => if (q.head s).state = .posted then settle (·.takeOrder s) q else q) q) := by
    intro l
    induction l with
    | nil => exact fun q _ => .refl _ q
    | cons k l ih =>
      intro q hq
      refine (one q k hq).andThen (ih _ ?_) (List.Subset.refl _)
      simpa [Part.inSafeHold, (one q k hq).state (by decide)] using hq
  exact all _ p h

theorem Part.cancelOrder_does (p : Part) (k : Slot) : Part.Does calmAreas p (p.cancelOrder k) := by
  unfold Part.cancelOrder
  split
  · exact .mono (p.cancelRelease_does _)
  · exact .mono (p.cancelMove_does _)
  · exact .mono (p.cancelMove_does _)
  · exact .mono (p.cancelLocate_does _)
  · exact .mono (p.cancelFob_does _)
  · exact .mono (p.cancelFob_does _)
  · exact .mono (p.cancelFob_does _)
  · exact .mono (p.cancelOperation_does _)
  · exact .mono (p.cancelOperation_does _)
  · exact .mono (p.cancelOperation_does _)
  · exact .mono (p.orderDone_does _ _ _ _)

/-! ### SERVICE, DOZE, SAFE-HOLD -/

abbrev serviceAreas : List Area := .state :: .dwell :: takeAreas

theorem Part.activity_does (p : Part) : Part.Does [.dwell] p p.activity :=
  .ite (fun _ => p.startDwell_does) fun _ => .refl _ p

theorem Part.spendHeld_does (p : Part) (but : List Input) : Part.Does [.spent] p (p.spendHeld but) :=
  Part.Does.foldl (fun q _ => .ite (fun _ => .refl _ q) fun _ => markSpent_does _ _ _) _ p

theorem Part.enterService_does (p : Part) : Part.Does serviceAreas p p.enterService := by
  unfold Part.enterService
  exact .after (Part.takePosted_does _) (.after (Part.spendHeld_does _ _) (.after (Part.startDwell_does _)
    (.after (Part.appendRow_does _ _) (.after (Part.setState_does _ fun _ => by decide) (settle_does (Part.adopt_does p))))))

theorem Part.startWrite_does (p : Part) : Part.Does serviceAreas p p.startWrite := by
  unfold Part.startWrite
  refine .ite (fun _ => ?_) fun _ => .refl _ p
  split
  · exact .after (Part.appendRow_does _ _) (.mono (K := [.check]) (p.check_does _))
  · exact p.enterService_does

abbrev dozeAreas : List Area := .state :: .dwell :: .listen :: .monitors :: rowAreas

theorem Part.dwellExpiry_does (p : Part) : Part.Does dozeAreas p p.dwellExpiry := by
  have h : Part.Does dozeAreas p (((p.eachCorner Part.endWatch).setState .doze).appendRow dozeEnteredRow) :=
    .after (Part.appendRow_does _ _) (.after (Part.setState_does _ fun _ => by decide)
      (.mono (p.eachCorner_does fun q c => q.endWatch_does c)))
  unfold Part.dwellExpiry
  exact .ite (fun _ => .ite (fun _ => .after (Part.listen_does _ _) (.after (Part.dwell_does _ none) h))
    fun _ => .mono p.startDwell_does) fun _ => .refl _ p

theorem Part.listenWindow_does (p : Part) : Part.Does [.listen] p p.listenWindow := by
  unfold Part.listenWindow
  split
  · exact .refl _ p
  · exact .ite (fun _ => p.listen_does _) fun _ => .refl _ p

theorem Part.safeHoldBlocks_does (p : Part) (h : p.inSafeHold = true) : Part.Does calmAreas p p.safeHoldBlocks := by
  unfold Part.safeHoldBlocks
  have b : Part.Does calmAreas p (((settle (fun q => (q.eachCorner Part.windowSafeHold).safeHoldOperation)
      (p.setDoors { p.doors with relock := none, press := none })).abortSearches .safeHold).eachFob Part.resetTracker) :=
    .after (Part.eachFob_does _ Part.resetTracker_does) (.after (Part.abortSearches_does _ _)
      (.after (settle_does (K := calmAreas) (M := calmAreas) (f := fun q => (q.eachCorner Part.windowSafeHold).safeHoldOperation)
        (.after (Part.safeHoldOperation_does _) (.mono (Part.eachCorner_does _ Part.windowSafeHold_does))))
        (.mono (p.setDoors_sameLocks rfl rfl rfl rfl))))
  refine .after (Part.takePosted_refuses _ ?_) b
  have e : _ = p.state := b.state (by decide)
  rw [Part.inSafeHold, e]
  exact h

/-! ### Inputs -/

abbrev deliverAreas : List Area := .lockout :: .spent :: openAreas

theorem Part.tailgatePress_does (p : Part) : Part.Does deliverAreas p p.tailgatePress := by
  unfold Part.tailgatePress
  split
  · exact .mono (p.releaseRequest_does _ _ _)
  · exact .refl _ p
  all_goals exact .ite (fun _ => .mono (p.searchRequest_does _ _)) fun _ => .mono (p.appendRow_does _)

theorem Part.outerPull_does (p : Part) (c : Corner) : Part.Does releaseAreas p (p.outerPull c) := by
  unfold Part.outerPull
  exact .ite (fun _ => .mono (p.setDoor_sameLock _ rfl rfl)) fun _ => p.outerRequest_does _

theorem Part.outerTouch_does (p : Part) (c : Corner) : Part.Does searchAreas p (p.outerTouch c) := by
  unfold Part.outerTouch
  exact .ite (fun _ => p.searchRequest_does _ _) fun _ => .refl _ p

theorem Part.rockerMove_does (p : Part) (old new : Level) : Part.Does lockAreas p (p.rockerMove old new) := by
  unfold Part.rockerMove
  exact .ite (fun _ => p.lockAction_does _ _ _) fun _ => .ite (fun _ => p.lockAction_does _ _ _) fun _ => .refl _ p

theorem Part.deliver_does (p : Part) (i : Input) (old new : Level) : Part.Does deliverAreas p (p.deliver i old new) := by
  unfold Part.deliver
  refine .ite (fun _ => .refl _ p) fun _ => ?_
  split
  · exact .mono (p.deliverAjar_does _ _)
  · exact .mono (p.outerPull_does _)
  · exact p.tailgatePress_does
  · exact .mono (p.innerPull_does _)
  · exact .mono (p.outerTouch_does _)
  · exact .mono (p.searchRequest_does _ _)
  · exact .mono (p.switchStage_does _ _ _)
  · exact .mono (p.rockerMove_does _ _)
  · exact .mono p.childToggle_does
  · exact .mono (p.changeLockout_does _ _)
  · exact .mono (p.ignEvent_does _)
  · exact .refl _ p

abbrev eventAreas : List Area := .dwell :: .waking :: deliverAreas

theorem Part.requestWake_does (p : Part) (c : WakeCause) : Part.Does [.waking] p (p.requestWake c) := by
  unfold Part.requestWake
  split
  · exact .refl _ p
  · exact p.waking_does _

theorem Part.holdEvent_does (p : Part) (e : HeldEvent) : Part.Does [.waking] p (p.holdEvent e) := p.waking_does _

theorem Part.dozeEvent_does (p : Part) (i : Input) (old new : Level) : Part.Does eventAreas p (p.dozeEvent i old new) := by
  unfold Part.dozeEvent
  refine .ite (fun _ => .mono (p.holdEvent_does _)) fun _ => ?_
  split
  · exact .mono (p.deliver_does _ _ _)
  · exact .ite (fun _ => .refl _ p) fun _ => .ite (fun _ => .mono (p.deliver_does _ _ _)) fun _ =>
      .ite (fun _ => .after (Part.holdEvent_does _ _) (.mono (p.requestWake_does _))) fun _ => .refl _ p

theorem Part.serviceEvent_does (p : Part) (i : Input) (old new : Level) : Part.Does eventAreas p (p.serviceEvent i old new) := by
  have h : Part.Does eventAreas p (settle (·.deliver i old new) p) := settle_does (p.deliver_does i old new)
  exact .ite (fun _ => .after (Part.activity_does _) h) fun _ => h

theorem Part.takeEvent_does (p : Part) (i : Input) (old new : Level) : Part.Does eventAreas p (p.takeEvent i old new) := by
  have h : Part.Does eventAreas p (settle (·.deliver i old new) p) := settle_does (p.deliver_does i old new)
  unfold Part.takeEvent
  split
  · exact .refl _ p
  · exact .ite (fun _ => h) fun _ => .refl _ p
  · exact .ite (fun _ => h) fun _ => .refl _ p
  · exact p.serviceEvent_does _ _ _
  · exact settle_does (p.dozeEvent_does i old new)
  · exact .ite (fun _ => h) fun _ => .refl _ p

abbrev inputAreas : List Area := .inputs :: eventAreas

theorem Part.rawChange_does (p : Part) (i : Input) (l : Level) : Part.Does [.inputs] p (p.rawChange i l) :=
  .ite (fun _ => p.setInput_does _ _) fun _ => .refl _ p

theorem Part.debounced_does (p : Part) (i : Input) (l : Level) : Part.Does inputAreas p (p.debounced i l) := by
  have h (x : InputRec) : Part.Does inputAreas p (p.setInput i x) := .mono (p.setInput_does i x)
  let g (q : Part) : Part := match (generalizing := false) i with
    | .switch sw => if l = .rest then markSpent q sw false else q
    | _ => q
  have hg (q : Part) : Part.Does [.spent] q (g q) := by
    cases i <;> first
      | exact .refl _ _
      | exact .ite (fun _ => .mono (markSpent_does _ _ _)) fun _ => .refl _ _
  have u {q : Part} (h : Part.Does inputAreas p q) : Part.Does inputAreas p (g q) := .after (hg q) h
  unfold Part.debounced
  refine .ite (fun _ => ?_) fun _ => .refl _ p
  exact .ite (fun _ => u (h _)) fun _ =>
    .ite (fun _ => u (.ite (fun _ => .after (Part.appendRow_does _ _) (h _)) fun _ => h _)) fun _ =>
      u (.after (Part.takeEvent_does _ _ _ _) (h _))

theorem Part.stuckExpiry_does (p : Part) (i : Input) : Part.Does inputAreas p (p.stuckExpiry i) := by
  unfold Part.stuckExpiry
  refine .ite (fun _ => ?_) fun _ => .refl _ p
  have h (x : InputRec) (r : Row) : Part.Does inputAreas p ((p.setInput i x).appendRow r) :=
    .after (Part.appendRow_does _ _) (.mono (p.setInput_does i x))
  have d (x : InputRec) (r : Row) (a b : Level) :
      Part.Does inputAreas p (settle (·.deliver i a b) ((p.setInput i x).appendRow r)) :=
    .after (settle_does (M := inputAreas) (Part.deliver_does _ i a b)) (h x r) (List.Subset.refl _)
  dsimp only
  split
  · exact h _ _
  · exact .ite (fun _ => d _ _ _ _) fun _ => h _ _
  · exact .ite (fun _ => d _ _ _ _) fun _ => h _ _
  · exact d _ _ _ _
  · exact .after (settle_does (M := inputAreas) (Part.dozeEvent_does _ i _ _)) (h _ _) (List.Subset.refl _)
  · exact .ite (fun _ => d _ _ _ _) fun _ => h _ _

theorem Part.crashLine_does (p : Part) (on : Bool) : Part.Does [.inputs, .crash, .waking, .dwell] p (p.crashLine on) := by
  have h (x : InputRec) (a : Option Assertion) : Part.Does [.inputs, .crash, .waking, .dwell] p ((p.setInput .crash x).setAssertion a) :=
    .after (Part.setAssertion_does _ _) (.mono (p.setInput_does _ _))
  unfold Part.crashLine
  exact .ite (fun _ => .refl _ p) fun _ => .ite (fun _ => .mono (p.setInput_does _ _)) fun _ =>
    .after (Part.activity_does _) (.ite (fun _ => .after (Part.requestWake_does _ _) (h _ _)) fun _ => h _ _)

theorem Part.crashExpiry_does (p : Part) : Part.Does (.latches :: .waking :: crashAreas) p p.crashExpiry := by
  unfold Part.crashExpiry
  refine .ite (fun hd => .ite (fun _ => ?_) fun _ => ?_) fun _ => .refl _ p
  · exact .after (Part.waking_does _ _) (.after (Part.requestWake_does _ _) (.mono p.markAssertion_does))
  · refine settle_does (K := crashAreas) (.after (Part.crashEvent_does _ fun hs => ?_) (.mono p.markAssertion_does))
    have : p.state = .start .full .drivers := hs
    simp [Part.doorService, this] at hd

abbrev heardAreas : List Area := .dwell :: .waking :: fobAreas

theorem Part.frameHeard_does (p : Part) (fr : Frame) : Part.Does heardAreas p (p.frameHeard fr) := by
  unfold Part.frameHeard
  split
  · exact .ite (fun _ => .refl _ p) fun _ => .after (Part.activity_does _) (settle_does (p.serveFrame_does fr _))
  · refine .ite (fun _ => ?_) fun _ => .refl _ p
    split
    · exact .refl _ p
    · exact .mono (p.applyFrame_does _ trivial)
    · rename_i hv
      exact .after (Part.requestWake_does _ _) (.mono (p.applyFrame_does _ (hv ▸ p.judgeFrame_sound fr p.clock)))
    · exact .after (Part.holdEvent_does _ _) (.mono (p.requestWake_does _))
    · exact .after (Part.holdEvent_does _ _) (.mono (p.requestWake_does _))
  all_goals exact .refl _ p

end Sys2Proof.Machine
end

