-- ==== Sys2Proof/Laws/Commands.lean ====
section
/-! SUPPORT. What the self-test, the resets, the link and each command can do: one lemma for each. -/

-- One theorem at a time: elaborated side by side, the lemmas take more threads than the check has memory for.
set_option deprecated.oldSectionVars true

namespace Sys2Proof.Machine

/-! ### Laws that hold under a condition -/

/-- `Does`, with the crash latch's law kept where `C` holds. -/
structure Part.DoesIf (C : Prop) (K : List Area) (p q : Part) : Prop extends Part.Within K p q where
  tidyLaw : p.tidy → q.tidy
  doorsLaw : p.doorsFit → q.doorsFit
  crashLaw : C → p.crashSafe → q.crashSafe
  unitsLaw : p.unitsFit → q.unitsFit
  searchesLaw : p.searchesFit → q.searchesFit
  dirtyLaw : p.dirtyFits → q.dirtyFits
  grantsLaw : p.grantsFit → q.grantsFit
  candidatesLaw : p.candidatesFit → q.candidatesFit
  entriesLaw : p.entriesFit → q.entriesFit

theorem Part.Does.when {K : List Area} {p q : Part} (h : Part.Does K p q) (C : Prop) : Part.DoesIf C K p q :=
  ⟨h.toWithin, h.tidyLaw, h.doorsLaw, fun _ => h.crashLaw, h.unitsLaw, h.searchesLaw, h.dirtyLaw, h.grantsLaw,
    h.candidatesLaw, h.entriesLaw⟩

theorem Part.DoesIf.does {C : Prop} {K : List Area} {p q : Part} (h : Part.DoesIf C K p q) (hc : p.crashSafe → C) :
    Part.Does K p q :=
  ⟨h.toWithin, ⟨h.tidyLaw, h.doorsLaw, fun k => h.crashLaw (hc k) k, h.unitsLaw, h.searchesLaw, h.dirtyLaw,
    h.grantsLaw, h.candidatesLaw, h.entriesLaw⟩⟩

theorem Part.DoesIf.trans {C : Prop} {K L M : List Area} {p q r : Part} (h : Part.DoesIf C K p q) (k : Part.DoesIf C L q r)
    (hk : K ⊆ M := by decide) (hl : L ⊆ M := by decide) : Part.DoesIf C M p r :=
  ⟨h.toWithin.trans k.toWithin hk hl, k.tidyLaw ∘ h.tidyLaw, k.doorsLaw ∘ h.doorsLaw,
    fun c => k.crashLaw c ∘ h.crashLaw c, k.unitsLaw ∘ h.unitsLaw, k.searchesLaw ∘ h.searchesLaw, k.dirtyLaw ∘ h.dirtyLaw,
    k.grantsLaw ∘ h.grantsLaw, k.candidatesLaw ∘ h.candidatesLaw, k.entriesLaw ∘ h.entriesLaw⟩

theorem Part.DoesIf.mono {C : Prop} {K L : List Area} {p q : Part} (h : Part.DoesIf C K p q) (hk : K ⊆ L := by decide) :
    Part.DoesIf C L p q := h.trans ((Part.Does.refl L q).when C) hk (List.Subset.refl L)

/-- The last operation first. -/
theorem Part.Does.afterIf {C : Prop} {L M : List Area} {p q r : Part} (k : Part.Does L q r) (h : Part.DoesIf C M p q)
    (hl : L ⊆ M := by decide) : Part.DoesIf C M p r := h.trans (k.when C) (List.Subset.refl M) hl

/-! ### Door service begins -/

theorem Part.eachDoor_does {K : List Area} (p : Part) {f : Part → Door → Part} (h : ∀ q d, Part.Does K q (f q d)) :
    Part.Does K p (p.eachDoor f) := Part.Does.foldl h _ p

theorem Part.adoptLevels_does (p : Part) : Part.Does [.inputs] p p.adoptLevels := p.inputs_does _

theorem Part.firstSamples_does (p : Part) : Part.DoesIf (p.crashSet = false) [.inputs, .doors, .spent] p p.firstSamples := by
  have h : Part.Does [.inputs, .doors, .spent] p p.adoptLevels := .mono p.adoptLevels_does
  refine Part.Does.afterIf (Part.spendHeld_does _ _) ((h.when _).trans (L := [.doors]) ?_ (List.Subset.refl _))
  refine ⟨(Part.setDoors_within _ _), id, fun hd => ⟨fun e => ?_, hd.2⟩, fun hc hs => ?_, id, id, id, id, id, id⟩
  · simp only [Part.beginDoorService, Part.setDoors_door, PerDoor.get_build]
    cases (if (p.adoptLevels.input (.ajar e)).level = .rest then Ajar.isClosed else .isOpen) <;> simp [DoorRec.fits]
  · exact (p.adoptLevels.beginDoorService_does _ _ fun _ => hc).crashLaw hs

theorem Part.rereadAjar_does (p : Part) (d : Door) : Part.Does openAreas p (p.rereadAjar d) :=
  .ite (fun _ => .refl _ p) fun _ => settle_does (p.deliverAjar_does d _)

theorem Part.rereadInner_does (p : Part) (c : Corner) : Part.Does releaseAreas p (p.rereadInner c) :=
  .ite (fun _ => settle_does (p.innerPull_does c)) fun _ => .refl _ p

abbrev sampleAreas : List Area := .inputs :: .spent :: openAreas
abbrev beginAreas : List Area := .crash :: .fobs :: sampleAreas

theorem Part.readInputs_does (p : Part) (test : SelfTest) :
    Part.DoesIf (test = .full → p.crashSet = false) sampleAreas p (p.readInputs test) := by
  cases test
  · have d := p.firstSamples_does.mono (L := sampleAreas)
    exact ⟨d.toWithin, d.tidyLaw, d.doorsLaw, fun c => d.crashLaw (c rfl), d.unitsLaw, d.searchesLaw, d.dirtyLaw, d.grantsLaw,
      d.candidatesLaw, d.entriesLaw⟩
  · have d : Part.Does openAreas p (p.readInputs .short) := p.eachDoor_does Part.rereadAjar_does
    exact d.mono.when _

theorem Part.beginService_does (p : Part) (test : SelfTest) (h : p.state ≠ .start .full .drivers) :
    Part.DoesIf (test = .full → p.crashSet = false) beginAreas p (p.beginService test) := by
  have h1 := p.readInputs_does test
  unfold Part.beginService
  generalize p.readInputs test = q at h1 ⊢
  have h2 := Part.Does.afterIf (settle_does (M := sampleAreas) q.relockExpiry_does) h1 (List.Subset.refl _)
  dsimp only
  generalize settle Part.relockExpiry q = r at h2 ⊢
  have h3 := Part.Does.afterIf (r.eachCorner_does Part.rereadInner_does) h2
  generalize r.eachCorner Part.rereadInner = x at h3 ⊢
  have hx : x.state ≠ .start .full .drivers := by rw [h3.state (by decide)]; exact h
  exact Part.Does.afterIf (settle_does (M := beginAreas) (x.rereadCrash_does hx)) h3.mono (List.Subset.refl _)

/-! ### SAFE-HOLD and the stages -/

abbrev modeAreas : List Area := [.state, .dwell, .waking, .listen]
abbrev holdAreas : List Area := .inputs :: modeAreas ++ calmAreas
abbrev wakeAreas : List Area := .roster :: holdAreas

theorem Part.mode_does (p : Part) {x : PartState} (d : Option Nat) (w : Option Waking) (l : Option Listen)
    (h : p.crashSet = true → x ≠ .start .full .drivers) :
    Part.Does modeAreas p { p with state := x, dwell := d, waking := w, listen := l } := by
  refine ⟨?_, ⟨id, id, fun k => ⟨k.1, fun hc => ⟨(k.2 hc).1, (k.2 hc).2.1, h hc⟩⟩, id, id, id, id, id, id⟩⟩
  constructor <;> first | rfl | exact fun _ => rfl | exact fun _ => .same rfl | exact fun _ _ _ _ => rfl
                        | exact fun h => absurd (by decide) h
                        | exact fun _ _ => FobRec.same_refl _ | exact fun _ => .same id rfl rfl fun _ _ _ => rfl

theorem Part.classify_within (p : Part) : Part.Within [.supply] p p.classify := p.supply_within _

theorem Part.judgeClass_does (p : Part) (test : SelfTest) : Part.Does (.supply :: releaseAreas) p (p.judgeClass test) := by
  cases test
  · exact Part.meetBudget_after (Part.classify_within _) id id id id id id id id id
  · exact .refl _ p

/-- The part that enters SAFE-HOLD from `p`, once its door service has begun. -/
theorem Part.leaveDrivers_does {p q : Part} (h0 : Part.Does holdAreas p q) (hs : q.state ≠ .start .full .drivers)
    (hc : q.crashSet = p.crashSet) :
    Part.Does holdAreas p (q.leaveDrivers p.state) ∧ (q.leaveDrivers p.state).state = q.state := by
  unfold Part.leaveDrivers
  split
  · rename_i test ht
    have j := q.judgeClass_does test
    have hj : (q.judgeClass test).state = q.state := j.state (by decide)
    have b := (q.judgeClass test).beginService_does test (hj ▸ hs)
    refine ⟨(((Part.Does.after j h0).when (test = .full → (q.judgeClass test).crashSet = false)).trans b
      (List.Subset.refl _)).does ?_, (b.state (by decide)).trans hj⟩
    rintro hp rfl
    rw [j.toWithin.crashSet, hc]
    cases hset : p.crashSet
    · rfl
    · exact absurd ht (hp.2 hset).2.2
  · exact ⟨h0, rfl⟩

theorem Part.overtaken_does (p : Part) (e : HeldEvent) : Part.Does holdAreas p (p.overtaken e) := by
  cases e
  · exact .mono (p.takeEvent_does _ _ _)
  · exact .refl _ p

theorem Part.overtakeWake_does (p : Part) (w : Option Waking) (h : p.state ≠ .start .full .drivers) :
    Part.Does holdAreas p (p.overtakeWake w) := by
  cases w with
  | none => exact .refl _ p
  | some w =>
    exact (Part.Does.ite (fun _ => settle_does (M := holdAreas) (p.crashEvent_does h)) fun _ => .refl _ p).andThen
      (Part.Does.foldl Part.overtaken_does _ _) (List.Subset.refl _)

theorem Part.enterSafeHold_does (p : Part) (code : HoldCode) : Part.Does holdAreas p (p.enterSafeHold code) := by
  have hne : PartState.safeHold code ≠ .start .full .drivers := fun h => by cases h
  unfold Part.enterSafeHold
  refine .ite (fun _ => .refl _ p) fun _ => ?_
  have h0 := p.mode_does (x := .safeHold code) none none none fun _ => hne
  have hs : ({ p with state := .safeHold code, dwell := none, waking := none, listen := none } : Part).state = .safeHold code := rfl
  have hc : ({ p with state := .safeHold code, dwell := none, waking := none, listen := none } : Part).crashSet = p.crashSet := rfl
  dsimp only
  generalize ({ p with state := .safeHold code, dwell := none, waking := none, listen := none } : Part) = q at h0 hs hc ⊢
  have hb := Part.leaveDrivers_does h0.mono (hs ▸ hne) hc
  generalize q.leaveDrivers p.state = r at hb ⊢
  have h2 : Part.Does holdAreas p (if r.port.served then r.appendRow (safeHoldEnteredRow code) else r) ∧
      (if r.port.served then r.appendRow (safeHoldEnteredRow code) else r).state = .safeHold code := by
    split
    · exact ⟨.after (Part.appendRow_does _ _) hb.1, ((Part.appendRow_does _ _).state (by decide)).trans (hb.2.trans hs)⟩
    · exact ⟨hb.1, hb.2.trans hs⟩
  generalize (if r.port.served then r.appendRow (safeHoldEnteredRow code) else r) = x at h2 ⊢
  have h3 := x.safeHoldBlocks_does (by rw [Part.inSafeHold, h2.2])
  have hx : x.safeHoldBlocks.state ≠ .start .full .drivers := by
    rw [h3.state (by decide), h2.2]
    exact hne
  have h4 : Part.Does holdAreas p x.safeHoldBlocks := .after h3 h2.1
  exact .after (Part.overtakeWake_does _ _ hx) h4 (List.Subset.refl _)

theorem Part.judgeDrivers_does (p : Part) (found : DriversFindings) : Part.Does [.degraded, .doors] p (p.judgeDrivers found) := by
  refine .after (Part.setDoors_does _ (fun h e => ?_) fun h hs => ⟨fun e => ?_, (h.1 hs).2.1, (h.1 hs).2.2.1, (h.2 hs).2.1⟩)
    (.mono (p.degraded_does _))
  · simp only [PerDoor.get_build]
    split
    · exact h e
    · exact h e
  · simp only [PerDoor.get_build]
    split
    · exact (h.1 hs).1 e
    · exact (h.1 hs).1 e

abbrev judgeAreas : List Area := .degraded :: .supply :: releaseAreas
abbrev driversAreas : List Area := .degraded :: holdAreas

theorem Part.driversEnd_does (p : Part) (found : DriversFindings) : Part.Does driversAreas p (p.driversEnd found) := by
  unfold Part.driversEnd
  split
  case h_2 => exact .refl _ p
  rename_i test ht
  have h1 : Part.Does judgeAreas p ((p.judgeDrivers found).judgeClass test) :=
    .after (Part.judgeClass_does _ _) (.mono (p.judgeDrivers_does found))
  dsimp only
  generalize (p.judgeDrivers found).judgeClass test = q at h1 ⊢
  have hs : PartState.start test test.afterDrivers ≠ .start .full .drivers := by
    cases test <;> exact fun h => by cases h
  generalize PartState.start test test.afterDrivers = x at hs ⊢
  have h2 : Part.Does driversAreas p (q.setState x) := .after (q.setState_does fun _ => hs) h1.mono
  have h3 : Part.Does driversAreas p ((q.setState x).beginService test) := by
    refine ((h2.when _).trans ((q.setState x).beginService_does test hs) (List.Subset.refl _)).does ?_
    rintro hc rfl
    show q.crashSet = false
    rw [h1.toWithin.crashSet]
    cases hset : p.crashSet
    · rfl
    · exact absurd ht (hc.2 hset).2.2
  exact .ite (fun _ => .after (Part.enterSafeHold_does _ _) h3) fun _ => h3

theorem Part.stage_does (p : Part) (x : Degraded) {st : PartState} (h : st ≠ .start .full .drivers) :
    Part.Does [.degraded, .state] p { p with degraded := x, state := st } := by
  refine ⟨?_, ⟨id, id, fun k => ⟨k.1, fun hc => ⟨(k.2 hc).1, (k.2 hc).2.1, h⟩⟩, id, id, id, id, id, id⟩⟩
  constructor <;> first | rfl | exact fun _ => rfl | exact fun _ => .same rfl | exact fun _ _ _ _ => rfl
                        | exact fun h => absurd (by decide) h
                        | exact fun _ _ => FobRec.same_refl _ | exact fun _ => .same id rfl rfl fun _ _ _ => rfl

theorem Part.inputsEnd_does (p : Part) (found : InputsFindings) : Part.Does [.degraded, .state] p (p.inputsEnd found) := by
  unfold Part.inputsEnd
  split
  · exact p.stage_does _ (by decide)
  · exact .refl _ p

theorem Part.antennasEnd_does (p : Part) (x : PerAntenna Bool) : Part.Does [.degraded, .state] p (p.antennasEnd x) := by
  unfold Part.antennasEnd
  split
  · exact p.stage_does _ (fun h => by cases h)
  · exact .refl _ p

theorem Part.receiverEnd_does (p : Part) (faulty : Bool) : Part.Does (.degraded :: .state :: rowAreas) p (p.receiverEnd faulty) := by
  have h (x : Degraded) : Part.Does (.degraded :: .state :: rowAreas) p { p with degraded := x, state := .held } :=
    .mono (p.stage_does x (by decide))
  unfold Part.receiverEnd
  split
  · exact .ite (fun _ => h _) fun _ => .after (Part.appendRow_does _ _) (h _)
  · exact .refl _ p

theorem Part.timeBase_end_does (p : Part) (us : Nat) : Part.Does (.timeBase :: holdAreas) p (p.timeBase us) := by
  have h (b : Bool) : Part.Does (.timeBase :: holdAreas) p { p with timeBaseBad := b } := .mono (p.timeBase_does b)
  unfold Part.timeBase
  exact .ite (fun _ => .after (Part.enterSafeHold_does _ _) (h _)) fun _ => h _

/-- What the words and heads of a burst can change, and with the rows given back, what a reset can. -/
abbrev linkAreas : List Area := .enrol :: .misuse :: .page :: .parity :: .portRest :: holdAreas
abbrev writeAreas : List Area := .roster :: linkAreas
abbrev resetAreas : List Area := .reports :: linkAreas
abbrev anyAreas : List Area := .reports :: writeAreas

theorem Part.memoryEnd_does (p : Part) (fault : Bool) : Part.Does resetAreas p (p.memoryEnd fault) := by
  unfold Part.memoryEnd
  split
  case h_2 => exact .refl _ p
  refine .ite (fun _ => .mono (p.enterSafeHold_does _)) fun _ => .after (Part.writeGap_does _) ?_
  refine ⟨?_, ⟨fun t => ⟨rfl, rfl, t.2.2⟩, id,
    fun k => ⟨k.1, fun hc => ⟨(k.2 hc).1, (k.2 hc).2.1, fun h => by cases h⟩⟩, id, id, id, id, id, id⟩⟩
  constructor <;> first | rfl | exact fun _ => rfl | exact fun _ => .same rfl | exact fun _ _ _ _ => rfl
                        | exact fun h => absurd (by decide) h

/-- The MEMORY stage leaves every slot FREE, or enters SAFE-HOLD, or is not the part's stage. -/
theorem Part.memoryEnd_split (p : Part) (fault : Bool) :
    Part.Does holdAreas p (p.memoryEnd fault) ∨ (p.memoryEnd fault).heads = Vector.replicate 16 .free := by
  unfold Part.memoryEnd
  split
  · split
    · exact .inl (p.enterSafeHold_does _)
    · exact .inr ((Part.writeGap_does _).heads (by decide))
  · exact .inl (.refl _ p)

/-! ### The STORE stage -/

theorem Copies.read_storable {c : Copies LockKeep} (h1 : ∀ k, c.newer = some k → k.storable)
    (h2 : ∀ k, c.older = some k → k.storable) (a b : Bool) (k : LockKeep) (h : c.read a b = some k) : k.storable := by
  obtain ⟨n, o⟩ := c
  cases a <;> cases b <;> cases n <;> simp_all [Copies.read]

abbrev storeAreas : List Area := [.doors, .lockout, .windows, .fobs, .begun, .store, .memory, .rows, .scroll, .roster]

theorem Part.adoptRecord_does (p : Part) (f : StoreFindings) (r : RecordId) : Part.Does storeAreas p (p.adoptRecord f r) := by
  cases r
  · exact .mono (p.setFob_any _ fun _ => FobRec.fits_restored _)
  · refine .mono (p.deliverLocks_does fun hd => ?_)
    cases hk : p.readLock f
    · intro d
      cases d <;> decide
    · exact Copies.read_storable hd.2.1 hd.2.2.1 _ _ _ hk
  · exact .mono (p.setWindow_does _)

theorem Part.deliverRecord_does (f : StoreFindings) (p : Part) (r : RecordId) : Part.Does storeAreas p (p.deliverRecord f r) :=
  .ite (fun _ => .after (Part.appendRow_does _ _) (.after (Part.markDirty_does _ _) (p.adoptRecord_does f r)))
    fun _ => p.adoptRecord_does f r

theorem Part.eachRecord_does {K : List Area} (p : Part) {f : Part → RecordId → Part} (h : ∀ q r, Part.Does K q (f q r)) :
    Part.Does K p (p.eachRecord f) := Part.Does.foldl h _ p

abbrev storeEndAreas : List Area := .degraded :: wakeAreas

theorem Part.judgeStore_does (p : Part) (bad : PerRecord Bool) : Part.Does [.degraded, .store] p (p.judgeStore bad) :=
  .after (Part.store_does { p with degraded := { p.degraded with records := bad } } (fun k => k.2) id) (.mono (p.degraded_does _))

theorem Part.openStore_does (p : Part) : Part.Does markAreas p p.openStore :=
  .after (Part.tryCommit_does _) (.mono (p.store_does (fun k => k.2) id))

theorem Part.takeRecords_does (p : Part) (f : StoreFindings) (bad : PerRecord Bool) (test : SelfTest) :
    Part.Does storeAreas p (p.takeRecords f bad test) := by
  cases test
  · exact p.eachRecord_does (Part.deliverRecord_does f)
  · exact .mono (p.eachRecord_does (K := markAreas) fun q r => .ite (fun _ => q.markDirty_does r) fun _ => .refl _ q)

theorem Part.storeEnd_does (p : Part) (f : StoreFindings) : Part.Does storeEndAreas p (p.storeEnd f) := by
  have h : Part.Does storeEndAreas p (p.judgeStore (p.badRecords f)) := .mono (p.judgeStore_does _)
  unfold Part.storeEnd
  split
  · exact .ite (fun _ => .after (Part.enterSafeHold_does _ _) h) fun _ => .after (Part.openStore_does _)
      (.after (Part.takeRecords_does _ _ _ _) (.after (Part.setState_does _ fun _ h => by cases h) h))
  · exact .refl _ p

/-! ### Resets -/

/-- A power-on reset meets every law but that of the store's doors by itself. -/
theorem Part.powerOn_keeps (p : Part) (strap : Strap) : Part.Keeps p (p.powerOn strap) := by
  have hd (e : Door) : ((p.powerOn strap).door e) = .fresh := by cases e <;> rfl
  have hc : (p.powerOn strap).crashSet = false := rfl
  refine ⟨fun _ => ⟨rfl, rfl, Nat.zero_lt_succ _, Nat.zero_le _⟩, fun h => ⟨fun e => ?_, h.2.1, h.2.2.1, ?_⟩,
    fun _ => ⟨fun h => by simp [hc] at h, fun h => by simp [hc] at h⟩, fun _ => Nat.zero_le _,
    fun _ => ⟨Nat.zero_le _, List.Pairwise.nil⟩, fun _ => List.nodup_nil,
    fun _ => ⟨fun c hm => absurd (by cases c <;> rfl) hm, fun _ hh => (List.not_mem_nil hh).elim, fun _ hh => (List.not_mem_nil hh).elim⟩,
    fun _ f k hk => absurd hk (by cases f <;> exact fun h => by cases h),
    fun _ c => Part.dormant_fits (fun o ho => by cases ho) fun h => absurd (by cases c <;> rfl) h⟩
  · rw [hd e]
    exact ⟨by decide, by decide⟩
  · intro k hk
    cases hk

theorem Memory.readWord_keep {lo hi i : Nat} (m : Memory) (h1 : lo ≤ 4 * i) (h2 : 4 * i + 3 < hi) :
    (Memory.keep m lo hi).readWord i = m.readWord i := by
  have h (k : Nat) (hk : k < 4) : (Memory.keep m lo hi).readByte (4 * i + k) = m.readByte (4 * i + k) :=
    Memory.readByte_filter _ (fun v => by simp only [decide_eq_true_eq]; omega) m
  unfold Memory.readWord
  rw [h 3 (by omega), h 2 (by omega), h 1 (by omega), show 4 * i = 4 * i + 0 from rfl, h 0 (by omega)]

/-- A port reset leaves the Configuration Page's words. -/
theorem Part.portResetMemory_does (p : Part) :
    Part.Does [.memory, .board, .rows, .enrol, .parity, .misuse, .portRest, .heads, .scroll, .reports] p p.portResetMemory := by
  have hw (i : Nat) (h1 : 272 ≤ i) (h2 : i < 352) :
      Memory.readWord p.portResetMemory.port.memory i = Memory.readWord p.port.memory i :=
    Memory.readWord_keep _ (by omega) (by omega)
  refine ⟨?_, ⟨fun t => ⟨Memory.wf_keep t.1 _ _, Memory.wf_keep t.2.1 _ _, Nat.zero_lt_succ _, Nat.zero_le _⟩,
    id, id, id, id, id, id, id, id⟩⟩
  constructor <;> first | rfl | exact fun _ => rfl | exact fun _ => .same rfl | exact fun h => absurd (by decide) h
                        | exact fun _ _ => FobRec.same_refl _ | exact fun _ i h1 h2 => hw i h1 h2

/-- The WINDOW entries leave once every window stands. -/
theorem Part.dropWindows_does (p : Part) (hs : ∀ c, (p.window c).motion = .stopped) :
    Part.Does [.holders, .waiting] p p.dropWindows :=
  p.setLists_does (fun h => (plainUnits_filter_le _ _).trans h) fun k => ⟨fun c hc => absurd (hs c) hc,
    fun h hh => k.2.1 h (List.mem_filter.1 hh).1, fun w hw => k.2.2 w (List.mem_filter.1 hw).1⟩

theorem Part.windowPortReset_motion (p : Part) (c x : Corner) :
    ((p.windowPortReset c).window x).motion = if x = c then .stopped else (p.window x).motion := by
  have h1 (q : Part) : ((q.resetLearn c).window x).motion = (q.window x).motion := by
    unfold Part.resetLearn
    split
    · rfl
    · rename_i l _
      have e (y : Corner) : (q.closeLearn c l none none).window y = q.window y :=
        congrArg (fun v : PerCorner WindowRec => v.get y) ((q.closeLearn_does c l none none).windows (by decide))
      rw [Part.clampPosition_window, e, e]
      split
      · subst_vars
        rfl
      · rfl
  have h2 (q : Part) : ((q.dropPending c).window x).motion = (q.window x).motion := by
    simp only [Part.dropPending, Part.dropWaiter, Part.setLists_fields, Part.setWindow_window]
    split
    · subst_vars
      rfl
    · rfl
  have h3 (y : Corner) : (p.endWatch c).window y = p.window y :=
    congrArg (fun v : PerCorner WindowRec => v.get y) ((p.endWatch_does c).windows (by decide))
  unfold Part.windowPortReset
  dsimp only
  rw [h2, h1]
  split
  · rw [Part.stopWindow_window, h3, h3]
    split <;> rfl
  · rename_i hd
    rw [h3]
    rw [h3] at hd
    split
    · subst_vars
      simpa [WindowRec.driven] using hd
    · rfl

/-- After a port reset every window stands. -/
theorem Part.eachCorner_portReset (p : Part) (x : Corner) : ((p.eachCorner Part.windowPortReset).window x).motion = .stopped := by
  simp only [Part.eachCorner, Corner.all, List.foldl_cons, List.foldl_nil, Part.windowPortReset_motion]
  cases x <;> rfl

theorem Part.forgetOrders_does (p : Part) : Part.Does [.latches, .fobs, .begun, .operation] p p.forgetOrders := by
  have c : Part.Counts p p.forgetOrders := ⟨fun f => by cases f <;> exact .same rfl (.inl rfl)⟩
  refine ⟨?_, ⟨id, id, id, id, id, id, id, c.fit, fun k c => Part.dormant_fits (fun o ho => by cases ho) (k c).1⟩⟩
  constructor <;> first | rfl | exact fun _ => rfl | exact fun _ => c | exact fun _ _ _ _ => rfl | exact fun h => absurd (by decide) h
                        | exact fun _ => .same id rfl rfl fun _ _ _ => rfl

theorem Part.restart_does (p : Part) : Part.Does (.check :: modeAreas) p p.restart := by
  refine ⟨?_, ⟨id, id, fun k => ⟨k.1, fun hc => ⟨(k.2 hc).1, (k.2 hc).2.1, fun h => by cases h⟩⟩, id, id, id, id, id, id⟩⟩
  constructor <;> first | rfl | exact fun _ => rfl | exact fun _ => .same rfl | exact fun _ _ _ _ => rfl
                        | exact fun h => absurd (by decide) h
                        | exact fun _ _ => FobRec.same_refl _ | exact fun _ => .same id rfl rfl fun _ _ _ => rfl

theorem Part.portResetWindows_acts (p : Part) : Part.Acts (.holders :: .waiting :: startAreas) p (p.eachCorner Part.windowPortReset) := by
  unfold Part.eachCorner
  generalize Corner.all = l
  induction l generalizing p with
  | nil => exact (Part.Does.refl _ p).acts
  | cons c l ih => exact (ih _).after (p.windowPortReset_acts c) (List.Subset.refl _)

theorem Part.portResetBlocks_does (p : Part) : Part.Does resetAreas p p.portResetBlocks := by
  have m : Part.Acts resetAreas p p.portResetMemory := .mono p.portResetMemory_does.acts
  have hs := p.portResetMemory.eachCorner_portReset
  have w := Part.Acts.after p.portResetMemory.portResetWindows_acts m
  unfold Part.portResetBlocks
  dsimp only
  generalize p.portResetMemory.eachCorner Part.windowPortReset = q at hs w ⊢
  have d := Part.Acts.after (q.dropWindows_does hs).acts w
  have t := q.dropWindows.eachFob_does Part.resetTracker_does
  have e : q.dropWindows.windows = q.windows := rfl
  generalize q.dropWindows = x at d t e ⊢
  have s := (x.eachFob Part.resetTracker).discardSearches_does
  have y := Part.Acts.after s.acts (.after t.acts d)
  have f := (s.windows (by decide)).trans ((t.windows (by decide)).trans e)
  generalize (x.eachFob Part.resetTracker).discardSearches = z at y f ⊢
  refine Part.Acts.keeping (.after z.forgetOrders.restart_does.acts (.after z.forgetOrders_does.acts y)) fun _ c => ?_
  refine Part.dormant_fits (fun o ho => by cases ho) fun _ => ?_
  have : z.forgetOrders.restart.window c = q.window c := congrArg (fun v : PerCorner WindowRec => v.get c) f
  rw [this]
  exact hs c

/-- A port reset leaves every slot FREE. -/
theorem Part.portReset_heads (p : Part) : p.portReset.heads = Vector.replicate 16 .free := by
  have h (q : Part) : (q.restart.heads = q.heads) ∧ q.forgetOrders.heads = q.heads ∧ q.discardSearches.heads = q.heads ∧
      (q.eachFob Part.resetTracker).heads = q.heads ∧ q.dropWindows.heads = q.heads ∧
      (q.eachCorner Part.windowPortReset).heads = q.heads ∧ q.grantFromHead.heads = q.heads :=
    ⟨rfl, rfl, q.discardSearches_does.heads (by decide), (q.eachFob_does Part.resetTracker_does).heads (by decide), rfl,
      q.portResetWindows_acts.heads (by decide), q.grantFromHead_does.heads (by decide)⟩
  have e : p.portResetBlocks.heads = Vector.replicate 16 .free := by
    unfold Part.portResetBlocks
    dsimp only
    rw [(h _).1, (h _).2.1, (h _).2.2.1, (h _).2.2.2.1, (h _).2.2.2.2.1, (h _).2.2.2.2.2.1]
    rfl
  unfold Part.portReset settle
  dsimp only
  split
  · exact e
  · rw [(h _).2.2.2.2.2.2, e]

theorem Part.portReset_does (p : Part) : Part.Does resetAreas p p.portReset :=
  settle_does (K := resetAreas) p.portResetBlocks_does (List.Subset.refl _)

theorem Part.portResetWrite_does (p : Part) : Part.Does resetAreas p p.portResetWrite := by
  unfold Part.portResetWrite
  split
  · exact .refl _ p
  · exact p.portReset_does
  · exact p.portReset_does
  · exact .ite (fun _ => p.portReset_does) fun _ => .refl _ p
  · exact .after (Part.waking_does _ _) (.mono (p.requestWake_does _))

/-! ### The end of a wake -/

theorem Part.serveHeld_does (p : Part) (e : HeldEvent) : Part.Does wakeAreas p (p.serveHeld e) := by
  cases e
  · exact .mono (p.serviceEvent_does _ _ _)
  · exact .after (Part.activity_does _) (settle_does (M := wakeAreas) (p.serveFrame_does _ _))

/-- A wake serves what it held; where it held a port reset, that reset follows. -/
theorem Part.wake_split (p : Part) : ∃ q, Part.Does wakeAreas p q ∧ (p.wake = q ∨ p.wake = q.portReset) := by
  unfold Part.wake
  split
  case h_2 => exact ⟨p, .refl _ p, .inl rfl⟩
  rename_i w _ _
  dsimp only
  have h1 : Part.Does wakeAreas p
      ((({ p with state := .service, waking := none, listen := none } : Part).appendRow
        (wokeRow p.driverDoor w.cause)).startDwell.spendHeld (w.held.filterMap HeldEvent.input?)) ∧
      ((({ p with state := .service, waking := none, listen := none } : Part).appendRow
        (wokeRow p.driverDoor w.cause)).startDwell.spendHeld (w.held.filterMap HeldEvent.input?)).state = .service := by
    have a : Part.Does wakeAreas p { p with state := .service, waking := none, listen := none } :=
      .mono (p.mode_does p.dwell none none fun _ => by decide)
    have b := Part.appendRow_does ({ p with state := .service, waking := none, listen := none } : Part)
      (wokeRow p.driverDoor w.cause)
    have c := Part.startDwell_does (Part.appendRow { p with state := .service, waking := none, listen := none }
      (wokeRow p.driverDoor w.cause))
    have d := Part.spendHeld_does (Part.appendRow { p with state := .service, waking := none, listen := none }
      (wokeRow p.driverDoor w.cause)).startDwell (w.held.filterMap HeldEvent.input?)
    exact ⟨.after d (.after c (.after b a)), (d.state (by decide)).trans ((c.state (by decide)).trans (b.state (by decide)))⟩
  generalize ((({ p with state := .service, waking := none, listen := none } : Part).appendRow
      (wokeRow p.driverDoor w.cause)).startDwell.spendHeld (w.held.filterMap HeldEvent.input?)) = q at h1 ⊢
  have h2 : Part.Does wakeAreas p (if w.crashHeld then settle Part.crashEvent q else q) :=
    .ite (fun _ => .after (settle_does (M := wakeAreas) (q.crashEvent_does (by rw [h1.2]; exact fun h => by cases h))) h1.1
      (List.Subset.refl _)) fun _ => h1.1
  have h3 := Part.Does.after (Part.takePosted_does _) (Part.Does.after (Part.Does.foldl Part.serveHeld_does w.held _) h2)
  refine ⟨_, h3, ?_⟩
  split
  · exact .inr rfl
  · exact .inl rfl

theorem Part.wake_does (p : Part) : Part.Does anyAreas p p.wake := by
  obtain ⟨q, h, e | e⟩ := p.wake_split
  · rw [e]
    exact .mono h
  · rw [e]
    exact .after q.portReset_does (.mono h)

/-! ### The link -/

theorem Part.burstTaken_does (p : Part) (c : WakeCause) : Part.Does [.waking, .dwell] p (p.burstTaken c) :=
  .ite (fun _ => .mono (p.requestWake_does c)) fun _ => .mono p.activity_does

theorem Scroll.givenBack_start {s : Scroll} {v k : Nat} (h : s.givenBack v = some k) : v < 128 := by
  unfold Scroll.givenBack at h
  split at h
  · cases h
  · omega

theorem Part.scrollWrite_does (p : Part) (v : Nat) : Part.Does (.reports :: .misuse :: rowAreas) p (p.scrollWrite v) := by
  unfold Part.scrollWrite
  split
  · exact .mono p.setMisuse_does
  · rename_i k hk
    have hv := Scroll.givenBack_start hk
    refine .after (Part.writeGap_does _) ?_
    refine ⟨?_, ⟨fun t => ⟨t.1, t.2.1, hv, (Nat.sub_le _ _).trans t.2.2.2⟩, id, id, id, id, id, id, id, id⟩⟩
    constructor <;> first | rfl | exact fun _ => rfl | exact fun _ => .same rfl | exact fun _ _ _ _ => rfl
                          | exact fun h => absurd (by decide) h
                          | exact fun _ _ => FobRec.same_refl _

theorem Part.portRest_does (p : Part) (served : Bool) (pointer : BitVec 10) (mask word : Word) :
    Part.Does [.portRest] p { p with port := { p.port with
      served := served
      pointer := pointer
      mask := mask
      vehicleWord := word } } := by
  refine ⟨?_, ⟨id, id, id, id, id, id, id, id, id⟩⟩
  constructor <;> first | rfl | exact fun _ => rfl | exact fun _ => .same rfl | exact fun _ _ _ _ => rfl
                        | exact fun h => absurd (by decide) h
                        | exact fun _ _ => FobRec.same_refl _ | exact fun _ => .same id rfl rfl fun _ _ _ => rfl

theorem Part.misuse_does (p : Part) (b : Bool) : Part.Does [.misuse] p { p with port := { p.port with misuse := b } } := by
  refine ⟨?_, ⟨id, id, id, id, id, id, id, id, id⟩⟩
  constructor <;> first | rfl | exact fun _ => rfl | exact fun _ => .same rfl | exact fun _ _ _ _ => rfl
                        | exact fun h => absurd (by decide) h
                        | exact fun _ _ => FobRec.same_refl _ | exact fun _ => .same id rfl rfl fun _ _ _ => rfl

theorem Part.vehicleWordWrite_does (p : Part) (v : Word) : Part.Does (.misuse :: .portRest :: lockAreas) p (p.vehicleWordWrite v) := by
  unfold Part.vehicleWordWrite
  split
  · exact .mono p.setMisuse_does
  · exact .ite (fun _ => .after (Part.vehicleWrite_does _ _) (.mono (p.portRest_does _ _ _ v))) fun _ => .refl _ p

/-- A host word stored in the Configuration Page, in a slot, or in an Enrolment Page block. -/
theorem Part.storeHost_does (p : Part) (i : Nat) (w : HostWord) (hi : i < 480 ∨ 992 ≤ i) :
    Part.Does [.memory, .page, .board, .enrol, .parity] p (p.storeHost i w) := by
  refine .after (Part.parity_does _ fun h => Memory.wf_writeByte h _ _) ?_
  refine ⟨?_, ⟨fun t => ⟨Memory.wf_writeWords _ t.1 _, t.2⟩, id, id, id, id, id, id, id, id⟩⟩
  have hw (j : Nat) (hj : j ≠ i) : Memory.readWord (p.storeWords i [w.value]).port.memory j = Memory.readWord p.port.memory j :=
    Memory.readWord_writeWords_ne _ _ _ (by simp only [List.length_singleton]; omega)
  constructor <;> first | rfl | exact fun _ => rfl | exact fun _ => .same rfl | exact fun h => absurd (by decide) h
                        | exact fun _ _ => FobRec.same_refl _
                        | exact fun _ j h1 h2 => hw j (by omega)
                        | exact fun _ => .same (fun t => ⟨Memory.wf_writeWords _ t.1 _, t.2⟩) rfl rfl fun j h1 h2 => hw j (by omega)

theorem Part.hostWrite_does (p : Part) {i : Nat} (w : HostWord) (h : i ≠ 256) : Part.Does writeAreas p (p.hostWrite i w) := by
  have m : Part.Does writeAreas p p.setMisuse := .mono p.setMisuse_does
  unfold Part.hostWrite
  refine .ite (fun _ => m) fun _ => .ite (fun e => absurd e h) fun _ =>
    .ite (fun _ => .mono (p.portRest_does _ _ w.value _)) fun _ => .ite (fun _ => .mono (p.vehicleWordWrite_does _)) fun _ =>
    .ite (fun _ => .ite (fun _ => .mono p.startWrite_does) fun _ => .refl _ p) fun _ => .ite (fun _ => .refl _ p) fun _ =>
    .ite (fun _ => .mono (p.storeHost_does i w (by omega))) fun _ => .ite (fun _ => .ite (fun _ => .refl _ p) fun _ =>
      .ite (fun _ => .mono (p.storeHost_does i w (by omega))) fun _ => m) fun _ => .ite (fun _ => m) fun _ =>
    .ite (fun _ => .refl _ p) fun _ => .mono (p.storeHost_does i w (by omega))

theorem Part.post_does (p : Part) (k : Slot) (w : HostWord) : Part.Does takeAreas p (p.post k w) := by
  have h {x : Head} (hn : x.ended = false) (b : Byte) : Part.Does takeAreas p { p.setHead k x with port := { p.port with
      parity := Memory.writeByte p.port.parity (slotWord k 0) b } } :=
    .after (Part.parity_does (p.setHead k x) fun h => Memory.wf_writeByte h _ _) (.mono (p.setHead_does k hn))
  unfold Part.post
  exact .ite (fun _ => .after (Part.takeOrder_does _ _) (h rfl _)) fun _ => h rfl _

theorem Part.headWrite_does (p : Part) (k : Slot) (w : HostWord) : Part.Does (.misuse :: takeAreas) p (p.headWrite k w) := by
  unfold Part.headWrite
  dsimp only
  split
  · exact .mono (p.post_does k w)
  · exact .after (Part.cancelOrder_does _ _) (.mono (p.setHead_does _ rfl))
  · exact .mono (p.setHead_does _ rfl)
  · exact .mono (p.setHead_does _ rfl)
  · exact .ite (fun _ => .mono (p.setHead_does _ rfl)) fun _ => .mono p.setMisuse_does
  · exact .mono p.setMisuse_does

theorem Part.burstHead_does (p : Part) (x : Nat × HostWord) : Part.Does writeAreas p (p.burstHead x) :=
  .ite (fun _ => settle_does (K := .misuse :: takeAreas) (p.headWrite_does _ _)) fun _ => .refl _ p

/-- Words none of which is SCROLL START. -/
theorem Part.hostWords_does : ∀ (words : List (Nat × HostWord)) (p : Part), (∀ x ∈ words, x.1 ≠ 256) →
    Part.Does writeAreas p (words.foldl (fun q x => settle (·.hostWrite x.1 x.2) q) p)
  | [], p, _ => .refl _ p
  | x :: words, p, h => (settle_does (M := writeAreas) (f := (·.hostWrite x.1 x.2))
      (p.hostWrite_does x.2 (h x List.mem_cons_self)) (List.Subset.refl _)).andThen
      (Part.hostWords_does words _ fun y hy => h y (List.mem_cons_of_mem _ hy)) (List.Subset.refl _)

abbrev giveBackAreas : List Area := .reports :: .misuse :: grantAreas

theorem Part.scrollWord_does (p : Part) (w : HostWord) : Part.Does giveBackAreas p (settle (·.hostWrite 256 w) p) :=
  settle_does (K := .reports :: .misuse :: rowAreas) (M := giveBackAreas) (f := (·.hostWrite 256 w))
    (p.scrollWrite_does w.value.toNat)

/-- Of a burst's words only the first can be SCROLL START. -/
theorem burstWords_split (start : Nat) (ws : List HostWord) :
    (∀ x ∈ burstWords start ws, x.1 ≠ 256) ∨
      ∃ w rest, burstWords start ws = (256, w) :: rest ∧ ∀ x ∈ rest, x.1 ≠ 256 := by
  by_cases hs : start = 256
  · subst hs
    cases ws with
    | nil => exact .inl (by simp [burstWords])
    | cons w ws =>
      have hb : burstWords 256 (w :: ws) = (256, w) :: (ws.mapIdx fun k w => (256 + (k + 1), w)).filter fun x =>
          decide (x.1 < areaEnd 256) := by
        rw [burstWords, List.mapIdx_cons, List.filter_cons_of_pos (by simp [areaEnd])]
      refine .inr ⟨w, _, hb, fun x hx => ?_⟩
      · simp only [List.mem_filter, List.mem_mapIdx] at hx
        obtain ⟨⟨i, -, rfl⟩, -⟩ := hx
        simp only
        omega
  · refine .inl fun x hx => ?_
    simp only [burstWords, List.mem_filter, List.mem_mapIdx, decide_eq_true_eq] at hx
    obtain ⟨⟨i, _, hi⟩, hy⟩ := hx
    have hi := congrArg Prod.fst hi
    simp only at hi
    by_cases h : start < 256
    · simp only [areaEnd, h, if_true] at hy
      omega
    · omega

/-- A burst gives rows back first, if at all, with no head changed; what follows gives none back. -/
theorem Part.takeWords_split (p : Part) (start : Nat) (ws : List HostWord) :
    ∃ q, Part.Does giveBackAreas p q ∧ Part.Does writeAreas q (p.takeWords (burstWords start ws)) := by
  have h (q : Part) (words all : List (Nat × HostWord)) (hw : ∀ x ∈ words, x.1 ≠ 256) : Part.Does writeAreas q
      (all.foldl Part.burstHead (words.foldl (fun q x => settle (·.hostWrite x.1 x.2) q) q)) :=
    (q.hostWords_does words hw).andThen (Part.Does.foldl Part.burstHead_does _ _) (List.Subset.refl _)
  unfold Part.takeWords
  split
  · rcases burstWords_split start ws with hb | ⟨w, rest, hb, hr⟩
    · exact ⟨p, .refl _ p, h p _ _ hb⟩
    · refine ⟨_, p.scrollWord_does w, ?_⟩
      rw [hb]
      exact h _ rest ((256, w) :: rest) hr
  · exact ⟨p, .refl _ p, .refl _ p⟩

theorem Part.takeWords_does (p : Part) (start : Nat) (ws : List HostWord) :
    Part.Does anyAreas p (p.takeWords (burstWords start ws)) :=
  have ⟨_, h, k⟩ := p.takeWords_split start ws
  h.trans k

theorem Part.writeBurst_does (p : Part) (start : BitVec 10) (ws : List HostWord) :
    Part.Does anyAreas p (p.writeBurst start ws) := .after (Part.portRest_does _ _ _ _ _) (p.takeWords_does _ _)

theorem Part.memoryWrite_does (p : Part) (start : BitVec 10) (ws : List HostWord) :
    Part.Does anyAreas p (p.memoryWrite start ws) :=
  .after (Part.writeBurst_does _ start ws) (.mono (p.burstTaken_does _)) (List.Subset.refl _)

theorem Part.postOrder_does (p : Part) (h : OrderHead) (k : OrderKind) (params : List HostWord) :
    Part.Does anyAreas p (p.postOrder h k params) := p.memoryWrite_does _ _

theorem Part.registerRead_does (p : Part) (sel : Register) : Part.Does [.misuse, .portRest] p (p.registerRead sel) := by
  cases sel
  · exact .after (Part.misuse_does _ false) (.mono (p.send_does _))
  · exact .mono (p.send_does _)

theorem Part.registerWrite_does (p : Part) (sel : Register) (v : Word) : Part.Does resetAreas p (p.registerWrite sel v) := by
  cases sel
  · exact .after (Part.burstTaken_does _ _) (.mono p.setMisuse_does)
  · exact .ite (fun _ => .after (Part.portResetWrite_does _) (.mono (p.burstTaken_does _)) (List.Subset.refl _))
      fun _ => .mono (p.burstTaken_does _)

/-! ### One millisecond, and a step -/

theorem WindowRec.passMs_motion (w : WindowRec) : w.passMs.motion = w.motion ∧ w.passMs.pending = w.pending ∧ w.passMs.mover = w.mover := by
  unfold WindowRec.passMs
  cases w.driven <;> exact ⟨rfl, rfl, rfl⟩

/-- A millisecond keeps every law; it changes the clock and the windows' accumulators. -/
theorem Part.passMs_keeps (p : Part) : Part.Keeps p p.passMs := by
  have hw (c : Corner) : p.passMs.window c = (p.window c).passMs := by cases c <;> rfl
  refine ⟨id, id, fun k => ⟨fun hs => ?_, fun hs => ?_⟩, id, id, id, fun k => ⟨fun c hc => k.1 c ?_, k.2⟩, id,
    fun k c => Part.Spares.fits (p := p) ⟨by rw [hw, (WindowRec.passMs_motion _).1], by rw [hw, (WindowRec.passMs_motion _).2.2],
      by rw [hw, (WindowRec.passMs_motion _).2.1], id, .same rfl⟩ (k c)⟩
  · have := k.1 hs
    exact ⟨this.1, this.2.1, this.2.2.1, fun c => by rw [hw, (WindowRec.passMs_motion _).1]; exact this.2.2.2 c⟩
  · have := k.2 hs
    exact ⟨fun c x hx => this.1 c x (by rwa [hw, (WindowRec.passMs_motion _).2.1] at hx), this.2⟩
  · rwa [hw, (WindowRec.passMs_motion _).1] at hc

/-- A command's meaning answers one next state, whose queue is the one before. -/
theorem run_next {f : Part → Part} {s t : State} : s.run f = .next t ↔ t = { s with part := f s.part } :=
  ⟨fun h => by cases h; rfl, fun h => by rw [h]; rfl⟩

/-- Where a command's meaning is `run f`, it completes with what holds of `f` of the part. -/
theorem completes_run {c : Instr} {s : State} {f : Part → Part} {post : Part → Prop} (h : exec c s = s.run f) :
    Completes c s post ↔ post (f s.part) :=
  ⟨fun ⟨t, ht, _, hp⟩ => by rw [h, run_next] at ht; subst ht; exact hp, fun hp => ⟨_, h, rfl, hp⟩⟩

/-- What a step can be: a command's meaning on the part as it stands, or one millisecond. -/
theorem step_next {s t : State} (h : step s = .next t) :
    (∃ c rest, exec c { s with pending := rest } = .next t) ∨ t = { s with part := s.part.passMs } := by
  unfold step idle at h
  split at h
  · exact .inl ⟨_, _, h⟩
  · split at h
    · rename_i c _
      exact .inl ⟨c, s.pending, h⟩
    · cases h
      exact .inr rfl

end Sys2Proof.Machine
end

