-- ==== Sys2Proof/Laws/Posting.lean ====
section
/-! SUPPORT. What a posting burst does (R189, R190): the parameter words stored, the head POSTED, and the order taken as
the burst ends where the part state takes it. A proof about an order command cites `postOrder_posted`, then
`takeOrder_serves`, then the owner's own lemma. -/

-- One theorem at a time: elaborated side by side, the lemmas take more threads than the check has memory for.
set_option deprecated.oldSectionVars true

namespace Sys2Proof.Machine

/-- An event that changes neither the arbiter's lists nor the budget grants nothing. -/
theorem settle_same {f : Part → Part} {p : Part} (h1 : (f p).holders = p.holders) (h2 : (f p).waiting = p.waiting)
    (h3 : (f p).budget = p.budget) : settle f p = f p := by
  simp only [settle, h1, h2, h3, and_self, if_true]

theorem Part.Within.budget {K : List Area} {p q : Part} (w : Part.Within K p q) (h1 : .supply ∉ K := by decide)
    (h2 : .cfg ∉ K := by decide) : q.budget = p.budget := by
  simp only [Part.budget, w.supply h1, w.cfg h2]

theorem Part.Within.unitsFree {K : List Area} {p q : Part} (w : Part.Within K p q) (h1 : .supply ∉ K := by decide)
    (h2 : .cfg ∉ K := by decide) (h3 : .holders ∉ K := by decide) : q.unitsFree = p.unitsFree := by
  simp only [Part.unitsFree, w.budget h1 h2, w.holders h3]

/-- An event whose areas hold neither the lists nor the budget grants nothing. -/
theorem settle_within {K : List Area} {f : Part → Part} {p : Part} (w : Part.Within K p (f p)) (h1 : .holders ∉ K := by decide)
    (h2 : .waiting ∉ K := by decide) (h3 : .supply ∉ K := by decide) (h4 : .cfg ∉ K := by decide) : settle f p = f p :=
  settle_same (w.holders h1) (w.waiting h2) (w.budget h3 h4)

/-- `settle` looks at the arbiter's lists and the budget before the event only. -/
theorem settle_from {f g : Part → Part} {p q : Part} (h : f p = g q) (h1 : q.holders = p.holders) (h2 : q.waiting = p.waiting)
    (h3 : q.budget = p.budget) : settle f p = settle g q := by
  simp only [settle, h, h1, h2, h3]

@[simp] theorem Part.head_setHead (p : Part) (k x : Slot) (h : Head) : (p.setHead k h).head x = if x = k then h else p.head x := by
  simp only [Part.head, Part.setHead, Vector.get_eq_getElem, Vector.getElem_set, Fin.ext_iff, eq_comm (a := x.val)]

@[simp] theorem Part.writeResults_head (p : Part) (k x : Slot) (a b : Word) : (p.writeResults k a b).head x = p.head x := rfl

@[simp] theorem Part.endOrder_head (p : Part) (k x : Slot) (st : SlotState) (code : Nat) (a b : Word) :
    (p.endOrder k st code a b).head x =
      if x = k then { p.head k with state := st, code := BitVec.ofNat 8 code } else p.head x := by
  simp [Part.endOrder]

@[simp] theorem Part.orderDone_head (p : Part) (k x : Slot) (o : OrderOutcome) (a b : Word) :
    (p.orderDone k o a b).head x =
      if x = k then { p.head k with state := .done, code := BitVec.ofNat 8 o.code } else p.head x := p.endOrder_head ..

@[simp] theorem Part.orderRefused_head (p : Part) (k x : Slot) (r : OrderRefusal) (a : Word) :
    (p.orderRefused k r a).head x =
      if x = k then { p.head k with state := .refused, code := BitVec.ofNat 8 r.code } else p.head x := p.endOrder_head ..

@[simp] theorem Part.orderTaken_head (p : Part) (k x : Slot) :
    (p.orderTaken k).head x = if x = k then { p.head k with state := .taken } else p.head x := by
  simp [Part.orderTaken]

/-- Records that stand in areas left alone. -/
theorem Part.Within.door {K : List Area} {p q : Part} (w : Part.Within K p q) (d : Door) (h : .doors ∉ K := by decide) :
    q.door d = p.door d := by rw [Part.door, w.doors h, Part.door]
theorem Part.Within.window {K : List Area} {p q : Part} (w : Part.Within K p q) (c : Corner) (h : .windows ∉ K := by decide) :
    q.window c = p.window c := by rw [Part.window, w.windows h, Part.window]
theorem Part.Within.monitor {K : List Area} {p q : Part} (w : Part.Within K p q) (c : Corner) (h : .monitors ∉ K := by decide) :
    q.monitor c = p.monitor c := by rw [Part.monitor, w.monitors h, Part.monitor]
theorem Part.Within.latch {K : List Area} {p q : Part} (w : Part.Within K p q) (d : Door) (h : .latches ∉ K := by decide) :
    q.latch d = p.latch d := by rw [Part.latch, w.latches h, Part.latch]
theorem Part.Within.fob {K : List Area} {p q : Part} (w : Part.Within K p q) (f : Fob) (h : .begun ∉ K := by decide) :
    q.fob f = p.fob f := by rw [Part.fob, w.begun h, Part.fob]
theorem Part.Within.input {K : List Area} {p q : Part} (w : Part.Within K p q) (i : Input) (h : .inputs ∉ K := by decide) :
    q.input i = p.input i := by rw [Part.input, w.inputs h, Part.input]
theorem Part.Within.head {K : List Area} {p q : Part} (w : Part.Within K p q) (k : Slot) (h : .heads ∉ K := by decide) :
    q.head k = p.head k := by rw [Part.head, w.heads h, Part.head]

/-- What no door or latch event changes (Safety.lean). -/
theorem Part.Within.elsewhere {K : List Area} {p q : Part} (w : Part.Within K p q)
    (h : (∀ a ∈ [Area.windows, .monitors, .locator, .fobs, .operation, .supply, .crash, .cfg, .lockout], a ∉ K) := by decide) :
    p.sameElsewhere q := by
  simp only [List.mem_cons, List.not_mem_nil, or_false, forall_eq_or_imp, forall_eq] at h
  obtain ⟨h1, h2, h3, h4, h5, h6, h7, h8, h9⟩ := h
  exact ⟨w.windows h1, w.monitors h2, w.locator h3, w.fobs h4, w.operation h5, w.supply h6, w.crash h7, w.cfg h8, w.lockout h9⟩

/-- What no window event changes (Safety.lean). -/
theorem Part.Within.outsideWindows {K : List Area} {p q : Part} (w : Part.Within K p q)
    (h : (∀ a ∈ [Area.doors, .latches, .locator, .fobs, .supply, .crash, .cfg, .lockout], a ∉ K) := by decide) :
    p.sameOutsideWindows q := by
  simp only [List.mem_cons, List.not_mem_nil, or_false, forall_eq_or_imp, forall_eq] at h
  obtain ⟨h1, h2, h3, h4, h5, h6, h7, h8⟩ := h
  exact ⟨w.doors h1, w.latches h2, w.locator h3, w.fobs h4, w.supply h5, w.crash h6, w.cfg h7, w.lockout h8⟩

theorem slotWord_zero (k : Slot) : slotWord k 0 = 352 + 8 * k.val := rfl

theorem slotStart_toNat (k : Slot) : (slotStart k).toNat = 352 + 8 * k.val := by
  have := k.isLt
  simp only [slotStart, slotWord, BitVec.toNat_ofNat]
  omega

theorem boardSlot_word (k : Slot) {j : Nat} (h : j < 8) : boardSlot (352 + 8 * k.val + j) = k := by
  have := k.isLt
  apply Fin.ext
  simp only [boardSlot, Fin.ofNat]
  omega

/-- How a word of the Order Board is judged (R184). -/
theorem Part.hostWrite_board (p : Part) {i : Nat} (w : HostWord) (h1 : 352 ≤ i) (h2 : i < 480) :
    p.hostWrite i w = if (i - 352) % 8 = 0 then p
      else if (p.head (boardSlot i)).state = .free then p.storeHost i w else p.setMisuse := by
  unfold Part.hostWrite
  iterate 7 rw [if_neg (by omega)]
  exact if_pos h2

/-- A word of a FREE slot is stored with its parity. -/
theorem Part.hostWrite_slot (p : Part) (k : Slot) {j : Nat} (h1 : 1 ≤ j) (h2 : j < 8) (hf : (p.head k).state = .free)
    (w : HostWord) : settle (·.hostWrite (352 + 8 * k.val + j) w) p = p.storeHost (352 + 8 * k.val + j) w := by
  have hk := k.isLt
  have h : p.hostWrite (352 + 8 * k.val + j) w = p.storeHost (352 + 8 * k.val + j) w := by
    rw [p.hostWrite_board w (by omega) (by omega), if_neg (by omega), boardSlot_word k h2, if_pos hf]
  rw [settle_same (by rw [h]; rfl) (by rw [h]; rfl) (by rw [h]; rfl), h]

theorem Part.hostWrite_head (p : Part) (k : Slot) (w : HostWord) : settle (·.hostWrite (352 + 8 * k.val) w) p = p := by
  have hk := k.isLt
  have h : p.hostWrite (352 + 8 * k.val) w = p := by
    rw [p.hostWrite_board w (by omega) (by omega), if_pos (by omega)]
  rw [settle_same (by rw [h]) (by rw [h]) (by rw [h]), h]

theorem Part.burstHead_other (p : Part) (k : Slot) {j : Nat} (h1 : 1 ≤ j) (h2 : j < 8) (w : HostWord) :
    p.burstHead (352 + 8 * k.val + j, w) = p := by
  unfold Part.burstHead
  exact if_neg (by simp only; omega)

theorem headWord_toNat {k : Nat} (hk : k < 32) (tag : BitVec 8) :
    (headWord 1 k tag).toNat = 536870912 + k * 16777216 + tag.toNat * 65536 := by
  have ht := tag.isLt
  have h1 : 1 <<< 29 ||| k <<< 24 = 1 <<< 29 + k <<< 24 :=
    (Nat.shiftLeft_add_eq_or_of_lt (by rw [Nat.shiftLeft_eq]; omega) 1).symm
  have h2 : 1 <<< 29 + k <<< 24 = (32 + k) <<< 24 := by simp only [Nat.shiftLeft_eq]; omega
  have h3 : (32 + k) <<< 24 ||| tag.toNat <<< 16 = (32 + k) <<< 24 + tag.toNat <<< 16 :=
    (Nat.shiftLeft_add_eq_or_of_lt (by rw [Nat.shiftLeft_eq]; omega) _).symm
  simp only [headWord, h1, h2, h3, BitVec.toNat_ofNat]
  simp only [Nat.shiftLeft_eq]
  omega

theorem OrderKind.code_lt (k : OrderKind) : k.code < 32 := by cases k <;> decide

/-- The head word of a posting burst asks for POSTED, with the kind and the tag. -/
theorem headWord_reads (k : OrderKind) (tag : BitVec 8) :
    SlotState.ofBits (headWord 1 k.code tag) = some .posted ∧ bitsAt (headWord 1 k.code tag) 24 5 = k.code ∧
      bitsAt (headWord 1 k.code tag) 16 8 = tag.toNat := by
  have hk := k.code_lt
  have ht := tag.isLt
  have h (lo n : Nat) : bitsAt (headWord 1 k.code tag) lo n =
      (536870912 + k.code * 16777216 + tag.toNat * 65536) / 2 ^ lo % 2 ^ n := by
    rw [bitsAt, headWord_toNat hk, Nat.shiftRight_eq_div_pow]
  have h1 : bitsAt (headWord 1 k.code tag) 29 3 = 1 := by rw [h]; omega
  refine ⟨by simp only [SlotState.ofBits, h1]; rfl, by rw [h]; omega, by rw [h]; omega⟩

theorem kindOf_code (k : OrderKind) : kindOf (BitVec.ofNat 5 k.code) = some k := by cases k <;> decide

/-- Host words stored one after the other, from word `n`. -/
def Part.storeFrom (p : Part) (n : Nat) : List HostWord → Part
  | [] => p
  | w :: ws => (p.storeHost n w).storeFrom (n + 1) ws

/-- The parity mark a host word leaves (R186). -/
def markOf (w : HostWord) : Byte := if w.sound then 0 else 1

theorem Part.storeFrom_memory : ∀ (ws : List HostWord) (p : Part) (n : Nat),
    (p.storeFrom n ws).port.memory = Memory.writeWords p.port.memory n (ws.map (·.value))
  | [], _, _ => rfl
  | w :: ws, p, n => Part.storeFrom_memory ws (p.storeHost n w) (n + 1)

theorem Part.storeFrom_other : ∀ (ws : List HostWord) (p : Part) (n : Nat),
    p.storeFrom n ws = { p with port := { p.port with
      memory := (p.storeFrom n ws).port.memory
      parity := (p.storeFrom n ws).port.parity } }
  | [], _, _ => rfl
  | w :: ws, p, n => Part.storeFrom_other ws (p.storeHost n w) (n + 1)

theorem Part.storeFrom_parity : ∀ (ws : List HostWord) (p : Part) (n : Nat), Memory.wf p.port.parity = true →
    Memory.wf (p.storeFrom n ws).port.parity = true ∧
      (∀ i, i < n → Memory.readByte (p.storeFrom n ws).port.parity i = Memory.readByte p.port.parity i) ∧
      ∀ j w, ws[j]? = some w → Memory.readByte (p.storeFrom n ws).port.parity (n + j) = markOf w
  | [], _, _, h => ⟨h, fun _ _ => rfl, fun _ _ h => by simp at h⟩
  | w :: ws, p, n, h => by
    have hp : (p.storeHost n w).port.parity = Memory.writeByte p.port.parity n (markOf w) := rfl
    obtain ⟨h1, h2, h3⟩ := Part.storeFrom_parity ws (p.storeHost n w) (n + 1) (by rw [hp]; exact Memory.wf_writeByte h _ _)
    refine ⟨h1, fun i hi => ?_, fun j v hj => ?_⟩
    · show Memory.readByte ((p.storeHost n w).storeFrom (n + 1) ws).port.parity i = _
      rw [h2 i (by omega), hp, Memory.readByte_writeByte_ne (by omega)]
    · rcases j with _ | j
      · obtain rfl : w = v := by simpa using hj
        show Memory.readByte ((p.storeHost n w).storeFrom (n + 1) ws).port.parity (n + 0) = _
        rw [h2 _ (by omega), hp]
        exact Memory.readByte_writeByte_same h
      · show Memory.readByte ((p.storeHost n w).storeFrom (n + 1) ws).port.parity (n + (j + 1)) = _
        rw [show n + (j + 1) = n + 1 + j by omega]
        exact h3 j v (by simpa using hj)

/-- The words of a burst into a FREE slot, but its head, are stored. -/
theorem foldl_slotWords (k : Slot) : ∀ (ws : List HostWord) (j : Nat) (p : Part), 1 ≤ j → j + ws.length ≤ 8 →
    (p.head k).state = .free →
    (ws.mapIdx fun i w => (352 + 8 * k.val + j + i, w)).foldl (fun q x => settle (·.hostWrite x.1 x.2) q) p =
      p.storeFrom (352 + 8 * k.val + j) ws
  | [], _, _, _, _, _ => rfl
  | w :: ws, j, p, h1, h2, hf => by
    have ih := foldl_slotWords k ws (j + 1) (p.storeHost (352 + 8 * k.val + j) w) (by omega)
      (by simp only [List.length_cons] at h2; omega) hf
    have he : (fun i (v : HostWord) => (352 + 8 * k.val + j + (i + 1), v)) = fun i v => (352 + 8 * k.val + (j + 1) + i, v) := by
      funext i v
      rw [show 352 + 8 * k.val + j + (i + 1) = 352 + 8 * k.val + (j + 1) + i by omega]
    rw [List.mapIdx_cons, List.foldl_cons, he]
    simp only [Nat.add_zero]
    rw [Part.hostWrite_slot p k h1 (by simp only [List.length_cons] at h2; omega) hf, ih]
    rfl

/-- No head stands among them. -/
theorem foldl_noHead (k : Slot) : ∀ (ws : List HostWord) (j : Nat) (p : Part), 1 ≤ j → j + ws.length ≤ 8 →
    (ws.mapIdx fun i w => (352 + 8 * k.val + j + i, w)).foldl Part.burstHead p = p
  | [], _, _, _, _ => rfl
  | w :: ws, j, p, h1, h2 => by
    have ih := foldl_noHead k ws (j + 1) p (by omega) (by simp only [List.length_cons] at h2; omega)
    have he : (fun i (v : HostWord) => (352 + 8 * k.val + j + (i + 1), v)) = fun i v => (352 + 8 * k.val + (j + 1) + i, v) := by
      funext i v
      rw [show 352 + 8 * k.val + j + (i + 1) = 352 + 8 * k.val + (j + 1) + i by omega]
    rw [List.mapIdx_cons, List.foldl_cons, he]
    simp only [Nat.add_zero]
    rw [Part.burstHead_other p k h1 (by simp only [List.length_cons] at h2; omega), ih]

/-- The head of a slot set POSTED, its parity marked. -/
def Part.markHead (p : Part) (k : Slot) (kind : OrderKind) (tag : BitVec 8) (sound : Bool) : Part :=
  let q := p.setHead k ⟨.posted, BitVec.ofNat 5 kind.code, tag, 0⟩
  { q with port := { q.port with parity := Memory.writeByte q.port.parity (slotWord k 0) (if sound then 0 else 1) } }

theorem burstWords_slot (k : Slot) (w : HostWord) (ws : List HostWord) (h : ws.length ≤ 7) :
    burstWords (slotStart k).toNat (w :: ws) =
      (352 + 8 * k.val, w) :: ws.mapIdx fun i w => (352 + 8 * k.val + 1 + i, w) := by
  have hk := k.isLt
  have he : areaEnd (352 + 8 * k.val) = 480 := by
    unfold areaEnd
    rw [if_neg (by omega), if_neg (by omega), if_neg (by omega), if_pos (by omega)]
  have hf : (fun i (v : HostWord) => (352 + 8 * k.val + (i + 1), v)) = fun i v => (352 + 8 * k.val + 1 + i, v) := by
    funext i v
    rw [show 352 + 8 * k.val + (i + 1) = 352 + 8 * k.val + 1 + i by omega]
  rw [burstWords, slotStart_toNat, he, List.mapIdx_cons, hf]
  refine List.filter_eq_self.2 fun x hx => ?_
  simp only [List.mem_cons, List.mem_mapIdx] at hx
  rcases hx with rfl | ⟨i, hi, rfl⟩ <;> simp only [decide_eq_true_eq] <;> omega

/-- A head written as a posting on a FREE slot. -/
theorem Part.burstHead_posts (p : Part) (h : OrderHead) (kind : OrderKind) (hf : (p.head h.slot).state = .free) :
    p.burstHead (352 + 8 * h.slot.val, ⟨headWord 1 kind.code h.tag, h.sound⟩) =
      settle (fun q => if q.takesAtOnce then q.takeOrder h.slot else q) (p.markHead h.slot kind h.tag h.sound) := by
  have hk := h.slot.isLt
  have hr := headWord_reads kind h.tag
  unfold Part.burstHead
  rw [if_pos (by simp only; omega), show boardSlot (352 + 8 * h.slot.val) = h.slot from boardSlot_word h.slot (j := 0) (by omega)]
  refine settle_from ?_ rfl rfl rfl
  simp only [Part.headWrite, hf, hr.1, Part.post, hr.2.1, hr.2.2, BitVec.ofNat_toNat, BitVec.setWidth_eq]
  rfl

/-- What follows the posting: the pointer after the burst. -/
def Part.burstDone (p : Part) (k : Slot) : Part :=
  { p with port := { p.port with pointer := BitVec.ofNat 10 (352 + 8 * k.val + 6) } }

theorem postingBurst_eq (h : OrderHead) (k : OrderKind) (ws : List HostWord) (hw : ws.length ≤ 5) :
    ∃ l : List HostWord, postingBurst h k ws = ⟨headWord 1 k.code h.tag, h.sound⟩ :: l ∧ l.length = 5 ∧
      ∀ (j : Nat) (w : HostWord), ws[j]? = some w → l[j]? = some w := by
  refine ⟨_, rfl, by simp; omega, fun j w hj => ?_⟩
  rw [List.getElem?_append_left (by simpa using (List.getElem?_eq_some_iff.1 hj).1)]
  exact hj

/-- The part once a posting burst has had its wake or activity, its words are stored and its head stands POSTED. -/
structure Part.Posted (p : Part) (h : OrderHead) (kind : OrderKind) (ws : List HostWord) (q : Part) : Prop
    extends Part.Within [.memory, .board, .parity, .heads, .waking, .dwell] p q where
  tidy : q.tidy
  head : q.head h.slot = ⟨.posted, BitVec.ofNat 5 kind.code, h.tag, 0⟩
  others : ∀ x, x ≠ h.slot → q.head x = p.head x
  headMark : Memory.readByte q.port.parity (slotWord h.slot 0) = if h.sound then 0 else 1
  param : ∀ j w, ws[j]? = some w → q.param h.slot (j + 1) = w.value
  marks : ∀ j w, ws[j]? = some w → Memory.readByte q.port.parity (slotWord h.slot (j + 1)) = markOf w

theorem Part.posted (p : Part) (ht : p.tidy) (h : OrderHead) (kind : OrderKind) (ws l : List HostWord) (hl : l.length = 5)
    (hw : ∀ (j : Nat) (w : HostWord), ws[j]? = some w → l[j]? = some w) :
    Part.Posted p h kind ws ((p.storeFrom (352 + 8 * h.slot.val + 1) l).markHead h.slot kind h.tag h.sound) := by
  have hk := h.slot.isLt
  obtain ⟨a1, a2, a3⟩ := Part.storeFrom_parity l p (352 + 8 * h.slot.val + 1) ht.2.1
  have hm := Part.storeFrom_memory l p (352 + 8 * h.slot.val + 1)
  have ho := Part.storeFrom_other l p (352 + 8 * h.slot.val + 1)
  generalize p.storeFrom (352 + 8 * h.slot.val + 1) l = x at a1 a2 a3 hm ho ⊢
  have hout (i : Nat) (hi : i < 352 ∨ 480 ≤ i) : Memory.readWord x.port.memory i = Memory.readWord p.port.memory i := by
    rw [hm]
    exact Memory.readWord_writeWords_ne _ _ _ (by simp only [List.length_map]; omega)
  have hx (y : Slot) : x.head y = p.head y := by rw [ho]; rfl
  have hx1 : x.heads = p.heads := by rw [ho]
  have hx2 : x.scroll = p.scroll := by rw [ho]
  have hxm : Memory.wf x.port.memory = true := by
    rw [hm]
    exact Memory.wf_writeWords _ ht.1 _
  have hr : Part.Reports p (x.markHead h.slot kind h.tag h.sound) :=
    (Part.Reports.same (q := x) (fun _ => ⟨hxm, a1, hx2 ▸ ht.2.2⟩) hx1 hx2 fun i h1 h2 => hout i (by omega)).trans
      ((Part.Does.after (Part.parity_does _ fun h => Memory.wf_writeByte h _ _) (.mono (x.setHead_does h.slot rfl)) :
        Part.Does [.parity, .heads] x (x.markHead h.slot kind h.tag h.sound)).reports (by decide)) (by rw [ho]; rfl)
  refine ⟨?_, ⟨hxm, Memory.wf_writeByte a1 _ _, ?_⟩, ?_, fun y hy => ?_, ?_, fun j w hj => ?_, fun j w hj => ?_⟩
  · revert hr
    rw [ho]
    intro hr
    constructor <;> first | rfl | exact fun _ => rfl | exact fun _ => .same rfl | exact fun h => absurd (by decide) h
                          | exact fun _ _ => FobRec.same_refl _
                          | exact fun _ i h1 h2 => hout i (by omega)
                          | exact fun _ => hr
  · rw [ho]
    exact ht.2.2
  · exact (x.head_setHead _ _ _).trans (if_pos rfl)
  · exact ((x.head_setHead _ _ _).trans (if_neg hy)).trans (hx y)
  · exact Memory.readByte_writeByte_same a1
  · have hj' := hw j w hj
    have hlt : j < l.length := (List.getElem?_eq_some_iff.1 hj').1
    show Memory.readWord x.port.memory (352 + 8 * h.slot.val + (j + 1)) = _
    rw [hm, show 352 + 8 * h.slot.val + (j + 1) = 352 + 8 * h.slot.val + 1 + j by omega]
    have := Memory.readWord_writeWords (l.map (·.value)) ht.1 (352 + 8 * h.slot.val + 1) j (by simpa using hlt)
    exact Option.some.inj (this.trans (by rw [List.getElem?_map, hj']; rfl))
  · show Memory.readByte (Memory.writeByte x.port.parity (352 + 8 * h.slot.val + 0) _) (352 + 8 * h.slot.val + (j + 1)) = _
    rw [Memory.readByte_writeByte_ne (by omega), show 352 + 8 * h.slot.val + (j + 1) = 352 + 8 * h.slot.val + 1 + j by omega]
    exact a3 j w (hw j w hj)

/-- The posting of a burst whose wake or activity came first. -/
theorem Part.Posted.after {p q : Part} {h : OrderHead} {kind : OrderKind} {ws : List HostWord} {c : WakeCause}
    (hq : Part.Posted (p.burstTaken c) h kind ws q) : Part.Posted p h kind ws q :=
  have b := p.burstTaken_does c
  ⟨b.toWithin.trans hq.toWithin (by decide) (List.Subset.refl _), hq.tidy, hq.head,
    fun x hx => (hq.others x hx).trans (b.toWithin.head x), hq.headMark, hq.param, hq.marks⟩

/-- A posting burst: the wake or activity, its words stored, its head POSTED, the order taken where the part state takes
it at once, then the pointer. -/
theorem Part.postOrder_posted (p : Part) (h : OrderHead) (kind : OrderKind) {ws : List HostWord} (hw : ws.length ≤ 5)
    (ht : p.tidy) (hs : p.port.served = true) (hf : (p.head h.slot).state = .free) :
    ∃ q, Part.Posted p h kind ws q ∧
      p.postOrder h kind ws = (settle (fun q => if q.takesAtOnce then q.takeOrder h.slot else q) q).burstDone h.slot := by
  obtain ⟨l, e, hl, hget⟩ := postingBurst_eq h kind ws hw
  have b := p.burstTaken_does .link
  have ht := b.tidyLaw ht
  have hs : (p.burstTaken .link).port.served = true := (b.served (by decide)).trans hs
  have hf : ((p.burstTaken .link).head h.slot).state = .free := by rw [b.toWithin.head]; exact hf
  refine ⟨_, (Part.posted _ ht h kind ws l hl hget).after, ?_⟩
  unfold Part.postOrder Part.memoryWrite Part.writeBurst
  generalize p.burstTaken .link = p at ht hs hf
  have hx : ((p.storeFrom (352 + 8 * h.slot.val + 1) l).head h.slot).state = .free := by
    rw [Part.storeFrom_other]
    exact hf
  have hb : p.takeWords (burstWords (slotStart h.slot).toNat (postingBurst h kind ws)) =
      settle (fun q => if q.takesAtOnce then q.takeOrder h.slot else q)
        ((p.storeFrom (352 + 8 * h.slot.val + 1) l).markHead h.slot kind h.tag h.sound) := by
    unfold Part.takeWords
    rw [if_pos hs, e, burstWords_slot _ _ _ (by omega), List.foldl_cons, List.foldl_cons, Part.hostWrite_head,
      foldl_slotWords _ _ _ _ (by omega) (by omega) hf, Part.burstHead_posts _ _ _ hx, foldl_noHead _ _ _ _ (by omega) (by omega)]
  rw [hb, slotStart_toNat, e, List.length_cons, hl]
  rfl

/-- The head and the parameters a posting left sound (R190). -/
theorem Part.Posted.orderSound {p q : Part} {h : OrderHead} {kind : OrderKind} {ws : List HostWord}
    (hq : Part.Posted p h kind ws q) (hh : h.sound = true) (hl : kind.params = ws.length) (hw : ∀ w ∈ ws, w.sound = true) :
    q.orderSound h.slot kind = true := by
  simp only [Part.orderSound, List.all_eq_true, List.mem_range, decide_eq_true_eq]
  intro j hj
  rcases j with _ | j
  · simp [hq.headMark, hh]
  · have hlt : j < ws.length := by omega
    rw [hq.marks j _ (List.getElem?_eq_getElem hlt), markOf, hw _ (List.getElem_mem hlt)]
    rfl

theorem Part.Posted.kindOf {p q : Part} {h : OrderHead} {kind : OrderKind} {ws : List HostWord}
    (hq : Part.Posted p h kind ws q) : kindOf (q.head h.slot).kind = some kind := by
  rw [hq.head]
  exact kindOf_code kind

/-- The common checks pass and the owner takes the order (R190). -/
theorem Part.takeOrder_serves (p : Part) (k : Slot) {kind : OrderKind} {o : Order}
    (hk : Sys2Proof.Machine.kindOf (p.head k).kind = some kind) (hs : p.orderSound k kind = true) (hv : p.state = .service)
    (ho : p.readOrder k kind = some o) : p.takeOrder k = p.serveOrder k o := by
  unfold Part.takeOrder
  simp [hk, hs, ho, Part.inSafeHold, Part.inService, hv]

/-- An order posted where the part accepts it, its parameters sound and in range: the dwell restarts, the owner serves it, then
the arbiter grants. -/
theorem Part.postOrder_served {p : Part} {h : OrderHead} (hp : p.accepts h) {kind : OrderKind} {ws : List HostWord}
    (hl : kind.params = ws.length) (hw : ∀ w ∈ ws, w.sound = true) :
    ∃ q, Part.Posted p h kind ws q ∧ ∀ o, q.readOrder h.slot kind = some o →
      p.postOrder h kind ws = (settle (·.serveOrder h.slot o) q).burstDone h.slot := by
  obtain ⟨ht, hv, hs, hf, hh⟩ := hp
  have h5 : ws.length ≤ 5 := by rw [← hl]; cases kind <;> decide
  obtain ⟨q, hq, e⟩ := p.postOrder_posted h kind h5 ht hs hf
  refine ⟨q, hq, fun o ho => ?_⟩
  have hqs : q.state = .service := by rw [hq.state (by decide), hv]
  have hto : q.takesAtOnce = true := by simp [Part.takesAtOnce, hqs]
  rw [e]
  refine congrArg (Part.burstDone · h.slot) (settle_from ?_ rfl rfl rfl)
  rw [hto, if_pos rfl]
  exact q.takeOrder_serves h.slot hq.kindOf (hq.orderSound hh hl hw) hqs ho

/-- The pointer is all that the end of a posting burst changes. -/
theorem Part.burstDone_does (p : Part) (k : Slot) : Part.Does [.portRest] p (p.burstDone k) :=
  p.portRest_does p.port.served _ p.port.mask p.port.vehicleWord

@[simp] theorem Part.burstDone_head (p : Part) (k x : Slot) : (p.burstDone k).head x = p.head x :=
  (p.burstDone_does k).toWithin.head x

abbrev burstAreas : List Area := [.memory, .board, .parity, .heads, .portRest, .waking, .dwell]

/-- From before the posting to after the burst: what the owner left alone is as it was. -/
theorem Part.Posted.final {p q r : Part} {h : OrderHead} {kind : OrderKind} {ws : List HostWord} {K M : List Area}
    (hq : Part.Posted p h kind ws q) (w : Part.Within K q r) (hk : K ⊆ M := by decide) (hb : burstAreas ⊆ M := by decide) :
    Part.Within M p (r.burstDone h.slot) :=
  (hq.toWithin.trans (w.trans (r.burstDone_does h.slot).toWithin (M := K ++ burstAreas) (by simp)
    (fun a ha => List.mem_append_right _ (by revert a; decide))) (M := K ++ burstAreas)
    (fun a ha => List.mem_append_right _ (by revert a; decide)) (List.Subset.refl _)).mono (List.append_subset.2 ⟨hk, hb⟩)

end Sys2Proof.Machine
end

