-- ==== Sys2Proof/Laws/Status.lean ====
section
/-! SUPPORT. What the host reads of the Status Page: each field fits its width, packed fields are a sum of their values, and
each record stands in its block of words (11.6). -/

-- One theorem at a time: elaborated side by side, the lemmas take more threads than the check has memory for.
set_option deprecated.oldSectionVars true

namespace Sys2Proof.Machine

/-! ### Fields fit their widths -/

/-- The value of the field is one its width holds, and a word holds the width. -/
def Field.fits (f : Field) : Prop := f.value < 2 ^ f.width ∧ f.width ≤ 32

@[simp] theorem numField_fits {w : Nat} (h : w ≤ 32) (v : Nat) : (numField w v).fits := ⟨Nat.mod_lt _ (Nat.two_pow_pos w), h⟩

@[simp] theorem numOrAbsent_fits {w : Nat} (h : w ≤ 32) : ∀ v, (numOrAbsent w v).fits
  | none => ⟨Nat.sub_lt (Nat.two_pow_pos w) Nat.one_pos, h⟩
  | some v => numField_fits h v

@[simp] theorem codeField_fits {n : Nat} (h : bitsFor n ≤ 32) (v : Nat) : (codeField n v).fits := numField_fits h v
@[simp] theorem codeOrAbsent_fits {n : Nat} (h : bitsFor (n + 1) ≤ 32) (v : Option Nat) : (codeOrAbsent n v).fits :=
  numOrAbsent_fits h v
@[simp] theorem flagField_fits (b : Bool) : (flagField b).fits := by cases b <;> exact ⟨by decide, by decide⟩
@[simp] theorem onOff_fits (b : Bool) : (onOff b).fits := by cases b <;> exact ⟨by decide, by decide⟩
@[simp] theorem timeField_fits (t : Nat) : (timeField t).fits := ⟨(stampOf t).isLt, (by decide : 24 ≤ 32)⟩

@[simp] theorem timeOrAbsent_fits : ∀ t, (timeOrAbsent t).fits
  | none => numOrAbsent_fits (by decide) none
  | some t => ⟨lt_trans (stampOf t).isLt (by decide : 2 ^ 24 < 2 ^ 25), (by decide : 25 ≤ 32)⟩

theorem setValue_lt : ∀ l : List Bool, setValue l < 2 ^ l.length
  | [] => Nat.one_pos
  | b :: l => by
    have := setValue_lt l
    have hb : b.toNat ≤ 1 := Bool.toNat_le b
    rw [setValue, List.length_cons, Nat.pow_succ]
    omega

theorem setField_fits {l : List Bool} (h : l.length ≤ 32) : (setField l).fits := ⟨setValue_lt l, h⟩

/-! ### Packing -/

/-- The packed fields as numbers: each adds its value at its place. -/
def packNat : List Field → Nat → Nat → List Nat
  | [], _, cur => [cur]
  | f :: fs, pos, cur =>
    if pos + f.width ≤ 32 then packNat fs (pos + f.width) (cur + 2 ^ pos * f.value) else cur :: packNat fs f.width f.value

theorem or_shifted {cur v pos : Nat} (h : cur < 2 ^ pos) : cur ||| v <<< pos = cur + 2 ^ pos * v := by
  rw [Nat.or_comm, Nat.shiftLeft_eq, Nat.mul_comm v, ← Nat.two_pow_add_eq_or_of_lt h, Nat.add_comm]

/-- Fields that fit are packed without a loss. -/
theorem packFrom_toNat : ∀ (fs : List Field) (pos : Nat) (cur : Word), (∀ f ∈ fs, f.fits) → pos ≤ 32 → cur.toNat < 2 ^ pos →
    (packFrom fs pos cur).map BitVec.toNat = packNat fs pos cur.toNat
  | [], _, _, _, _, _ => rfl
  | f :: fs, pos, cur, hf, hp, hc => by
    have hfit := hf f (List.mem_cons_self ..)
    have hrest : ∀ g ∈ fs, g.fits := fun g hg => hf g (List.mem_cons_of_mem _ hg)
    have h32 : ∀ {n k : Nat}, n < 2 ^ k → k ≤ 32 → n < 2 ^ 32 := fun h hk =>
      lt_of_lt_of_le h (Nat.pow_le_pow_right (by decide) hk)
    rw [packFrom, packNat]
    split
    next hw =>
      have hv : cur.toNat + 2 ^ pos * f.value < 2 ^ (pos + f.width) := by
        rw [Nat.pow_add]
        calc cur.toNat + 2 ^ pos * f.value < 2 ^ pos * (f.value + 1) := by rw [Nat.mul_succ]; omega
          _ ≤ 2 ^ pos * 2 ^ f.width := Nat.mul_le_mul_left _ hfit.1
      have hs : 2 ^ pos * f.value < 2 ^ 32 := lt_of_le_of_lt (Nat.le_add_left ..) (h32 hv hw)
      have hn : (cur ||| BitVec.ofNat 32 (f.value <<< pos)).toNat = cur.toNat + 2 ^ pos * f.value := by
        have hm : (f.value <<< pos) % 2 ^ 32 = f.value <<< pos := by
          rw [Nat.shiftLeft_eq, Nat.mul_comm]
          exact Nat.mod_eq_of_lt hs
        rw [BitVec.toNat_or, BitVec.toNat_ofNat, hm, or_shifted hc]
      rw [packFrom_toNat fs _ _ hrest hw (by rw [hn]; exact hv), hn]
    next =>
      have hn : (BitVec.ofNat 32 f.value).toNat = f.value := by
        rw [BitVec.toNat_ofNat, Nat.mod_eq_of_lt (h32 hfit.1 hfit.2)]
      rw [List.map_cons, packFrom_toNat fs _ _ hrest hfit.2 (by rw [hn]; exact hfit.1), hn]

/-- Word `k` of a packed record. -/
theorem packWords_toNat {n k : Nat} {fs : List Field} (h : ∀ f ∈ fs, f.fits) (hk : k < n) :
    ((packWords n fs).getD k 0).toNat = (packNat fs 0 0).getD k 0 := by
  have hm := packFrom_toNat fs 0 0 h (by decide) (by decide)
  rw [show (0 : Word).toNat = 0 from rfl] at hm
  rw [← hm, packWords, List.getD_eq_getElem?_getD, List.getElem?_take_of_lt hk, List.getD_eq_getElem?_getD, List.getElem?_map,
    List.getElem?_append]
  split
  · rename_i hl
    rw [List.getElem?_eq_getElem hl]
    rfl
  · rename_i hl
    rw [List.getElem?_eq_none (not_lt.1 hl), List.getElem?_replicate]
    split <;> rfl

theorem packWord_toNat {fs : List Field} (h : ∀ f ∈ fs, f.fits) : (packWord fs).toNat = (packNat fs 0 0).headD 0 := by
  have hm := packFrom_toNat fs 0 0 h (by decide) (by decide)
  rw [show (0 : Word).toNat = 0 from rfl] at hm
  rw [← hm, packWord]
  cases packFrom fs 0 0 <;> rfl

@[simp] theorem packWords_length (n : Nat) (fs : List Field) : (packWords n fs).length = n := by simp [packWords]

/-! ### The blocks of the page -/

/-- The records of a list, `w` words each, then zeros. -/
theorem getD_padded {α : Type} {f : α → List Word} {w : Nat} (hf : ∀ a, (f a).length = w) (n : Nat) {j : Nat} (hj : j < w) :
    ∀ (l : List α) (k : Nat), (l.flatMap f ++ List.replicate n 0).getD (w * k + j) 0 = ((l[k]?).map fun a => (f a).getD j 0).getD 0
  | [], k => by
    rw [List.flatMap_nil, List.nil_append, List.getD_eq_getElem?_getD, List.getElem?_replicate]
    split <;> rfl
  | a :: l, 0 => by
    rw [List.flatMap_cons, List.append_assoc, Nat.mul_zero, Nat.zero_add, List.getD_append _ _ _ _ (by rw [hf]; exact hj)]
    rfl
  | a :: l, k + 1 => by
    rw [List.flatMap_cons, List.append_assoc, List.getD_append_right _ _ _ _ (by rw [hf, Nat.mul_succ]; omega), hf,
      show w * (k + 1) + j - w = w * k + j by rw [Nat.mul_succ]; omega, getD_padded hf n hj l k]
    rfl

theorem getD_take {l : List Word} {n i : Nat} (h : i < n) : (l.take n).getD i 0 = l.getD i 0 := by
  rw [List.getD_eq_getElem?_getD, List.getElem?_take_of_lt h, List.getD_eq_getElem?_getD]

/-- The records of the page, in its order, and their lengths in words. -/
def Part.pageBlocks (p : Part) : List (List Word) :=
  [p.partBlock] ++ Door.all.map p.doorWords ++ Corner.all.map p.windowWords ++ Fob.all.map p.fobWords ++
    [p.searchListWords, p.flightWords, List.replicate 32 0, p.operationWords, p.inputWords,
      padTo 18 (p.holders.flatMap holderWords), padTo 18 (p.waiting.flatMap waiterWords), List.replicate 4 0]

def pageLengths : List Nat := 16 :: List.replicate 13 8 ++ [24, 8, 32, 16, 16, 18, 18, 4]

theorem padTo_length (n : Nat) (l : List Word) : (padTo n l).length = n := by simp [padTo]

theorem Part.flightWords_length (p : Part) : p.flightWords.length = 8 := by
  unfold Part.flightWords
  split <;> first | exact List.length_replicate | exact packWords_length ..

theorem Part.operationWords_length (p : Part) : p.operationWords.length = 16 := by
  unfold Part.operationWords
  split <;> first | exact List.length_replicate | exact packWords_length ..

theorem Part.pageBlocks_lengths (p : Part) : p.pageBlocks.map List.length = pageLengths := by
  have hl : p.searchListWords.length = 24 := by simp [Part.searchListWords]
  simp [Part.pageBlocks, pageLengths, Door.all, Corner.all, Fob.all, Part.partBlock, Part.doorWords, Part.windowWords,
    Part.fobWords, Part.inputWords, hl, p.flightWords_length, p.operationWords_length, padTo_length, List.replicate]

theorem Part.statusPage_eq (p : Part) : p.statusPage = p.pageBlocks.flatten := by
  simp [Part.statusPage, Part.pageBlocks, Door.all, Corner.all, Fob.all]

theorem getD_flatten {k : Nat} : ∀ (ls : List (List Word)) (j : Nat) {l : List Word}, ls[j]? = some l → k < l.length →
    ls.flatten.getD (((ls.map List.length).take j).sum + k) 0 = l.getD k 0
  | [], j, _, h, _ => by simp at h
  | a :: ls, 0, l, h, hk => by
    cases h
    rw [List.flatten_cons, List.map_cons, List.take_zero, List.sum_nil, Nat.zero_add, List.getD_append _ _ _ _ hk]
  | a :: ls, j + 1, l, h, hk => by
    rw [List.flatten_cons, List.map_cons, List.take_succ_cons, List.sum_cons, Nat.add_assoc,
      List.getD_append_right _ _ _ _ (Nat.le_add_right ..), Nat.add_sub_cancel_left, getD_flatten ls j h hk]

/-- Word `k` of block `j` of the page. -/
theorem Part.hostRead_block (p : Part) {j k i : Nat} {l : List Word} (hj : p.pageBlocks[j]? = some l)
    (hl : l.length = pageLengths.getD j 0) (hk : k < pageLengths.getD j 0) (hi : i = (pageLengths.take j).sum + k) (h : i < 256) :
    p.hostRead i = l.getD k 0 := by
  rw [Part.hostRead, if_pos h, p.statusPage_eq, hi, ← p.pageBlocks_lengths]
  exact getD_flatten _ _ hj (by rw [hl]; exact hk)

theorem Part.hostRead_part (p : Part) {k : Nat} (h : k < 16) : p.hostRead k = p.partBlock.getD k 0 :=
  p.hostRead_block (j := 0) rfl rfl h (Nat.zero_add k).symm (by omega)

theorem Part.hostRead_door (p : Part) (d : Door) {k : Nat} (h : k < 8) :
    p.hostRead (16 + 8 * d.ctorIdx + k) = (p.doorWords d).getD k 0 := by
  cases d
  · exact p.hostRead_block (j := 1) rfl (packWords_length ..) h rfl (by change 16 + k < 256; omega)
  · exact p.hostRead_block (j := 2) rfl (packWords_length ..) h rfl (by change 24 + k < 256; omega)
  · exact p.hostRead_block (j := 3) rfl (packWords_length ..) h rfl (by change 32 + k < 256; omega)
  · exact p.hostRead_block (j := 4) rfl (packWords_length ..) h rfl (by change 40 + k < 256; omega)
  · exact p.hostRead_block (j := 5) rfl (packWords_length ..) h rfl (by change 48 + k < 256; omega)

theorem Part.hostRead_window (p : Part) (c : Corner) {k : Nat} (h : k < 8) :
    p.hostRead (56 + 8 * c.ctorIdx + k) = (p.windowWords c).getD k 0 := by
  cases c
  · exact p.hostRead_block (j := 6) rfl (packWords_length ..) h rfl (by change 56 + k < 256; omega)
  · exact p.hostRead_block (j := 7) rfl (packWords_length ..) h rfl (by change 64 + k < 256; omega)
  · exact p.hostRead_block (j := 8) rfl (packWords_length ..) h rfl (by change 72 + k < 256; omega)
  · exact p.hostRead_block (j := 9) rfl (packWords_length ..) h rfl (by change 80 + k < 256; omega)

theorem Part.hostRead_fob (p : Part) (f : Fob) {k : Nat} (h : k < 8) :
    p.hostRead (88 + 8 * f.ctorIdx + k) = (p.fobWords f).getD k 0 := by
  cases f
  · exact p.hostRead_block (j := 10) rfl (packWords_length ..) h rfl (by change 88 + k < 256; omega)
  · exact p.hostRead_block (j := 11) rfl (packWords_length ..) h rfl (by change 96 + k < 256; omega)
  · exact p.hostRead_block (j := 12) rfl (packWords_length ..) h rfl (by change 104 + k < 256; omega)
  · exact p.hostRead_block (j := 13) rfl (packWords_length ..) h rfl (by change 112 + k < 256; omega)

/-- The place `k` of the search list: its request, or zeros. -/
theorem Part.hostRead_search (p : Part) {k j : Nat} (hk : k < 6) (hj : j < 4) : p.hostRead (120 + 4 * k + j) =
    ((p.locator.list[k]?).map fun r => (packWords 4 (requestFields r)).getD j 0).getD 0 := by
  rw [p.hostRead_block (j := 14) (k := 4 * k + j) (i := 120 + 4 * k + j) rfl (by simp [Part.searchListWords, pageLengths])
    (by change _ < 24; omega) (Nat.add_assoc ..) (by omega), Part.searchListWords,
    getD_take (by omega), getD_padded (fun _ => packWords_length ..) _ hj]

theorem Part.hostRead_flight (p : Part) {k : Nat} (h : k < 8) : p.hostRead (144 + k) = p.flightWords.getD k 0 :=
  p.hostRead_block (j := 15) rfl p.flightWords_length h rfl (by omega)

theorem Part.hostRead_operation (p : Part) {k : Nat} (h : k < 16) : p.hostRead (184 + k) = p.operationWords.getD k 0 :=
  p.hostRead_block (j := 17) rfl p.operationWords_length h rfl (by omega)

theorem Part.hostRead_inputs (p : Part) {k : Nat} (h : k < 16) : p.hostRead (200 + k) = p.inputWords.getD k 0 :=
  p.hostRead_block (j := 18) rfl (packWords_length ..) h rfl (by omega)

/-- The place `k` of the holders list as shown. -/
theorem Part.hostRead_holder (p : Part) {k j : Nat} (hk : k < 9) (hj : j < 2) : p.hostRead (216 + 2 * k + j) =
    ((p.holders[k]?).map fun h => (holderWords h).getD j 0).getD 0 := by
  rw [p.hostRead_block (j := 19) (k := 2 * k + j) (i := 216 + 2 * k + j) rfl (padTo_length ..)
      (by change _ < 18; omega) (Nat.add_assoc ..) (by omega), padTo, getD_take (by omega),
    getD_padded (f := holderWords) (fun _ => packWords_length ..) _ hj]

/-- The place `k` of the waiting list as shown. -/
theorem Part.hostRead_waiter (p : Part) {k j : Nat} (hk : k < 9) (hj : j < 2) : p.hostRead (234 + 2 * k + j) =
    ((p.waiting[k]?).map fun w => (waiterWords w).getD j 0).getD 0 := by
  rw [p.hostRead_block (j := 20) (k := 2 * k + j) (i := 234 + 2 * k + j) rfl (padTo_length ..)
      (by change _ < 18; omega) (Nat.add_assoc ..) (by omega), padTo, getD_take (by omega),
    getD_padded (f := waiterWords) (fun _ => packWords_length ..) _ hj]

/-- The words between the records read zero. -/
theorem Part.hostRead_gaps (p : Part) {i : Nat} (h : (152 ≤ i ∧ i < 184) ∨ (252 ≤ i ∧ i < 256)) : p.hostRead i = 0 := by
  rcases h with ⟨h1, h2⟩ | ⟨h1, h2⟩
  · rw [p.hostRead_block (j := 16) (k := i - 152) rfl List.length_replicate (by change _ < 32; omega)
      (by change i = 152 + (i - 152); omega) (by omega), List.getD_eq_getElem?_getD, List.getElem?_replicate]
    split <;> rfl
  · rw [p.hostRead_block (j := 21) (k := i - 252) rfl List.length_replicate (by change _ < 4; omega)
      (by change i = 252 + (i - 252); omega) (by omega), List.getD_eq_getElem?_getD, List.getElem?_replicate]
    split <;> rfl

end Sys2Proof.Machine
end

