-- ==== Sys2Proof/Tests/Slice0.lean ====
section
/-! SUPPORT. Tests: ill-formed commands that the checks refuse, one step of a few commands, and for each statement with
premises a concrete state and operands that meet them. -/

-- One theorem at a time: elaborated side by side, the lemmas take more threads than the check has memory for.
set_option deprecated.oldSectionVars true

namespace Sys2Proof.Tests

open Sys2Proof.Machine

/-! ### Sample states -/

/-- The part in SERVICE one second after power-on, the memory served, every door LOCKED and CLOSED. -/
def serving : Part := { State.reset.part with
  clock := 1000
  state := .service
  port := { Port.fresh with served := true }
  doors := { Doors.fresh with settling := none }
  dwell := some 30000
  store := { State.reset.part.store with ready := true } }

def dozing : Part := { serving with state := .doze, dwell := none, listen := some ⟨100, 1000, none⟩ }
def inState (s : PartState) : Part := { serving with state := s }
def unlockedDoor : DoorRec := ⟨.unlocked, .isClosed, none, .sound, false⟩
def unlockedAll : Part := { serving with doors := { serving.doors with recs := PerDoor.all unlockedDoor } }
def withCrash (p : Part) : Part := { p with
  crash := ⟨some ⟨900, 1⟩, none⟩
  doors := { p.doors with recs := PerDoor.all unlockedDoor, childRL := .released, childRR := .released } }
/-- The raw level of `i` has been `l` since power-on, the debounced level is `old`. -/
def heard (p : Part) (i : Input) (l : Level) (old : Level := .rest) : Part := p.setInput i ⟨l, old, some 0, none, false⟩
/-- A sound LEARNED window in mid travel. -/
def midWindow : WindowRec := { WindowRec.fresh with position := 1000, travel := 2000, learned := true }
def moving (m : Motion) (pos : Nat) (learned : Bool) : WindowRec := { midWindow with
  motion := m
  mode := some .manual
  mover := some .masterSwitch
  position := pos
  learned := learned }
/-- A window under way for `v` at `pos` in `mode`. -/
def underWay (m : Motion) (mode : Mode) (v : Mover) (pos : Nat) : WindowRec := { moving m pos true with
  mode := some mode
  mover := some v }
def stalling (m : Motion) (pos : Nat) (learned : Bool) : Part :=
  (serving.setWindow .fl (moving m pos learned)).setMonitor .fl { MonitorRec.fresh with stallAt := some 1000 }
/-- Window FL and its monitor as given. -/
def withWindow (w : WindowRec) (m : MonitorRec := .fresh) : Part := (serving.setWindow .fl w).setMonitor .fl m
/-- A MANUAL close of a LEARNED window at `pos`, its last pulse counted 6.3 ms before the millisecond of `serving`. -/
def closingAt (pos : Nat) : WindowRec := { moving .closing pos true with lastPulse := some 993700 }
def learning (phase : LearnPhase) (m : Motion) (pos count : Nat) : Part :=
  withWindow { moving m pos false with mover := some (.order 2) }
    { MonitorRec.fresh with learn := some ⟨phase, 2, count, false⟩, stallAt := some 1000 }
def holding (k : FobKeep) : Part := serving.setFob .f0 (.restored k)
def enrolled : FobKeep := ⟨.enrolled, 7, 0, 10, 0, false, true⟩
def slot0 : OrderHead := ⟨0, 5, true⟩
def word (n : Nat) : HostWord := ⟨BitVec.ofNat 32 n, true⟩
def stored (p : Part) (i n : Nat) : Part := p.storeWords i [BitVec.ofNat 32 n]
def waiter (a : Actuator) (units : Nat) : Waiter := ⟨a, units, .release, 0, 1000⟩
def release (s : ReleaseState) (second : Bool) : ReleaseOp :=
  ⟨s, second, .release, ⟨true, false, false, false, false⟩, [], some 1000⟩
def request (u : Purpose) : Request := ⟨u, some .fl, none, [], false, 0⟩
def flight (u : Purpose) (ph : SearchPhase) : Flight :=
  ⟨request u, PerAntenna.all true, 0, ph, 1000, 0, PerFob.all .empty⟩
def searching (f : Flight) : Part := { holding enrolled with locator := ⟨[], some f, 1⟩ }
/-- The result of a PASS reply of the enrolled fob, found in `z`. -/
def found (z : Zone) : PerFob FobResult := (PerFob.all FobResult.empty).set .f0 ⟨.pass, 7, PerAntenna.all 0, some z, 900⟩
def frame (id : Nat) (counter : Nat) : Frame := ⟨BitVec.ofNat 32 id, .unlock, BitVec.ofNat 28 counter, 0, .pass⟩
def measured (k : Option SupplyCandidate) : Part := { serving with supply := { serving.supply with candidate := k } }
def tracking : Part := (holding enrolled).setFob .f0 { FobRec.restored enrolled with
  lastFrame := some ⟨10, 0, 700⟩
  tracker := .tracking .unlock 700 }

/-- The page of the defaults. -/
def defaultPage : List Nat :=
  [45000, 12] ++ [200, 300] ++ [200, 100, 8, 80, 200] ++ [300, 60] ++ [25, 50, 400] ++ [1200, 900] ++
    [11000, 11600, 9000, 9600] ++ [8, 4] ++ [30000, 100] ++ [140, 70] ++ [31]
def withPage (relock : Nat) (p : Part := serving) : Part := p.storeWords 272 ((relock :: defaultPage.tail).map (BitVec.ofNat 32))

/-! ### Ill-formed commands -/

theorem test_registerWrite_with_a_request_bit_is_refused :
    (Instr.registerWrite .control 1).wellFormed = false ∧ (Instr.registerWrite .control 2).wellFormed = false ∧
      (Instr.registerWrite .control 4).wellFormed = true ∧ (Instr.registerWrite .status 3).wellFormed = true := by decide

theorem test_unknownCommand_of_a_known_kind_is_refused :
    (Instr.unknownCommand 1).wellFormed = false ∧ (Instr.unknownCommand 5).wellFormed = false ∧
      (Instr.unknownCommand 0).wellFormed = true ∧ (Instr.unknownCommand 6).wellFormed = true := by decide

theorem test_rawInputChange_to_a_level_the_input_lacks_is_refused :
    (Instr.rawInputChange (.ajar .fl) .l2).wellFormed = false ∧ (Instr.rawInputChange .rocker .l3).wellFormed = false ∧
      (Instr.rawInputChange .crash .l1).wellFormed = false ∧
      (Instr.rawInputChange (.switch (.master .fl)) .l4).wellFormed = true := by decide

theorem test_batteryMeasurement_beyond_20000_is_refused :
    (Instr.batteryMeasurement 20001).wellFormed = false ∧ (Instr.batteryMeasurement 20000).wellFormed = true := by decide

theorem test_hallPulse_beyond_its_millisecond_is_refused :
    (Instr.hallPulse .fl 200 1000).wellFormed = false ∧ (Instr.hallPulse .fl 200 999).wellFormed = true := by decide

/-! ### One step -/

/-- The part of the state a step of `c` from `p` answers. -/
def after (p : Part) (c : Instr) : Option Part :=
  match step ⟨p, [c]⟩ with
  | .next t => some t.part
  | .fault _ | .refused _ => none

theorem test_powerOnReset_reads_the_strap : (after serving (.powerOnReset .supply)).map (·.driverDoor) = some .fr := by decide

theorem test_memoryWrite_stores_a_page_word :
    (after serving (.memoryWrite 272 [word 7])).map (fun p => Memory.readWord p.port.memory 272) = some 7 := by decide

theorem test_lockDoors_unlocks_the_named_door :
    (after serving (.lockDoors slot0 (word 1) (word 1))).map
      (fun p => ((p.door .fl).lock, (p.door .fr).lock, p.head 0)) =
      some (.unlocked, .locked, ⟨.done, 1, 5, 32⟩) := by decide

theorem test_setWindowLockout_sets_the_lockout :
    (after serving (.setWindowLockout slot0 (word 1))).map (·.lockout) = some true := by decide

theorem test_crashLine_starts_the_assertion :
    (after serving (.crashLineChange true)).map (·.crash.assertion) = some (some ⟨1000, false⟩) := by decide

theorem test_batteryMeasurement_holds_a_candidate :
    (after serving (.batteryMeasurement 10000)).map (·.supply.candidate) = some (some ⟨.low, 1⟩) := by decide

theorem test_tables_give_no_bits : decodeTableWord 32 0 = none ∧ State.reset.withFetchWord 32 0 = State.reset := by decide

/-! ### Premises of the statements -/

/-- No event due; and the first event due, at the edge of its guard, for one of each kind of owner. -/
theorem test_EmptyQueue_premises :
    (State.reset.pending = [] ∧ State.reset.part.nextDue = none) ∧
      ({ serving with clock := 30000 } : Part).nextDue = some .dozeDwellExpiry ∧
      ({ serving with clock := 29999 } : Part).nextDue = none ∧
      ({ serving with crash := ⟨none, some ⟨996, false⟩⟩ } : Part).nextDue = some .crashEvent ∧
      ({ serving with crash := ⟨none, some ⟨997, false⟩⟩ } : Part).nextDue = none ∧
      (withWindow { midWindow with idle := 500 }).nextDue = some (.heatFall .fl) ∧
      (withWindow { midWindow with idle := 499 }).nextDue = none ∧
      (heard serving (.ajar .fl) .l1).nextDue = some (.ajarChange .fl .isOpen) ∧
      (searching (flight .entry (.reply .f3))).nextDue = some .searchCompletion := by decide

theorem test_PortReset_premises :
    (inState .held).state = .held ∧ serving.state = .service ∧
      ((inState (.safeHold .parityFault)).inSafeHold = true ∧ serving.port.served = true) ∧
      State.reset.part.state = .start .full .drivers := by decide

/-- A latch that pulses, one that waits with its entry, and one at rest; a pull pending, a child lock engaged. -/
theorem test_PortReset_keeps_what_stands :
    let p : Part := { (serving.setLatch .fl (some (release .pulsing false))).setLatch .fr (some (release .waiting false)) with
      holders := [⟨.latch .fl, 1, .release, 900, .withinBudget⟩]
      waiting := [waiter (.latch .fr) 1] }
    p.latch .fl = some (release .pulsing false) ∧ p.latch .fr = some (release .waiting false) ∧ p.latch .tg = none ∧
      (⟨.latch .fl, 1, .release, 900, .withinBudget⟩ : Holder) ∈ p.holders ∧ Precedence.release ≠ .window ∧
      (waiter (.latch .fr) 1).actuator = .latch .fr ∧ p.doors.childRL = .engaged := by decide

theorem test_BurstsWake_premises :
    dozing.state = .doze ∧ dozing.waking = none ∧ (0 : Word).getLsbD 0 = false ∧ (2 : Word).getLsbD 0 = false ∧
      (2 : Word).getLsbD 1 = true ∧ orderPosted (.vent slot0) = some (slot0, .vent, []) ∧
      orderPosted (.lockDoors slot0 (word 1) (word 31)) = some (slot0, .lockDoors, [word 1, word 31]) := by decide

theorem test_RegisterBursts_premises :
    serving.state ≠ .doze ∧ State.reset.part.state ≠ .doze ∧ (2 : Word).getLsbD 0 = false := by decide

/-- One word of each record, at its first place or its last: a door, a window, the record of fob 3, the sixth search, the
search in flight, a VENT with its entries DONE, the ninth holder and the ninth waiting entry; the empty places are zero. -/
theorem test_StatusPage_words :
    let h : Holder := ⟨.latch .tg, 1, .escape, 900, .overBudget⟩
    let p := { (serving.setWindow .rr midWindow).setFob .f3 (.restored enrolled) with
      locator := ⟨List.replicate 6 (request .entry), some (flight .lock (.reply .f0)), 1⟩
      operation := some ⟨.vent, .order 15, 900, none, PerCorner.all ⟨.done, none, some .target⟩, none⟩
      holders := List.replicate 9 h
      waiting := List.replicate 9 (waiter (.window .fl) 2) }
    (p.hostRead 48).toNat = 4 + 8 + 3 * 32 + 128 + 7 * 2048 + 65536 ∧
      (p.hostRead 80).toNat = 1000 + 2000 * 8192 + 3 * 2 ^ 28 ∧ (p.hostRead 113).toNat = 7 ∧
      p.locator.list[5]? = some (request .entry) ∧ (p.hostRead 140).toNat = 255 * 32 + 3 * 2 ^ 29 ∧
      (p.hostRead 144).toNat = 1 + 127 * 32 + 4096 + 7 * 8192 ∧ (p.hostRead 184).toNat = 1 + 2 * 4 + 15 * 32 ∧
      (p.holders[8]? = some h ∧ (p.hostRead 232).toNat = 8 + 16 + 2 * 64 + 900 * 256 ∧ (p.hostRead 233).toNat = 2) ∧
      (p.waiting[8]? = some (waiter (.window .fl) 2) ∧ (p.hostRead 251).toNat = 1000) ∧
      (serving.hostRead 120 = 0 ∧ serving.hostRead 144 = 0 ∧ serving.hostRead 184 = 0 ∧ serving.hostRead 216 = 0) := by decide

/-- The first and last inputs of each run of levels. -/
theorem test_StatusPage_inputs :
    let l := inputList .fl
    (l[0]? = some (.ajar .fl) ∧ l[19]? = some (.lockTouch .fr)) ∧ (l[20]? = some (.switch (.master .fl)) ∧
      l[26]? = some (.switch (.door .rr))) ∧ l[27]? = some .rocker ∧ l[31]? = some .crash ∧
      bitsAt ((heard serving .rocker .l1 .l2).hostRead 201) 9 2 = 2 := by decide

/-- An unread ORDER row and a GAP row whose mark holds class 1. -/
theorem test_Registers_premises :
    let p : Part := { serving with scroll := ⟨127, 1, 0⟩, port := { serving.port with mask := 2 } }
    let q := fun (n : Nat) => stored p 988 n
    (bitsAt ((q 0x10000000).unreadWord 0 0) 28 4 = 1 ∧ (q 0x10000000).port.mask.getLsbD 1 = true ∧
      (q 0x10000000).attn = true) ∧
      (bitsAt ((q 0xF0000000).unreadWord 0 0) 28 4 = 15 ∧ (q 0xF0000000).attn = false) ∧
      serving.budget ≤ 12 ∧ unitsHeld serving.holders ≤ 13 ∧ (259 ≤ 259 ∧ 271 < 272) ∧ 992 ≤ 992 := by decide

theorem test_RegisterBursts_headers :
    let kind := fun h : BitVec 16 => (h.extractLsb' 13 3).toNat
    kind 0x2100 = 1 ∧ kind 0x4100 = 2 ∧ kind 0x6000 = 3 ∧ kind 0x8000 = 4 ∧ kind 0xA001 = 5 ∧ kind 0x1FFF = 0 ∧
      kind 0xC000 = 6 ∧ kind 0xFFFF = 7 ∧ burstCommand 0x2100 3 [] = .memoryRead 256 3 ∧
      burstCommand 0xA001 0 [word 4] = .registerWrite .control 4 ∧ burstCommand 0xFFFF 0 [] = .unknownCommand 7 := by decide

theorem test_MemoryRead_premises : serving.state ≠ .doze ∧ (0 : Nat) < 1 := by decide

theorem test_WriteContinue_premises :
    (Register.status = .status ∧ (4 : Word).getLsbD 0 = false) ∧ serving.state = .service ∧
      ({ dozing with waking := some ⟨.link, 1000, [], false, true⟩ } : Part).waking =
        some ⟨.link, 1000, [], false, true⟩ ∧
      (⟨.link, 1000, [], false, true⟩ : Waking).resetHeld = true := by decide

theorem test_serving_is_tidy : serving.tidy :=
  ⟨rfl, rfl, (by decide : serving.scroll.start < 128), (by decide : serving.scroll.unread ≤ 128)⟩

theorem test_slot0_is_accepted : serving.accepts slot0 := ⟨test_serving_is_tidy, rfl, rfl, rfl, rfl⟩

/-- Each clause at the first and last index it speaks of. -/
theorem test_WrittenWords_premises :
    let slotFree := fun (p : Part) (i : Nat) => (p.head (Fin.ofNat 16 ((i - 352) / 8))).state = .free
    let taken := (serving.setHead 0 ⟨.taken, 1, 0, 0⟩).setHead 15 ⟨.done, 1, 0, 0⟩
    serving.port.served = true ∧ (272 ≤ (272 : BitVec 10).toNat ∧ (351 : BitVec 10).toNat < 352) ∧
      ((353 - 352) % 8 ≠ 0 ∧ (479 - 352) % 8 ≠ 0 ∧ slotFree serving 353 ∧ slotFree serving 479) ∧
      (¬ slotFree taken 353 ∧ ¬ slotFree taken 479) ∧ ((992 - 992) % 8 ≠ 7 ∧ (1022 - 992) % 8 ≠ 7) ∧
      ((255 : BitVec 10).toNat < 256 ∧ 480 ≤ (480 : BitVec 10).toNat ∧ (991 : BitVec 10).toNat < 992) ∧
      2 < (word 3).value.toNat ∧ (257 : BitVec 10).toNat = 257 ∧ ((word 0).value ≠ 1 ∧ serving.state ≠ .held) ∧
      (260 ≤ (260 : BitVec 10).toNat ∧ (271 : BitVec 10).toNat < 272) ∧ ((999 - 992) % 8 = 7 ∧ (1023 - 992) % 8 = 7) := by decide

/-- Five unread rows from row 126: a write of 3 gives back all, of 127 one, of 4 none. -/
theorem test_ScrollStart_premises :
    let old : Scroll := ⟨126, 5, 0⟩
    (old.start + old.unread) % 128 = 3 ∧ (127 < 128 ∧ (127 + 128 - old.start) % 128 < old.unread) ∧
      (4 < 128 ∧ 4 ≠ 3 ∧ old.unread ≤ (4 + 128 - old.start) % 128) ∧ 127 < 128 := by decide

/-- A findings row of the receiver stage, and a stuck rocker in SAFE-HOLD; the scroll full, and not. -/
theorem test_ReportRows_premises :
    let p := inState (.start .short .receiver)
    let q := (inState (.safeHold .parityFault)).setInput .rocker ⟨.l1, .l1, none, some 1000, false⟩
    (p.state = .start .short .receiver ∧ ({ p.degraded with receiver := true } : Degraded) ≠ .none) ∧
      (q.inSafeHold = true ∧ takenInSafeHold .rocker = false ∧ due (q.input .rocker).stuckAt q.clock = true ∧
        q.muted .rocker = false) ∧
      (q.port.served = true ∧ q.scroll.unread < 128) ∧ ¬ ({ q.scroll with unread := 128 } : Scroll).unread < 128 := by decide

theorem test_LockDoors_premises :
    ((word 1).sound = true ∧ 0 < (word 31).value.toNat ∧ (word 31).value.toNat < 32) ∧ (word 1).value = 1 ∧
      (word 0).value = 0 ∧ (word 2).value = 2 ∧ serving.crashSet = false ∧ serving.doors.ign = false ∧
      (withCrash serving).crashSet = true := by decide

theorem test_LockDoors_all_closed : ∀ d, (serving.door d).ajar = .isClosed := by
  intro d
  cases d <;> decide

/-- DEADLOCK with a door OPEN and with IGN on is taken as LOCK; on the shut car it deadlocks. -/
theorem test_LockDoors_deadlock_taken_as_lock :
    let ajar := unlockedAll.setDoor .tg { unlockedDoor with ajar := .isOpen }
    let ign : Part := { unlockedAll with doors := { unlockedAll.doors with ign := true } }
    ((ajar.door .tg).ajar ≠ .isClosed ∧ ign.doors.ign = true ∧ ajar.crashSet = false) ∧
      [ajar, ign, unlockedAll].map (fun p => (after p (.lockDoors slot0 (word 2) (word 31))).map fun q =>
        ((q.door .fl).lock, (q.door .tg).lock, bitsAt (Memory.readWord q.port.memory 358) 0 2)) =
        [some (.locked, .lockPending, 0), some (.locked, .locked, 0), some (.deadlocked, .deadlocked, 2)] := by decide

theorem test_LockDoors_ajar_is_accepted : (unlockedAll.setDoor .tg { unlockedDoor with ajar := .isOpen }).accepts slot0 :=
  ⟨test_serving_is_tidy, rfl, rfl, rfl, rfl⟩

theorem test_accepts_with_the_crash_latch : (withCrash serving).accepts slot0 := ⟨test_serving_is_tidy, rfl, rfl, rfl, rfl⟩

theorem test_ChildLocks_order_premises :
    (0 < (word 1).value.toNat ∧ (word 3).value.toNat < 4 ∧ (word 1).value.toNat < 2) ∧ serving.crashSet = false ∧
      (word 0).value = 0 ∧ (withCrash serving).crashSet = true := by decide

theorem test_ReleaseLatch_premises :
    ((word 4).value = BitVec.ofNat 32 (Door.tg).ctorIdx ∧ (unlockedAll.door .tg).lock.barred = false ∧
      (unlockedAll.door .tg).ajar = .isClosed ∧ (unlockedAll.door .tg).fault ≠ .driver ∧ unlockedAll.latch .tg = none ∧
      unlockedAll.waiting = [] ∧ 1 ≤ unlockedAll.unitsFree) ∧
      (serving.door .tg).lock.barred = true ∧
      ((unlockedAll.setDoor .tg { unlockedDoor with ajar := .isOpen }).door .tg).ajar = .isOpen := by decide

/-- The soft stops and counts aimed at, and a window there: at the stop, past it, at the count. -/
theorem test_WindowOrders_targets :
    let bottom := serving.cfg.softStopOffset
    let top := midWindow.travel - bottom
    let aim := fun n => max bottom (min (word n).value.toNat top)
    (word 0).value = 0 ∧ (word 1).value = 1 ∧ (word 2).value = 2 ∧ (word 2000).value.toNat ≤ midWindow.travel ∧
      bottom = 8 ∧ top = 1992 ∧ aim 0 = 8 ∧ aim 500 = 500 ∧ aim 2000 = 1992 ∧ (7 ≤ bottom ∧ top ≤ 1993) ∧
      (1000 < aim 2000 ∧ serving.crashSet = false) ∧ ¬ 1000 < aim 500 := by decide

theorem test_WindowOrders_arrives :
    (after (serving.setWindow .fl { midWindow with position := 500 }) (.moveWindow slot0 (word 0) (word 2) (word 500))).map
      (fun p => ((p.head 0).code.toNat, (p.window .fl).motion)) = some (32, .stopped) := by decide

theorem test_WindowOrders_move_premises :
    let p := serving.setWindow .fl midWindow
    ((word 0).value = BitVec.ofNat 32 (Corner.fl).ctorIdx ∧ (p.window .fl).motion = .stopped ∧
      (p.window .fl).pending = none ∧ (p.monitor .fl).learn = none ∧ (p.window .fl).learned = true ∧
      p.outOfService .fl = false ∧ (p.window .fl).thermal = false ∧ 1000 ≤ (p.window .fl).travel ∧
      p.cfg.softStopOffset ≤ 20 ∧ p.waiting = [] ∧ 2 ≤ p.unitsFree) ∧ (word 3).value = 3 := by decide

theorem test_ChildLocks_lockout_premises :
    ((word 1).value.toNat < 2 ∧ serving.lockout = decide ((word 0).value = 1)) ∧
      (heard serving .lockoutButton .l1).settledLevel .lockoutButton .l1 = true := by decide

/-- RL moved by its door switch, RR waiting for its own. -/
def rearSwitched : Part := { (serving.setWindow .rl (underWay .opening .manual .doorSwitch 500)).setWindow .rr
    { midWindow with pending := some ⟨⟨.closing, .manual, .doorSwitch, none, false⟩, 900⟩ } with
  holders := [⟨.window .rl, 2, .window, 900, .withinBudget⟩]
  waiting := [waiter (.window .rr) 2] }

theorem test_ChildLocks_lockout_turns_on :
    let p := rearSwitched
    (((p.window .rl).underWay = true ∧ (p.window .rl).mover = some .doorSwitch ∧ (p.window .rl).position ≤ (p.window .rl).travel) ∧
      (p.window .rr).underWay = false ∧ (∀ x ∈ p.waiting, x.actuator = .window .rr) ∧ p.lockout = false ∧ (word 1).value = 1) ∧
      [after p (.setWindowLockout slot0 (word 1)), after (heard p .lockoutButton .l1) (.lockoutButton true)].map (·.map fun q =>
        ((q.window .rl).lastStop, (q.window .rr).pending.isSome, q.holders.length, q.waiting.length)) =
        [some (some .overridden, false, 0, 0), some (some .overridden, false, 0, 0)] := by decide

theorem test_ChildLocks_lockout_turns_off :
    let p := { serving.setInput (.switch (.door .rr)) ⟨.l3, .l3, none, none, false⟩ with lockout := true }
    ((p.input (.switch (.door .rr))).level ≠ .rest ∧ (p.input (.switch (.door .rl))).level = .rest) ∧
      (after p (.setWindowLockout slot0 (word 0))).map (fun q =>
        (q.lockout, q.spent.get (.door .rr), q.spent.get (.door .rl))) = some (false, true, false) := by decide

theorem test_ChildLocks_lockout_is_accepted : rearSwitched.accepts slot0 := ⟨test_serving_is_tidy, rfl, rfl, rfl, rfl⟩

theorem test_WindowOrders_learn_premises :
    (word 3).value = BitVec.ofNat 32 (Corner.rr).ctorIdx ∧ (serving.window .rr).motion = .stopped ∧
      (serving.window .rr).pending = none ∧ (serving.monitor .rr).learn = none ∧ serving.outOfService .rr = false ∧
      (serving.window .rr).thermal = false ∧ serving.crashSet = false ∧ serving.waiting = [] ∧ 2 ≤ serving.unitsFree := by decide

theorem test_SearchesRun_locate_premises :
    (0 < (word 127).value.toNat ∧ (word 127).value.toNat < 128) ∧ serving.degraded.receiver = false ∧
      serving.supply.cls ≠ .critical ∧ serving.locator.list = [] ∧ serving.locator.flight = none ∧
      (word 127).value.getLsbD (Antenna.acr).ctorIdx = true ∧ serving.degraded.antennas.get .acr = false := by decide

/-- Record 0's enrolment block holds fob id 9, secret and counter 0 and the flag 0. -/
def blockFilled : Part := stored serving 992 9

theorem test_FobOrders_enrol_premises :
    let p := blockFilled
    (word 0).value = BitVec.ofNat 32 (Fob.f0).ctorIdx ∧ (p.fob .f0).waits = none ∧ p.blockSound .f0 = true ∧
      ((p.fob .f0).keep.state = .vacant ∧ p.fobOf (p.blockWord .f0 0) = none ∧ p.blockWord .f0 0 ≠ 0 ∧
        (p.blockWord .f0 5).toNat ≤ 268435455 ∧ (p.blockWord .f0 6).toNat ≤ 1) ∧
      ((holding enrolled).fob .f0).keep.state ≠ .vacant ∧ (holding enrolled).blockSound .f0 = true := by decide

theorem test_FobOrders_change_premises :
    (((holding enrolled).fob .f0).keep.state = .enrolled ∧ ((holding enrolled).fob .f0).tracker = .idle ∧
      ((holding enrolled).fob .f0).waits = none) ∧
      (serving.fob .f0).keep.state = .vacant ∧
      ((holding { enrolled with state := .suspended }).fob .f0).keep.state = .suspended ∧
      (word 0).value = 0 ∧ (word 1).value = 1 ∧ (word 1).value.toNat < 2 := by decide

theorem test_Combined_premises :
    (serving.sequencerRuns = false ∧ serving.crashSet = false) ∧
      ({ serving with operation := some ⟨.vent, .order 1, 0, none, PerCorner.all ⟨.waiting, none, none⟩, none⟩ } :
        Part).sequencerRuns = true := by decide

/-- FL learned in mid travel, FR at its stop, RL UNLEARNED, RR thermally blocked. -/
def fourWindows : Part := { serving with windows :=
  ⟨midWindow, { midWindow with position := 1992 }, .fresh, { midWindow with thermal := true }⟩ }

theorem test_OperationsAnswer_premises :
    let p := fourWindows
    (p.sequencerRuns = false ∧ p.crashSet = false ∧ p.waiting = [] ∧ 8 ≤ p.unitsFree) ∧
      (∀ c ∈ Corner.all, (p.window c).motion = .stopped ∧ (p.window c).pending = none ∧ (p.monitor c).learn = none ∧
        ((p.window c).learned = true → 1000 ≤ (p.window c).travel)) ∧
      p.cfg.softStopOffset ≤ 20 ∧ p.cfg.softStopOffset + p.cfg.slowZone < p.cfg.ventDepth ∧ p.cfg.ventDepth ≤ 600 ∧
      p.outOfService .fl = false ∧ 1000 < (p.window .fl).travel - p.cfg.softStopOffset ∧
      (p.window .fr).travel - p.cfg.softStopOffset ≤ (p.window .fr).position := by decide

theorem test_OperationsAnswer_completes :
    (after fourWindows (.comfortClose slot0)).bind (·.operation) = some ⟨.comfortClose, .order 0, 1000, some .lock,
      ⟨⟨.moving, some 1992, none⟩, ⟨.done, some 1992, some .atEnd⟩, ⟨.skipped, none, some .unlearned⟩,
        ⟨.skipped, none, some .thermal⟩⟩, none⟩ := by decide

def runs (o : Origin) (e : Entry) : Operation := ⟨.vent, o, 0, none, (PerCorner.all ⟨.done, none, some .target⟩).set .fl e, none⟩
def operating (o : Origin) (e : Entry) (w : WindowRec) : Part := { withWindow w with operation := some (runs o e) }

/-- A MOVING entry at its soft stop, both ways; a WAITING one at its limit; a crash event due; a hold session's end. -/
theorem test_OperationsFollow_premises :
    let going : Entry := ⟨.moving, some 8, none⟩
    let w := fun m t pos => { moving m pos true with mode := some .target, target := some t, mover := some .sequencer }
    ((operating (.order 1) going (w .opening 8 9)).operation = some (runs (.order 1) going) ∧
      (runs (.order 1) going).ended = none ∧ ((runs (.order 1) going).entries.get .fl).state = .moving) ∧
      (8 = serving.cfg.softStopOffset ∧ 9 ≤ 8 + 1) ∧
      ((w .closing 1992 1991).lastPulse = none ∧ 1992 ≤ 1991 + 1 ∧ 1991 ≤ (w .closing 1992 1991).travel) ∧
      ((waiter (.window .fl) 2).limit ≤ serving.clock ∧
        (⟨⟨.opening, .target, .sequencer, some 8, false⟩, 0⟩ : Pending).cmd.mover = .sequencer) ∧
      (⟨996, false⟩ : Assertion).since + 4 ≤ serving.clock ∧ serving.doorService = true ∧
      ((runs (.hold .f0) going).origin = .hold .f0 ∧ (⟨10, 0, 700⟩ : LastFrame).time + 300 ≤ serving.clock ∧
        (operating (.hold .f0) going (w .opening 8 9)).waiting = [] ∧ (w .opening 8 9).underWay = true) := by decide

theorem test_CrashEventOpens_release_premises :
    ((withCrash serving).doors.ign = false ∧ (withCrash serving).doors.vehicle = .standstill) ∧
      (withCrash serving).crashSet = true ∧ Vehicle.rolling ≠ .standstill := by decide

theorem test_ReconfigureAndStart_premises :
    ((withPage 45000).quiet = true ∧ (withPage 45000).failingCheck = none) ∧ (withPage 9999).quiet = true ∧
      (withPage 9999).failingCheck = some 1 ∧ serving.failingCheck = some 2 ∧
      (serving.setWindow .fl (moving .opening 500 true)).quiet = false := by decide

theorem test_ReconfigureAndStart_start_premises :
    let p := fun n => withPage n (inState .held)
    ((p 45000).state = .held ∧ (p 45000).port.served = true ∧ (word 1).value = 1 ∧ (p 45000).failingCheck = none) ∧
      (p 9999).failingCheck = some 1 := by decide

theorem test_Start_is_tidy : (withPage 45000 (inState .held)).tidy ∧ (withPage 9999 (inState .held)).tidy :=
  ⟨⟨by decide, rfl, by decide, by decide⟩, by decide, rfl, by decide, by decide⟩

theorem test_page_of_the_defaults_reads_as_the_defaults : (withPage 45000).page = .default := by decide

/-- The default page with one word rewritten, and with a parity mark on one word. -/
def withItem (i v : Nat) : Part := (withPage 45000).storeWords i [BitVec.ofNat 32 v]
def withMark (i : Nat) : Part := { withPage 45000 with port.parity := [(i, 1)] }

theorem test_page_checks_are_judged_at_their_bounds :
    ((withMark 272).failingCheck = some 0 ∧ (withMark 351).failingCheck = some 0 ∧ (withMark 271).failingCheck = none ∧
      (withMark 352).failingCheck = none) ∧
      ((withPage 0).failingCheck = none ∧ (withPage 120001).failingCheck = some 1) ∧
      ((withItem 274 80).failingCheck = none ∧ (withItem 274 79).failingCheck = some 2) ∧
      ((withItem 297 140).failingCheck = none ∧ (withItem 297 141).failingCheck = some 13) ∧
      ((withItem 297 141).storeWords 274 [79]).failingCheck = some 2 := by decide

theorem test_page_checks_states_are_tidy : (withMark 272).tidy ∧ (withItem 274 79).tidy ∧ (withItem 297 141).tidy :=
  ⟨⟨by decide, rfl, by decide, by decide⟩, ⟨by decide, rfl, by decide, by decide⟩, by decide, rfl, by decide, by decide⟩

theorem test_sample_states_accept :
    unlockedAll.accepts slot0 ∧ (holding enrolled).accepts slot0 ∧ (serving.setWindow .fl midWindow).accepts slot0 ∧
      blockFilled.accepts slot0 ∧ (withPage 45000).accepts slot0 ∧ (withPage 9999).accepts slot0 ∧
      (holding { enrolled with state := .suspended }).accepts slot0 :=
  ⟨⟨test_serving_is_tidy, rfl, rfl, rfl, rfl⟩, ⟨test_serving_is_tidy, rfl, rfl, rfl, rfl⟩,
    ⟨test_serving_is_tidy, rfl, rfl, rfl, rfl⟩, ⟨⟨by decide, rfl, by decide, by decide⟩, rfl, rfl, rfl, rfl⟩,
    ⟨⟨by decide, rfl, by decide, by decide⟩, rfl, rfl, rfl, rfl⟩,
    ⟨⟨by decide, rfl, by decide, by decide⟩, rfl, rfl, rfl, rfl⟩, ⟨test_serving_is_tidy, rfl, rfl, rfl, rfl⟩⟩

theorem test_OrdersWait_premises :
    (orderPosted (.lockDoors slot0 (word 1) (word 31)) = some (slot0, .lockDoors, [word 1, word 31]) ∧
      (∀ w ∈ [word 1, word 31], w.sound = true)) ∧
      ((inState .held).head slot0.slot).state = .free ∧ slot0.sound = true ∧
      (inState (.start .short .store)).state = .start .short .store ∧ TestStage.store ≠ .drivers ∧
      (inState .held).state = .held ∧ dozing.state = .doze ∧
      (inState (.start .short .drivers)).state = .start .short .drivers ∧
      (inState (.safeHold .parityFault)).inSafeHold = true := by decide

theorem test_other_states_are_tidy (x : PartState) : (inState x).tidy ∧ dozing.tidy := ⟨test_serving_is_tidy, test_serving_is_tidy⟩

theorem test_HeadWrites_premises :
    let slotIs := fun (p : Part) (s : SlotState) => (p.setHead 0 ⟨s, 1, 5, 0⟩).head 0
    let asks := fun n => bitsAt (word n).value 29 3
    asks 0 = 0 ∧ (slotIs serving .done).state = .done ∧ (slotIs serving .refused).state = .refused ∧
      ((slotIs (inState .held) .posted).state = .posted ∧ (inState .held).state = .held) ∧
      (asks 0x60000000 = 3 ∧ (slotIs serving .taken).state = .taken ∧ serving.state ≠ .doze) ∧
      (asks 0x20000000 = 1 ∧ (slotIs serving .taken).state ≠ .free) ∧
      (slotIs (inState (.start .short .store)) .posted).state = .posted ∧ (inState (.start .short .store)).state ≠ .held := by decide

/-- A TAKEN slot beside a VENT that moves FL for another order, and FR waiting for a grant. -/
def venting : Part :=
  let w := { moving .opening 500 true with mode := some .target, target := some 200, mover := some .sequencer }
  { ((withWindow w).setWindow .fr { midWindow with pending := some ⟨⟨.opening, .target, .sequencer, some 200, false⟩, 900⟩ }).setHead 0
      ⟨.taken, 7, 5, 0⟩ with
    operation := some ⟨.vent, .order 1, 900, none,
      ⟨⟨.moving, some 200, none⟩, ⟨.waiting, some 200, none⟩, ⟨.done, none, some .target⟩, ⟨.skipped, none, some .unlearned⟩⟩, none⟩
    holders := [⟨.window .fl, 2, .window, 900, .withinBudget⟩] }

theorem test_entries_fit_their_commands : venting.entriesFit ∧ (venting.head 0).state = .taken := by
  refine ⟨fun c => ⟨?_, ?_⟩, rfl⟩
  · cases c <;> decide
  · intro o ho _
    cases ho
    cases c
    · exact ⟨(by intro h; cases h), fun _ => ⟨rfl, rfl, rfl⟩⟩
    · exact ⟨fun _ => ⟨rfl, _, rfl, rfl⟩, (by intro h; cases h)⟩
    all_goals exact ⟨(by intro h; cases h), (by intro h; cases h)⟩

theorem test_HeadWrites_cancels :
    (after venting (.memoryWrite (slotStart 0) [word 0x60000000])).map
      (fun p => ((p.head 0).state, (p.head 0).code.toNat, (p.head 1).state)) = some (.done, 33, .free) := by decide

def noFindings : DriversFindings := ⟨false, PerCorner.all false, PerDoor.all false⟩
def silentStore : StoreFindings := ⟨false, PerRecord.all false, PerRecord.all false⟩
def soundStore : StoreFindings := { silentStore with answers := true }

theorem test_SelfTest_premises :
    (State.reset.part.state = .start .full .drivers ∧ noFindings.supplyFault = false) ∧
      (inState (.start .full .memory)).scroll = ⟨0, 0, (inState (.start .full .memory)).scroll.mark⟩ ∧
      (inState (.start .short .store)).storeUnreadable soundStore = false := by decide

/-- A store with a fob record, a lock record with a LOCKED door that stands OPEN, and a window record caught moving. -/
theorem test_StoreStage_premises :
    let copies : StoredCopies := { State.reset.part.store.copies with
      fobs := (PerFob.all ⟨none, none⟩).set .f0 ⟨some enrolled, none⟩
      lock := ⟨some ⟨PerDoor.all .locked, .engaged, .released, true⟩, none⟩
      windows := (PerCorner.all ⟨none, none⟩).set .fl ⟨some ⟨2000, 500, true, true⟩, none⟩ }
    let p := { inState (.start .full .store) with store := { serving.store with copies := copies } }
    let q := { p.setDoor .fl ⟨.unlocked, .isOpen, none, .sound, false⟩ with
      doors := { (p.setDoor .fl ⟨.unlocked, .isOpen, none, .sound, false⟩).doors with
        settling := some ⟨(PerDoor.all false).set .rr true, true, false⟩ } }
    p.storeUnreadable soundStore = false ∧ (inState (.start .short .store)).storeUnreadable soundStore = false ∧
      p.readFob soundStore .f0 = some enrolled ∧ p.readFob soundStore .f1 = none ∧
      p.readWindow soundStore .fl = some ⟨2000, 500, true, true⟩ ∧ p.readWindow soundStore .fr = none ∧
      p.recordBad soundStore .lock = false ∧ p.recordBad soundStore (.fob .f1) = true ∧
      (q.door .fl).ajar = .isOpen ∧ q.doors.settling = some ⟨(PerDoor.all false).set .rr true, true, false⟩ := by decide

theorem test_PartFaults_premises :
    ({ noFindings with supplyFault := true } : DriversFindings).supplyFault = true ∧
      (inState (.start .full .store)).storeUnreadable silentStore = true ∧ serving.inSafeHold = false ∧
      (inState (.safeHold .memoryFault)).inSafeHold = true ∧ serving.timeBaseBad = false ∧
      ({ serving with timeBaseBad := true } : Part).timeBaseBad = true := by decide

theorem test_Doze_premises :
    let late := { serving with clock := 30000 }
    (late.state = .service ∧ due late.dwell late.clock = true ∧ late.mayDoze = true) ∧
      ((late.setMonitor .fl { MonitorRec.fresh with watch := some ⟨.master .fl, 30100⟩ }).mayDoze = true) ∧
      ({ late with doors := { late.doors with ign := true } } : Part).mayDoze = false ∧
      dozing.listen = some ⟨100, 1000, none⟩ ∧ (⟨100, 1000, none⟩ : Listen).next ≤ dozing.clock ∧
      ({ dozing with waking := some ⟨.link, 1000, [], false, false⟩ } : Part).waking =
        some ⟨.link, 1000, [], false, false⟩ := by decide

def waking (p : Part) (crash : Bool) : Part := { p with
  state := .doze
  dwell := none
  waking := some ⟨.link, 1000, [], crash, false⟩ }

/-- A wake with nothing held nor posted, with a crash event held, and with a rocker, an order or a frame to come. -/
theorem test_Doze_woke_premises :
    let p := heard (waking (holding enrolled) false) .rocker .l1
    let fr : Frame := frame 7 11
    (p.state = .doze ∧ p.waking = some ⟨.link, 1000, [], false, false⟩ ∧ (∀ k : Slot, (p.head k).state ≠ .posted)) ∧
      (waking serving true).waking = some ⟨.link, 1000, [], true, false⟩ ∧
      (inputCommand .rocker .l1 = some (.lockRocker .lock) ∧ p.settledLevel .rocker .l1 = true ∧ p.muted .rocker = false) ∧
      (inputCommand (.switch (.master .fl)) .l1 = some (.windowSwitchChange (.master .fl) .up1) ∧
        (p.input (.switch (.master .fl))).level = .rest) ∧
      (orderPosted (.vent slot0) = some (slot0, .vent, []) ∧ p.port.served = true ∧ (p.head 0).state = .free) ∧
      (after { p with listen := some ⟨100, 1100, some 1005⟩ } (.remoteFrame fr)).map (fun q => q.waking.map (·.held)) =
        some (some [.frame fr 1000]) := by decide

theorem test_Doze_woke_is_tidy (crash : Bool) : (waking (holding enrolled) crash).tidy := test_serving_is_tidy

theorem test_Commits_premises :
    let p := { serving with store := { serving.store with dirty := [.lock] } }
    let q := { serving with store := { serving.store with commit := some ⟨.lock p.lockKeep, 1000, false⟩ } }
    (p.store.dirty = [.lock] ∧ p.store.commit = none ∧ p.critical = false ∧ p.store.ready = true) ∧
      (q.store.commit = some ⟨.lock p.lockKeep, 1000, false⟩ ∧ 1000 ≤ q.clock ∧ q.store.dirty = []) := by decide

/-- A fob record whose order waits for the commit that ends, and one whose order came too late for it; a changed record. -/
theorem test_Commits_waits :
    let p := fun begun => (holding enrolled).setFob .f0 { FobRec.restored enrolled with waits := some ⟨3, begun⟩ }
    let k : Commit := ⟨.fob .f0 enrolled, 1000, true⟩
    ((p true).fob .f0).waits = some ⟨3, true⟩ ∧ ((p false).fob .f0).waits = some ⟨3, false⟩ ∧
      (k.due ≤ serving.clock ∧ k.changed = true ∧ k.content = .fob .f0 enrolled) ∧
      ({ (p false).store with dirty := [.fob .f0] } : Store).dirty = [.fob .f0] := by decide

theorem test_RawLevelsAndStuck_levels_premises :
    (Level.l1.fits (.ajar .fl) = true ∧ inputPresent serving.driverDoor (.ajar .fl) = true ∧
      Level.l1 ≠ (serving.input (.ajar .fl)).raw) ∧
      serving.doorService = true ∧ serving.degraded.inputs.crash = false ∧ serving.state ≠ .doze ∧
      (serving.input .crash).raw ≠ twoLevel true ∧
      ((serving.setInput .crash ⟨.l1, .l1, none, none, false⟩).input .crash).raw ≠ twoLevel false := by decide

/-- The change of `i` to `l` is settled in `heard`. -/
def readyAt (i : Input) (l : Level) (old : Level := .rest) : Bool := (heard serving i l old).settledLevel i l

theorem test_inputs_are_ready :
    readyAt (.ajar .fl) .l1 = true ∧ readyAt (.ajar .fl) .rest .l1 = true ∧ readyAt (.outer .rr) .l1 = true ∧
      readyAt .tailgate .l1 = true ∧ readyAt (.inner .rl) .l1 = true ∧ readyAt (.touch .fl) .l1 = true ∧
      readyAt (.lockTouch .fr) .l1 = true ∧ readyAt (.switch (.master .fl)) .l1 = true ∧
      readyAt (.switch (.master .fl)) .l3 = true ∧ readyAt .rocker .l1 = true ∧ readyAt .rocker .l2 = true ∧
      readyAt .rocker .rest .l2 = true ∧ readyAt .childButton .l1 = true ∧ readyAt .ign .l1 = true ∧
      readyAt .ign .rest .l1 = true := by decide

/-- Second stages: below and at the soft stops, standing in while UNLEARNED or under the pinch lockout; a force armed. -/
theorem test_SwitchStages_second :
    Stage.dir .up2 = some .closing ∧ Stage.dir .down2 = some .opening ∧ readyAt (.switch (.master .fl)) (stageLevel .up2) = true ∧
      midWindow.travel - serving.cfg.softStopOffset = 1992 ∧ ¬ 1992 ≤ 1991 ∧
      serving.cfg.softStopOffset = 8 ∧ ¬ 9 ≤ 8 ∧
      ({ midWindow with learned := false } : WindowRec).learned = false ∧
      ({ midWindow with pinchLockout := true } : WindowRec).pinchLockout = true ∧
      ({ MonitorRec.fresh with forceArmed := some 2000 } : MonitorRec).forceArmed.isSome = true := by decide

theorem test_ready_holds_for_a_settled_input (i : Input) (l old : Level) (h : readyAt i l old = true) :
    (heard serving i l old).ready i l :=
  ⟨rfl, h, by cases i <;> first | rfl | (rename_i x; cases x <;> first | rfl | (rename_i y; cases y <;> rfl)),
    by cases i <;> first | rfl | (rename_i x; cases x <;> first | rfl | (rename_i y; cases y <;> rfl))⟩

theorem test_Ajar_premises : (heard serving (.ajar .fl) .l1).latch .fl = none ∧
    twoLevel (decide (Ajar.isOpen = .isOpen)) = .l1 := by decide

/-- A pulsing release whose door opens, the list empty; a waiting one with its own entry alone. -/
theorem test_Ajar_release_in_flight :
    let p := fun st => (heard serving (.ajar .fl) .l1).setLatch .fl (some (release st false))
    (p .pulsing).latch .fl = some (release .pulsing false) ∧ (∀ w ∈ (p .pulsing).waiting, w.actuator = .latch .fl) ∧
      (p .waiting).latch .fl = some (release .waiting false) ∧
      (∀ w ∈ [waiter (.latch .fl) 1], w.actuator = .latch .fl ∧ (release .waiting false).state = .waiting) := by decide

theorem test_TouchesAndPulls_pull_premises :
    let opens := fun (p : Part) d => (p.door d).lock = .unlocked ∧ (p.door d).ajar = .isClosed ∧
      (p.door d).fault ≠ .driver ∧ p.latch d = none
    unlockedAll.waiting = [] ∧ 1 ≤ unlockedAll.unitsFree ∧ opens unlockedAll .rr ∧ opens unlockedAll .tg := by decide

theorem test_InnerPull_premises :
    (unlockedAll.door .rl).ajar = .isClosed ∧ (unlockedAll.door .rl).lock = .unlocked ∧
      ({ unlockedAll.doors with childRL := .released }).childLock .rl ≠ some .engaged ∧ unlockedAll.latch .rl = none ∧
      serving.doors.childLock .rl = some .engaged ∧ serving.doors.childLock .fl ≠ some .engaged ∧
      ((serving.setDoor .rl ⟨.deadlocked, .isClosed, none, .sound, false⟩).door .rl).lock = .deadlocked := by decide

theorem test_InnerPull_joins :
    let p := fun st => serving.setLatch .fl (some (release st false))
    ((p .waiting).latch .fl = some (release .waiting false) ∧ (release .waiting false).prec = .release) ∧
      (release .retry false).state = .retry ∧ ((p .confirming).latch .fl = some (release .confirming false) ∧
        ∀ w ∈ (p .confirming).waiting, w.actuator ≠ .latch .fl) := by decide

/-- The pull is heard in every part state with door service but DOZE, where it wakes. -/
theorem test_InnerPull_is_heard :
    (∀ st ∈ [PartState.held, .service, .safeHold .parityFault, .start .full .inputs, .start .short .store],
      let p := heard (inState st) (.inner .fl) .l1
      p.doorService = true ∧ p.state ≠ .doze ∧ p.settledLevel (.inner .fl) .l1 = true ∧ (p.input (.inner .fl)).stuck = false ∧
        p.degraded.inputs.get (.inner .fl) = false) ∧
      (heard dozing (.inner .fl) .l1).state = .doze ∧ (heard dozing (.inner .fl) .l1).waking = none ∧
      ((heard dozing (.inner .fl) .l1).input (.inner .fl)).level = .rest := by decide

theorem test_TouchesAndPulls_touch_premises :
    serving.degraded.receiver = false ∧ serving.supply.cls ≠ .critical ∧ serving.locator.list = [] ∧
      serving.locator.flight = none ∧ (serving.door .fl).lock.barred = true ∧
      (∀ a ∈ Antenna.all, serving.degraded.antennas.get a = false) := by decide

/-- Pulls on a LOCKED door whose ENTRY search is in flight, listed and neither; on one that is OPEN and LOCK-PENDING. -/
theorem test_TouchesAndPulls_barred_pulls :
    let pulls := fun p : Part => (after (heard p (.outer .fl) .l1) (.outerPull .fl true)).map fun q =>
      ((q.door .fl).pull, q.scroll.unread)
    let listed : Part := { inState .held with locator := ⟨[request .entry], none, 0⟩ }
    let pending := serving.setDoor .fl ⟨.lockPending, .isOpen, none, .sound, false⟩
    ((serving.door .fl).lock.barred = true ∧ (request .entry).purpose = .entry ∧ (request .entry).door = some .fl) ∧
      [searching (flight .entry (.reply .f0)), listed, inState (.start .full .store), serving, pending].map pulls =
        [some (true, 0), some (true, 0), some (false, 1), some (false, 1), some (false, 0)] := by decide

/-- Presses on a LOCKED tailgate in HELD and in SERVICE and on an OPEN LOCK-PENDING one; a touch on an UNLOCKED door. -/
theorem test_TouchesAndPulls_presses :
    let presses := fun p : Part => (after (heard p .tailgate .l1) (.tailgateButton true)).map fun q =>
      (q.scroll.unread, q.locator.flight.map (·.request.purpose))
    let pending := serving.setDoor .tg ⟨.lockPending, .isOpen, none, .sound, false⟩
    [inState .held, serving, pending].map presses = [some (1, none), some (0, some .tailgate), some (0, none)] ∧
      (unlockedAll.door .fl).lock.barred = false ∧
      (after (heard unlockedAll (.touch .fl) .l1) (.outerTouch .fl true)).map (·.locator.flight) = some none := by decide

theorem test_SwitchStages_premises :
    let p := (heard serving (.switch (.master .fl)) .l1).setWindow .fl midWindow
    Stage.dir .up1 = some .closing ∧ Stage.dir .down1 = some .opening ∧ (p.input (.switch (.master .fl))).level = .rest ∧
      p.spent.get (.master .fl) = false ∧ p.lockout = false ∧ p.outOfService .fl = false ∧
      (p.window .fl).motion = .stopped ∧ (p.window .fl).pending = none ∧ (p.window .fl).thermal = false ∧
      (p.monitor .fl).learn = none ∧ p.waiting = [] ∧ 2 ≤ p.unitsFree ∧ p.crashSet = false := by decide

/-- The switch whose MANUAL move it is and another one, back at NEUTRAL; an eased switch; an opposite press on an EXPRESS. -/
theorem test_CommandsAct_switch_premises :
    let p := heard (withWindow (underWay .opening .manual .masterSwitch 500)) (.switch (.master .fl)) .rest .l3
    (((p.window .fl).motion = .opening ∧ (p.window .fl).pending = none ∧ (p.monitor .fl).learn = none ∧ p.waiting = []) ∧
      (p.window .fl).position ≤ (p.window .fl).travel ∧ p.spent.get (.master .fl) = false ∧ p.lockout = false) ∧
      readyAt (.switch (.master .fl)) (stageLevel .neutral) .l3 = true ∧
      (p.window .fl).mover = some (Switch.mover (.master .fl)) ∧ (p.window .fl).mover ≠ some (Switch.mover (.door .fl)) ∧
      (readyAt (.switch (.master .fl)) (stageLevel .down1) .l4 = true ∧ Stage.dir .down1 = Stage.dir (levelStage .l4)) ∧
      ((underWay .opening .express .doorSwitch 500).mode = some .express ∧ Direction.motion .closing ≠ Motion.opening ∧
        Stage.dir .up1 = some .closing ∧ Stage.dir (levelStage .rest) ≠ some .closing) := by decide

/-- Stages with the motion and against it, for a switch and for an order; a LEARNED window below its soft stop and at it. -/
theorem test_CommandsAct_stage_premises :
    let w := underWay .opening .target (.order 3)
    let p := withWindow (w 500)
    (Direction.motion .opening = (w 500).motion ∧ Direction.motion .closing ≠ (w 500).motion ∧ (w 500).mode = some .target) ∧
      (p.outOfService .fl = false ∧ p.crashSet = false ∧ (w 500).pinchLockout = false ∧ (w 500).learned = true) ∧
      (readyAt (.switch (.master .fl)) (stageLevel .up2) = true ∧ readyAt (.switch (.master .fl)) (stageLevel .down2) = true) ∧
      (w 8).position ≤ p.cfg.softStopOffset ∧ ¬ (w 9).position ≤ p.cfg.softStopOffset ∧
      (w 1992).travel - p.cfg.softStopOffset ≤ (w 1992).position := by decide

/-- Each of those presses does what it says. -/
theorem test_CommandsAct_completes :
    let presses := fun (w : WindowRec) (st : Stage) (old : Level) =>
      (after (heard (withWindow w) (.switch (.master .fl)) (stageLevel st) old) (.windowSwitchChange (.master .fl) st)).map
        fun p => ((p.window .fl).motion, (p.window .fl).lastStop)
    presses (underWay .opening .manual .masterSwitch 500) .neutral .l3 = some (.stopped, some .switchReleased) ∧
      presses (underWay .opening .express .doorSwitch 500) .up1 .rest = some (.stopped, some .switchReleased) ∧
      presses (underWay .opening .target (.order 3) 500) .down1 .rest = some (.opening, none) ∧
      presses (underWay .opening .target (.order 3) 500) .up1 .rest = some (.closing, some .overridden) ∧
      presses (underWay .opening .manual .doorSwitch 8) .down2 .rest = some (.stopped, some .atEnd) := by decide

/-- A move order for the window that another order moves: where it is, onward and back; STOP. -/
theorem test_CommandsAct_order_premises :
    let p := withWindow (underWay .opening .target (.order 3) 500)
    let w := p.window .fl
    ((word 0).value = BitVec.ofNat 32 (Corner.fl).ctorIdx ∧ w.mover ≠ some (.order slot0.slot) ∧ (word 3).value = 3) ∧
      (1000 ≤ w.travel ∧ p.cfg.softStopOffset ≤ 20 ∧ p.outOfService .fl = false ∧ p.crashSet = false) ∧
      ((word 500).value.toNat = w.position ∧ 300 < w.position ∧ w.position < 501) ∧
      [3, 2, 0].map (fun t => (after p (.moveWindow slot0 (word 0) (word t) (word 501))).map
        fun q => ((q.head 0).state, (q.head 3).code.toNat, (q.window .fl).motion, (q.window .fl).target)) =
        [some (.done, 34, .stopped, none), some (.taken, 34, .closing, some 501), some (.taken, 34, .opening, some 8)] := by decide

theorem test_CommandsAct_order_is_accepted : (withWindow (underWay .opening .target (.order 3) 500)).accepts slot0 :=
  ⟨test_serving_is_tidy, rfl, rfl, rfl, rfl⟩

theorem test_RockerIgnition_rocker_premises :
    ((heard serving .rocker .l1).input .rocker).level = .rest ∧ (heard serving .rocker .l1).crashSet = false := by decide

theorem test_ChildLocks_button_premises :
    (heard serving .childButton .l1).crashSet = false ∧
      ((withCrash (heard serving .childButton .l1)).crashSet = true ∧
        (withCrash (heard serving .childButton .l1)).doors.childRL = .released) := by decide

/-- A judged change to MOVING with every door CLOSED and UNLOCKED, the crash latch clear and set; one not judged. -/
theorem test_RockerIgnition_vehicle_premises :
    let shut := fun p : Part => ∀ d ∈ [Door.fl, .fr, .rl, .rr, .tg], (p.door d).ajar = .isClosed
    ((word 2).value = BitVec.ofNat 32 (Vehicle.moving).ctorIdx ∧ unlockedAll.doorService = true ∧
      unlockedAll.doors.vehicle ≠ .moving ∧ unlockedAll.inSafeHold = false ∧ unlockedAll.cfg.driveAwayLock = true ∧
      unlockedAll.doors.driveAway = false ∧ shut unlockedAll ∧ (unlockedAll.door .fl).lock = .unlocked) ∧
      unlockedAll.crashSet = false ∧ ((withCrash serving).crashSet = true ∧ shut (withCrash serving)) ∧
      (serving.door .fl).lock = .locked ∧ (inState (.start .full .drivers)).doorService = false ∧
      serving.cfg.unlockAtIgnitionOff = true ∧
      ({ serving.cfg with unlockAtIgnitionOff := false } : Config).unlockAtIgnitionOff = false := by decide

theorem test_RawLevelsAndStuck_timer_premises :
    let p := fun b => serving.setInput .rocker ⟨.l1, .l1, none, some 1000, b⟩
    (due ((p false).input .rocker).stuckAt 1000 = true ∧ (p false).muted .rocker = false) ∧
      (p true).muted .rocker = true := by decide

theorem test_CrashEventOpens_event_premises :
    let a : Assertion := ⟨996, false⟩
    let p : Part := { serving with crash := ⟨none, some a⟩ }
    p.crash.assertion = some a ∧ a.taken = false ∧ a.since + 4 ≤ p.clock ∧ p.doorService = true ∧ p.state ≠ .doze := by decide

theorem test_ThreeAgreeing_premises :
    serving.state ≠ .start .full .drivers ∧ indicated serving.cfg .normal 12000 = .normal ∧
      (indicated serving.cfg .normal 10000 ≠ serving.supply.cls ∧ (measured none).supply.candidate = none) ∧
      (measured (some ⟨.low, 1⟩)).supply.candidate = some ⟨indicated serving.cfg .normal 10000, 1⟩ ∧
      (measured (some ⟨.critical, 2⟩)).supply.candidate = some ⟨indicated serving.cfg .normal 8999, 2⟩ := by decide

theorem test_ThreeAgreeing_indications :
    let g := Config.default
    8999 < g.criticalEntry ∧ (g.criticalEntry ≤ 9000 ∧ 10999 < g.lowEntry) ∧ g.lowEntry ≤ 11000 ∧
      (g.lowExit < 11601 ∧ 11600 ≤ g.lowExit) ∧ g.criticalExit < 9601 ∧ (9600 ≤ g.criticalExit ∧ 9600 ≤ g.lowExit) := by decide

/-- Windows FL and FR, a release of RL and an escape of TG hold six units; FR moves for order 3. -/
def sixUnits (p : Part) : Part := { (((p.setWindow .fl (underWay .opening .manual .doorSwitch 500)).setWindow .fr
    (underWay .opening .target (.order 3) 500)).setLatch .rl (some (release .pulsing false))).setLatch .tg
    (some { release .pulsing false with prec := .escape }) with
  holders := [⟨.latch .tg, 1, .escape, 700, .freeUnit⟩, ⟨.window .fl, 2, .window, 800, .withinBudget⟩,
    ⟨.latch .rl, 1, .release, 850, .withinBudget⟩, ⟨.window .fr, 2, .window, 900, .withinBudget⟩] }

/-- A fall to LOW's 4 units takes FR alone, a fall to CRITICAL all but the escape. -/
theorem test_BudgetFalls_withdrawals :
    let l := (sixUnits serving).holders
    withdrawalOrder l = [.window .fr, .window .fl, .latch .rl] ∧ afterWithdrawals l 3 = [⟨.latch .tg, 1, .escape, 700, .freeUnit⟩] ∧
      withdrawalsMeet l 4 1 ∧ withdrawalsMeet l 0 3 :=
  ⟨by decide, by decide, ⟨by decide, by decide⟩, by decide, by decide⟩

theorem test_BudgetFalls_premises :
    let p := fun k => sixUnits (measured (some k))
    ((p ⟨.low, 2⟩).waiting = [] ∧ indicated serving.cfg .normal 10000 = .low ∧ serving.cfg.lowBudget < (p ⟨.low, 2⟩).budget ∧
      indicated serving.cfg .normal 8999 = .critical ∧ ((p ⟨.low, 2⟩).window .fr).mover = some (.order 3) ∧
      (p ⟨.low, 2⟩).noSearch = true ∧ (p ⟨.low, 2⟩).sequencerRuns = false ∧
      ({ p ⟨.low, 2⟩ with latches := PerDoor.all none } : Part).latchesIdle = true) ∧
      [after (p ⟨.low, 2⟩) (.batteryMeasurement 10000), after (p ⟨.critical, 2⟩) (.batteryMeasurement 8999)].map (·.map fun q =>
        ((q.window .fl).motion, (q.door .rl).outcome, (q.latch .tg).isSome, (q.head 3).code.toNat)) =
        [some (.opening, none, true, OrderOutcome.supply.code),
          some (.stopped, some .abortedSupply, true, OrderOutcome.supply.code)] := by decide

/-- The releases alone, for an order; a rise from LOW; the class left CRITICAL with a record dirty. -/
theorem test_BudgetFalls_other_premises :
    let alone : Part := { measured (some ⟨.critical, 2⟩) with
      latches := (PerDoor.all none).set .rl (some { release .pulsing false with orders := [5] })
      holders := [⟨.latch .rl, 1, .release, 850, .withinBudget⟩] }
    let left : Part := { serving with
      supply := ⟨.critical, 9000, some ⟨.normal, 2⟩, []⟩
      store := { serving.store with dirty := [.lock] } }
    (alone.noSearch = true ∧ (∀ c ∈ Corner.all, (alone.window c).mover = none) ∧
      (after alone (.batteryMeasurement 8999)).map (fun q => ((q.latch .rl).isSome, (q.head 5).code.toNat)) =
        some (false, OrderOutcome.abortedSupply.code)) ∧
      (left.latchesIdle = true ∧ left.budget ≤ left.cfg.normalBudget ∧ indicated left.cfg .critical 12000 = .normal ∧ left.holders = [] ∧
        left.store.commit = none ∧ (after left (.batteryMeasurement 12000)).map (fun q => (q.store.dirty, q.store.commit.map (·.due))) =
          some ([], some 1006)) := by decide

/-- A page whose budgets are 4, started in HELD with five units held. -/
theorem test_BudgetFalls_start_premises :
    let p := stored (withPage 45000 { inState .held with
      latches := (PerDoor.all none).set .rl (some (release .pulsing false))
      holders := [⟨.window .fl, 2, .window, 700, .withinBudget⟩, ⟨.window .fr, 2, .window, 800, .withinBudget⟩,
        ⟨.latch .rl, 1, .release, 850, .withinBudget⟩] }) 292 4
    (p.state = .held ∧ p.port.served = true ∧ p.failingCheck = none ∧ p.waiting = [] ∧ p.page.normalBudget = 4 ∧ 4 < p.budget ∧
      ∀ k : Slot, (p.head k).state ≠ .posted) ∧
      withdrawalOrder p.holders = [.window .fr, .window .fl, .latch .rl] ∧ unitsHeld (afterWithdrawals p.holders 1) ≤ 4 := by decide

theorem test_RelockAndHold_relock_premises :
    let p := fun t => { unlockedAll with doors := { unlockedAll.doors with relock := some t } }
    unlockedAll.doorService = true ∧ unlockedAll.inSafeHold = false ∧ unlockedAll.crashSet = false ∧
      due (p 1000).doors.relock 1000 = true ∧ due (p 1001).doors.relock 1000 = false := by decide

theorem test_ReleasesAndWaits_list_premises :
    let p : Part := { serving.setLatch .fl (some (release .waiting false)) with waiting := [waiter (.latch .fl) 1] }
    (p.waiting = [waiter (.latch .fl) 1] ∧ (waiter (.latch .fl) 1).units ≤ p.unitsFree ∧
      (waiter (.latch .fl) 1).limit ≤ p.clock ∧ p.latch .fl = some (release .waiting false)) ∧
      serving.waiting = [] ∧
      ({ p with waiting := [waiter (.window .rl) 9] } : Part).unitsFree < (waiter (.window .rl) 9).units := by decide

theorem test_ReleasesAndWaits_latch_premises :
    let p := fun o => serving.setLatch .fl (some o)
    ((p (release .pulsing false)).latch .fl = some (release .pulsing false) ∧ serving.waiting = [] ∧
      due (release .pulsing false).timer serving.clock = true) ∧
      (release .confirming true).second = true ∧
      ((release .confirming false).prec = .release ∧ 1 ≤ (p (release .confirming false)).unitsFree) := by decide

/-- A window waits at the head: a MANUAL close with force armed, and a Sequencer's command with its entry WAITING. -/
theorem test_ReleasesAndWaits_window_premises :
    let x : Pending := ⟨⟨.closing, .manual, .doorSwitch, none, false⟩, 900⟩
    let p : Part := { withWindow { midWindow with pending := some x } { MonitorRec.fresh with forceArmed := some 5000 } with
      waiting := [waiter (.window .fl) 2] }
    let q : Part := { venting with waiting := [waiter (.window .fr) 2] }
    ((p.window .fl).pending = some x ∧ (waiter (.window .fl) 2).units ≤ p.unitsFree ∧ (p.monitor .fl).forceArmed.isSome = true) ∧
      (q.window .fr).pending.map (·.cmd.mover) = some .sequencer ∧
      q.operation.map (fun o => (o.entries.get .fr).state) = some .waiting ∧ 2 ≤ q.unitsFree ∧
      (after p .grantFromHead).map (fun t => ((t.window .fl).motion, (t.monitor .fl).forceInUse)) = some (.closing, true) ∧
      (after q .grantFromHead).bind (fun t => t.operation.map fun o => (o.entries.get .fr).state) = some .moving := by decide

/-- An ESCAPE operation's retry with a unit free, with FL to preempt (FR reverses), and with both windows reversing. -/
theorem test_ReleasesAndWaits_escape_premises :
    let op : ReleaseOp := { release .confirming false with prec := .escape }
    let full := fun m : Motion => { ((serving.setWindow .fl (moving m 500 true)).setWindow .fr (moving .reversing 500 true)).setLatch .rl
        (some op) with
      supply := { serving.supply with cls := .low }
      holders := [⟨.window .fl, 2, .window, 800, .withinBudget⟩, ⟨.window .fr, 2, .window, 900, .withinBudget⟩] }
    (due op.timer serving.clock = true ∧ (full .opening).unitsFree = 0 ∧ ((full .opening).window .fl).motion ≠ .reversing) ∧
      [serving.setLatch .rl (some op), full .opening, full .reversing].map (fun p => (after p (.confirmExpiry .rl)).map fun q =>
        (q.holders.map (·.kind), (q.window .fl).lastStop)) =
        [some ([.freeUnit], none), some ([.withinBudget, .preempted], some .preempted),
          some ([.withinBudget, .withinBudget, .overBudget], none)] := by decide

theorem test_HallPulses_premises :
    let p := serving.setWindow .fl { midWindow with coast := some ⟨1100, .closing⟩ }
    let q := serving.setWindow .fl (moving .opening 500 true)
    ((serving.window .fl).motion = .stopped ∧ (serving.window .fl).coast = none) ∧
      ((p.window .fl).coast = some ⟨1100, .closing⟩ ∧ (p.window .fl).position ≤ (p.window .fl).travel) ∧
      ((q.window .fl).motion = .opening ∧ (q.window .fl).mode = some .manual ∧ (q.monitor .fl).learn = none) := by decide

/-- A commit of the window's own record, and of another's. -/
theorem test_HallPulses_commit :
    let own : Commit := ⟨.window .fl ⟨2000, 500, true, true⟩, 1003, false⟩
    own.content.record = .window .fl ∧ 500 - 1 ≠ 500 ∧ (⟨.lock serving.lockKeep, 1003, false⟩ : Commit).content.record ≠ .window .fl := by
  decide

/-- A period of 6.3 ms: a pinch while UNLEARNED, and while LEARNED in the pinch zone, first and last count, with fewer than 16
periods in the baseline or 16 of 5 ms; not one count outside, nor at the limit, 6.0 ms or 6.25 ms. -/
theorem test_PinchedCloses_premises :
    let w := closingAt 1691
    let p := withWindow w
    let g := p.cfg
    let top := w.travel - g.softStopOffset
    let inZone := fun pos => top ≤ pos + g.pinchZone ∧ pos ≤ top
    ((p.window .fl).motion = .closing ∧ (p.monitor .fl).learn = none ∧ (p.window .fl).position ≤ (p.window .fl).travel ∧
      (p.monitor .fl).baseline.length ≤ 16 ∧ (p.window .fl).lastPulse = some 993700 ∧ (p.window .fl).mode = some .manual) ∧
      100 * g.absoluteLimit < 1000000 - 993700 ∧ ¬ 100 * g.absoluteLimit < 1000000 - 994000 ∧
      (inZone 1692 ∧ inZone 1992) ∧ ¬ inZone 1691 ∧ ¬ inZone 1993 ∧ w.learned = true ∧
      (List.replicate 16 5000).sum * (100 + g.pinchRatio) < 6300 * (16 * 100) ∧
      ¬ (List.replicate 16 5000).sum * (100 + g.pinchRatio) < 6250 * (16 * 100) := by decide

/-- Two MANUAL pinches before, 10 000 ms ago at most, arm; 10 001 ms ago, or with another kind between, do not. -/
theorem test_PinchedCloses_arms :
    let arms := fun (now : Nat) (h : List PinchEntry) =>
      let kept := h.drop (h.length - 2)
      kept.map (·.kind) = [.manual, .manual] ∧ ∀ e ∈ kept.head?, now - e.time ≤ 10000
    arms 11000 [⟨500, .other⟩, ⟨1000, .manual⟩, ⟨9000, .manual⟩] ∧ ¬ arms 11001 [⟨1000, .manual⟩, ⟨9000, .manual⟩] ∧
      ¬ arms 11000 [⟨8000, .manual⟩, ⟨9000, .other⟩] ∧ ¬ arms 11000 [⟨9000, .manual⟩] := by decide

/-- The pulse that leaves the lower slow zone, and one that does not. -/
theorem test_PinchedCloses_slow_zone :
    let slow := fun x => x ≤ serving.cfg.softStopOffset + serving.cfg.slowZone ∨ 1992 ≤ x + serving.cfg.slowZone
    slow 88 ∧ ¬ slow 89 ∧ ¬ slow 1911 ∧ slow 1912 := by decide

/-- What the pulse that finds a pinch answers in that state. -/
theorem test_PinchedCloses_completes :
    (after (withWindow (closingAt 1691)) (.hallPulse .fl 200 0)).map
      (fun p => ((p.window .fl).motion, (p.window .fl).position, (p.monitor .fl).reversalTarget)) =
      some (.reversing, 1692, some 1292) := by decide

theorem test_no_period_is_no_pinch (p : Part) (c : Corner) (us : Nat) (h : (p.window c).lastPulse = none) :
    ¬ p.pulsePinches c us := by
  rintro ⟨t, ht, -⟩
  rw [h] at ht
  cases ht

/-- A period of 6.3 ms in the pinch zone is a pinch, one of 6.0 ms is none. -/
theorem test_the_limit_itself_is_no_pinch :
    (withWindow (closingAt 1991)).pulsePinches .fl 0 ∧
      ¬ (withWindow { closingAt 1991 with mode := some .express, lastPulse := some 994000 }).pulsePinches .fl 0 := by
  refine ⟨⟨993700, rfl, by decide⟩, ?_⟩
  rintro ⟨t, ht, h⟩
  cases ht
  revert h
  decide

/-- EXPRESS and TARGET moves one count before their stop, and two; a reversal at its target. -/
theorem test_CountedPulses_premises :
    let w := fun (m : Motion) (mode : Mode) (t : Option Nat) pos => { moving m pos true with mode := some mode, target := t }
    let top := midWindow.travel - serving.cfg.softStopOffset
    ((w .closing .express none 1991).lastPulse = none ∧ (w .closing .express none 1991).learned = true ∧ top ≤ 1991 + 1 ∧
      1990 + 1 < top) ∧
      ((w .closing .target (some 500) 499).target = some 500 ∧ 500 ≤ 499 + 1 ∧ 498 + 1 < 500 ∧ 500 ≠ top ∧ 500 ≠ 8) ∧
      (9 - 1 ≤ serving.cfg.softStopOffset ∧ serving.cfg.softStopOffset < 10 - 1) ∧
      ((w .opening .target (some 500) 501).motion = .opening ∧ 501 - 1 ≤ 500 ∧ 500 < 502 - 1) ∧
      (withWindow (w .reversing .express none 1293) { MonitorRec.fresh with reversalTarget := some 1292 }).waiting = [] ∧
      1293 - 1 ≤ 1292 ∧ 1292 < 1294 - 1 ∧ 2000 ≤ midWindow.travel ∧ min 2000 (2000 + 1) = 2000 := by decide

theorem test_CountedPulses_completes :
    (after (withWindow { moving .closing 1991 true with mode := some .express }) (.hallPulse .fl 200 0)).map
      (fun p => ((p.window .fl).motion, (p.window .fl).lastStop)) = some (.stopped, some .atEnd) := by decide

/-- That pulse ends the EXPRESS close; one at the top of the travel stays there. -/
theorem test_CountedPulses_with_a_period :
    [1991, 2000].map (fun n => (after (withWindow { closingAt n with mode := some .express, lastPulse := some 994000 })
      (.hallPulse .fl 200 0)).map fun p => ((p.window .fl).motion, (p.window .fl).lastStop, (p.window .fl).position)) =
      [some (.stopped, some .atEnd, 1992), some (.stopped, some .atEnd, 2000)] := by decide

theorem test_WindowTimers_premises :
    let w : WindowRec := { midWindow with coast := some ⟨1000, .opening⟩, ramp := some ⟨900, 1000⟩, energised := 50, idle := 500 }
    let p := (serving.setWindow .fl w).setMonitor .fl { MonitorRec.fresh with forceArmed := some 1000 }
    (p.window .fl).coast = some ⟨1000, .opening⟩ ∧ 1000 ≤ p.clock ∧ (p.window .fl).ramp = some ⟨900, 1000⟩ ∧
      (p.monitor .fl).forceArmed = some 1000 ∧ 50 ≤ (p.window .fl).energised ∧ 500 ≤ (p.window .fl).idle := by decide

theorem test_Stalls_premises :
    let ok := fun (p : Part) (m : Motion) => due (p.monitor .fl).stallAt p.clock = true ∧ (p.monitor .fl).learn = none ∧
      (p.window .fl).mode = some .manual ∧ (p.window .fl).mover = some (Switch.mover (.master .fl)) ∧
      (p.window .fl).motion = m ∧ p.waiting = []
    ok (stalling .closing 1980 true) .closing ∧ ok (stalling .opening 20 true) .opening ∧
      ok (stalling .opening 21 true) .opening ∧
      (ok (stalling .closing 5 false) .closing ∧ ((stalling .closing 5 false).window .fl).travel ≠ 0) := by decide

theorem test_Stalls_watch_premises :
    let k : Watch := ⟨.master .fl, 1000⟩
    let p := serving.setMonitor .fl { MonitorRec.fresh with watch := some k }
    let up := p.setInput (.switch (.master .fl)) ⟨.l1, .l1, none, none, false⟩
    (p.monitor .fl).watch = some k ∧ k.expiry ≤ p.clock ∧
      Stage.dir (levelStage (up.input (.switch k.switch)).level) = some .closing ∧
      Stage.dir (levelStage (p.input (.switch k.switch)).level) ≠ some .closing := by decide

/-- The pinch zone's first count and the last below it; a reversal's stall at 20 counts and at 21; an UNLEARNED opening. -/
theorem test_Stalls_zone_premises :
    let top := midWindow.travel - serving.cfg.softStopOffset
    (1692 + 20 < midWindow.travel ∧ top ≤ 1692 + serving.cfg.pinchZone ∧ 1692 ≤ top) ∧
      1691 + serving.cfg.pinchZone < top ∧ due ((stalling .reversing 20 true).monitor .fl).stallAt 1000 = true ∧
      ((stalling .reversing 21 true).window .fl).motion = .reversing ∧
      ((stalling .opening 5 false).window .fl).learned = false := by decide

/-- A learn in each phase with its stall due, the counts and travels at the edges of the clauses. -/
theorem test_LearnPhases_premises :
    let meets := fun (p : Part) (l : Learn) (m : Motion) => (p.monitor .fl).learn = some l ∧ p.waiting = [] ∧
      (p.window .fl).mover = some (.order l.slot) ∧ (p.window .fl).mode = some .manual ∧ (p.window .fl).learned = false ∧
      (p.window .fl).motion = m ∧ due (p.monitor .fl).stallAt p.clock = true ∧ p.crashSet = false
    meets (learning .down .opening 5 4399) ⟨.down, 2, 4399, false⟩ .opening ∧
      meets (learning .down .opening 5 4400) ⟨.down, 2, 4400, false⟩ .opening ∧
      (∀ n ∈ [999, 1000, 4000, 4001], meets (learning .up .closing n 7) ⟨.up, 2, 7, false⟩ .closing) ∧
      meets (learning .up .closing 1000 4400) ⟨.up, 2, 4400, false⟩ .closing ∧ (withCrash serving).crashSet = true := by decide

/-- A crash event due in phase DOWN, and what it leaves; a learn that remembers one, the latch clear. -/
theorem test_LearnPhases_crash_premises :
    let a : Assertion := ⟨996, false⟩
    let p : Part := { learning .down .opening 5 7 with crash := ⟨none, some a⟩ }
    let q := p.setMonitor .fl { p.monitor .fl with learn := some ⟨.down, 2, 7, true⟩ }
    (p.crash.assertion = some a ∧ a.since + 4 ≤ p.clock ∧ p.doorService = true ∧ p.state ≠ .doze ∧
        (p.window .fl).pending = none) ∧
      (after p .crashEvent).map (fun t => (t.monitor .fl).learn) = some (some ⟨.down, 2, 7, true⟩) ∧
      ((q.monitor .fl).learn = some ⟨.down, 2, 7, true⟩ ∧ q.crashSet = false) ∧
      (after q (.stallExpiry .fl)).map (fun t => ((t.window .fl).motion, (t.head 2).code.toNat)) =
        some (.stopped, OrderOutcome.crash.code) := by decide

theorem test_LearnPhases_measures :
    (after (learning .up .closing 1000 7) (.stallExpiry .fl)).map
      (fun p => ((p.window .fl).travel, (p.window .fl).learned, (p.head 2).state)) = some (1000, true, .done) := by decide

theorem test_SearchesRun_premises :
    let p : Part := { serving with locator := ⟨[request .entry], none, 0⟩ }
    (p.state = .service ∧ p.locator.flight = none ∧ p.locator.list = [request .entry] ∧ p.supply.cls ≠ .critical) ∧
      (flight .entry (.transmit .afl)).phaseEnd ≤ serving.clock ∧
      (flight .entry (.transmit .afl)).used.get .afr = true ∧
      (∀ x ∈ Antenna.all, ¬ (Antenna.afl.ctorIdx < x.ctorIdx ∧ x.ctorIdx < Antenna.afr.ctorIdx)) ∧
      (∀ x ∈ Antenna.all, ¬ Antenna.acr.ctorIdx < x.ctorIdx) ∧ Fob.f2.ctorIdx + 1 = Fob.f3.ctorIdx := by decide

theorem test_SearchesRun_reply_premises :
    let p := searching (flight .entry (.reply .f0))
    (p.locator.flight = some (flight .entry (.reply .f0)) ∧ (p.fob .f0).keep.state ≠ .vacant ∧ (p.fob .f0).keep.id = 7 ∧
      ((flight .entry (.reply .f0)).results.get .f0).reply = .noReply) ∧
      (p.fob .f1).keep.state = .vacant ∧ (flight .entry (.transmit .afl)).phase = .transmit .afl := by decide

theorem test_SearchResults_lock_premises :
    let f : Flight := flight .lock (.reply .f3)
    let ends := fun r => ({ f with results := r } : Flight).results.get .f0
    let p := searching { f with results := found .outLeft }
    (f.phase = .reply .f3 ∧ f.phaseEnd ≤ serving.clock ∧ f.request.purpose = .lock ∧ p.locator.list = []) ∧
      ((ends (found .inside)).reply = .pass ∧ (ends (found .inside)).zone = some .inside) ∧
      ({ f.request with opened := true } : Request).opened = true ∧ f.request.opened = false ∧
      ((p.fob .f0).keep.state = .enrolled ∧ (p.fob .f0).keep.id = (ends (found .outLeft)).id ∧
        (p.fob .f0).keep.blocked = false ∧ (p.fob .f0).keep.permitted = true ∧
        (ends (found .outLeft)).zone = some .outLeft ∧ Zone.outLeft ≠ .inside ∧ Zone.outLeft ≠ .nowhere) ∧
      p.crashSet = false := by decide

theorem test_SearchResults_lock_nothing_inside :
    ¬ ∃ i, ((found .outLeft).get i).reply = .pass ∧ ((found .outLeft).get i).zone = some .inside := by
  rintro ⟨i, h⟩
  cases i <;> revert h <;> decide

/-- ENTRY: the fob of `found` qualifies on the door's side, or not; a pull pending at a door whose latch can be pulsed. -/
theorem test_SearchResults_entry_premises :
    let f := { flight .entry (.reply .f3) with results := found .outLeft }
    let p := searching f
    (p.locator.flight = some f ∧ p.locator.list = [] ∧ p.waiting = [] ∧ f.request.door = some .fl) ∧
      ((p.fob .f0).keep.state = .enrolled ∧ (f.results.get .f0).zone = some (doorZone .fl)) ∧
      ((p.setDoor .fl { unlockedDoor with pull := true }).door .fl).pull = true ∧ (p.door .fl).fault ≠ .driver ∧
      p.latch .fl = none ∧ 1 ≤ p.unitsFree ∧ p.cfg.relockTime ≠ 0 ∧ p.doors.ign = false ∧
      p.cfg.entryUnlocksAll = false ∧ ({ p.cfg with entryUnlocksAll := true } : Config).entryUnlocksAll = true := by decide

theorem test_SearchResults_none_qualifies (z : Zone) : ¬ ∃ i, (serving.fob i).qualifiesIn ((found .outLeft).get i) z := by
  rintro ⟨i, h, -⟩
  cases i <;> revert h <;> decide

theorem test_SearchResults_tailgate_and_locate_premises :
    let f := fun u => { flight u (.reply .f3) with results := found .outRear }
    (((f .tailgate).results.get .f0).zone = some .outRear ∧ ((searching (f .tailgate)).door .tg).ajar = .isClosed ∧
      (searching (f .tailgate)).latch .tg = none) ∧ (f .locate).request.purpose = .locate ∧
      ({ (f .locate).request with orders := [3] } : Request).orders = [3] := by decide

/-- One index set aside for its id, one EMPTY, one without a reply, one that PASSED and one whose 8th FAIL in a row it is. -/
theorem test_CompletedSearches_premises :
    let r := FobRec.restored enrolled
    let seven := FobRec.restored { enrolled with run := 7 }
    (searching { flight .entry (.reply .f3) with results := found .inside }).locator =
        ⟨[], some { flight .entry (.reply .f3) with results := found .inside }, 1⟩ ∧
      ((found .inside).get .f0).id = r.keep.id ∧ (8 : Word) ≠ r.keep.id ∧ (serving.fob .f1).keep.state = .vacant ∧
      ((found .inside).get .f1).reply = .noReply ∧ 7 ≤ seven.keep.run ∧ ¬ 7 ≤ r.keep.run ∧ 6000 - 1000 ≤ 5000 := by decide

theorem test_RemoteFrames_premises :
    let p := holding enrolled
    p.state = .service ∧ p.degraded.receiver = false ∧ p.fobOf (frame 8 11).id = none ∧
      (p.fobOf (frame 7 11).id = some .f0 ∧ (p.fob .f0).keep.state ≠ .suspended ∧ (frame 7 11).check = .pass ∧
        (p.fob .f0).candidate = none ∧ (p.fob .f0).tracker = .idle ∧
        (p.fob .f0).keep.counter.toNat < (frame 7 11).counter.toNat ∧
        (frame 7 74).counter.toNat ≤ (p.fob .f0).keep.counter.toNat + 64) ∧
      ({ frame 7 11 with check := .fail } : Frame).check = .fail ∧
      ((holding { enrolled with state := .suspended }).fob .f0).keep.state = .suspended := by decide

/-- The counters at the edges: 1, 64, 65, 4096 and 4097 ahead, equal and behind; the pair of a candidate 5000 ms old. -/
theorem test_RemoteFrames_counters :
    let last := (enrolled.counter).toNat
    let n := fun k => (frame 7 k).counter.toNat
    (last < n 11 ∧ n 74 ≤ last + 64) ∧ (last + 64 < n 75 ∧ n 4106 ≤ last + 4096) ∧ last + 4096 < n 4107 ∧ n 9 < last ∧
      n 10 = last ∧ (n 76 = (⟨75, 0⟩ : Candidate).counter.toNat + 1 ∧ 5000 - (⟨75, 0⟩ : Candidate).time ≤ 5000) := by decide

/-- A second LOCK press within 2000 ms on the shut car; a TAILGATE press with the latch at rest. -/
theorem test_RemoteFrames_presses :
    let p := { holding enrolled with doors := { serving.doors with press := some ⟨.lock, 0⟩ } }
    (p.doors.press = some ⟨.lock, 0⟩ ∧ (stampOf p.clock - 0).toNat ≤ 2000 ∧ p.doors.ign = false ∧ p.crashSet = false ∧
      ∀ d ∈ [Door.fl, .fr, .rl, .rr, .tg], (p.door d).ajar = .isClosed) ∧
      ¬ (stampOf 2001 - 0).toNat ≤ 2000 ∧ (withCrash p).crashSet = true ∧ (holding enrolled).doors.press = none ∧
      p.waiting = [] ∧ 1 ≤ p.unitsFree ∧ (p.door .tg).fault ≠ .driver ∧ p.latch .tg = none := by decide

/-- A continuation of the tracked hold, 250 ms after the last frame, 1499 and 1500 ms after the press. -/
theorem test_RemoteFrames_continues :
    let r := { FobRec.restored enrolled with lastFrame := some ⟨10, 0, 750⟩, tracker := .tracking .unlock 0 }
    let fr : Frame := { frame 7 10 with rep := 1 }
    (r.candidate = none ∧ fr.counter.toNat = r.keep.counter.toNat ∧ (⟨10, 0, 750⟩ : LastFrame).rep < fr.rep ∧
      1000 - (⟨10, 0, 750⟩ : LastFrame).time ≤ 250) ∧ r.tracker = .tracking .unlock 0 ∧ 1499 - 0 < 1500 ∧ 1500 ≤ 1500 - 0 ∧
      serving.sequencerRuns = false ∧ ¬ (⟨10, 0, 750⟩ : LastFrame).rep < (frame 7 10).rep := by decide

theorem test_RelockAndHold_tracker_premises :
    (tracking.fob .f0).lastFrame = some ⟨10, 0, 700⟩ ∧ (700 + 300 ≤ tracking.clock ∧ (tracking.fob .f0).tracker ≠ .idle) ∧
      ({ tracking with clock := 999 } : Part).clock < 700 + 300 := by decide

/-- A posting that RELEASE_CRASH ends at once: its slot's order has not ended before and has after. -/
theorem test_EveryEnded_premises :
    (serving.head 0).ended = false ∧
      (after serving (.releaseCrash slot0)).map (fun p => (p.head 0).ended) = some true := by decide

/-- What the premises of the laws ask of a state, in a state with doors, windows and a memory of its own. -/
theorem test_laws_hold_in_serving :
    serving.tidy ∧ plainUnits serving.holders ≤ serving.budget ∧ serving.crashSet = false ∧
      serving.locator.list.length ≤ 6 ∧ serving.store.dirty.Nodup ∧ ∃ t, step ⟨serving, [.wake]⟩ = .next t :=
  ⟨test_serving_is_tidy, by decide, by decide, by decide, List.nodup_nil, _, rfl⟩

/-- A window that moves, with its grant. -/
theorem test_UnitsGrantsAndLists_premises :
    let p := { withWindow (moving .opening 500 true) with holders := [⟨.window .fl, 2, .window, 900, .withinBudget⟩] }
    (p.window .fl).motion ≠ .stopped ∧ p.holders = [⟨.window .fl, 2, .window, 900, .withinBudget⟩] ∧
      plainUnits p.holders ≤ p.budget := by decide

/-- A record with a candidate 65 ahead of its counter, and commands that take no order. -/
theorem test_StoredCounters_premises :
    let p := (holding enrolled).setFob .f0 { FobRec.restored enrolled with candidate := some ⟨75, 900⟩ }
    (p.fob .f0).candidate = some ⟨75, 900⟩ ∧ (p.fob .f0).keep.counter.toNat < (75 : BitVec 28).toNat ∧
      orderPosted (.remoteFrame (frame 7 76)) = none ∧
      (after p (.remoteFrame (frame 7 76))).map (fun q => (q.fob .f0).keep.counter) = some 76 := by decide

theorem test_only_powerOnReset_premises : ∀ strap, Instr.wake ≠ .powerOnReset strap := fun _ h => by cases h

end Sys2Proof.Tests
end

section
/-! What a supply measurement does (R161 to R164): the door locks that withdrawals and aborts leave, the class change, the
measurement case by case, and the statement about three agreeing measurements. -/

namespace Sys2Proof.Machine

/-! ### Operations that leave every door's lock state -/

/-- Every door's lock state is as it was. -/
def Part.SameLocks (p q : Part) : Prop := ∀ d, (q.door d).lock = (p.door d).lock

theorem Part.SameLocks.refl (p : Part) : Part.SameLocks p p := fun _ => rfl

theorem Part.SameLocks.trans {p q r : Part} (h : Part.SameLocks p q) (k : Part.SameLocks q r) : Part.SameLocks p r :=
  fun d => (k d).trans (h d)

/-- The last operation first. -/
theorem Part.SameLocks.after {p q r : Part} (k : Part.SameLocks q r) (h : Part.SameLocks p q) : Part.SameLocks p r := h.trans k

theorem Part.SameLocks.ite {c : Prop} [Decidable c] {p q r : Part} (h : Part.SameLocks p q) (k : Part.SameLocks p r) :
    Part.SameLocks p (if c then q else r) := by
  split
  · exact h
  · exact k

theorem Part.SameLocks.foldl {α : Type} {f : Part → α → Part} (h : ∀ p x, Part.SameLocks p (f p x)) :
    ∀ (l : List α) (p : Part), Part.SameLocks p (l.foldl f p)
  | [], p => .refl p
  | x :: l, p => (h p x).trans (Part.SameLocks.foldl h l (f p x))

/-- An operation outside the doors. -/
theorem Part.Within.sameLocks {K : List Area} {p q : Part} (w : Part.Within K p q) (h : .doors ∉ K := by decide) :
    Part.SameLocks p q := fun d => congrArg DoorRec.lock (w.door d h)

theorem Part.setDoor_keepsLocks (p : Part) (d : Door) {x : DoorRec} (h : x.lock = (p.door d).lock) :
    Part.SameLocks p (p.setDoor d x) := fun e => by
  rw [Part.setDoor_door]
  split
  · subst_vars
    exact h
  · rfl

theorem Part.orderDone_foldl_sameLocks (l : List Slot) (o : OrderOutcome) (w : Word) (p : Part) :
    Part.SameLocks p (l.foldl (fun q k => q.orderDone k o w) p) :=
  .foldl (fun q k => (q.orderDone_does k o w 0).sameLocks) l p

theorem Part.endRelease_sameLocks (p : Part) (d : Door) (o : ReleaseOutcome) : Part.SameLocks p (p.endRelease d o) := by
  unfold Part.endRelease
  split
  · exact .refl p
  · exact .after (Part.setLatch_does _ _ _).sameLocks (.after (Part.orderDone_foldl_sameLocks _ _ _ _)
      (.after (Part.appendRow_does _ _).sameLocks (p.setDoor_keepsLocks d (DoorRec.withOutcome_lock _ o).1)))

/-- A withdrawn window changes no door, a withdrawn release ends with its outcome only. -/
theorem Part.withdrawHolder_sameLocks (p : Part) : ∀ a, Part.SameLocks p (p.withdrawHolder a)
  | .window c => (p.stopAndTell_does c .supply true).sameLocks
  | .latch _ => .after (Part.endRelease_sameLocks _ _ _) (p.dropHolder_does _ fun _ h => by cases h).sameLocks

theorem withdrawOver_sameLocks : ∀ (n : Nat) (p : Part), Part.SameLocks p (withdrawOver n p)
  | 0, p => .refl p
  | n + 1, p => by
    unfold withdrawOver
    refine .ite (.refl p) ?_
    split
    · exact .refl p
    · exact (p.withdrawHolder_sameLocks _).trans (withdrawOver_sameLocks n _)

theorem Part.meetBudget_sameLocks (p : Part) (before : Nat) : Part.SameLocks p (p.meetBudget before) :=
  .ite (withdrawOver_sameLocks _ p) (.refl p)

theorem Part.abortRequest_sameLocks (cause : AbortCause) (p : Part) (r : Request) :
    Part.SameLocks p (p.abortRequest cause r) := by
  have told (out : OrderOutcome) (row : Row) :
      Part.SameLocks p (r.orders.foldl (fun q k => q.orderDone k out) (p.appendRow row)) :=
    .after (Part.orderDone_foldl_sameLocks _ _ _ _) (p.appendRow_does row).sameLocks
  unfold Part.abortRequest
  dsimp only
  split
  · exact .after (Part.setDoor_keepsLocks _ _ rfl) (told _ _)
  · exact told _ _

theorem Part.abortSearches_sameLocks (p : Part) (cause : AbortCause) : Part.SameLocks p (p.abortSearches cause) :=
  .after (.foldl (Part.abortRequest_sameLocks cause) _ _) (.refl p)

/-- An abort leaves no search listed or in flight. -/
theorem Part.abortSearches_locator (p : Part) (cause : AbortCause) :
    (p.abortSearches cause).locator = { p.locator with list := [], flight := none } :=
  (Part.Does.foldl (Part.abortRequest_does cause) _ _).locator (by decide)

/-! ### Granting after an event -/

/-- What `settle` does after the event is a granting. -/
theorem settle_grants (f : Part → Part) (p : Part) : Part.Does grantAreas (f p) (settle f p) := by
  unfold settle
  exact .ite (fun _ => .refl _ _) fun _ => (f p).grantFromHead_does

/-! ### The class change (R164) -/

/-- The new class in force with no candidate, and its budget met (R96, R107). -/
def Part.enterClass (cls : SupplyClass) (p : Part) : Part :=
  { p with supply := { p.supply with cls := cls, candidate := none } }.meetBudget p.budget

theorem Part.changeClass_eq (p : Part) (cls : SupplyClass) (mv : Nat) :
    p.changeClass cls mv =
      let q := settle (·.enterClass cls) (p.appendRow (classChangedRow p.supply.cls cls mv))
      let q := if cls = .critical then q.abortSearches .supply else q
      if p.supply.cls = .critical then q.tryCommit else q := rfl

theorem Part.enterClass_supply (p : Part) (cls : SupplyClass) :
    (settle (·.enterClass cls) p).supply = { p.supply with cls := cls, candidate := none } :=
  ((settle_grants _ p).supply (by decide)).trans ((Part.meetBudget_does _ _).supply (by decide))

theorem Part.enterClass_sameLocks (p : Part) (cls : SupplyClass) : Part.SameLocks p (settle (·.enterClass cls) p) :=
  .after (settle_grants _ p).sameLocks (.after (Part.meetBudget_sameLocks _ _) (p.supply_within _).sameLocks)

theorem Part.changeClass_supply (p : Part) (cls : SupplyClass) (mv : Nat) :
    (p.changeClass cls mv).supply = { p.supply with cls := cls, candidate := none } := by
  have aborted (q : Part) : (q.abortSearches .supply).supply = q.supply := (q.abortSearches_does .supply).supply (by decide)
  simp only [Part.changeClass_eq, apply_ite Part.supply, Part.tryCommit_fields, aborted, ite_self, Part.enterClass_supply,
    Part.appendRow_fields]

theorem Part.changeClass_sameLocks (p : Part) (cls : SupplyClass) (mv : Nat) : Part.SameLocks p (p.changeClass cls mv) := by
  have entered := Part.SameLocks.after (Part.enterClass_sameLocks _ cls)
    (p.appendRow_does (classChangedRow p.supply.cls cls mv)).sameLocks
  have ended := Part.SameLocks.ite (c := cls = .critical) (.after (Part.abortSearches_sameLocks _ .supply) entered) entered
  rw [Part.changeClass_eq]
  exact .ite (.after (Part.tryCommit_does _).sameLocks ended) ended

/-- At CRITICAL no search is listed or in flight. -/
theorem Part.changeClass_critical_locator (p : Part) (mv : Nat) :
    (p.changeClass .critical mv).locator.list = [] ∧ (p.changeClass .critical mv).locator.flight = none := by
  simp only [Part.changeClass_eq, if_pos, apply_ite Part.locator, Part.tryCommit_fields, ite_self,
    Part.abortSearches_locator, and_self]

/-! ### A measurement (R161 to R163) -/

theorem Supply.nextCandidate_first {s : Supply} {ind : SupplyClass} (h : ∀ k, s.candidate = some k → k.cls ≠ ind) :
    s.nextCandidate ind = ⟨ind, 1⟩ := by
  unfold Supply.nextCandidate
  split
  · exact if_neg (h _ (by assumption))
  · rfl

theorem Supply.nextCandidate_again {s : Supply} {ind : SupplyClass} {n : Nat} (h : s.candidate = some ⟨ind, n⟩) :
    s.nextCandidate ind = ⟨ind, n + 1⟩ := by
  simp only [Supply.nextCandidate, h, if_true]

section Measured
variable {p : Part} {mv : Nat} (hc : p.collecting = false)
include hc

theorem Part.measure_inForce (h : indicated p.cfg p.supply.cls mv = p.supply.cls) :
    p.measure mv = { p with supply := { p.supply with millivolts := mv, candidate := none } } := by
  simp only [Part.measure, hc, h, Bool.false_eq_true, if_false, if_true]

theorem Part.measure_counts (h : indicated p.cfg p.supply.cls mv ≠ p.supply.cls) {n : Nat}
    (hk : p.supply.nextCandidate (indicated p.cfg p.supply.cls mv) = ⟨indicated p.cfg p.supply.cls mv, n⟩) (hn : n < 3) :
    p.measure mv = { p with supply := { p.supply with
      millivolts := mv
      candidate := some ⟨indicated p.cfg p.supply.cls mv, n⟩ } } := by
  simp only [Part.measure, hc, h, hk, Nat.not_le.2 hn, Bool.false_eq_true, if_false]

theorem Part.measure_changes (h : indicated p.cfg p.supply.cls mv ≠ p.supply.cls) {n : Nat}
    (hk : p.supply.nextCandidate (indicated p.cfg p.supply.cls mv) = ⟨indicated p.cfg p.supply.cls mv, n⟩) (hn : 3 ≤ n) :
    p.measure mv = ({ p with supply := { p.supply with millivolts := mv } } : Part).changeClass
      (indicated p.cfg p.supply.cls mv) mv := by
  simp only [Part.measure, hc, h, hk, hn, Bool.false_eq_true, if_false, if_true]

end Measured

/-- The part collects in the full self-test's DRIVERS stage only. -/
theorem Part.collecting_eq_false {p : Part} (h : p.state ≠ .start .full .drivers) : p.collecting = false :=
  decide_eq_false h

theorem completes_measurement {mv : Nat} {s : State} {post : Part → Prop} :
    Completes (.batteryMeasurement mv) s post ↔ post (settle (·.measure mv) s.part) := completes_run rfl

/-- A measurement that writes the supply record with the class as it was does nothing else. -/
theorem completes_measurement_sameClass {mv : Nat} {s : State} {x : Supply} {post : Part → Prop}
    (h : s.part.measure mv = { s.part with supply := x }) (hx : x.cls = s.part.supply.cls)
    (hp : post { s.part with supply := x }) : Completes (.batteryMeasurement mv) s post := by
  have still : settle (·.measure mv) s.part = { s.part with supply := x } := by
    rw [settle_same (by rw [h]) (by rw [h]) (by rw [h]; simp only [Part.budget, hx]), h]
  rwa [completes_measurement, still]

/-! ### The budgets and the indications (the tables of R96 and R162) -/

/-- The budget of a class. -/
def classBudget (g : Config) : SupplyClass → Nat
  | .normal => g.normalBudget
  | .low => g.lowBudget
  | .critical => 0

theorem Part.budget_eq (p : Part) : p.budget = classBudget p.cfg p.supply.cls := by
  unfold Part.budget
  cases p.supply.cls <;> rfl

theorem indicated_critical_of_below {g : Config} {mv : Nat} (h : mv < g.criticalEntry) :
    indicated g .normal mv = .critical ∧ indicated g .low mv = .critical := ⟨if_pos h, if_pos h⟩

/-- From NORMAL, not below the entry to CRITICAL. -/
theorem indicated_normal {g : Config} {mv : Nat} (h : g.criticalEntry ≤ mv) :
    indicated g .normal mv = if mv < g.lowEntry then .low else .normal := if_neg (Nat.not_lt.2 h)

/-- From LOW, not below the entry to CRITICAL. -/
theorem indicated_low {g : Config} {mv : Nat} (h : g.criticalEntry ≤ mv) :
    indicated g .low mv = if g.lowExit < mv then .normal else .low := if_neg (Nat.not_lt.2 h)

/-- From CRITICAL, at or below the exit from LOW. -/
theorem indicated_critical {g : Config} {mv : Nat} (h : mv ≤ g.lowExit) :
    indicated g .critical mv = if g.criticalExit < mv then .low else .critical := if_neg (Nat.not_lt.2 h)

/-- R162's table. -/
theorem indicated_table (g : Config) (mv : Nat) :
    (mv < g.criticalEntry → indicated g .normal mv = .critical ∧ indicated g .low mv = .critical) ∧
    (g.criticalEntry ≤ mv → mv < g.lowEntry → indicated g .normal mv = .low) ∧
    (g.criticalEntry ≤ mv → g.lowEntry ≤ mv → indicated g .normal mv = .normal) ∧
    (g.criticalEntry ≤ mv → g.lowExit < mv → indicated g .low mv = .normal) ∧
    (g.criticalEntry ≤ mv → mv ≤ g.lowExit → indicated g .low mv = .low) ∧
    (g.lowExit < mv → indicated g .critical mv = .normal) ∧
    (g.criticalExit < mv → mv ≤ g.lowExit → indicated g .critical mv = .low) ∧
    (mv ≤ g.criticalExit → mv ≤ g.lowExit → indicated g .critical mv = .critical) where
  left := indicated_critical_of_below
  right := ⟨fun h k => (indicated_normal h).trans (if_pos k), fun h k => (indicated_normal h).trans (if_neg (Nat.not_lt.2 k)),
    fun h k => (indicated_low h).trans (if_pos k), fun h k => (indicated_low h).trans (if_neg (Nat.not_lt.2 k)),
    fun h => if_pos h, fun k h => (indicated_critical h).trans (if_pos k),
    fun k h => (indicated_critical h).trans (if_neg (Nat.not_lt.2 k))⟩

/-! ### The third agreeing measurement -/

/-- The state after the third agreeing measurement: the class and its budget in force, the crash latch and every lock state
as they were, and at CRITICAL no search. -/
theorem Part.measure_third {p : Part} {mv : Nat} {ind : SupplyClass} (hc : p.collecting = false)
    (hi : indicated p.cfg p.supply.cls mv = ind) (h : ind ≠ p.supply.cls) (hk : p.supply.candidate = some ⟨ind, 2⟩) :
    let q := settle (·.measure mv) p
    q.supply = { p.supply with cls := ind, millivolts := mv, candidate := none } ∧
      q.budget = classBudget p.cfg ind ∧ (ind = .critical → q.locator.list = [] ∧ q.locator.flight = none) ∧
      q.crash = p.crash ∧ Part.SameLocks p q := by
  subst hi
  have hm := Part.measure_changes hc h (Supply.nextCandidate_again hk) (Nat.le_refl 3)
  have granted := settle_grants (·.measure mv) p
  have measured := p.measure_does mv
  have hs : (settle (·.measure mv) p).supply =
      { p.supply with cls := indicated p.cfg p.supply.cls mv, millivolts := mv, candidate := none } := by
    rw [granted.supply (by decide), hm, Part.changeClass_supply]
  have hg : (settle (·.measure mv) p).cfg = p.cfg := (granted.cfg (by decide)).trans (measured.cfg (by decide))
  refine ⟨hs, by rw [Part.budget_eq, hs, hg], fun hcrit => ?_,
    (granted.crash (by decide)).trans (measured.crash (by decide)), ?_⟩
  · rw [granted.locator (by decide), hm, hcrit]
    exact Part.changeClass_critical_locator _ mv
  · refine .after granted.sameLocks ?_
    rw [hm]
    exact .after (Part.changeClass_sameLocks _ _ mv) (p.supply_within _).sameLocks

/-- Settles O38: the measurement of each case is one of `measure_inForce`, `measure_counts` and `measure_changes`. -/
theorem threeAgreeingMeasurementsChangeTheClass : Obligations.ThreeAgreeingMeasurementsChangeTheClass := by
  unfold Obligations.ThreeAgreeingMeasurementsChangeTheClass
  refine ⟨fun s mv hs => ?_, indicated_table⟩
  have hc := Part.collecting_eq_false hs
  refine ⟨fun h => ?_, fun h hk => ?_, fun h hk => ?_, fun h hk => ?_⟩
  · exact completes_measurement_sameClass (Part.measure_inForce hc h) rfl ⟨rfl, rfl, rfl⟩
  · exact completes_measurement_sameClass
      (Part.measure_counts hc h (Supply.nextCandidate_first hk) (by decide)) rfl ⟨rfl, rfl⟩
  · exact completes_measurement_sameClass
      (Part.measure_counts hc h (Supply.nextCandidate_again hk) (by decide)) rfl ⟨rfl, rfl⟩
  · obtain ⟨supply, budget, searches, crash, locks⟩ := Part.measure_third hc rfl h hk
    exact completes_measurement.2 ⟨supply, budget, searches, crash, locks⟩

end Sys2Proof.Machine
end

section
/-! What a write to SCROLL START does (R194): the rows it gives back, the GAP row that follows where the mark is not empty,
and the burst of that one word. -/

namespace Sys2Proof.Machine

/-! ### How many rows a value gives back -/

section GivenBack
variable {s : Scroll} {v : Nat}

theorem Scroll.givenBack_writeRow (h : v = (s.start + s.unread) % 128) : s.givenBack v = some s.unread := by
  have hv : ¬ 127 < v := by omega
  simp only [Scroll.givenBack, hv, if_false, ← h, if_true]

theorem Scroll.givenBack_within (hv : v < 128) (h : v ≠ (s.start + s.unread) % 128)
    (hk : (v + 128 - s.start) % 128 < s.unread) : s.givenBack v = some ((v + 128 - s.start) % 128) := by
  have hv : ¬ 127 < v := by omega
  simp only [Scroll.givenBack, hv, h, hk, if_false, if_true]

theorem Scroll.givenBack_beyond (h : v ≠ (s.start + s.unread) % 128)
    (hk : s.unread ≤ (v + 128 - s.start) % 128) : s.givenBack v = none := by
  simp only [Scroll.givenBack, h, Nat.not_lt.2 hk, if_false, ite_self]

theorem Scroll.givenBack_above (h : 127 < v) : s.givenBack v = none := if_pos h

end GivenBack

/-! ### Giving rows back, and the GAP row -/

/-- The scroll with `k` rows given back and its start at `v`, before a GAP row. -/
def Part.giveBack (p : Part) (v k : Nat) : Part :=
  { p with scroll := { p.scroll with start := v, unread := p.scroll.unread - k } }

theorem Part.scrollWrite_some {p : Part} {v k : Nat} (h : p.scroll.givenBack v = some k) :
    p.scrollWrite v = (p.giveBack v k).writeGap := by
  rw [Part.scrollWrite, h]
  rfl

theorem Part.scrollWrite_none {p : Part} {v : Nat} (h : p.scroll.givenBack v = none) : p.scrollWrite v = p.setMisuse := by
  rw [Part.scrollWrite, h]

theorem Part.giveBack_tidy {p : Part} (t : p.tidy) {v : Nat} (hv : v < 128) (k : Nat) : (p.giveBack v k).tidy := by
  obtain ⟨memory, parity, -, unread⟩ := t
  exact ⟨memory, parity, hv, (Nat.sub_le _ _).trans unread⟩

/-- The mark empty or the scroll full, no GAP row is written. -/
theorem Part.writeGap_none {p : Part} (h : ¬ (p.scroll.unread < 128 ∧ p.scroll.mark ≠ 0)) : p.writeGap = p :=
  if_pos (by
    by_cases hm : p.scroll.mark = 0
    · exact .inl hm
    · exact .inr (Nat.not_lt.1 fun hu => h ⟨hu, hm⟩))

/-- A row changes no word but its own four. -/
theorem Part.writeRow_outside (p : Part) (r : Row) {j : Nat}
    (h : j < 480 + 4 * ((p.scroll.start + p.scroll.unread) % 128) ∨
      480 + 4 * ((p.scroll.start + p.scroll.unread) % 128) + 4 ≤ j) :
    Memory.readWord (p.writeRow r).port.memory j = Memory.readWord p.port.memory j :=
  Memory.readWord_writeWords_ne _ _ _ (by rwa [Row.words_length])

/-- The GAP row written and the mark emptied. -/
theorem Part.writeGap_writes {p : Part} (hu : p.scroll.unread < 128) (hm : p.scroll.mark ≠ 0) :
    p.writeGap.port = (p.writeRow (gapRow p.scroll.mark)).port ∧
      p.writeGap.scroll = { p.scroll with unread := p.scroll.unread + 1, mark := 0 } := by
  rw [Part.writeGap, if_neg (not_or.2 ⟨hm, Nat.not_le.2 hu⟩)]
  exact ⟨rfl, rfl⟩

theorem Part.writeRow_misuse (p : Part) (r : Row) : (p.writeRow r).port.misuse = p.port.misuse := rfl

/-! ### What stands after an accepted value -/

/-- `q` is `p` with `k` rows given back, the start at `v`, and the GAP row where the scroll has room and the mark is not
empty (R194). -/
def Part.gaveBack (p : Part) (v k : Nat) (q : Part) : Prop :=
  q.port.misuse = p.port.misuse ∧ q.scroll.start = v ∧
  (if p.scroll.unread - k < 128 ∧ p.scroll.mark ≠ 0 then
    let base := 480 + 4 * ((v + (p.scroll.unread - k)) % 128)
    q.scroll.unread = p.scroll.unread - k + 1 ∧ q.scroll.mark = 0 ∧
    (∀ j, j < 4 → some (Memory.readWord q.port.memory (base + j)) = ((gapRow p.scroll.mark).words p.clock)[j]?) ∧
    ∀ j, j < base ∨ base + 4 ≤ j → Memory.readWord q.port.memory j = Memory.readWord p.port.memory j
  else q.scroll.unread = p.scroll.unread - k ∧ q.scroll.mark = p.scroll.mark ∧ q.port.memory = p.port.memory)

theorem Part.giveBack_gaveBack {p : Part} (t : p.tidy) {v : Nat} (hv : v < 128) (k : Nat) :
    p.gaveBack v k (p.giveBack v k).writeGap := by
  unfold Part.gaveBack
  split
  case isTrue h =>
    obtain ⟨hu, hm⟩ := h
    obtain ⟨port, scroll⟩ := Part.writeGap_writes (p := p.giveBack v k) hu hm
    rw [port, scroll]
    exact ⟨Part.writeRow_misuse _ _, rfl, rfl, rfl, fun j hj => Part.writeRow_last (Part.giveBack_tidy t hv k) _ hj,
      fun j hj => Part.writeRow_outside (p.giveBack v k) _ hj⟩
  case isFalse h =>
    rw [Part.writeGap_none (p := p.giveBack v k) h]
    exact ⟨rfl, rfl, rfl, rfl, rfl⟩

theorem Part.scrollWrite_gaveBack {p : Part} (t : p.tidy) {v k : Nat} (h : p.scroll.givenBack v = some k) :
    p.gaveBack v k (p.scrollWrite v) := by
  rw [Part.scrollWrite_some h]
  exact Part.giveBack_gaveBack t (Scroll.givenBack_start h) k

/-- What the statement says of a given-back scroll rests on the scroll, the stored words, MISUSE and the clock only. -/
theorem Part.gaveBack_of_within {K : List Area} {p p' q : Part} (w : Part.Within K p p') {v k : Nat}
    (h : p'.gaveBack v k q) (h1 : .misuse ∉ K := by decide) (h2 : .scroll ∉ K := by decide)
    (h3 : .memory ∉ K := by decide) : p.gaveBack v k q := by
  simpa only [Part.gaveBack, w.misuse h1, w.scroll h2, w.memory h3, w.clock] using h

/-! ### The burst of one word -/

/-- A write to SCROLL START grants nothing. -/
theorem Part.settle_scrollWord (p : Part) (w : HostWord) : settle (·.hostWrite 256 w) p = p.scrollWrite w.value.toNat :=
  settle_within (f := (·.hostWrite 256 w)) (p.scrollWrite_does w.value.toNat).toWithin

/-- The burst of SCROLL START alone: the wake or activity, the word, and the pointer behind it (R183). -/
theorem Part.memoryWrite_scrollStart {p : Part} (hs : p.port.served = true) (w : HostWord) :
    p.memoryWrite 256 [w] =
      let q := (p.burstTaken .link).scrollWrite w.value.toNat
      { q with port := { q.port with pointer := 257 } } := by
  have served : (p.burstTaken .link).port.served = true := ((p.burstTaken_does .link).served (by decide)).trans hs
  have taken : (p.burstTaken .link).takeWords (burstWords 256 [w]) = (p.burstTaken .link).scrollWrite w.value.toNat := by
    unfold Part.takeWords
    rw [if_pos served, ← Part.settle_scrollWord]
    rfl
  unfold Part.memoryWrite Part.writeBurst
  rw [show (256 : BitVec 10).toNat = 256 from rfl, taken]
  rfl

theorem completes_scrollStart {w : HostWord} {s : State} {post : Part → Prop} :
    Completes (.memoryWrite 256 [w]) s post ↔ post (s.part.memoryWrite 256 [w]) :=
  completes_run (f := (·.memoryWrite 256 [w])) rfl

section ScrollStart
variable {s : State} {w : HostWord} (hs : s.part.port.served = true)
include hs

theorem completes_gaveBack (t : s.part.tidy) {k : Nat} (h : s.part.scroll.givenBack w.value.toNat = some k) :
    Completes (.memoryWrite 256 [w]) s (s.part.gaveBack w.value.toNat k) := by
  have taken := s.part.burstTaken_does .link
  have h : (s.part.burstTaken .link).scroll.givenBack w.value.toNat = some k := by rwa [taken.scroll (by decide)]
  rw [completes_scrollStart, Part.memoryWrite_scrollStart hs]
  exact Part.gaveBack_of_within taken.toWithin (Part.scrollWrite_gaveBack (taken.tidyLaw t) h)

theorem completes_scrollMisuse (h : s.part.scroll.givenBack w.value.toNat = none) :
    Completes (.memoryWrite 256 [w]) s fun p =>
      p.scroll = s.part.scroll ∧ p.port.misuse = true ∧ p.port.memory = s.part.port.memory := by
  have taken := s.part.burstTaken_does .link
  have h : (s.part.burstTaken .link).scroll.givenBack w.value.toNat = none := by rwa [taken.scroll (by decide)]
  rw [completes_scrollStart, Part.memoryWrite_scrollStart hs, Part.scrollWrite_none h]
  exact ⟨taken.scroll (by decide), rfl, taken.memory (by decide)⟩

end ScrollStart

/-- Settles O13: each value is one case of `Scroll.givenBack`, and the burst does what that case says. -/
theorem scrollStartGivesBackRows : Obligations.ScrollStartGivesBackRows := by
  unfold Obligations.ScrollStartGivesBackRows
  intro s w hs t
  refine ⟨fun h => ?_, fun hv h hk => ?_, fun h => ?_⟩
  · exact completes_gaveBack hs t (Scroll.givenBack_writeRow h)
  · exact completes_gaveBack hs t (Scroll.givenBack_within hv h hk)
  · refine completes_scrollMisuse hs ?_
    rcases h with ⟨-, h, hk⟩ | h
    · exact Scroll.givenBack_beyond h hk
    · exact Scroll.givenBack_above h

end Sys2Proof.Machine
end

section
/-! What a command can do: one case for each kind of command, and from it the laws that every step keeps. -/

namespace Sys2Proof.Machine

/-! ### What a command can do -/

/-- Every area but the reports and the roster. -/
abbrev steadyAreas : List Area := .degraded :: .timeBase :: linkAreas

/-- A command that can take an order from the board: an order, or a burst of words (R189, R190). -/
def fillsBoard (c : Instr) : Prop :=
  orderPosted c ≠ none ∨ (∃ i ws, c = .memoryWrite i ws) ∨ ∃ ws, c = .writeOn ws

/-- What a command makes of the part: the commands that give rows back, free the slots or change the roster are named, every
other keeps both. -/
inductive Runs : Instr → Part → Part → Prop where
  | powerOn {p : Part} (strap : Strap) : Runs (.powerOnReset strap) p (p.powerOn strap)
  | register {c : Instr} {p : Part} (sel : Register) (v : Word) : Runs c p (p.registerWrite sel v)
  | memoryStage {p : Part} (fault : Bool) : Runs (.memoryStageEnd fault) p (p.memoryEnd fault)
  | storeStage {p : Part} (found : StoreFindings) : Runs (.storeStageEnd found) p (p.storeEnd found)
  | woke {p : Part} : Runs .woke p p.wake
  | burst {c : Instr} {p : Part} (h : fillsBoard c) (start : BitVec 10) (ws : List HostWord) :
      Runs c p (p.memoryWrite start ws)
  | steady {c : Instr} {p q : Part} (h : Part.Does steadyAreas p q) : Runs c p q

set_option Elab.async false in -- the declarations above are finished first: this bounds the memory of the one text
theorem Runs.does {K : List Area} {c : Instr} {p q : Part} (h : Part.Does K p q) (hk : K ⊆ steadyAreas := by decide) :
    Runs c p q := .steady (h.mono hk)

theorem Runs.posts {c : Instr} {p : Part} (h : OrderHead) (k : OrderKind) (params : List HostWord)
    (hc : orderPosted c ≠ none) : Runs c p (p.postOrder h k params) := .burst (.inl hc) _ _

theorem exec_runs {c : Instr} {s t : State} (h : exec c s = .next t) : Runs c s.part t.part ∧ t.pending = s.pending := by
  cases c <;> cases h <;> refine ⟨?_, rfl⟩
  case powerOnReset strap => exact .powerOn strap
  case portReset => exact .register .control 1
  case wake => exact .register .control 2
  case registerWrite sel v => exact .register sel v
  case registerRead sel => exact .steady (.after (Part.burstTaken_does _ _) (.mono (s.part.registerRead_does sel)))
  case memoryRead i n => exact .steady (.after (Part.burstTaken_does _ _) (.mono (s.part.send_does _)))
  case memoryWrite i ws => exact .burst (.inr (.inl ⟨i, ws, rfl⟩)) i ws
  case writeOn ws => exact .burst (.inr (.inr ⟨ws, rfl⟩)) _ ws
  case unknownCommand k => exact .steady (.after (Part.burstTaken_does _ _) (.mono s.part.setMisuse_does))
  case lockDoors head action mask => exact .posts head .lockDoors _ nofun
  case setChildLock head doors action => exact .posts head .setChildLock _ nofun
  case releaseLatch head door => exact .posts head .releaseLatch _ nofun
  case moveWindow head window target position => exact .posts head .moveWindow _ nofun
  case setWindowLockout head wanted => exact .posts head .setWindowLockout _ nofun
  case learnWindow head window => exact .posts head .learnWindow _ nofun
  case locateFob head antennas => exact .posts head .locateFob _ nofun
  case enrolFob head index => exact .posts head .enrolFob _ nofun
  case dismissFob head index => exact .posts head .dismissFob _ nofun
  case suspendFob head index resume => exact .posts head .suspendFob _ nofun
  case comfortClose head => exact .posts head .comfortClose _ nofun
  case comfortOpen head => exact .posts head .comfortOpen _ nofun
  case vent head => exact .posts head .vent _ nofun
  case releaseCrash head => exact .posts head .releaseCrash _ nofun
  case reconfigure head => exact .posts head .reconfigure _ nofun
  case driversStageEnd found => exact .does (s.part.driversEnd_does found)
  case inputsStageEnd found => exact .does (s.part.inputsEnd_does found)
  case memoryStageEnd fault => exact .memoryStage fault
  case storeStageEnd found => exact .storeStage found
  case antennasStageEnd faulty => exact .does (s.part.antennasEnd_does faulty)
  case receiverStageEnd faulty => exact .does (s.part.receiverEnd_does faulty)
  case timeBaseCheck us => exact .does (s.part.timeBase_end_does us)
  case dozeDwellExpiry => exact .does s.part.dwellExpiry_does
  case listenWindow => exact .does s.part.listenWindow_does
  case woke => exact .woke
  case commitStart => exact .does s.part.tryCommit_does
  case commitEnd => exact .does s.part.commitEnd_does
  case rawInputChange i l => exact .does (s.part.rawChange_does i l)
  case ajarChange d a => exact .does (s.part.debounced_does _ _)
  case outerPull c b => exact .does (s.part.debounced_does _ _)
  case tailgateButton b => exact .does (s.part.debounced_does _ _)
  case innerHandlePull c b => exact .does (s.part.debounced_does _ _)
  case outerTouch c b => exact .does (s.part.debounced_does _ _)
  case lockTouch f b => exact .does (s.part.debounced_does _ _)
  case windowSwitchChange sw st => exact .does (s.part.debounced_does _ _)
  case lockRocker r => exact .does (s.part.debounced_does _ _)
  case childLockButton b => exact .does (s.part.debounced_does _ _)
  case lockoutButton b => exact .does (s.part.debounced_does _ _)
  case ignChange b => exact .does (s.part.debounced_does _ _)
  case inputStuck i => exact .does (s.part.stuckExpiry_does i)
  case crashLineChange b => exact .does (s.part.crashLine_does b)
  case crashEvent => exact .does s.part.crashExpiry_does
  case batteryMeasurement mv => exact .steady (settle_does (f := (·.measure mv)) (s.part.measure_does mv))
  case relockExpiry => exact .steady (settle_does s.part.relockExpiry_does)
  case grantFromHead => exact .does s.part.grantFromHead_does
  case waitLimitExpiry a => exact .steady (settle_does (f := (·.waitExpiry a)) (s.part.waitExpiry_does a))
  case latchPulseExpiry d => exact .steady (settle_does (f := (·.pulseExpiry d)) (s.part.pulseExpiry_does d))
  case confirmExpiry d => exact .steady (settle_does (f := (·.confirmExpiry d)) (s.part.confirmExpiry_does d))
  case hallPulse c high us => exact .steady (settle_does (f := (·.hallPulse c high us)) (s.part.hallPulse_does c high us))
  case coastEnd c => exact .does (s.part.coastEnd_does c)
  case softStartEnd c => exact .does (s.part.softStartEnd_does c)
  case stallExpiry c => exact .steady (settle_does (s.part.stallExpiry_does c))
  case rereferenceWatchExpiry c => exact .does (s.part.watchExpiry_does c)
  case forceArmedExpiry c => exact .does (s.part.forceExpiry_does c)
  case heatRise c => exact .does (s.part.heatRise_does c)
  case heatFall c => exact .does (s.part.heatFall_does c)
  case searchStart => exact .does s.part.trySearch_does
  case antennaTransmissionEnd => exact .does s.part.transmissionEnd_does
  case replySlotEnd => exact .does s.part.slotEnd_does
  case searchReply r => exact .does (s.part.takeReply_does r)
  case searchCompletion => exact .steady (settle_does s.part.completeSearch_does)
  case remoteFrame fr => exact .does (s.part.frameHeard_does fr)
  case holdTrackerExpiry f => exact .steady (settle_does (s.part.holdExpiry_does f))
  case partWordParityError => exact .does (s.part.enterSafeHold_does _)

/-! ### The laws that every step keeps -/

theorem Runs.keeps {c : Instr} {p q : Part} (r : Runs c p q) : Part.Keeps p q := by
  cases r with
  | powerOn strap => exact p.powerOn_keeps strap
  | register sel v => exact (p.registerWrite_does sel v).toKeeps
  | memoryStage fault => exact (p.memoryEnd_does fault).toKeeps
  | storeStage found => exact (p.storeEnd_does found).toKeeps
  | woke => exact p.wake_does.toKeeps
  | burst h start ws => exact (p.memoryWrite_does start ws).toKeeps
  | steady h => exact h.toKeeps

theorem step_keeps {s t : State} (h : step s = .next t) : Part.Keeps s.part t.part := by
  rcases step_next h with ⟨c, rest, hc⟩ | rfl
  · exact (exec_runs hc).1.keeps
  · exact s.part.passMs_keeps

/-- Settles O53. -/
theorem stepsKeepMemoryAndScrollTidy : Obligations.StepsKeepMemoryAndScrollTidy :=
  fun _ _ law h => (step_keeps h).tidyLaw law

/-- Settles O54. -/
theorem stepsKeepDoorsFittingTheirContacts : Obligations.StepsKeepDoorsFittingTheirContacts :=
  fun _ _ law h => (step_keeps h).doorsLaw law

/-- Settles O55. -/
theorem stepsKeepTheCrashLatchLaw : Obligations.StepsKeepTheCrashLatchLaw :=
  fun _ _ law h => (step_keeps h).crashLaw law

/-- Settles O56. -/
theorem stepsKeepUnitsGrantsAndLists : Obligations.StepsKeepUnitsGrantsAndLists := fun _ _ h =>
  have k := step_keeps h
  ⟨k.unitsLaw, k.grantsLaw, k.searchesLaw, k.dirtyLaw⟩

/-- Settles O57. -/
theorem stepsKeepEntriesWithTheirCommands : Obligations.StepsKeepEntriesWithTheirCommands :=
  fun _ _ law h => (step_keeps h).entriesLaw law

/-! ### The stored counters -/

/-- Outside the power-on reset, the STORE stage and what can take an order, every record follows the one before. -/
theorem Runs.counts {c : Instr} {p q : Part} (r : Runs c p q) (hp : ∀ strap, c ≠ .powerOnReset strap)
    (hs : ∀ found, c ≠ .storeStageEnd found) (hw : c ≠ .woke) (hb : ¬ fillsBoard c) : Part.Counts p q := by
  cases r with
  | powerOn strap => exact absurd rfl (hp strap)
  | register sel v => exact (p.registerWrite_does sel v).roster (by decide)
  | memoryStage fault => exact (p.memoryEnd_does fault).roster (by decide)
  | storeStage found => exact absurd rfl (hs found)
  | woke => exact absurd rfl hw
  | burst h start ws => exact absurd h hb
  | steady h => exact h.roster (by decide)

/-- Settles O58. -/
theorem storedCountersNeverFall : Obligations.StoredCountersNeverFall := by
  unfold Obligations.StoredCountersNeverFall
  intro e s t h fit
  have r := (exec_runs h).1
  refine ⟨r.keeps.candidatesLaw fit, fun hp hs ho hm hwr hw f => ?_⟩
  have hb : ¬ fillsBoard e := by
    rintro (h | ⟨i, ws, h⟩ | ⟨ws, h⟩)
    · exact h ho
    · exact hm i ws h
    · exact hwr ws h
  exact ((r.counts hp hs hw hb).follows f (fit f)).2

/-! ### The rows of ended orders -/

/-- Every slot whose order ended has its report. -/
def Part.EndsReported (p q : Part) : Prop :=
  p.tidy → ∀ k : Slot, (p.head k).ended = false → (q.head k).ended = true → q.reported k

theorem Part.Reports.endsReported {p q : Part} (h : Part.Reports p q) : Part.EndsReported p q := fun tidy k hp hq => by
  rcases h.ends tidy k hq with same | reported
  · rw [same, hp] at hq
    cases hq
  · exact reported

/-- Every slot FREE, none has ended. -/
theorem Part.endsReported_free {p q : Part} (h : q.heads = Vector.replicate 16 .free) : Part.EndsReported p q :=
  fun _ k _ hq => by
    have free : q.head k = .free := by simp [Part.head, h]
    rw [free] at hq
    cases hq

/-- What comes before a step changes no head and keeps the memory tidy. -/
theorem Part.EndsReported.of_heads {p x q : Part} (h : Part.EndsReported x q) (tidy : p.tidy → x.tidy)
    (heads : x.heads = p.heads) : Part.EndsReported p q :=
  fun t k hp => h (tidy t) k (by rwa [Part.head, heads])

theorem Part.portReset_endsReported (p q : Part) : Part.EndsReported p q.portReset :=
  Part.endsReported_free q.portReset_heads

theorem Part.Within.endsReported {K : List Area} {p q : Part} (h : Part.Within K p q) (hk : .reports ∉ K := by decide) :
    Part.EndsReported p q := (h.reports hk).endsReported

theorem Part.Does.thenEndsReported {K : List Area} {p x q : Part} (h : Part.Does K p x) (k : Part.EndsReported x q)
    (hk : .heads ∉ K := by decide) : Part.EndsReported p q := k.of_heads h.tidyLaw (h.heads hk)

theorem Part.portResetWrite_endsReported (p : Part) : Part.EndsReported p p.portResetWrite := by
  have unchanged : Part.EndsReported p p := (Part.Within.refl [] p).endsReported
  unfold Part.portResetWrite
  split
  case h_1 => exact unchanged
  case h_2 => exact p.portReset_endsReported p
  case h_3 => exact p.portReset_endsReported p
  case h_4 =>
    split
    · exact p.portReset_endsReported p
    · exact unchanged
  case h_5 => exact ((p.requestWake_does .link).andThen (Part.waking_does _ _)).endsReported

theorem Part.registerWrite_endsReported (p : Part) (sel : Register) (v : Word) :
    Part.EndsReported p (p.registerWrite sel v) := by
  cases sel with
  | status => exact (p.setMisuse_does.trans (M := [.misuse, .waking, .dwell]) (Part.burstTaken_does _ _)).endsReported
  | control =>
    have taken := p.burstTaken_does (if bitAt v 1 then .wakeWrite else .link)
    unfold Part.registerWrite
    dsimp only
    split
    · exact taken.thenEndsReported (Part.portResetWrite_endsReported _)
    · exact taken.endsReported

theorem Part.memoryEnd_endsReported (p : Part) (fault : Bool) : Part.EndsReported p (p.memoryEnd fault) := by
  rcases p.memoryEnd_split fault with held | free
  · exact held.endsReported
  · exact endsReported_free free

theorem Part.wake_endsReported (p : Part) : Part.EndsReported p p.wake := by
  obtain ⟨q, served, eq | eq⟩ := p.wake_split
  · rw [eq]
    exact served.endsReported
  · rw [eq]
    exact p.portReset_endsReported q

theorem Part.memoryWrite_endsReported (p : Part) (start : BitVec 10) (ws : List HostWord) :
    Part.EndsReported p (p.memoryWrite start ws) := by
  obtain ⟨x, gaveBack, wrote⟩ := (p.burstTaken .link).takeWords_split start.toNat ws
  exact (p.burstTaken_does .link).thenEndsReported
    (gaveBack.thenEndsReported (wrote.andThen (Part.portRest_does _ _ _ _ _)).endsReported)

theorem Runs.endsReported {c : Instr} {p q : Part} (r : Runs c p q) : Part.EndsReported p q := by
  cases r with
  | powerOn strap => exact Part.endsReported_free rfl
  | register sel v => exact p.registerWrite_endsReported sel v
  | memoryStage fault => exact p.memoryEnd_endsReported fault
  | storeStage found => exact (p.storeEnd_does found).endsReported
  | woke => exact p.wake_endsReported
  | burst h start ws => exact p.memoryWrite_endsReported start ws
  | steady h => exact h.endsReported

/-- Settles O59. -/
theorem everyEndedOrderIsReported : Obligations.EveryEndedOrderIsReported :=
  fun _ _ _ tidy h k => (exec_runs h).1.endsReported tidy k

/-! ### The driver door and the clock -/

theorem Runs.driver_clock {c : Instr} {p q : Part} (r : Runs c p q) (hp : ∀ strap, c ≠ .powerOnReset strap) :
    q.driverDoor = p.driverDoor ∧ q.clock = p.clock := by
  have kept {K : List Area} {x : Part} (h : Part.Does K p x) : x.driverDoor = p.driverDoor ∧ x.clock = p.clock :=
    ⟨h.driver, h.clock⟩
  cases r with
  | powerOn strap => exact absurd rfl (hp strap)
  | register sel v => exact kept (p.registerWrite_does sel v)
  | memoryStage fault => exact kept (p.memoryEnd_does fault)
  | storeStage found => exact kept (p.storeEnd_does found)
  | woke => exact kept p.wake_does
  | burst h start ws => exact kept (p.memoryWrite_does start ws)
  | steady h => exact kept h

/-- Settles O60. -/
theorem onlyPowerOnResetChangesDriverDoorAndClock : Obligations.OnlyPowerOnResetChangesDriverDoorAndClock :=
  fun _ _ _ hp h =>
    have ⟨r, queue⟩ := exec_runs h
    have ⟨driver, clock⟩ := r.driver_clock hp
    ⟨driver, clock, queue⟩

end Sys2Proof.Machine
end

section
/-! The steps and resets: the front of the queue, the empty queue, the reset state, the power-on reset. -/

namespace Sys2Proof.Machine

/-- Settles O1. -/
theorem frontCommandRuns : Obligations.FrontCommandRuns := fun _ _ _ => rfl

/-- Settles O4: the fresh part is written out in `Part.poweredOn`. -/
theorem powerOnResetStartsAfresh : Obligations.PowerOnResetStartsAfresh := by
  unfold Obligations.PowerOnResetStartsAfresh
  intro strap s
  refine ⟨rfl, rfl, rfl, rfl, rfl, rfl, rfl, rfl, rfl, rfl, rfl, rfl, rfl, rfl, rfl, rfl, rfl, rfl, rfl, rfl, rfl, rfl, rfl,
    rfl, rfl, rfl, rfl, rfl, rfl, rfl, rfl, fun d => ?doors, fun k => ?heads, fun sw => ?switches, fun c => ?windows,
    fun f => ?fobs, fun i => ?inputs⟩
  case doors => cases d <;> rfl
  case heads => simp [Part.poweredOn, Part.head]
  case switches => simp [Part.poweredOn]
  case windows => cases c <;> exact ⟨rfl, rfl, rfl⟩
  case fobs => cases f <;> exact ⟨rfl, rfl, rfl, rfl, rfl⟩
  case inputs => simp [Part.poweredOn, Part.input, InputRec.fresh]

/-! ### The reset state meets the laws -/

set_option Elab.async false in -- the declarations above are finished first: this bounds the memory of the one text
theorem reset_tidy : State.reset.part.tidy := ⟨rfl, rfl, by decide, by decide⟩

theorem reset_doorsFit : State.reset.part.doorsFit := by
  refine ⟨fun d => ?_, by simp [State.reset, Part.poweredOn, StoredCopies.blank, Copies.blank],
    by simp [State.reset, Part.poweredOn, StoredCopies.blank, Copies.blank], by simp [State.reset, Part.poweredOn]⟩
  have fresh : State.reset.part.door d = .fresh := by cases d <;> rfl
  rw [fresh]
  exact ⟨nofun, fun _ => nofun⟩

theorem reset_crashSafe : State.reset.part.crashSafe := ⟨nofun, nofun⟩

theorem reset_grantsFit : State.reset.part.grantsFit :=
  ⟨fun c h => absurd (by cases c <;> rfl) h, nofun, nofun⟩

theorem reset_candidatesFit : State.reset.part.candidatesFit := fun f k h => by
  have none_ : (State.reset.part.fob f).candidate = none := by cases f <;> rfl
  rw [none_] at h
  cases h

theorem reset_entriesFit : State.reset.part.entriesFit := fun c =>
  Part.dormant_fits (by simp [Part.dormant, State.reset, Part.poweredOn]) fun h => absurd (by cases c <;> rfl) h

/-- Settles O3: the values by computing the reset state, one record at a time. -/
theorem resetStateIsThatOfTheRules : Obligations.ResetStateIsThatOfTheRules := by
  unfold Obligations.ResetStateIsThatOfTheRules
  refine ⟨rfl, rfl, rfl, rfl, rfl, rfl, rfl, rfl, rfl, rfl, rfl, rfl, rfl, rfl, rfl, rfl, rfl, rfl, rfl, rfl, rfl, rfl, rfl,
    fun d => ?doors, fun c => ?windows, fun f => ?fobs, fun i => ?inputs, fun k => ?heads, reset_tidy, reset_doorsFit,
    reset_crashSafe, Nat.zero_le _, reset_grantsFit, ⟨Nat.zero_le _, List.Pairwise.nil⟩, List.nodup_nil,
    reset_candidatesFit, reset_entriesFit⟩
  case doors => cases d <;> exact ⟨rfl, rfl, rfl⟩
  case windows => cases c <;> exact ⟨rfl, rfl, rfl, rfl, rfl, rfl, rfl, rfl, rfl⟩
  case fobs => cases f <;> exact ⟨rfl, rfl, rfl, rfl, rfl⟩
  case inputs => simp [State.reset, Part.poweredOn, Part.input, InputRec.fresh]
  case heads => simp [State.reset, Part.poweredOn, Part.head]

end Sys2Proof.Machine
end

section
/-! The empty queue: which event is due, and the millisecond that passes where none is. -/

namespace Sys2Proof.Machine

/-! ### Each guard of `nextDue` against `isDue` -/

set_option Elab.async false in -- the declarations above are finished first: this bounds the memory of the one text
theorem whenDue_some {b : Bool} {c x : Instr} : whenDue b c = some x ↔ b = true ∧ c = x := by
  cases b <;> simp [whenDue]

theorem whenDue_none {b : Bool} {c : Instr} : whenDue b c = none ↔ b = false := by cases b <;> simp [whenDue]

theorem Input.mem_all (i : Input) : i ∈ Input.all := by
  cases i with
  | ajar d => cases d <;> decide
  | outer c => cases c <;> decide
  | inner c => cases c <;> decide
  | touch c => cases c <;> decide
  | lockTouch f => cases f <;> decide
  | switch sw => cases sw with
    | master c => cases c <;> decide
    | door c => cases c <;> decide
  | tailgate | rocker | childButton | lockoutButton | ign | crash => decide

theorem Door.mem_all (d : Door) : d ∈ Door.all := by cases d <;> decide
theorem Corner.mem_all (c : Corner) : c ∈ Corner.all := by cases c <;> decide
theorem Fob.mem_all (f : Fob) : f ∈ Fob.all := by cases f <;> decide

theorem due_map {α : Type} (o : Option α) (f : α → Nat) (t : Nat) : due (o.map f) t = true ↔ ∃ x, o = some x ∧ f x ≤ t := by
  cases o <;> simp [due]

theorem Part.settledLevel_raw {p : Part} {i : Input} {l : Level} (h : p.settledLevel i l = true) : (p.input i).raw = l := by
  simp only [Part.settledLevel, Bool.and_eq_true, decide_eq_true_eq] at h
  exact h.1.1

/-- The command of an input and a level is due exactly when that level is settled. -/
theorem Part.isDue_inputCommand {p : Part} {i : Input} {l : Level} {c : Instr} (h : inputCommand i l = some c) :
    p.isDue c ↔ p.settledLevel i l = true := by
  cases i <;> cases l <;> cases h <;> exact Iff.rfl

/-- A settled level of an input makes its event due. -/
theorem Part.dueInput_of_settled {p : Part} {i : Input} {l : Level} {c : Instr} (h : inputCommand i l = some c)
    (hs : p.settledLevel i l = true) : p.dueInput i ≠ none := by
  simp [Part.dueInput, Part.settledLevel_raw hs, hs, h]

theorem Part.dueInput_isDue {p : Part} {i : Input} {c : Instr} (h : p.dueInput i = some c) : p.isDue c := by
  simp only [Part.dueInput, Option.or_eq_some_iff, whenDue_some, Bool.and_eq_true, Bool.not_eq_true'] at h
  rcases h with h | ⟨-, stuck, rfl⟩
  · split at h
    · rename_i settled
      exact (Part.isDue_inputCommand h).2 settled
    · cases h
  · exact stuck

theorem Part.dueLatch_isDue {p : Part} {d : Door} {c : Instr} (h : p.dueLatch d = some c) : p.isDue c := by
  unfold Part.dueLatch at h
  split at h
  · cases h
  · rename_i op hop
    split at h
    · rename_i hs
      obtain ⟨timer, rfl⟩ := whenDue_some.1 h
      exact ⟨op, hop, hs, timer⟩
    · rename_i hs
      obtain ⟨timer, rfl⟩ := whenDue_some.1 h
      exact ⟨op, hop, hs, timer⟩
    · cases h
    · cases h

theorem Part.dueWindow_isDue {p : Part} {w : Corner} {c : Instr} (h : p.dueWindow w = some c) : p.isDue c := by
  obtain ⟨x, mem, hx⟩ := List.exists_of_findSome?_eq_some h
  obtain rfl : x = some c := hx
  simp only [List.mem_cons, List.not_mem_nil, or_false, eq_comm (a := some c), whenDue_some] at mem
  rcases mem with ⟨t, rfl⟩ | ⟨t, rfl⟩ | ⟨t, rfl⟩ | ⟨t, rfl⟩ | ⟨t, rfl⟩ | ⟨t, rfl⟩ | ⟨t, rfl⟩
  · exact (due_map _ _ _).1 t
  · exact (due_map _ _ _).1 t
  · simp only [Bool.and_eq_true, WindowRec.driven, decide_eq_true_eq] at t
    exact ⟨t.2, t.1⟩
  · exact (due_map _ _ _).1 t
  · exact t
  · simpa [Part.isDue] using t
  · simpa [Part.isDue] using t

theorem Part.dueSearch_isDue {p : Part} {c : Instr} (h : p.dueSearch = some c) : p.isDue c := by
  unfold Part.dueSearch at h
  split at h
  · cases h
  · rename_i f hf
    obtain ⟨t, e⟩ := whenDue_some.1 h
    have t := of_decide_eq_true t
    split at e
    · rename_i a ha
      subst e
      exact ⟨f, a, hf, ha, t⟩
    · rename_i ha
      subst e
      exact ⟨f, hf, ha, t⟩
    · rename_i i hi ha
      subst e
      exact ⟨f, i, hf, ha, hi, t⟩

theorem Part.nextDue_isDue {p : Part} {c : Instr} (h : p.nextDue = some c) : p.isDue c := by
  obtain ⟨x, mem, hx⟩ := List.exists_of_findSome?_eq_some h
  obtain rfl : x = some c := hx
  simp only [List.mem_cons, List.not_mem_nil, or_false, eq_comm (a := some c), whenDue_some] at mem
  rcases mem with ⟨t, rfl⟩ | ⟨t, rfl⟩ | t | ⟨t, rfl⟩ | t | t | t | t | t | ⟨t, rfl⟩ | ⟨t, rfl⟩ | ⟨t, rfl⟩
  · simpa [Part.isDue, Option.any_eq_true] using t
  · simpa [Part.isDue, Option.any_eq_true, Assertion.due] using t
  · obtain ⟨i, -, hi⟩ := List.exists_of_findSome?_eq_some t
    exact Part.dueInput_isDue hi
  · simpa [Part.isDue, and_assoc] using t
  · obtain ⟨w, hw, rfl⟩ := Option.map_eq_some_iff.1 t
    have limit := List.find?_some hw
    exact ⟨w, List.mem_of_find?_eq_some hw, rfl, by simpa using limit⟩
  · obtain ⟨d, -, hd⟩ := List.exists_of_findSome?_eq_some t
    exact Part.dueLatch_isDue hd
  · obtain ⟨w, -, hw⟩ := List.exists_of_findSome?_eq_some t
    exact Part.dueWindow_isDue hw
  · exact Part.dueSearch_isDue t
  · obtain ⟨f, hf, rfl⟩ := Option.map_eq_some_iff.1 t
    simpa [Part.isDue, FobRec.holdDue, Option.any_eq_true] using List.find?_some hf
  · exact (due_map _ _ _).1 t
  · simpa [Part.isDue, Part.inService] using t
  · exact (due_map _ _ _).1 t

/-! ### Where nothing is due -/

/-- Every guard of `nextDue` is off. -/
theorem Part.nextDue_none {p : Part} (h : p.nextDue = none) (c : Instr) : ¬ p.isDue c := by
  simp only [Part.nextDue, List.findSome?_eq_none_iff, List.mem_cons, List.not_mem_nil, or_false, forall_eq_or_imp, forall_eq,
    id_eq, whenDue_none, Option.map_eq_none_iff] at h
  obtain ⟨woke, crash, inputs, relock, waits, latches, windows, search, holds, commit, dwell, listen⟩ := h
  have input (i : Input) : p.dueInput i = none := inputs i (Input.mem_all i)
  have settled {i : Input} {l : Level} {x : Instr} (hc : inputCommand i l = some x) : ¬ p.settledLevel i l = true :=
    fun hs => Part.dueInput_of_settled hc hs (input i)
  have window (w : Corner) := windows w (Corner.mem_all w)
  simp only [Part.dueWindow, List.findSome?_eq_none_iff, List.mem_cons, List.not_mem_nil, or_false, forall_eq_or_imp, forall_eq,
    id_eq, whenDue_none] at window
  have latch (d : Door) := latches d (Door.mem_all d)
  cases c
  case ajarChange d a => exact settled (i := .ajar d) (by cases a <;> rfl)
  case outerPull w b => exact settled (i := .outer w) (by cases b <;> rfl)
  case tailgateButton b => exact settled (i := .tailgate) (by cases b <;> rfl)
  case innerHandlePull w b => exact settled (i := .inner w) (by cases b <;> rfl)
  case outerTouch w b => exact settled (i := .touch w) (by cases b <;> rfl)
  case lockTouch f b => exact settled (i := .lockTouch f) (by cases b <;> rfl)
  case windowSwitchChange sw st => exact settled (i := .switch sw) (by cases st <;> rfl)
  case lockRocker r => exact settled (i := .rocker) (by cases r <;> rfl)
  case childLockButton b => exact settled (i := .childButton) (by cases b <;> rfl)
  case lockoutButton b => exact settled (i := .lockoutButton) (by cases b <;> rfl)
  case ignChange b => exact settled (i := .ign) (by cases b <;> rfl)
  case woke => simpa [Part.isDue, Option.any_eq_false] using woke
  case crashEvent => simpa [Part.isDue, Option.any_eq_false, Assertion.due] using crash
  case inputStuck i =>
    have h := input i
    simp only [Part.dueInput, Option.or_eq_none_iff, whenDue_none] at h
    simpa [Part.isDue] using h.2
  case relockExpiry => simpa [Part.isDue] using relock
  case waitLimitExpiry a =>
    rintro ⟨w, mem, rfl, limit⟩
    exact absurd (List.find?_eq_none.1 waits w mem) (by simpa using limit)
  case latchPulseExpiry d =>
    rintro ⟨op, hop, hs, timer⟩
    simpa [Part.dueLatch, hop, hs, whenDue, timer] using latch d
  case confirmExpiry d =>
    rintro ⟨op, hop, hs, timer⟩
    simpa [Part.dueLatch, hop, hs, whenDue, timer] using latch d
  case coastEnd w =>
    obtain ⟨coast, -⟩ := window w
    exact mt (due_map _ _ _).2 (by simp [coast])
  case softStartEnd w =>
    obtain ⟨-, ramp, -⟩ := window w
    exact mt (due_map _ _ _).2 (by simp [ramp])
  case stallExpiry w =>
    obtain ⟨-, -, stall, -⟩ := window w
    rintro ⟨moves, timer⟩
    simp [WindowRec.driven, moves, timer] at stall
  case rereferenceWatchExpiry w =>
    obtain ⟨-, -, -, watch, -⟩ := window w
    exact mt (due_map _ _ _).2 (by simp [watch])
  case forceArmedExpiry w =>
    obtain ⟨-, -, -, -, force, -⟩ := window w
    simp [Part.isDue, force]
  case heatRise w =>
    obtain ⟨-, -, -, -, -, rise, -⟩ := window w
    simpa [Part.isDue] using rise
  case heatFall w =>
    obtain ⟨-, -, -, -, -, -, fall⟩ := window w
    simpa [Part.isDue] using fall
  case antennaTransmissionEnd =>
    rintro ⟨f, a, hf, ha, t⟩
    simp [Part.dueSearch, hf, ha, whenDue, t] at search
  case replySlotEnd =>
    rintro ⟨f, i, hf, hi, ne, t⟩
    cases i <;> simp_all [Part.dueSearch, whenDue]
  case searchCompletion =>
    rintro ⟨f, hf, hi, t⟩
    simp [Part.dueSearch, hf, hi, whenDue, t] at search
  case holdTrackerExpiry f =>
    have h := List.find?_eq_none.1 holds f (Fob.mem_all f)
    simpa [Part.isDue, FobRec.holdDue, Option.any_eq_true] using h
  case commitEnd => exact mt (due_map _ _ _).2 (by simp [commit])
  case dozeDwellExpiry => simpa [Part.isDue, Part.inService] using dwell
  case listenWindow => exact mt (due_map _ _ _).2 (by simp [listen])
  all_goals exact id

/-! ### One millisecond -/

theorem WindowRec.passMs_eq (w : WindowRec) : w.passMs =
    if w.motion = .stopped then { w with idle := w.idle + 1 } else { w with energised := w.energised + 1 } := by
  unfold WindowRec.passMs WindowRec.driven
  by_cases h : w.motion = .stopped <;> simp [h]

theorem Part.passMs_window (p : Part) (c : Corner) : p.passMs.window c = (p.window c).passMs := PerCorner.get_build _ c

theorem step_idle {s : State} (h : s.pending = []) : step s = idle s := by
  unfold step
  rw [h]

/-- Settles O2: the guards of `nextDue` are those of `isDue`, and where all are off `idle` passes a millisecond. -/
theorem emptyQueueRunsDueEventOrMillisecond : Obligations.EmptyQueueRunsDueEventOrMillisecond := by
  unfold Obligations.EmptyQueueRunsDueEventOrMillisecond
  intro s empty
  rw [step_idle empty]
  refine ⟨fun c h => ⟨Part.nextDue_isDue h, by rw [idle, h]⟩, fun h => ⟨Part.nextDue_none h,
    { s with part := s.part.passMs }, by rw [idle, h], empty, rfl, fun c => ?_⟩⟩
  rw [Part.passMs_window, WindowRec.passMs_eq]

end Sys2Proof.Machine
end

section
/-! Bursts in DOZE: each requests the wake, is served at once, and leaves the part in DOZE (R187, R203). -/

namespace Sys2Proof.Machine

set_option Elab.async false in -- the declarations above are finished first: this bounds the memory of the one text
/-- The command that posts an order is its burst. -/
theorem exec_order {c : Instr} {h : OrderHead} {k : OrderKind} {ws : List HostWord} (ho : orderPosted c = some (h, k, ws))
    (s : State) : exec c s = s.run (·.postOrder h k ws) := by
  cases c <;> cases ho <;> rfl

/-- The wake a burst requests where none is under way. -/
abbrev Waking.requested (c : WakeCause) (now : Nat) : Waking := ⟨c, now, [], false, false⟩

theorem Part.requestWake_none {p : Part} (h : p.waking = none) (c : WakeCause) :
    p.requestWake c = { p with waking := some (.requested c p.clock) } := by
  unfold Part.requestWake
  rw [h]

theorem Part.burstTaken_doze {p : Part} (hs : p.state = .doze) (hw : p.waking = none) (c : WakeCause) :
    p.burstTaken c = { p with waking := some (.requested c p.clock) } := by
  rw [Part.burstTaken, if_pos hs, Part.requestWake_none hw]

/-! ### The words and heads of a burst in DOZE -/

/-- What the words and heads of a burst can change where no write to START acts and no order is taken. -/
abbrev stillAreas : List Area := .reports :: .misuse :: .portRest :: .page :: calmAreas

theorem Part.hostWrite_still {p : Part} (h : p.state ≠ .held) (i : Nat) (w : HostWord) :
    Part.Does stillAreas p (p.hostWrite i w) := by
  have misuse : Part.Does stillAreas p p.setMisuse := .mono p.setMisuse_does
  have start : p.startWrite = p := if_neg h
  unfold Part.hostWrite
  refine .ite (fun _ => misuse) fun _ => .ite (fun _ => .mono (p.scrollWrite_does _)) fun _ =>
    .ite (fun _ => .mono (p.portRest_does _ _ w.value _)) fun _ => .ite (fun _ => .mono (p.vehicleWordWrite_does _)) fun _ =>
    .ite (fun _ => ?_) fun _ => .ite (fun _ => .refl _ p) fun _ =>
    .ite (fun _ => .mono (p.storeHost_does i w (by omega))) fun _ => .ite (fun _ => .ite (fun _ => .refl _ p) fun _ =>
      .ite (fun _ => .mono (p.storeHost_does i w (by omega))) fun _ => misuse) fun _ => .ite (fun _ => misuse) fun _ =>
    .ite (fun _ => .refl _ p) fun _ => .mono (p.storeHost_does i w (by omega))
  rw [start, ite_self]
  exact .refl _ p

theorem Part.post_still {p : Part} (h : p.state = .doze) (k : Slot) (w : HostWord) : Part.Does stillAreas p (p.post k w) := by
  have marked {x : Head} (hn : x.ended = false) (b : Byte) : Part.Does stillAreas p { p.setHead k x with port := { p.port with
      parity := Memory.writeByte p.port.parity (slotWord k 0) b } } :=
    .after (Part.parity_does (p.setHead k x) fun h => Memory.wf_writeByte h _ _) (.mono (p.setHead_does k hn))
  unfold Part.post
  dsimp only
  rw [if_neg (by simp [Part.takesAtOnce, h])]
  exact marked rfl _

theorem Part.headWrite_still {p : Part} (h : p.state = .doze) (k : Slot) (w : HostWord) :
    Part.Does stillAreas p (p.headWrite k w) := by
  unfold Part.headWrite
  dsimp only
  split
  · exact Part.post_still h k w
  · exact .after (Part.cancelOrder_does _ _) (.mono (p.setHead_does _ rfl))
  · exact .mono (p.setHead_does _ rfl)
  · exact .mono (p.setHead_does _ rfl)
  · exact .ite (fun _ => .mono (p.setHead_does _ rfl)) fun _ => .mono p.setMisuse_does
  · exact .mono p.setMisuse_does

theorem Part.burstHead_still {p : Part} (h : p.state = .doze) (x : Nat × HostWord) : Part.Does stillAreas p (p.burstHead x) :=
  .ite (fun _ => settle_does (f := (·.headWrite _ x.2)) (Part.headWrite_still h _ _)) fun _ => .refl _ p

/-- Steps that each leave the part still while it dozes, one after the other. -/
theorem foldl_still {α : Type} {f : Part → α → Part} (hf : ∀ (q : Part) x, q.state = .doze → Part.Does stillAreas q (f q x)) :
    ∀ (l : List α) {p : Part}, p.state = .doze → Part.Does stillAreas p (l.foldl f p)
  | [], p, _ => .refl _ p
  | x :: l, p, h =>
    have first := hf p x h
    first.andThen (foldl_still hf l ((first.state (by decide)).trans h)) (List.Subset.refl _)

theorem Part.takeWords_still {p : Part} (h : p.state = .doze) (l : List (Nat × HostWord)) :
    Part.Does stillAreas p (p.takeWords l) := by
  have words : Part.Does stillAreas p (l.foldl (fun q x => settle (·.hostWrite x.1 x.2) q) p) :=
    foldl_still (fun q x hq => settle_does (f := (·.hostWrite x.1 x.2)) (Part.hostWrite_still (by rw [hq]; nofun) _ _)) l h
  exact .ite (fun _ => words.andThen (foldl_still (fun q x hq => Part.burstHead_still hq x) l
    ((words.state (by decide)).trans h)) (List.Subset.refl _)) fun _ => .refl _ p

/-- A write burst in DOZE leaves the part dozing with the wake requested. -/
theorem Part.memoryWrite_doze {p : Part} (hs : p.state = .doze) (hw : p.waking = none) (start : BitVec 10)
    (ws : List HostWord) :
    (p.memoryWrite start ws).state = .doze ∧ (p.memoryWrite start ws).waking = some (.requested .link p.clock) := by
  have taken := Part.burstTaken_doze hs hw .link
  have dozes : (p.burstTaken .link).state = .doze := by rw [taken]; exact hs
  have wrote : Part.Does stillAreas (p.burstTaken .link) (p.memoryWrite start ws) :=
    (Part.takeWords_still dozes _).andThen (Part.portRest_does _ _ _ _ _)
  exact ⟨(wrote.state (by decide)).trans dozes, (wrote.waking (by decide)).trans (by rw [taken])⟩

/-- A command's answer is its meaning on the part. -/
theorem exec_part {c : Instr} {s : State} {f : Part → Part} {q : Part} (h : exec c s = s.run f) (e : f s.part = q) :
    exec c s = .next { s with part := q } := by
  rw [h, ← e]
  rfl

/-- Settles O6: a burst in DOZE is its wake request (`burstTaken_doze`), and what it serves keeps the part still. -/
theorem burstsWakeTheDozingPart : Obligations.BurstsWakeTheDozingPart := by
  unfold Obligations.BurstsWakeTheDozingPart
  intro s hs hw link woken
  have taken {p : Part} (h : p.state = .doze) (k : p.waking = none) (c : WakeCause) := Part.burstTaken_doze h k c
  have wrote (start : BitVec 10) (ws : List HostWord) : woken (s.part.memoryWrite start ws) :=
    Part.memoryWrite_doze hs hw start ws
  refine ⟨?_, fun start count => ?_, ?_, ?_, fun v hv => ?_, fun v => ?_, fun k => ?_,
    fun start ws => (completes_run (f := (·.memoryWrite start ws)) rfl).2 (wrote _ _),
    fun ws => (completes_run (f := fun p => p.memoryWrite p.port.pointer ws) rfl).2 (wrote _ _),
    fun c h k ws ho => (completes_run (exec_order ho s)).2 (wrote _ _), ?_⟩
  · refine exec_part (f := (·.registerWrite .control 2)) rfl ?_
    simp [Part.registerWrite, taken hs hw, bitAt]
  · refine exec_part (f := fun p => (p.send (p.readBurst start.toNat count)).burstTaken .link) rfl ?_
    rw [taken (by exact hs) (by exact hw)]
    rfl
  · refine exec_part (f := fun p => (p.registerRead .status).burstTaken .link) rfl ?_
    rw [taken (by exact hs) (by exact hw)]
    rfl
  · refine exec_part (f := fun p => (p.registerRead .control).burstTaken .link) rfl ?_
    rw [taken (by exact hs) (by exact hw)]
    rfl
  · refine exec_part (f := (·.registerWrite .control v)) rfl ?_
    cases hb : v.getLsbD 1 <;>
      simp only [Part.registerWrite, taken hs hw, bitAt, hv, hb, Bool.false_eq_true, if_false, if_true, link]
  · refine exec_part (f := (·.registerWrite .status v)) rfl ?_
    rw [Part.registerWrite, taken (by exact hs) (by exact hw)]
    rfl
  · refine exec_part (f := fun p => p.setMisuse.burstTaken .link) rfl ?_
    rw [taken (by exact hs) (by exact hw)]
    rfl
  · refine (completes_run (f := (·.registerWrite .control 1)) rfl).2 ?_
    simp [Part.registerWrite, taken hs hw, bitAt, Part.portResetWrite, hs, Part.requestWake]

end Sys2Proof.Machine
end

section
/-! The bursts of the link outside DOZE (R182 to R187): the command a header picks, the words a read sends, where a write
burst's words go and what pointer it leaves. -/

namespace Sys2Proof.Machine

/-! ### What a burst's header picks, and registers -/

set_option Elab.async false in -- the declarations above are finished first: this bounds the memory of the one text
/-- Outside DOZE a burst restarts the doze dwell in SERVICE and changes nothing else. -/
theorem Part.burstTaken_awake {p : Part} (h : p.state ≠ .doze) (c : WakeCause) :
    p.burstTaken c = { p with dwell := if p.state = .service then some (p.clock + p.cfg.dozeDwell) else p.dwell } := by
  rw [Part.burstTaken, if_neg h, Part.activity]
  by_cases hs : p.state = .service
  · rw [if_pos (show p.inService = true from decide_eq_true hs), if_pos hs]
    rfl
  · rw [if_neg (by simpa [Part.inService] using hs), if_neg hs]

/-- Settles O9: a header's command by its kind; a register burst is its own change, then `burstTaken_awake`. -/
theorem registerBurstsActAsTheirHeadersSay : Obligations.RegisterBurstsActAsTheirHeadersSay := by
  unfold Obligations.RegisterBurstsActAsTheirHeadersSay
  refine ⟨fun header count words => ?_, fun s hs => ?_⟩
  · have picks {n : Nat} (h : (headerKind header).toNat = n) := h
    simp only [burstCommand]
    refine ⟨fun h => ?_, fun h => ?_, fun h => ?_, fun h => ?_, fun w rest h hw => ?_, fun h hw => ?_, fun h => ?_⟩
    · rw [picks h]; rfl
    · rw [picks h]; rfl
    · rw [picks h]; rfl
    · rw [picks h]; rfl
    · rw [picks h, hw]; rfl
    · rw [picks h, hw]; rfl
    · rcases h with h | h | h <;> (rw [picks h]; rfl)
  · have taken {p : Part} (h : p.state ≠ .doze) (c : WakeCause) := Part.burstTaken_awake h c
    refine ⟨fun v => ?_, fun k => ?_, fun v hv => ?_, ?_, ?_, ?_⟩
    · refine exec_part (f := (·.registerWrite .status v)) rfl ?_
      rw [Part.registerWrite, taken (by exact hs)]
      rfl
    · refine exec_part (f := fun p => p.setMisuse.burstTaken .link) rfl ?_
      rw [taken (by exact hs)]
      rfl
    · refine exec_part (f := (·.registerWrite .control v)) rfl ?_
      simp only [Part.registerWrite, bitAt, hv, Bool.false_eq_true, if_false, taken hs]
    · exact exec_part (f := (·.registerWrite .control 2)) rfl (taken hs .wakeWrite)
    · refine exec_part (f := fun p => (p.registerRead .status).burstTaken .link) rfl ?_
      rw [taken (by exact hs)]
      rfl
    · refine exec_part (f := fun p => (p.registerRead .control).burstTaken .link) rfl ?_
      rw [taken (by exact hs)]
      rfl

/-! ### MEMORY READ -/

theorem Part.readBurst_get (p : Part) (start count k : Nat) (h : k < count) :
    (p.readBurst start count)[k]? = some (if p.port.served then p.burstWord start k else 0) := by
  simp [Part.readBurst, h]

/-- Word `k` of a read, by the end of each area (R182). -/
theorem Part.burstWord_cases (p : Part) {start : Nat} (hs : start < 1024) (k : Nat) : p.burstWord start k =
    if 480 ≤ start ∧ start < 992 then p.hostRead (480 + (start - 480 + k) % 512)
    else if (start < 256 ∧ 256 ≤ start + k) ∨ (start < 272 ∧ 272 ≤ start + k) ∨ (start < 352 ∧ 352 ≤ start + k) ∨
      (start < 480 ∧ 480 ≤ start + k) ∨ 1024 ≤ start + k then 0
    else p.hostRead (start + k) := by
  have inArea : start + k < areaEnd start ∨ (480 ≤ start ∧ start < 992) ↔
      ¬ ((start < 256 ∧ 256 ≤ start + k) ∨ (start < 272 ∧ 272 ≤ start + k) ∨ (start < 352 ∧ 352 ≤ start + k) ∨
        (start < 480 ∧ 480 ≤ start + k) ∨ 1024 ≤ start + k) ∨ (480 ≤ start ∧ start < 992) := by
    unfold areaEnd
    split_ifs <;> omega
  unfold Part.burstWord
  split_ifs with h1 h2 h3 h3
  · rfl
  · exact absurd h3 ((inArea.1 (.inl h2)).resolve_right h1)
  · rfl
  · rfl
  · exact absurd ((inArea.2 (.inl h3)).resolve_right h1) h2

/-- Settles O10: the words of `readBurst`, each by `burstWord_cases`. -/
theorem memoryReadStaysInItsArea : Obligations.MemoryReadStaysInItsArea := by
  unfold Obligations.MemoryReadStaysInItsArea
  intro s start count hs
  refine ⟨s.part.readBurst start.toNat count, by simp [Part.readBurst], ?_, fun k hk => ?_⟩
  · refine exec_part (f := fun p => (p.send (p.readBurst start.toNat count)).burstTaken .link) rfl ?_
    rw [Part.burstTaken_awake (by exact hs)]
    rfl
  · rw [Part.readBurst_get _ _ _ _ hk, Part.burstWord_cases _ (by omega)]
    cases s.part.port.served <;> rfl

end Sys2Proof.Machine
end

section
/-! The pointer a write burst leaves, and what the burst stores (R183, R184). -/

namespace Sys2Proof.Machine

/-! ### The write-continue pointer -/

/-- What a port reset changes once the port's memory, the heads and the scroll are cleared. -/
abbrev resetBlockAreas : List Area :=
  [.check, .state, .dwell, .waking, .listen, .doors, .latches, .windows, .monitors, .holders, .waiting, .locator, .fobs, .begun,
    .operation, .memory, .rows, .scroll, .store]

set_option Elab.async false in -- the declarations above are finished first: this bounds the memory of the one text
theorem Part.portReset_blocks (p : Part) : Part.Within resetBlockAreas p.portResetMemory p.portReset := by
  have windows := p.portResetMemory.portResetWindows_acts.toWithin
  have hs := p.portResetMemory.eachCorner_portReset
  have blocks : Part.Within resetBlockAreas p.portResetMemory p.portResetBlocks := by
    unfold Part.portResetBlocks
    dsimp only
    generalize p.portResetMemory.eachCorner Part.windowPortReset = q at windows hs ⊢
    have dropped := windows.trans (q.dropWindows_does hs).toWithin (M := resetBlockAreas) (by decide) (by decide)
    have fobs := (q.dropWindows.eachFob_does Part.resetTracker_does).toWithin
    have searches := (q.dropWindows.eachFob Part.resetTracker).discardSearches_does.toWithin
    have orders := (q.dropWindows.eachFob Part.resetTracker).discardSearches.forgetOrders_does.toWithin
    have start := (q.dropWindows.eachFob Part.resetTracker).discardSearches.forgetOrders.restart_does.toWithin
    exact dropped.trans (fobs.trans (searches.trans (orders.trans start (M := resetBlockAreas) (by decide) (by decide))
      (M := resetBlockAreas) (by decide) (by decide)) (M := resetBlockAreas) (by decide) (by decide)) (by decide) (by decide)
  unfold Part.portReset settle
  dsimp only
  split
  · exact blocks
  · exact blocks.trans p.portResetBlocks.grantFromHead_does.toWithin (by decide) (by decide)

theorem Part.portReset_pointer (p : Part) : p.portReset.port.pointer = 256 :=
  p.portReset_blocks.pointer (by decide)

/-- The words beyond the end of the area a burst starts in are none of the burst's words (R182). -/
theorem burstWords_take (start : Nat) (ws : List HostWord) :
    burstWords start (ws.take (areaEnd start - start)) = burstWords start ws := by
  have beyond : ((ws.drop (areaEnd start - start)).mapIdx fun k w =>
      (start + (k + (ws.take (areaEnd start - start)).length), w)).filter (fun x => decide (x.1 < areaEnd start)) = [] := by
    refine List.filter_eq_nil_iff.2 fun x hx => ?_
    obtain ⟨k, hk, rfl⟩ := List.mem_mapIdx.1 hx
    simp only [List.length_drop, List.length_take, decide_eq_true_eq] at hk ⊢
    omega
  unfold burstWords
  conv_rhs => rw [← List.take_append_drop (areaEnd start - start) ws, List.mapIdx_append, List.filter_append, beyond, List.append_nil]

/-- Only the pointer of a burst depends on the words beyond the area it starts in. -/
theorem Part.memoryWrite_take (p : Part) (start : BitVec 10) (ws : List HostWord) :
    p.memoryWrite start ws =
      let q := p.memoryWrite start (ws.take (areaEnd start.toNat - start.toNat))
      { q with port := { q.port with pointer := (p.memoryWrite start ws).port.pointer } } := by
  simp only [Part.memoryWrite, Part.writeBurst, burstWords_take]

theorem Part.memoryWrite_pointer (p : Part) (start : BitVec 10) (ws : List HostWord) :
    (p.memoryWrite start ws).port.pointer = BitVec.ofNat 10 ((start.toNat + ws.length) % 1024) := by
  refine BitVec.eq_of_toNat_eq ?_
  simp [Part.memoryWrite, Part.writeBurst]

/-- A wake that held a port reset ends with it. -/
theorem Part.wake_resetHeld {p : Part} {w : Waking} (hs : p.state = .doze) (hw : p.waking = some w) (hr : w.resetHeld = true) :
    ∃ q : Part, p.wake = q.portReset := by
  unfold Part.wake
  simp only [hs, hw, hr, if_true]
  exact ⟨_, rfl⟩

/-- Where a PORT RESET write acts at once. -/
theorem Part.portResetWrite_acts {p : Part}
    (h : p.state = .held ∨ p.state = .service ∨ (p.inSafeHold = true ∧ p.port.served = true)) :
    p.portResetWrite = p.portReset := by
  unfold Part.portResetWrite
  rcases h with h | h | ⟨h, served⟩
  · rw [h]
  · rw [h]
  · cases hs : p.state <;> simp_all [Part.inSafeHold]

/-- Settles O11: each burst's pointer, and the resets' (`portReset_pointer`). -/
theorem writeContinuePointerFollowsWrites : Obligations.WriteContinuePointerFollowsWrites := by
  unfold Obligations.WriteContinuePointerFollowsWrites
  intro s pointer
  have taken (p : Part) (c : WakeCause) : (p.burstTaken c).port.pointer = p.port.pointer := (p.burstTaken_does c).pointer (by decide)
  have reset : s.part.state = .held ∨ s.part.state = .service ∨ (s.part.inSafeHold = true ∧ s.part.port.served = true) →
      (s.part.registerWrite .control 1).port.pointer = 256 := fun h => by
    have b := s.part.burstTaken_does .link
    have acts : (s.part.burstTaken .link).portResetWrite = (s.part.burstTaken .link).portReset :=
      Part.portResetWrite_acts (by
        rw [Part.inSafeHold, b.state (by decide), b.served (by decide)]
        exact h)
    exact (congrArg (fun q : Part => q.port.pointer) acts).trans (Part.portReset_pointer _)
  refine ⟨fun start words => (completes_run (f := (·.memoryWrite start words)) rfl).2 (s.part.memoryWrite_pointer _ _),
    fun words => (completes_run (f := fun p => p.memoryWrite p.port.pointer words) rfl).2 (s.part.memoryWrite_pointer _ _),
    fun _ => rfl, fun words => ⟨{ s with part := s.part.memoryWrite pointer words },
      { s with part := s.part.memoryWrite pointer (words.take (areaEnd pointer.toNat - pointer.toNat)) }, rfl, rfl, rfl, ?_⟩,
    fun start count => (completes_run (f := fun p => (p.send (p.readBurst start.toNat count)).burstTaken .link) rfl).2 (taken _ _),
    fun r => ?_, fun r v h => ?_, fun strap => (completes_run (f := (·.powerOn strap)) rfl).2 rfl,
    fun h => (completes_run (f := (·.registerWrite .control 1)) rfl).2 (reset h), fun w hs hw hr => ?_⟩
  · exact s.part.memoryWrite_take _ _
  · refine (completes_run (f := fun p => (p.registerRead r).burstTaken .link) rfl).2 ((taken _ _).trans ?_)
    cases r <;> rfl
  · refine (completes_run (f := (·.registerWrite r v)) rfl).2 ?_
    cases r
    · exact taken _ _
    · have hv : v.getLsbD 0 = false := h.resolve_left nofun
      simp only [Part.registerWrite, bitAt, hv, Bool.false_eq_true, if_false]
      exact taken _ _
  · obtain ⟨q, e⟩ := Part.wake_resetHeld hs hw hr
    refine (completes_run (f := (·.wake)) rfl).2 ?_
    rw [e]
    exact q.portReset_pointer

end Sys2Proof.Machine
end

section
/-! A write burst of one word that is no head: the word judged by its area (R184, R186, R188). -/

namespace Sys2Proof.Machine

set_option Elab.async false in -- the declarations above are finished first: this bounds the memory of the one text
theorem burstWords_one {start : Nat} (h : start < 1024) (w : HostWord) : burstWords start [w] = [(start, w)] := by
  have inArea : start < areaEnd start := by
    unfold areaEnd
    split_ifs <;> omega
  simp [burstWords, inArea]

/-- Of a burst of one word that is no head, the word alone acts. -/
theorem Part.memoryWrite_word {p : Part} (hs : p.port.served = true) (start : BitVec 10) (w : HostWord)
    (hh : ¬ (352 ≤ start.toNat ∧ start.toNat < 480 ∧ (start.toNat - 352) % 8 = 0)) :
    p.memoryWrite start [w] =
      let q := settle (·.hostWrite start.toNat w) (p.burstTaken .link)
      { q with port := { q.port with pointer := BitVec.ofNat 10 (start.toNat + 1) } } := by
  have served : (p.burstTaken .link).port.served = true := ((p.burstTaken_does .link).served (by decide)).trans hs
  unfold Part.memoryWrite Part.writeBurst Part.takeWords
  rw [burstWords_one start.isLt, if_pos served]
  simp only [List.foldl_cons, List.foldl_nil, Part.burstHead, if_neg hh, List.length_singleton]

/-- Such a burst, where the word's own effect `f` leaves the arbiter's lists and the budget. -/
theorem completes_word {s : State} {start : BitVec 10} {w : HostWord} {post : Part → Prop} {K : List Area}
    (hs : s.part.port.served = true) (hh : ¬ (352 ≤ start.toNat ∧ start.toNat < 480 ∧ (start.toNat - 352) % 8 = 0))
    (f : Part → Part) (e : ∀ q : Part, q.heads = s.part.heads → q.state = s.part.state → q.hostWrite start.toNat w = f q)
    (within : ∀ q : Part, Part.Within K q (f q))
    (h : ∀ q : Part, Part.Does [.waking, .dwell] s.part q →
      post { f q with port := { (f q).port with pointer := BitVec.ofNat 10 (start.toNat + 1) } })
    (h1 : .holders ∉ K := by decide) (h2 : .waiting ∉ K := by decide) (h3 : .supply ∉ K := by decide) (h4 : .cfg ∉ K := by decide) :
    Completes (.memoryWrite start [w]) s post := by
  refine (completes_run (f := (·.memoryWrite start [w])) rfl).2 ?_
  have taken := s.part.burstTaken_does .link
  have acts := e _ (taken.heads (by decide)) (taken.state (by decide))
  have alone : settle (·.hostWrite start.toNat w) (s.part.burstTaken .link) = f (s.part.burstTaken .link) :=
    (settle_within (K := K) (by rw [acts]; exact within _) h1 h2 h3 h4).trans acts
  rw [Part.memoryWrite_word hs start w hh, alone]
  exact h _ taken

/-- Which words a write burst stores (R184). -/
theorem Part.hostWrite_stores {p : Part} {i : Nat} (w : HostWord)
    (h : (272 ≤ i ∧ i < 352) ∨ ((352 ≤ i ∧ i < 480 ∧ (i - 352) % 8 ≠ 0) ∧ (p.head (boardSlot i)).state = .free) ∨
      (992 ≤ i ∧ (i - 992) % 8 ≠ 7)) : p.hostWrite i w = p.storeHost i w := by
  rcases h with ⟨h1, h2⟩ | ⟨⟨h1, h2, h3⟩, free⟩ | ⟨h1, h2⟩
  · unfold Part.hostWrite
    iterate 6 rw [if_neg (by omega)]
    exact if_pos h2
  · rw [p.hostWrite_board w h1 h2, if_neg h3, if_pos free]
  · unfold Part.hostWrite
    iterate 10 rw [if_neg (by omega)]

/-- Which words are misuse and nothing else (R184). -/
theorem Part.hostWrite_misuse {p : Part} {i : Nat} {w : HostWord}
    (h : i < 256 ∨ (480 ≤ i ∧ i < 992) ∨ ((352 ≤ i ∧ i < 480 ∧ (i - 352) % 8 ≠ 0) ∧ (p.head (boardSlot i)).state ≠ .free) ∨
      (i = 258 ∧ 2 < w.value.toNat)) : p.hostWrite i w = p.setMisuse := by
  rcases h with h | ⟨h1, h2⟩ | ⟨⟨h1, h2, h3⟩, free⟩ | ⟨rfl, h⟩
  · exact if_pos h
  · unfold Part.hostWrite
    iterate 8 rw [if_neg (by omega)]
    exact if_pos h2
  · rw [p.hostWrite_board w h1 h2, if_neg h3, if_neg free]
  · have none : pickVehicle w.value = .none := by
      simp only [pickVehicle, pick, List.getElem?_eq_none_iff, List.length_cons, List.length_nil]
      omega
    show p.vehicleWordWrite w.value = p.setMisuse
    rw [Part.vehicleWordWrite, none]

/-- Which words are discarded without MISUSE (R184, R188). -/
theorem Part.hostWrite_discards {p : Part} {i : Nat} {w : HostWord}
    (h : (i = 259 ∧ (w.value ≠ 1 ∨ p.state ≠ .held)) ∨ (260 ≤ i ∧ i < 272) ∨ (992 ≤ i ∧ (i - 992) % 8 = 7)) :
    p.hostWrite i w = p := by
  rcases h with ⟨rfl, h⟩ | ⟨h1, h2⟩ | ⟨h1, h2⟩
  · show (if w.value = 1 then p.startWrite else p) = p
    rcases h with h | h
    · exact if_neg h
    · rw [Part.startWrite, if_neg h, ite_self]
  · unfold Part.hostWrite
    iterate 5 rw [if_neg (by omega)]
    exact if_pos h2
  · unfold Part.hostWrite
    iterate 9 rw [if_neg (by omega)]
    exact if_pos h2

/-- A stored word: its value and parity stand, and no other word changes (R186). -/
theorem Part.storeHost_word {p : Part} (t : p.tidy) (i : Nat) (w : HostWord) :
    Memory.readWord (p.storeHost i w).port.memory i = w.value ∧
      (Memory.readByte (p.storeHost i w).port.parity i = 0 ↔ w.sound = true) ∧
      ∀ j, j ≠ i → Memory.readWord (p.storeHost i w).port.memory j = Memory.readWord p.port.memory j ∧
        Memory.readByte (p.storeHost i w).port.parity j = Memory.readByte p.port.parity j := by
  obtain ⟨wfMemory, wfParity, -⟩ := t
  refine ⟨Memory.readWord_writeWord_same wfMemory i w.value, ?_,
    fun j hj => ⟨Memory.readWord_writeWord_ne hj _ _, Memory.readByte_writeByte_ne hj _⟩⟩
  show Memory.readByte (Memory.writeByte p.port.parity i _) i = 0 ↔ _
  rw [Memory.readByte_writeByte_same wfParity]
  cases w.sound <;> decide

/-- Settles O12: the word's area says which of four effects `hostWrite` has; `completes_word` makes it the burst's. -/
theorem writtenWordsAreJudgedByArea : Obligations.WrittenWordsAreJudgedByArea := by
  unfold Obligations.WrittenWordsAreJudgedByArea
  intro s start w hs t i inSlot slotFree unchanged
  have free (q : Part) (h : q.heads = s.part.heads) : (q.head (boardSlot i)).state = .free ↔ slotFree := by
    rw [Part.head, h]
    rfl
  have unmoved {q r : Part} (d : Part.Does [.waking, .dwell] s.part q) (e : Part.Within [.misuse, .portRest] q r)
      (mask : r.port.mask = q.port.mask) (word : r.port.vehicleWord = q.port.vehicleWord) : unchanged r := by
    have k := d.toWithin.trans e (M := [.waking, .dwell, .misuse, .portRest]) (by decide) (by decide)
    have restD := d.mask (by decide)
    exact ⟨k.memory (by decide), k.parity (by decide), mask.trans restD, word.trans (d.vehicleWord (by decide)), k.heads (by decide),
      k.scroll (by decide), k.cfg (by decide), k.state (by decide), k.doors (by decide), k.windows (by decide)⟩
  refine ⟨fun h => ?_, fun h => ?_, fun h => ?_, fun h => ?_⟩
  · refine completes_word (K := [.memory, .page, .board, .enrol, .parity]) hs (by omega) (·.storeHost i w)
      (fun q hq _ => Part.hostWrite_stores w (by rw [free q hq]; exact h)) (fun q => (q.storeHost_does i w (by omega)).toWithin)
      fun q d => ?_
    obtain ⟨value, mark, others⟩ := Part.storeHost_word (d.tidyLaw t) i w
    refine ⟨value, mark, fun j hj => ?_, d.misuse (by decide), d.heads (by decide), d.scroll (by decide), d.cfg (by decide)⟩
    obtain ⟨otherWord, otherMark⟩ := others j hj
    exact ⟨by rw [← d.memory (by decide)]; exact otherWord, by rw [← d.parity (by decide)]; exact otherMark⟩
  · refine completes_word (K := [.misuse]) hs (by omega) (·.setMisuse)
      (fun q hq _ => Part.hostWrite_misuse (by simp only [ne_eq]; rw [free q hq]; exact h)) (fun q => q.setMisuse_does.toWithin)
      fun q d => ⟨rfl, unmoved d (q.setMisuse_does.toWithin.trans (q.setMisuse.portRest_does _ _ _ _).toWithin (by decide)
        (by decide)) rfl rfl⟩
  · refine completes_word (K := [.portRest]) hs (by omega) (fun q => { q with port := { q.port with mask := w.value } })
      (fun q _ _ => by rw [show start.toNat = 257 from h]; rfl) (fun q => (q.portRest_does _ _ _ _).toWithin)
      fun q d => ⟨rfl, d.memory (by decide), d.misuse (by decide), d.heads (by decide), d.scroll (by decide), d.doors (by decide)⟩
  · refine completes_word (K := []) hs (by omega) id
      (fun q _ hq => Part.hostWrite_discards (by rw [hq]; exact h)) (fun q => .refl _ q)
      fun q d => ⟨d.misuse (by decide), unmoved d ((q.portRest_does _ _ _ _).toWithin.mono (by decide)) rfl rfl⟩

end Sys2Proof.Machine
end

section
/-! Report rows handed over to the scroll (R193, R196). -/

namespace Sys2Proof.Machine

set_option Elab.async false in -- the declarations above are finished first: this bounds the memory of the one text
/-- A row handed over is written at the end of the unread span, or its class joins the mark. -/
theorem Part.appendRow_addsRow {p : Part} (t : p.tidy) (r : Row) : p.addsRow (p.appendRow r) r := by
  unfold Part.addsRow
  by_cases h : p.port.served = true ∧ p.scroll.unread < 128
  · obtain ⟨served, room⟩ := h
    have e : p.appendRow r = p.writeRow r := if_pos (by simp [served, room])
    rw [if_pos ⟨served, room⟩, e]
    exact ⟨rfl, fun i hi => Part.writeRow_last t r hi, fun j i hj hi => p.writeRow_before r room hj hi⟩
  · have e : p.appendRow r = { p with scroll := { p.scroll with mark := p.scroll.mark ||| (1 <<< r.cls.code) } } :=
      if_neg (by simpa using h)
    rw [if_neg h, e]
    refine ⟨?_, fun _ _ _ _ => rfl⟩
    cases r.cls <;> rfl

/-- Settles O14: the two commands hand over their one row, and `appendRow_addsRow`. -/
theorem reportRowsAreWrittenOrMarked : Obligations.ReportRowsAreWrittenOrMarked := by
  unfold Obligations.ReportRowsAreWrittenOrMarked
  refine ⟨fun p r t => Part.appendRow_addsRow t r, fun s test faulty t hs findings => ?_, fun s i t hs hi stuck muted => ?_⟩
  · refine (completes_run (f := (·.receiverEnd faulty)) rfl).2 ?_
    simp only [Part.receiverEnd, hs, if_neg findings]
    exact Part.appendRow_addsRow (p := { s.part with degraded := { s.part.degraded with receiver := faulty }, state := .held }) t _
  · refine (completes_run (f := (·.stuckExpiry i)) rfl).2 ?_
    have alone : s.part.stuckExpiry i = (s.part.setInput i { s.part.input i with stuckAt := none, stuck := true }).appendRow
        (inputStuckRow s.part.driverDoor i (s.part.input i).level) := by
      obtain ⟨f, hf⟩ : ∃ f, s.part.state = .safeHold f := by
        cases h : s.part.state <;> simp_all [Part.inSafeHold]
      simp only [Part.stuckExpiry, stuck, muted, hf, hi, Bool.not_false, Bool.and_self, if_true, Bool.false_eq_true, if_false]
    rw [alone]
    exact Part.appendRow_addsRow (p := s.part.setInput i _) t _

end Sys2Proof.Machine
end

section
/-! Order commands that the board accepts (R189 to R191): the command is its owner's answer to the posted order. -/

namespace Sys2Proof.Machine

set_option Elab.async false in -- the declarations above are finished first: this bounds the memory of the one text
/-- An accepted order command does what its owner does with the posted order. -/
theorem completes_order {c : Instr} {h : OrderHead} {k : OrderKind} {ws : List HostWord} {s : State} (o : Order)
    (ho : orderPosted c = some (h, k, ws)) (hp : s.part.accepts h) (hl : k.params = ws.length)
    (hw : ∀ w ∈ ws, w.sound = true) {post : Part → Prop}
    (read : ∀ q, Part.Posted s.part h k ws q → q.readOrder h.slot k = some o)
    (served : ∀ q, Part.Posted s.part h k ws q → post ((settle (·.serveOrder h.slot o) q).burstDone h.slot)) :
    Completes c s post := by
  obtain ⟨q, posted, e⟩ := Part.postOrder_served hp hl hw
  refine (completes_run (exec_order ho s)).2 ?_
  rw [e o (read q posted)]
  exact served q posted

/-- The same, where the owner leaves the arbiter's lists and the budget. -/
theorem completes_calmOrder {c : Instr} {h : OrderHead} {k : OrderKind} {ws : List HostWord} {s : State} (o : Order)
    (ho : orderPosted c = some (h, k, ws)) (hp : s.part.accepts h) (hl : k.params = ws.length)
    (hw : ∀ w ∈ ws, w.sound = true) {post : Part → Prop} {K : List Area}
    (read : ∀ q, Part.Posted s.part h k ws q → q.readOrder h.slot k = some o)
    (within : ∀ q : Part, Part.Posted s.part h k ws q → Part.Within K q (q.serveOrder h.slot o))
    (served : ∀ q, Part.Posted s.part h k ws q → post ((q.serveOrder h.slot o).burstDone h.slot))
    (h1 : .holders ∉ K := by decide) (h2 : .waiting ∉ K := by decide) (h3 : .supply ∉ K := by decide)
    (h4 : .cfg ∉ K := by decide) : Completes c s post := by
  refine completes_order o ho hp hl hw read fun q hq => ?_
  rw [settle_within (f := (·.serveOrder h.slot o)) (within q hq) h1 h2 h3 h4]
  exact served q hq

/-- The result words of an order that ends (R191). -/
theorem Part.endOrder_words {p : Part} (t : p.tidy) (k : Slot) (st : SlotState) (code : Nat) (a b : Word) :
    Memory.readWord (p.endOrder k st code a b).port.memory (slotWord k 6) = a ∧
      Memory.readWord (p.endOrder k st code a b).port.memory (slotWord k 7) = b := by
  have hk := k.isLt
  obtain ⟨wf, -⟩ := t
  have kept (r : Row) (q : Part) (j : Nat) (hj : j < 8) :
      Memory.readWord (q.appendRow r).port.memory (slotWord k j) = Memory.readWord q.port.memory (slotWord k j) :=
    (q.appendRow_does r).board (by decide) _ (by rw [slotWord]; omega) (by rw [slotWord]; omega)
  have wrote (j : Nat) (hj : j < 2) : some (Memory.readWord (Memory.writeWords p.port.memory (slotWord k 6) [a, b]) (slotWord k 6 + j)) =
      [a, b][j]? := Memory.readWord_writeWords [a, b] wf _ j hj
  unfold Part.endOrder
  dsimp only
  rw [kept _ _ _ (by omega), kept _ _ _ (by omega)]
  exact ⟨Option.some.inj (wrote 0 (by omega)), Option.some.inj (wrote 1 (by omega))⟩

/-- The end of a posting burst leaves the words of the board. -/
@[simp] theorem Part.burstDone_memory (p : Part) (k : Slot) : (p.burstDone k).port.memory = p.port.memory := rfl

section Ends
variable {p q r : Part} {h : OrderHead} {k : OrderKind} {ws : List HostWord} (hq : Part.Posted p h k ws q)
  (hr : r.head h.slot = { q.head h.slot with state := .taken } ∨ r.head h.slot = q.head h.slot)
include hq hr

/-- A posted order ended DONE by its owner, the owner having kept the head but for TAKEN. -/
theorem Part.Posted.endedDone (o : OrderOutcome) (a b : Word) : ((r.orderDone h.slot o a b).burstDone h.slot).endedDone h k o := by
  rw [Part.endedDone, Part.burstDone_head, Part.orderDone_head, if_pos rfl]
  rcases hr with e | e <;> rw [e, hq.head]

/-- A posted order refused by its owner. -/
theorem Part.Posted.endedRefused (x : OrderRefusal) (a : Word) :
    ((r.orderRefused h.slot x a).burstDone h.slot).endedRefused h k x := by
  rw [Part.endedRefused, Part.burstDone_head, Part.orderRefused_head, if_pos rfl]
  rcases hr with e | e <;> rw [e, hq.head]

end Ends

/-- A posted order that its owner leaves standing. -/
theorem Part.Posted.stands {p q r : Part} {h : OrderHead} {k : OrderKind} {ws : List HostWord} (hq : Part.Posted p h k ws q)
    (hr : r.head h.slot = { q.head h.slot with state := .taken }) : (r.burstDone h.slot).orderStands h k := by
  rw [Part.orderStands, Part.burstDone_head, hr, hq.head]

end Sys2Proof.Machine
end

section
/-! LOCK_DOORS and SET_CHILD_LOCK orders (R4, R5, R9, R24, R25). -/

namespace Sys2Proof.Machine

/-! ### What a lock action makes of a door -/

set_option Elab.async false in -- the declarations above are finished first: this bounds the memory of the one text
theorem lockAfter_unlock (d : DoorRec) : lockAfter .unlock d = .unlocked := by
  cases d.lock <;> simp [lockAfter]

theorem lockAfter_lock (d : DoorRec) :
    (d.lock = .unlocked → lockAfter .lock d = if d.ajar = .isClosed then .locked else .lockPending) ∧
      (d.lock ≠ .unlocked → lockAfter .lock d = d.lock) := by
  cases h : d.lock <;> simp [lockAfter, h, DoorRec.isShut]

theorem lockAfter_deadlock {d : DoorRec} (hs : d.ajar = .isClosed) (hl : d.lock ≠ .lockPending) :
    lockAfter .deadlock d = .deadlocked := by
  cases h : d.lock <;> simp_all [lockAfter, DoorRec.isShut]

theorem Doors.allShut_iff (v : Doors) : v.allShut = true ↔ ∀ d, (v.recs.get d).ajar = .isClosed := by
  simp only [Doors.allShut, List.all_eq_true, DoorRec.isShut, decide_eq_true_eq]
  exact ⟨fun h d => h d (Door.mem_all d), fun h d _ => h d⟩

/-- DEADLOCK is taken as LOCK unless every door is CLOSED and IGN off (R5). -/
theorem Doors.taken_deadlock (v : Doors) :
    ((∀ d, (v.recs.get d).ajar = .isClosed) ∧ v.ign = false → v.taken .deadlock = .deadlock) ∧
      (¬ ((∀ d, (v.recs.get d).ajar = .isClosed) ∧ v.ign = false) → v.taken .deadlock = .lock) := by
  have both : (v.allShut && !v.ign) = true ↔ (∀ d, (v.recs.get d).ajar = .isClosed) ∧ v.ign = false := by
    rw [Bool.and_eq_true, v.allShut_iff, Bool.not_eq_true']
  exact ⟨fun h => if_pos (both.2 h), fun h => if_neg fun k => h (both.1 k)⟩

theorem Part.lockTargets_of_doors {p q : Part} (h : q.doors = p.doors) (a : LockAction) (who : PerDoor Bool) :
    q.lockTargets a who = p.lockTargets a who := by
  funext d
  simp only [Part.lockTargets, Part.door, h]

/-- The first field of a word of an action and two door sets. -/
theorem packWord_action (a : LockAction) (v w : PerDoor Bool) : bitsAt (packWord [actionField a, doorSet v, doorSet w]) 0 2 = a.ctorIdx := by
  have fits : ∀ f ∈ [actionField a, doorSet v, doorSet w], f.fits := by
    simp only [List.mem_cons, List.not_mem_nil, or_false, forall_eq_or_imp, forall_eq]
    exact ⟨codeField_fits (by decide) _, setField_fits (by simp [Door.all]), setField_fits (by simp [Door.all])⟩
  have value : (packWord [actionField a, doorSet v, doorSet w]).toNat =
      (actionField a).value + 4 * (doorSet v).value + 128 * (doorSet w).value := by
    rw [packWord_toNat fits]
    simp [packNat, actionField, codeField, numField, doorSet, setField, Door.all, show bitsFor 3 = 2 by decide]
  have code : (actionField a).value = a.ctorIdx ∧ a.ctorIdx < 4 := by cases a <;> decide
  obtain ⟨code, small⟩ := code
  rw [bitsAt, value, code, Nat.shiftRight_zero]
  omega

/-- What a LOCK_DOORS order that is not refused leaves. -/
theorem Part.Posted.locks {p q : Part} {h : OrderHead} {ws : List HostWord} (hq : Part.Posted p h .lockDoors ws q)
    {a : LockAction} {who : PerDoor Bool} (hr : p.lockRefused a = false) :
    let r := (q.serveOrder h.slot (.lockDoors a who)).burstDone h.slot
    (r.endedDone h .lockDoors .completed ∧
      bitsAt (Memory.readWord r.port.memory (slotWord h.slot 6)) 0 2 = (p.doors.taken a).ctorIdx ∧ r.doors.relock = none ∧
      p.sameElsewhere r ∧ r.latches = p.latches) ∧
    ∀ d, r.door d = { p.door d with lock := p.lockTargets a who d } := by
  intro r
  have doors : q.doors = p.doors := hq.doors (by decide)
  have refused : q.lockRefused a = false := by rw [Part.lockRefused, hq.crashSet]; exact hr
  have took := (q.orderTaken_does h.slot)
  have tookDoors : (q.orderTaken h.slot).doors = p.doors := (took.doors (by decide)).trans doors
  have tookRefused : (q.orderTaken h.slot).lockRefused a = false := by rw [Part.lockRefused, took.crashSet]; exact refused
  have locked := (q.orderTaken h.slot).lockAction_does .order a who
  obtain ⟨recs, x, y, ctrl⟩ := (q.orderTaken h.slot).takeLock_doors .order a who
  rw [← Part.lockAction_taken tookRefused] at recs ctrl
  have e : r = ((((q.orderTaken h.slot).lockAction .order a who).orderDone h.slot .completed (packWord
      [actionField (q.doors.taken a), doorSet (q.lockChanges a who),
        doorSet ((q.orderTaken h.slot).lockAction .order a who).doors.lockPendingSet])).burstDone h.slot) :=
    congrArg (Part.burstDone · h.slot) (if_neg (by simp [refused]))
  have final := hq.final (q.lockDoorsOrder_does h.slot a who).toWithin (M := doorOrderAreas ++ burstAreas)
  have final : Part.Within (doorOrderAreas ++ burstAreas) p r := final
  have doorsEnd : r.doors = ((q.orderTaken h.slot).lockAction .order a who).doors := by
    rw [e, ((Part.burstDone_does _ _).doors (by decide)), (Part.orderDone_does _ _ _ _ _).doors (by decide)]
  refine ⟨⟨?_, ?_, ?_, final.elsewhere, final.latches (by decide)⟩, fun d => ?_⟩
  · rw [e]
    refine hq.endedDone (.inl ?_) _ _ _
    rw [locked.toWithin.head, Part.orderTaken_head, if_pos rfl]
  · rw [e, Part.burstDone_memory]
    rw [Part.orderDone, (Part.endOrder_words (locked.tidyLaw (took.tidyLaw hq.tidy)) _ _ _ _ _).1, packWord_action, doors]
  · rw [doorsEnd, ctrl]
  · have target := recs d
    rw [Part.lockTargets_of_doors tookDoors] at target
    rw [Part.door, doorsEnd]
    refine target.trans ?_
    rw [Part.door, tookDoors]
    rfl

theorem PerDoor.get_mask (m : Word) (d : Door) : (PerDoor.build fun d => bitAt m d.ctorIdx).get d = m.getLsbD d.ctorIdx :=
  PerDoor.get_build _ d

/-- What the parameters of a LOCK_DOORS order read. -/
theorem Part.Posted.readLockDoors {p q : Part} {h : OrderHead} {a m : HostWord} (hq : Part.Posted p h .lockDoors [a, m] q)
    {x : LockAction} (hx : pickAction a.value = some x) (h0 : 0 < m.value.toNat) (h5 : m.value.toNat < 32) :
    q.readOrder h.slot .lockDoors = some (.lockDoors x (.build fun d => bitAt m.value d.ctorIdx)) := by
  have mask : doorMask m.value = some (.build fun d => bitAt m.value d.ctorIdx) := if_pos (by simp [maskInRange, h0, h5])
  have first : q.param h.slot 1 = a.value := hq.param 0 a rfl
  have second : q.param h.slot 2 = m.value := hq.param 1 m rfl
  simp only [Part.readOrder, first, second, hx, mask]
  rfl

/-- An accepted LOCK_DOORS order that the crash latch does not bar. -/
theorem completes_lockDoors {s : State} {h : OrderHead} {a m : HostWord} (hp : s.part.accepts h) (ha : a.sound = true)
    (hm : m.sound = true) (h0 : 0 < m.value.toNat) (h5 : m.value.toNat < 32) {x : LockAction} (hx : pickAction a.value = some x)
    (hr : s.part.lockRefused x = false) {k : LockAction} (hk : s.part.doors.taken x = k) {post : Part → Prop}
    (took : ∀ r : Part, (r.endedDone h .lockDoors .completed ∧
        bitsAt (Memory.readWord r.port.memory (slotWord h.slot 6)) 0 2 = k.ctorIdx ∧ r.doors.relock = none ∧
        s.part.sameElsewhere r ∧ r.latches = s.part.latches ∧ ∀ d, ¬ m.value.getLsbD d.ctorIdx = true → r.door d = s.part.door d) →
      (∀ d, r.door d = { s.part.door d with
        lock := if m.value.getLsbD d.ctorIdx then lockAfter k (s.part.door d) else (s.part.door d).lock }) → post r) :
    Completes (.lockDoors h a m) s post := by
  refine completes_calmOrder (K := doorOrderAreas) (.lockDoors x (.build fun d => bitAt m.value d.ctorIdx)) rfl hp rfl
    (by simp [ha, hm]) (fun q hq => hq.readLockDoors hx h0 h5) (fun q _ => (q.lockDoorsOrder_does _ _ _).toWithin) fun q hq => ?_
  obtain ⟨⟨ended, word, relock, elsewhere, latches⟩, doors⟩ := hq.locks (who := .build fun d => bitAt m.value d.ctorIdx) hr
  have target (d : Door) : s.part.lockTargets x (.build fun d => bitAt m.value d.ctorIdx) d =
      if m.value.getLsbD d.ctorIdx then lockAfter k (s.part.door d) else (s.part.door d).lock := by
    simp only [Part.lockTargets, PerDoor.get_mask, hk]
  simp only [target] at doors
  exact took _ ⟨ended, by rw [← hk]; exact word, relock, elsewhere, latches,
    fun d hd => (doors d).trans (by rw [if_neg hd])⟩ doors

/-- Settles O15: the action taken by R5, and what `lockAfter` makes of each named door. -/
theorem lockDoorsOrderTakesItsAction : Obligations.LockDoorsOrderTakesItsAction := by
  unfold Obligations.LockDoorsOrderTakesItsAction
  intro s h a m hp ha hm h0 h5 named deadlocks took
  have given {n : Nat} {x : LockAction} (hv : a.value = BitVec.ofNat 32 n) (hx : pickAction (BitVec.ofNat 32 n) = some x) :
    pickAction a.value = some x := by rw [hv]; exact hx
  have free (x : LockAction) (hc : s.part.crashSet = false) : s.part.lockRefused x = false := by simp [Part.lockRefused, hc]
  obtain ⟨asDeadlock, asLock⟩ := s.part.doors.taken_deadlock
  refine ⟨fun hv => ?_, fun hv hc => ?_, fun hv hd hc => ?_, fun hv hc => ?_⟩
  · refine completes_lockDoors hp ha hm h0 h5 (given (n := 1) hv rfl) (by simp [Part.lockRefused]) rfl
      fun r ended doors => ⟨ended, fun d => ?_⟩
    rw [doors d]
    exact ⟨rfl, fun hd => (if_pos hd).trans (lockAfter_unlock _)⟩
  · obtain ⟨x, hx, taken⟩ : ∃ x, pickAction a.value = some x ∧ s.part.doors.taken x = .lock := by
      rcases hv with hv | ⟨hv, hd⟩
      · exact ⟨.lock, given (n := 0) hv rfl, rfl⟩
      · exact ⟨.deadlock, given (n := 2) hv rfl, asLock hd⟩
    refine completes_lockDoors hp ha hm h0 h5 hx (free x hc) taken fun r ended doors => ⟨ended, fun d hd => ?_⟩
    obtain ⟨unlocked, locked⟩ := lockAfter_lock (s.part.door d)
    rw [doors d]
    exact ⟨rfl, fun hl => (if_pos hd).trans (unlocked hl), fun hl => (if_pos hd).trans (locked hl)⟩
  · refine completes_lockDoors hp ha hm h0 h5 (given (n := 2) hv rfl) (free _ hc) (asDeadlock hd)
      fun r ended doors => ⟨ended, fun d hn => ?_⟩
    rw [doors d]
    exact ⟨hd.1 d, fun hl => (if_pos hn).trans (lockAfter_deadlock (hd.1 d) hl)⟩
  · obtain ⟨x, hx, bars⟩ : ∃ x, pickAction a.value = some x ∧ x ≠ .unlock := by
      rcases hv with hv | hv
      · exact ⟨.lock, given (n := 0) hv rfl, nofun⟩
      · exact ⟨.deadlock, given (n := 2) hv rfl, nofun⟩
    refine completes_calmOrder (K := doorOrderAreas) (.lockDoors x (.build fun d => bitAt m.value d.ctorIdx)) rfl hp rfl
      (by simp [ha, hm]) (fun q hq => hq.readLockDoors hx h0 h5) (fun q _ => (q.lockDoorsOrder_does _ _ _).toWithin) fun q hq => ?_
    have refused : q.lockRefused x = true := by
      rw [Part.lockRefused, hq.crashSet]
      simp [hc, bars]
    have e : q.lockDoorsOrder h.slot x (.build fun d => bitAt m.value d.ctorIdx) = q.orderRefused h.slot .crashLatch := if_pos refused
    simp only [Part.serveOrder, e]
    refine ⟨hq.endedRefused (.inr rfl) _ _, ?_⟩
    rw [(Part.burstDone_does _ _).doors (by decide), (q.orderRefused_does _ _ _).doors (by decide), hq.doors (by decide)]

end Sys2Proof.Machine
end

section
/-! Debounced input events that their owner takes at once (R173, R175, R179). -/

namespace Sys2Proof.Machine

/-- The part with an input's debounced level changed, before its event. -/
def Part.heard (p : Part) (i : Input) (l : Level) : Part := p.setInput i ((p.input i).moved l p.clock (stuckJudged i))

set_option Elab.async false in -- the declarations above are finished first: this bounds the memory of the one text
theorem Part.heard_does (p : Part) (i : Input) (l : Level) : Part.Does [.inputs] p (p.heard i l) := p.setInput_does _ _

@[simp] theorem Part.heard_input (p : Part) (i j : Input) (l : Level) :
    (p.heard i l).input j = if j = i then (p.input i).moved l p.clock (stuckJudged i) else p.input j := p.setInput_input ..

@[simp] theorem InputRec.moved_level (r : InputRec) (l : Level) (t : Nat) (b : Bool) : (r.moved l t b).level = l := rfl

/-- An input that is neither stuck nor degraded, its change settled: the level changes and the part state decides on the event. -/
theorem Part.debounced_eq {p : Part} {i : Input} {l : Level} (hl : p.settledLevel i l = true) (stuck : (p.input i).stuck = false)
    (sound : p.degraded.inputs.get i = false) (away : ∀ sw, i = .switch sw → l ≠ .rest) :
    p.debounced i l = (p.heard i l).takeEvent i (p.input i).level l := by
  unfold Part.debounced
  simp only [hl, stuck, sound, if_true, Bool.false_eq_true, if_false]
  cases i with
  | switch sw => exact if_neg (away sw rfl)
  | _ => rfl

theorem Part.activity_rest {p : Part} (h : p.state ≠ .service) : p.activity = p := if_neg (by simpa [Part.inService] using h)

/-- A ready input's event: the level, the owner, then the activity it is. -/
theorem Part.debounced_ready {p : Part} {i : Input} {l : Level} (h : p.ready i l) (away : ∀ sw, i = .switch sw → l ≠ .rest)
    (routes : routed i l = true) :
    p.debounced i l = (settle (·.deliver i (p.input i).level l) (p.heard i l)).activity := by
  obtain ⟨service, settled, stuck, sound⟩ := h
  have service : (p.heard i l).state = .service := service
  rw [Part.debounced_eq settled stuck sound away, Part.takeEvent]
  simp only [service, Part.serviceEvent, routes, if_true]

/-- The same for an input taken in every part state that serves inputs at once (R179). -/
theorem Part.debounced_hears {p : Part} {i : Input} {l : Level} (h : p.hears i l) (inHeld : takenInHeld i = true)
    (inSafeHold : takenInSafeHold i = true) (routes : routed i l = true) (away : ∀ sw, i ≠ .switch sw) :
    p.debounced i l = (settle (·.deliver i (p.input i).level l) (p.heard i l)).activity := by
  obtain ⟨service, awake, settled, stuck, sound⟩ := h
  have same : (p.heard i l).state = p.state := rfl
  have state : (settle (·.deliver i (p.input i).level l) (p.heard i l)).state = p.state :=
    (settle_does (f := (·.deliver i (p.input i).level l)) (M := deliverAreas) (Part.deliver_does _ i _ l)).state (by decide)
  rw [Part.debounced_eq settled stuck sound (fun sw e => absurd e (away sw)), Part.takeEvent, same]
  cases hs : p.state with
  | start test stage =>
    have begun : stage ≠ .drivers := by
      rintro rfl
      simp [Part.doorService, hs] at service
    have rest := Part.activity_rest (by rw [state, hs]; nofun)
    cases stage with
    | drivers => exact absurd rfl begun
    | _ => simp only [inHeld, if_true, rest]
  | held => simp only [inHeld, if_true, Part.activity_rest (by rw [state, hs]; nofun)]
  | service => simp only [Part.serviceEvent, routes, if_true]
  | doze => exact absurd hs awake
  | safeHold f => simp only [inSafeHold, if_true, Part.activity_rest (by rw [state, hs]; nofun)]

/-- The event of a ready input whose owner leaves the arbiter's lists and the budget. -/
theorem Part.debounced_calm {p : Part} {i : Input} {l : Level} (h : p.ready i l) (away : ∀ sw, i = .switch sw → l ≠ .rest)
    (routes : routed i l = true) {K : List Area}
    (within : Part.Within K (p.heard i l) ((p.heard i l).deliver i (p.input i).level l)) (h1 : .holders ∉ K := by decide)
    (h2 : .waiting ∉ K := by decide) (h3 : .supply ∉ K := by decide) (h4 : .cfg ∉ K := by decide) :
    p.debounced i l = ((p.heard i l).deliver i (p.input i).level l).activity := by
  rw [Part.debounced_ready h away routes, settle_within within h1 h2 h3 h4]

end Sys2Proof.Machine
end

section
/-! The rear lockout turning on over a window that moves with a rear door switch's command still pending (R56). -/

namespace Sys2Proof.Machine

/-- SERVICE with the lockout button's press settled, and window RL under way for an order while a command of its door switch
is pending. -/
def crossedWindow : Part :=
  let p := State.reset.part
  { p with
    state := .service
    clock := 1000
    inputs := p.inputs.set .lockoutButton { p.input .lockoutButton with raw := .l1, since := some 0 }
    windows := p.windows.set .rl { p.window .rl with
      motion := .opening
      mover := some (.order 0)
      pending := some ⟨⟨.opening, .manual, .doorSwitch, none, false⟩, 0⟩ } }

set_option Elab.async false in -- the declarations above are finished first: this bounds the memory of the one text
/-- The lockout withdraws the pending command although the window is under way. -/
theorem crossedWindow_loses : ((crossedWindow.window .rl).pending ≠ none) ∧
    ((crossedWindow.debounced .lockoutButton .l1).window .rl).pending = none := by decide

/-- Refutes O16: a pending command of a rear door switch goes as the lockout turns on even where the window is under way for
another mover, where the statement has the window unchanged. -/
theorem not_childLocksAndRearLockoutTakeTheWantedState : ¬ Obligations.ChildLocksAndRearLockoutTakeTheWantedState := by
  unfold Obligations.ChildLocksAndRearLockoutTakeTheWantedState
  rintro ⟨-, lockout⟩
  obtain ⟨-, button⟩ := lockout ⟨crossedWindow, []⟩
  obtain ⟨-, turnsOn, -⟩ := button ⟨by decide, by decide, by decide, by decide⟩
  obtain ⟨_, _, _, _, windows⟩ := (completes_run (f := (·.debounced .lockoutButton .l1)) rfl).1
    (turnsOn rfl fun x hx => absurd hx (List.not_mem_nil))
  obtain ⟨-, -, kept⟩ := windows .rl
  have same := kept (fun ⟨_, _, mover⟩ => absurd mover (by decide)) (fun ⟨_, still, _⟩ => absurd still (by decide))
  obtain ⟨pends, gone⟩ := crossedWindow_loses
  exact pends ((congrArg WindowRec.pending same).symm.trans gone)

end Sys2Proof.Machine
end

section
/-! Granting from the head after one event (R100), and RELEASE_LATCH orders (R31, R37, R38, R44). -/

namespace Sys2Proof.Machine

/-! ### Granting after an event -/

set_option Elab.async false in -- the declarations above are finished first: this bounds the memory of the one text
/-- Nothing waits: nothing is granted. -/
theorem settle_noneWaits {f : Part → Part} {p : Part} (h : (f p).waiting = []) : settle f p = f p := by
  unfold settle
  simp only [Part.grantFromHead, h, List.length_nil, grantHeads, ite_self]

/-- The first to wait finds no room: nothing is granted. -/
theorem settle_noRoom {f : Part → Part} {p : Part} {w : Waiter} {rest : List Waiter} (h : (f p).waiting = w :: rest)
    (room : ¬ w.units ≤ (f p).unitsFree) : settle f p = f p := by
  unfold settle
  simp only [Part.grantFromHead, h, List.length_cons, grantHeads, if_neg room, ite_self]

/-- The holder a waiting request becomes. -/
abbrev Waiter.held (w : Waiter) (now : Nat) : Holder := ⟨w.actuator, w.units, w.prec, now, .withinBudget⟩

/-- The only request, new and with room, is granted. -/
theorem settle_grantsOne {f : Part → Part} {p : Part} {w : Waiter} (before : p.waiting = []) (h : (f p).waiting = [w])
    (room : w.units ≤ (f p).unitsFree) :
    settle f p = ((f p).setLists ((f p).holders ++ [w.held (f p).clock]) []).tellGrant w.actuator := by
  unfold settle
  dsimp only
  rw [if_neg (by rw [before, h]; rintro ⟨-, e, -⟩; cases e)]
  simp only [Part.grantFromHead, h, List.length_cons, List.length_nil, grantHeads, if_pos room]

theorem Part.setLists_within (p : Part) (h : List Holder) (w : List Waiter) : Part.Within [.holders, .waiting] p (p.setLists h w) := by
  constructor <;> first | rfl | exact fun _ => rfl | exact fun _ => .same rfl | exact fun _ _ _ _ => rfl
                        | exact fun h => absurd (by decide) h
                        | exact fun _ _ => FobRec.same_refl _ | exact fun _ => .same id rfl rfl fun _ _ _ => rfl

/-! ### RELEASE_LATCH -/

theorem pickDoor (d : Door) : pick Door.all (BitVec.ofNat 32 d.ctorIdx) = some d := by cases d <;> rfl

/-- An order's release granted: the latch pulsed, the holder appended. -/
def Part.pulsedFor (p : Part) (k : Slot) (d : Door) : Part :=
  ((p.orderTaken k).setLatch d (some ⟨.pulsing, false, .release, SourceSet.empty.add .order, [k],
    some (p.clock + p.cfg.latchPulse)⟩)).setLists (p.holders ++ [⟨.latch d, 1, .release, p.clock, .withinBudget⟩]) []

theorem Part.pulsedFor_within (p : Part) (k : Slot) (d : Door) :
    Part.Within (.holders :: .waiting :: .latches :: orderAreas) p (p.pulsedFor k d) :=
  ((p.orderTaken_does k).toWithin.trans (Part.setLatch_does _ d _).toWithin (M := .latches :: orderAreas)
    (by decide) (by decide)).trans (Part.setLists_within _ _ _) (by decide) (by decide)

/-- An order's release of an IDLE latch that nothing bars: pulsed at once where a unit is free and nothing waits. -/
theorem Part.releaseOrder_pulses {q : Part} {k : Slot} {d : Door} (unbarred : (q.door d).lock.barred = false)
    (shut : (q.door d).ajar = .isClosed) (sound : (q.door d).fault ≠ .driver) (idle : q.latch d = none) (none : q.waiting = [])
    (room : 1 ≤ q.unitsFree) : settle (·.releaseOrder k d) q = q.pulsedFor k d := by
  have request : q.releaseOrder k d =
      ((q.orderTaken k).setLatch d (some ⟨.waiting, false, .release, SourceSet.empty.add .order, [k], .none⟩)).request
        (.latch d) .release := by
    rw [Part.releaseOrder, if_neg (by simp [unbarred]), Part.releaseRequest]
    simp only [shut, reduceCtorEq, if_false, sound, false_and, idle]
    rfl
  have waits : (q.releaseOrder k d).waiting = [⟨.latch d, 1, .release, q.clock, q.clock + 1000⟩] := by
    simp [request, Part.request, none, placeWaiter, actuatorUnits, waitLimit]
  have units : (q.releaseOrder k d).unitsFree = q.unitsFree := by
    simp [request, Part.request, Part.unitsFree, Part.budget]
  rw [settle_grantsOne (f := (·.releaseOrder k d)) none waits (by rw [units]; exact room)]
  simp only [request, Part.tellGrant, Part.startPulse, Part.request, Part.setLists_fields, Part.setLatch_fields,
    Part.orderTaken_fields, Part.pulsedFor]
  generalize q.orderTaken k = r
  cases d <;> rfl

theorem Part.Posted.readReleaseLatch {p q : Part} {h : OrderHead} {w : HostWord} (hq : Part.Posted p h .releaseLatch [w] q)
    {d : Door} (hd : w.value = BitVec.ofNat 32 d.ctorIdx) : q.readOrder h.slot .releaseLatch = some (.releaseLatch d) := by
  have first : q.param h.slot 1 = w.value := hq.param 0 w rfl
  simp only [Part.readOrder, first, hd, pickDoor]
  rfl

/-- Settles O17: pulsed by `releaseOrder_pulses`; refused or ended at once by the first checks of R44 and R31. -/
theorem releaseLatchOrderPulsesTheLatch : Obligations.ReleaseLatchOrderPulsesTheLatch := by
  unfold Obligations.ReleaseLatchOrderPulsesTheLatch
  intro s h w d hp hw hd
  have atOnce {post : Part → Prop} {f : Part → Part} (within : ∀ q, Part.Within orderAreas q (f q))
      (e : ∀ q, Part.Posted s.part h .releaseLatch [w] q → q.releaseOrder h.slot d = f q)
      (done : ∀ q, Part.Posted s.part h .releaseLatch [w] q → Part.Within (orderAreas ++ burstAreas) s.part ((f q).burstDone h.slot) →
        post ((f q).burstDone h.slot)) :
      Completes (.releaseLatch h w) s post :=
    completes_calmOrder (K := orderAreas) (.releaseLatch d) rfl hp rfl (by simp [hw])
      (fun q hq => hq.readReleaseLatch hd) (fun q hq => by rw [Part.serveOrder, e q hq]; exact within q) fun q hq => by
        rw [Part.serveOrder, e q hq]; exact done q hq (hq.final (within q))
  refine ⟨fun unbarred shut sound idle none room => ?_, fun barred => ?_, fun unbarred ajar => ?_⟩
  · refine completes_order (.releaseLatch d) rfl hp rfl (by simp [hw]) (fun q hq => hq.readReleaseLatch hd) fun q hq => ?_
    have e := Part.releaseOrder_pulses (q := q) (k := h.slot) (d := d) (by rw [hq.door]; exact unbarred) (by rw [hq.door]; exact shut)
      (by rw [hq.door]; exact sound) (by rw [hq.latch]; exact idle) (by rw [hq.waiting (by decide)]; exact none)
      (by rw [hq.unitsFree]; exact room)
    have final := hq.final (M := .holders :: .waiting :: .latches :: orderAreas ++ burstAreas) (q.pulsedFor_within h.slot d)
    have taken : (q.pulsedFor h.slot d).head h.slot = { q.head h.slot with state := .taken } :=
      (Part.orderTaken_head _ _ _).trans (if_pos rfl)
    have latch (x : Door) : ((q.pulsedFor h.slot d).burstDone h.slot).latch x =
        if x = d then some ⟨.pulsing, false, .release, SourceSet.empty.add .order, [h.slot], some (q.clock + q.cfg.latchPulse)⟩
        else q.latch x := Part.setLatch_latch _ _ _ _
    simp only [Part.serveOrder, e]
    have burst := ((q.pulsedFor h.slot d).burstDone_does h.slot).toWithin
    refine ⟨hq.stands taken, ?_, ?_, burst.waiting (by decide), fun x hx => ?_,
      final.doors (by decide), final.elsewhere⟩
    · rw [latch, if_pos rfl, hq.clock, hq.cfg (by decide)]
      rfl
    · rw [← hq.holders (by decide), ← hq.clock]
      rfl
    · rw [latch, if_neg hx, hq.latch]
  · refine atOnce (f := (·.orderRefused h.slot .doorLocked)) (fun q => (q.orderRefused_does _ _ _).toWithin)
      (fun q hq => if_pos (by rw [hq.door]; exact barred)) fun q hq final =>
        ⟨hq.endedRefused (.inr rfl) _ _, final.latches (by decide), final.doors (by decide)⟩
  · refine atOnce (f := (·.orderDone h.slot .alreadyOpen (packWord [codeField 5 d.ctorIdx])))
      (fun q => (q.orderDone_does _ _ _ _).toWithin) (fun q hq => ?_) fun q hq final =>
        ⟨hq.endedDone (.inr rfl) _ _ _, final.latches (by decide), final.doors (by decide)⟩
    rw [Part.releaseOrder, if_neg (by rw [hq.door, unbarred]; nofun), Part.releaseRequest]
    exact if_pos (by rw [hq.door]; exact ajar)

end Sys2Proof.Machine
end

section
/-! A window command granted at once (R61, R62, R100), and the orders MOVE_WINDOW and LEARN_WINDOW (R69, R91, R92). -/

namespace Sys2Proof.Machine

/-! ### A grant to a window -/

/-- The window's fields as a granted command starts (R62, R66, R67). -/
def WindowRec.started (w : WindowRec) (cmd : Command) (now ramp : Nat) : WindowRec :=
  { w.driving cmd.dir.motion now ramp with
    mode := some cmd.mode
    target := cmd.target
    mover := some cmd.mover
    forExpress := cmd.forExpress
    pending := none }

set_option Elab.async false in -- the declarations above are finished first: this bounds the memory of the one text
theorem Part.startMove_window (p : Part) (c x : Corner) (cmd : Command) : (p.startMove c cmd).window x =
    if x = c then (p.window c).started cmd p.clock p.cfg.rampTime else p.window x := by
  simp [Part.startMove, WindowRec.started]

theorem Part.setWindow_within (p : Part) (c : Corner) (x : WindowRec) : Part.Within [.windows] p (p.setWindow c x) := by
  constructor <;> first | rfl | exact fun _ => rfl | exact fun _ => .same rfl | exact fun _ _ _ _ => rfl
                        | exact fun h => absurd (by decide) h
                        | exact fun _ _ => FobRec.same_refl _ | exact fun _ => .same id rfl rfl fun _ _ _ => rfl

theorem Part.startMove_within (p : Part) (c : Corner) (cmd : Command) : Part.Within startAreas p (p.startMove c cmd) :=
  (((p.setWindow_within c _).trans (Part.setMonitor_acts _ c _).toWithin (M := startAreas) (by decide) (by decide)).trans
    (Part.appendRow_does _ _).toWithin (M := startAreas) (by decide) (by decide)).trans
    (Part.markDirty_does _ _).toWithin (by decide) (by decide)

/-- The learn operation and the watch of a window as its command starts. -/
theorem Part.startMove_learn (p : Part) (c : Corner) (cmd : Command) :
    ((p.startMove c cmd).monitor c).learn = (p.monitor c).learn ∧ ((p.startMove c cmd).monitor c).watch = (p.monitor c).watch := by
  simp only [Part.startMove, Part.markDirty_fields, Part.appendRow_fields, Part.setMonitor_monitor, if_true]
  split <;> exact ⟨rfl, rfl⟩

/-- The window's grant: its pending command starts. -/
theorem Part.windowGranted_starts {p : Part} {c : Corner} {cmd : Command} {t : Nat} (h : (p.window c).pending = some ⟨cmd, t⟩) :
    (∀ x, (p.windowGranted c).window x = if x = c then (p.window c).started cmd p.clock p.cfg.rampTime else p.window x) ∧
      (((p.windowGranted c).monitor c).learn = (p.monitor c).learn.map fun l => { l with phase := .down, count := 0 }) ∧
      ((p.windowGranted c).monitor c).watch = (p.monitor c).watch ∧
      Part.Within (.operation :: startAreas) p (p.windowGranted c) := by
  let m : MonitorRec := { p.monitor c with learn := (p.monitor c).learn.map fun l => { l with phase := .down, count := 0 } }
  have start := (p.setMonitor c m).startMove_window c
  obtain ⟨learn, watch⟩ := (p.setMonitor c m).startMove_learn c cmd
  have within := (p.setMonitor_acts c m).toWithin.trans ((p.setMonitor c m).startMove_within c cmd) (M := startAreas)
    (by decide) (by decide)
  have e : p.windowGranted c = if cmd.mover = .sequencer then ((p.setMonitor c m).startMove c cmd).reportGrant c
      else (p.setMonitor c m).startMove c cmd := by
    simp only [Part.windowGranted, h]
    rfl
  have told := (((p.setMonitor c m).startMove c cmd).reportGrant_acts c).toWithin
  rw [Part.setMonitor_monitor, if_pos rfl] at learn watch
  rw [e]
  split
  · exact ⟨fun x => (told.window x).trans (start x cmd), by rw [told.monitor]; exact learn, by rw [told.monitor]; exact watch,
      within.trans told (by decide) (by decide)⟩
  · exact ⟨fun x => start x cmd, learn, watch, within.mono (by decide)⟩

/-- What a window's grant changes. -/
abbrev windowGrantAreas : List Area := .holders :: .waiting :: .operation :: startAreas

/-- The only request, a window's, is granted and its pending command starts. -/
theorem settle_startsWindow {f : Part → Part} {p : Part} {w : Waiter} {c : Corner} {cmd : Command} {t : Nat}
    (before : p.waiting = []) (waits : (f p).waiting = [w]) (ha : w.actuator = .window c) (hu : w.units = 2)
    (room : 2 ≤ (f p).unitsFree) (pends : ((f p).window c).pending = some ⟨cmd, t⟩) :
    (∀ x, (settle f p).window x =
        if x = c then ((f p).window c).started cmd (f p).clock (f p).cfg.rampTime else (f p).window x) ∧
      (settle f p).holders = (f p).holders ++ [w.held (f p).clock] ∧ (settle f p).waiting = [] ∧
      (((settle f p).monitor c).learn = ((f p).monitor c).learn.map fun l => { l with phase := .down, count := 0 }) ∧
      ((settle f p).monitor c).watch = ((f p).monitor c).watch ∧ Part.Within windowGrantAreas (f p) (settle f p) := by
  rw [settle_grantsOne before waits (by omega), ha]
  let q := (f p).setLists ((f p).holders ++ [w.held (f p).clock]) []
  have pending : (q.window c).pending = some ⟨cmd, t⟩ := pends
  obtain ⟨windows, learn, watch, within⟩ := Part.windowGranted_starts pending
  exact ⟨windows, (within.holders (by decide)), within.waiting (by decide), learn, watch,
    ((f p).setLists_within _ _).trans within (by decide) (by decide)⟩

end Sys2Proof.Machine
end

section
/-! The orders MOVE_WINDOW and LEARN_WINDOW on a window at rest (R69 to R71, R91, R92). -/

namespace Sys2Proof.Machine

set_option Elab.async false in -- the declarations above are finished first: this bounds the memory of the one text
/-- A command that passes on a window at rest is pending and asks for its grant. -/
theorem Part.applyPassed_rest {p : Part} {c : Corner} (stopped : (p.window c).motion = .stopped)
    (none : (p.window c).pending = none) (cmd : Command) :
    p.applyPassed c cmd =
      ((p.endWatch c).setWindow c { p.window c with pending := some ⟨cmd, p.clock⟩ }).request (.window c) .window := by
  have still : (p.window c).underWay = false := by simp [WindowRec.underWay, stopped]
  have watch : (p.endWatch c).window c = p.window c := rfl
  simp only [Part.applyPassed, still, Bool.false_eq_true, if_false, watch, none]
  rfl

/-- Its fields after that. -/
theorem Part.applyPassed_rest_fields {p : Part} {c : Corner} (stopped : (p.window c).motion = .stopped)
    (none : (p.window c).pending = none) (cmd : Command) :
    (∀ x, (p.applyPassed c cmd).window x = if x = c then { p.window c with pending := some ⟨cmd, p.clock⟩ } else p.window x) ∧
      (p.applyPassed c cmd).holders = p.holders ∧
      (p.applyPassed c cmd).waiting = p.waiting ++ [⟨.window c, 2, .window, p.clock, p.clock + 2000⟩] ∧
      (p.applyPassed c cmd).unitsFree = p.unitsFree ∧
      Part.Within [.windows, .monitors, .holders, .waiting] p (p.applyPassed c cmd) := by
  rw [Part.applyPassed_rest stopped none]
  refine ⟨fun x => Part.setWindow_window _ c x _, rfl, rfl, rfl, ?_⟩
  exact ((p.endWatch_does c).toWithin.trans (Part.setWindow_within _ c _) (M := [.windows, .monitors]) (by decide) (by decide)).trans
    (Part.request_does _ _ _).toWithin (by decide) (by decide)

/-- The verdict on a command that no start check of R60 refuses, on a window at rest. -/
theorem Part.verdict_sound {p : Part} {c : Corner} {cmd : Command} (stopped : (p.window c).motion = .stopped)
    (free : (p.monitor c).learn = none) (sound : p.outOfService c = false) (cool : (p.window c).thermal = false)
    (learned : (p.window c).learned = true) (crash : cmd.dir = .closing → p.crashSet = false) (plain : cmd.mode ≠ .express) :
    ((p.window c).alreadyDone p.cfg cmd = none → p.verdict c cmd = .passes) ∧
      ∀ r, (p.window c).alreadyDone p.cfg cmd = some r → p.verdict c cmd = .already r := by
  have passes : p.startCheck c cmd = none := by
    have latch : ¬ (cmd.dir = .closing ∧ p.crashSet = true) := fun ⟨d, e⟩ => by rw [crash d] at e; cases e
    simp [Part.startCheck, sound, cool, latch, learned, plain]
  refine ⟨fun h => ?_, fun r h => ?_⟩ <;>
    simp only [Part.verdict, stopped, reduceCtorEq, free, Option.isSome_none, Bool.false_eq_true, false_and, or_self, if_false, passes, h]

/-- The command of an order towards a target that is taken as `aim`. -/
abbrev aimCommand (m : Mover) (position aim : Nat) : Command :=
  ⟨if position < aim then .closing else .opening, .target, m, some aim, false⟩

theorem WindowRec.aimed_learned {w : WindowRec} {cfg : Config} {t aim : Nat} (learned : w.learned = true)
    (h : w.clampTarget cfg t = aim) (m : Mover) : w.aimed cfg (targetCommand m t) = aimCommand m w.position aim := by
  simp [WindowRec.aimed, targetCommand, learned, h]

/-- A target command is already done where the window stands at the target, or at or beyond the soft stop aimed at. -/
theorem WindowRec.alreadyDone_target (w : WindowRec) (cfg : Config) (m : Mover) (aim : Nat) :
    (w.alreadyDone cfg (aimCommand m w.position aim) = none ↔
      ¬ (w.position = aim ∨ (aim = bottomStop cfg ∧ w.position ≤ bottomStop cfg) ∨ (aim = w.topStop cfg ∧ w.topStop cfg ≤ w.position))) := by
  simp only [WindowRec.alreadyDone]
  split_ifs <;> simp only [false_iff, not_not, true_iff] <;> omega

theorem pickCorner (c : Corner) : pick Corner.all (BitVec.ofNat 32 c.ctorIdx) = some c := by cases c <;> rfl

/-- An accepted MOVE_WINDOW order whose target is taken as a position. -/
theorem Part.Posted.readMoveWindow {p q : Part} {h : OrderHead} {w t n : HostWord} (hq : Part.Posted p h .moveWindow [w, t, n] q)
    {c : Corner} (hc : w.value = BitVec.ofNat 32 c.ctorIdx) {g : MoveTarget}
    (hg : pick [MoveTarget.fullOpen, .fullClose, .position n.value.toNat, .stop] t.value = some g)
    (within : g = .position n.value.toNat → n.value.toNat ≤ (p.window c).travel) :
    q.readOrder h.slot .moveWindow = some (.moveWindow c g) := by
  have first : q.param h.slot 1 = w.value := hq.param 0 w rfl
  have second : q.param h.slot 2 = t.value := hq.param 1 t rfl
  have third : q.param h.slot 3 = n.value := hq.param 2 n rfl
  have window : q.window c = p.window c := hq.window c
  have inRange : ¬ (g = .position n.value.toNat ∧ (p.window c).travel < n.value.toNat) := fun ⟨e, l⟩ => by
    have := within e
    omega
  simp only [Part.readOrder, first, second, third, hc, pickCorner, hg, Option.bind_eq_bind, Option.bind_some, window, if_neg inRange]

/-- What a MOVE_WINDOW order does on a sound window at rest whose target is taken as `aim`. -/
theorem Part.moveTo_rest {q : Part} {k : Slot} {c : Corner} {t aim : Nat} (stopped : (q.window c).motion = .stopped)
    (none : (q.window c).pending = none) (free : (q.monitor c).learn = .none) (sound : q.outOfService c = false)
    (cool : (q.window c).thermal = false) (learned : (q.window c).learned = true)
    (taken : (q.window c).clampTarget q.cfg t = aim) (crash : (q.window c).position < aim → q.crashSet = false) :
    q.moveTo k c t = if (q.window c).alreadyDone q.cfg (aimCommand (.order k) (q.window c).position aim) = .none
      then (q.orderTaken k).applyPassed c (aimCommand (.order k) (q.window c).position aim)
      else ((q.orderTaken k).endWatch c).endMoveOrder c k .completed .none := by
  have aimed := WindowRec.aimed_learned learned taken (.order k)
  have verdict := Part.verdict_sound (cmd := aimCommand (.order k) (q.window c).position aim) stopped free sound cool learned
    (fun d => crash (by by_contra far; simp [far] at d)) (by nofun)
  have still : (q.window c).underWay = false := by simp [WindowRec.underWay, stopped]
  have window : (q.orderTaken k).window c = q.window c := (q.orderTaken_does k).toWithin.window c
  have done (r : StopReason) (cmd : Command) : (q.orderTaken k).applyDone c cmd r = (q.orderTaken k).endWatch c := by
    have same : ((q.orderTaken k).endWatch c).window c = q.window c := window
    simp only [Part.applyDone, window, still, Bool.false_eq_true, if_false, none]
  unfold Part.moveTo
  obtain ⟨passes, already⟩ := verdict
  simp only [aimed]
  cases reached : (q.window c).alreadyDone q.cfg (aimCommand (.order k) (q.window c).position aim) with
  | none => simp only [passes reached, if_true]
  | some r => simp only [already r reached, done, still, Bool.false_eq_true, if_false, reduceCtorEq]

/-- Where the order's owner begins, the records are those the order was posted on. -/
theorem Part.Within.outOfService {K : List Area} {p q : Part} (w : Part.Within K p q) (c : Corner) (h : .degraded ∉ K := by decide) :
    q.outOfService c = p.outOfService c := by
  simp only [Part.outOfService, w.degraded h]

/-- An order whose owner makes one window's request, with its command pending: granted at once, the command starts. -/
theorem Part.Posted.starts {p q r : Part} {h : OrderHead} {ws : List HostWord} {k : OrderKind} (hq : Part.Posted p h k ws q)
    {o : Order} {c : Corner} {cmd : Command} {t : Nat} {w : WindowRec} (noneWaits : p.waiting = []) (room : 2 ≤ p.unitsFree)
    (e : q.serveOrder h.slot o = r) (within : Part.Within (windowGrantAreas ++ orderAreas) q r)
    (taken : r.head h.slot = { q.head h.slot with state := .taken })
    (windows : ∀ x, r.window x = if x = c then w else p.window x) (pends : w.pending = some ⟨cmd, t⟩)
    (holders : r.holders = p.holders) (waiting : r.waiting = [⟨.window c, 2, .window, p.clock, p.clock + 2000⟩]) :
    let x := (settle (·.serveOrder h.slot o) q).burstDone h.slot
    x.orderStands h k ∧ (∀ y, x.window y = if y = c then w.started cmd p.clock p.cfg.rampTime else p.window y) ∧
      x.holders = p.holders ++ [⟨.window c, 2, .window, p.clock, .withinBudget⟩] ∧ x.waiting = [] ∧
      ((x.monitor c).learn = (r.monitor c).learn.map fun l => { l with phase := .down, count := 0 }) ∧
      (x.monitor c).watch = (r.monitor c).watch ∧ Part.Within (windowGrantAreas ++ orderAreas ++ burstAreas) p x := by
  subst e
  have clock := within.clock.trans hq.clock
  have units : (q.serveOrder h.slot o).unitsFree = p.unitsFree := by
    simp only [Part.unitsFree, Part.budget, holders, within.supply (by decide), within.cfg (by decide), hq.supply (by decide),
      hq.cfg (by decide)]
  obtain ⟨started, held, left, learn, watch, grant⟩ := settle_startsWindow (f := (·.serveOrder h.slot o)) (p := q) (c := c)
    (cmd := cmd) (t := t) ((hq.waiting (by decide)).trans noneWaits) waiting rfl rfl (by rw [units]; exact room)
    ((congrArg WindowRec.pending ((windows c).trans (if_pos rfl))).trans pends)
  have burst := ((settle (·.serveOrder h.slot o) q).burstDone_does h.slot).toWithin
  refine ⟨hq.stands ((grant.head h.slot).trans taken), fun y => ?_, ?_, (burst.waiting (by decide)).trans left,
    by rw [burst.monitor]; exact learn, by rw [burst.monitor]; exact watch, hq.final (within.trans grant (M := windowGrantAreas ++ orderAreas) (by decide) (by decide))⟩
  · rw [burst.window, started, windows c, if_pos rfl, windows y, clock, within.cfg (by decide), hq.cfg (by decide)]
    split <;> rfl
  · rw [burst.holders (by decide), held, holders, clock]

/-- The targets of MOVE_WINDOW that are taken as a position, and the position each is taken as (R65, R69). -/
theorem moveTarget_taken {x : WindowRec} {cfg : Config} {t n : HostWord} {aim : Nat} (long : 1000 ≤ x.travel)
    (soft : cfg.softStopOffset ≤ 20)
    (h : (t.value = 0 ∧ aim = cfg.softStopOffset) ∨ (t.value = 1 ∧ aim = x.travel - cfg.softStopOffset) ∨
      (t.value = 2 ∧ n.value.toNat ≤ x.travel ∧
        aim = max cfg.softStopOffset (min n.value.toNat (x.travel - cfg.softStopOffset)))) :
    ∃ (g : MoveTarget) (goal : Nat), pick [MoveTarget.fullOpen, .fullClose, .position n.value.toNat, .stop] t.value = some g ∧
      (g = .position n.value.toNat → n.value.toNat ≤ x.travel) ∧ x.clampTarget cfg goal = aim ∧
      ∀ (q : Part) (k : Slot) (c : Corner), q.window c = x → q.moveOrder k c g = q.moveTo k c goal := by
  have clamp (g : Nat) : x.clampTarget cfg g = max cfg.softStopOffset (min g (x.travel - cfg.softStopOffset)) := rfl
  rcases h with ⟨v, rfl⟩ | ⟨v, rfl⟩ | ⟨v, inRange, rfl⟩
  · exact ⟨.fullOpen, 0, by rw [v]; rfl, nofun, by rw [clamp]; omega, fun _ _ _ _ => rfl⟩
  · exact ⟨.fullClose, x.travel, by rw [v]; rfl, nofun, by rw [clamp]; omega, fun q k c e => by rw [Part.moveOrder, e]⟩
  · exact ⟨.position n.value.toNat, n.value.toNat, by rw [v]; rfl, fun _ => inRange, clamp _, fun _ _ _ _ => rfl⟩

/-- The end of a MOVE_WINDOW order that changes no window. -/
theorem completes_moveEnded {s : State} {h : OrderHead} {w t n : HostWord} {c : Corner} {g : MoveTarget} (hp : s.part.accepts h)
    (hw : w.sound = true) (ht : t.sound = true) (hn : n.sound = true)
    (read : ∀ q, Part.Posted s.part h .moveWindow [w, t, n] q → q.readOrder h.slot .moveWindow = some (.moveWindow c g))
    (e : ∀ q, Part.Posted s.part h .moveWindow [w, t, n] q →
      q.moveOrder h.slot c g = ((q.orderTaken h.slot).endWatch c).endMoveOrder c h.slot .completed none)
    {post : Part → Prop}
    (done : ∀ r : Part, r.endedDone h .moveWindow .completed → Part.Within (.monitors :: orderAreas ++ burstAreas) s.part r → post r) :
    Completes (.moveWindow h w t n) s post := by
  have within (q : Part) : Part.Within (.monitors :: orderAreas) q
      (((q.orderTaken h.slot).endWatch c).endMoveOrder c h.slot .completed none) :=
    ((q.orderTaken_does h.slot).toWithin.trans (Part.endWatch_does _ c).toWithin (M := .monitors :: orderAreas)
      (by decide) (by decide)).trans (Part.orderDone_does _ _ _ _ _).toWithin (by decide) (by decide)
  refine completes_calmOrder (K := .monitors :: orderAreas) (.moveWindow c g) rfl hp rfl (by simp [hw, ht, hn]) read
    (fun q hq => by rw [Part.serveOrder, e q hq]; exact within q) fun q hq => ?_
  rw [Part.serveOrder, e q hq]
  refine done _ (hq.endedDone (.inl ?_) _ _ _) (hq.final (within q))
  exact ((Part.endWatch_does _ c).toWithin.head _).trans ((Part.orderTaken_head _ _ _).trans (if_pos rfl))

/-- A LEARN_WINDOW order taken: the learn PENDING, its command pending, its grant asked for (R91, R92). -/
def Part.learnAsked (p : Part) (k : Slot) (c : Corner) : Part :=
  ((((p.orderTaken k).setMonitor c { p.monitor c with
    learn := some ⟨.pending, k, 0, false⟩
    watch := none }).setWindow c { p.window c with
    learned := false
    pending := some ⟨⟨.opening, .manual, .order k, none, false⟩, p.clock⟩ }).markDirty (.window c)).request (.window c) .window

theorem Part.learnOrder_rest {p : Part} {k : Slot} {c : Corner} (stopped : (p.window c).motion = .stopped)
    (none : (p.window c).pending = none) (free : (p.monitor c).learn = .none) (sound : p.outOfService c = false)
    (cool : (p.window c).thermal = false) (crash : p.crashSet = false) : p.learnOrder k c = p.learnAsked k c := by
  have taken := (p.orderTaken_does k).toWithin
  have rest : (p.window c).atRest = true := by simp [WindowRec.atRest, stopped, none]
  have window (m : MonitorRec) : ((p.orderTaken k).setMonitor c m).window c = p.window c := taken.window c
  simp only [Part.learnOrder, Part.learnAsked, rest, free, sound, cool, crash, Bool.true_eq_false, Option.isSome_none,
    Bool.false_eq_true, or_self, if_false, taken.monitor, window]

theorem Part.learnAsked_fields (p : Part) (k : Slot) (c : Corner) :
    (∀ x, (p.learnAsked k c).window x = if x = c then { p.window c with
        learned := false
        pending := some ⟨⟨.opening, .manual, .order k, none, false⟩, p.clock⟩ } else p.window x) ∧
      (p.learnAsked k c).monitor c = { p.monitor c with learn := some ⟨.pending, k, 0, false⟩, watch := none } ∧
      (p.learnAsked k c).holders = p.holders ∧
      (p.learnAsked k c).waiting = p.waiting ++ [⟨.window c, 2, .window, p.clock, p.clock + 2000⟩] ∧
      (p.learnAsked k c).head k = { p.head k with state := .taken } ∧
      Part.Within (windowGrantAreas ++ orderAreas) p (p.learnAsked k c) := by
  have mark (q : Part) := (q.markDirty_does (.window c)).toWithin
  have ask (q : Part) := (q.request_does (.window c) .window).toWithin
  unfold Part.learnAsked
  refine ⟨fun x => ?_, ?_, ?_, ?_, ?_, ?_⟩
  · rw [(ask _).window, (mark _).window, Part.setWindow_window]
    simp
  · rw [(ask _).monitor, (mark _).monitor]
    simp
  · simp [Part.request]
  · simp [Part.request, placeWaiter, actuatorUnits, waitLimit]
  · rw [(ask _).head, (mark _).head]
    exact (Part.orderTaken_head _ _ _).trans (if_pos rfl)
  · refine .trans (K := windowGrantAreas ++ orderAreas) ?_ (ask _) (List.Subset.refl _) (by decide)
    refine .trans (K := windowGrantAreas ++ orderAreas) ?_ (mark _) (List.Subset.refl _) (by decide)
    refine .trans (K := windowGrantAreas ++ orderAreas) ?_ (Part.setWindow_within _ c _) (List.Subset.refl _) (by decide)
    exact (p.orderTaken_does k).toWithin.trans (Part.setMonitor_acts _ c _).toWithin (by decide) (by decide)

/-- Settles O18: a target or STOP that is there already ends the order; another target, and a learn, is one window's request,
granted at once. -/
theorem windowOrdersMoveOrLearn : Obligations.WindowOrdersMoveOrLearn := by
  unfold Obligations.WindowOrdersMoveOrLearn
  refine ⟨fun s h w t n c hp hw ht hn hc stopped none free => ⟨fun aim hAim learned sound cool long soft crash => ?_, fun stop => ?_⟩,
    fun s h w c hp hw hc stopped none free sound cool crash noneWaits room => ?_⟩
  · obtain ⟨g, goal, hg, inRange, clamp, order⟩ := moveTarget_taken (n := n) long soft hAim
    have read (q : Part) (hq : Part.Posted s.part h .moveWindow [w, t, n] q) := hq.readMoveWindow hc hg inRange
    have serves (q : Part) (hq : Part.Posted s.part h .moveWindow [w, t, n] q) :=
      (order q h.slot c (hq.window c)).trans (Part.moveTo_rest (q := q) (k := h.slot) (c := c) (aim := aim)
        (by rw [hq.window]; exact stopped) (by rw [hq.window]; exact none) (by rw [hq.monitor]; exact free)
        (by rw [hq.outOfService]; exact sound) (by rw [hq.window]; exact cool) (by rw [hq.window]; exact learned)
        (by rw [hq.window, hq.cfg (by decide)]; exact clamp) (by rw [hq.window, hq.crashSet]; exact crash))
    have done := (s.part.window c).alreadyDone_target s.part.cfg (.order h.slot) aim
    refine ⟨fun there => ?_, fun far noneWaits room => ?_⟩
    · refine completes_moveEnded hp hw ht hn read (fun q hq => ?_) fun r ended final =>
        ⟨ended, final.windows (by decide), final.holders (by decide), final.outsideWindows⟩
      rw [serves q hq, hq.window, hq.cfg (by decide), if_neg fun e => done.1 e there]
    · refine completes_order (.moveWindow c g) rfl hp rfl (by simp [hw, ht, hn]) read fun q hq => ?_
      have serve : q.serveOrder h.slot (.moveWindow c g) =
          (q.orderTaken h.slot).applyPassed c (aimCommand (.order h.slot) (s.part.window c).position aim) := by
        rw [Part.serveOrder, serves q hq, hq.window, hq.cfg (by decide), if_pos (done.2 far)]
      have taken := (q.orderTaken_does h.slot).toWithin
      have clock := taken.clock.trans hq.clock
      have window (x : Corner) := (taken.window x).trans (hq.window x)
      obtain ⟨windows, holders, waiting, -, within⟩ := Part.applyPassed_rest_fields (p := q.orderTaken h.slot) (c := c)
        (by rw [window]; exact stopped) (by rw [window]; exact none)
        (aimCommand (.order h.slot) (s.part.window c).position aim)
      obtain ⟨stands, started, held, left, -, -, final⟩ := hq.starts noneWaits room serve
        (taken.trans within (by decide) (by decide)) (by rw [within.head, Part.orderTaken_head, if_pos rfl])
        (fun x => (windows x).trans (by rw [window c, clock, window x])) rfl
        ((holders.trans (taken.holders (by decide))).trans (hq.holders (by decide)))
        (by rw [waiting, taken.waiting (by decide), hq.waiting (by decide), noneWaits, clock]; rfl)
      have moved := (started c).trans (if_pos rfl)
      have motion (w : WindowRec) (b : Prop) [Decidable b] (m : Mover) (now ramp : Nat) :
          (w.started ⟨if b then .closing else .opening, .target, m, some aim, false⟩ now ramp).motion =
            if b then .closing else .opening := by
        by_cases hb : b <;> simp [WindowRec.started, WindowRec.driving, hb, Direction.motion]
      exact ⟨stands, (congrArg WindowRec.motion moved).trans (motion _ _ _ _ _), congrArg WindowRec.mode moved,
        congrArg WindowRec.target moved, congrArg WindowRec.mover moved, congrArg WindowRec.pending moved,
        congrArg WindowRec.movingFlag moved, (congrArg WindowRec.position moved).trans rfl, held, left,
        fun y hy => (started y).trans (if_neg hy), final.outsideWindows⟩
  · refine completes_moveEnded (g := .stop) hp hw ht hn
      (fun q hq => hq.readMoveWindow hc (by rw [stop]; rfl) nofun) (fun q hq => ?_) fun r ended final =>
        ⟨ended, final.windows (by decide), final.outsideWindows⟩
    have window : q.window c = s.part.window c := hq.window c
    have monitor : q.monitor c = s.part.monitor c := hq.monitor c
    have taken (x : Corner) := (q.orderTaken_does h.slot).toWithin.window x
    have kept : (q.orderTaken h.slot).endWatch c = ((q.orderTaken h.slot).endWatch c).pendingLost c := by
      have : (((q.orderTaken h.slot).endWatch c).window c).pending = .none :=
        (congrArg WindowRec.pending ((taken c).trans window)).trans none
      rw [Part.pendingLost, Part.withdrawPending, this]
    simp only [Part.moveOrder, Part.moveStop, window, monitor, free, stopped, Option.isSome_none, Bool.false_eq_true, reduceCtorEq,
      or_self, if_false, WindowRec.underWay, decide_false, ← kept]
  · have serve (q : Part) (hq : Part.Posted s.part h .learnWindow [w] q) : q.serveOrder h.slot (.learnWindow c) = q.learnAsked h.slot c := by
      have window : q.window c = s.part.window c := hq.window c
      have monitor : q.monitor c = s.part.monitor c := hq.monitor c
      exact Part.learnOrder_rest (by rw [window]; exact stopped) (by rw [window]; exact none) (by rw [monitor]; exact free)
        ((hq.outOfService c).trans sound) (by rw [window]; exact cool) (hq.crashSet.trans crash)
    refine completes_order (.learnWindow c) rfl hp rfl (by simp [hw]) (fun q hq => ?_) fun q hq => ?_
    · have first : q.param h.slot 1 = w.value := hq.param 0 w rfl
      simp only [Part.readOrder, first, hc, pickCorner]
      rfl
    · obtain ⟨windows, monitor, holders, waiting, head, within⟩ := q.learnAsked_fields h.slot c
      obtain ⟨stands, started, held, -, learns, watch, final⟩ := hq.starts noneWaits room (serve q hq) within head
        (fun x => (windows x).trans (by rw [hq.window c, hq.window x])) rfl (holders.trans (hq.holders (by decide)))
        (by rw [waiting, hq.waiting (by decide), noneWaits, hq.clock]; rfl)
      have moved := (started c).trans (if_pos rfl)
      rw [monitor] at learns watch
      exact ⟨stands, learns, watch, congrArg WindowRec.motion moved, congrArg WindowRec.mode moved, congrArg WindowRec.mover moved,
        (congrArg WindowRec.learned moved).trans rfl, (congrArg WindowRec.travel moved).trans rfl, held,
        fun x hx => (started x).trans (if_neg hx), final.outsideWindows⟩

end Sys2Proof.Machine
end

section
/-! Orders posted outside SERVICE (R190): waiting POSTED, or refused as they are taken. -/

namespace Sys2Proof.Machine

set_option Elab.async false in -- the declarations above are finished first: this bounds the memory of the one text
theorem orderPosted_params {c : Instr} {h : OrderHead} {k : OrderKind} {ws : List HostWord} (e : orderPosted c = some (h, k, ws)) :
    k.params = ws.length := by
  cases c <;> cases e <;> rfl

/-- What stays as an order is posted outside SERVICE. -/
theorem Part.Within.restOfBoard {K : List Area} {p q : Part} {k : Slot} (w : Part.Within K p q)
    (others : ∀ x, x ≠ k → q.head x = p.head x)
    (h : (∀ a ∈ [Area.doors, .latches, .windows, .state, .monitors, .locator, .fobs, .operation, .supply, .crash, .cfg, .lockout], a ∉ K) :=
      by decide) :
    (∀ x, x ≠ k → q.head x = p.head x) ∧ q.doors = p.doors ∧ q.latches = p.latches ∧ q.windows = p.windows ∧
      p.sameElsewhere q ∧ q.state = p.state := by
  simp only [List.mem_cons, List.not_mem_nil, or_false, forall_eq_or_imp, forall_eq] at h
  obtain ⟨h1, h2, h3, h4, h5, h6, h7, h8, h9, h10, h11, h12⟩ := h
  exact ⟨others, w.doors h1, w.latches h2, w.windows h3,
    ⟨w.windows h3, w.monitors h5, w.locator h6, w.fobs h7, w.operation h8, w.supply h9, w.crash h10, w.cfg h11, w.lockout h12⟩, w.state h4⟩

/-- A row added to what stands in the scroll is added to what stood there before, the scroll and its rows being the same. -/
theorem Part.addsRow_of_same {p p' q : Part} {r : Row} (served : p'.port.served = p.port.served) (scroll : p'.scroll = p.scroll)
    (clock : p'.clock = p.clock) (rows : sameWords 480 992 p p') (h : p'.addsRow q r) : p.addsRow q r := by
  have word (j i : Nat) (hi : i < 4) : p'.unreadWord j i = p.unreadWord j i := by
    rw [Part.unreadWord, Part.unreadWord, scroll]
    exact rows _ (by omega) (by omega)
  unfold Part.addsRow at h ⊢
  rw [served, scroll, clock] at h
  split
  · rename_i room
    rw [if_pos room] at h
    obtain ⟨span, row, before⟩ := h
    exact ⟨span, row, fun j i hj hi => (before j i hj hi).trans (word j i hi)⟩
  · rename_i room
    rw [if_neg room] at h
    obtain ⟨mark, before⟩ := h
    exact ⟨mark, fun j i hj hi => (before j i hj hi).trans (word j i hi)⟩

/-- An order that ends hands over its ORDER row (R191). -/
theorem Part.endOrder_addsRow {p : Part} (t : p.tidy) (k : Slot) (st : SlotState) (code : Nat) (a b : Word) :
    p.addsRow (p.endOrder k st code a b) (orderRow k { p.head k with state := st, code := BitVec.ofNat 8 code } a) := by
  have head := p.setHead_any k { p.head k with state := st, code := BitVec.ofNat 8 code }
  have wrote := head.trans (Part.writeResults_does _ k a b) (M := .reports :: orderAreas)
  exact Part.addsRow_of_same (wrote.served (by decide)) rfl wrote.clock
    ((Part.writeResults_does _ k a b).rows (by decide)) (Part.appendRow_addsRow (wrote.tidyLaw t) _)

/-- A posted order that is refused as it is taken. -/
theorem Part.Posted.refusal {p q : Part} {h : OrderHead} {k : OrderKind} {ws : List HostWord} (hq : Part.Posted p h k ws q)
    (x : OrderRefusal) :
    let r := (q.orderRefused h.slot x).burstDone h.slot
    r.endedRefused h k x ∧ ((∀ y, y ≠ h.slot → r.head y = p.head y) ∧ r.doors = p.doors ∧ r.latches = p.latches ∧
      r.windows = p.windows ∧ p.sameElsewhere r ∧ r.state = p.state) ∧
      Memory.readWord r.port.memory (slotWord h.slot 6) = 0 ∧ Memory.readWord r.port.memory (slotWord h.slot 7) = 0 ∧
      p.addsRow r (orderRow h.slot (r.head h.slot) 0) := by
  obtain ⟨word6, word7⟩ := Part.endOrder_words hq.tidy h.slot .refused x.code 0 0
  have head : (q.orderRefused h.slot x).head h.slot = { q.head h.slot with state := .refused, code := BitVec.ofNat 8 x.code } :=
    (Part.orderRefused_head _ _ _ _ _).trans (if_pos rfl)
  refine ⟨hq.endedRefused (.inr rfl) x 0, (hq.final (M := orderAreas ++ burstAreas)
    (q.orderRefused_does h.slot x 0).toWithin).restOfBoard fun y hy => ?_, word6, word7, ?_⟩
  · rw [Part.burstDone_head, Part.orderRefused_head, if_neg hy, hq.others y hy]
  · rw [Part.burstDone_head, head]
    refine Part.addsRow_of_same (hq.served (by decide)) (hq.scroll (by decide)) hq.clock (hq.rows (by decide)) ?_
    exact Part.endOrder_addsRow hq.tidy h.slot .refused x.code 0 0

/-- Settles O23: the posted order is taken at once only in START's DRIVERS stage and in SAFE-HOLD, and refused there. -/
theorem ordersWaitOrAreRefusedOutsideService : Obligations.OrdersWaitOrAreRefusedOutsideService := by
  unfold Obligations.OrdersWaitOrAreRefusedOutsideService
  intro c s h k ws ho t served free sound sounds rest refused
  have params := orderPosted_params ho
  have short : ws.length ≤ 5 := by rw [← params]; cases k <;> decide
  obtain ⟨q, hq, e⟩ := s.part.postOrder_posted h k short t served free
  have state : q.state = s.part.state := hq.state (by decide)
  have waits (late : q.takesAtOnce = false) : Completes c s fun p =>
      p.head h.slot = ⟨.posted, BitVec.ofNat 5 k.code, h.tag, 0⟩ ∧ rest p ∧ p.scroll = s.part.scroll := by
    refine (completes_run (exec_order ho s)).2 ?_
    have alone : s.part.postOrder h k ws = q.burstDone h.slot := by
      rw [e, settle_same (f := fun q => if q.takesAtOnce then q.takeOrder h.slot else q) (by simp [late]) (by simp [late])
        (by simp [late])]
      simp [late]
    rw [alone]
    have final := hq.final (M := burstAreas) (Part.Within.refl [] q)
    exact ⟨hq.head, final.restOfBoard fun x hx => hq.others x hx, final.scroll (by decide)⟩
  have refuses {x : OrderRefusal} (atOnce : q.takesAtOnce = true) (taken : q.takeOrder h.slot = q.orderRefused h.slot x) :
      Completes c s fun p => refused p x := by
    refine (completes_run (exec_order ho s)).2 ?_
    have alone : s.part.postOrder h k ws = (q.orderRefused h.slot x).burstDone h.slot := by
      have within := (q.orderRefused_does h.slot x 0).toWithin
      rw [e, settle_within (K := orderAreas) (f := fun q => if q.takesAtOnce then q.takeOrder h.slot else q)
        (by simp only [atOnce, if_true, taken]; exact within)]
      simp only [atOnce, if_true, taken]
    rw [alone]
    exact hq.refusal x
  have checks := hq.orderSound sound params sounds
  refine ⟨fun hs => waits ?_, fun test hs => refuses ?_ ?_, fun hs => refuses ?_ ?_⟩
  · rw [Part.takesAtOnce, state]
    rcases hs with ⟨test, stage, hs, late⟩ | hs | hs <;> rw [hs]
    cases stage <;> first | rfl | exact absurd rfl late
  · rw [Part.takesAtOnce, state, hs]
  · simp [Part.takeOrder, hq.kindOf, checks, Part.inSafeHold, Part.inService, state, hs]
  · obtain ⟨f, hf⟩ : ∃ f, s.part.state = .safeHold f := by
      cases hs' : s.part.state <;> simp_all [Part.inSafeHold]
    rw [Part.takesAtOnce, state, hf]
  · have inHold : q.inSafeHold = true := by rw [Part.inSafeHold, state]; exact hs
    simp [Part.takeOrder, hq.kindOf, checks, inHold]

end Sys2Proof.Machine
end

section
/-! The crash event and RELEASE_CRASH (R166 to R171). -/

namespace Sys2Proof.Machine

/-! ### An operation that has ended does not run again -/

set_option Elab.async false in -- the declarations above are finished first: this bounds the memory of the one text
theorem Part.setEntry_runs (p : Part) (c : Corner) (e : Entry) : (p.setEntry c e).sequencerRuns = p.sequencerRuns := by
  simp only [Part.sequencerRuns, Part.setEntry, Part.setOperation]
  cases p.operation <;> rfl

theorem Part.reportGrant_runs (p : Part) (c : Corner) : (p.reportGrant c).sequencerRuns = p.sequencerRuns := by
  unfold Part.reportGrant
  split
  · rfl
  · exact p.setEntry_runs c _

theorem Part.sequencerRuns_of_within {K : List Area} {p q : Part} (w : Part.Within K p q) (h : .operation ∉ K := by decide) :
    q.sequencerRuns = p.sequencerRuns := by
  simp only [Part.sequencerRuns, w.operation h]

theorem Part.windowGranted_runs (p : Part) (c : Corner) : (p.windowGranted c).sequencerRuns = p.sequencerRuns := by
  unfold Part.windowGranted
  split
  · rfl
  · dsimp only
    have start (q : Part) (cmd : Command) := Part.sequencerRuns_of_within (q.startMove_within c cmd)
    split
    · rw [Part.reportGrant_runs, start]
      rfl
    · rw [start]
      rfl

theorem grantHeads_runs : ∀ (n : Nat) (p : Part), (grantHeads n p).sequencerRuns = p.sequencerRuns
  | 0, _ => rfl
  | n + 1, p => by
    unfold grantHeads
    split
    · rfl
    · rename_i w rest hw
      split
      · rw [grantHeads_runs n]
        cases w.actuator with
        | window c => exact Part.windowGranted_runs _ c
        | latch d =>
          exact (Part.sequencerRuns_of_within ((p.setLists _ rest).startPulse_does d).toWithin).trans
            (Part.sequencerRuns_of_within (p.setLists_within _ rest))
      · rfl

theorem settle_runs (f : Part → Part) (p : Part) : (settle f p).sequencerRuns = (f p).sequencerRuns := by
  unfold settle
  dsimp only
  split
  · rfl
  · exact grantHeads_runs _ _

theorem Part.endOperation_runs (p : Part) (out : OpOutcome) : (p.endOperation out).sequencerRuns = false := by
  unfold Part.endOperation
  split
  · rename_i h
    simp [Part.sequencerRuns, h]
  · rename_i o h
    have ended : (p.setOperation (some { o with ended := some ⟨out, p.clock⟩ })).sequencerRuns = false := by
      simp [Part.sequencerRuns, Part.setOperation, Operation.running]
    dsimp only
    split
    · rw [Part.sequencerRuns_of_within (Part.orderDone_does _ _ _ _ _).toWithin]
      exact ended
    · exact ended

theorem Part.crashOperation_runs (p : Part) : p.crashOperation.sequencerRuns = false := by
  unfold Part.crashOperation
  split
  · exact Part.endOperation_runs _ _
  · rename_i h
    exact Bool.eq_false_iff.2 h

/-! ### The holds -/

/-- A crash event leaves no tracker TRACKING or in a SESSION (R141). -/
def Tracker.settled : Tracker → Prop
  | .idle | .spent _ _ => True
  | .tracking _ _ | .session _ _ => False

theorem Part.crashTracker_fob (p : Part) (f g : Fob) :
    (g ≠ f → (p.crashTracker f).fob g = p.fob g) ∧ ((p.crashTracker f).fob f).tracker.settled := by
  unfold Part.crashTracker
  split
  · rename_i h
    exact ⟨fun _ => rfl, by rw [h]; trivial⟩
  all_goals
    refine ⟨fun hg => ?_, ?_⟩
    · simp [Part.setTracker, hg]
    · simp [Part.setTracker, Tracker.settled]

theorem Part.eachFob_crash (p : Part) (f : Fob) : ((p.eachFob Part.crashTracker).fob f).tracker.settled := by
  have others (q : Part) (g : Fob) (h : f ≠ g) := (q.crashTracker_fob g f).1 h
  have own (q : Part) (g : Fob) := (q.crashTracker_fob g g).2
  simp only [Part.eachFob, Fob.all, List.foldl_cons, List.foldl_nil]
  cases f
  · rw [others _ _ (by decide), others _ _ (by decide), others _ _ (by decide)]
    exact own _ _
  · rw [others _ _ (by decide), others _ _ (by decide)]
    exact own _ _
  · rw [others _ _ (by decide)]
    exact own _ _
  · exact own _ _

/-! ### The event and the release of the latch -/

/-- What a crash event changes but for the latch. -/
abbrev crashWorkAreas : List Area := .doors :: .fobs :: stopAreas

/-- The crash event once the latch is set and its row handed over. -/
theorem Part.crashEvent_within (p : Part) :
    Part.Within crashWorkAreas { p with crash := { p.crash with latch := some p.nextLatch } } p.crashEvent := by
  unfold Part.crashEvent
  dsimp only
  exact (Part.Does.after (Part.eachFob_does _ Part.crashTracker_does) (.after (Part.crashOperation_does _)
    (.after (Part.eachCorner_does _ Part.windowCrash_does) (.after (Part.crashDoors_does _)
      (.mono (Part.appendRow_does _ _)))))).toWithin

/-- The doors after a crash event (R167). -/
theorem Part.crashEvent_doors (p : Part) :
    (∀ d, p.crashEvent.door d = { p.door d with lock := .unlocked }) ∧ p.crashEvent.doors.relock = none ∧
      p.crashEvent.doors.press = none ∧ p.crashEvent.doors.driveAway = p.doors.driveAway ∧
      p.crashEvent.doors.vehicle = p.doors.vehicle := by
  unfold Part.crashEvent
  dsimp only
  generalize hq : Part.appendRow _ _ = q
  have doors : q.doors = p.doors := by rw [← hq]; simp
  have after : (((q.crashDoors.eachCorner Part.windowCrash).crashOperation).eachFob Part.crashTracker).doors = q.crashDoors.doors := by
    rw [(Part.eachFob_does _ Part.crashTracker_does).doors (by decide), (Part.crashOperation_does _).doors (by decide),
      (Part.eachCorner_does _ Part.windowCrash_does).doors (by decide)]
  obtain ⟨locks, -, -, relock, press, -, away, vehicle, -⟩ := q.crashDoors_doors
  refine ⟨fun d => ?_, by rw [after, relock], by rw [after, press], by rw [after, away, doors], by rw [after, vehicle, doors]⟩
  rw [Part.door, after]
  exact (locks d).trans (by rw [Part.door, doors]; rfl)

theorem Part.crashEvent_ends (p : Part) : p.crashEvent.sequencerRuns = false ∧ ∀ f, (p.crashEvent.fob f).tracker.settled := by
  unfold Part.crashEvent
  dsimp only
  exact ⟨(Part.sequencerRuns_of_within (Part.eachFob_does _ Part.crashTracker_does).toWithin).trans (Part.crashOperation_runs _),
    fun f => Part.eachFob_crash _ f⟩

/-- Settles O21: RELEASE_CRASH by the owner's cases; CRASH_EVENT by `crashEvent_safe`, which the grants after it keep. -/
theorem crashEventOpensTheCarUntilReleased : Obligations.CrashEventOpensTheCarUntilReleased := by
  unfold Obligations.CrashEventOpensTheCarUntilReleased
  refine ⟨fun s h hp => ?_, fun s a ha taken old serves awake => ?_⟩
  · have order {post : Part → Prop} (served : ∀ q, Part.Posted s.part h .releaseCrash [] q →
        post ((q.releaseCrash h.slot).burstDone h.slot)) : Completes (.releaseCrash h) s post :=
      completes_calmOrder (K := .crash :: orderAreas) .releaseCrash rfl hp rfl (by simp) (fun _ _ => rfl)
        (fun q _ => (q.releaseCrash_does h.slot).toWithin) served
    refine ⟨fun ign still => order fun q hq => ?_, fun latched moving => order fun q hq => ?_⟩
    · have final := hq.final (M := .crash :: orderAreas ++ burstAreas) (q.releaseCrash_does h.slot).toWithin
      have cleared : ∃ (r : Part) (w : Word), (r.head h.slot = { q.head h.slot with state := .taken } ∨ r.head h.slot = q.head h.slot) ∧
          r.crash.latch = none ∧ q.releaseCrash h.slot = r.orderDone h.slot .completed w := by
        unfold Part.releaseCrash
        split
        · rename_i none
          exact ⟨q, _, .inr rfl, none, rfl⟩
        · rename_i l _
          rw [hq.doors (by decide), if_neg (by simp [ign, still])]
          refine ⟨_, _, .inl ((Part.orderTaken_head _ _ _).trans (if_pos rfl |>.trans ?_)), ?_, rfl⟩
          · have head (x : Part) (hx : x.heads = q.heads) : x.head h.slot = q.head h.slot := by rw [Part.head, hx, Part.head]
            rw [head]
            split <;> simp [Part.setAssertion]
          · simp only [Part.orderTaken_fields]
            split <;> simp [Part.setAssertion]
      obtain ⟨r, w, head, latch, e⟩ := cleared
      have crash : ((r.orderDone h.slot .completed w).burstDone h.slot).crash = r.crash :=
        (Part.orderDone_does _ _ _ _ _).crash (by decide)
      rw [e] at final ⊢
      exact ⟨hq.endedDone head _ _ _, by rw [crash]; exact latch, final.doors (by decide), final.windows (by decide)⟩
    · have refused : q.releaseCrash h.slot = q.orderRefused h.slot .vehicleMoving := by
        have set : q.crashSet = true := by rw [hq.crashSet]; exact latched
        unfold Part.releaseCrash
        split
        · rename_i none
          simp [Part.crashSet, none] at set
        · exact if_pos (by rw [hq.doors (by decide)]; exact moving)
      have final := hq.final (M := orderAreas ++ burstAreas) (q.orderRefused_does h.slot .vehicleMoving 0).toWithin
      rw [refused]
      exact ⟨hq.endedRefused (.inr rfl) _ _, final.crash (by decide), final.doors (by decide)⟩
  · refine (completes_run (f := (·.crashExpiry)) rfl).2 ?_
    have acts : s.part.crashExpiry = settle (fun q => q.markAssertion.crashEvent) s.part := by
      unfold Part.crashExpiry
      rw [if_pos (by simp [serves, ha, Assertion.due, taken, old]), if_neg awake]
    have mark : s.part.markAssertion = s.part.setAssertion (some ⟨a.since, true⟩) := by simp [Part.markAssertion, ha]
    have within := s.part.markAssertion.crashEvent_within
    obtain ⟨locks, relock, press, away, vehicle⟩ := s.part.markAssertion.crashEvent_doors
    obtain ⟨ended, settled⟩ := s.part.markAssertion.crashEvent_ends
    have full : s.part.markAssertion.state ≠ .start .full .drivers := fun e => by
      have : s.part.state = .start .full .drivers := e
      simp [Part.doorService, this] at serves
    have grants := settle_grants (fun q => q.markAssertion.crashEvent) s.part
    have runs := (settle_runs (fun q => q.markAssertion.crashEvent) s.part).trans ended
    have safe := grants.crashLaw (s.part.markAssertion.crashEvent_safe full)
    rw [← acts] at grants runs safe
    have crash : s.part.crashExpiry.crash = ⟨some s.part.markAssertion.nextLatch, some ⟨a.since, true⟩⟩ := by
      rw [grants.crash (by decide), within.crash (by decide), mark]
      rfl
    have doors := grants.doors (by decide)
    obtain ⟨held, pending⟩ := safe
    have set : s.part.crashExpiry.crashSet = true := by simp [Part.crashSet, crash]
    obtain ⟨-, childRL, childRR, closing⟩ := held set
    obtain ⟨opening, -⟩ := pending set
    refine ⟨by rw [crash], ?_, fun d => ?_, childRL, childRR, by rw [doors, relock], by rw [doors, press], by rw [doors, away]; rfl,
      by rw [doors, vehicle]; rfl, fun c => ⟨closing c, opening c⟩, runs, ?_, ?_, ?_, fun f b t => ?_⟩
    · rw [crash, mark]
      show some (Part.nextLatch _) = _
      unfold Part.nextLatch Part.setAssertion
      cases s.part.crash.latch <;> rfl
    · have door : s.part.crashExpiry.door d = _ := (grants.toWithin.door d).trans (locks d)
      rw [door]
      exact ⟨rfl, rfl, rfl⟩
    · exact (grants.state (by decide)).trans (within.state (by decide))
    · exact (grants.supply (by decide)).trans (within.supply (by decide))
    · exact (grants.locator (by decide)).trans (within.locator (by decide))
    · obtain ⟨-, -, -, -, -, tracker, -⟩ := grants.fobs (by decide) f
      have spent := settled f
      rw [tracker]
      refine ⟨fun e => ?_, fun e => ?_⟩ <;> (rw [e] at spent; exact spent)

end Sys2Proof.Machine
end

section
/-! What an operation was begun as, which its windows' reports and its end leave (R150 to R155), and the orders that begin one. -/

namespace Sys2Proof.Machine

/-- What an operation was begun as. -/
structure OpHeader where
  kind : OpKind
  origin : Origin
  since : Nat
  lock : Option LockAction

def Operation.header (o : Operation) : OpHeader := ⟨o.kind, o.origin, o.since, o.lock⟩

def Part.opHeader (p : Part) : Option OpHeader := p.operation.map Operation.header

set_option Elab.async false in -- the declarations above are finished first: this bounds the memory of the one text
theorem Part.Within.opHeader {K : List Area} {p q : Part} (w : Part.Within K p q) (h : .operation ∉ K := by decide) :
    q.opHeader = p.opHeader := by rw [Part.opHeader, w.operation h, Part.opHeader]

/-! ### Reports and ends -/

theorem Part.setEntry_opHeader (p : Part) (c : Corner) (e : Entry) : (p.setEntry c e).opHeader = p.opHeader := by
  simp only [Part.opHeader, Part.setEntry, Part.setOperation]
  cases p.operation <;> rfl

theorem Part.endOperation_opHeader (p : Part) (out : OpOutcome) : (p.endOperation out).opHeader = p.opHeader := by
  unfold Part.endOperation
  split
  · rfl
  · rename_i o h
    have ended : (p.setOperation (some { o with ended := some ⟨out, p.clock⟩ })).opHeader = p.opHeader := by
      simp [Part.opHeader, Part.setOperation, h, Operation.header]
    dsimp only
    split
    · rw [(Part.orderDone_does _ _ _ _ _).toWithin.opHeader, ended]
    · exact ended

theorem Part.judgeOperation_opHeader (p : Part) : p.judgeOperation.opHeader = p.opHeader := by
  unfold Part.judgeOperation
  split
  · rfl
  · split
    · exact Part.endOperation_opHeader _ _
    · rfl

theorem Part.reportEnd_opHeader (p : Part) (c : Corner) (r : EntryReason) (judge : Bool) :
    (p.reportEnd c r judge).opHeader = p.opHeader := by
  unfold Part.reportEnd
  split
  · rfl
  · dsimp only
    split
    · rw [Part.judgeOperation_opHeader, Part.setEntry_opHeader]
    · exact Part.setEntry_opHeader _ _ _

theorem Part.reportGrant_opHeader (p : Part) (c : Corner) : (p.reportGrant c).opHeader = p.opHeader := by
  unfold Part.reportGrant
  split
  · rfl
  · exact Part.setEntry_opHeader _ _ _

theorem Part.clampPosition_within (p : Part) (c : Corner) : Part.Within startAreas p (p.clampPosition c) :=
  (p.clampPosition_does c).toWithin.mono (by decide)

theorem Part.endLearn_opHeader (p : Part) (c : Corner) (o : OrderOutcome) (n : Option Nat) (clamp : Bool) :
    (p.endLearn c o n clamp).opHeader = p.opHeader := by
  unfold Part.endLearn
  split
  · rfl
  · rename_i l _
    have ended (a b : Word) : ((p.closeLearn c l (some o) n).orderDone l.slot o a b).opHeader = p.opHeader := by
      rw [(Part.orderDone_does _ _ _ _ _).toWithin.opHeader, (p.closeLearn_does c l _ n).toWithin.opHeader]
    dsimp only
    split
    · rw [(Part.clampPosition_within _ c).opHeader, ended]
    · exact ended _ _

theorem Part.tellMover_opHeader (p : Part) (c : Corner) (m : Option Mover) (o : OrderOutcome) (e : EntryReason)
    (stop : Option StopReason) (judge : Bool) : (p.tellMover c m o e stop judge).opHeader = p.opHeader := by
  unfold Part.tellMover
  split
  · rfl
  · rfl
  · rfl
  · exact p.reportEnd_opHeader c e judge
  · split
    · exact p.endLearn_opHeader c o _ _
    · exact (p.endMoveOrder_does c _ o stop).toWithin.opHeader

/-! ### Commands and grants -/

theorem Part.moverLoses_opHeader (p : Part) (c : Corner) (old : Option Mover) (new : Mover) (stop : Option StopReason) :
    (p.moverLoses c old new stop).opHeader = p.opHeader := by
  unfold Part.moverLoses
  split
  · rfl
  · exact p.tellMover_opHeader c old _ _ _ _

theorem Part.withdrawPending_opHeader (p : Part) (c : Corner) (o : OrderOutcome) (e : EntryReason) (judge : Bool) :
    (p.withdrawPending c o e judge).opHeader = p.opHeader := by
  unfold Part.withdrawPending
  split
  · rfl
  · rw [Part.tellMover_opHeader, (p.dropPending_acts c).toWithin.opHeader]

theorem Part.applyDone_opHeader (p : Part) (c : Corner) (cmd : Command) (r : StopReason) :
    (p.applyDone c cmd r).opHeader = p.opHeader := by
  have watch := (p.endWatch_does c).toWithin.opHeader
  unfold Part.applyDone
  dsimp only
  split
  · rw [Part.moverLoses_opHeader, (Part.stopWindow_acts _ c r).toWithin.opHeader, watch]
  · split
    · exact watch
    · split
      · rw [(Part.dropPending_acts _ c).toWithin.opHeader, watch]
      · exact (Part.withdrawPending_opHeader _ c _ _ _).trans watch

theorem Part.applyPassed_opHeader (p : Part) (c : Corner) (cmd : Command) : (p.applyPassed c cmd).opHeader = p.opHeader := by
  have watch := (p.endWatch_does c).toWithin.opHeader
  unfold Part.applyPassed
  dsimp only
  split
  · split
    · rw [(Part.appendRow_does _ _).toWithin.opHeader, (Part.setMonitor_acts _ c _).toWithin.opHeader,
        (Part.setWindow_within _ c _).opHeader, Part.moverLoses_opHeader, watch]
    · rw [(Part.startMove_within _ c cmd).opHeader, Part.moverLoses_opHeader, (Part.halt_acts _ c _).toWithin.opHeader, watch]
  · split
    · rw [(Part.request_does _ _ _).toWithin.opHeader, (Part.setWindow_within _ c _).opHeader, watch]
    · rw [(Part.setWindow_within _ c _).opHeader, Part.moverLoses_opHeader, watch]

theorem Part.answer_opHeader (k : OpKind) (p : Part) (c : Corner) : (p.answer k c).opHeader = p.opHeader := by
  unfold Part.answer
  split
  · exact p.setEntry_opHeader c _
  · dsimp only
    split
    · exact p.setEntry_opHeader c _
    · rw [Part.setEntry_opHeader, (p.noteRefusal_does c _).toWithin.opHeader]
    · rw [Part.setEntry_opHeader, Part.applyDone_opHeader]
    · rw [Part.setEntry_opHeader, Part.applyPassed_opHeader]

theorem Part.tellGrant_opHeader (p : Part) (a : Actuator) : (p.tellGrant a).opHeader = p.opHeader := by
  cases a with
  | latch d => exact (p.startPulse_does d).toWithin.opHeader
  | window c =>
    show (p.windowGranted c).opHeader = _
    unfold Part.windowGranted
    split
    · rfl
    · dsimp only
      split
      · rw [Part.reportGrant_opHeader, (Part.startMove_within _ c _).opHeader, (Part.setMonitor_acts _ c _).toWithin.opHeader]
      · rw [(Part.startMove_within _ c _).opHeader, (Part.setMonitor_acts _ c _).toWithin.opHeader]

theorem grantHeads_opHeader : ∀ (n : Nat) (p : Part), (grantHeads n p).opHeader = p.opHeader
  | 0, _ => rfl
  | n + 1, p => by
    unfold grantHeads
    split
    · rfl
    · split
      · rw [grantHeads_opHeader n, Part.tellGrant_opHeader, (p.setLists_within _ _).opHeader]
      · rfl

theorem settle_opHeader (f : Part → Part) (p : Part) : (settle f p).opHeader = (f p).opHeader := by
  unfold settle
  dsimp only
  split
  · rfl
  · exact grantHeads_opHeader _ _

theorem Part.eachCorner_issue_opHeader (k : OpKind) (p : Part) : (p.eachCorner (Part.issue k)).opHeader = p.opHeader := by
  have issue (q : Part) (c : Corner) : (q.issue k c).opHeader = q.opHeader :=
    (settle_opHeader (Part.answer k · c) q).trans (q.answer_opHeader k c)
  simp only [Part.eachCorner, Corner.all, List.foldl_cons, List.foldl_nil, issue]

/-! ### Beginning an operation -/

/-- The record of an operation that begins says what it was begun as. -/
theorem Part.beginOperation_opHeader (p : Part) (k : OpKind) (o : Origin) :
    (p.beginOperation k o).opHeader = some ⟨k, o, p.clock, k.lock.map p.doors.taken⟩ := by
  have clock (a : LockAction) := (p.lockAction_does .sequencer a allDoors).clock
  have begun (q : Part) : (q.setOperation (some ⟨k, o, q.clock, k.lock.map p.doors.taken,
      PerCorner.all ⟨.waiting, none, none⟩, none⟩)).opHeader = some ⟨k, o, q.clock, k.lock.map p.doors.taken⟩ := rfl
  unfold Part.beginOperation
  dsimp only
  rw [Part.judgeOperation_opHeader, Part.eachCorner_issue_opHeader, begun]
  cases k <;> simp only [OpKind.lock, clock]

/-- The doors as an operation begins are those its lock action leaves. -/
theorem Part.beginOperation_doors (p : Part) (k : OpKind) (o : Origin) :
    (∀ a, k.lock = some a → (p.beginOperation k o).doors = (p.lockAction .sequencer a allDoors).doors) ∧
      (k.lock = none → (p.beginOperation k o).doors = p.doors) := by
  have windows (q : Part) (x : Operation) : (((q.setOperation (some x)).eachCorner (Part.issue k)).judgeOperation).doors = q.doors := by
    rw [(Part.judgeOperation_does _).doors (by decide), (Part.eachCorner_does _ fun q c => q.issue_does k c).doors (by decide)]
    rfl
  unfold Part.beginOperation
  refine ⟨fun a h => ?_, fun h => ?_⟩ <;> simp only [h, windows]

/-- A combined order that is refused (R150, R151). -/
theorem completes_combinedRefused {c : Instr} {k : OrderKind} {op : OpKind} {s : State} {h : OrderHead}
    (ho : orderPosted c = some (h, k, [])) (hp : s.part.accepts h) (hk : k.params = 0)
    (read : ∀ q : Part, q.readOrder h.slot k = some (.combined op)) (busy : s.part.sequencerRuns = true) :
    Completes c s fun p => p.endedRefused h k .busy ∧ p.operation = s.part.operation ∧ p.doors = s.part.doors := by
  have refused (q : Part) (hq : Part.Posted s.part h k [] q) :
      q.serveOrder h.slot (.combined op) = q.orderRefused h.slot .busy := by
    have runs : q.sequencerRuns = true := (Part.sequencerRuns_of_within hq.toWithin).trans busy
    simp only [Part.serveOrder, Part.combinedOrder, Part.operationRefusal, runs, if_true]
  have within (q : Part) := (q.orderRefused_does h.slot .busy 0).toWithin
  refine completes_calmOrder (K := orderAreas) (.combined op) ho hp hk (by simp) (fun q _ => read q)
    (fun q hq => by rw [refused q hq]; exact within q) fun q hq => ?_
  have final := hq.final (M := orderAreas ++ burstAreas) (within q)
  rw [refused q hq]
  exact ⟨hq.endedRefused (.inr rfl) _ _, final.operation (by decide), final.doors (by decide)⟩

/-- A combined order that begins its operation. -/
theorem completes_combined {c : Instr} {k : OrderKind} {op : OpKind} {s : State} {h : OrderHead}
    (ho : orderPosted c = some (h, k, [])) (hp : s.part.accepts h) (hk : k.params = 0)
    (read : ∀ q : Part, q.readOrder h.slot k = some (.combined op)) (idle : s.part.sequencerRuns = false)
    (clear : op = .comfortClose → s.part.crashSet = false) :
    Completes c s fun p =>
      (∃ o, p.operation = some o ∧ o.kind = op ∧ o.origin = .order h.slot ∧ o.since = s.part.clock ∧
        o.lock = op.lock.map s.part.doors.taken) ∧
      ∃ x : Part, x.doors = s.part.doors ∧ x.crashSet = s.part.crashSet ∧
        (∀ a, op.lock = some a → p.doors = (x.lockAction .sequencer a allDoors).doors) ∧ (op.lock = none → p.doors = x.doors) := by
  refine completes_order (.combined op) ho hp hk (by simp) (fun q _ => read q) fun q hq => ?_
  have runs : q.sequencerRuns = false := (Part.sequencerRuns_of_within hq.toWithin).trans idle
  have open_ : q.operationRefusal op = none := by
    simp only [Part.operationRefusal, runs, Bool.false_eq_true, if_false]
    exact if_neg fun ⟨e, set⟩ => by rw [hq.crashSet, clear e] at set; cases set
  have serve : q.serveOrder h.slot (.combined op) = (q.orderTaken h.slot).beginOperation op (.order h.slot) := by
    simp only [Part.serveOrder, Part.combinedOrder, open_]
  have taken := (q.orderTaken_does h.slot).toWithin
  have header := (q.orderTaken h.slot).beginOperation_opHeader op (.order h.slot)
  obtain ⟨locks, unlocked⟩ := (q.orderTaken h.slot).beginOperation_doors op (.order h.slot)
  have grants := (settle_grants (·.serveOrder h.slot (.combined op)) q).toWithin
  have burst := ((settle (·.serveOrder h.slot (.combined op)) q).burstDone_does h.slot).toWithin
  have begun := (burst.opHeader).trans (settle_opHeader (·.serveOrder h.slot (.combined op)) q)
  rw [serve, header, taken.clock, hq.clock, taken.doors (by decide), hq.doors (by decide)] at begun
  refine ⟨?_, q.orderTaken h.slot, (taken.doors (by decide)).trans (hq.doors (by decide)),
    (taken.crashSet).trans hq.crashSet, fun a ha => ?_, fun none => ?_⟩
  · obtain ⟨o, ho, e⟩ := Option.map_eq_some_iff.1 begun
    exact ⟨o, ho, congrArg OpHeader.kind e, congrArg OpHeader.origin e, congrArg OpHeader.since e, congrArg OpHeader.lock e⟩
  · rw [burst.doors (by decide), grants.doors (by decide), serve, locks a ha]
  · rw [burst.doors (by decide), grants.doors (by decide), serve, unlocked none]

/-- The locks after a lock action on all doors that the crash latch does not bar. -/
theorem Part.lockAction_allDoors {p : Part} {a : LockAction} (h : p.lockRefused a = false) (src : LockSource) (d : Door) :
    ((p.lockAction src a allDoors).door d).lock = lockAfter (p.doors.taken a) (p.door d) := by
  obtain ⟨locks, -⟩ := p.takeLock_doors src a allDoors
  rw [Part.lockAction_taken h, locks d]
  show p.lockTargets a allDoors d = _
  rw [Part.lockTargets, if_pos (by cases d <;> rfl)]

/-- Settles O20: `completes_combined` for each kind, its lock action by `lockAction_allDoors`. -/
theorem combinedOrdersBeginAnOperation : Obligations.CombinedOrdersBeginAnOperation := by
  unfold Obligations.CombinedOrdersBeginAnOperation
  intro s h hp starts
  refine ⟨fun idle => ⟨fun clear => ?_, ?_, ?_⟩, fun busy =>
    ⟨completes_combinedRefused (op := .comfortClose) rfl hp rfl (fun _ => rfl) busy,
      completes_combinedRefused (op := .comfortOpen) rfl hp rfl (fun _ => rfl) busy,
      completes_combinedRefused (op := .vent) rfl hp rfl (fun _ => rfl) busy⟩⟩
  · obtain ⟨t, e, pending, begun, x, same, latch, doors, -⟩ :=
      completes_combined (op := .comfortClose) (c := .comfortClose h) rfl hp rfl (fun _ => rfl) idle fun _ => clear
    refine ⟨t, e, pending, begun, fun d => ?_⟩
    rw [Part.door, doors _ rfl]
    show ((x.lockAction .sequencer .lock allDoors).door d).lock ≠ _
    rw [Part.lockAction_allDoors (by simp [Part.lockRefused, latch, clear])]
    obtain ⟨unlocked, others⟩ := lockAfter_lock (x.door d)
    by_cases hl : (x.door d).lock = .unlocked
    · show lockAfter .lock _ ≠ _
      rw [unlocked hl]
      split <;> nofun
    · exact fun e => hl ((others hl).symm.trans e)
  · obtain ⟨t, e, pending, begun, x, -, -, doors, -⟩ :=
      completes_combined (op := .comfortOpen) (c := .comfortOpen h) rfl hp rfl (fun _ => rfl) idle nofun
    refine ⟨t, e, pending, begun, fun d => ?_⟩
    rw [Part.door, doors _ rfl]
    show ((x.lockAction .sequencer .unlock allDoors).door d).lock = _
    rw [Part.lockAction_allDoors (by simp [Part.lockRefused])]
    exact lockAfter_unlock _
  · obtain ⟨t, e, pending, begun, x, same, -, -, doors⟩ :=
      completes_combined (op := .vent) (c := .vent h) rfl hp rfl (fun _ => rfl) idle nofun
    exact ⟨t, e, pending, begun, (doors rfl).trans same⟩

end Sys2Proof.Machine
end

section
/-! The parity marks a posting burst leaves alone (R186), for the owners that look at words outside the board. -/

namespace Sys2Proof.Machine

set_option Elab.async false in -- the declarations above are finished first: this bounds the memory of the one text
/-- Host words stored one after the other leave the marks behind them. -/
theorem Part.storeFrom_parity_beyond : ∀ (ws : List HostWord) (p : Part) (n : Nat) {i : Nat}, n + ws.length ≤ i →
    Memory.readByte (p.storeFrom n ws).port.parity i = Memory.readByte p.port.parity i
  | [], _, _, _, _ => rfl
  | w :: ws, p, n, i, h => by
    simp only [List.length_cons] at h
    have rest := Part.storeFrom_parity_beyond ws (p.storeHost n w) (n + 1) (i := i) (by omega)
    exact rest.trans (Memory.readByte_writeByte_ne (by omega) _)

/-- The marks outside the words of a slot are the same. -/
def sameMarks (k : Slot) (p q : Part) : Prop :=
  ∀ i, i < slotWord k 0 ∨ slotWord k 8 ≤ i → Memory.readByte q.port.parity i = Memory.readByte p.port.parity i

/-- The part with a posting burst's words in the slot and its head POSTED, before the order is taken. -/
def Part.placed (p : Part) (h : OrderHead) (kind : OrderKind) (l : List HostWord) : Part :=
  (p.storeFrom (352 + 8 * h.slot.val + 1) l).markHead h.slot kind h.tag h.sound

theorem Part.storeFrom_head (p : Part) (n : Nat) (ws : List HostWord) (k : Slot) : (p.storeFrom n ws).head k = p.head k := by
  rw [Part.storeFrom_other]
  rfl

/-- A posting burst at a free slot, as far as the memory goes. -/
theorem Part.writeBurst_posting {p : Part} {h : OrderHead} {kind : OrderKind} {ws l : List HostWord}
    (burst : postingBurst h kind ws = ⟨headWord 1 kind.code h.tag, h.sound⟩ :: l) (length : l.length = 5)
    (served : p.port.served = true) (free : (p.head h.slot).state = .free) :
    p.writeBurst (slotStart h.slot) (postingBurst h kind ws) =
      (settle (fun q => if q.takesAtOnce then q.takeOrder h.slot else q) (p.placed h kind l)).burstDone h.slot := by
  have stored : ((p.storeFrom (352 + 8 * h.slot.val + 1) l).head h.slot).state = .free := by rw [Part.storeFrom_head, free]
  have acts : p.takeWords (burstWords (slotStart h.slot).toNat (postingBurst h kind ws)) =
      settle (fun q => if q.takesAtOnce then q.takeOrder h.slot else q) (p.placed h kind l) := by
    unfold Part.takeWords
    rw [if_pos served, burst, burstWords_slot _ _ _ (by omega), List.foldl_cons, List.foldl_cons, Part.hostWrite_head,
      foldl_slotWords _ _ _ _ (by omega) (by omega) free, Part.burstHead_posts _ _ _ stored, foldl_noHead _ _ _ _ (by omega) (by omega)]
    rfl
  unfold Part.writeBurst
  rw [acts, slotStart_toNat, burst, List.length_cons, length]
  rfl

/-- A posting burst in SERVICE, with the marks and the dwell it leaves: the order is served as its owner's answer. -/
theorem Part.postOrder_restarts {p : Part} {h : OrderHead} (hp : p.accepts h) {kind : OrderKind} {ws : List HostWord}
    (hl : kind.params = ws.length) (hw : ∀ w ∈ ws, w.sound = true) :
    ∃ q, Part.Posted p h kind ws q ∧ (sameMarks h.slot p q ∧ q.dwell = some (p.clock + p.cfg.dozeDwell)) ∧
      ∀ o, q.readOrder h.slot kind = some o →
        p.postOrder h kind ws = (settle (·.serveOrder h.slot o) q).burstDone h.slot := by
  obtain ⟨tidy, service, served, free, sound⟩ := hp
  obtain ⟨l, e, length, get⟩ := postingBurst_eq h kind ws (by rw [← hl]; cases kind <;> decide)
  have taken := p.burstTaken_does .link
  have served : (p.burstTaken .link).port.served = true := (taken.served (by decide)).trans served
  have free : ((p.burstTaken .link).head h.slot).state = .free := by rw [taken.toWithin.head]; exact free
  have parity : (p.burstTaken .link).port.parity = p.port.parity := taken.parity (by decide)
  have posted := (Part.posted _ (taken.tidyLaw tidy) h kind ws l length get).after
  let q := (p.burstTaken .link).placed h kind l
  have posted : Part.Posted p h kind ws q := posted
  have inService : q.state = .service := (posted.state (by decide)).trans service
  refine ⟨q, posted, ⟨fun i hi => ?_, ?_⟩, fun o ho => ?_⟩
  · simp only [slotWord, Nat.add_zero] at hi
    have outside : Memory.readByte q.port.parity i =
        Memory.readByte ((p.burstTaken .link).storeFrom (352 + 8 * h.slot.val + 1) l).port.parity i :=
      Memory.readByte_writeByte_ne (by simp only [slotWord]; omega) _
    rw [outside, ← parity]
    rcases hi with hi | hi
    · obtain ⟨-, before, -⟩ := Part.storeFrom_parity l (p.burstTaken .link) (352 + 8 * h.slot.val + 1) (by rw [parity]; exact tidy.2.1)
      exact before i (by omega)
    · exact Part.storeFrom_parity_beyond l _ _ (by omega)
  · have stored : q.dwell = (p.burstTaken .link).dwell := by
      show ((p.burstTaken .link).storeFrom (352 + 8 * h.slot.val + 1) l).dwell = _
      rw [Part.storeFrom_other]
    rw [stored, Part.burstTaken, if_neg (by simp [service]), Part.activity, if_pos (by simp [Part.inService, service])]
    rfl
  · have serve : settle (fun q => if q.takesAtOnce then q.takeOrder h.slot else q) q = settle (·.serveOrder h.slot o) q := by
      refine settle_from ?_ rfl rfl rfl
      rw [if_pos (by simp [Part.takesAtOnce, inService])]
      exact q.takeOrder_serves h.slot posted.kindOf (posted.orderSound sound hl hw) inService ho
    unfold Part.postOrder Part.memoryWrite
    rw [Part.writeBurst_posting e length served free, ← serve]

theorem Part.postOrder_marked {p : Part} {h : OrderHead} (hp : p.accepts h) {kind : OrderKind} {ws : List HostWord}
    (hl : kind.params = ws.length) (hw : ∀ w ∈ ws, w.sound = true) :
    ∃ q, Part.Posted p h kind ws q ∧ sameMarks h.slot p q ∧ ∀ o, q.readOrder h.slot kind = some o →
      p.postOrder h kind ws = (settle (·.serveOrder h.slot o) q).burstDone h.slot := by
  obtain ⟨q, posted, ⟨marks, -⟩, e⟩ := Part.postOrder_restarts hp hl hw
  exact ⟨q, posted, marks, e⟩

/-- An accepted order command, with the marks the posting leaves. -/
theorem completes_markedOrder {c : Instr} {h : OrderHead} {k : OrderKind} {ws : List HostWord} {s : State} (o : Order)
    (ho : orderPosted c = some (h, k, ws)) (hp : s.part.accepts h) (hl : k.params = ws.length)
    (hw : ∀ w ∈ ws, w.sound = true) {post : Part → Prop}
    (read : ∀ q, Part.Posted s.part h k ws q → q.readOrder h.slot k = some o)
    (served : ∀ q, Part.Posted s.part h k ws q → sameMarks h.slot s.part q →
      post ((settle (·.serveOrder h.slot o) q).burstDone h.slot)) : Completes c s post := by
  obtain ⟨q, posted, marks, e⟩ := Part.postOrder_marked hp hl hw
  refine (completes_run (exec_order ho s)).2 ?_
  rw [e o (read q posted)]
  exact served q posted marks

end Sys2Proof.Machine
end

section
/-! Fob orders: what a changed record, the block and the order come to (R143 to R145). -/

namespace Sys2Proof.Machine

/-! ### The record changed -/

set_option Elab.async false in -- the declarations above are finished first: this bounds the memory of the one text
theorem Part.setFob_same (p : Part) (f : Fob) : p.setFob f (p.fob f) = p := by cases f <;> rfl

/-- The tracker of a record that holds nothing ends without a word. -/
theorem Part.endTracker_idle {p : Part} {f : Fob} (h : (p.fob f).tracker = .idle) (cause : HoldCause) : p.endTracker f cause = p := by
  have same : ({ p.fob f with tracker := .idle } : FobRec) = p.fob f := by rw [← h]
  unfold Part.endTracker
  rw [h]
  show p.setFob f { p.fob f with tracker := .idle } = p
  rw [same, Part.setFob_same]

/-- A changed record waits for its commit; the order that asked for it stands, where it is not the one that waited before. -/
theorem Part.changeFob_leaves {p : Part} {f : Fob} {k : Slot} (other : ∀ x, (p.fob f).waits = some x → x.slot ≠ k) (r : FobRec) (row : Row) :
    (p.changeFob f k r row).head k = { p.head k with state := .taken } ∧
      ({ r with waits := some ⟨k, false⟩ } : FobRec).same ((p.changeFob f k r row).fob f) ∧
      ∀ g, g ≠ f → (p.fob g).same ((p.changeFob f k r row).fob g) := by
  let q := ((p.orderTaken k).setFob f { r with waits := some ⟨k, false⟩ }).appendRow row
  have head : q.head k = { p.head k with state := .taken } :=
    ((Part.appendRow_does _ row).toWithin.head k).trans ((Part.orderTaken_head p k k).trans (if_pos rfl))
  have fob (g : Fob) : q.fob g = if g = f then { r with waits := some ⟨k, false⟩ } else p.fob g := by
    rw [(Part.appendRow_does _ row).toWithin.fob, Part.setFob_fob, (p.orderTaken_does k).toWithin.fob]
  have marked (x : Part) (h : x.head k = { p.head k with state := .taken })
      (hf : ∀ g, x.fob g = if g = f then { r with waits := some ⟨k, false⟩ } else p.fob g) :
      (x.markDirty (.fob f)).head k = { p.head k with state := .taken } ∧
        ({ r with waits := some ⟨k, false⟩ } : FobRec).same ((x.markDirty (.fob f)).fob f) ∧
        ∀ g, g ≠ f → (p.fob g).same ((x.markDirty (.fob f)).fob g) := by
    have mark := (x.markDirty_does (.fob f)).toWithin
    have same (g : Fob) := mark.fobs (by decide) g
    refine ⟨(mark.head k).trans h, ?_, fun g hg => ?_⟩
    · have := same f
      rwa [hf f, if_pos rfl] at this
    · have := same g
      rwa [hf g, if_neg hg] at this
  unfold Part.changeFob
  dsimp only
  split
  · rename_i w hw
    have done := (q.fobOrderDone_does f w.slot .overridden).toWithin
    refine marked _ (((Part.orderDone_head _ _ _ _ _ _).trans (if_neg ?_)).trans head) fun g => (done.fob g).trans (fob g)
    exact fun e => other w hw e.symm
  · exact marked q head fob

theorem Part.setFob_within (p : Part) (f : Fob) (x : FobRec) : Part.Within [.fobs, .begun, .roster] p (p.setFob f x) := by
  constructor <;> first | rfl | exact fun _ => rfl | exact fun _ _ _ _ => rfl | exact fun h => absurd (by decide) h
                        | exact fun _ => .same id rfl rfl fun _ _ _ => rfl

theorem Part.changeFob_within (p : Part) (f : Fob) (k : Slot) (r : FobRec) (row : Row) :
    Part.Within recordAreas p (p.changeFob f k r row) := by
  have taken : Part.Within recordAreas p (((p.orderTaken k).setFob f { r with waits := some ⟨k, false⟩ }).appendRow row) :=
    ((p.orderTaken_does k).toWithin.trans (Part.setFob_within _ f _) (M := recordAreas) (by decide) (by decide)).trans
      (Part.appendRow_does _ row).toWithin (by decide) (by decide)
  unfold Part.changeFob
  dsimp only
  refine Part.Within.trans (K := recordAreas) ?_ (Part.markDirty_does _ _).toWithin (List.Subset.refl _) (by decide)
  split
  · exact taken.trans (Part.fobOrderDone_does _ f _ _).toWithin (by decide) (by decide)
  · exact taken

/-! ### The block cleared -/

theorem Part.clearBlock_word {p : Part} (t : p.tidy) (f : Fob) {j : Nat} (hj : j < 8) : (p.clearBlock f).blockWord f j = 0 := by
  have memory : (p.clearBlock f).port.memory = Memory.writeWords p.port.memory (enrolWord f 0) (List.replicate 8 0) := by
    simp only [Part.clearBlock, Part.storeWords]
  obtain ⟨wf, -⟩ := t
  have wrote := Memory.readWord_writeWords (List.replicate 8 (0 : Word)) wf (enrolWord f 0) j (by simpa using hj)
  rw [List.getElem?_replicate, if_pos hj] at wrote
  have index : enrolWord f j = enrolWord f 0 + j := by simp [enrolWord]
  rw [Part.blockWord, memory, index]
  exact Option.some.inj wrote

theorem enrolWord_bounds (f : Fob) {j : Nat} (hj : j < 8) : 992 ≤ enrolWord f j ∧ enrolWord f j < 1024 := by
  have hf : f.ctorIdx < 4 := by cases f <;> decide
  simp only [enrolWord]
  omega

/-- The block of an index where the Enrolment Area's words stand. -/
theorem Part.Within.blockWord {K : List Area} {p q : Part} (w : Part.Within K p q) (f : Fob) {j : Nat} (hj : j < 8)
    (h : .enrol ∉ K := by decide) : q.blockWord f j = p.blockWord f j :=
  w.enrol h _ (enrolWord_bounds f hj).1 (enrolWord_bounds f hj).2

theorem sameMarks.blockSound {k : Slot} {p q : Part} (h : sameMarks k p q) (f : Fob) : q.blockSound f = p.blockSound f := by
  have marks (j : Nat) (hj : j < 7) : Memory.readByte q.port.parity (enrolWord f j) = Memory.readByte p.port.parity (enrolWord f j) := by
    have hk := k.isLt
    obtain ⟨low, -⟩ := enrolWord_bounds f (j := j) (by omega)
    exact h _ (.inr (by simp only [slotWord]; omega))
  rw [Bool.eq_iff_iff]
  simp only [Part.blockSound, List.all_eq_true, List.mem_range, decide_eq_true_eq]
  exact ⟨fun all j hj => (marks j hj).symm.trans (all j hj), fun all j hj => (marks j hj).trans (all j hj)⟩

theorem pickFob (f : Fob) : pick Fob.all (BitVec.ofNat 32 f.ctorIdx) = some f := by cases f <;> rfl

/-! ### The orders -/

/-- A fob order whose owner leaves the arbiter alone. -/
theorem completes_fobOrder {c : Instr} {h : OrderHead} {k : OrderKind} {ws : List HostWord} {s : State} {o : Order} {r : Part → Part}
    (ho : orderPosted c = some (h, k, ws)) (hp : s.part.accepts h) (hl : k.params = ws.length)
    (hw : ∀ w ∈ ws, w.sound = true) {post : Part → Prop}
    (read : ∀ q, Part.Posted s.part h k ws q → q.readOrder h.slot k = some o)
    (serve : ∀ q, Part.Posted s.part h k ws q → sameMarks h.slot s.part q → q.serveOrder h.slot o = r q)
    (within : ∀ q, Part.Within enrolAreas q (r q))
    (done : ∀ q, Part.Posted s.part h k ws q → post ((r q).burstDone h.slot)) : Completes c s post := by
  refine completes_markedOrder o ho hp hl hw read fun q hq marks => ?_
  rw [settle_within (K := enrolAreas) (f := (·.serveOrder h.slot o)) (by simp only [serve q hq marks]; exact within q), serve q hq marks]
  exact done q hq

/-- A changed record's order stands, its record as the change says, the others kept. -/
theorem Part.Posted.changed {p q x : Part} {h : OrderHead} {k : OrderKind} {ws : List HostWord} (hq : Part.Posted p h k ws q) {f : Fob}
    (hx : Part.Within [.memory, .enrol, .parity] q x) (other : ∀ w, (p.fob f).waits = some w → w.slot ≠ h.slot) (r : FobRec) (row : Row) :
    let y := (x.changeFob f h.slot r row).burstDone h.slot
    y.orderStands h k ∧ ({ r with waits := some ⟨h.slot, false⟩ } : FobRec).same (y.fob f) ∧
      ∀ g, g ≠ f → (y.fob g).keep = (p.fob g).keep := by
  obtain ⟨head, own, others⟩ := Part.changeFob_leaves (p := x) (f := f) (k := h.slot) (by rw [hx.fob, hq.fob]; exact other) r row
  refine ⟨hq.stands (by rw [head, hx.head]), own, fun g hg => ?_⟩
  obtain ⟨keep, -⟩ := others g hg
  exact keep.trans (by rw [hx.fob, hq.fob])

theorem Part.Posted.readEnrol {p q : Part} {h : OrderHead} {w : HostWord} (hq : Part.Posted p h .enrolFob [w] q) {f : Fob}
    (hf : w.value = BitVec.ofNat 32 f.ctorIdx) : q.readOrder h.slot .enrolFob = some (.enrolFob f) := by
  have first : q.param h.slot 1 = w.value := hq.param 0 w rfl
  simp only [Part.readOrder, first, hf, pickFob]
  rfl

theorem Part.Posted.readDismiss {p q : Part} {h : OrderHead} {w : HostWord} (hq : Part.Posted p h .dismissFob [w] q) {f : Fob}
    (hf : w.value = BitVec.ofNat 32 f.ctorIdx) : q.readOrder h.slot .dismissFob = some (.dismissFob f) := by
  have first : q.param h.slot 1 = w.value := hq.param 0 w rfl
  simp only [Part.readOrder, first, hf, pickFob]
  rfl

theorem Part.Posted.readSuspend {p q : Part} {h : OrderHead} {w r : HostWord} (hq : Part.Posted p h .suspendFob [w, r] q) {f : Fob}
    (hf : w.value = BitVec.ofNat 32 f.ctorIdx) {b : Bool} (hr : pickFlag r.value = some b) :
    q.readOrder h.slot .suspendFob = some (.suspendFob f b) := by
  have first : q.param h.slot 1 = w.value := hq.param 0 w rfl
  have second : q.param h.slot 2 = r.value := hq.param 1 r rfl
  simp only [Part.readOrder, first, second, hf, pickFob, hr]
  rfl

theorem completes_enrol {s : State} {h : OrderHead} {w : HostWord} {f : Fob} (hp : s.part.accepts h) (hw : w.sound = true)
    (hf : w.value = BitVec.ofNat 32 f.ctorIdx) (other : ∀ x, (s.part.fob f).waits = some x → x.slot ≠ h.slot)
    (sound : s.part.blockSound f = true) (vacant : (s.part.fob f).keep.state = .vacant)
    (fresh : s.part.fobOf (s.part.blockWord f 0) = none) (id : s.part.blockWord f 0 ≠ 0)
    (counter : (s.part.blockWord f 5).toNat ≤ 268435455) (permitted : (s.part.blockWord f 6).toNat ≤ 1) :
    Completes (.enrolFob h w) s fun p => p.orderStands h .enrolFob ∧
      ({ FobRec.restored (s.part.blockRecord f) with waits := some ⟨h.slot, false⟩ } : FobRec).same (p.fob f) ∧
      (∀ j, j < 8 → p.blockWord f j = 0) ∧ ∀ g, g ≠ f → (p.fob g).keep = (s.part.fob g).keep := by
  have record (q : Part) (hq : Part.Posted s.part h .enrolFob [w] q) : q.blockRecord f = s.part.blockRecord f := by
    simp only [Part.blockRecord, hq.blockWord f (j := 0) (by omega), hq.blockWord f (j := 1) (by omega), hq.blockWord f (j := 2) (by omega),
      hq.blockWord f (j := 3) (by omega), hq.blockWord f (j := 4) (by omega), hq.blockWord f (j := 5) (by omega),
      hq.blockWord f (j := 6) (by omega)]
  have sameFob (q : Part) (hq : Part.Posted s.part h .enrolFob [w] q) (b : Word) : q.fobOf b = s.part.fobOf b := by
    simp only [Part.fobOf, hq.fob]
  refine completes_fobOrder (r := fun q => (q.clearBlock f).changeFob f h.slot (.restored (q.blockRecord f))
    (enrolledRow f (q.blockWord f 0))) rfl hp rfl (by simp [hw]) (fun q hq => hq.readEnrol hf) (fun q hq marks => ?_) (fun q =>
    (q.clearBlock_does f).toWithin.trans (Part.changeFob_within _ f _ _ _) (by decide) (by decide)) fun q hq => ?_
  · have passes : q.enrolFault f = none := by
      have word0 : q.blockWord f 0 = s.part.blockWord f 0 := hq.blockWord f (by omega)
      have word5 : q.blockWord f 5 = s.part.blockWord f 5 := hq.blockWord f (by omega)
      have word6 : q.blockWord f 6 = s.part.blockWord f 6 := hq.blockWord f (by omega)
      have bounds : ¬ (268435455 < (s.part.blockWord f 5).toNat) ∧ ¬ (1 < (s.part.blockWord f 6).toNat) := by omega
      simp only [Part.enrolFault, marks.blockSound, sound, hq.fob, vacant, word0, word5, word6, sameFob q hq, fresh, id, bounds]
      rfl
    simp only [Part.serveOrder, Part.enrolOrder, passes]
  · obtain ⟨stands, own, others⟩ := hq.changed (f := f) (q.clearBlock_does f).toWithin other (.restored (q.blockRecord f))
      (enrolledRow f (q.blockWord f 0))
    refine ⟨stands, by rw [← record q hq]; exact own, fun j hj => ?_, others⟩
    rw [(Part.burstDone_does _ _).toWithin.blockWord f hj, (Part.changeFob_within _ f _ _ _).blockWord f hj]
    exact Part.clearBlock_word hq.tidy f hj

/-- Settles O19: each order's owner changes the record, or refuses, or finds the change made. -/
theorem fobOrdersChangeTheirRecord : Obligations.FobOrdersChangeTheirRecord := by
  unfold Obligations.FobOrdersChangeTheirRecord
  refine ⟨fun s h w f hp hw hf other sound => ⟨fun vacant fresh id counter permitted => ?_, fun taken => ?_⟩,
    fun s h w r f hp hw hr hf other => ?_⟩
  · obtain ⟨t, e, pending, stands, own, block, others⟩ := completes_enrol hp hw hf other sound vacant fresh id counter permitted
    obtain ⟨keep, zone, seen, candidate, frame, tracker, waits⟩ := own
    have small : ((s.part.blockWord f 5).setWidth 28).toNat = (s.part.blockWord f 5).toNat := by
      rw [BitVec.toNat_setWidth]
      omega
    exact ⟨t, e, pending, stands, by rw [keep]; rfl, by rw [keep]; rfl, by rw [keep]; rfl, by rw [keep]; exact small, by rw [keep]; rfl,
      by rw [keep]; rfl, by rw [keep]; rfl, zone, seen, candidate, frame, tracker, waits, block, others⟩
  · refine completes_fobOrder (r := fun q => (q.clearBlock f).orderRefused h.slot .busy) rfl hp rfl (by simp [hw])
      (fun q hq => hq.readEnrol hf) (fun q hq marks => ?_) (fun q => (q.clearBlock_does f).toWithin.trans
        (Part.orderRefused_does _ _ _ _).toWithin (by decide) (by decide)) fun q hq => ?_
    · have busy : q.enrolFault f = some .busy := by
        simp only [Part.enrolFault, marks.blockSound, sound, hq.fob, if_pos taken]
        rfl
      simp only [Part.serveOrder, Part.enrolOrder, busy]
    · have refused := (Part.orderRefused_does (q.clearBlock f) h.slot .busy 0).toWithin
      have burst := (Part.burstDone_does ((q.clearBlock f).orderRefused h.slot .busy) h.slot).toWithin
      refine ⟨hq.endedRefused (.inr ((q.clearBlock_does f).toWithin.head _)) _ _, ?_, fun j hj => ?_⟩
      · rw [burst.begun (by decide), refused.begun (by decide), (q.clearBlock_does f).begun (by decide), hq.begun (by decide)]
      · rw [burst.blockWord f hj, refused.blockWord f hj]
        exact Part.clearBlock_word hq.tidy f hj
  · intro k
    have here (q : Part) : Part.Within [.memory, .enrol, .parity] q q := .refl _ q
    have refused {c : Instr} {kind : OrderKind} {ws : List HostWord} {o : Order} (ho : orderPosted c = some (h, kind, ws))
        (hl : kind.params = ws.length) (sounds : ∀ w ∈ ws, w.sound = true)
        (read : ∀ q, Part.Posted s.part h kind ws q → q.readOrder h.slot kind = some o)
        (serve : ∀ q, Part.Posted s.part h kind ws q → q.serveOrder h.slot o = q.orderRefused h.slot .noFob) :
        Completes c s fun p => p.endedRefused h kind .noFob ∧ p.fobs = s.part.fobs := by
      refine completes_fobOrder (r := fun q => q.orderRefused h.slot .noFob) ho hp hl sounds read (fun q hq _ => serve q hq)
        (fun q => (q.orderRefused_does _ _ _).toWithin.mono (by decide)) fun q hq => ⟨hq.endedRefused (.inr rfl) _ _, ?_⟩
      rw [(Part.burstDone_does _ _).begun (by decide), (q.orderRefused_does _ _ _).begun (by decide), hq.begun (by decide)]
    refine ⟨fun taken idle => ?_, fun vacant => ⟨?_, fun flag => ?_⟩, fun enrolled suspend idle => ?_,
      fun suspended resume => ?_, fun made => ?_⟩
    · refine completes_fobOrder (r := fun q => q.changeFob f h.slot { FobRec.restored .vacant with waits := (q.fob f).waits }
        (dismissedRow f (q.fob f).keep.id)) rfl hp rfl (by simp [hw]) (fun q hq => hq.readDismiss hf) (fun q hq _ => ?_)
        (fun q => (Part.changeFob_within _ f _ _ _).mono (by decide)) fun q hq => ?_
      · have tracker : (q.fob f).tracker = .idle := by rw [hq.fob]; exact idle
        simp only [Part.serveOrder, Part.dismissOrder, hq.fob, Part.endTracker_idle tracker]
        exact if_neg taken
      · obtain ⟨stands, own, others⟩ := hq.changed (f := f) (here q) other { FobRec.restored .vacant with waits := (q.fob f).waits }
          (dismissedRow f (q.fob f).keep.id)
        obtain ⟨keep, zone, seen, candidate, frame, -⟩ := own
        exact ⟨stands, keep, zone, seen, candidate, frame, others⟩
    · exact refused rfl rfl (by simp [hw]) (fun q hq => hq.readDismiss hf) fun q hq => if_pos (by rw [hq.fob]; exact vacant)
    · obtain ⟨b, hb⟩ : ∃ b, pickFlag r.value = some b := by
        have : r.value.toNat = 0 ∨ r.value.toNat = 1 := by omega
        rcases this with e | e
        · exact ⟨false, by rw [pickFlag, pick, e]; rfl⟩
        · exact ⟨true, by rw [pickFlag, pick, e]; rfl⟩
      refine refused rfl rfl (by simp [hw, hr]) (fun q hq => hq.readSuspend hf hb) fun q hq => ?_
      have state : (q.fob f).keep.state = .vacant := by rw [hq.fob]; exact vacant
      simp only [Part.serveOrder, Part.suspendOrder, state]
    · refine completes_fobOrder (r := fun q => q.changeFob f h.slot { q.fob f with
          keep := { (q.fob f).keep with state := .suspended }, candidate := none, lastFrame := none } (suspendedRow f)) rfl hp rfl
        (by simp [hw, hr]) (fun q hq => hq.readSuspend hf (b := false) (by rw [suspend]; rfl)) (fun q hq _ => ?_)
        (fun q => (Part.changeFob_within _ f _ _ _).mono (by decide)) fun q hq => ?_
      · have tracker : (q.fob f).tracker = .idle := by rw [hq.fob]; exact idle
        have state : (q.fob f).keep.state = .enrolled := by rw [hq.fob]; exact enrolled
        simp only [Part.serveOrder, Part.suspendOrder, state, Part.endTracker_idle tracker]
      · obtain ⟨stands, own, -⟩ := hq.changed (f := f) (here q) other { q.fob f with
          keep := { (q.fob f).keep with state := .suspended }, candidate := none, lastFrame := none } (suspendedRow f)
        obtain ⟨keep, -, -, candidate, frame, -⟩ := own
        exact ⟨stands, keep.trans (by rw [hq.fob]), candidate, frame⟩
    · refine completes_fobOrder (r := fun q => q.changeFob f h.slot { (q.fob f).trimmed q.clock with
          keep := { (q.fob f).keep with state := .enrolled } } (resumedRow f)) rfl hp rfl
        (by simp [hw, hr]) (fun q hq => hq.readSuspend hf (b := true) (by rw [resume]; rfl)) (fun q hq _ => ?_)
        (fun q => (Part.changeFob_within _ f _ _ _).mono (by decide)) fun q hq => ?_
      · have state : (q.fob f).keep.state = .suspended := by rw [hq.fob]; exact suspended
        simp only [Part.serveOrder, Part.suspendOrder, state]
      · obtain ⟨stands, own, -⟩ := hq.changed (f := f) (here q) other { (q.fob f).trimmed q.clock with
          keep := { (q.fob f).keep with state := .enrolled } } (resumedRow f)
        obtain ⟨keep, -⟩ := own
        exact ⟨stands, keep.trans (by rw [hq.fob])⟩
    · obtain ⟨b, hb, already⟩ : ∃ b, pickFlag r.value = some b ∧
          ((k.state = .suspended ∧ b = false) ∨ (k.state = .enrolled ∧ b = true)) := by
        rcases made with ⟨state, e⟩ | ⟨state, e⟩
        · exact ⟨false, by rw [e]; rfl, .inl ⟨state, rfl⟩⟩
        · exact ⟨true, by rw [e]; rfl, .inr ⟨state, rfl⟩⟩
      refine completes_fobOrder (r := fun q => (q.orderTaken h.slot).fobOrderDone f h.slot .completed) rfl hp rfl
        (by simp [hw, hr]) (fun q hq => hq.readSuspend hf hb) (fun q hq _ => ?_)
        (fun q => (q.orderTaken_does h.slot).toWithin.trans (Part.fobOrderDone_does _ f _ _).toWithin (by decide) (by decide))
        fun q hq => ⟨hq.endedDone (.inl ((Part.orderTaken_head _ _ _).trans (if_pos rfl))) _ _ _, ?_⟩
      · rcases already with ⟨state, rfl⟩ | ⟨state, rfl⟩
        · have state : (q.fob f).keep.state = .suspended := by rw [hq.fob]; exact state
          simp only [Part.serveOrder, Part.suspendOrder, state]
        · have state : (q.fob f).keep.state = .enrolled := by rw [hq.fob]; exact state
          simp only [Part.serveOrder, Part.suspendOrder, state]
      · rw [(Part.burstDone_does _ _).begun (by decide), (Part.fobOrderDone_does _ f _ _).begun (by decide),
          (q.orderTaken_does _).begun (by decide), hq.begun (by decide)]

end Sys2Proof.Machine
end

section
/-! Head writes (R189, R192): the slot given back, the order cancelled by its owner, or misuse. -/

namespace Sys2Proof.Machine

/-! ### A burst of one head -/

set_option Elab.async false in -- the declarations above are finished first: this bounds the memory of the one text
/-- Of a burst of one head, the head alone acts. -/
theorem Part.memoryWrite_head {p : Part} (hs : p.port.served = true) (k : Slot) (w : HostWord) :
    p.memoryWrite (slotStart k) [w] =
      let q := settle (·.headWrite k w) (p.burstTaken .link)
      { q with port := { q.port with pointer := BitVec.ofNat 10 ((slotStart k).toNat + 1) } } := by
  have hk := k.isLt
  have served : (p.burstTaken .link).port.served = true := ((p.burstTaken_does .link).served (by decide)).trans hs
  have head (q : Part) : q.burstHead (352 + 8 * k.val, w) = settle (·.headWrite k w) q := by
    rw [Part.burstHead, if_pos (by simp only; omega), show boardSlot (352 + 8 * k.val) = k from boardSlot_word k (j := 0) (by omega)]
  unfold Part.memoryWrite Part.writeBurst Part.takeWords
  rw [burstWords_one (slotStart k).isLt, if_pos served, slotStart_toNat]
  simp only [List.foldl_cons, List.foldl_nil, Part.hostWrite_head, head, List.length_singleton]

theorem bitsAt_lt (w : Word) (low n : Nat) : bitsAt w low n < 2 ^ n := Nat.mod_lt _ (Nat.two_pow_pos n)

/-- What a head word asks for (11.6). -/
theorem SlotState.ofBits_iff (w : Word) :
    (SlotState.ofBits w = some .free ↔ bitsAt w 29 3 = 0) ∧ (SlotState.ofBits w = some .posted ↔ bitsAt w 29 3 = 1) ∧
      (SlotState.ofBits w = some .cancelAsked ↔ bitsAt w 29 3 = 3) := by
  have small := bitsAt_lt w 29 3
  unfold SlotState.ofBits
  generalize bitsAt w 29 3 = n at small
  interval_cases n <;> decide

/-! ### An order cancelled -/

/-- The order of a slot has ended CANCELLED, the other heads and the doors are as they stood, every release goes on. -/
structure Part.Cancels (k : Slot) (p q : Part) : Prop where
  head : q.head k = { p.head k with state := .done, code := BitVec.ofNat 8 OrderOutcome.cancelled.code }
  others : ∀ x, x ≠ k → q.head x = p.head x
  doors : q.doors = p.doors
  latches : ∀ d, (q.latch d).isSome = (p.latch d).isSome

theorem Part.Cancels.after {k : Slot} {K : List Area} {p x q : Part} (h : Part.Cancels k x q) (w : Part.Within K p x)
    (h1 : .heads ∉ K := by decide) (h2 : .doors ∉ K := by decide) (h3 : .latches ∉ K := by decide) : Part.Cancels k p q where
  head := by rw [h.head, w.head k h1]
  others y hy := (h.others y hy).trans (w.head y h1)
  doors := h.doors.trans (w.doors h2)
  latches d := (h.latches d).trans (by rw [w.latch d h3])

theorem Part.Cancels.before {k : Slot} {K : List Area} {p x q : Part} (h : Part.Cancels k p x) (w : Part.Within K x q)
    (h1 : .heads ∉ K := by decide) (h2 : .doors ∉ K := by decide) (h3 : .latches ∉ K := by decide) : Part.Cancels k p q where
  head := (w.head k h1).trans h.head
  others y hy := (w.head y h1).trans (h.others y hy)
  doors := (w.doors h2).trans h.doors
  latches d := (by rw [w.latch d h3] : (q.latch d).isSome = _).trans (h.latches d)

theorem Part.orderDone_cancels (p : Part) (k : Slot) (a b : Word) : Part.Cancels k p (p.orderDone k .cancelled a b) where
  head := (Part.orderDone_head _ _ _ _ _ _).trans (if_pos rfl)
  others y hy := (Part.orderDone_head _ _ _ _ _ _).trans (if_neg hy)
  doors := (p.orderDone_does k _ a b).doors (by decide)
  latches d := by rw [(p.orderDone_does k _ a b).toWithin.latch d]

/-- The mover of an order is told that it is cancelled. -/
theorem Part.tellMover_cancels (p : Part) (c : Corner) (k : Slot) (e : EntryReason) (stop : Option StopReason) (judge : Bool) :
    Part.Cancels k p (p.tellMover c (some (.order k)) .cancelled e stop judge) := by
  unfold Part.tellMover
  dsimp only
  split
  · rename_i l hl
    unfold Part.learnOf at hl
    obtain ⟨l', learns, owns⟩ := Option.bind_eq_some_iff.1 hl
    obtain ⟨same, rfl⟩ : k = l'.slot ∧ l' = l := by
      split at owns
      · rename_i m
        exact ⟨Mover.order.inj m, Option.some.inj owns⟩
      · cases owns
    subst same
    unfold Part.endLearn
    rw [learns]
    dsimp only
    have ended (a b : Word) : Part.Cancels l'.slot p ((p.closeLearn c l' (some .cancelled) none).orderDone l'.slot .cancelled a b) :=
      (Part.orderDone_cancels _ _ a b).after (p.closeLearn_does c l' _ _).toWithin
    split
    · exact (ended _ _).before (Part.clampPosition_within _ c)
    · exact ended _ _
  · exact p.orderDone_cancels k _ _

theorem Part.dropPending_within (p : Part) (c : Corner) : Part.Within [.windows, .holders, .waiting] p (p.dropPending c) :=
  (p.dropPending_acts c).toWithin

theorem Part.withdrawPending_cancels {p : Part} {c : Corner} {k : Slot} {x : Pending} (h : (p.window c).pending = some x)
    (hm : x.cmd.mover = .order k) (e : EntryReason) (judge : Bool) : Part.Cancels k p (p.withdrawPending c .cancelled e judge) := by
  unfold Part.withdrawPending
  simp only [h, hm]
  exact (Part.tellMover_cancels _ c k e none judge).after (p.dropPending_within c)

theorem Part.cancelMove_cancels (p : Part) (k : Slot) : Part.Cancels k p (p.cancelMove k) := by
  unfold Part.cancelMove
  dsimp only
  split
  · rename_i _ _ c found
    have moves := List.find?_some found
    simp only [Bool.and_eq_true, decide_eq_true_eq] at moves
    obtain ⟨under, mover⟩ := moves
    have driven : (p.window c).motion ≠ .reversing := fun e => by simp [WindowRec.underWay, e] at under
    unfold Part.stopAndTell Part.tellStop
    simp only [if_neg driven, mover]
    exact (Part.tellMover_cancels _ c k _ _ true).after (p.stopWindow_acts c .cancelled).toWithin
  · rename_i _ _ c _ found
    have waits := List.find?_some found
    cases hx : (p.window c).pending with
    | none => simp [hx] at waits
    | some x => exact Part.withdrawPending_cancels hx (by simpa [hx] using waits) _ _
  · exact p.orderDone_cancels k _ _

theorem Part.cancelRelease_cancels (p : Part) (k : Slot) : Part.Cancels k p (p.cancelRelease k) := by
  unfold Part.cancelRelease
  dsimp only
  split
  · exact p.orderDone_cancels k _ _
  · rename_i d _
    split
    · exact p.orderDone_cancels k _ _
    · rename_i op hop
      have left := Part.orderDone_cancels (p.setLatch d (some { op with orders := op.orders.filter fun x => decide (x ≠ k) })) k
        (releaseWord6 d op) 0
      exact ⟨left.head, left.others, left.doors, fun e => by
        rw [left.latches, Part.setLatch_latch]
        split
        · rename_i he
          rw [he, hop]
          rfl
        · rfl⟩

theorem Part.cancelLocate_cancels (p : Part) (k : Slot) : Part.Cancels k p (p.cancelLocate k) := by
  have done := Part.orderDone_cancels (p.setLocator { p.locator with
    list := (p.locator.list.map (·.dropSlot k)).filter fun r : Request => decide (r.purpose ≠ .locate ∨ r.orders ≠ [])
    flight := p.locator.flight.map fun f => { f with request := f.request.dropSlot k } }) k 0 0
  exact ⟨done.head, done.others, done.doors, done.latches⟩

theorem Part.cancelFob_cancels (p : Part) (k : Slot) : Part.Cancels k p (p.cancelFob k) := by
  unfold Part.cancelFob
  split
  · exact p.orderDone_cancels k _ _
  · rename_i f _
    exact (Part.orderDone_cancels _ k _ _).after (p.setFob_within f _)

/-! ### A cancelled operation -/

theorem Part.reportEnd_unjudged (p : Part) (c : Corner) (r : EntryReason) : Part.Within [.operation] p (p.reportEnd c r false) := by
  unfold Part.reportEnd
  split
  · exact .refl _ p
  · simp only [Bool.false_eq_true, if_false]
    exact (p.setEntry_acts c _).toWithin

theorem Part.tellSequencer_unjudged (p : Part) (c : Corner) (o : OrderOutcome) (e : EntryReason) (stop : Option StopReason) :
    Part.Within [.operation] p (p.tellMover c (some .sequencer) o e stop false) := p.reportEnd_unjudged c e

/-- A live entry of a running operation, where the law of the entries holds: its window has the Sequencer's command. -/
theorem Part.liveEntry_commands {p : Part} {c : Corner} {e : Entry} (h : p.liveEntry c = some e) (fits : p.entryFits c) :
    (e.state = .moving ∧ (p.window c).underWay = true ∧ (p.window c).mover = some .sequencer) ∨
      (e.state ≠ .moving ∧ ∃ x, (p.window c).pending = some x ∧ x.cmd.mover = .sequencer) := by
  obtain ⟨o, ho, live⟩ := Option.bind_eq_some_iff.1 h
  split at live
  · rename_i runs
    obtain rfl := Option.some.inj live
    simp only [Bool.and_eq_true] at runs
    obtain ⟨running, alive⟩ := runs
    obtain ⟨waiting, moving⟩ := fits.2 o ho (by simpa [Operation.running] using running)
    cases hs : (o.entries.get c).state with
    | moving => exact .inl ⟨rfl, (moving hs).2⟩
    | waiting => exact .inr ⟨nofun, (waiting hs).2⟩
    | done => simp [hs, EntryState.live] at alive
    | skipped => simp [hs, EntryState.live] at alive
  · cases live

/-- What the Sequencer's stop of an entry's window changes. -/
abbrev dismissedAreas : List Area := .operation :: .holders :: .waiting :: startAreas

/-- A window's live entry ended by the Sequencer touches no head. -/
theorem Part.dismissEntry_within {p : Part} {c : Corner} (fits : p.entryFits c) (r : StopReason) :
    Part.Within dismissedAreas p (p.dismissEntry r c) := by
  unfold Part.dismissEntry
  split
  · exact .refl _ p
  · rename_i e live
    refine Part.Within.trans (K := dismissedAreas) ?_ (Part.reportEnd_unjudged _ c _) (List.Subset.refl _) (by decide)
    rcases Part.liveEntry_commands live fits with ⟨moving, under, mover⟩ | ⟨waits, x, pends, mover⟩
    · have driven : (p.window c).motion ≠ .reversing := fun e => by simp [WindowRec.underWay, e] at under
      rw [if_pos moving, if_pos under, Part.stopAndTell, if_neg driven, mover]
      exact (p.stopWindow_acts c r).toWithin.trans (Part.tellSequencer_unjudged _ c _ _ _) (by decide) (by decide)
    · rw [if_neg waits, Part.withdrawPending, pends]
      dsimp only
      rw [mover]
      exact (p.dropPending_within c).trans (Part.tellSequencer_unjudged _ c _ _ _) (by decide) (by decide)

theorem Part.dismissEntry_opHeader (p : Part) (r : StopReason) (c : Corner) : (p.dismissEntry r c).opHeader = p.opHeader := by
  unfold Part.dismissEntry
  split
  · rfl
  · rw [Part.reportEnd_opHeader]
    split
    · split
      · exact (Part.tellMover_opHeader _ c _ _ _ _ _).trans (p.stopWindow_acts c r).toWithin.opHeader
      · rfl
    · exact p.withdrawPending_opHeader c _ _ _

/-- Every entry dismissed, the law of the entries holding as the first is. -/
theorem Part.eachCorner_dismiss {p : Part} (fits : p.entriesFit) (r : StopReason) :
    Part.Within dismissedAreas p (p.eachCorner (Part.dismissEntry r)) ∧
      (p.eachCorner (Part.dismissEntry r)).opHeader = p.opHeader := by
  unfold Part.eachCorner
  generalize Corner.all = l
  induction l generalizing p with
  | nil => exact ⟨.refl _ p, rfl⟩
  | cons c l ih =>
    obtain ⟨within, header⟩ := ih ((p.dismissEntry_does r c).entriesLaw fits)
    exact ⟨(Part.dismissEntry_within (fits c) r).trans within (List.Subset.refl _) (List.Subset.refl _),
      header.trans (p.dismissEntry_opHeader r c)⟩

theorem Part.cancelOperation_cancels {p : Part} (fits : p.entriesFit) (k : Slot) : Part.Cancels k p (p.cancelOperation k) := by
  unfold Part.cancelOperation
  split
  · exact p.orderDone_cancels k _ _
  · rename_i o ho
    split
    · rename_i runs
      obtain ⟨within, header⟩ := Part.eachCorner_dismiss fits .cancelled
      have kept : (p.eachCorner (Part.dismissEntry .cancelled)).opHeader = some o.header := by
        rw [header, Part.opHeader, ho]
        rfl
      obtain ⟨o', ho', same⟩ := Option.map_eq_some_iff.1 kept
      have origin : o'.origin = .order k := (congrArg OpHeader.origin same).trans runs.2
      unfold Part.endOperation
      simp only [ho', origin]
      exact ((Part.orderDone_cancels _ k _ _).after (Part.setOperation_acts _ _).toWithin).after within
    · exact p.orderDone_cancels k _ _

/-- A cancel handed to the order's owner ends the order (R192). -/
theorem Part.cancelOrder_cancels {p : Part} (fits : p.entriesFit) (k : Slot) : Part.Cancels k p (p.cancelOrder k) := by
  unfold Part.cancelOrder
  split
  · exact p.cancelRelease_cancels k
  · exact p.cancelMove_cancels k
  · exact p.cancelMove_cancels k
  · exact p.cancelLocate_cancels k
  · exact p.cancelFob_cancels k
  · exact p.cancelFob_cancels k
  · exact p.cancelFob_cancels k
  · exact Part.cancelOperation_cancels fits k
  · exact Part.cancelOperation_cancels fits k
  · exact Part.cancelOperation_cancels fits k
  · exact p.orderDone_cancels k _ _

end Sys2Proof.Machine
end

section
/-! The head writes of R189, from the owner's cancel and the heads' own transitions. -/

namespace Sys2Proof.Machine

/-! ### Grants leave every release in flight -/

set_option Elab.async false in -- the declarations above are finished first: this bounds the memory of the one text
theorem Part.startPulse_latches (p : Part) (d e : Door) : ((p.startPulse d).latch e).isSome = (p.latch e).isSome := by
  unfold Part.startPulse
  split
  · rfl
  · rename_i op hop
    rw [Part.setLatch_latch]
    split
    · rename_i he
      rw [he, hop]
      rfl
    · rfl

theorem Part.windowGranted_within (p : Part) (c : Corner) : Part.Within (.operation :: startAreas) p (p.windowGranted c) := by
  cases h : (p.window c).pending with
  | none =>
    have same : p.windowGranted c = p := by simp only [Part.windowGranted, h]
    rw [same]
    exact .refl _ p
  | some x =>
    obtain ⟨-, -, -, within⟩ := Part.windowGranted_starts (cmd := x.cmd) (t := x.since) h
    exact within

theorem grantHeads_latches : ∀ (n : Nat) (p : Part) (e : Door), ((grantHeads n p).latch e).isSome = (p.latch e).isSome
  | 0, _, _ => rfl
  | n + 1, p, e => by
    unfold grantHeads
    split
    · rfl
    · rename_i w rest _
      split
      · rw [grantHeads_latches n]
        cases w.actuator with
        | window c =>
          exact congrArg Option.isSome ((Part.windowGranted_within _ c).latch e)
        | latch d => exact Part.startPulse_latches _ d e
      · rfl

theorem settle_latches (f : Part → Part) (p : Part) (e : Door) : ((settle f p).latch e).isSome = ((f p).latch e).isSome := by
  unfold settle
  dsimp only
  split
  · rfl
  · exact grantHeads_latches _ _ e

/-! ### The transitions of a head -/

theorem Part.headWrite_frees {p : Part} {k : Slot} {w : HostWord} (asks : bitsAt w.value 29 3 = 0)
    (h : (p.head k).state = .done ∨ (p.head k).state = .refused ∨ ((p.head k).state = .posted ∧ p.state = .held)) :
    p.headWrite k w = p.setHead k .free := by
  have free := (SlotState.ofBits_iff w.value).1.2 asks
  unfold Part.headWrite
  rcases h with h | h | ⟨h, held⟩
  · simp only [h, free]
  · simp only [h, free]
  · simp only [h, free, held, if_true]

theorem Part.headWrite_cancels {p : Part} {k : Slot} {w : HostWord} (asks : bitsAt w.value 29 3 = 3)
    (h : (p.head k).state = .taken) :
    p.headWrite k w = (p.setHead k { p.head k with state := .cancelAsked }).cancelOrder k := by
  have cancel := (SlotState.ofBits_iff w.value).2.2.2 asks
  unfold Part.headWrite
  simp only [h, cancel]

/-- Every other head write, but a posting on a FREE slot, is misuse. -/
theorem Part.headWrite_misuse {p : Part} {k : Slot} {w : HostWord}
    (h : ¬ ((bitsAt w.value 29 3 = 0 ∧ ((p.head k).state = .done ∨ (p.head k).state = .refused ∨
        ((p.head k).state = .posted ∧ p.state = .held))) ∨
      (bitsAt w.value 29 3 = 3 ∧ (p.head k).state = .taken) ∨ (bitsAt w.value 29 3 = 1 ∧ (p.head k).state = .free))) :
    p.headWrite k w = p.setMisuse := by
  obtain ⟨free, posted, cancel⟩ := SlotState.ofBits_iff w.value
  unfold Part.headWrite
  dsimp only
  split
  case h_1 hs ha => exact absurd (.inr (.inr ⟨posted.1 ha, hs⟩)) h
  case h_2 hs ha => exact absurd (.inr (.inl ⟨cancel.1 ha, hs⟩)) h
  case h_3 hs ha => exact absurd (.inl ⟨free.1 ha, .inl hs⟩) h
  case h_4 hs ha => exact absurd (.inl ⟨free.1 ha, .inr (.inl hs)⟩) h
  case h_5 hs ha => exact if_neg fun held => h (.inl ⟨free.1 ha, .inr (.inr ⟨hs, held⟩)⟩)
  · rfl

/-- Settles O24: the transition of `headWrite`, after the burst's activity; a cancel by `cancelOrder_cancels`. -/
theorem headWritesGiveBackCancelOrAreMisuse : Obligations.HeadWritesGiveBackCancelOrAreMisuse := by
  unfold Obligations.HeadWritesGiveBackCancelOrAreMisuse
  intro s slot w served awake asks head old
  have taken := s.part.burstTaken_does .link
  have headTaken (x : Slot) : (s.part.burstTaken .link).head x = s.part.head x := taken.toWithin.head x
  have state : (s.part.burstTaken .link).state = s.part.state := taken.state (by decide)
  have burst {post : Part → Prop} (h : post { settle (·.headWrite slot w) (s.part.burstTaken .link) with
      port := { (settle (·.headWrite slot w) (s.part.burstTaken .link)).port with
        pointer := BitVec.ofNat 10 ((slotStart slot).toNat + 1) } }) : Completes (.memoryWrite (slotStart slot) [w]) s post :=
    (completes_run (f := (·.memoryWrite (slotStart slot) [w])) rfl).2 (by rw [Part.memoryWrite_head served]; exact h)
  refine ⟨fun free h => burst ?_, fun cancel h fits => ?_, fun h => burst ?_⟩
  · have acts : (s.part.burstTaken .link).headWrite slot w = (s.part.burstTaken .link).setHead slot .free :=
      Part.headWrite_frees free (by rw [headTaken, state]; exact h)
    rw [settle_within (f := (·.headWrite slot w)) (by rw [acts]; exact (Part.setHead_does _ slot rfl).toWithin), acts]
    refine ⟨(Part.head_setHead _ _ _ _).trans (if_pos rfl), fun x hx => ((Part.head_setHead _ _ _ _).trans (if_neg hx)).trans (headTaken x),
      taken.memory (by decide), taken.misuse (by decide), taken.scroll (by decide)⟩
  · let q := (s.part.burstTaken .link).setHead slot { s.part.head slot with state := .cancelAsked }
    have asked := Part.setHead_does (s.part.burstTaken .link) slot (h := { s.part.head slot with state := .cancelAsked }) rfl
    have acts : (s.part.burstTaken .link).headWrite slot w = q.cancelOrder slot := by
      rw [Part.headWrite_cancels cancel (by rw [headTaken]; exact h), headTaken]
    have cancels := Part.cancelOrder_cancels (asked.entriesLaw (taken.entriesLaw fits)) slot
    have does := q.cancelOrder_does slot
    have grants := settle_grants (·.headWrite slot w) (s.part.burstTaken .link)
    have flight := settle_latches (·.headWrite slot w) (s.part.burstTaken .link)
    rw [acts] at grants flight
    have ended : (settle (·.headWrite slot w) (s.part.burstTaken .link)).head slot =
        ⟨.done, head.kind, head.tag, BitVec.ofNat 8 OrderOutcome.cancelled.code⟩ := by
      rw [grants.toWithin.head, cancels.head, Part.head_setHead, if_pos rfl]
    refine burst ⟨ended, fun x hx => ?_, ?_, ?_, fun d => ?_, fun t => ?_⟩
    · refine (grants.toWithin.head x).trans ((cancels.others x hx).trans ?_)
      rw [Part.head_setHead, if_neg hx, headTaken]
    · exact (grants.misuse (by decide)).trans ((does.misuse (by decide)).trans (taken.misuse (by decide)))
    · exact (grants.doors (by decide)).trans (cancels.doors.trans (taken.doors (by decide)))
    · refine (flight d).trans ((cancels.latches d).trans ?_)
      exact congrArg Option.isSome (taken.toWithin.latch d)
    · have written : (s.part.memoryWrite (slotStart slot) [w]).reported slot := by
        refine s.part.memoryWrite_endsReported (slotStart slot) [w] t slot (by simp [Head.ended, show (s.part.head slot).state = _ from h]) ?_
        rw [Part.memoryWrite_head served]
        show Head.ended ((settle (·.headWrite slot w) (s.part.burstTaken .link)).head slot) = true
        rw [ended]
        rfl
      rwa [Part.memoryWrite_head served] at written
  · have acts : (s.part.burstTaken .link).headWrite slot w = (s.part.burstTaken .link).setMisuse :=
      Part.headWrite_misuse (by rw [headTaken, state]; exact h)
    rw [settle_within (f := (·.headWrite slot w)) (by rw [acts]; exact (Part.setMisuse_does _).toWithin), acts]
    exact ⟨taken.heads (by decide), rfl, taken.memory (by decide)⟩

end Sys2Proof.Machine
end

section
/-! The commits of the Retained Store (R207, R146). -/

namespace Sys2Proof.Machine

/-! ### A commit's begin -/

set_option Elab.async false in -- the declarations above are finished first: this bounds the memory of the one text
theorem Part.beginCommit_store {p : Part} {r : RecordId} {rest : List RecordId} (h : p.store.dirty = r :: rest) :
    p.beginCommit.store = { p.store with dirty := rest, commit := some ⟨p.contentOf r, p.clock + 6, false⟩ } := by
  cases r with
  | fob f => simp only [Part.beginCommit, h]; rfl
  | lock => simp only [Part.beginCommit, h]
  | window c => simp only [Part.beginCommit, h]

theorem Part.beginCommit_fob {p : Part} {r : RecordId} {rest : List RecordId} (h : p.store.dirty = r :: rest) (f : Fob) :
    p.beginCommit.fob f =
      if r = .fob f then { p.fob f with waits := (p.fob f).waits.map fun x => ⟨x.slot, true⟩ } else p.fob f := by
  cases r with
  | fob g =>
    simp only [Part.beginCommit, h, RecordId.fob.injEq]
    rw [Part.setFob_fob]
    by_cases e : f = g
    · subst e
      simp only [if_true]
      rfl
    · rw [if_neg e, if_neg fun k => e k.symm]
      rfl
  | lock => simp only [Part.beginCommit, h]; rfl
  | window c => simp only [Part.beginCommit, h]; rfl

theorem Part.tryCommit_rest {p : Part} (h : p.store.dirty = []) : p.tryCommit = p :=
  if_neg (by simp [Part.mayCommit, h])

/-- Whether a commit begins or not, the copies stand, and an order that waits for a record still does. -/
theorem Part.tryCommit_leaves (p : Part) :
    p.tryCommit.store.copies = p.store.copies ∧
      ∀ f, (p.tryCommit.fob f).keep = (p.fob f).keep ∧ (p.tryCommit.fob f).waits.map (·.slot) = (p.fob f).waits.map (·.slot) := by
  unfold Part.tryCommit
  split
  · cases h : p.store.dirty with
    | nil => rw [Part.beginCommit, h]; exact ⟨rfl, fun _ => ⟨rfl, rfl⟩⟩
    | cons r rest =>
      refine ⟨by rw [Part.beginCommit_store h], fun f => ?_⟩
      rw [Part.beginCommit_fob h]
      split
      · exact ⟨rfl, by simp [Option.map_map, Function.comp_def]⟩
      · exact ⟨rfl, rfl⟩
  · exact ⟨rfl, fun _ => ⟨rfl, rfl⟩⟩

/-- A record of the dirty set stays in it or is committed. -/
theorem Part.tryCommit_mem {p : Part} {r : RecordId} (hr : r ∈ p.store.dirty) :
    r ∈ p.tryCommit.store.dirty ∨
      ∃ j, p.tryCommit.store.commit = some j ∧ j.content.record = r ∧ j.due = p.clock + 6 := by
  unfold Part.tryCommit
  split
  · obtain ⟨x, rest, h⟩ := List.exists_cons_of_ne_nil (List.ne_nil_of_mem hr)
    rw [Part.beginCommit_store h]
    rw [h] at hr
    rcases List.mem_cons.1 hr with rfl | later
    · exact .inr ⟨_, rfl, by cases r <;> rfl, rfl⟩
    · exact .inl later
  · exact .inl hr

/-! ### A mark with no commit under way -/

/-- The set with the record marked. -/
def Part.marked (p : Part) (r : RecordId) : Part :=
  if p.store.dirty.contains r then p else { p with store := { p.store with dirty := p.store.dirty ++ [r] } }

theorem Part.markDirty_idle {p : Part} (h : p.store.commit = none) (r : RecordId) : p.markDirty r = (p.marked r).tryCommit := by
  simp only [Part.markDirty, h, Part.marked]
  split <;> rfl

theorem Part.marked_leaves (p : Part) (r : RecordId) :
    (p.marked r).store.copies = p.store.copies ∧ (p.marked r).store.commit = p.store.commit ∧ (p.marked r).fobs = p.fobs ∧
      (p.marked r).clock = p.clock ∧ r ∈ (p.marked r).store.dirty := by
  unfold Part.marked
  split
  · rename_i h
    exact ⟨rfl, rfl, rfl, rfl, by simpa using h⟩
  · exact ⟨rfl, rfl, rfl, rfl, by simp⟩

/-! ### A commit's end -/

/-- The store as a commit leaves it, before the next begins. -/
def Part.written (p : Part) (k : Commit) : Part :=
  { p with store := { p.store with copies := p.store.copies.commit k.content, commit := none } }

theorem Part.commitEnd_eq {p : Part} {k : Commit} (h : p.store.commit = some k) (due : k.due ≤ p.clock) :
    p.commitEnd = if k.changed then ((p.written k).tellCommitted k.content.record).markDirty k.content.record
      else ((p.written k).tellCommitted k.content.record).tryCommit := by
  simp only [Part.commitEnd, h, if_neg (Nat.not_lt.2 due), Part.written]

theorem Part.tellCommitted_begun {p : Part} {f : Fob} {n : Slot} (h : (p.fob f).waits = some ⟨n, true⟩) :
    p.tellCommitted (.fob f) = (p.setFob f { p.fob f with waits := none }).fobOrderDone f n .completed := by
  simp only [Part.tellCommitted, h, if_true]

theorem Part.tellCommitted_waiting {p : Part} {f : Fob} {n : Slot} (h : (p.fob f).waits = some ⟨n, false⟩) :
    p.tellCommitted (.fob f) = p := by
  simp only [Part.tellCommitted, h]
  rfl

theorem Part.tellCommitted_keep (p : Part) (r : RecordId) (f : Fob) : ((p.tellCommitted r).fob f).keep = (p.fob f).keep := by
  unfold Part.tellCommitted
  split
  · rename_i g
    split
    · split
      · rw [show ((p.setFob g { p.fob g with waits := none }).fobOrderDone g _ .completed).fob f
          = (p.setFob g { p.fob g with waits := none }).fob f from
          congrArg (·.get f) ((Part.fobOrderDone_does _ _ _ _).begun (by decide)), Part.setFob_fob]
        split
        · subst_vars; rfl
        · rfl
      · rfl
    · rfl
  all_goals rfl

theorem Part.tellCommitted_store (p : Part) (r : RecordId) : (p.tellCommitted r).store = p.store := by
  unfold Part.tellCommitted
  split
  · split
    · split
      · exact (Part.fobOrderDone_does _ _ _ _).store (by decide)
      · rfl
    · rfl
  all_goals rfl

/-- What a commit's end leaves as the owner was told: its last step marks the record again or begins the next commit. -/
theorem Part.commitEnd_tells {p : Part} {k : Commit} (h : p.store.commit = some k) (due : k.due ≤ p.clock) :
    Part.Within markAreas ((p.written k).tellCommitted k.content.record) p.commitEnd ∧
      p.commitEnd.store.copies = p.store.copies.commit k.content ∧
      ∀ f, (p.commitEnd.fob f).keep = (((p.written k).tellCommitted k.content.record).fob f).keep ∧
        (p.commitEnd.fob f).waits.map (·.slot) = (((p.written k).tellCommitted k.content.record).fob f).waits.map (·.slot) := by
  have told := (p.written k).tellCommitted_store k.content.record
  rw [Part.commitEnd_eq h due]
  generalize (p.written k).tellCommitted k.content.record = q at told
  split
  · refine ⟨(q.markDirty_does _).toWithin, ?_⟩
    rw [Part.markDirty_idle (by rw [told]; rfl)]
    obtain ⟨copies, -, fobs, -⟩ := q.marked_leaves k.content.record
    obtain ⟨copies', fobs'⟩ := (q.marked k.content.record).tryCommit_leaves
    refine ⟨copies'.trans (copies.trans (by rw [told]; rfl)), fun f => ?_⟩
    rw [show q.fob f = (q.marked k.content.record).fob f from congrArg (·.get f) fobs.symm]
    exact fobs' f
  · refine ⟨q.tryCommit_does.toWithin, ?_⟩
    obtain ⟨copies, fobs⟩ := q.tryCommit_leaves
    exact ⟨copies.trans (by rw [told]; rfl), fobs⟩

/-- Settles O29: the oldest dirty record leaves the set, an order that waits for its record ends as the commit does. -/
theorem commitsWriteTheOldestRecord : Obligations.CommitsWriteTheOldestRecord := by
  intro s
  refine ⟨fun r rest hd hc hk hr => ?_, fun k hk due => ?_, fun l => ⟨fun _ => rfl, fun _ _ => rfl, fun _ _ => rfl⟩⟩
  · have may : s.part.mayCommit = true := by simp [Part.mayCommit, hd, hc, hk, hr]
    refine (completes_run (f := (·.tryCommit)) rfl).2 ?_
    have does := s.part.tryCommit_does
    have begins : s.part.tryCommit = s.part.beginCommit := if_pos may
    rw [begins] at does ⊢
    have store := Part.beginCommit_store hd
    refine ⟨by rw [store], by rw [store], by rw [store], does.doors (by decide), does.windows (by decide),
      does.fobs (by decide), fun f e => ?_, fun f e => ?_⟩
    · rw [Part.beginCommit_fob hd, if_pos e]
    · rw [Part.beginCommit_fob hd, if_neg e]
  · refine (completes_run (f := (·.commitEnd)) rfl).2 ?_
    have does := s.part.commitEnd_does
    obtain ⟨within, copies, fobs⟩ := Part.commitEnd_tells hk due
    have told := (s.part.written k).tellCommitted_store k.content.record
    refine ⟨copies, does.doors (by decide), does.windows (by decide), fun same none => ?_, fun changed => ?_, fun f x hx => ?_⟩
    · rw [Part.commitEnd_eq hk due, same, if_neg (by decide), Part.tryCommit_rest (by rw [told]; exact none), told]
      exact ⟨none, rfl⟩
    · rw [Part.commitEnd_eq hk due, changed, if_pos rfl, Part.markDirty_idle (by rw [told]; rfl)]
      obtain ⟨-, -, -, clock, mem⟩ := ((s.part.written k).tellCommitted k.content.record).marked_leaves k.content.record
      have mem := Part.tryCommit_mem mem
      rwa [clock, ((s.part.written k).tellCommitted_does k.content.record).clock] at mem
    · have own : k.content.record = .fob f := by rw [hx]; rfl
      rw [own] at within fobs
      obtain ⟨keep, waits⟩ := fobs f
      refine ⟨(keep.trans (Part.tellCommitted_keep ..)).symm, fun n hn => ?_, fun n hn => ?_⟩
      · have ends := Part.tellCommitted_begun (p := s.part.written k) hn
        rw [ends] at within waits
        refine ⟨?_, ?_⟩
        · have gone : (((s.part.written k).setFob f { (s.part.written k).fob f with waits := none }).fobOrderDone f n
              .completed).fob f = { s.part.fob f with waits := none } :=
            (congrArg (·.get f) ((Part.fobOrderDone_does _ _ _ _).begun (by decide))).trans
              ((Part.setFob_fob ..).trans (if_pos rfl))
          rw [gone] at waits
          exact Option.map_eq_none_iff.1 waits
        · rw [within.head n (by decide)]
          exact (Part.orderDone_head _ _ _ _ _ _).trans (if_pos rfl)
      · have stands := Part.tellCommitted_waiting (p := s.part.written k) hn
        rw [stands] at within waits
        refine ⟨waits.trans ?_, within.heads (by decide)⟩
        rw [show (s.part.written k).fob f = s.part.fob f from rfl, hn]
        rfl

end Sys2Proof.Machine
end

section
/-! The entry into SAFE-HOLD (R199, R205): what every block leaves as the part enters it. -/

namespace Sys2Proof.Machine

/-! ### The re-reference watch -/

set_option Elab.async false in -- the declarations above are finished first: this bounds the memory of the one text
theorem Part.Within.watch {K : List Area} {p q : Part} (w : Part.Within K p q) (h : .monitors ∉ K) (x : Corner) :
    (q.monitor x).watch = (p.monitor x).watch := by rw [w.monitor x h]

theorem Part.closeLearn_watch (p : Part) (c x : Corner) (l : Learn) (o : Option OrderOutcome) (n : Option Nat) :
    ((p.closeLearn c l o n).monitor x).watch = (p.monitor x).watch := by
  have kept : ((p.setMonitor c { p.monitor c with learn := none }).monitor x).watch = (p.monitor x).watch := by
    rw [Part.setMonitor_monitor]
    split
    · subst_vars; rfl
    · rfl
  unfold Part.closeLearn
  dsimp only
  split
  · exact kept
  · exact ((Part.appendRow_does _ _).toWithin.watch (by decide) x).trans kept

theorem Part.endLearn_watch (p : Part) (c x : Corner) (o : OrderOutcome) (n : Option Nat) (clamp : Bool) :
    ((p.endLearn c o n clamp).monitor x).watch = (p.monitor x).watch := by
  unfold Part.endLearn
  split
  · rfl
  · rename_i l _
    have ended (a b : Word) : (((p.closeLearn c l (some o) n).orderDone l.slot o a b).monitor x).watch = (p.monitor x).watch :=
      ((Part.orderDone_does _ _ _ a b).toWithin.watch (by decide) x).trans (p.closeLearn_watch c x l _ n)
    dsimp only
    split
    · exact ((Part.clampPosition_does _ c).toWithin.watch (by decide) x).trans (ended _ _)
    · exact ended _ _

theorem Part.tellMover_watch (p : Part) (c x : Corner) (m : Option Mover) (o : OrderOutcome) (e : EntryReason)
    (stop : Option StopReason) (judge : Bool) : ((p.tellMover c m o e stop judge).monitor x).watch = (p.monitor x).watch := by
  unfold Part.tellMover
  split
  · rfl
  · rfl
  · rfl
  · exact (p.reportEnd_does c e judge).toWithin.watch (by decide) x
  · split
    · exact p.endLearn_watch c x o _ _
    · exact (p.endMoveOrder_does c _ o stop).toWithin.watch (by decide) x

theorem Part.stopAndTell_watch (p : Part) (c x : Corner) (r : StopReason) (judge : Bool) :
    ((p.stopAndTell c r judge).monitor x).watch = (p.monitor x).watch := by
  refine (Part.tellMover_watch _ c x _ _ _ _ judge).trans ?_
  simp only [Part.stopWindow, Part.markDirty_fields, Part.dropHolder, Part.setLists_fields, Part.halt, Part.appendRow_fields,
    Part.setMonitor_monitor, Part.setWindow_fields]
  split
  · subst_vars; rfl
  · rfl

theorem Part.withdrawPending_watch (p : Part) (c x : Corner) (o : OrderOutcome) (e : EntryReason) (judge : Bool) :
    ((p.withdrawPending c o e judge).monitor x).watch = (p.monitor x).watch := by
  unfold Part.withdrawPending
  split
  · rfl
  · exact (Part.tellMover_watch _ c x _ o e none judge).trans ((p.dropPending_within c).watch (by decide) x)

/-! ### A window that rests -/

/-- Stopped, with no pending command and no re-reference watch. -/
structure Part.Rests (p : Part) (c : Corner) : Prop where
  motion : (p.window c).motion = .stopped
  pending : (p.window c).pending = none
  watch : (p.monitor c).watch = none

theorem Part.Rests.within {K : List Area} {p q : Part} {c : Corner} (h : p.Rests c) (w : Part.Within K p q)
    (hw : .windows ∉ K := by decide) (hm : .monitors ∉ K := by decide) : q.Rests c :=
  ⟨by rw [w.window c hw]; exact h.motion, by rw [w.window c hw]; exact h.pending, by rw [w.monitor c hm]; exact h.watch⟩

/-- A stop of any window leaves a window that rests at rest. -/
theorem Part.Rests.stopAndTell {p : Part} {x : Corner} (h : p.Rests x) (c : Corner) (r : StopReason) (judge : Bool) :
    (p.stopAndTell c r judge).Rests x := by
  have watch := (p.stopAndTell_watch c x r judge).trans h.watch
  obtain ⟨same, other⟩ := p.stopAndTell_window c x r judge
  by_cases e : x = c
  · subst e
    rw [if_pos rfl] at same
    exact ⟨by rw [same]; rfl, by rw [same]; exact h.pending, watch⟩
  · exact ⟨by rw [other e]; exact h.motion, by rw [other e]; exact h.pending, watch⟩

theorem Part.Rests.withdrawPending {p : Part} {x : Corner} (h : p.Rests x) (c : Corner) (o : OrderOutcome) (e : EntryReason)
    (judge : Bool) : (p.withdrawPending c o e judge).Rests x := by
  have watch := (p.withdrawPending_watch c x o e judge).trans h.watch
  obtain ⟨same, other⟩ := p.withdrawPending_window c x o e judge
  by_cases e : x = c
  · subst e
    rw [if_pos rfl] at same
    exact ⟨by rw [same]; exact h.motion, by rw [same], watch⟩
  · exact ⟨by rw [other e]; exact h.motion, by rw [other e]; exact h.pending, watch⟩

/-- A stopped window without a watch is at rest once its pending command is withdrawn. -/
theorem Part.withdrawPending_rests {p : Part} {c : Corner} (hm : (p.window c).motion = .stopped)
    (hw : (p.monitor c).watch = none) (o : OrderOutcome) (e : EntryReason) (judge : Bool) :
    (p.withdrawPending c o e judge).Rests c := by
  have same := (p.withdrawPending_window c c o e judge).1
  rw [if_pos rfl] at same
  exact ⟨by rw [same]; exact hm, by rw [same], (p.withdrawPending_watch c c o e judge).trans hw⟩

/-- SAFE-HOLD's entry at a window brings it to rest. -/
theorem Part.windowSafeHold_rests (p : Part) (c : Corner) : (p.windowSafeHold c).Rests c := by
  have ended : ((p.endWatch c).monitor c).watch = none := by
    rw [Part.endWatch, Part.setMonitor_monitor, if_pos rfl]
  unfold Part.windowSafeHold
  dsimp only
  generalize p.endWatch c = q at ended
  split
  · refine Part.withdrawPending_rests ?_ ((q.stopAndTell_watch c c .reset false).trans ended) _ _ _
    have same := (q.stopAndTell_window c c .reset false).1
    rw [if_pos rfl] at same
    rw [same]
    rfl
  · rename_i still
    exact Part.withdrawPending_rests (by simpa [WindowRec.driven] using still) ended _ _ _

theorem Part.Rests.endWatch {p : Part} {x : Corner} (h : p.Rests x) (c : Corner) : (p.endWatch c).Rests x := by
  refine ⟨h.motion, h.pending, ?_⟩
  rw [Part.endWatch, Part.setMonitor_monitor]
  split
  · rfl
  · exact h.watch

theorem Part.Rests.windowSafeHold {p : Part} {x : Corner} (h : p.Rests x) (c : Corner) : (p.windowSafeHold c).Rests x := by
  unfold Part.windowSafeHold
  dsimp only
  split
  · exact ((h.endWatch c).stopAndTell c _ _).withdrawPending c _ _ _
  · exact (h.endWatch c).withdrawPending c _ _ _

theorem Part.eachCorner_windowSafeHold_rests (p : Part) (x : Corner) : (p.eachCorner Part.windowSafeHold).Rests x := by
  have fl := p.windowSafeHold_rests .fl
  have fr := (p.windowSafeHold .fl).windowSafeHold_rests .fr
  have rl := ((p.windowSafeHold .fl).windowSafeHold .fr).windowSafeHold_rests .rl
  have rr := (((p.windowSafeHold .fl).windowSafeHold .fr).windowSafeHold .rl).windowSafeHold_rests .rr
  rw [Part.eachCorner, Corner.all]
  simp only [List.foldl_cons, List.foldl_nil]
  cases x with
  | fl => exact ((fl.windowSafeHold .fr).windowSafeHold .rl).windowSafeHold .rr
  | fr => exact (fr.windowSafeHold .rl).windowSafeHold .rr
  | rl => exact rl.windowSafeHold .rr
  | rr => exact rr

/-! ### A part at rest -/

/-- What SAFE-HOLD leaves of a part: no timer of the doors, no window moves or waits, no search, no tracker. -/
structure Part.Quiet (p : Part) : Prop where
  relock : p.doors.relock = none
  press : p.doors.press = none
  rests : ∀ c, p.Rests c
  list : p.locator.list = []
  flight : p.locator.flight = none
  idle : ∀ f, (p.fob f).tracker = .idle

/-- A step that touches none of these. -/
theorem Part.Quiet.within {K : List Area} {p q : Part} (h : p.Quiet) (w : Part.Within K p q) (hd : .doors ∉ K := by decide)
    (hw : .windows ∉ K := by decide) (hm : .monitors ∉ K := by decide) (hl : .locator ∉ K := by decide)
    (hf : .fobs ∉ K := by decide) : q.Quiet where
  relock := by rw [w.doors hd]; exact h.relock
  press := by rw [w.doors hd]; exact h.press
  rests c := (h.rests c).within w hw hm
  list := by rw [w.locator hl]; exact h.list
  flight := by rw [w.locator hl]; exact h.flight
  idle f := by
    obtain ⟨-, -, -, -, -, tracker, -⟩ := w.fobs hf f
    rw [tracker]
    exact h.idle f

theorem Part.Quiet.setDoor {p : Part} (h : p.Quiet) (d : Door) (x : DoorRec) : (p.setDoor d x).Quiet :=
  ⟨h.relock, h.press, fun c => ⟨(h.rests c).motion, (h.rests c).pending, (h.rests c).watch⟩, h.list, h.flight, h.idle⟩

/-- A write of the doors that starts neither timer. -/
theorem Part.Quiet.setDoors {p : Part} (h : p.Quiet) {d : Doors} (hr : d.relock = none) (hp : d.press = none) :
    (p.setDoors d).Quiet :=
  ⟨hr, hp, fun c => ⟨(h.rests c).motion, (h.rests c).pending, (h.rests c).watch⟩, h.list, h.flight, h.idle⟩

/-- The windows apart, nothing of these is touched. -/
theorem Part.Quiet.windows {K : List Area} {p q : Part} (h : p.Quiet) (w : Part.Within K p q) (r : ∀ c, q.Rests c)
    (hd : .doors ∉ K := by decide) (hl : .locator ∉ K := by decide) (hf : .fobs ∉ K := by decide) : q.Quiet where
  relock := by rw [w.doors hd]; exact h.relock
  press := by rw [w.doors hd]; exact h.press
  rests := r
  list := by rw [w.locator hl]; exact h.list
  flight := by rw [w.locator hl]; exact h.flight
  idle f := by
    obtain ⟨-, -, -, -, -, tracker, -⟩ := w.fobs hf f
    rw [tracker]
    exact h.idle f

theorem Part.Quiet.stopAndTell {p : Part} (h : p.Quiet) (c : Corner) (r : StopReason) (judge : Bool) :
    (p.stopAndTell c r judge).Quiet :=
  h.windows (p.stopAndTell_does c r judge).toWithin fun x => (h.rests x).stopAndTell c r judge

theorem Part.Quiet.withdrawPending {p : Part} (h : p.Quiet) (c : Corner) (o : OrderOutcome) (e : EntryReason) (judge : Bool) :
    (p.withdrawPending c o e judge).Quiet :=
  h.windows (p.withdrawPending_does c o e judge).toWithin fun x => (h.rests x).withdrawPending c o e judge

/-! ### Grants -/

/-- A grant starts no window that has no pending command. -/
theorem Part.tellGrant_rests {p : Part} (h : ∀ c, p.Rests c) : ∀ a c, (p.tellGrant a).Rests c
  | .window c => by
    rw [Part.tellGrant, Part.windowGranted, (h c).pending]
    exact h
  | .latch d => fun c => (h c).within (p.startPulse_does d).toWithin

theorem grantHeads_rests : ∀ (n : Nat) {p : Part}, (∀ c, p.Rests c) → ∀ c, (grantHeads n p).Rests c
  | 0, _, h => h
  | n + 1, p, h => by
    unfold grantHeads
    split
    · exact h
    · split
      · exact grantHeads_rests n (Part.tellGrant_rests (fun c => (h c).within (p.setLists_within _ _)) _)
      · exact h

theorem settle_rests {f : Part → Part} {p : Part} (h : ∀ c, (f p).Rests c) (c : Corner) : (settle f p).Rests c := by
  unfold settle
  dsimp only
  split
  · exact h c
  · exact grantHeads_rests _ h c

/-- Granting after an event that leaves the part quiet. -/
theorem Part.Quiet.granted {f : Part → Part} {p : Part} (h : (f p).Quiet) : (settle f p).Quiet :=
  h.windows (settle_grants f p).toWithin (settle_rests h.rests)

end Sys2Proof.Machine
end

section
/-! What SAFE-HOLD takes keeps the part at rest (R179, R205). -/

namespace Sys2Proof.Machine

set_option Elab.async false in -- the declarations above are finished first: this bounds the memory of the one text
theorem Part.Quiet.foldl {α : Type} {f : Part → α → Part} (k : ∀ p x, p.Quiet → (f p x).Quiet) :
    ∀ (l : List α) {p : Part}, p.Quiet → (l.foldl f p).Quiet
  | [], _, h => h
  | x :: l, p, h => Part.Quiet.foldl k l (k p x h)

theorem Part.Quiet.lists {p : Part} (h : p.Quiet) (a : List Holder) (b : List Waiter) : (p.setLists a b).Quiet :=
  h.within (p.setLists_within a b)

/-! ### Releases -/

theorem Part.Quiet.endRelease {p : Part} (h : p.Quiet) (d : Door) (o : ReleaseOutcome) : (p.endRelease d o).Quiet := by
  unfold Part.endRelease
  split
  · exact h
  · rename_i op _
    have row := (h.setDoor d ((p.door d).withOutcome o)).within (Part.appendRow_does _ (releaseEndRow d o op.second op.sources
      op.prec)).toWithin
    have told := row.foldl (f := fun r s => r.orderDone s o.order (releaseWord6 d op))
      (fun r s k => k.within (Part.orderDone_does _ _ _ _ _).toWithin) op.orders
    exact told.within (Part.setLatch_does _ _ _).toWithin

theorem Part.Quiet.latchOpened {p : Part} (h : p.Quiet) (d : Door) : (p.latchOpened d).Quiet := by
  unfold Part.latchOpened
  split
  · exact h
  · split
    · exact (h.lists _ _).endRelease d _
    · exact (h.lists _ _).endRelease d _
    · exact (h.lists _ _).endRelease d _
    · exact h.endRelease d _

theorem Part.Quiet.escapeHolder {p : Part} (h : p.Quiet) (d : Door) (k : GrantKind) (w : Option Corner) :
    (p.escapeHolder d k w).Quiet :=
  ((h.lists _ _).within (Part.startPulse_does _ d).toWithin).within (Part.appendRow_does _ _).toWithin

theorem Part.Quiet.grantEscape {p : Part} (h : p.Quiet) (d : Door) : (p.grantEscape d).Quiet := by
  unfold Part.grantEscape
  split
  · exact h.escapeHolder d _ _
  · split
    · exact (h.stopAndTell _ _ _).escapeHolder d _ _
    · exact h.escapeHolder d _ _

theorem Part.Quiet.latch {p : Part} (h : p.Quiet) (d : Door) (o : Option ReleaseOp) : (p.setLatch d o).Quiet :=
  h.within (p.setLatch_does d o).toWithin

theorem Part.Quiet.joinRelease {p : Part} (h : p.Quiet) (d : Door) (op : ReleaseOp) (src : ReleaseSource) (slot : Option Slot) :
    (p.joinRelease d op src slot).Quiet := by
  unfold Part.joinRelease Part.raiseRelease
  dsimp only
  split
  · split
    · exact ((h.latch d _).lists _ _).grantEscape d
    · exact ((h.latch d _).lists _ _).grantEscape d
    · exact (h.latch d _).lists _ _
    · exact h.latch d _
  · exact h.latch d _

theorem Part.Quiet.beginRelease {p : Part} (h : p.Quiet) (d : Door) (src : ReleaseSource) (slot : Option Slot) :
    (p.beginRelease d src slot).Quiet := by
  unfold Part.beginRelease
  dsimp only
  split
  · exact (h.latch d _).grantEscape d
  · exact (h.latch d _).lists _ _

/-- A pull or a press asks for a release. -/
theorem Part.Quiet.releaseAsked {p : Part} (h : p.Quiet) (d : Door) (src : ReleaseSource) : (p.releaseRequest d src none).Quiet := by
  unfold Part.releaseRequest
  dsimp only
  split
  · exact h
  · split
    · exact h.within (p.appendRow_does _).toWithin
    · split
      · exact h.joinRelease d _ src none
      · exact h.beginRelease d src none

/-! ### Doors -/

theorem Part.Quiet.row {p : Part} (h : p.Quiet) (r : Row) : (p.appendRow r).Quiet := h.within (p.appendRow_does r).toWithin

theorem Part.Quiet.markDirty {p : Part} (h : p.Quiet) (r : RecordId) : (p.markDirty r).Quiet :=
  h.within (p.markDirty_does r).toWithin

theorem Part.Quiet.lockAction {p : Part} (h : p.Quiet) (src : LockSource) (a : LockAction) (who : PerDoor Bool) :
    (p.lockAction src a who).Quiet := by
  have locks : ((p.setLocks (p.lockTargets a who)).setDoors { (p.setLocks (p.lockTargets a who)).doors with
      relock := none }).Quiet :=
    ⟨rfl, h.press, fun c => ⟨(h.rests c).motion, (h.rests c).pending, (h.rests c).watch⟩, h.list, h.flight, h.idle⟩
  unfold Part.lockAction Part.takeLock
  dsimp only
  split
  · split
    · exact h.row _
    · exact h
  · split
    · exact (locks.row _).markDirty _
    · exact locks

theorem Part.Quiet.innerPull {p : Part} (h : p.Quiet) (c : Corner) : (p.innerPull c).Quiet := by
  unfold Part.innerPull
  dsimp only
  split
  · exact h
  · split
    · exact h.row _
    · split
      · exact h.row _
      · split
        · exact (h.lockAction _ _ _).releaseAsked _ _
        · exact h.releaseAsked _ _

theorem Part.Quiet.setLocator {p : Part} (h : p.Quiet) {l : Locator} (hl : l.list = []) (hf : l.flight = none) :
    (p.setLocator l).Quiet :=
  ⟨h.relock, h.press, fun c => ⟨(h.rests c).motion, (h.rests c).pending, (h.rests c).watch⟩, hl, hf, h.idle⟩

theorem Part.Quiet.ajarEvent {p : Part} (h : p.Quiet) (d : Door) (a : Ajar) : (p.ajarEvent d a).Quiet := by
  have marked {q : Part} {c : Prop} [Decidable c] (k : q.Quiet) : (if c then q else q.markDirty .lock).Quiet := by
    split
    · exact k
    · exact k.markDirty _
  unfold Part.ajarEvent
  dsimp only
  refine marked ?_
  cases a with
  | isOpen =>
    refine Part.Quiet.row (Part.Quiet.setLocator (Part.Quiet.setDoors (Part.Quiet.setDoors (h.setDoor d _) ?_ ?_) ?_ ?_) ?_ ?_) _
    · exact h.relock
    · exact h.press
    · rfl
    · exact h.press
    · exact List.map_eq_nil_iff.2 h.list
    · exact Option.map_eq_none_iff.2 h.flight
  | isClosed =>
    refine Part.Quiet.row (Part.Quiet.setDoors (h.setDoor d _) ?_ ?_) _
    · exact h.relock
    · exact h.press

theorem Part.Quiet.ignEvent {p : Part} (h : p.Quiet) (on : Bool) (hs : p.inSafeHold = true) : (p.ignEvent on).Quiet := by
  unfold Part.ignEvent
  exact (if_pos hs : (if p.inSafeHold = true then _ else _) = _) ▸ h.setDoors h.relock h.press

/-- Every input event that SAFE-HOLD takes. -/
theorem Part.Quiet.takeEvent {p : Part} (h : p.Quiet) {code : HoldCode} (hs : p.state = .safeHold code) (i : Input)
    (old new : Level) : (p.takeEvent i old new).Quiet := by
  have held : p.inSafeHold = true := by rw [Part.inSafeHold, hs]
  rw [Part.takeEvent, hs]
  dsimp only
  split
  · refine Part.Quiet.granted ?_
    rename_i taken
    unfold Part.deliver
    split
    · exact h
    · cases i with
      | ajar d =>
        dsimp only
        unfold Part.deliverAjar
        dsimp only
        split
        · exact (h.ajarEvent d _).latchOpened d
        · exact h.ajarEvent d _
      | inner c => exact h.innerPull c
      | ign => exact h.ignEvent _ held
      | _ => cases taken
  · exact h

/-! ### The crash event -/

theorem Part.Quiet.markLearn {p : Part} (h : p.Quiet) (c : Corner) : (p.markLearn c).Quiet := by
  refine h.windows (p.markLearn_does c).toWithin fun x => ⟨(h.rests x).motion, (h.rests x).pending, ?_⟩
  rw [Part.markLearn, Part.setMonitor_monitor]
  split
  · subst_vars; exact (h.rests x).watch
  · exact (h.rests x).watch

theorem Part.Quiet.windowCrash {p : Part} (h : p.Quiet) (c : Corner) : (p.windowCrash c).Quiet := by
  have marked := h.markLearn c
  unfold Part.windowCrash
  dsimp only
  rw [if_neg (by rw [(marked.rests c).motion]; decide), (marked.rests c).pending]
  exact marked

theorem Part.Quiet.crashEntry {p : Part} (h : p.Quiet) (c : Corner) : (p.crashEntry c).Quiet := by
  unfold Part.crashEntry
  split
  · exact h
  · dsimp only
    split
    · exact (h.withdrawPending c _ _ _).within (Part.reportEnd_does _ c _ _).toWithin
    · exact h.within (Part.reportEnd_does _ c _ _).toWithin

theorem Part.Quiet.crashTracker {p : Part} (h : p.Quiet) (f : Fob) : (p.crashTracker f).Quiet := by
  unfold Part.crashTracker
  rw [h.idle f]
  exact h

theorem Part.Quiet.crashDoors {p : Part} (h : p.Quiet) : p.crashDoors.Quiet := by
  have w := p.crashDoors_does.toWithin
  obtain ⟨relock, press⟩ : p.crashDoors.doors.relock = none ∧ p.crashDoors.doors.press = none := by
    unfold Part.crashDoors
    dsimp only
    split
    · simp only [Part.markDirty_fields]
      exact ⟨rfl, rfl⟩
    · exact ⟨rfl, rfl⟩
  refine ⟨relock, press, fun c => (h.rests c).within w, ?_, ?_, fun f => ?_⟩
  · rw [w.locator (by decide)]; exact h.list
  · rw [w.locator (by decide)]; exact h.flight
  · obtain ⟨-, -, -, -, -, tracker, -⟩ := w.fobs (by decide) f
    rw [tracker]
    exact h.idle f

theorem Part.Quiet.crashOperation {p : Part} (h : p.Quiet) : p.crashOperation.Quiet := by
  unfold Part.crashOperation
  split
  · exact (h.foldl (fun _ c k => k.crashEntry c) Corner.all).within (Part.endOperation_does _ _).toWithin
  · exact h

theorem Part.Quiet.crashEvent {p : Part} (h : p.Quiet) : p.crashEvent.Quiet := by
  have latched : ({ p with crash := { p.crash with latch := some p.nextLatch } } : Part).Quiet :=
    ⟨h.relock, h.press, fun c => ⟨(h.rests c).motion, (h.rests c).pending, (h.rests c).watch⟩, h.list, h.flight, h.idle⟩
  unfold Part.crashEvent
  exact ((((latched.row _).crashDoors).foldl (fun _ c k => k.windowCrash c) Corner.all).crashOperation).foldl
    (fun _ f k => k.crashTracker f) Fob.all

/-! ### The entry -/

/-- In SAFE-HOLD with the hold code, at rest, and the doze dwell stopped. -/
structure Part.Held (code : HoldCode) (p : Part) : Prop where
  state : p.state = .safeHold code
  dwell : p.dwell = none
  quiet : p.Quiet

theorem Part.Held.overtaken {code : HoldCode} {p : Part} (h : p.Held code) (e : HeldEvent) : (p.overtaken e).Held code := by
  cases e with
  | frame fr t => exact h
  | input i old new =>
    refine ⟨((p.takeEvent_does i old new).state (by decide)).trans h.state, ?_, h.quiet.takeEvent h.state i old new⟩
    rw [Part.overtaken, Part.takeEvent, h.state]
    dsimp only
    split
    · exact ((settle_does (M := .operation :: deliverAreas ++ grantAreas) (p.deliver_does i old new)).dwell (by decide)).trans h.dwell
    · exact h.dwell

/-- What a wake held, and SAFE-HOLD overtook. -/
theorem Part.Held.overtakeWake {code : HoldCode} {p : Part} (h : p.Held code) : ∀ w, (p.overtakeWake w).Held code
  | none => h
  | some w => by
    have crashed : (if w.crashHeld then settle Part.crashEvent p else p).Held code := by
      split
      · have does := settle_does (M := crashAreas ++ grantAreas) (p.crashEvent_does fun e => by cases h.state.symm.trans e)
        exact ⟨(does.state (by decide)).trans h.state, (does.dwell (by decide)).trans h.dwell, Part.Quiet.granted h.quiet.crashEvent⟩
      · exact h
    have all : ∀ (l : List HeldEvent) (q : Part), q.Held code → (l.foldl Part.overtaken q).Held code := by
      intro l
      induction l with
      | nil => exact fun _ k => k
      | cons e l ih => exact fun q k => ih _ (k.overtaken e)
    exact all _ _ crashed

/-- An order POSTED in SAFE-HOLD is refused, and nothing is granted. -/
theorem Part.takeOrder_refuses {p : Part} (h : p.inSafeHold = true) (k : Slot) : ∃ r, p.takeOrder k = p.orderRefused k r := by
  unfold Part.takeOrder
  split
  · exact ⟨_, rfl⟩
  · split
    · exact ⟨_, rfl⟩
    · exact ⟨_, rfl⟩

theorem Part.Quiet.takePosted {p : Part} (h : p.Quiet) (hs : p.inSafeHold = true) : p.takePosted.Quiet := by
  have one (q : Part) (k : Slot) (hq : q.Quiet ∧ q.inSafeHold = true) :
      let r := if (q.head k).state = .posted then settle (·.takeOrder k) q else q
      r.Quiet ∧ r.inSafeHold = true := by
    dsimp only
    split
    · obtain ⟨r, refused⟩ := Part.takeOrder_refuses hq.2 k
      have within := (q.orderRefused_does k r 0).toWithin
      have same : settle (·.takeOrder k) q = q.orderRefused k r := by
        unfold settle
        dsimp only
        rw [refused, if_pos]
        exact ⟨within.holders (by decide), within.waiting (by decide), within.budget⟩
      rw [same]
      refine ⟨hq.1.within within, ?_⟩
      rw [Part.inSafeHold, within.state (by decide)]
      exact hq.2
    · exact hq
  have all : ∀ (l : List Slot) (q : Part), q.Quiet ∧ q.inSafeHold = true →
      (l.foldl (fun q s => if (q.head s).state = .posted then settle (·.takeOrder s) q else q) q).Quiet := by
    intro l
    induction l with
    | nil => exact fun _ k => k.1
    | cons e l ih => exact fun q k => ih _ (one q e k)
  exact all _ p ⟨h, hs⟩

end Sys2Proof.Machine
end

section
/-! The part's faults (R199, R205): the hold code each leads to. -/

namespace Sys2Proof.Machine

/-! ### The blocks as SAFE-HOLD is entered -/

/-- Neither door timer changes. -/
def Part.SameTimers (p q : Part) : Prop := q.doors.relock = p.doors.relock ∧ q.doors.press = p.doors.press

set_option Elab.async false in -- the declarations above are finished first: this bounds the memory of the one text
theorem Part.Within.sameTimers {K : List Area} {p q : Part} (w : Part.Within K p q) (h : .doors ∉ K := by decide) :
    Part.SameTimers p q := ⟨by rw [w.doors h], by rw [w.doors h]⟩

theorem Part.SameTimers.trans {p q r : Part} (h : Part.SameTimers p q) (k : Part.SameTimers q r) : Part.SameTimers p r :=
  ⟨k.1.trans h.1, k.2.trans h.2⟩

theorem Part.SameTimers.foldl {α : Type} {f : Part → α → Part} (h : ∀ p x, Part.SameTimers p (f p x)) :
    ∀ (l : List α) (p : Part), Part.SameTimers p (l.foldl f p)
  | [], _ => ⟨rfl, rfl⟩
  | x :: l, p => (h p x).trans (Part.SameTimers.foldl h l (f p x))

theorem Part.abortRequest_sameTimers (cause : AbortCause) (p : Part) (r : Request) :
    Part.SameTimers p (p.abortRequest cause r) := by
  have told (out : OrderOutcome) (row : Row) :
      Part.SameTimers p (r.orders.foldl (fun q k => q.orderDone k out) (p.appendRow row)) :=
    (p.appendRow_does row).toWithin.sameTimers.trans
      (.foldl (fun q k => (q.orderDone_does k out 0 0).toWithin.sameTimers) _ _)
  unfold Part.abortRequest
  dsimp only
  split
  · exact (told _ _).trans ⟨rfl, rfl⟩
  · exact told _ _

theorem Part.abortSearches_sameTimers (p : Part) (cause : AbortCause) : Part.SameTimers p (p.abortSearches cause) :=
  .trans (q := p.setLocator { p.locator with list := [], flight := none }) ⟨rfl, rfl⟩
    (.foldl (Part.abortRequest_sameTimers cause) _ _)

/-- SAFE-HOLD leaves every tracker IDLE (R147). -/
theorem Part.resetTracker_fob (p : Part) (f g : Fob) :
    (g ≠ f → (p.resetTracker f).fob g = p.fob g) ∧ ((p.resetTracker f).fob f).tracker = .idle := by
  unfold Part.resetTracker
  split
  · rename_i h
    exact ⟨fun _ => rfl, h⟩
  all_goals
    refine ⟨fun hg => ?_, ?_⟩
    · simp [Part.setTracker, hg]
    · simp [Part.setTracker]

theorem Part.eachFob_reset (p : Part) (f : Fob) : ((p.eachFob Part.resetTracker).fob f).tracker = .idle := by
  have others (q : Part) (g : Fob) (h : f ≠ g) := (q.resetTracker_fob g f).1 h
  have own (q : Part) (g : Fob) := (q.resetTracker_fob g g).2
  simp only [Part.eachFob, Fob.all, List.foldl_cons, List.foldl_nil]
  cases f
  · rw [others _ _ (by decide), others _ _ (by decide), others _ _ (by decide)]
    exact own _ _
  · rw [others _ _ (by decide), others _ _ (by decide)]
    exact own _ _
  · rw [others _ _ (by decide)]
    exact own _ _
  · exact own _ _

/-- The windows and the operation as SAFE-HOLD is entered. -/
def Part.holdWindows (p : Part) : Part := (p.eachCorner Part.windowSafeHold).safeHoldOperation

theorem Part.holdWindows_within (p : Part) : Part.Within stopAreas p p.holdWindows :=
  (Part.Does.after (Part.safeHoldOperation_does _) (.mono (Part.eachCorner_does p Part.windowSafeHold_does))).toWithin

theorem Part.holdWindows_rests (p : Part) (c : Corner) : p.holdWindows.Rests c := by
  have rests := p.eachCorner_windowSafeHold_rests c
  unfold Part.holdWindows Part.safeHoldOperation
  split
  · exact rests.within ((Part.Does.foldl (fun (q : Part) x => q.reportEnd_does x .reset false) _ _).trans
      (Part.endOperation_does _ .cancelled) (List.Subset.refl _) (List.Subset.refl _)).toWithin
  · exact rests

/-- The blocks before the orders POSTED are taken. -/
def Part.blocksHeld (p : Part) : Part :=
  ((settle Part.holdWindows (p.setDoors { p.doors with relock := none, press := none })).abortSearches .safeHold).eachFob
    Part.resetTracker

theorem Part.safeHoldBlocks_eq (p : Part) : p.safeHoldBlocks = p.blocksHeld.takePosted := rfl

theorem Part.blocksHeld_quiet (p : Part) : p.blocksHeld.Quiet := by
  unfold Part.blocksHeld
  have windows := (Part.holdWindows_within (p.setDoors { p.doors with relock := none, press := none })).trans
    (settle_grants Part.holdWindows (p.setDoors { p.doors with relock := none, press := none })).toWithin
    (M := stopAreas ++ grantAreas) (by decide) (by decide)
  have rests := settle_rests fun c => (p.setDoors { p.doors with relock := none, press := none }).holdWindows_rests c
  generalize settle Part.holdWindows (p.setDoors { p.doors with relock := none, press := none }) = q at windows rests
  have searches := (q.abortSearches_does .safeHold).toWithin
  have trackers := (Part.eachFob_does (q.abortSearches .safeHold) Part.resetTracker_does).toWithin
  obtain ⟨relock, press⟩ := (windows.sameTimers.trans (q.abortSearches_sameTimers .safeHold)).trans trackers.sameTimers
  have none := q.abortSearches_locator .safeHold
  refine ⟨relock, press, fun c => ((rests c).within searches).within trackers, ?_, ?_, Part.eachFob_reset _⟩
  · rw [trackers.locator (by decide), none]
  · rw [trackers.locator (by decide), none]

theorem Part.blocksHeld_within (p : Part) : Part.Within calmAreas p p.blocksHeld := by
  have windows := (Part.holdWindows_within (p.setDoors { p.doors with relock := none, press := none })).trans
    (settle_grants Part.holdWindows (p.setDoors { p.doors with relock := none, press := none })).toWithin
    (M := calmAreas) (by decide) (by decide)
  have doors := (p.setDoors_sameLocks (x := { p.doors with relock := none, press := none }) rfl rfl rfl rfl).toWithin
  refine .trans (K := calmAreas) (L := trackerAreas) ?_ (Part.eachFob_does _ Part.resetTracker_does).toWithin
    (by decide) (by decide)
  refine .trans (K := calmAreas) (L := .locator :: latchAreas) ?_ (Part.abortSearches_does _ .safeHold).toWithin
    (by decide) (by decide)
  exact doors.trans windows (by decide) (by decide)

theorem Part.safeHoldBlocks_held {p : Part} {code : HoldCode} (hs : p.state = .safeHold code) (hd : p.dwell = none) :
    p.safeHoldBlocks.Held code := by
  have held : p.inSafeHold = true := by rw [Part.inSafeHold, hs]
  have does := (p.safeHoldBlocks_does held).toWithin
  have state := (p.blocksHeld_within.state (by decide)).trans hs
  exact ⟨(does.state (by decide)).trans hs, (does.dwell (by decide)).trans hd,
    p.blocksHeld_quiet.takePosted (by rw [Part.inSafeHold, state])⟩

theorem Part.leaveDrivers_within {p : Part} (h : p.state ≠ .start .full .drivers) (left : PartState) :
    Part.Within (.supply :: releaseAreas ++ beginAreas) p (p.leaveDrivers left) := by
  unfold Part.leaveDrivers
  split
  · rename_i test
    have judged := (p.judgeClass_does test).toWithin
    have state := (judged.state (by decide)).trans rfl
    exact judged.trans (Part.beginService_does _ test (by rw [state]; exact h)).toWithin (by decide) (by decide)
  · exact .refl _ p

/-- SAFE-HOLD is entered with the hold code and every block at rest (R205). -/
theorem Part.enterSafeHold_held {p : Part} (h : p.inSafeHold = false) (code : HoldCode) : (p.enterSafeHold code).Held code := by
  unfold Part.enterSafeHold
  rw [if_neg (by rw [h]; decide)]
  have left := Part.leaveDrivers_within (p := { p with state := .safeHold code, dwell := none, waking := none, listen := none })
    (by rintro ⟨⟩) p.state
  dsimp only
  generalize ({ p with state := .safeHold code, dwell := none, waking := none, listen := none } : Part).leaveDrivers p.state = q
    at left
  have row : Part.Within rowAreas q (if q.port.served then q.appendRow (safeHoldEnteredRow code) else q) := by
    split
    · exact (q.appendRow_does _).toWithin
    · exact .refl _ q
  exact (Part.safeHoldBlocks_held ((row.state (by decide)).trans (left.state (by decide)))
    ((row.dwell (by decide)).trans (left.dwell (by decide)))).overtakeWake p.waking

theorem Part.Held.shows {p : Part} {code : HoldCode} (h : p.Held code) : p.state = .safeHold code ∧ p.holdCode = code.number := by
  refine ⟨h.state, ?_⟩
  rw [Part.holdCode, h.state]

/-- A DRIVERS stage that finds a bridge supply fault (R199). -/
theorem Part.driversEnd_fault {p : Part} {test : SelfTest} {found : DriversFindings} (hs : p.state = .start test .drivers)
    (hf : found.supplyFault = true) : (p.driversEnd found).Held .supplyFault := by
  unfold Part.driversEnd
  rw [hs]
  dsimp only
  rw [if_pos hf]
  refine Part.enterSafeHold_held ?_ _
  have begun := (Part.beginService_does (((p.judgeDrivers found).judgeClass test).setState (.start test test.afterDrivers)) test
    (fun e => by cases test <;> cases e)).toWithin
  rw [Part.inSafeHold, begun.state (by decide)]
  rfl

/-- Settles O27: SAFE-HOLD is entered with the finding's own hold code. -/
theorem partFaultsEnterSafeHold : Obligations.PartFaultsEnterSafeHold := by
  unfold Obligations.PartFaultsEnterSafeHold
  intro s
  refine ⟨fun test found hs hf => ?_, fun hs => ?_, fun test found hs hf => ?_, fun hs => ?_, fun hs => ?_,
    fun us low high => ?_, fun us off good => ?_, fun us off bad hs => ?_⟩
  · exact (completes_run (f := (·.driversEnd found)) rfl).2 (Part.driversEnd_fault hs hf).shows
  · refine (completes_run (f := (·.memoryEnd true)) rfl).2 ?_
    have fault : s.part.memoryEnd true = s.part.enterSafeHold .memoryFault := by
      rw [Part.memoryEnd, hs]
      rfl
    rw [fault]
    exact (Part.enterSafeHold_held (by rw [Part.inSafeHold, hs]) _).shows
  · refine (completes_run (f := (·.storeEnd found)) rfl).2 ?_
    have fault : s.part.storeEnd found = (s.part.judgeStore (s.part.badRecords found)).enterSafeHold .storeFault := by
      rw [Part.storeEnd, hs]
      dsimp only
      rw [if_pos hf]
    rw [fault]
    exact (Part.enterSafeHold_held (p := s.part.judgeStore (s.part.badRecords found)) (by
      rw [Part.inSafeHold, show (s.part.judgeStore (s.part.badRecords found)).state = s.part.state from rfl, hs]) _).shows
  · have held := Part.enterSafeHold_held hs .parityFault
    obtain ⟨state, code⟩ := held.shows
    exact (completes_run (f := (·.enterSafeHold .parityFault)) rfl).2 ⟨state, code, held.quiet.relock, held.quiet.press,
      fun c => ⟨(held.quiet.rests c).motion, (held.quiet.rests c).pending, (held.quiet.rests c).watch⟩, held.quiet.list,
      held.quiet.flight, held.quiet.idle, held.dwell⟩
  · exact exec_part (f := (·.enterSafeHold .parityFault)) rfl (if_pos hs)
  · exact exec_part (f := (·.timeBase us)) rfl (by simp [Part.timeBase, show ¬ us < 97000 by omega, show ¬ 103000 < us by omega])
  · exact exec_part (f := (·.timeBase us)) rfl (by simp [Part.timeBase, off, good])
  · refine (completes_run (f := (·.timeBase us)) rfl).2 ?_
    have fault : s.part.timeBase us = ({ s.part with timeBaseBad := true } : Part).enterSafeHold .timeBaseFault := by
      simp [Part.timeBase, off, bad]
    rw [fault]
    exact (Part.enterSafeHold_held (p := { s.part with timeBaseBad := true }) hs _).shows

end Sys2Proof.Machine
end

section
/-! The STORE stage of the self-test (R208): what it delivers and what it marks. -/

namespace Sys2Proof.Machine

/-! ### Marked records -/

/-- The record is dirty or being committed. -/
def Part.Marked (p : Part) (r : RecordId) : Prop :=
  r ∈ p.store.dirty ∨ ∃ k, p.store.commit = some k ∧ k.content.record = r

set_option Elab.async false in -- the declarations above are finished first: this bounds the memory of the one text
theorem Part.Marked.tryCommit {p : Part} {r : RecordId} (h : p.Marked r) : p.tryCommit.Marked r := by
  unfold Part.tryCommit
  split
  · rename_i may
    have idle : p.store.commit = none := by
      simp only [Part.mayCommit, Bool.and_eq_true, Option.isNone_iff_eq_none] at may
      exact may.1.1.1
    rcases h with dirty | ⟨k, hk, -⟩
    · have begins : p.tryCommit = p.beginCommit := if_pos may
      rcases Part.tryCommit_mem dirty with mem | ⟨j, hj, hr, -⟩
      · exact .inl (begins ▸ mem)
      · exact .inr ⟨j, begins ▸ hj, hr⟩
    · rw [idle] at hk
      cases hk
  · exact h

theorem Part.marked_keeps {p : Part} {r : RecordId} (x : RecordId) (h : p.Marked r) : (p.marked x).Marked r := by
  unfold Part.marked
  split
  · exact h
  · exact h.imp (fun m => List.mem_append_left _ m) id

/-- A mark while a commit is under way. -/
theorem Part.markDirty_busy {p : Part} {k : Commit} (h : p.store.commit = some k) (r : RecordId) :
    p.markDirty r = if k.content.record = r then { p with store := { p.store with commit := some { k with changed := true } } }
      else p.marked r := by
  simp only [Part.markDirty, h, Part.marked]

theorem Part.markDirty_marks (p : Part) (r : RecordId) : (p.markDirty r).Marked r := by
  have added : (p.marked r).Marked r := .inl (p.marked_leaves r).2.2.2.2
  cases h : p.store.commit with
  | none => rw [Part.markDirty_idle h]; exact added.tryCommit
  | some k =>
    rw [Part.markDirty_busy h]
    split
    · exact .inr ⟨_, rfl, by assumption⟩
    · exact added

theorem Part.Marked.markDirty {p : Part} {r : RecordId} (h : p.Marked r) (x : RecordId) : (p.markDirty x).Marked r := by
  cases hc : p.store.commit with
  | none => rw [Part.markDirty_idle hc]; exact (Part.marked_keeps x h).tryCommit
  | some k =>
    rw [Part.markDirty_busy hc]
    split
    · refine h.imp id fun ⟨j, hj, hr⟩ => ⟨_, rfl, ?_⟩
      obtain rfl : k = j := Option.some.inj (hc.symm.trans hj)
      exact hr
    · exact Part.marked_keeps x h

theorem Part.Marked.of {p q : Part} {r : RecordId} (h : p.Marked r) (e : q.store = p.store) : q.Marked r := by
  unfold Part.Marked
  rw [e]
  exact h

/-- A fob that awaits no commit is left as it is by every commit's begin. -/
theorem Part.tryCommit_fob {p : Part} {f : Fob} (h : (p.fob f).waits = none) : p.tryCommit.fob f = p.fob f := by
  unfold Part.tryCommit
  split
  · cases hd : p.store.dirty with
    | nil => rw [Part.beginCommit, hd]
    | cons x rest =>
      rw [Part.beginCommit_fob hd]
      split
      · rw [h]
        exact congrArg (fun w => { p.fob f with waits := w }) h.symm
      · rfl
  · rfl

/-- A mark leaves the stored copies, and a fob that awaits no commit. -/
theorem Part.markDirty_leaves (p : Part) (r : RecordId) : (p.markDirty r).store.copies = p.store.copies ∧
    ∀ f, (p.fob f).waits = none → (p.markDirty r).fob f = p.fob f := by
  obtain ⟨copies, -, fobs, -⟩ := p.marked_leaves r
  have same (f : Fob) : (p.marked r).fob f = p.fob f := congrArg (·.get f) fobs
  cases h : p.store.commit with
  | none =>
    rw [Part.markDirty_idle h]
    exact ⟨(p.marked r).tryCommit_leaves.1.trans copies,
      fun f hf => (Part.tryCommit_fob (by rw [same]; exact hf)).trans (same f)⟩
  | some k =>
    rw [Part.markDirty_busy h]
    split
    · exact ⟨rfl, fun _ _ => rfl⟩
    · exact ⟨copies, fun f _ => same f⟩

/-! ### One record -/

/-- A step over all the records: what one record's own step sets, the others' steps keep. -/
theorem Part.eachRecord_at {f : Part → RecordId → Part} {I Q : Part → Prop} (r : RecordId) {p : Part} (h : I p)
    (keepI : ∀ q x, x ≠ r → I q → I (f q x)) (sets : ∀ q, I q → Q (f q r)) (keepQ : ∀ q x, x ≠ r → Q q → Q (f q x)) :
    Q (p.eachRecord f) := by
  obtain ⟨a, b, split⟩ := List.append_of_mem (show r ∈ RecordId.all by cases r with
    | fob g => cases g <;> decide
    | lock => decide
    | window c => cases c <;> decide)
  have nodup : (a ++ r :: b).Nodup := split ▸ (by decide : RecordId.all.Nodup)
  obtain ⟨-, tail, apart⟩ := List.nodup_append.1 nodup
  have before (x : RecordId) (hx : x ∈ a) : x ≠ r := apart x hx r List.mem_cons_self
  have after (x : RecordId) (hx : x ∈ b) : x ≠ r := fun e => (List.nodup_cons.1 tail).1 (e ▸ hx)
  have fold {J : Part → Prop} (keep : ∀ q x, x ≠ r → J q → J (f q x)) :
      ∀ (l : List RecordId), (∀ x ∈ l, x ≠ r) → ∀ q, J q → J (l.foldl f q) := by
    intro l
    induction l with
    | nil => exact fun _ _ k => k
    | cons x l ih =>
      exact fun apart q k => ih (fun y hy => apart y (List.mem_cons_of_mem x hy)) _ (keep q x (apart x List.mem_cons_self) k)
  rw [Part.eachRecord, split, List.foldl_append, List.foldl_cons]
  exact fold keepQ b after _ (sets _ (fold keepI a before p h))

theorem Part.recordBad_of {p q : Part} (h : q.store.copies = p.store.copies) (found : StoreFindings) (r : RecordId) :
    q.recordBad found r = p.recordBad found r := by
  cases r <;> simp only [Part.recordBad, Part.readFob, Part.readLock, Part.readWindow, h]

/-- The doors as the lock record is delivered: what an event has settled stays (R27). -/
def Doors.delivered (d : Doors) (t : Settling) (k : LockKeep) : Doors :=
  { d with
    recs := .build fun x => { d.recs.get x with
      lock := if t.doors.get x then (d.recs.get x).lock
        else if (k.locks.get x).barred ∧ (d.recs.get x).ajar = .isOpen then .lockPending else k.locks.get x }
    childRL := if t.childRL then d.childRL else k.childRL
    childRR := if t.childRR then d.childRR else k.childRR
    settling := none }

/-- The lock record delivered. -/
def Part.locksDelivered (p : Part) (t : Settling) (k : LockKeep) : Part :=
  { p with lockout := k.lockout, doors := p.doors.delivered t k }

theorem Part.deliverLocks_eq {p : Part} {t : Settling} (h : p.doors.settling = some t) (k : LockKeep) :
    p.deliverLocks k = if (p.locksDelivered t k).adoptedAs k then p.locksDelivered t k
      else (p.locksDelivered t k).markDirty .lock := by
  simp only [Part.deliverLocks, h]
  rfl

/-- The lock record's delivery leaves the store but for its own mark. -/
theorem Part.deliverLocks_leaves (p : Part) (k : LockKeep) : (p.deliverLocks k).store.copies = p.store.copies ∧
    (p.deliverLocks k).windows = p.windows ∧ (∀ f, (p.fob f).waits = none → (p.deliverLocks k).fob f = p.fob f) ∧ ∀ r, p.Marked r → (p.deliverLocks k).Marked r := by
  cases h : p.doors.settling with
  | none =>
    rw [Part.deliverLocks, h]
    exact ⟨rfl, rfl, fun _ _ => rfl, fun _ k => k⟩
  | some t =>
    rw [Part.deliverLocks_eq h]
    split
    · exact ⟨rfl, rfl, fun _ _ => rfl, fun _ k => k⟩
    · obtain ⟨copies, fobs⟩ := (p.locksDelivered t k).markDirty_leaves .lock
      exact ⟨copies, ((p.locksDelivered t k).markDirty_does .lock).windows (by decide), fobs, fun r hr => Part.Marked.markDirty (p := p.locksDelivered t k) hr .lock⟩

/-- A delivered record: its mark and its row where it is bad, and nothing else of what `leaves` names. -/
theorem Part.deliverRecord_leaves (found : StoreFindings) (p : Part) (x : RecordId) :
    (p.deliverRecord found x).store.copies = p.store.copies ∧
      (∀ f, x ≠ .fob f → (p.fob f).waits = none → (p.deliverRecord found x).fob f = p.fob f) ∧
      (∀ c, x ≠ .window c → (p.deliverRecord found x).window c = p.window c) ∧
      (x ≠ .lock → (p.deliverRecord found x).doors = p.doors ∧ (p.deliverRecord found x).lockout = p.lockout) ∧
      ∀ r, p.Marked r → (p.deliverRecord found x).Marked r := by
  have adopts : (p.adoptRecord found x).store.copies = p.store.copies ∧
      (∀ f, x ≠ .fob f → (p.fob f).waits = none → (p.adoptRecord found x).fob f = p.fob f) ∧
      (∀ c, x ≠ .window c → (p.adoptRecord found x).window c = p.window c) ∧
      (x ≠ .lock → (p.adoptRecord found x).doors = p.doors ∧ (p.adoptRecord found x).lockout = p.lockout) ∧
      ∀ r, p.Marked r → (p.adoptRecord found x).Marked r := by
    cases x with
    | fob g =>
      refine ⟨rfl, fun f hf _ => ?_, fun _ _ => rfl, fun _ => ⟨rfl, rfl⟩, fun _ k => k⟩
      rw [Part.adoptRecord, Part.setFob_fob, if_neg (show ¬ f = g from fun e => hf (congrArg RecordId.fob e.symm))]
    | lock =>
      obtain ⟨copies, windows, fobs, marked⟩ := p.deliverLocks_leaves ((p.readLock found).getD .default)
      exact ⟨copies, fun f _ hf => fobs f hf, fun c _ => congrArg (·.get c) windows, fun e => absurd rfl e, marked⟩
    | window y =>
      refine ⟨rfl, fun f _ _ => rfl, fun c hc => ?_, fun _ => ⟨rfl, rfl⟩, fun _ k => k⟩
      rw [Part.adoptRecord, Part.setWindow_window, if_neg (show ¬ c = y from fun e => hc (congrArg RecordId.window e.symm))]
  obtain ⟨copies, fobs, windows, doors, marked⟩ := adopts
  unfold Part.deliverRecord
  dsimp only
  generalize p.adoptRecord found x = q at *
  split
  · obtain ⟨copies', fobs'⟩ := q.markDirty_leaves x
    have w := (q.markDirty_does x).toWithin
    have row := ((q.markDirty x).appendRow_does (storeDefaultsRow x)).toWithin
    refine ⟨by rw [row.store (by decide), copies', copies], fun f hf hw => ?_, fun c hc => ?_, fun e => ?_, fun r hr => ?_⟩
    · have same := fobs f hf hw
      rw [show ((q.markDirty x).appendRow (storeDefaultsRow x)).fob f = (q.markDirty x).fob f from
        congrArg (·.get f) (row.begun (by decide)), fobs' f (by rw [same]; exact hw), same]
    · rw [row.window c (by decide), w.window c (by decide), windows c hc]
    · obtain ⟨d, l⟩ := doors e
      exact ⟨by rw [row.doors (by decide), w.doors (by decide), d], by rw [row.lockout (by decide), w.lockout (by decide), l]⟩
    · exact ((marked r hr).markDirty x).of (row.store (by decide))
  · exact ⟨copies, fobs, windows, doors, marked⟩

/-- The mark and the row of a bad record come after its owner took it. -/
theorem Part.deliverRecord_after (found : StoreFindings) (p : Part) (x : RecordId) :
    (∀ f, ((p.adoptRecord found x).fob f).waits = none → (p.deliverRecord found x).fob f = (p.adoptRecord found x).fob f) ∧
      (p.deliverRecord found x).windows = (p.adoptRecord found x).windows ∧
      (p.deliverRecord found x).doors = (p.adoptRecord found x).doors ∧
      (p.deliverRecord found x).lockout = (p.adoptRecord found x).lockout ∧
      (p.recordBad found x = true → (p.deliverRecord found x).Marked x) := by
  unfold Part.deliverRecord
  dsimp only
  generalize p.adoptRecord found x = q
  split
  · have w := (q.markDirty_does x).toWithin
    have row := ((q.markDirty x).appendRow_does (storeDefaultsRow x)).toWithin
    refine ⟨fun f hf => ?_, ?_, ?_, ?_, fun _ => (q.markDirty_marks x).of (row.store (by decide))⟩
    · rw [show ((q.markDirty x).appendRow (storeDefaultsRow x)).fob f = (q.markDirty x).fob f from
        congrArg (·.get f) (row.begun (by decide)), (q.markDirty_leaves x).2 f hf]
    · rw [row.windows (by decide), w.windows (by decide)]
    · rw [row.doors (by decide), w.doors (by decide)]
    · rw [row.lockout (by decide), w.lockout (by decide)]
  · rename_i sound
    exact ⟨fun _ _ => rfl, rfl, rfl, rfl, fun bad => absurd bad sound⟩

/-! ### What the stage delivers -/

/-- The nine records delivered. -/
structure Part.Delivered (found : StoreFindings) (p q : Part) : Prop where
  copies : q.store.copies = p.store.copies
  fobs : ∀ f, q.fob f = .restored ((p.readFob found f).getD .vacant)
  windows : ∀ c, q.window c = (p.window c).restored ((p.readWindow found c).getD .default)
  locks : ∀ t, p.doors.settling = some t →
    q.doors = p.doors.delivered t ((p.readLock found).getD .default) ∧
      q.lockout = ((p.readLock found).getD .default).lockout
  unsettled : q.doors.settling = none
  marks : ∀ r, p.recordBad found r = true → q.Marked r

theorem Part.deliverLocks_doors {p : Part} {t : Settling} (h : p.doors.settling = some t) (k : LockKeep) :
    (p.deliverLocks k).doors = p.doors.delivered t k ∧ (p.deliverLocks k).lockout = k.lockout := by
  rw [Part.deliverLocks_eq h]
  split
  · exact ⟨rfl, rfl⟩
  · have w := ((p.locksDelivered t k).markDirty_does .lock).toWithin
    exact ⟨w.doors (by decide), w.lockout (by decide)⟩

theorem Part.eachRecord_delivers (found : StoreFindings) (p : Part) :
    Part.Delivered found p (p.eachRecord (Part.deliverRecord found)) where
  copies := by
    refine (Part.eachRecord_at (I := fun q => q.store.copies = p.store.copies) (Q := fun q => q.store.copies = p.store.copies)
      .lock rfl (fun q x _ k => ?_) (fun q k => ?_) fun q x _ k => ?_)
    all_goals exact (Part.deliverRecord_leaves found q _).1.trans k
  fobs f := by
    refine Part.eachRecord_at (I := fun q => q.store.copies = p.store.copies)
      (Q := fun q => q.fob f = .restored ((p.readFob found f).getD .vacant)) (.fob f) rfl
      (fun q x _ k => (Part.deliverRecord_leaves found q x).1.trans k) (fun q k => ?_) fun q x hx k => ?_
    · have own : (q.adoptRecord found (.fob f)).fob f = .restored ((p.readFob found f).getD .vacant) := by
        rw [Part.adoptRecord, Part.setFob_fob, if_pos rfl, Part.readFob, k]
        rfl
      rw [(Part.deliverRecord_after found q (.fob f)).1 f (by rw [own]; rfl), own]
    · rw [(Part.deliverRecord_leaves found q x).2.1 f hx (by rw [k]; rfl), k]
  windows c := by
    refine Part.eachRecord_at (I := fun q => q.store.copies = p.store.copies ∧ q.window c = p.window c)
      (Q := fun q => q.window c = (p.window c).restored ((p.readWindow found c).getD .default)) (.window c) ⟨rfl, rfl⟩
      (fun q x hx k => ?_) (fun q k => ?_) fun q x hx k => ?_
    · obtain ⟨copies, -, windows, -⟩ := Part.deliverRecord_leaves found q x
      exact ⟨copies.trans k.1, (windows c hx).trans k.2⟩
    · obtain ⟨-, windows, -⟩ := Part.deliverRecord_after found q (.window c)
      rw [show (q.deliverRecord found (.window c)).window c = (q.adoptRecord found (.window c)).window c from
        congrArg (·.get c) windows, Part.adoptRecord, Part.setWindow_window, if_pos rfl, Part.readWindow, k.1, k.2]
      rfl
    · obtain ⟨-, -, windows, -⟩ := Part.deliverRecord_leaves found q x
      exact (windows c hx).trans k
  locks t ht := by
    refine Part.eachRecord_at
      (I := fun q => q.store.copies = p.store.copies ∧ q.doors = p.doors)
      (Q := fun q => q.doors = p.doors.delivered t ((p.readLock found).getD .default) ∧
        q.lockout = ((p.readLock found).getD .default).lockout) .lock ⟨rfl, rfl⟩
      (fun q x hx k => ?_) (fun q k => ?_) fun q x hx k => ?_
    · obtain ⟨copies, -, -, doors, -⟩ := Part.deliverRecord_leaves found q x
      exact ⟨copies.trans k.1, (doors hx).1.trans k.2⟩
    · obtain ⟨-, -, doors, lockout, -⟩ := Part.deliverRecord_after found q .lock
      have read : q.readLock found = p.readLock found := by rw [Part.readLock, k.1]; rfl
      obtain ⟨own, out⟩ := Part.deliverLocks_doors (p := q) (by rw [k.2]; exact ht) ((q.readLock found).getD .default)
      rw [doors, lockout, Part.adoptRecord, own, out, read]
      exact ⟨congrArg (Doors.delivered · t _) k.2, rfl⟩
    · obtain ⟨-, -, -, doors, -⟩ := Part.deliverRecord_leaves found q x
      obtain ⟨d, l⟩ := doors hx
      exact ⟨d.trans k.1, l.trans k.2⟩
  unsettled := by
    refine Part.eachRecord_at (I := fun _ => True) (Q := fun q => q.doors.settling = none) .lock trivial
      (fun _ _ _ k => k) (fun q _ => ?_) fun q x hx k => ?_
    · obtain ⟨-, -, doors, -⟩ := Part.deliverRecord_after found q .lock
      rw [doors, Part.adoptRecord]
      cases h : q.doors.settling with
      | none => rw [Part.deliverLocks, h]; exact h
      | some t => rw [(Part.deliverLocks_doors h _).1]; rfl
    · obtain ⟨-, -, -, doors, -⟩ := Part.deliverRecord_leaves found q x
      rw [(doors hx).1]
      exact k
  marks r bad := by
    refine Part.eachRecord_at (I := fun q => q.store.copies = p.store.copies) (Q := fun q => q.Marked r) r rfl
      (fun q x _ k => (Part.deliverRecord_leaves found q x).1.trans k) (fun q k => ?_) fun q x _ k => ?_
    · exact (Part.deliverRecord_after found q r).2.2.2.2 ((Part.recordBad_of k found r).trans bad)
    · exact (Part.deliverRecord_leaves found q x).2.2.2.2 r k

end Sys2Proof.Machine
end

section
/-! The stages of the self-test (R198, R199, R208), each in its place. -/

namespace Sys2Proof.Machine

/-! ### The STORE stage's end -/

/-- The stage's findings recorded and the next stage entered. -/
def Part.storeJudged (p : Part) (found : StoreFindings) (test : SelfTest) : Part :=
  (p.judgeStore (p.badRecords found)).setState (.start test .antennas)

set_option Elab.async false in -- the declarations above are finished first: this bounds the memory of the one text
theorem Part.storeEnd_sound {p : Part} {test : SelfTest} {found : StoreFindings} (hs : p.state = .start test .store)
    (hr : p.storeUnreadable found = false) :
    p.storeEnd found = ((p.storeJudged found test).takeRecords found (p.badRecords found) test).openStore := by
  rw [Part.storeEnd, hs]
  dsimp only
  rw [hr]
  rfl

/-- The store answers: what it holds decides alone which record is bad. -/
theorem Part.badRecords_get {p : Part} {found : StoreFindings} (h : p.storeUnreadable found = false) (r : RecordId) :
    (p.badRecords found).get r = p.recordBad found r := by
  simp only [Part.storeUnreadable, Bool.or_eq_false_iff, Bool.not_eq_false'] at h
  have built : (p.badRecords found).get r = (!found.answers || p.recordBad found r) := by
    cases r with
    | fob f => cases f <;> rfl
    | lock => rfl
    | window c => cases c <;> rfl
  rw [built, h.1]
  rfl

theorem Part.tryCommit_ready (p : Part) : p.tryCommit.store.ready = p.store.ready := by
  unfold Part.tryCommit
  split
  · cases h : p.store.dirty with
    | nil => rw [Part.beginCommit, h]
    | cons r rest => rw [Part.beginCommit_store h]
  · rfl

/-- Commits may begin from here on; what the owners took stands. -/
theorem Part.openStore_leaves (p : Part) : p.openStore.store.copies = p.store.copies ∧ p.openStore.store.ready = true ∧
    (∀ f, (p.fob f).waits = none → p.openStore.fob f = p.fob f) ∧ ∀ r, p.Marked r → p.openStore.Marked r :=
  ⟨(Part.tryCommit_leaves _).1, Part.tryCommit_ready _, fun _ hf => Part.tryCommit_fob hf,
    fun _ hr => Part.Marked.tryCommit (p := { p with store := { p.store with ready := true } }) hr⟩

/-- The short self-test's stage marks the bad records. -/
theorem Part.eachRecord_marks (p : Part) (bad : PerRecord Bool) :
    (p.eachRecord fun q r => if bad.get r then q.markDirty r else q).store.copies = p.store.copies ∧
      ∀ r, bad.get r = true → (p.eachRecord fun q r => if bad.get r then q.markDirty r else q).Marked r := by
  have copies (q : Part) (x : RecordId) : (if bad.get x then q.markDirty x else q).store.copies = q.store.copies := by
    split
    · exact (q.markDirty_leaves x).1
    · rfl
  refine ⟨Part.eachRecord_at (I := fun q => q.store.copies = p.store.copies) (Q := fun q => q.store.copies = p.store.copies)
    .lock rfl (fun q x _ k => (copies q x).trans k) (fun q k => (copies q .lock).trans k) fun q x _ k => (copies q x).trans k,
    fun r hr => Part.eachRecord_at (I := fun _ => True) (Q := fun q => q.Marked r) r trivial (fun _ _ _ k => k)
      (fun q _ => ?_) fun q x _ k => ?_⟩
  · rw [if_pos hr]
    exact q.markDirty_marks r
  · split
    · exact k.markDirty x
    · exact k

theorem LockState.barred_iff (l : LockState) : l.barred = true ↔ l = .locked ∨ l = .deadlocked := by cases l <;> decide

theorem Doors.delivered_get (x : Doors) (t : Settling) (k : LockKeep) (d : Door) : (x.delivered t k).recs.get d =
    { x.recs.get d with lock := if t.doors.get d then (x.recs.get d).lock
        else if (k.locks.get d).barred ∧ (x.recs.get d).ajar = .isOpen then .lockPending else k.locks.get d } := by
  cases d <;> rfl

/-- Settles O26: each owner's record by `eachRecord_delivers`, which opening the store leaves. -/
theorem storeStageDeliversTheRecords : Obligations.StoreStageDeliversTheRecords := by
  unfold Obligations.StoreStageDeliversTheRecords
  intro s found sound
  refine ⟨fun hs => ?_, fun hs => ?_⟩
  · refine (completes_run (f := (·.storeEnd found)) rfl).2 ?_
    rw [Part.storeEnd_sound hs sound]
    have full := Part.eachRecord_delivers found (s.part.storeJudged found .full)
    have latches := (Part.eachRecord_does (s.part.storeJudged found .full) (Part.deliverRecord_does found)).toWithin
    rw [Part.takeRecords]
    generalize (s.part.storeJudged found .full).eachRecord (Part.deliverRecord found) = q at full latches
    have opened := q.openStore_does.toWithin
    obtain ⟨-, -, fobs, marks⟩ := q.openStore_leaves
    refine ⟨fun f => ?_, fun c => ?_, fun t ht => ?_, fun r hr => ?_, ?_, ?_⟩
    · rw [fobs f (by rw [full.fobs]; rfl), full.fobs]
      rfl
    · have window : q.openStore.window c = _ := (opened.window c (by decide)).trans (full.windows c)
      refine ⟨fun k hk => ?_, fun hn => ?_⟩
      · rw [window, show (s.part.storeJudged found .full).readWindow found c = some k from hk]
        rfl
      · rw [window, show (s.part.storeJudged found .full).readWindow found c = none from hn]
        rfl
    · obtain ⟨doors, lockout⟩ := full.locks t ht
      rw [opened.doors (by decide), opened.lockout (by decide), doors, lockout]
      refine ⟨rfl, rfl, rfl, rfl, rfl, fun d => ?_⟩
      have door : q.openStore.door d = (s.part.doors.delivered t ((s.part.readLock found).getD .default)).recs.get d :=
        (opened.door d (by decide)).trans (congrArg (fun x : Doors => x.recs.get d) doors)
      rw [door, Doors.delivered_get]
      refine ⟨rfl, ?_⟩
      simp only [LockState.barred_iff, and_comm]
      rfl
    · exact marks r (full.marks r hr)
    · exact (opened.latches (by decide)).trans (latches.latches (by decide))
    · exact (opened.holders (by decide)).trans (latches.holders (by decide))
  · refine (completes_run (f := (·.storeEnd found)) rfl).2 ?_
    rw [Part.storeEnd_sound hs sound]
    have marked := Part.eachRecord_marks (s.part.storeJudged found .short) (s.part.badRecords found)
    have within := (Part.eachRecord_does (K := markAreas) (s.part.storeJudged found .short)
      (f := fun q r => if (s.part.badRecords found).get r then q.markDirty r else q)
      fun q r => .ite (fun _ => q.markDirty_does r) fun _ => .refl _ q).toWithin
    rw [Part.takeRecords]
    generalize (s.part.storeJudged found .short).eachRecord _ = q at marked within
    have opened := within.trans q.openStore_does.toWithin (M := markAreas) (by decide) (by decide)
    refine ⟨opened.fobs (by decide), opened.windows (by decide), opened.doors (by decide), opened.lockout (by decide),
      fun r hr => q.openStore_leaves.2.2.2 r (marked.2 r ?_)⟩
    rw [Part.badRecords_get sound]
    exact hr

end Sys2Proof.Machine
end

section
/-! The order of the self-test's stages (R198, R199). -/

namespace Sys2Proof.Machine

/-! ### The DRIVERS stage -/

set_option Elab.async false in -- the declarations above are finished first: this bounds the memory of the one text
/-- The findings a DRIVERS stage leaves: a latch driver that pulses keeps its entry (R199). -/
theorem Part.judgeDrivers_degraded (p : Part) (found : DriversFindings) :
    (p.judgeDrivers found).degraded.bridges = found.bridges ∧ (p.judgeDrivers found).degraded.halls = p.degraded.halls ∧
      ∀ d, (p.latch d).map (·.state) ≠ some .pulsing → (p.judgeDrivers found).degraded.latches.get d = found.latches.get d := by
  refine ⟨rfl, rfl, fun d hd => ?_⟩
  have still : ((p.latch d).any fun op => decide (op.state = .pulsing)) = false := by
    cases h : p.latch d with
    | none => rfl
    | some op =>
      rw [h] at hd
      simpa using hd
  have built : (p.judgeDrivers found).degraded.latches.get d = if ((p.latch d).any fun op => decide (op.state = .pulsing)) = true
      then p.degraded.latches.get d else found.latches.get d := by cases d <;> rfl
  rw [built, still]
  rfl

theorem Part.driversEnd_sound {p : Part} {test : SelfTest} {found : DriversFindings} (hs : p.state = .start test .drivers)
    (hf : found.supplyFault = false) : p.driversEnd found =
      (((p.judgeDrivers found).judgeClass test).setState (.start test test.afterDrivers)).beginService test := by
  rw [Part.driversEnd, hs]
  dsimp only
  exact if_neg (by rw [hf]; decide)

/-! ### The MEMORY stage -/

/-- The memory zero and served, the part in its STORE stage. -/
def Part.memoryCleared (p : Part) : Part :=
  { p with
    port := { p.port with memory := [], parity := [], served := true }
    heads := Vector.replicate 16 .free
    state := .start .full .store }

theorem Part.memoryEnd_sound {p : Part} (hs : p.state = .start .full .memory) : p.memoryEnd false = p.memoryCleared.writeGap := by
  rw [Part.memoryEnd, hs]
  rfl

theorem Part.memoryCleared_gap {p : Part} (hs : p.scroll = ⟨0, 0, p.scroll.mark⟩) :
    let q := p.memoryCleared.writeGap
    (∀ j, j < 480 ∨ 484 ≤ j → Memory.readWord q.port.memory j = 0) ∧ q.scroll.mark = 0 ∧
      (p.scroll.mark = 0 → q.port.memory = [] ∧ q.scroll.unread = 0) ∧ (p.scroll.mark ≠ 0 → q.scroll.unread = 1) := by
  have unread : p.memoryCleared.scroll.unread = 0 := by rw [show p.memoryCleared.scroll = p.scroll from rfl, hs]
  dsimp only
  by_cases hm : p.scroll.mark = 0
  · have still : p.memoryCleared.writeGap = p.memoryCleared := Part.writeGap_none fun ⟨_, k⟩ => k hm
    rw [still]
    exact ⟨fun j _ => Memory.readWord_nil j, hm, fun _ => ⟨rfl, unread⟩, fun k => absurd hm k⟩
  · obtain ⟨port, scroll⟩ := Part.writeGap_writes (p := p.memoryCleared) (by rw [unread]; decide) hm
    rw [port, scroll]
    refine ⟨fun j hj => ?_, rfl, fun k => absurd k hm, fun _ => ?_⟩
    · have row : p.memoryCleared.scroll.start = 0 := by rw [show p.memoryCleared.scroll = p.scroll from rfl, hs]
      rw [Part.writeRow_outside _ _ (by rw [row, unread]; simpa using hj)]
      exact Memory.readWord_nil j
    · show p.memoryCleared.scroll.unread + 1 = 1
      rw [unread]

/-- Settles O25: each stage's own equation. -/
theorem selfTestStagesFollowInOrder : Obligations.SelfTestStagesFollowInOrder := by
  unfold Obligations.SelfTestStagesFollowInOrder
  intro s
  refine ⟨fun test found hs hf => ?_, fun found hs => ?_, fun hs scroll => ?_, fun test found hs hr => ?_,
    fun test faulty hs => ?_, fun test faulty hs => ?_⟩
  · refine (completes_run (f := (·.driversEnd found)) rfl).2 ?_
    rw [Part.driversEnd_sound hs hf]
    obtain ⟨bridges, halls, latches⟩ := s.part.judgeDrivers_degraded found
    have judged := ((s.part.judgeDrivers found).judgeClass_does test).toWithin
    have begun := (Part.beginService_does (((s.part.judgeDrivers found).judgeClass test).setState
      (.start test test.afterDrivers)) test (fun e => by cases test <;> cases e)).toWithin
    have degraded := (begun.degraded (by decide)).trans (judged.degraded (by decide))
    rw [degraded]
    refine ⟨(begun.state (by decide)).trans ?_, bridges, halls, latches⟩
    cases test <;> rfl
  · exact exec_part (f := (·.inputsEnd found)) rfl (by rw [Part.inputsEnd, hs])
  · refine (completes_run (f := (·.memoryEnd false)) rfl).2 ?_
    rw [Part.memoryEnd_sound hs]
    obtain ⟨words, mark, none, one⟩ := Part.memoryCleared_gap scroll
    simp only [Part.writeGap_fields]
    exact ⟨rfl, rfl, fun k => by simp [Part.memoryCleared, Part.head], rfl, mark, words, none, one⟩
  · refine (completes_run (f := (·.storeEnd found)) rfl).2 ?_
    rw [Part.storeEnd_sound hs hr]
    have took := (Part.takeRecords_does (s.part.storeJudged found test) found (s.part.badRecords found) test).toWithin
    have opened := (Part.openStore_does ((s.part.storeJudged found test).takeRecords found (s.part.badRecords found) test)).toWithin
    obtain ⟨copies, ready, -⟩ :=
      ((s.part.storeJudged found test).takeRecords found (s.part.badRecords found) test).openStore_leaves
    refine ⟨(opened.state (by decide)).trans (took.state (by decide)), fun r => ?_, copies.trans ?_, fun e => ⟨ready, ?_⟩,
      fun e => ?_⟩
    · rw [opened.degraded (by decide), took.degraded (by decide)]
      exact Part.badRecords_get hr r
    · cases test with
      | full => exact (Part.eachRecord_delivers found (s.part.storeJudged found .full)).copies
      | short => exact (Part.eachRecord_marks (s.part.storeJudged found .short) (s.part.badRecords found)).1
    · subst e
      rw [opened.doors (by decide)]
      exact (Part.eachRecord_delivers found (s.part.storeJudged found .full)).unsettled
    · subst e
      have marks := (Part.eachRecord_does (K := markAreas) (s.part.storeJudged found .short)
        (f := fun q r => if (s.part.badRecords found).get r then q.markDirty r else q)
        fun q r => .ite (fun _ => q.markDirty_does r) fun _ => .refl _ q).toWithin
      have same := marks.trans opened (M := markAreas) (by decide) (by decide)
      exact ⟨same.windows (by decide), same.doors (by decide)⟩
  · exact exec_part (f := (·.antennasEnd faulty)) rfl (by rw [Part.antennasEnd, hs])
  · refine (completes_run (f := (·.receiverEnd faulty)) rfl).2 ?_
    rw [Part.receiverEnd, hs]
    dsimp only
    split
    · exact ⟨rfl, rfl, rfl⟩
    · simp only [Part.appendRow_fields]
      exact ⟨trivial, trivial, trivial⟩

end Sys2Proof.Machine
end

section
/-! Raw levels, the CRASH line and the stuck timers (R166, R173, R178). -/

namespace Sys2Proof.Machine

set_option Elab.async false in -- the declarations above are finished first: this bounds the memory of the one text
/-- What a stuck input's owner sees changes no input and no part state. -/
theorem Part.stuckExpiry_takes {p : Part} {i : Input} (h : due (p.input i).stuckAt p.clock = true) (sound : p.muted i = false) :
    Part.Within (eventAreas ++ grantAreas) ((p.setInput i { p.input i with stuckAt := none, stuck := true }).appendRow
      (inputStuckRow p.driverDoor i (p.input i).level)) (p.stuckExpiry i) := by
  have delivered (q : Part) : Part.Within (eventAreas ++ grantAreas) q (settle (·.deliver i (p.input i).level .rest) q) :=
    (settle_does (f := (·.deliver i (p.input i).level .rest)) (M := eventAreas ++ grantAreas)
      (q.deliver_does i _ _)).toWithin
  unfold Part.stuckExpiry
  dsimp only
  rw [if_pos (by rw [h, sound]; rfl)]
  generalize (p.setInput i { p.input i with stuckAt := none, stuck := true }).appendRow
    (inputStuckRow p.driverDoor i (p.input i).level) = q
  split
  · exact .refl _ q
  · split
    · exact delivered q
    · exact .refl _ q
  · split
    · exact delivered q
    · exact .refl _ q
  · exact delivered q
  · exact (settle_does (f := (·.dozeEvent i (p.input i).level .rest)) (M := eventAreas ++ grantAreas)
      (q.dozeEvent_does i _ _)).toWithin
  · split
    · exact delivered q
    · exact .refl _ q

theorem Part.crashLine_served {p : Part} {on : Bool} (serves : p.doorService = true) (sound : p.degraded.inputs.crash = false)
    (awake : p.state ≠ .doze) (change : (p.input .crash).raw ≠ twoLevel on) : p.crashLine on =
      ((p.setInput .crash { p.input .crash with raw := twoLevel on, level := twoLevel on }).setAssertion
        (if on then some ⟨p.clock, false⟩ else none)).activity := by
  unfold Part.crashLine
  dsimp only
  rw [if_neg (Ne.symm change), serves, sound, if_neg (by decide), if_neg (by simp [awake])]

/-- Settles O30: the record of the input itself, and what `stuckExpiry_takes` leaves. -/
theorem rawLevelsAndStuckTimersAreFollowed : Obligations.RawLevelsAndStuckTimersAreFollowed := by
  unfold Obligations.RawLevelsAndStuckTimersAreFollowed
  refine ⟨fun s => ⟨fun i l fits here notCrash change => ?_, fun on serves sound awake change => ?_⟩, fun s i hd => ⟨fun hm => ?_,
    fun hm => ?_⟩⟩
  · refine (completes_run (f := (·.rawChange i l)) rfl).2 ?_
    have follows : s.part.rawChange i l = s.part.setInput i { s.part.input i with
        raw := l, since := if l = (s.part.input i).level then none else some s.part.clock } := by
      unfold Part.rawChange
      exact if_pos (by simp [fits, here, notCrash, change])
    rw [follows]
    refine ⟨(Part.setInput_input ..).trans (if_pos rfl), fun j hj => (Part.setInput_input ..).trans (if_neg hj), rfl⟩
  · refine (completes_run (f := (·.crashLine on)) rfl).2 ?_
    rw [Part.crashLine_served serves sound awake change]
    have w := (((s.part.setInput .crash { s.part.input .crash with raw := twoLevel on, level := twoLevel on }).setAssertion
      (if on then some ⟨s.part.clock, false⟩ else none)).activity_does).toWithin
    have input := w.input .crash (by decide)
    have set : (s.part.setInput .crash { s.part.input .crash with raw := twoLevel on, level := twoLevel on }).input .crash =
        { s.part.input .crash with raw := twoLevel on, level := twoLevel on } := (Part.setInput_input ..).trans (if_pos rfl)
    exact ⟨by rw [input]; exact congrArg InputRec.raw set, by rw [input]; exact congrArg InputRec.level set, w.crash (by decide), w.doors (by decide), w.windows (by decide)⟩
  · refine (completes_run (f := (·.stuckExpiry i)) rfl).2 ?_
    have took := Part.stuckExpiry_takes hd hm
    have row := ((s.part.setInput i { s.part.input i with stuckAt := none, stuck := true }).appendRow_does
      (inputStuckRow s.part.driverDoor i (s.part.input i).level)).toWithin
    have input (j : Input) : (s.part.stuckExpiry i).input j =
        if j = i then { s.part.input i with stuckAt := none, stuck := true } else s.part.input j :=
      ((took.input j (by decide)).trans (row.input j (by decide))).trans (Part.setInput_input ..)
    have own := (input i).trans (if_pos rfl)
    exact ⟨by rw [own], by rw [own], by rw [own], fun j hj => (input j).trans (if_neg hj),
      (took.state (by decide)).trans (row.state (by decide))⟩
  · exact exec_part (f := (·.stuckExpiry i)) rfl (if_neg (by rw [hm]; simp))

end Sys2Proof.Machine
end

section
/-! The end of a release and the ajar event (R2, R3, R37 to R41). -/

namespace Sys2Proof.Machine

/-! ### A release ends -/

set_option Elab.async false in -- the declarations above are finished first: this bounds the memory of the one text
/-- Orders ended one after the other, each with the same outcome. -/
theorem Part.orderDone_foldl_head (o : OrderOutcome) (w : Word) (k : Slot) : ∀ (l : List Slot) (p : Part),
    (l.foldl (fun q s => q.orderDone s o w) p).head k =
      if k ∈ l then { p.head k with state := .done, code := BitVec.ofNat 8 o.code } else p.head k
  | [], p => by simp
  | s :: l, p => by
    have one : (p.orderDone s o w).head k =
        if k = s then { p.head k with state := .done, code := BitVec.ofNat 8 o.code } else p.head k := by
      rw [Part.orderDone_head]
      split
      · subst_vars; rfl
      · rfl
    rw [List.foldl_cons, Part.orderDone_foldl_head o w k l, one]
    by_cases hs : k = s <;> by_cases hl : k ∈ l <;> simp [hs, hl]

/-- The latch fault after an outcome (R3). -/
theorem DoorRec.withOutcome_opened (r : DoorRec) : (r.withOutcome .opened).fault = if r.fault = .held then .sound else r.fault := by
  cases h : r.fault <;> simp [DoorRec.withOutcome, h]

theorem DoorRec.withOutcome_held (r : DoorRec) : (r.withOutcome .held).fault = if r.fault = .sound then .held else r.fault := by
  cases h : r.fault <;> simp [DoorRec.withOutcome, h]

theorem Part.endRelease_ends {p : Part} {d : Door} {op : ReleaseOp} (h : p.latch d = some op) (o : ReleaseOutcome) :
    (p.endRelease d o).doors = { p.doors with recs := p.doors.recs.set d ((p.door d).withOutcome o) } ∧
      ∀ k, (p.endRelease d o).head k =
        if k ∈ op.orders then { p.head k with state := .done, code := BitVec.ofNat 8 o.order.code } else p.head k := by
  have told := (Part.Does.foldl (fun q k => Part.orderDone_does q k o.order (releaseWord6 d op) 0) op.orders
    ((p.setDoor d ((p.door d).withOutcome o)).appendRow (releaseEndRow d o op.second op.sources op.prec))).toWithin
  have row := ((p.setDoor d ((p.door d).withOutcome o)).appendRow_does
    (releaseEndRow d o op.second op.sources op.prec)).toWithin
  unfold Part.endRelease
  rw [h]
  refine ⟨?_, fun k => ?_⟩
  · rw [(Part.setLatch_does _ _ _).toWithin.doors (by decide), told.doors (by decide), row.doors (by decide)]
    rfl
  · rw [(Part.setLatch_does _ _ _).toWithin.head k (by decide), Part.orderDone_foldl_head, row.head k (by decide)]
    rfl

/-! ### The ajar event -/

/-- The door records as an ajar change leaves them (R2), and the relock timer (R18). -/
theorem Part.ajarEvent_doors (p : Part) (d : Door) (a : Ajar) :
    (∀ x, (p.ajarEvent d a).door x =
      if x = d then { p.door d with ajar := a, lock := ajarLock a (p.door d).lock } else p.door x) ∧
    (p.ajarEvent d a).doors.childRL = p.doors.childRL ∧ (p.ajarEvent d a).doors.childRR = p.doors.childRR ∧
    (p.ajarEvent d a).doors.relock = if a = .isOpen then none else p.doors.relock := by
  have mark {c : Prop} [Decidable c] (q : Part) : (if c then q else q.markDirty .lock).doors = q.doors := by
    split
    · rfl
    · exact (q.markDirty_does .lock).doors (by decide)
  have doors : (p.ajarEvent d a).doors = { p.doors with
      recs := p.doors.recs.set d { p.door d with ajar := a, lock := ajarLock a (p.door d).lock }
      relock := if a = .isOpen then none else p.doors.relock
      settling := (p.ajarEvent d a).doors.settling } := by
    unfold Part.ajarEvent
    dsimp only
    rw [mark]
    cases a with
    | isOpen =>
      rw [(Part.appendRow_does _ _).doors (by decide)]
      rfl
    | isClosed =>
      rw [(Part.appendRow_does _ _).doors (by decide)]
      rfl
  refine ⟨fun x => ?_, ?_, ?_, ?_⟩
  · rw [Part.door, doors]
    exact PerDoor.get_set ..
  all_goals rw [doors]

/-- Door `d` opens with its release in flight: the release ends OPENED, its unit or its waiting entry given up. -/
theorem Part.latchOpened_eq {p : Part} {d : Door} {op : ReleaseOp} (h : p.latch d = some op) :
    ∃ q, (q = p.dropWaiter (.latch d) ∧ (op.state = .waiting ∨ op.state = .retry) ∨
        q = p.dropHolder (.latch d) ∧ op.state = .pulsing ∨ q = p ∧ op.state = .confirming) ∧
      p.latchOpened d = q.endRelease d .opened := by
  rw [Part.latchOpened, h]
  dsimp only
  cases hs : op.state with
  | waiting => exact ⟨_, .inl ⟨rfl, .inl rfl⟩, rfl⟩
  | retry => exact ⟨_, .inl ⟨rfl, .inr rfl⟩, rfl⟩
  | pulsing => exact ⟨_, .inr (.inl ⟨rfl, rfl⟩), rfl⟩
  | confirming => exact ⟨_, .inr (.inr ⟨rfl, rfl⟩), rfl⟩

end Sys2Proof.Machine
end

section
/-! AJAR_CHANGE in SERVICE (R2, R18, R37 to R41). -/

namespace Sys2Proof.Machine

set_option Elab.async false in -- the declarations above are finished first: this bounds the memory of the one text
theorem Part.deliver_ajar (p : Part) (d : Door) (a : Ajar) (old : Level) :
    p.deliver (.ajar d) old (twoLevel (decide (a = .isOpen))) = p.deliverAjar d a := by
  cases a <;> rfl

/-- A change that meets no release in flight. -/
theorem Part.deliverAjar_alone {p : Part} {d : Door} {a : Ajar} (h : p.latch d = none ∨ a = .isClosed) :
    p.deliverAjar d a = p.ajarEvent d a := by
  unfold Part.deliverAjar
  cases a with
  | isClosed => rfl
  | isOpen =>
    dsimp only
    have none : (p.ajarEvent d .isOpen).latch d = none := by
      rw [(p.ajarEvent_does d .isOpen).toWithin.latch d (by decide)]
      exact h.resolve_right (by decide)
    rw [Part.latchOpened, none]

/-- An opening that meets a release in flight, whose waiting entries are the only ones. -/
theorem Part.deliverAjar_ends {p : Part} {d : Door} {op : ReleaseOp} (h : p.latch d = some op)
    (hw : ∀ w ∈ p.waiting, w.actuator = .latch d ∧ (op.state = .waiting ∨ op.state = .retry)) :
    let q := p.deliverAjar d .isOpen
    q.doors = { (p.ajarEvent d .isOpen).doors with
      recs := (p.ajarEvent d .isOpen).doors.recs.set d (((p.ajarEvent d .isOpen).door d).withOutcome .opened) } ∧
      (∀ k, q.head k = if k ∈ op.orders then { p.head k with state := .done, code := BitVec.ofNat 8 OrderOutcome.opened.code }
        else p.head k) ∧
      (∀ x, q.latch x = if x = d then none else p.latch x) ∧ q.waiting = [] ∧
      (∀ e, e ∈ q.holders ↔ e ∈ p.holders ∧ (op.state = .pulsing → e.actuator ≠ .latch d)) := by
  have ajar := (p.ajarEvent_does d .isOpen).toWithin
  have latch (x : Door) : (p.ajarEvent d .isOpen).latch x = p.latch x := ajar.latch x (by decide)
  have waiting : (p.ajarEvent d .isOpen).waiting = p.waiting := ajar.waiting (by decide)
  have holders : (p.ajarEvent d .isOpen).holders = p.holders := ajar.holders (by decide)
  have head (k : Slot) : (p.ajarEvent d .isOpen).head k = p.head k := ajar.head k (by decide)
  obtain ⟨q, given, ends⟩ := Part.latchOpened_eq ((latch d).trans h)
  dsimp only
  have e : p.deliverAjar d .isOpen = q.endRelease d .opened := ends
  have same : Part.Within [.holders, .waiting] (p.ajarEvent d .isOpen) q := by
    rcases given with ⟨rfl, -⟩ | ⟨rfl, -⟩ | ⟨rfl, -⟩
    · exact (Part.dropWaiter_does _ _).toWithin
    · exact Part.setLists_within _ _ _
    · exact .refl _ _
  have own : q.latch d = some op := (same.latch d (by decide)).trans ((latch d).trans h)
  obtain ⟨doors, heads⟩ := Part.endRelease_ends own .opened
  have release := (q.endRelease_does d .opened).toWithin
  rw [e]
  refine ⟨?_, fun k => ?_, fun x => ?_, ?_, fun y => ?_⟩
  · rw [doors, same.door d (by decide), same.doors (by decide)]
  · rw [heads k, same.head k (by decide), head k]
    rfl
  · rw [q.endRelease_latch, same.latch x (by decide), latch x]
  · rw [release.waiting (by decide)]
    rcases given with ⟨rfl, -⟩ | ⟨rfl, hs⟩ | ⟨rfl, hs⟩
    · show (p.ajarEvent d .isOpen).waiting.filter _ = []
      rw [waiting]
      exact List.filter_eq_nil_iff.2 fun w hm => by simp [(hw w hm).1]
    · show (p.ajarEvent d .isOpen).waiting = []
      rw [waiting]
      exact List.eq_nil_iff_forall_not_mem.2 fun w hm => by simp [hs] at hw; exact (hw w hm).elim
    · rw [waiting]
      exact List.eq_nil_iff_forall_not_mem.2 fun w hm => by simp [hs] at hw; exact (hw w hm).elim
  · rw [release.holders (by decide)]
    rcases given with ⟨rfl, hs⟩ | ⟨rfl, hs⟩ | ⟨rfl, hs⟩
    · show y ∈ (p.ajarEvent d .isOpen).holders ↔ _
      rw [holders]
      exact ⟨fun m => ⟨m, fun k => by rw [k] at hs; simp at hs⟩, And.left⟩
    · show y ∈ (p.ajarEvent d .isOpen).holders.filter _ ↔ _
      rw [holders]
      simp [hs]
    · rw [holders]
      simp [hs]

theorem Part.activity_serves {p : Part} (h : p.state = .service) : p.activity = p.startDwell :=
  if_pos (by rw [Part.inService, h]; rfl)

/-- A ready input's change whose owner leaves the arbiter: the owner's own effect, and the dwell restarted. -/
theorem Part.debounced_calmly {p : Part} {i : Input} {l : Level} (h : p.ready i l) (away : ∀ sw, i = .switch sw → l ≠ .rest)
    (routes : routed i l = true) {q : Part} (took : (p.heard i l).deliver i (p.input i).level l = q) {K : List Area}
    (within : Part.Within K (p.heard i l) q) (h1 : .holders ∉ K := by decide) (h2 : .waiting ∉ K := by decide)
    (h3 : .supply ∉ K := by decide) (h4 : .cfg ∉ K := by decide) (h5 : .state ∉ K := by decide) :
    p.debounced i l = q.startDwell := by
  subst took
  rw [Part.debounced_calm h away routes within h1 h2 h3 h4, Part.activity_serves ((within.state h5).trans h.1)]

/-- Settles O31: the ajar event alone, or the release it ends; nothing is granted after either. -/
theorem ajarChangeMovesTheLockState : Obligations.AjarChangeMovesTheLockState := by
  unfold Obligations.AjarChangeMovesTheLockState
  refine ⟨fun s d a ready calm => ?_, fun s d op ready hop hw => ?_⟩
  · refine (completes_run (f := (·.debounced (.ajar d) (twoLevel (decide (a = .isOpen))))) rfl).2 ?_
    have took := (Part.deliver_ajar (s.part.heard (.ajar d) (twoLevel (decide (a = .isOpen)))) d a
      (s.part.input (.ajar d)).level).trans (Part.deliverAjar_alone calm)
    have event := ((s.part.heard (.ajar d) (twoLevel (decide (a = .isOpen)))).ajarEvent_does d a).toWithin
    obtain ⟨door, rl, rr, relock⟩ := (s.part.heard (.ajar d) (twoLevel (decide (a = .isOpen)))).ajarEvent_doors d a
    rw [Part.debounced_calmly ready (fun _ e => by cases e) rfl took event]
    generalize (s.part.heard (.ajar d) (twoLevel (decide (a = .isOpen)))).ajarEvent d a = q at event door rl rr relock
    have own : q.door d = { s.part.door d with ajar := a, lock := ajarLock a (s.part.door d).lock } := (door d).trans (if_pos rfl)
    have outcome : (q.door d).outcome = (s.part.door d).outcome := by rw [own]
    have fault : (q.door d).fault = (s.part.door d).fault := by rw [own]
    refine ⟨congrArg DoorRec.ajar own, (congrArg DoorRec.lock own).trans ?_, outcome, fault, fun x hx => (door x).trans (if_neg hx), rl, rr, event.latches (by decide),
      event.windows (by decide), relock.trans ?_, ?_⟩
    · cases a <;> cases (s.part.door d).lock <;> rfl
    · cases a <;> rfl
    · show some (q.clock + q.cfg.dozeDwell) = _
      rw [event.clock, event.cfg (by decide)]
      rfl
  · refine (completes_run (f := (·.debounced (.ajar d) .l1)) rfl).2 ?_
    have took := Part.deliver_ajar (s.part.heard (.ajar d) .l1) d .isOpen (s.part.input (.ajar d)).level
    obtain ⟨doors, heads, latches, waiting, holders⟩ := Part.deliverAjar_ends (p := s.part.heard (.ajar d) .l1) hop hw
    obtain ⟨door, -, -, relock⟩ := (s.part.heard (.ajar d) .l1).ajarEvent_doors d .isOpen
    rw [Part.debounced_ready ready (fun _ e => by cases e) rfl]
    have quiet : settle (·.deliver (.ajar d) (s.part.input (.ajar d)).level .l1) (s.part.heard (.ajar d) .l1) =
        (s.part.heard (.ajar d) .l1).deliverAjar d .isOpen :=
      (settle_noneWaits (f := (·.deliver (.ajar d) (s.part.input (.ajar d)).level .l1))
        ((congrArg Part.waiting took).trans waiting)).trans took
    rw [quiet, Part.activity_serves ((((s.part.heard (.ajar d) .l1).deliverAjar_does d .isOpen).state (by decide)).trans ready.1)]
    generalize (s.part.heard (.ajar d) .l1).deliverAjar d .isOpen = q at doors heads latches waiting holders
    have old : ((s.part.heard (.ajar d) .l1).ajarEvent d .isOpen).door d =
        { s.part.door d with ajar := .isOpen, lock := ajarLock .isOpen (s.part.door d).lock } := (door d).trans (if_pos rfl)
    have after (x : Door) : q.door x = if x = d then (((s.part.heard (.ajar d) .l1).ajarEvent d .isOpen).door d).withOutcome .opened
        else s.part.door x := by
      rw [Part.door, doors]
      refine (PerDoor.get_set ..).trans ?_
      split
      · rfl
      · rename_i hx
        exact (door x).trans (if_neg hx)
    have own := (after d).trans (if_pos rfl)
    rw [old] at own
    refine ⟨congrArg DoorRec.ajar own, congrArg DoorRec.outcome own, (congrArg DoorRec.fault own).trans ?_,
      (congrArg DoorRec.lock own).trans ?_, fun x hx => (after x).trans (if_neg hx), ?_, (latches d).trans (if_pos rfl),
      fun x hx => (latches x).trans (if_neg hx), waiting, holders, fun k hk => (heads k).trans (if_pos hk),
      fun k hk => (heads k).trans (if_neg hk)⟩
    · exact DoorRec.withOutcome_opened _
    · cases (s.part.door d).lock <;> rfl
    · exact (congrArg Doors.relock doors).trans relock

end Sys2Proof.Machine
end

section
/-! Releases asked for by a pull, a press or a frame, and searches (R31 to R34, R110 to R114). -/

namespace Sys2Proof.Machine

set_option Elab.async false in -- the declarations above are finished first: this bounds the memory of the one text
theorem settle_congr {f g : Part → Part} {p : Part} (h : f p = g p) : settle f p = settle g p := by
  unfold settle
  rw [h]

/-- A release granted at once: the latch pulsed, the holder appended. -/
def Part.pulsed (p : Part) (d : Door) (src : ReleaseSource) : Part :=
  (p.setLatch d (some ⟨.pulsing, false, .release, SourceSet.empty.add src, [], some (p.clock + p.cfg.latchPulse)⟩)).setLists
    (p.holders ++ [⟨.latch d, 1, .release, p.clock, .withinBudget⟩]) []

theorem Part.pulsed_within (p : Part) (d : Door) (src : ReleaseSource) :
    Part.Within [.holders, .waiting, .latches] p (p.pulsed d src) :=
  (p.setLatch_does d _).toWithin.trans (Part.setLists_within _ _ _) (by decide) (by decide)

theorem Part.pulsed_latch (p : Part) (d x : Door) (src : ReleaseSource) : (p.pulsed d src).latch x =
    if x = d then some ⟨.pulsing, false, .release, SourceSet.empty.add src, [], some (p.clock + p.cfg.latchPulse)⟩
    else p.latch x := Part.setLatch_latch _ _ _ _

/-- A release of an IDLE latch that nothing bars: pulsed at once where a unit is free and nothing waits. -/
theorem Part.releaseAsked_pulses {q : Part} {d : Door} {src : ReleaseSource} (outside : src ≠ .inner)
    (shut : (q.door d).ajar = .isClosed) (sound : (q.door d).fault ≠ .driver) (idle : q.latch d = none) (free : q.waiting = [])
    (room : 1 ≤ q.unitsFree) : settle (·.releaseRequest d src none) q = q.pulsed d src := by
  have request : q.releaseRequest d src none =
      (q.setLatch d (some ⟨.waiting, false, .release, SourceSet.empty.add src, [], none⟩)).request (.latch d) .release := by
    simp only [Part.releaseRequest, Part.beginRelease, shut, sound, idle, outside, reduceCtorEq, if_false, false_and]
    rfl
  have waits : (q.releaseRequest d src none).waiting = [⟨.latch d, 1, .release, q.clock, q.clock + 1000⟩] := by
    simp [request, Part.request, free, placeWaiter, actuatorUnits, waitLimit]
  have units : (q.releaseRequest d src none).unitsFree = q.unitsFree := by
    simp [request, Part.request, Part.unitsFree, Part.budget]
  rw [settle_grantsOne (f := (·.releaseRequest d src none)) free waits (by rw [units]; exact room)]
  simp only [request, Part.tellGrant, Part.startPulse, Part.request, Part.setLists_fields, Part.setLatch_fields]
  cases d <;> rfl

/-! ### A search starts -/

/-- Where no search is listed or in flight, a request with no fault becomes the search in flight (R112, R114). -/
theorem Part.searchRequest_starts {p : Part} {r : Request} (serves : p.state = .service) (powered : p.critical = false)
    (list : p.locator.list = []) (flight : p.locator.flight = none) (sound : p.searchFault r = none) :
    p.searchRequest r none = (p.setLocator { p.locator with list := [r] }).startSearch ∧
      ∀ k, p.searchRequest r (some k) = ((p.orderTaken k).setLocator { p.locator with
        list := [r.addSlot (some k)] }).startSearch := by
  have tries (q : Part) (x : Request) (hs : q.state = .service) (hp : q.critical = false) :
      (q.setLocator ⟨[x], none, p.locator.draws⟩).trySearch = (q.setLocator ⟨[x], none, p.locator.draws⟩).startSearch := by
    refine if_pos ?_
    have served : (q.setLocator ⟨[x], none, p.locator.draws⟩).inService = true := by
      show decide (q.state = .service) = true
      rw [hs]
      rfl
    have on : (q.setLocator ⟨[x], none, p.locator.draws⟩).critical = false := hp
    rw [Part.maySearch, served, on]
    rfl
  refine ⟨?_, fun k => ?_⟩
  · simp only [Part.searchRequest, sound, flight, list, Option.any_none, List.any_nil, Bool.false_eq_true, if_false,
      List.length_nil, List.nil_append, show ¬ 6 ≤ 0 by decide]
    exact tries p r serves powered
  · have taken := (p.orderTaken_does k).toWithin
    have locator : (p.orderTaken k).locator = p.locator := taken.locator (by decide)
    simp only [Part.searchRequest, sound, flight, list, Option.any_none, List.any_nil, Bool.false_eq_true, if_false,
      List.length_nil, List.nil_append, locator, show ¬ 6 ≤ 0 by decide]
    refine tries (p.orderTaken k) _ ((taken.state (by decide)).trans serves) ?_
    rw [Part.critical, taken.supply (by decide)]
    exact powered

/-- The flight a request becomes: the antennas it may use, the first of them transmitting (R114). -/
theorem Part.startSearch_flies (p : Part) (r : Request) (l : Locator) :
    ∃ f, (p.setLocator { l with list := [r] }).startSearch = p.setLocator ⟨[], some f, l.draws + 1⟩ ∧ f.request = r ∧
      f.used = p.usableSet r ∧ f.since = p.clock ∧ f.results = PerFob.all .empty ∧
      ∀ a, nextAntenna (p.usableSet r) none = some a → f.phase = .transmit a ∧ f.phaseEnd = p.clock + 14 := by
  refine ⟨_, rfl, rfl, rfl, rfl, rfl, fun a ha => ?_⟩
  have next : nextAntenna ((p.setLocator { l with list := [r] }).usableSet r) none = some a := ha
  simp [next]

theorem Part.usableSet_get (p : Part) (r : Request) (a : Antenna) :
    (p.usableSet r).get a = ((r.antennas.all fun s => s.get a) && p.soundAntenna a) := PerAntenna.get_build ..

/-- A request of a purpose, the receiver and every antenna sound: the search runs with all seven, FL first. -/
theorem Part.searchAsked_starts {p : Part} {u : Purpose} {d : Door} (serves : p.state = .service) (waits : u ≠ .locate)
    (receiver : p.degraded.receiver = false) (antennas : ∀ a, p.degraded.antennas.get a = false)
    (powered : p.supply.cls ≠ .critical) (list : p.locator.list = []) (flight : p.locator.flight = none) :
    ∃ f, p.searchRequest (searchFor p u d) none = p.setLocator ⟨[], some f, p.locator.draws + 1⟩ ∧
      f.request.purpose = u ∧ f.request.door = some d ∧ f.phase = .transmit .afl ∧ f.phaseEnd = p.clock + 14 ∧
      ∀ a, f.used.get a = true := by
  have calm : p.critical = false := by simpa [Part.critical] using powered
  have sound (a : Antenna) : p.soundAntenna a = true := by rw [Part.soundAntenna, antennas a]; rfl
  have used (a : Antenna) : (p.usableSet (searchFor p u d)).get a = true := by
    rw [Part.usableSet_get, sound a]
    rfl
  have zones (z : Zone) : p.zoneAvailable z = true := by cases z <;> simp [Part.zoneAvailable, sound]
  have met : p.zonesMet (searchFor p u d) = true := by
    cases u <;> simp_all [Part.zonesMet, searchFor]
  have noFault : p.searchFault (searchFor p u d) = none := by
    rw [Part.searchFault, receiver, calm, met]
    rfl
  obtain ⟨f, flies, request, set, -, -, next⟩ := p.startSearch_flies (searchFor p u d) p.locator
  obtain ⟨phase, ends⟩ := next .afl (by
    rw [nextAntenna, Antenna.all, List.find?_cons_of_pos (used .afl)])
  exact ⟨f, (Part.searchRequest_starts serves calm list flight noFault).1.trans flies, by rw [request]; rfl, by rw [request]; rfl,
    phase, ends, fun a => by rw [set]; exact used a⟩

end Sys2Proof.Machine
end

section
/-! Outer pulls, the tailgate button and touches (R32, R33, R176, R177). -/

namespace Sys2Proof.Machine

set_option Elab.async false in -- the declarations above are finished first: this bounds the memory of the one text
/-- An input taken in HELD, outside SAFE-HOLD: the owner's effect and the activity it is. -/
theorem Part.debounced_outOfHold {p : Part} {i : Input} {l : Level} (h : p.hears i l) (out : p.inSafeHold = false)
    (inHeld : takenInHeld i = true) (routes : routed i l = true) (away : ∀ sw, i ≠ .switch sw) :
    p.debounced i l = (settle (·.deliver i (p.input i).level l) (p.heard i l)).activity := by
  obtain ⟨service, awake, settled, stuck, sound⟩ := h
  have same : (p.heard i l).state = p.state := rfl
  have state : (settle (·.deliver i (p.input i).level l) (p.heard i l)).state = p.state :=
    (settle_does (f := (·.deliver i (p.input i).level l)) (M := deliverAreas) (Part.deliver_does _ i _ l)).state (by decide)
  rw [Part.debounced_eq settled stuck sound (fun sw e => absurd e (away sw)), Part.takeEvent, same]
  cases hs : p.state with
  | start test stage =>
    have begun : stage ≠ .drivers := by
      rintro rfl
      simp [Part.doorService, hs] at service
    have rest := Part.activity_rest (by rw [state, hs]; nofun)
    cases stage with
    | drivers => exact absurd rfl begun
    | _ => simp only [inHeld, if_true, rest]
  | held => simp only [inHeld, if_true, Part.activity_rest (by rw [state, hs]; nofun)]
  | service => simp only [Part.serviceEvent, routes, if_true]
  | doze => exact absurd hs awake
  | safeHold f => simp [Part.inSafeHold, hs] at out

/-- The same where the owner leaves the arbiter. -/
theorem Part.debounced_outCalmly {p : Part} {i : Input} {l : Level} (h : p.hears i l) (out : p.inSafeHold = false)
    (inHeld : takenInHeld i = true) (routes : routed i l = true) (away : ∀ sw, i ≠ .switch sw) {q : Part}
    (took : (p.heard i l).deliver i (p.input i).level l = q) {K : List Area} (within : Part.Within K (p.heard i l) q)
    (h1 : .holders ∉ K := by decide) (h2 : .waiting ∉ K := by decide) (h3 : .supply ∉ K := by decide)
    (h4 : .cfg ∉ K := by decide) : p.debounced i l = q.activity := by
  subst took
  rw [Part.debounced_outOfHold h out inHeld routes away, settle_within within h1 h2 h3 h4]

/-- What an input event that hands over a row at most leaves. -/
theorem Part.Within.stays {p q : Part} {K : List Area} (w : Part.Within K p q)
    (h : (∀ a ∈ [Area.doors, .latches, .holders, .waiting, .heads, .windows, .monitors, .locator, .fobs, .operation, .supply,
      .crash, .cfg, .lockout], a ∉ K) := by decide) :
    q.doors = p.doors ∧ q.latches = p.latches ∧ q.holders = p.holders ∧ q.waiting = p.waiting ∧ q.heads = p.heads ∧
      p.sameElsewhere q := by
  simp only [List.mem_cons, List.not_mem_nil, or_false, forall_eq_or_imp, forall_eq] at h
  obtain ⟨h1, h2, h3, h4, h5, h6, h7, h8, h9, h10, h11, h12, h13, h14⟩ := h
  exact ⟨w.doors h1, w.latches h2, w.holders h3, w.waiting h4, w.heads h5, w.windows h6, w.monitors h7, w.locator h8, w.fobs h9,
    w.operation h10, w.supply h11, w.crash h12, w.cfg h13, w.lockout h14⟩

/-- The level of the input and the dwell apart. -/
theorem Part.heard_activity {K M : List Area} {p q : Part} {i : Input} {l : Level} (w : Part.Within K (p.heard i l) q)
    (hk : .inputs :: .dwell :: K ⊆ M := by decide) : Part.Within M p q.activity := by
  refine .trans (K := .inputs :: .dwell :: K) ?_ (q.activity_does).toWithin hk (fun a ha => hk ?_)
  · exact ((p.heard_does i l).toWithin).trans w (fun a ha => by simp_all) fun a ha => by simp_all
  · simp_all

theorem Part.activity_addsRow {p q : Part} {r : Row} (h : p.addsRow q r) : p.addsRow q.activity r := by
  unfold Part.activity
  split
  · exact h
  · exact h

/-- A row handed over by an input event. -/
theorem Part.heard_addsRow {p : Part} (t : p.tidy) (i : Input) (l : Level) (r : Row) :
    p.addsRow ((p.heard i l).appendRow r).activity r :=
  Part.addsRow_of_same (p' := p.heard i l) rfl rfl rfl (fun _ _ _ => rfl)
    (Part.activity_addsRow (Part.appendRow_addsRow (p := p.heard i l) t r))

/-! ### The owners -/

theorem Part.outerPull_sought {p : Part} {c : Corner} (barred : (p.door c.toDoor).lock.barred = true)
    (sought : p.locator.entryFor c.toDoor = true) :
    p.outerPull c = p.setDoor c.toDoor { p.door c.toDoor with pull := true } := by
  rw [Part.outerPull]
  exact if_pos (by rw [barred, sought]; rfl)

theorem Part.outerPull_refused {p : Part} {c : Corner} (barred : (p.door c.toDoor).lock.barred = true)
    (sought : p.locator.entryFor c.toDoor = false) :
    p.outerPull c = p.appendRow (outerRefusedRow c.toDoor (p.door c.toDoor).lock) := by
  rw [Part.outerPull]
  simp only [sought, Bool.and_false, Bool.false_eq_true, if_false, Part.outerRequest, barred, if_true]

theorem Part.outerPull_asks {p : Part} {c : Corner} (free : (p.door c.toDoor).lock.barred = false) :
    p.outerPull c = p.releaseRequest c.toDoor .outer none := by
  rw [Part.outerPull]
  simp only [free, Bool.false_and, Bool.false_eq_true, if_false, Part.outerRequest]

/-- Nothing is released of an OPEN door for a pull or a press. -/
theorem Part.releaseAsked_open {p : Part} {d : Door} (h : (p.door d).ajar = .isOpen) (src : ReleaseSource) :
    p.releaseRequest d src none = p := if_pos h

theorem Locator.entryFor_iff (l : Locator) (d : Door) : l.entryFor d = true ↔
    ∃ r : Request, (r ∈ l.list ∨ ∃ f, l.flight = some f ∧ f.request = r) ∧ r.purpose = .entry ∧ r.door = some d := by
  unfold Locator.entryFor
  cases l.flight with
  | none => simp
  | some f =>
    simp only [Bool.or_eq_true, List.any_eq_true, decide_eq_true_eq, Option.map_some, Option.any_some, Option.some.injEq,
      exists_eq_left']
    constructor
    · rintro (⟨r, hr, h⟩ | h)
      · exact ⟨r, .inl hr, h⟩
      · exact ⟨f.request, .inr rfl, h⟩
    · rintro ⟨r, hr | rfl, h⟩
      · exact .inl ⟨r, hr, h⟩
      · exact .inr h

end Sys2Proof.Machine
end

section
/-! What touches, pulls and the tailgate button do to their door (R32, R33, R176, R177). -/

namespace Sys2Proof.Machine

set_option Elab.async false in -- the declarations above are finished first: this bounds the memory of the one text
/-- A ready pull or press that asks for a release which is granted at once. -/
theorem completes_pulsed {c : Instr} {s : State} {i : Input} {d : Door} {src : ReleaseSource}
    (hc : exec c s = s.run (·.debounced i .l1)) (ready : s.part.ready i .l1) (away : ∀ sw, i ≠ .switch sw)
    (routes : routed i .l1 = true) (asks : (s.part.heard i .l1).deliver i (s.part.input i).level .l1 =
      (s.part.heard i .l1).releaseRequest d src none) (outside : src ≠ .inner)
    (opens : (s.part.door d).lock = .unlocked ∧ (s.part.door d).ajar = .isClosed ∧ (s.part.door d).fault ≠ .driver ∧
      s.part.latch d = none) (free : s.part.waiting = []) (room : 1 ≤ s.part.unitsFree) :
    Completes c s fun p =>
      p.latch d = some ⟨.pulsing, false, .release, SourceSet.empty.add src, [], some (s.part.clock + s.part.cfg.latchPulse)⟩ ∧
        (∀ x, x ≠ d → p.latch x = s.part.latch x) ∧ p.doors = s.part.doors ∧ s.part.sameElsewhere p := by
  refine (completes_run hc).2 ?_
  obtain ⟨-, shut, sound, idle⟩ := opens
  have pulses := Part.releaseAsked_pulses (q := s.part.heard i .l1) outside shut sound idle free room
  have final := Part.heard_activity (M := [.inputs, .dwell, .holders, .waiting, .latches])
    ((s.part.heard i .l1).pulsed_within d src)
  have active := (((s.part.heard i .l1).pulsed d src).activity_does).toWithin
  rw [Part.debounced_ready ready (fun sw e => absurd e (away sw)) routes,
    settle_congr (g := (·.releaseRequest d src none)) asks, pulses]
  exact ⟨(active.latch d (by decide)).trans ((Part.pulsed_latch ..).trans (if_pos rfl)),
    fun x hx => (active.latch x (by decide)).trans ((Part.pulsed_latch ..).trans (if_neg hx)), final.doors (by decide),
    final.elsewhere⟩

/-! ### Touches and the tailgate button -/

theorem Part.outerTouch_free {p : Part} {c : Corner} (h : (p.door c.toDoor).lock.barred = false) : p.outerTouch c = p :=
  if_neg (by rw [h]; decide)

theorem Part.tailgatePress_asks {p : Part} (h : (p.door .tg).lock = .unlocked) :
    p.tailgatePress = p.releaseRequest .tg .tgButton none := by
  rw [Part.tailgatePress, h]

theorem Part.tailgatePress_pending {p : Part} (h : (p.door .tg).lock = .lockPending) : p.tailgatePress = p := by
  rw [Part.tailgatePress, h]

theorem Part.tailgatePress_barred {p : Part} (h : (p.door .tg).lock.barred = true) :
    p.tailgatePress = if p.inService then p.searchRequest (searchFor p .tailgate .tg) none
      else p.appendRow (outerRefusedRow .tg (p.door .tg).lock) := by
  rw [Part.tailgatePress]
  cases hl : (p.door .tg).lock with
  | locked => rfl
  | deadlocked => rfl
  | unlocked => rw [hl] at h; cases h
  | lockPending => rw [hl] at h; cases h

/-! ### What the owners leave -/

/-- A pull or press that only hands over its refusal. -/
theorem completes_refusedRow {c : Instr} {s : State} {i : Input} {r : Row} (hc : exec c s = s.run (·.debounced i .l1))
    (hears : s.part.hears i .l1) (out : s.part.inSafeHold = false) (inHeld : takenInHeld i = true) (routes : routed i .l1 = true)
    (away : ∀ sw, i ≠ .switch sw)
    (took : (s.part.heard i .l1).deliver i (s.part.input i).level .l1 = (s.part.heard i .l1).appendRow r) :
    Completes c s fun p => (p.doors = s.part.doors ∧ p.latches = s.part.latches ∧ p.holders = s.part.holders ∧
      p.waiting = s.part.waiting ∧ p.heads = s.part.heads ∧ s.part.sameElsewhere p) ∧ (s.part.tidy → s.part.addsRow p r) := by
  refine (completes_run hc).2 ?_
  have row := ((s.part.heard i .l1).appendRow_does r).toWithin
  rw [Part.debounced_outCalmly hears out inHeld routes away took row]
  exact ⟨(Part.heard_activity (M := .inputs :: .dwell :: rowAreas) row).stays, fun t => Part.heard_addsRow t i .l1 r⟩

/-- A pull or press that does nothing. -/
theorem completes_ignored {c : Instr} {s : State} {i : Input} (hc : exec c s = s.run (·.debounced i .l1))
    (hears : s.part.hears i .l1) (out : s.part.inSafeHold = false) (inHeld : takenInHeld i = true) (routes : routed i .l1 = true)
    (away : ∀ sw, i ≠ .switch sw) (took : (s.part.heard i .l1).deliver i (s.part.input i).level .l1 = s.part.heard i .l1) :
    Completes c s fun p => (p.doors = s.part.doors ∧ p.latches = s.part.latches ∧ p.holders = s.part.holders ∧
      p.waiting = s.part.waiting ∧ p.heads = s.part.heads ∧ s.part.sameElsewhere p) ∧ p.scroll = s.part.scroll := by
  refine (completes_run hc).2 ?_
  have still := Part.Within.refl [] (s.part.heard i .l1)
  rw [Part.debounced_outCalmly hears out inHeld routes away took still]
  have final := Part.heard_activity (M := [.inputs, .dwell]) still
  exact ⟨final.stays, final.scroll (by decide)⟩

/-- A ready input whose owner starts a search. -/
theorem completes_searching {c : Instr} {s : State} {i : Input} {u : Purpose} {d : Door}
    (hc : exec c s = s.run (·.debounced i .l1)) (ready : s.part.ready i .l1) (away : ∀ sw, i ≠ .switch sw)
    (routes : routed i .l1 = true) (waits : u ≠ .locate) (receiver : s.part.degraded.receiver = false)
    (antennas : ∀ a, s.part.degraded.antennas.get a = false) (powered : s.part.supply.cls ≠ .critical)
    (list : s.part.locator.list = []) (flight : s.part.locator.flight = none)
    (took : (s.part.heard i .l1).deliver i (s.part.input i).level .l1 =
      (s.part.heard i .l1).searchRequest (searchFor (s.part.heard i .l1) u d) none) :
    Completes c s fun p => (∃ f, p.locator.flight = some f ∧ f.request.purpose = u ∧ f.request.door = some d ∧
      f.phase = .transmit .afl ∧ f.phaseEnd = s.part.clock + 14 ∧ (∀ a, f.used.get a = true) ∧ p.locator.list = []) ∧
      p.doors = s.part.doors ∧ p.latches = s.part.latches := by
  refine (completes_run hc).2 ?_
  obtain ⟨f, starts, purpose, door, phase, ends, used⟩ := Part.searchAsked_starts (p := s.part.heard i .l1) (u := u) (d := d)
    ready.1 waits receiver antennas powered list flight
  have within : Part.Within [.locator] (s.part.heard i .l1)
      ((s.part.heard i .l1).setLocator ⟨[], some f, (s.part.heard i .l1).locator.draws + 1⟩) :=
    (Part.setLocator_does _ (l := ⟨[], some f, _⟩) fun _ => ⟨Nat.zero_le 6, .nil⟩).toWithin
  rw [Part.debounced_calmly ready (fun sw e => absurd e (away sw)) routes (took.trans starts) within]
  exact ⟨⟨f, rfl, purpose, door, phase, ends, used, rfl⟩, rfl, rfl⟩

/-- Settles O32: each owner's case, with the level of the input and the dwell beside it. -/
theorem touchesAndPullsActOnTheirDoor : Obligations.TouchesAndPullsActOnTheirDoor := by
  unfold Obligations.TouchesAndPullsActOnTheirDoor
  refine ⟨fun s free room => ⟨fun c ready opens => ?_, fun ready opens => ?_⟩, fun s out => ⟨fun c hears => ⟨fun barred sought => ?_,
    fun barred alone => ?_, fun pending => ?_⟩, fun hears => ⟨fun barred away => ?_, fun pending => ?_⟩,
    fun c ready free => ?_⟩, fun s receiver antennas powered list flight =>
      ⟨fun c ready barred => ?_, fun f ready => ?_, fun ready barred => ?_⟩⟩
  · exact completes_pulsed rfl ready (fun _ e => by cases e) rfl
      (Part.outerPull_asks (p := s.part.heard (.outer c) .l1) (by
        show (s.part.door c.toDoor).lock.barred = false
        rw [opens.1]
        rfl)) (by decide) opens free room
  · exact completes_pulsed rfl ready (fun _ e => by cases e) rfl
      (Part.tailgatePress_asks (p := s.part.heard .tailgate .l1) opens.1) (by decide) opens free room
  · refine (completes_run (f := (·.debounced (.outer c) .l1)) rfl).2 ?_
    have pulls := Part.outerPull_sought (p := s.part.heard (.outer c) .l1) barred ((Locator.entryFor_iff _ _).2 sought)
    have within := ((s.part.heard (.outer c) .l1).setDoor_sameLock c.toDoor (x := { (s.part.heard (.outer c) .l1).door c.toDoor with pull := true })
      rfl rfl).toWithin
    rw [Part.debounced_outCalmly hears out rfl rfl (fun _ e => by cases e) pulls within]
    have final := Part.heard_activity (M := [.inputs, .dwell, .doors]) within
    have active := (((s.part.heard (.outer c) .l1).setDoor c.toDoor
      { (s.part.heard (.outer c) .l1).door c.toDoor with pull := true }).activity_does).toWithin
    refine ⟨by rw [active.doors (by decide)]; rfl, fun x => ?_, final.latches (by decide), final.holders (by decide), final.scroll (by decide),
      final.elsewhere⟩
    rw [active.door x (by decide)]
    refine (Part.setDoor_door ..).trans ?_
    split
    · subst_vars; rfl
    · rfl
  · have unsought : s.part.locator.entryFor c.toDoor = false :=
      Bool.eq_false_iff.2 fun h => alone ((Locator.entryFor_iff _ _).1 h)
    exact completes_refusedRow rfl hears out rfl rfl (fun _ e => by cases e)
      (Part.outerPull_refused (p := s.part.heard (.outer c) .l1) barred unsought)
  · obtain ⟨lock, ajar⟩ := pending
    refine completes_ignored rfl hears out rfl rfl (fun _ e => by cases e)
      ((Part.outerPull_asks (p := s.part.heard (.outer c) .l1) ?_).trans (Part.releaseAsked_open (p := s.part.heard (.outer c) .l1) ajar _))
    show (s.part.door c.toDoor).lock.barred = false
    rw [lock]
    rfl
  · refine completes_refusedRow rfl hears out rfl rfl (fun _ e => by cases e)
      ((Part.tailgatePress_barred (p := s.part.heard .tailgate .l1) barred).trans (if_neg ?_))
    show ¬ decide (s.part.state = .service) = true
    simpa using away
  · exact completes_ignored rfl hears out rfl rfl (fun _ e => by cases e)
      (Part.tailgatePress_pending (p := s.part.heard .tailgate .l1) pending.1)
  · refine (completes_run (f := (·.debounced (.touch c) .l1)) rfl).2 ?_
    have still := Part.Within.refl [] (s.part.heard (.touch c) .l1)
    have took : (s.part.heard (.touch c) .l1).deliver (.touch c) (s.part.input (.touch c)).level .l1 =
        s.part.heard (.touch c) .l1 := Part.outerTouch_free (p := s.part.heard (.touch c) .l1) free
    rw [Part.debounced_calm ready (fun _ e => by cases e) rfl (K := []) (by rw [took]; exact still), took]
    have final := Part.heard_activity (M := [.inputs, .dwell]) still
    exact ⟨final.stays, final.scroll (by decide)⟩
  · exact completes_searching rfl ready (fun _ e => by cases e) rfl (by decide) receiver antennas powered list flight
      (if_pos barred)
  · exact completes_searching rfl ready (fun _ e => by cases e) rfl (by decide) receiver antennas powered list flight rfl
  · refine completes_searching rfl ready (fun _ e => by cases e) rfl (by decide) receiver antennas powered list flight
      ((Part.tailgatePress_barred (p := s.part.heard .tailgate .l1) barred).trans (if_pos ?_))
    show decide (s.part.state = .service) = true
    rw [ready.1]
    rfl

end Sys2Proof.Machine
end

section
/-! What granting from the head does, whatever waits (R100): the entries that leave the list, and what their owners take. -/

namespace Sys2Proof.Machine

/-- A latch told its grant: it pulses (R38). -/
def ReleaseOp.pulses (op : ReleaseOp) (clock pulse : Nat) : ReleaseOp := { op with state := .pulsing, timer := some (clock + pulse) }

set_option Elab.async false in -- the declarations above are finished first: this bounds the memory of the one text
theorem Part.startPulse_latch (p : Part) (d x : Door) : (p.startPulse d).latch x =
    if x = d then (p.latch d).map (·.pulses p.clock p.cfg.latchPulse) else p.latch x := by
  unfold Part.startPulse
  split
  · rename_i h
    split
    · subst_vars; rw [h]; rfl
    · rfl
  · rename_i op h
    rw [Part.setLatch_latch, h]
    rfl

/-- Granting from the head: waiting entries become holders in their order, and their latch pulses or their window starts. -/
structure Part.Granting (p q : Part) : Prop where
  within : Part.Within grantAreas p q
  holders : ∃ l, q.holders = p.holders ++ l ∧ ∀ h ∈ l, ∃ w ∈ p.waiting, h = w.held p.clock
  waiting : ∃ l, p.waiting = l ++ q.waiting
  latch : ∀ d, q.latch d = p.latch d ∨ (∃ w ∈ p.waiting, w.actuator = .latch d) ∧
    q.latch d = (p.latch d).map (·.pulses p.clock p.cfg.latchPulse)
  window : ∀ c, q.window c = p.window c ∧ q.monitor c = p.monitor c ∨ ∃ w ∈ p.waiting, w.actuator = .window c

theorem Part.Granting.refl (p : Part) : Part.Granting p p :=
  ⟨.refl _ p, ⟨[], (List.append_nil _).symm, fun _ h => absurd h List.not_mem_nil⟩, ⟨[], rfl⟩, fun _ => .inl rfl, fun _ => .inl ⟨rfl, rfl⟩⟩

theorem ReleaseOp.pulses_pulses (op : ReleaseOp) (t n : Nat) : (op.pulses t n).pulses t n = op.pulses t n := rfl

theorem Part.Granting.trans {p q r : Part} (h : Part.Granting p q) (k : Part.Granting q r) : Part.Granting p r := by
  obtain ⟨pre, split⟩ := h.waiting
  have mem {w : Waiter} (hw : w ∈ q.waiting) : w ∈ p.waiting := split ▸ List.mem_append_right pre hw
  refine ⟨h.within.trans k.within (List.Subset.refl _) (List.Subset.refl _), ?_, ?_, fun d => ?_, fun c => ?_⟩
  · obtain ⟨l, hl, fromP⟩ := h.holders
    obtain ⟨m, hm, fromQ⟩ := k.holders
    refine ⟨l ++ m, by rw [hm, hl, List.append_assoc], fun x hx => ?_⟩
    rcases List.mem_append.1 hx with left | right
    · exact fromP x left
    · obtain ⟨w, hw, e⟩ := fromQ x right
      exact ⟨w, mem hw, by rw [e, h.within.clock]⟩
  · obtain ⟨m, hm⟩ := k.waiting
    exact ⟨pre ++ m, by rw [split, hm, List.append_assoc]⟩
  · have clock := h.within.clock
    have cfg := h.within.cfg (by decide)
    rcases h.latch d with same | ⟨waits, pulses⟩ <;> rcases k.latch d with same' | ⟨⟨w, hw, ha⟩, pulses'⟩
    · exact .inl (same'.trans same)
    · exact .inr ⟨⟨w, mem hw, ha⟩, by rw [pulses', same, clock, cfg]⟩
    · exact .inr ⟨waits, same'.trans pulses⟩
    · refine .inr ⟨waits, ?_⟩
      rw [pulses', pulses, clock, cfg, Option.map_map]
      rfl
  · rcases h.window c with same | waits
    · rcases k.window c with same' | ⟨w, hw, ha⟩
      · exact .inl ⟨same'.1.trans same.1, same'.2.trans same.2⟩
      · exact .inr ⟨w, mem hw, ha⟩
    · exact .inr waits

/-- A window's grant leaves the other windows. -/
theorem Part.windowGranted_others (p : Part) {c x : Corner} (h : x ≠ c) :
    (p.windowGranted c).window x = p.window x ∧ (p.windowGranted c).monitor x = p.monitor x := by
  have starts (q : Part) (cmd : Command) : (q.startMove c cmd).window x = q.window x ∧ (q.startMove c cmd).monitor x = q.monitor x := by
    simp only [Part.startMove, Part.markDirty_fields, Part.appendRow_fields, Part.setMonitor_monitor, Part.setMonitor_fields,
      Part.setWindow_window, Part.setWindow_fields, if_neg h, and_self]
  unfold Part.windowGranted
  split
  · exact ⟨rfl, rfl⟩
  · rename_i pend _
    obtain ⟨window, monitor⟩ := starts (p.setMonitor c { p.monitor c with learn := (p.monitor c).learn.map fun l =>
      { l with phase := .down, count := 0 } }) pend.cmd
    have others := monitor.trans ((Part.setMonitor_monitor ..).trans (if_neg h))
    dsimp only
    split
    · have report := (Part.reportGrant_acts ((p.setMonitor c { p.monitor c with learn := (p.monitor c).learn.map fun l =>
        { l with phase := .down, count := 0 } }).startMove c pend.cmd) c).toWithin
      exact ⟨(report.window x (by decide)).trans window, (report.monitor x (by decide)).trans others⟩
    · exact ⟨window, others⟩

/-- One entry granted. -/
theorem Part.granting_one {p : Part} {w : Waiter} {rest : List Waiter} (h : p.waiting = w :: rest) :
    Part.Granting p ((p.setLists (p.holders ++ [w.held p.clock]) rest).tellGrant w.actuator) := by
  have lists := Part.setLists_within p (p.holders ++ [w.held p.clock]) rest
  have first : w ∈ p.waiting := by rw [h]; exact List.mem_cons_self
  cases ha : w.actuator with
  | latch d =>
    have pulse := ((p.setLists (p.holders ++ [w.held p.clock]) rest).startPulse_does d).toWithin
    refine ⟨lists.trans pulse (by decide) (by decide), ⟨[w.held p.clock], pulse.holders (by decide), fun x hx => ?_⟩,
      ⟨[w], ?_⟩, fun e => ?_, fun c => .inl ⟨pulse.window c (by decide), pulse.monitor c (by decide)⟩⟩
    · exact ⟨w, first, List.mem_singleton.1 hx⟩
    · rw [h, Part.tellGrant, pulse.waiting (by decide)]
      rfl
    · have latch := (p.setLists (p.holders ++ [w.held p.clock]) rest).startPulse_latch d e
      by_cases he : e = d
      · subst he
        exact .inr ⟨⟨w, first, ha⟩, latch.trans (if_pos rfl)⟩
      · exact .inl (latch.trans (if_neg he))
  | window c =>
    have grant := (p.setLists (p.holders ++ [w.held p.clock]) rest).windowGranted_within c
    refine ⟨lists.trans grant (by decide) (by decide), ⟨[w.held p.clock], grant.holders (by decide), fun x hx => ?_⟩,
      ⟨[w], ?_⟩, fun e => .inl (grant.latch e (by decide)), fun x => ?_⟩
    · exact ⟨w, first, List.mem_singleton.1 hx⟩
    · rw [h, Part.tellGrant, grant.waiting (by decide)]
      rfl
    · by_cases hx : x = c
      · subst hx
        exact .inr ⟨w, first, ha⟩
      · exact .inl (Part.windowGranted_others _ hx)

theorem grantHeads_granting : ∀ (n : Nat) (p : Part), Part.Granting p (grantHeads n p)
  | 0, p => .refl p
  | n + 1, p => by
    unfold grantHeads
    split
    · exact .refl p
    · rename_i w rest hw
      split
      · exact (Part.granting_one hw).trans (grantHeads_granting n _)
      · exact .refl p

/-- What stands after an event is what its granting leaves. -/
theorem settle_granting (f : Part → Part) (p : Part) : Part.Granting (f p) (settle f p) := by
  unfold settle
  dsimp only
  split
  · exact .refl _
  · exact grantHeads_granting _ _

end Sys2Proof.Machine
end

section
/-! The inner handle (R35, R36, R42, R47). -/

namespace Sys2Proof.Machine

/-! ### The unlock -/

set_option Elab.async false in -- the declarations above are finished first: this bounds the memory of the one text
/-- An unlock of one door is never refused, and leaves the others. -/
theorem Part.unlockOne (p : Part) (src : LockSource) (d : Door) :
    (∀ x, (p.lockAction src .unlock (oneDoor d)).door x = if x = d then { p.door d with lock := .unlocked } else p.door x) ∧
      (p.lockAction src .unlock (oneDoor d)).doors.relock = none := by
  have open_ : p.lockRefused .unlock = false := by rw [Part.lockRefused]; simp
  obtain ⟨locks, r, t, doors⟩ := p.takeLock_doors src .unlock (oneDoor d)
  rw [Part.lockAction_taken open_]
  refine ⟨fun x => ?_, by rw [doors]⟩
  have who : (oneDoor d).get x = decide (x = d) := by cases x <;> rfl
  rw [locks x, Part.lockTargets, who]
  by_cases h : x = d
  · subst h
    simp only [decide_true, if_true]
    exact congrArg (fun l => { p.door x with lock := l }) (lockAfter_unlock _)
  · simp only [h, decide_false, Bool.false_eq_true, if_false]

/-- A pull that opens its door: the door UNLOCKED, then the release asked for. -/
theorem Part.innerPull_opens {p : Part} {c : Corner} (shut : (p.door c.toDoor).ajar = .isClosed)
    (lock : (p.door c.toDoor).lock = .unlocked ∨ (p.door c.toDoor).lock = .locked)
    (child : p.doors.childLock c.toDoor ≠ some .engaged) :
    ∃ q, Part.Within lockAreas p q ∧
      (∀ x, q.door x = if x = c.toDoor then { p.door c.toDoor with lock := .unlocked } else p.door x) ∧
      p.innerPull c = q.releaseRequest c.toDoor .inner none := by
  unfold Part.innerPull
  dsimp only
  rw [if_neg (by rw [shut]; decide)]
  rcases lock with unlocked | locked
  · refine ⟨p, .refl _ p, fun x => ?_, ?_⟩
    · split
      · subst_vars
        rw [← unlocked]
      · rfl
    · rw [if_neg (by rw [unlocked]; decide), if_neg child, if_neg (by rw [unlocked]; decide)]
  · refine ⟨_, (p.lockAction_does .inner .unlock (oneDoor c.toDoor)).toWithin, (p.unlockOne .inner c.toDoor).1, ?_⟩
    rw [if_neg (by rw [locked]; decide), if_neg child, if_pos locked]

theorem Part.innerPull_bars {p : Part} {c : Corner} (shut : (p.door c.toDoor).ajar = .isClosed)
    (bars : (p.door c.toDoor).lock = .deadlocked ∨ p.doors.childLock c.toDoor = some .engaged) :
    ∃ r, p.innerPull c = p.appendRow r := by
  unfold Part.innerPull
  dsimp only
  rw [if_neg (by rw [shut]; decide)]
  split
  · exact ⟨_, rfl⟩
  · rename_i h
    rw [if_pos (bars.resolve_left h)]
    exact ⟨_, rfl⟩

/-! ### The escape -/

/-- The escape's grant, by a unit that is free, that a window gives up, or over the budget (R104): the latch pulses and has a
holder; the doors, the other latches and the list of waiting requests stay. -/
structure Part.Escapes (d : Door) (p q : Part) : Prop where
  within : Part.Within (.latches :: stopAreas) p q
  latch : ∀ x, q.latch x = if x = d then (p.latch d).map (·.pulses p.clock p.cfg.latchPulse) else p.latch x
  waiting : q.waiting = p.waiting
  holder : ∃ h ∈ q.holders, h.actuator = .latch d ∧ h.prec = .escape

theorem Part.escapeHolder_escapes (p : Part) (d : Door) (k : GrantKind) (w : Option Corner) :
    Part.Escapes d p (p.escapeHolder d k w) := by
  unfold Part.escapeHolder
  dsimp only
  have lists := Part.setLists_within p (p.holders ++ [⟨.latch d, 1, .escape, p.clock, k⟩]) p.waiting
  have pulse := ((p.setLists (p.holders ++ [⟨.latch d, 1, .escape, p.clock, k⟩]) p.waiting).startPulse_does d).toWithin
  have latches (x : Door) := (p.setLists (p.holders ++ [⟨.latch d, 1, .escape, p.clock, k⟩]) p.waiting).startPulse_latch d x
  generalize (p.setLists (p.holders ++ [⟨.latch d, 1, .escape, p.clock, k⟩]) p.waiting).startPulse d = q at pulse latches
  have row := (q.appendRow_does (escapeGrantedRow d (((p.latch d).map (·.second)).getD false) k w)).toWithin
  refine ⟨(lists.trans pulse (M := .latches :: stopAreas) (by decide) (by decide)).trans row (by decide) (by decide),
    fun x => (row.latch x (by decide)).trans (latches x), (row.waiting (by decide)).trans (pulse.waiting (by decide)),
    ⟨⟨.latch d, 1, .escape, p.clock, k⟩, ?_, rfl, rfl⟩⟩
  rw [row.holders (by decide), pulse.holders (by decide)]
  exact List.mem_append_right _ (List.mem_singleton_self _)

theorem Part.stopAndTell_waiting (p : Part) (c : Corner) (r : StopReason) (judge : Bool) :
    (p.stopAndTell c r judge).waiting = p.waiting := by
  refine ((Part.tellStop_does _ c _ r judge).waiting (by decide)).trans ?_
  simp only [Part.stopWindow, Part.markDirty_fields, Part.dropHolder, Part.setLists_fields, Part.halt, Part.appendRow_fields,
    Part.setMonitor_fields, Part.setWindow_fields]

theorem Part.grantEscape_escapes (p : Part) (d : Door) : Part.Escapes d p (p.grantEscape d) := by
  unfold Part.grantEscape
  split
  · exact p.escapeHolder_escapes d _ _
  · split
    · rename_i c _
      have stop := (p.stopAndTell_does c .preempted true).toWithin
      have waits := p.stopAndTell_waiting c .preempted true
      generalize p.stopAndTell c .preempted true = q at stop waits
      obtain ⟨within, latch, waiting, holder⟩ := q.escapeHolder_escapes d .preempted (some c)
      refine ⟨stop.trans within (by decide) (by decide), fun x => ?_, waiting.trans waits, holder⟩
      rw [latch x, stop.latch d (by decide), stop.latch x (by decide), stop.clock, stop.cfg (by decide)]
    · exact p.escapeHolder_escapes d _ _

/-- An escape is not undone by what is granted after it. -/
theorem Part.Escapes.settled {f : Part → Part} {p : Part} {d : Door} {op : ReleaseOp} {q : Part} (e : f p = q)
    (latch : q.latch d = some (op.pulses q.clock q.cfg.latchPulse))
    (holder : ∃ h ∈ q.holders, h.actuator = .latch d ∧ h.prec = .escape) :
    (settle f p).latch d = some (op.pulses q.clock q.cfg.latchPulse) ∧
      ∃ h ∈ (settle f p).holders, h.actuator = .latch d ∧ h.prec = .escape := by
  have grants := settle_granting f p
  rw [e] at grants
  refine ⟨?_, ?_⟩
  · rcases grants.latch d with same | ⟨-, pulses⟩
    · rw [same, latch]
    · rw [pulses, latch]
      rfl
  · obtain ⟨h, hm, rest⟩ := holder
    obtain ⟨l, hl, -⟩ := grants.holders
    exact ⟨h, by rw [hl]; exact List.mem_append_left _ hm, rest⟩

end Sys2Proof.Machine
end

section
/-! What an inner handle pull makes of the release (R35, R36, R42, R180). -/

namespace Sys2Proof.Machine

set_option Elab.async false in -- the declarations above are finished first: this bounds the memory of the one text
theorem Part.innerAsked_idle {p : Part} {d : Door} (shut : (p.door d).ajar = .isClosed) (idle : p.latch d = none) :
    p.releaseRequest d .inner none =
      (p.setLatch d (some ⟨.waiting, false, .escape, SourceSet.empty.add .inner, [], none⟩)).grantEscape d := by
  simp only [Part.releaseRequest, Part.beginRelease, shut, idle, reduceCtorEq, if_false, ne_eq, not_true_eq_false, and_false,
    if_true]
  rfl

/-- The release in flight with the pull's source and precedence. -/
def ReleaseOp.raised (op : ReleaseOp) : ReleaseOp := { op with prec := .escape, sources := { op.sources with inner := true } }

theorem Part.innerAsked_raises {p : Part} {d : Door} {op : ReleaseOp} (shut : (p.door d).ajar = .isClosed)
    (flies : p.latch d = some op) (prec : op.prec = .release) :
    p.releaseRequest d .inner none = p.raiseRelease d { op with sources := { op.sources with inner := true } } := by
  simp only [Part.releaseRequest, Part.joinRelease, shut, flies, reduceCtorEq, if_false, ne_eq, not_true_eq_false, and_false,
    prec, and_self, if_true, Option.toList_none, List.append_nil]
  rfl

/-- An escape granted, and what is granted after it: the latch pulses, an escape holder stands, nothing new waits. -/
theorem grantEscape_settles {f : Part → Part} {p x : Part} {d : Door} {op : ReleaseOp} (e : f p = x.grantEscape d)
    (hx : x.latch d = some op) :
    (settle f p).latch d = some (op.pulses x.clock x.cfg.latchPulse) ∧
      (∃ h ∈ (settle f p).holders, h.actuator = .latch d ∧ h.prec = .escape) ∧
      Part.Within (.latches :: stopAreas ++ grantAreas) x (settle f p) ∧ ∀ w ∈ (settle f p).waiting, w ∈ x.waiting := by
  have escape := x.grantEscape_escapes d
  have grants := settle_granting f p
  have latch := (escape.latch d).trans (if_pos rfl)
  rw [hx] at latch
  obtain ⟨pulses, holder⟩ := Part.Escapes.settled (op := op) e
    (by rw [latch, escape.within.clock, escape.within.cfg (by decide)]; rfl) escape.holder
  rw [e] at grants
  refine ⟨?_, holder, escape.within.trans grants.within (by decide) (by decide), fun w hw => ?_⟩
  · rw [pulses, escape.within.clock, escape.within.cfg (by decide)]
  · obtain ⟨l, hl⟩ := grants.waiting
    rw [← escape.waiting, hl]
    exact List.mem_append_right l hw

/-- An inner pull on a release that pulses or confirms: it is an escape from now on, and so is its holder. -/
theorem Part.raiseRelease_drives (p : Part) {d : Door} {op : ReleaseOp} (h : op.state = .pulsing ∨ op.state = .confirming) :
    Part.Within [.latches, .holders, .waiting] p (p.raiseRelease d op) ∧
      (p.raiseRelease d op).latch d = some { op with prec := .escape } ∧ (p.raiseRelease d op).waiting = p.waiting ∧
      (op.state = .pulsing → ∀ x ∈ (p.raiseRelease d op).holders, x.actuator = .latch d → x.prec = .escape) := by
  have set := (p.setLatch_does d (some { op with prec := .escape })).toWithin
  have latch : (p.setLatch d (some { op with prec := .escape })).latch d = some { op with prec := .escape } :=
    (Part.setLatch_latch ..).trans (if_pos rfl)
  rcases h with h | h
  · have e : p.raiseRelease d op = (p.setLatch d (some { op with prec := .escape })).setLists
        ((p.setLatch d (some { op with prec := .escape })).holders.map fun x =>
          if x.actuator = .latch d then { x with prec := .escape } else x)
        (p.setLatch d (some { op with prec := .escape })).waiting := by
      simp only [Part.raiseRelease, h]
    rw [e]
    refine ⟨set.trans (Part.setLists_within _ _ _) (by decide) (by decide), latch, rfl, fun _ x hx ha => ?_⟩
    obtain ⟨y, -, rfl⟩ := List.mem_map.1 hx
    by_cases hy : y.actuator = .latch d
    · simp only [hy, if_true]
    · simp only [hy, if_false] at ha
  · have e : p.raiseRelease d op = p.setLatch d (some { op with prec := .escape }) := by
      simp only [Part.raiseRelease, h]
    rw [e]
    exact ⟨set.mono (by decide), latch, rfl, fun k => by rw [h] at k; cases k⟩

/-- A pull in a part state that takes it at once, on a door that it opens: what holds of the release, the lists and the doors
after the request and after every grant, holds of the part. -/
theorem completes_innerPull {s : State} {c : Corner} {post : Part → Prop} (hears : s.part.hears (.inner c) .l1)
    (shut : (s.part.door c.toDoor).ajar = .isClosed)
    (lock : (s.part.door c.toDoor).lock = .unlocked ∨ (s.part.door c.toDoor).lock = .locked)
    (child : s.part.doors.childLock c.toDoor ≠ some .engaged)
    (takes : ∀ q : Part, Part.Within (.inputs :: lockAreas) s.part q →
      (∀ x, q.door x = if x = c.toDoor then { s.part.door c.toDoor with lock := .unlocked } else s.part.door x) →
      ∀ f : Part → Part, ∀ p, f p = q.releaseRequest c.toDoor .inner none → ∀ r, Part.Within [.dwell] (settle f p) r → post r) :
    Completes (.innerHandlePull c true) s post := by
  refine (completes_run (f := (·.debounced (.inner c) .l1)) rfl).2 ?_
  rw [Part.debounced_hears hears rfl rfl rfl (fun _ e => by cases e)]
  obtain ⟨q, within, doors, asks⟩ := Part.innerPull_opens (p := s.part.heard (.inner c) .l1) shut lock child
  exact takes q (((s.part.heard_does (.inner c) .l1).toWithin).trans within (by decide) (by decide)) doors _ _ asks _
    (Part.activity_does _).toWithin

/-- Settles O33: the request by the latch's state; an escape's grant by `grantEscape_settles`. -/
theorem innerPullPulsesUnlessDeadlockedOrChildLocked : Obligations.InnerPullPulsesUnlessDeadlockedOrChildLocked := by
  unfold Obligations.InnerPullPulsesUnlessDeadlockedOrChildLocked
  intro s c
  refine ⟨fun hears shut => ⟨fun lock child => ⟨fun idle => ?_, fun op flies prec => ⟨fun waits => ?_, fun drives alone => ?_⟩⟩,
    fun bars => ?_⟩, fun doze awake settled rest stuck sound => ?_⟩
  · refine completes_innerPull hears shut lock child fun q within doors f p e r active => ?_
    have own := (doors c.toDoor).trans (if_pos rfl)
    rw [Part.innerAsked_idle (by rw [own]; exact shut) ((within.latch c.toDoor (by decide)).trans idle)] at e
    have set := (q.setLatch_does c.toDoor (some ⟨.waiting, false, .escape, SourceSet.empty.add .inner, [], none⟩)).toWithin
    obtain ⟨latch, holder, after, -⟩ := grantEscape_settles e ((Part.setLatch_latch ..).trans (if_pos rfl))
    have door (x : Door) : r.door x = q.door x :=
      (active.door x (by decide)).trans ((after.door x (by decide)).trans (set.door x (by decide)))
    refine ⟨?_, ?_, ?_, fun x hx => (door x).trans ((doors x).trans (if_neg hx))⟩
    · rw [door, own]
    · show ∃ h ∈ r.holders, h.actuator = .latch c.toDoor ∧ h.prec = .escape
      rw [active.holders (by decide)]
      exact holder
    · rw [active.latch c.toDoor (by decide), latch, set.clock, set.cfg (by decide), within.clock, within.cfg (by decide)]
      rfl
  · refine completes_innerPull hears shut lock child fun q within doors f p e r active => ?_
    have own := (doors c.toDoor).trans (if_pos rfl)
    rw [Part.innerAsked_raises (by rw [own]; exact shut) ((within.latch c.toDoor (by decide)).trans flies) prec] at e
    have raise : q.raiseRelease c.toDoor { op with sources := { op.sources with inner := true } } =
        ((q.setLatch c.toDoor (some op.raised)).dropWaiter (.latch c.toDoor)).grantEscape c.toDoor := by
      rcases waits with h | h <;> simp only [Part.raiseRelease, ReleaseOp.raised, h]
    rw [raise] at e
    have set := ((q.setLatch_does c.toDoor (some op.raised)).toWithin).trans
      (Part.dropWaiter_does (q.setLatch c.toDoor (some op.raised)) (.latch c.toDoor)).toWithin
      (M := [.latches, .holders, .waiting]) (by decide) (by decide)
    obtain ⟨latch, holder, after, waiting⟩ := grantEscape_settles e
      (((Part.dropWaiter_does (q.setLatch c.toDoor (some op.raised)) (.latch c.toDoor)).toWithin.latch c.toDoor (by decide)).trans
        ((Part.setLatch_latch ..).trans (if_pos rfl)))
    have door (x : Door) : r.door x = q.door x :=
      (active.door x (by decide)).trans ((after.door x (by decide)).trans (set.door x (by decide)))
    refine ⟨?_, ?_, ?_, fun w hw => ?_⟩
    · rw [door, own]
    · show ∃ h ∈ r.holders, h.actuator = .latch c.toDoor ∧ h.prec = .escape
      rw [active.holders (by decide)]
      exact holder
    · rw [active.latch c.toDoor (by decide), latch, set.clock, set.cfg (by decide), within.clock, within.cfg (by decide)]
      rfl
    · rw [active.waiting (by decide)] at hw
      simpa using (List.mem_filter.1 (waiting w hw)).2
  · refine completes_innerPull hears shut lock child fun q within doors f p e r active => ?_
    have own := (doors c.toDoor).trans (if_pos rfl)
    rw [Part.innerAsked_raises (by rw [own]; exact shut) ((within.latch c.toDoor (by decide)).trans flies) prec] at e
    have grants := settle_granting f p
    obtain ⟨set, latched, waiting, held⟩ := q.raiseRelease_drives (d := c.toDoor)
      (op := { op with sources := { op.sources with inner := true } }) drives
    rw [← e] at set latched waiting held
    have still : ∀ w ∈ (f p).waiting, w.actuator ≠ .latch c.toDoor := by
      rw [waiting, within.waiting (by decide)]
      exact alone
    have door (x : Door) : r.door x = q.door x :=
      (active.door x (by decide)).trans ((grants.within.door x (by decide)).trans (set.door x (by decide)))
    refine ⟨?_, ?_, fun pulsing h hm ha => ?_⟩
    · rw [door, own]
    · rw [active.latch c.toDoor (by decide)]
      rcases grants.latch c.toDoor with same | ⟨⟨w, hw, ha⟩, -⟩
      · rw [same, latched]
      · exact absurd ha (still w hw)
    · rw [active.holders (by decide)] at hm
      obtain ⟨l, hl, granted⟩ := grants.holders
      rw [hl] at hm
      rcases List.mem_append.1 hm with before | after
      · exact held pulsing h before ha
      · obtain ⟨w, hw, rfl⟩ := granted h after
        exact absurd ha (still w hw)
  · refine (completes_run (f := (·.debounced (.inner c) .l1)) rfl).2 ?_
    rw [Part.debounced_hears hears rfl rfl rfl (fun _ e => by cases e)]
    obtain ⟨row, refused⟩ := Part.innerPull_bars (p := s.part.heard (.inner c) .l1) shut bars
    have within := ((s.part.heard (.inner c) .l1).appendRow_does row).toWithin
    have took : settle (·.deliver (.inner c) (s.part.input (.inner c)).level .l1) (s.part.heard (.inner c) .l1) =
        (s.part.heard (.inner c) .l1).appendRow row :=
      (settle_within (f := (·.deliver (.inner c) (s.part.input (.inner c)).level .l1)) (K := rowAreas) (by
        show Part.Within rowAreas _ ((s.part.heard (.inner c) .l1).innerPull c)
        rw [refused]
        exact within)).trans refused
    rw [took]
    have final := Part.heard_activity (M := .inputs :: .dwell :: rowAreas) within
    exact ⟨final.latches (by decide), final.doors (by decide), final.holders (by decide), final.windows (by decide)⟩
  · refine (completes_run (f := (·.debounced (.inner c) .l1)) rfl).2 ?_
    rw [Part.debounced_eq settled stuck sound (fun _ e => by cases e), Part.takeEvent,
      show (s.part.heard (.inner c) .l1).state = .doze from doze]
    dsimp only
    have holds : (s.part.heard (.inner c) .l1).dozeEvent (.inner c) (s.part.input (.inner c)).level .l1 =
        ((s.part.heard (.inner c) .l1).requestWake (.input (.inner c))).holdEvent (.input (.inner c) .rest .l1) := by
      rw [rest]
      unfold Part.dozeEvent
      rw [if_neg (by rw [show (s.part.heard (.inner c) .l1).waking = none from awake]; decide)]
      rfl
    have within := ((s.part.heard (.inner c) .l1).requestWake_does (.input (.inner c))).toWithin.trans
      (Part.holdEvent_does _ (.input (.inner c) .rest .l1)).toWithin (M := [.waking]) (by decide) (by decide)
    rw [settle_within (K := [.waking]) (by rw [holds]; exact within), holds]
    have final := ((s.part.heard_does (.inner c) .l1).toWithin).trans within (M := [.inputs, .waking]) (by decide) (by decide)
    refine ⟨?_, (final.state (by decide)).trans doze, final.doors (by decide), final.latches (by decide)⟩
    have woken : ((s.part.heard (.inner c) .l1).requestWake (.input (.inner c))).waking =
        some ⟨.input (.inner c), s.part.clock, [], false, false⟩ := by
      rw [Part.requestWake, show (s.part.heard (.inner c) .l1).waking = none from awake]
      rfl
    rw [Part.holdEvent, woken]
    rfl

end Sys2Proof.Machine
end

section
/-! The monitor of a window whose command starts (R66, R76, R84, R92). -/

namespace Sys2Proof.Machine

/-- The monitor's fields as a command starts: a MANUAL close takes an armed force (R84). -/
def MonitorRec.started (m : MonitorRec) (cmd : Command) (now : Nat) : MonitorRec :=
  if m.takesForce cmd then { m.driving now with forceInUse := true, forceArmed := none, history := [] } else m.driving now

set_option Elab.async false in -- the declarations above are finished first: this bounds the memory of the one text
theorem Part.startMove_monitor (p : Part) (c x : Corner) (cmd : Command) : (p.startMove c cmd).monitor x =
    if x = c then (p.monitor c).started cmd p.clock else p.monitor x := by
  simp only [Part.startMove, Part.markDirty_fields, Part.appendRow_fields, Part.setMonitor_monitor, Part.setWindow_fields]
  split
  · unfold MonitorRec.started
    split <;> rfl
  · rfl

/-- The monitor as the window is told its grant: a learn begins phase DOWN (R92). -/
def MonitorRec.granted (m : MonitorRec) (cmd : Command) (now : Nat) : MonitorRec :=
  MonitorRec.started { m with learn := m.learn.map fun l => { l with phase := .down, count := 0 } } cmd now

theorem Part.windowGranted_monitor {p : Part} {c : Corner} {x : Pending} (h : (p.window c).pending = some x) :
    (p.windowGranted c).monitor c = (p.monitor c).granted x.cmd p.clock := by
  have start (m : MonitorRec) : ((p.setMonitor c m).startMove c x.cmd).monitor c = m.started x.cmd p.clock := by
    rw [Part.startMove_monitor, if_pos rfl, Part.setMonitor_monitor, if_pos rfl]
    rfl
  simp only [Part.windowGranted, h]
  split
  · exact ((Part.reportGrant_acts _ c).toWithin.monitor c (by decide)).trans (start _)
  · exact start _

/-- What a start leaves of the force: taken by a MANUAL close, else as it was. -/
theorem MonitorRec.granted_fields (m : MonitorRec) (cmd : Command) (now : Nat) :
    m.granted cmd now = { m with
      baseline := []
      settled := false
      stallAt := some (now + 200)
      floor := now + 200
      learn := m.learn.map fun l => { l with phase := .down, count := 0 }
      forceInUse := (m.granted cmd now).forceInUse
      forceArmed := (m.granted cmd now).forceArmed
      history := (m.granted cmd now).history } ∧
    (m.forceArmed.isSome = true ∧ cmd.mode = .manual ∧ cmd.dir = .closing → (m.granted cmd now).forceInUse = true ∧
      (m.granted cmd now).forceArmed = none ∧ (m.granted cmd now).history = []) ∧
    (¬ (m.forceArmed.isSome = true ∧ cmd.mode = .manual ∧ cmd.dir = .closing) →
      (m.granted cmd now).forceInUse = m.forceInUse ∧ (m.granted cmd now).forceArmed = m.forceArmed ∧
      (m.granted cmd now).history = m.history) := by
  have takes : ({ m with learn := m.learn.map fun l => { l with phase := .down, count := 0 } } : MonitorRec).takesForce cmd = true ↔
      m.forceArmed.isSome = true ∧ cmd.mode = .manual ∧ cmd.dir = .closing := by
    simp [MonitorRec.takesForce]
  unfold MonitorRec.granted MonitorRec.started
  by_cases h : m.forceArmed.isSome = true ∧ cmd.mode = .manual ∧ cmd.dir = .closing
  · rw [if_pos (takes.2 h)]
    exact ⟨rfl, fun _ => ⟨rfl, rfl, rfl⟩, fun k => absurd h k⟩
  · rw [if_neg (mt takes.1 h)]
    exact ⟨rfl, fun k => absurd k h, fun _ => ⟨rfl, rfl, rfl⟩⟩

/-- The only request, a window's, granted: the monitor starts with the command. -/
theorem settle_startsMonitor {f : Part → Part} {p : Part} {w : Waiter} {c : Corner} {cmd : Command} {t : Nat}
    (before : p.waiting = []) (waits : (f p).waiting = [w]) (ha : w.actuator = .window c) (hu : w.units = 2)
    (room : 2 ≤ (f p).unitsFree) (pends : ((f p).window c).pending = some ⟨cmd, t⟩) :
    (settle f p).monitor c = ((f p).monitor c).granted cmd (f p).clock := by
  rw [settle_grantsOne before waits (by omega), ha]
  exact Part.windowGranted_monitor (p := (f p).setLists ((f p).holders ++ [w.held (f p).clock]) []) (x := ⟨cmd, t⟩) pends

end Sys2Proof.Machine
end

section
/-! A switch leaves NEUTRAL on a window at rest (R52 to R54, R58 to R62, R82, R84). -/

namespace Sys2Proof.Machine

/-! ### The stage -/

set_option Elab.async false in -- the declarations above are finished first: this bounds the memory of the one text
/-- A stage entry of a switch that makes commands: the watch may end, then the entry is judged. -/
theorem Part.switchStage_enters {p : Part} {sw : Switch} {old st : Stage} {dir : Direction} (hd : Stage.dir st = some dir)
    (live : p.switchIdle sw = false) :
    ∃ q, (q = p ∨ q = p.endWatch sw.window) ∧ p.switchStage sw old st = q.stageEntry sw old st dir := by
  have entered (q : Part) (h : q.switchIdle sw = false) :
      (if q.switchIdle sw then q else match Stage.dir st with
        | none => q.switchRelease sw
        | some dir => q.stageEntry sw old st dir) = q.stageEntry sw old st dir := by
    rw [h, hd]
    rfl
  unfold Part.switchStage
  dsimp only
  split
  · exact ⟨_, .inr rfl, entered (p.endWatch sw.window) live⟩
  · exact ⟨p, .inl rfl, entered p live⟩

theorem Part.switchIdle_false {p : Part} {sw : Switch} (spent : p.spent.get sw = false)
    (free : p.lockout = false ∨ ∃ x, sw = .master x) : p.switchIdle sw = false := by
  rw [Part.switchIdle, spent]
  rcases free with off | ⟨x, rfl⟩
  · rw [off]; rfl
  · simp

/-- From NEUTRAL on a window that does not move, the entry is a command. -/
theorem Part.stageEntry_commands {p : Part} {sw : Switch} {st : Stage} {dir : Direction}
    (still : (p.window sw.window).motion = .stopped) : p.stageEntry sw .neutral st dir = p.switchCommand sw dir (Stage.isSecond st) := by
  have rests : (p.window sw.window).underWay = false := by simp [WindowRec.underWay, still]
  unfold Part.stageEntry
  dsimp only
  rw [if_neg (by rintro ⟨-, h⟩; cases h), if_neg (by rw [rests]; rintro ⟨h, -⟩; cases h)]

/-! ### The command -/

/-- A sound window that stands still and cool: what a command of a switch meets on it (R60). -/
structure Part.Stands (p : Part) (c : Corner) : Prop where
  motion : (p.window c).motion = .stopped
  pending : (p.window c).pending = none
  cool : (p.window c).thermal = false
  sound : p.outOfService c = false

theorem Part.Stands.startCheck {p : Part} {c : Corner} (h : p.Stands c) {cmd : Command} (crash : cmd.dir = .closing → p.crashSet = false) :
    p.startCheck c cmd =
      if (p.window c).learned = false ∧ (cmd.mode ≠ .manual ∨ cmd.mover = .sequencer) then some .unlearned
      else if cmd.mode = .express ∧ cmd.dir = .closing ∧ (p.window c).pinchLockout = true then some .pinchLockout else none := by
  have latch : ¬ (cmd.dir = .closing ∧ p.crashSet = true) := fun ⟨d, e⟩ => by rw [crash d] at e; cases e
  unfold Part.startCheck
  dsimp only
  rw [h.sound, h.cool, if_neg (by decide), if_neg (by simp), if_neg latch]

theorem Part.Stands.verdict {p : Part} {c : Corner} (h : p.Stands c) {cmd : Command} (isSwitch : cmd.mover.isSwitch = true) :
    p.verdict c cmd = match p.startCheck c cmd with
      | some r => .refused r
      | none =>
        match (p.window c).alreadyDone p.cfg cmd with
        | some r => .already r
        | none => .passes := by
  unfold Part.verdict
  exact if_neg (by rw [h.motion, isSwitch]; simp)

theorem Switch.moves_asSwitch (sw : Switch) : (Switch.mover sw).isSwitch = true := by cases sw <;> rfl

/-- A MANUAL command of a switch passes. -/
theorem Part.Stands.manual {p : Part} {c : Corner} (h : p.Stands c) {dir : Direction} (crash : dir = .closing → p.crashSet = false)
    (sw : Switch) (for_ : Bool) : p.verdict c ⟨dir, .manual, Switch.mover sw, none, for_⟩ = .passes := by
  rw [h.verdict (Switch.moves_asSwitch sw), h.startCheck crash, if_neg (by simp [Switch.mover_ne sw]), if_neg (by rintro ⟨k, -⟩; cases k)]
  rfl

/-- An EXPRESS command of a switch (R54, R65, R82). -/
theorem Part.Stands.express {p : Part} {c : Corner} (h : p.Stands c) {dir : Direction} (crash : dir = .closing → p.crashSet = false)
    (sw : Switch) :
    ((p.window c).learned = false → p.verdict c ⟨dir, .express, Switch.mover sw, none, false⟩ = .refused .unlearned) ∧
    ((p.window c).learned = true → dir = .closing ∧ (p.window c).pinchLockout = true →
      p.verdict c ⟨dir, .express, Switch.mover sw, none, false⟩ = .refused .pinchLockout) ∧
    ((p.window c).learned = true → ¬ (dir = .closing ∧ (p.window c).pinchLockout = true) →
      p.verdict c ⟨dir, .express, Switch.mover sw, none, false⟩ =
        if (p.window c).atSoftStop p.cfg dir then .already .atEnd else .passes) := by
  rw [h.verdict (Switch.moves_asSwitch sw), h.startCheck crash]
  refine ⟨fun u => ?_, fun l k => ?_, fun l k => ?_⟩
  · rw [if_pos ⟨u, .inl nofun⟩]
  · rw [if_neg (by rw [l]; rintro ⟨e, -⟩; cases e), if_pos ⟨rfl, k⟩]
  · rw [if_neg (by rw [l]; rintro ⟨e, -⟩; cases e), if_neg fun e => k e.2]
    unfold WindowRec.alreadyDone
    by_cases stop : (p.window c).atSoftStop p.cfg dir = true
    · simp only [stop, if_true]
    · rw [if_neg stop, if_neg stop]

/-- What a stage entry commands: MANUAL, an EXPRESS taken as MANUAL with its START-REFUSED row, EXPRESS, or nothing at the
soft stop. -/
theorem Part.Stands.commands {p : Part} {sw : Switch} (h : p.Stands sw.window) {dir : Direction}
    (crash : dir = .closing → p.crashSet = false) (second : Bool) :
    let w := p.window sw.window
    let standsIn := second = true ∧ (w.learned = false ∨ (dir = .closing ∧ w.pinchLockout = true))
    (second = false ∨ standsIn → ∃ q, (q = p ∨ ∃ r, q = p.appendRow r) ∧
      p.switchCommand sw dir second = q.applyPassed sw.window ⟨dir, .manual, Switch.mover sw, none, second⟩) ∧
    (second = true → ¬ standsIn → p.switchCommand sw dir second = if w.atSoftStop p.cfg dir then p.endWatch sw.window
      else p.applyPassed sw.window ⟨dir, .express, Switch.mover sw, none, false⟩) := by
  have still : (p.window sw.window).underWay = false := by simp [WindowRec.underWay, h.motion]
  have apply (q : Part) (cmd : Command) (v : q.verdict sw.window cmd = .passes) :
      q.applyCommand sw.window cmd = q.applyPassed sw.window cmd := by rw [Part.applyCommand, v]
  have row (r : Row) : (p.appendRow r).Stands sw.window :=
    ⟨by simp only [Part.appendRow_fields]; exact h.motion, by simp only [Part.appendRow_fields]; exact h.pending,
      by simp only [Part.appendRow_fields]; exact h.cool, ((p.appendRow_does r).toWithin.outOfService _).trans h.sound⟩
  have crash' (r : Row) : dir = .closing → (p.appendRow r).crashSet = false := fun d =>
    ((p.appendRow_does r).toWithin.crashSet).trans (crash d)
  obtain ⟨unlearned, pinched, sound⟩ := h.express crash sw
  dsimp only
  refine ⟨fun k => ?_, fun e n => ?_⟩
  · rcases k with first | ⟨e, stands⟩
    · subst first
      refine ⟨p, .inl rfl, ?_⟩
      unfold Part.switchCommand
      simp only [Bool.false_eq_true, if_false, h.manual crash sw false]
      exact apply p _ (h.manual crash sw false)
    · subst e
      cases hl : (p.window sw.window).learned with
      | false =>
        refine ⟨p.appendRow (startRefusedRow sw.window .unlearned sw .express), .inr ⟨_, rfl⟩, ?_⟩
        unfold Part.switchCommand
        simp only [if_true, unlearned hl, still, h.pending, Bool.false_and, Option.any_none, Bool.or_self, Bool.false_eq_true,
          if_false]
        exact apply _ _ ((row _).manual (crash' _) sw true)
      | true =>
        refine ⟨p.appendRow (startRefusedRow sw.window .pinchLockout sw .express), .inr ⟨_, rfl⟩, ?_⟩
        unfold Part.switchCommand
        simp only [if_true, pinched hl (stands.resolve_left (by rw [hl]; decide)), still, h.pending, Bool.false_and,
          Option.any_none, Bool.or_self, Bool.false_eq_true, if_false]
        exact apply _ _ ((row _).manual (crash' _) sw true)
  · subst e
    have learned : (p.window sw.window).learned = true := by
      by_contra u
      exact n ⟨rfl, .inl (by simpa using u)⟩
    have verdict := sound learned fun k => n ⟨rfl, .inr k⟩
    split
    · rename_i stop
      rw [if_pos stop] at verdict
      unfold Part.switchCommand
      simp only [if_true, verdict]
      rw [Part.applyCommand, verdict]
      simp only [Part.applyDone, still, Bool.false_eq_true, if_false, h.pending]
    · rename_i far
      rw [if_neg far] at verdict
      unfold Part.switchCommand
      simp only [if_true, verdict]
      exact apply p _ verdict

end Sys2Proof.Machine
end

section
/-! A switch's command at rest, granted at once (R52 to R54, R58 to R62, R82, R84). -/

namespace Sys2Proof.Machine

set_option Elab.async false in -- the declarations above are finished first: this bounds the memory of the one text
theorem Part.applyPassed_rest_watch {p : Part} {c : Corner} (stopped : (p.window c).motion = .stopped)
    (none : (p.window c).pending = none) (cmd : Command) :
    (p.applyPassed c cmd).monitor c = { p.monitor c with watch := .none } := by
  rw [Part.applyPassed_rest stopped none, ((Part.request_does _ _ _).toWithin).monitor c (by decide),
    (Part.setWindow_within _ c _).monitor c (by decide)]
  exact (Part.setMonitor_monitor ..).trans (if_pos rfl)

/-- A command that passes on a window at rest, with nothing waiting and room for it: granted at once, it starts. -/
theorem settle_moves {f : Part → Part} {p q : Part} {c : Corner} {cmd : Command} (e : f p = q.applyPassed c cmd)
    (before : p.waiting = []) (stopped : (q.window c).motion = .stopped) (none : (q.window c).pending = .none)
    (noneWaits : q.waiting = []) (room : 2 ≤ q.unitsFree) :
    (∀ x, (settle f p).window x = if x = c then
        WindowRec.started { q.window c with pending := some ⟨cmd, q.clock⟩ } cmd q.clock q.cfg.rampTime else q.window x) ∧
      (settle f p).monitor c = MonitorRec.granted { q.monitor c with watch := .none } cmd q.clock ∧
      (settle f p).holders = q.holders ++ [⟨.window c, 2, .window, q.clock, .withinBudget⟩] ∧
      Part.Within (windowGrantAreas ++ [.windows, .monitors]) q (settle f p) := by
  obtain ⟨windows, holders, waiting, units, within⟩ := Part.applyPassed_rest_fields stopped none cmd
  have watch := Part.applyPassed_rest_watch stopped none cmd
  rw [← e] at windows holders waiting units within watch
  have waits : (f p).waiting = [⟨.window c, 2, .window, q.clock, q.clock + 2000⟩] := by rw [waiting, noneWaits]; rfl
  have pends := congrArg WindowRec.pending ((windows c).trans (if_pos rfl))
  obtain ⟨started, held, -, -, -, grant⟩ := settle_startsWindow before waits rfl rfl (by rw [units]; exact room) pends
  have monitor := settle_startsMonitor before waits rfl rfl (by rw [units]; exact room) pends
  refine ⟨fun x => ?_, ?_, ?_, within.trans grant (by decide) (by decide)⟩
  · rw [started x, windows c, if_pos rfl, windows x, within.clock, within.cfg (by decide)]
    split <;> rfl
  · rw [monitor, watch, within.clock]
  · rw [held, holders, within.clock]

theorem stageLevel_moves {st : Stage} {dir : Direction} (h : Stage.dir st = some dir) : stageLevel st ≠ .rest := by
  cases st <;> simp_all [Stage.dir, stageLevel]

theorem levelStage_stageLevel (st : Stage) : levelStage (stageLevel st) = st := by cases st <;> rfl

theorem Stage.isSecond_iff (st : Stage) : Stage.isSecond st = true ↔ st = .up2 ∨ st = .down2 := by cases st <;> simp [Stage.isSecond]

/-- What a switch's command hands to the window: a passed command, after a row at most and the end of a watch. -/
structure Part.Hands (p q : Part) (c : Corner) : Prop where
  within : Part.Within (.monitors :: rowAreas) p q
  monitor : { q.monitor c with watch := none } = { p.monitor c with watch := none }

theorem Part.Hands.of {p q r : Part} {c : Corner} (h : q = p ∨ q = p.endWatch c) (row : r = q ∨ ∃ x, r = q.appendRow x) :
    p.Hands r c := by
  have first : p.Hands q c := by
    rcases h with rfl | rfl
    · exact ⟨.refl _ _, rfl⟩
    · refine ⟨(p.endWatch_does c).toWithin.mono (by decide), ?_⟩
      rw [Part.endWatch, Part.setMonitor_monitor, if_pos rfl]
  rcases row with rfl | ⟨x, rfl⟩
  · exact first
  · refine ⟨first.within.trans (q.appendRow_does x).toWithin (List.Subset.refl _) (by decide), ?_⟩
    rw [(q.appendRow_does x).toWithin.monitor c (by decide)]
    exact first.monitor

/-- The window moves by the command, and only it does. -/
structure Part.Moved (p q : Part) (c : Corner) (cmd : Command) : Prop where
  window : ∀ x, q.window x = if x = c then
    WindowRec.started { p.window c with pending := some ⟨cmd, p.clock⟩ } cmd p.clock p.cfg.rampTime else p.window x
  monitor : q.monitor c = MonitorRec.granted { p.monitor c with watch := none } cmd p.clock
  holders : q.holders = p.holders ++ [⟨.window c, 2, .window, p.clock, .withinBudget⟩]
  outside : p.sameOutsideWindows q

/-- A ready switch's change that is one passed command on its window at rest. -/
theorem Part.debounced_moves {p q : Part} {sw : Switch} {l : Level} {cmd : Command} (ready : p.ready (.switch sw) l)
    (away : l ≠ .rest) (hands : (p.heard (.switch sw) l).Hands q sw.window)
    (e : (p.heard (.switch sw) l).deliver (.switch sw) (p.input (.switch sw)).level l = q.applyPassed sw.window cmd)
    (stopped : (p.window sw.window).motion = .stopped) (none : (p.window sw.window).pending = .none) (noneWaits : p.waiting = [])
    (room : 2 ≤ p.unitsFree) : p.Moved (p.debounced (.switch sw) l) sw.window cmd := by
  obtain ⟨within, mon⟩ := hands
  have clock : q.clock = p.clock := within.clock
  have cfg : q.cfg = p.cfg := within.cfg (by decide)
  have window (x : Corner) : q.window x = p.window x := within.window x (by decide)
  have holders : q.holders = p.holders := within.holders (by decide)
  have waiting : q.waiting = p.waiting := within.waiting (by decide)
  have supply : q.supply = p.supply := within.supply (by decide)
  have units : q.unitsFree = p.unitsFree := by simp only [Part.unitsFree, Part.budget, holders, supply, cfg]
  rw [Part.debounced_ready ready (fun _ _ => away) rfl]
  obtain ⟨windows, monitor, held, rest⟩ := settle_moves (f := (·.deliver (.switch sw) (p.input (.switch sw)).level l)) e
    (show (p.heard (.switch sw) l).waiting = [] from noneWaits) (by rw [window]; exact stopped) (by rw [window]; exact none)
    (waiting.trans noneWaits) (by rw [units]; exact room)
  generalize settle (·.deliver (.switch sw) (p.input (.switch sw)).level l) (p.heard (.switch sw) l) = r
    at windows monitor held rest
  have act := (r.activity_does).toWithin
  refine ⟨fun x => ?_, ?_, ?_, ?_⟩
  · rw [act.window x (by decide), windows x, window, window, clock, cfg]
  · rw [act.monitor _ (by decide), monitor, mon, clock]
    rfl
  · rw [act.holders (by decide), held, holders, clock]
  · exact (((p.heard_does (.switch sw) l).toWithin.trans within (M := .inputs :: .monitors :: rowAreas) (by decide) (by decide)).trans
      rest (M := .inputs :: windowGrantAreas ++ .windows :: .monitors :: rowAreas) (by decide) (by decide)).trans act
      (M := .dwell :: .inputs :: windowGrantAreas ++ .windows :: .monitors :: rowAreas) (by decide) (by decide) |>.outsideWindows

theorem WindowRec.atSoftStop_iff (w : WindowRec) (cfg : Config) (dir : Direction) : w.atSoftStop cfg dir = true ↔
    (dir = .closing ∧ w.travel - cfg.softStopOffset ≤ w.position) ∨ (dir = .opening ∧ w.position ≤ cfg.softStopOffset) := by
  cases dir with
  | opening => exact decide_eq_true_iff.trans (by simp [bottomStop])
  | closing => exact decide_eq_true_iff.trans (by simp [WindowRec.topStop])

/-- The move's fields. -/
theorem Part.Moved.fields {p q : Part} {c : Corner} {cmd : Command} (h : p.Moved q c cmd) :
    (q.window c).motion = cmd.dir.motion ∧ (q.window c).mode = some cmd.mode ∧ (q.window c).mover = some cmd.mover ∧
      (q.window c).forExpress = cmd.forExpress ∧ (q.window c).pending = none ∧ (q.window c).movingFlag = true ∧
      (q.window c).position = (p.window c).position ∧ (q.window c).learned = (p.window c).learned ∧
      (q.monitor c).stallAt = some (p.clock + 200) ∧ (q.monitor c).baseline = [] ∧ (q.monitor c).settled = false ∧
      (q.monitor c).watch = none ∧ q.holders = p.holders ++ [⟨.window c, 2, .window, p.clock, .withinBudget⟩] ∧
      (∀ x, x ≠ c → q.window x = p.window x) ∧ p.sameOutsideWindows q := by
  have own := (h.window c).trans (if_pos rfl)
  obtain ⟨monitor, -⟩ := MonitorRec.granted_fields { p.monitor c with watch := none } cmd p.clock
  rw [← h.monitor] at monitor
  rw [own, monitor]
  exact ⟨rfl, rfl, rfl, rfl, rfl, rfl, rfl, rfl, rfl, rfl, rfl, rfl, h.holders, fun x hx => (h.window x).trans (if_neg hx), h.outside⟩

/-- Settles O34: a stage entry is one command on a window at rest, granted at once, or at the soft stop nothing. -/
theorem switchStagesMoveTheWindow : Obligations.SwitchStagesMoveTheWindow := by
  unfold Obligations.SwitchStagesMoveTheWindow
  intro s sw st dir hd ready rest
  dsimp only
  intro spent free sound stopped none cool learns noneWaits room crash
  have live : (s.part.heard (.switch sw) (stageLevel st)).switchIdle sw = false := Part.switchIdle_false spent free
  obtain ⟨q, hq, entry⟩ := Part.switchStage_enters (old := .neutral) hd live
  have same := Part.Hands.of hq (.inl rfl)
  have stands : q.Stands sw.window :=
    ⟨by rw [same.within.window _ (by decide)]; exact stopped, by rw [same.within.window _ (by decide)]; exact none,
      by rw [same.within.window _ (by decide)]; exact cool, (same.within.outOfService _).trans sound⟩
  have calm : dir = .closing → q.crashSet = false := fun d => (same.within.crashSet).trans (crash d)
  have window : q.window sw.window = s.part.window sw.window := same.within.window _ (by decide)
  have cfg : q.cfg = s.part.cfg := same.within.cfg (by decide)
  have deliver : (s.part.heard (.switch sw) (stageLevel st)).deliver (.switch sw) (s.part.input (.switch sw)).level (stageLevel st) =
      q.switchCommand sw dir (Stage.isSecond st) := by
    rw [rest, ← Part.stageEntry_commands stands.motion, ← entry]
    simp only [Part.deliver, levelStage_stageLevel]
    rfl
  obtain ⟨manual, express⟩ := stands.commands calm (Stage.isSecond st)
  rw [window, cfg] at express
  rw [window] at manual
  have moves {r : Part} {cmd : Command} (hr : r = q ∨ ∃ x, r = q.appendRow x)
      (e : q.switchCommand sw dir (Stage.isSecond st) = r.applyPassed sw.window cmd) :=
    Part.debounced_moves ready (stageLevel_moves hd) (.of hq hr) (deliver.trans e) stopped none noneWaits room
  rw [← WindowRec.atSoftStop_iff]
  have two := Stage.isSecond_iff st
  refine ⟨fun k => (completes_run (f := (·.debounced (.switch sw) (stageLevel st))) rfl).2 ?_, fun second far way =>
    (completes_run (f := (·.debounced (.switch sw) (stageLevel st))) rfl).2 ?_, fun second far way =>
    (completes_run (f := (·.debounced (.switch sw) (stageLevel st))) rfl).2 ?_⟩
  · obtain ⟨r, hr, e⟩ := manual (by rw [← Bool.not_eq_true, two]; exact k)
    have moved := moves hr e
    obtain ⟨-, takes, keeps⟩ := MonitorRec.granted_fields { s.part.monitor sw.window with watch := .none }
      ⟨dir, .manual, Switch.mover sw, .none, Stage.isSecond st⟩ s.part.clock
    rw [← moved.monitor] at takes keeps
    refine ⟨?_, fun ⟨d, armed⟩ => takes ⟨armed, rfl, d⟩, fun n => keeps fun ⟨armed, _, d⟩ => n ⟨d, armed⟩⟩
    rw [show decide (st = .up2 ∨ st = .down2) = Stage.isSecond st by cases st <;> rfl]
    exact moved.fields
  · have moved := moves (.inl rfl) ((express (two.2 second) (by rw [two]; exact far)).trans (if_neg way))
    obtain ⟨-, -, keeps⟩ := MonitorRec.granted_fields { s.part.monitor sw.window with watch := .none }
      ⟨dir, .express, Switch.mover sw, .none, false⟩ s.part.clock
    rw [← moved.monitor] at keeps
    exact ⟨moved.fields, keeps nofun⟩
  · have e := deliver.trans ((express (two.2 second) (by rw [two]; exact far)).trans (if_pos way))
    have within := same.within.trans (q.endWatch_does sw.window).toWithin (M := .monitors :: rowAreas) (by decide) (by decide)
    rw [Part.debounced_calm ready (fun _ _ => stageLevel_moves hd) rfl (e.symm ▸ within), e]
    have final := Part.heard_activity (M := .inputs :: .dwell :: .monitors :: rowAreas) within
    exact ⟨final.windows (by decide), final.holders (by decide), final.outsideWindows⟩

end Sys2Proof.Machine
end

section
/-! A moving window whose Sequencer answers to the slot that a new order takes (R69, R154, R155). -/

namespace Sys2Proof.Machine

/-- SERVICE, with window FL opening for a VENT whose order is in slot 0, although that slot is FREE. -/
def ventWindow : Part :=
  let p := State.reset.part
  { p with
    state := .service
    port := { p.port with served := true }
    windows := p.windows.set .fl { p.window .fl with
      position := 500
      travel := 1000
      learned := true
      motion := .opening
      mode := some .target
      target := some 100
      mover := some .sequencer }
    operation := some ⟨.vent, .order 0, 0, none, ⟨⟨.moving, some 100, none⟩, ⟨.skipped, none, none⟩, ⟨.skipped, none, none⟩, ⟨.skipped, none, none⟩⟩, none⟩ }

def ventHead : OrderHead := ⟨0, 0, true⟩

set_option Elab.async false in -- the declarations above are finished first: this bounds the memory of the one text
/-- The order takes the move over, and the operation that so loses its last window ends the order of its slot. -/
theorem ventWindow_ends :
    ((ventWindow.postOrder ventHead .moveWindow [⟨0, true⟩, ⟨0, true⟩, ⟨0, true⟩]).head 0).state = .done := by decide

theorem ventWindow_accepts : ventWindow.accepts ventHead := ⟨reset_tidy, rfl, rfl, rfl, rfl⟩

/-- Refutes O35: where the Sequencer, which moves the window, runs the operation of the slot the order is posted in, the
order is DONE as soon as it has taken the move over, where the statement has it TAKEN. -/
theorem not_commandsActOnAMovingWindow : ¬ Obligations.CommandsActOnAMovingWindow := by
  unfold Obligations.CommandsActOnAMovingWindow
  intro claim
  obtain ⟨-, orders⟩ := claim ⟨ventWindow, []⟩ .fl (.inl rfl) rfl rfl rfl (by decide)
  obtain ⟨-, targets⟩ := orders ventHead ⟨0, true⟩ ⟨0, true⟩ ⟨0, true⟩ ventWindow_accepts rfl rfl rfl rfl (by decide)
  obtain ⟨-, onward, -⟩ := targets ventWindow.cfg.softStopOffset (.inl ⟨rfl, rfl⟩) rfl (by decide) (by decide) (by decide)
    (by decide)
  obtain ⟨stands, -⟩ := (completes_run (exec_order rfl _)).1 (onward (by decide) (by decide))
  exact absurd ((congrArg Head.state stands).symm.trans ventWindow_ends) (by decide)

end Sys2Proof.Machine
end

section
/-! The lock rocker, IGN and VEHICLE STATE (R8, R21 to R23). -/

namespace Sys2Proof.Machine

/-! ### The rocker and IGN -/

/-- A ready input whose owner leaves all but the doors and the record: what SERVICE makes of the change. -/
theorem completes_locking {c : Instr} {s : State} {i : Input} {l : Level} (hc : exec c s = s.run (·.debounced i l))
    (ready : s.part.ready i l) (away : ∀ sw, i = .switch sw → l ≠ .rest) (routes : routed i l = true) {post : Part → Prop}
    (within : Part.Within lockAreas (s.part.heard i l) ((s.part.heard i l).deliver i (s.part.input i).level l))
    (done : ∀ q : Part, q.doors = ((s.part.heard i l).deliver i (s.part.input i).level l).doors →
      Part.Within (.inputs :: .dwell :: lockAreas) s.part q → post q) : Completes c s post := by
  refine (completes_run hc).2 ?_
  rw [Part.debounced_calm ready away routes within]
  exact done _ ((Part.activity_does _).toWithin.doors (by decide)) (Part.heard_activity within)

/-- The locks after a lock action on all doors, as a `locking` input leaves them. -/
theorem Part.lockAction_locks {p q r : Part} {a : LockAction} {src : LockSource} (h : p.lockRefused a = false)
    (e : r = p.lockAction src a allDoors) (hq : q.doors = r.doors) :
    (∀ d, q.door d = { p.door d with lock := lockAfter (p.doors.taken a) (p.door d) }) ∧
      ∃ x t, q.doors = { p.doors with recs := x, relock := none, settling := t } := by
  subst e
  obtain ⟨locks, ctrl⟩ := p.takeLock_doors src a allDoors
  rw [Part.lockAction_taken h] at hq
  refine ⟨fun d => ?_, by rw [hq]; exact ctrl⟩
  rw [Part.door, hq]
  refine (locks d).trans ?_
  rw [Part.lockTargets, if_pos (by cases d <;> rfl)]

theorem Part.inSafeHold_service {p : Part} (h : p.state = .service) : p.inSafeHold = false := by simp [Part.inSafeHold, h]

/-! ### VEHICLE STATE -/

theorem Doors.someUnbarred_iff (v : Doors) :
    v.someUnbarred = true ↔ ∃ d, (v.recs.get d).lock ≠ .locked ∧ (v.recs.get d).lock ≠ .deadlocked := by
  simp only [Doors.someUnbarred, List.any_eq_true, Bool.not_eq_true', ← Bool.not_eq_true, LockState.barred_iff, not_or]
  exact ⟨fun ⟨d, _, h⟩ => ⟨d, h⟩, fun ⟨d, h⟩ => ⟨d, Door.mem_all d, h⟩⟩

/-- R22 judges the write. -/
def Part.judgesDrive (p : Part) (v : Vehicle) : Prop :=
  v = .moving ∧ p.doors.vehicle ≠ .moving ∧ p.inSafeHold = false ∧ p.cfg.driveAwayLock = true ∧ p.doors.driveAway = false ∧
    (∀ d, (p.door d).ajar = .isClosed) ∧ ∃ d, (p.door d).lock ≠ .locked ∧ (p.door d).lock ≠ .deadlocked

theorem Part.judgesDrive_congr {p q : Part} {v : Vehicle} (doors : q.doors = p.doors) (state : q.state = p.state) (cfg : q.cfg = p.cfg) :
    q.judgesDrive v ↔ p.judgesDrive v := by
  simp only [Part.judgesDrive, Part.door, Part.inSafeHold, doors, state, cfg]

/-- A write of VEHICLE STATE once door service has begun (R21, R22). -/
theorem Part.vehicleWrite_doors {p : Part} (service : p.doorService = true) (v : Vehicle) :
    (¬ p.judgesDrive v ∨ p.crashSet = true → (p.vehicleWrite v).doors = { p.doors with vehicle := v }) ∧
      (p.judgesDrive v → p.crashSet = false → (p.vehicleWrite v).doors.vehicle = v ∧ (p.vehicleWrite v).doors.driveAway = true ∧
        (p.vehicleWrite v).doors.relock = none ∧
        ∀ d, (p.vehicleWrite v).door d = { p.door d with lock := lockAfter .lock (p.door d) }) := by
  have judged : p.judgesDrive v ↔ (v = .moving ∧ p.doors.vehicle ≠ .moving ∧ p.inSafeHold = false) ∧
      (p.cfg.driveAwayLock && !p.doors.driveAway && p.doors.allShut && p.doors.someUnbarred) = true := by
    simp only [Bool.and_eq_true, Doors.allShut_iff, Doors.someUnbarred_iff, Bool.not_eq_true']
    exact ⟨fun ⟨a, b, c, d, e, f, g⟩ => ⟨⟨a, b, c⟩, ⟨⟨d, e⟩, f⟩, g⟩, fun ⟨⟨a, b, c⟩, ⟨⟨d, e⟩, f⟩, g⟩ => ⟨a, b, c, d, e, f, g⟩⟩
  let q := p.setDoors { p.doors with vehicle := v }
  have taken : p.vehicleWrite v = if v = .moving ∧ p.doors.vehicle ≠ .moving ∧ p.inSafeHold = false then q.driveAwayLock else q :=
    if_pos service
  have lock : q.driveAwayLock = if (p.cfg.driveAwayLock && !p.doors.driveAway && p.doors.allShut && p.doors.someUnbarred) = true then
      (if q.lockRefused .lock then q.lockAction .driveAway .lock allDoors else
        (q.lockAction .driveAway .lock allDoors).setDoors
          { (q.lockAction .driveAway .lock allDoors).doors with driveAway := true }) else q := rfl
  have refuses : q.lockRefused .lock = p.crashSet := Bool.and_true _
  rw [taken, judged, lock]
  refine ⟨fun h => ?_, fun ⟨moves, judges⟩ crash => ?_⟩
  · split
    · split
      · rename_i moves judges
        have crash := h.resolve_left fun n => n ⟨moves, judges⟩
        rw [if_pos (refuses.trans crash)]
        exact Part.lockAction_refused (refuses.trans crash)
      · rfl
    · rfl
  · have open_ : q.lockRefused .lock = false := refuses.trans crash
    rw [if_pos moves, if_pos judges, if_neg (by rw [open_]; decide)]
    obtain ⟨locks, x, t, ctrl⟩ := Part.lockAction_locks (src := .driveAway) open_ rfl rfl
    refine ⟨?_, rfl, ?_, locks⟩
    · show (q.lockAction .driveAway .lock allDoors).doors.vehicle = v
      rw [ctrl]
      rfl
    · show (q.lockAction .driveAway .lock allDoors).doors.relock = none
      rw [ctrl]

theorem pickVehicle_code {w : Word} {v : Vehicle} (h : w = BitVec.ofNat 32 v.ctorIdx) : pickVehicle w = some v := by
  subst h
  cases v <;> rfl

/-- A word of VEHICLE STATE in a burst of its own. -/
theorem completes_vehicle {s : State} {w : HostWord} {v : Vehicle} (hs : s.part.port.served = true)
    (hw : w.value = BitVec.ofNat 32 v.ctorIdx) {post : Part → Prop}
    (done : ∀ q p : Part, Part.Within [.waking, .dwell] s.part q → p.doors = (q.vehicleWordWrite w.value).doors →
      p.port.vehicleWord = (q.vehicleWordWrite w.value).port.vehicleWord → 
      Part.Within (.waking :: .dwell :: .portRest :: lockAreas) s.part p → post p) :
    Completes (.memoryWrite 258 [w]) s post := by
  have writes (q : Part) : Part.Within (.portRest :: lockAreas) q (q.vehicleWordWrite w.value) := by
    unfold Part.vehicleWordWrite
    rw [pickVehicle_code hw]
    dsimp only
    split
    · exact (q.portRest_does _ _ _ w.value).toWithin.trans (Part.vehicleWrite_does _ v).toWithin (by decide) (by decide)
    · exact .refl _ q
  refine completes_word (K := .portRest :: lockAreas) hs (by decide) (·.vehicleWordWrite w.value) (fun _ _ _ => rfl) writes
    fun q hq => done q _ hq.toWithin rfl rfl ?_
  exact (hq.toWithin.trans (writes q) (M := .waking :: .dwell :: .portRest :: lockAreas) (by decide) (by decide)).trans
    (Part.portRest_does _ _ _ _ _).toWithin (by decide) (by decide)

/-- Settles O36: each input and each word is a lock action on all doors, or a change of the controller's own fields. -/
theorem rockerIgnitionAndVehicleStateActOnTheDoors : Obligations.RockerIgnitionAndVehicleStateActOnTheDoors := by
  unfold Obligations.RockerIgnitionAndVehicleStateActOnTheDoors
  intro s
  refine ⟨fun ready rest clear => ?_, fun ready => ?_, fun ready => ?_, fun ready => ?_, fun ready => ?_, fun w v served hw =>
    ⟨fun service => ?_, fun service => ?_⟩⟩
  · have took : (s.part.heard .rocker .l1).deliver .rocker (s.part.input .rocker).level .l1 =
        (s.part.heard .rocker .l1).lockAction .rocker .lock allDoors := by
      rw [rest]
      rfl
    refine completes_locking (l := .l1) rfl ready (fun _ _ => nofun) rfl (took ▸ (Part.lockAction_does ..).toWithin) fun q doors within => ?_
    have open_ : (s.part.heard .rocker .l1).lockRefused .lock = false := by
      simp only [Part.lockRefused, Bool.and_eq_false_iff]
      exact .inl clear
    obtain ⟨locks, x, t, ctrl⟩ := Part.lockAction_locks open_ took doors
    refine ⟨by rw [ctrl], by rw [ctrl]; rfl, within.elsewhere, within.latches (by decide), fun d => ?_⟩
    obtain ⟨unlocked, others⟩ := lockAfter_lock (s.part.door d)
    refine (congrArg DoorRec.lock (locks d)).trans ?_
    split
    · exact unlocked ‹_›
    · exact others ‹_›
  · have took : (s.part.heard .rocker .l2).deliver .rocker (s.part.input .rocker).level .l2 =
        (s.part.heard .rocker .l2).lockAction .rocker .unlock allDoors := rfl
    refine completes_locking (l := .l2) rfl ready (fun _ _ => nofun) rfl (took ▸ (Part.lockAction_does ..).toWithin) fun q doors within => ?_
    obtain ⟨locks, x, t, ctrl⟩ := Part.lockAction_locks (by simp [Part.lockRefused]) took doors
    refine ⟨by rw [ctrl], within.elsewhere, within.latches (by decide), fun d => ?_⟩
    exact (congrArg DoorRec.lock (locks d)).trans (lockAfter_unlock ((s.part.heard .rocker .l2).door d))
  · refine (completes_run (f := (·.debounced .rocker .rest)) rfl).2 ?_
    have took : (s.part.heard .rocker .rest).deliver .rocker (s.part.input .rocker).level .rest = s.part.heard .rocker .rest := rfl
    rw [Part.debounced_calm ready (fun _ e => by cases e) rfl (K := []) (took ▸ .refl _ _)]
    have final := Part.heard_activity (M := [.inputs, .dwell]) (Part.Within.refl [] (s.part.heard .rocker .rest))
    exact ⟨final.doors (by decide), final.latches (by decide), final.elsewhere⟩
  · have took : (s.part.heard .ign .l1).deliver .ign (s.part.input .ign).level .l1 = (s.part.heard .ign .l1).ignEvent true := rfl
    refine completes_locking (l := .l1) rfl ready (fun _ _ => nofun) rfl (took ▸ (Part.ignEvent_does ..).toWithin) fun q doors _ => ?_
    have out : (s.part.heard .ign .l1).inSafeHold = false := Part.inSafeHold_service ready.1
    rw [doors, took, Part.ignEvent, if_neg (by rw [out]; decide)]
    rfl
  · have took : (s.part.heard .ign .rest).deliver .ign (s.part.input .ign).level .rest = (s.part.heard .ign .rest).ignEvent false := rfl
    refine completes_locking (l := .rest) rfl ready (fun _ e => by cases e) rfl (took ▸ (Part.ignEvent_does ..).toWithin) fun q doors _ => ?_
    have out : (s.part.heard .ign .rest).inSafeHold = false := Part.inSafeHold_service ready.1
    let r := (s.part.heard .ign .rest).setDoors { s.part.doors with ign := false, driveAway := false }
    have falls : (s.part.heard .ign .rest).ignEvent false =
        if s.part.cfg.unlockAtIgnitionOff then r.lockAction .ignitionOff .unlock allDoors else r := by
      rw [Part.ignEvent, if_neg (by rw [out]; decide)]
      rfl
    rw [took, falls] at doors
    by_cases unlocks : s.part.cfg.unlockAtIgnitionOff = true
    · rw [if_pos unlocks] at doors
      obtain ⟨locks, x, t, ctrl⟩ := Part.lockAction_locks (p := r) (by simp [Part.lockRefused]) rfl doors
      exact ⟨by rw [ctrl]; rfl, by rw [ctrl]; rfl, fun _ d => (congrArg DoorRec.lock (locks d)).trans (lockAfter_unlock (r.door d)),
        fun off => by rw [unlocks] at off; cases off⟩
    · rw [if_neg unlocks] at doors
      exact ⟨by rw [doors]; rfl, by rw [doors]; rfl, fun on => absurd on unlocks, fun _ => doors⟩
  · refine completes_vehicle served hw fun q p same doors word within => ?_
    have discards : q.vehicleWordWrite w.value = q := by
      unfold Part.vehicleWordWrite
      rw [pickVehicle_code hw]
      exact if_neg (by rw [Part.doorService, same.state (by decide)]; exact Bool.eq_false_iff.1 service)
    rw [discards] at doors word
    exact ⟨doors.trans (same.doors (by decide)), word.trans (same.vehicleWord (by decide)), within.misuse (by decide)⟩
  · refine completes_vehicle served hw fun q p same doors word within => ?_
    let x : Part := { q with port := { q.port with vehicleWord := w.value } }
    have serves : x.doorService = true := by
      rw [← service, Part.doorService, Part.doorService, ← same.state (by decide)]
    have writes : q.vehicleWordWrite w.value = x.vehicleWrite v := by
      unfold Part.vehicleWordWrite
      rw [pickVehicle_code hw]
      exact if_pos serves
    have rest := (Part.vehicleWrite_does x v).toWithin
    rw [writes] at doors word
    obtain ⟨keeps, drives⟩ := Part.vehicleWrite_doors serves v
    have judges : x.judgesDrive v ↔ s.part.judgesDrive v :=
      Part.judgesDrive_congr (same.doors (by decide)) (same.state (by decide)) (same.cfg (by decide))
    have latch : x.crashSet = s.part.crashSet := same.crashSet
    have was : x.doors = s.part.doors := same.doors (by decide)
    rw [judges, latch, was, ← doors] at keeps
    rw [judges, latch, ← doors] at drives
    refine ⟨word.trans (rest.vehicleWord (by decide)), within.misuse (by decide), ?_, within.latches (by decide),
      within.windows (by decide), fun n => keeps (.inl n), fun _ set => keeps (.inr set), fun judged clear => ?_⟩
    · by_cases h : ¬ s.part.judgesDrive v ∨ s.part.crashSet = true
      · rw [keeps h]
      · rw [not_or, not_not, Bool.not_eq_true] at h
        obtain ⟨moves, clear⟩ := h
        exact (drives moves clear).1
    · obtain ⟨-, driveAway, relock, locks⟩ := drives judged clear
      refine ⟨driveAway, relock, fun d => ?_⟩
      have shut : (s.part.door d).ajar = .isClosed := judged.2.2.2.2.2.1 d
      have own : p.door d = { s.part.door d with lock := lockAfter .lock (s.part.door d) } := by
        rw [Part.door, doors]
        refine (locks d).trans ?_
        rw [Part.door, was]
        rfl
      rw [own]
      obtain ⟨unlocked, others⟩ := lockAfter_lock (s.part.door d)
      rw [if_pos shut] at unlocked
      refine ⟨shut, ?_⟩
      split
      · exact unlocked ‹_›
      · exact others ‹_›

end Sys2Proof.Machine
end

section
/-! The relock timer and the hold trackers (R19, R20, R141). -/

namespace Sys2Proof.Machine

theorem run_unchanged {f : Part → Part} {s : State} (h : f s.part = s.part) : s.run f = .next s :=
  run_next.2 (by rw [h])

/-- An event whose own effect is none. -/
theorem settle_unchanged {f : Part → Part} {p : Part} (h : f p = p) : settle f p = p :=
  (settle_within (K := []) (by rw [h]; exact .refl _ p)).trans h

theorem lockAfter_lock_barred (d : DoorRec) : lockAfter .lock d ≠ .unlocked := by
  obtain ⟨unlocked, others⟩ := lockAfter_lock d
  by_cases h : d.lock = .unlocked
  · rw [unlocked h]
    split <;> nofun
  · rw [others h]
    exact h

/-- A tracker's end: the fob's tracker, then what the end of a session does elsewhere. -/
theorem Part.endTracker_rest (p : Part) (f : Fob) (cause : HoldCause) :
    Part.Within (stopAreas ++ rowAreas) (p.setTracker f .idle) (p.endTracker f cause) := by
  unfold Part.endTracker
  split
  · exact (Part.sessionEnd_does _ f).toWithin.trans (Part.appendRow_does _ _).toWithin (by decide) (by decide)
  all_goals exact .refl _ _

theorem Part.setTracker_fob (p : Part) (f g : Fob) (t : Tracker) :
    (p.setTracker f t).fob g = if g = f then { p.fob f with tracker := t } else p.fob g := Part.setFob_fob ..

/-- Settles O39: a due relock timer is a LOCK of all doors, a due tracker's end leaves the other fobs and the doors. -/
theorem relockAndHoldTimersActWhenDue : Obligations.RelockAndHoldTimersActWhenDue := by
  unfold Obligations.RelockAndHoldTimersActWhenDue
  refine ⟨fun s service out => ⟨fun isDue clear => ?_, fun early => ?_⟩, fun s f l last => ⟨fun isDue live => ?_, fun early => ?_⟩⟩
  · refine (completes_run (f := settle (·.relockExpiry)) rfl).2 ?_
    rw [settle_within (Part.relockExpiry_does s.part).toWithin]
    have within := (Part.relockExpiry_does s.part).toWithin
    let x := s.part.setDoors { s.part.doors with relock := none }
    have took : s.part.relockExpiry = x.lockAction .relock .lock allDoors :=
      if_pos (by rw [isDue, service, out]; rfl)
    have open_ : x.lockRefused .lock = false := (Bool.and_true _).trans clear
    obtain ⟨locks, y, t, ctrl⟩ := Part.lockAction_locks (q := s.part.relockExpiry) open_ took rfl
    refine ⟨by rw [ctrl], within.elsewhere, within.latches (by decide), fun d => ?_⟩
    have own : s.part.relockExpiry.door d = { s.part.door d with lock := lockAfter .lock (s.part.door d) } := locks d
    obtain ⟨unlocked, others⟩ := lockAfter_lock (s.part.door d)
    rw [own]
    exact ⟨rfl, lockAfter_lock_barred _, others, fun shut bare => (unlocked bare).trans (if_pos shut)⟩
  · refine run_unchanged (settle_unchanged ?_)
    exact if_neg (by rw [early]; exact Bool.false_ne_true)
  · refine (completes_run (f := settle (·.holdExpiry f)) rfl).2 ?_
    have took : s.part.holdExpiry f = s.part.endTracker f .released :=
      if_pos (by simp [FobRec.holdDue, last, isDue, live])
    have grants := (settle_granting (·.holdExpiry f) s.part).within
    rw [took] at grants
    have rest := (Part.endTracker_rest s.part f .released).trans grants (M := stopAreas ++ rowAreas ++ grantAreas)
      (by decide) (by decide)
    have fob (g : Fob) := rest.fobs (by decide) g
    refine ⟨?_, ?_, rest.doors (by decide), fun g hg => ?_⟩
    · obtain ⟨-, -, -, -, -, tracker, -⟩ := fob f
      rw [tracker, Part.setTracker_fob, if_pos rfl]
    · obtain ⟨keep, -⟩ := fob f
      rw [keep, Part.setTracker_fob, if_pos rfl]
    · have same := fob g
      rw [Part.setTracker_fob, if_neg hg] at same
      exact same
  · refine run_unchanged (settle_unchanged ?_)
    exact if_neg (by simp [FobRec.holdDue, last, early])

end Sys2Proof.Machine
end

section
/-! Grants from the head of the waiting list and wait limits (R100, R101, R61, R62). -/

namespace Sys2Proof.Machine

set_option Elab.async false in -- the declarations above are finished first: this bounds the memory of the one text
theorem Part.grantFromHead_one {p : Part} {w : Waiter} (waits : p.waiting = [w]) (room : w.units ≤ p.unitsFree) :
    p.grantFromHead = (p.setLists (p.holders ++ [w.held p.clock]) []).tellGrant w.actuator := by
  simp only [Part.grantFromHead, waits, List.length_cons, List.length_nil, grantHeads, if_pos room]

theorem Part.grantFromHead_none {p : Part} (h : p.waiting = []) : p.grantFromHead = p := by
  simp only [Part.grantFromHead, h, List.length_nil, grantHeads]

theorem Part.grantFromHead_full {p : Part} {w : Waiter} {rest : List Waiter} (waits : p.waiting = w :: rest)
    (full : p.unitsFree < w.units) : p.grantFromHead = p := by
  simp only [Part.grantFromHead, waits, List.length_cons, grantHeads, if_neg (show ¬ w.units ≤ p.unitsFree by omega)]

/-! ### The Sequencer's entry -/

theorem Part.reportGrant_entry {p : Part} {c : Corner} {o : Operation} (ho : p.operation = some o) (runs : o.ended = none)
    (waits : (o.entries.get c).state = .waiting) :
    (p.reportGrant c).operation = some { o with entries := o.entries.set c { o.entries.get c with state := .moving } } := by
  have live : p.liveEntry c = some (o.entries.get c) := by
    simp [Part.liveEntry, ho, Operation.running, runs, waits, EntryState.live]
  simp only [Part.reportGrant, live, Part.setEntry, ho]
  rfl

/-- The operation as a window is told its grant. -/
theorem Part.windowGranted_operation {p : Part} {c : Corner} {x : Pending} (h : (p.window c).pending = some x) :
    (x.cmd.mover ≠ .sequencer → (p.windowGranted c).operation = p.operation) ∧
      ∀ o, x.cmd.mover = .sequencer → p.operation = some o → o.ended = none → (o.entries.get c).state = .waiting →
        (p.windowGranted c).operation =
          some { o with entries := o.entries.set c { o.entries.get c with state := .moving } } := by
  let q := (p.setMonitor c { p.monitor c with learn := (p.monitor c).learn.map fun l => { l with phase := .down, count := 0 } }).startMove
    c x.cmd
  have started : p.windowGranted c = if x.cmd.mover = .sequencer then q.reportGrant c else q := by
    simp only [Part.windowGranted, h]
    rfl
  have same : q.operation = p.operation := ((Part.setMonitor_acts p c _).toWithin.trans (Part.startMove_within _ c x.cmd)
    (M := startAreas) (by decide) (by decide)).operation (by decide)
  refine ⟨fun n => ?_, fun o m ho runs waits => ?_⟩
  · rw [started, if_neg n, same]
  · rw [started, if_pos m]
    exact Part.reportGrant_entry (same.trans ho) runs waits

/-! ### Wait limits -/

theorem Part.waitExpiry_due {p : Part} {w : Waiter} (waits : p.waiting = [w]) (isDue : w.limit ≤ p.clock) :
    (∀ c, w.actuator = .window c → p.waitExpiry w.actuator = (p.setLists p.holders []).pendingTimeout c) ∧
      ∀ d, w.actuator = .latch d → p.waitExpiry w.actuator = (p.setLists p.holders []).endRelease d .budgetTimeout := by
  have dropped : p.dropWaiter w.actuator = p.setLists p.holders [] := by
    simp [Part.dropWaiter, waits]
  have limit : (p.waiting.any fun x => decide (x.actuator = w.actuator ∧ x.limit ≤ p.clock)) = true := by simp [waits, isDue]
  refine ⟨fun c own => ?_, fun d own => ?_⟩
  all_goals
    rw [own] at limit dropped ⊢
    rw [← dropped]
    exact if_pos limit

/-- A pending command's end by its wait limit: the command is gone, the window goes on as it was. -/
theorem Part.pendingTimeout_window (p : Part) (c : Corner) :
    ((p.pendingTimeout c).window c).pending = none ∧ ((p.pendingTimeout c).window c).motion = (p.window c).motion ∧
      Part.Within tellAreas p (p.pendingTimeout c) := by
  unfold Part.pendingTimeout
  split
  · exact ⟨‹_›, rfl, .refl _ p⟩
  · have cleared := Part.setWindow_within p c { p.window c with pending := none }
    have own : (p.setWindow c { p.window c with pending := none }).window c = { p.window c with pending := none } :=
      (Part.setWindow_window ..).trans (if_pos rfl)
    generalize p.setWindow c { p.window c with pending := none } = q at cleared own
    have row (r : Row) : ((q.appendRow r).window c).pending = none ∧ ((q.appendRow r).window c).motion = (p.window c).motion ∧
        Part.Within tellAreas p (q.appendRow r) := by
      rw [(q.appendRow_does r).toWithin.window c (by decide), own]
      exact ⟨rfl, rfl, cleared.trans (q.appendRow_does r).toWithin (by decide) (by decide)⟩
    have told (m : Option Mover) : ((q.tellMover c m .budgetTimeout .budgetTimeout none true).window c).pending = none ∧
        ((q.tellMover c m .budgetTimeout .budgetTimeout none true).window c).motion = (p.window c).motion ∧
        Part.Within tellAreas p (q.tellMover c m .budgetTimeout .budgetTimeout none true) := by
      obtain ⟨same, -⟩ := q.tellMover_window c c m .budgetTimeout .budgetTimeout none true
      rw [same, own]
      exact ⟨rfl, rfl, cleared.trans (q.tellMover_does c m _ _ _ _).toWithin (by decide) (by decide)⟩
    split
    · exact row _
    · exact row _
    · exact told _
    · exact told _

end Sys2Proof.Machine
end

section
/-! The timers of a release and of a wait (R36 to R40, R100 to R104). -/

namespace Sys2Proof.Machine

set_option Elab.async false in -- the declarations above are finished first: this bounds the memory of the one text
theorem Part.pulseExpiry_due {p : Part} {d : Door} {op : ReleaseOp} (h : p.latch d = some op) (hs : op.state = .pulsing)
    (isDue : due op.timer p.clock = true) : p.pulseExpiry d = (p.dropHolder (.latch d)).setLatch d
      (some { op with state := .confirming, timer := some (p.clock + p.cfg.confirmWindow) }) := by
  rw [Part.pulseExpiry, h]
  exact if_pos ⟨hs, isDue⟩

/-- An operation with its first attempt over, as it asks for the second. -/
def ReleaseOp.again (op : ReleaseOp) : ReleaseOp := { op with state := .retry, second := true, timer := none }

theorem Part.confirmExpiry_due {p : Part} {d : Door} {op : ReleaseOp} (h : p.latch d = some op) (hs : op.state = .confirming)
    (isDue : due op.timer p.clock = true) : p.confirmExpiry d = if op.second then p.endRelease d .held else
      match op.prec with
      | .escape => (p.setLatch d (some op.again)).grantEscape d
      | .release => (p.setLatch d (some op.again)).request (.latch d) .release := by
  rw [Part.confirmExpiry, h]
  exact if_pos ⟨hs, isDue⟩

/-! ### Escapes -/

/-- What an escape's grant adds: its holder and the pulse. -/
theorem Part.escapeHolder_adds (p : Part) (d : Door) (k : GrantKind) (w : Option Corner) :
    (p.escapeHolder d k w).holders = p.holders ++ [⟨.latch d, 1, .escape, p.clock, k⟩] ∧
      (p.escapeHolder d k w).waiting = p.waiting ∧
      (∀ x, (p.escapeHolder d k w).latch x = if x = d then (p.latch d).map (·.pulses p.clock p.cfg.latchPulse) else p.latch x) ∧
      Part.Within (.holders :: .waiting :: .latches :: rowAreas) p (p.escapeHolder d k w) := by
  obtain ⟨-, latch, waiting, -⟩ := p.escapeHolder_escapes d k w
  have lists := Part.setLists_within p (p.holders ++ [⟨.latch d, 1, .escape, p.clock, k⟩]) p.waiting
  have pulse := ((p.setLists (p.holders ++ [⟨.latch d, 1, .escape, p.clock, k⟩]) p.waiting).startPulse_does d).toWithin
  refine ⟨?_, waiting, latch, ?_⟩
  · exact ((Part.appendRow_does _ _).toWithin.holders (by decide)).trans (pulse.holders (by decide))
  · exact (lists.trans pulse (M := .holders :: .waiting :: .latches :: rowAreas) (by decide) (by decide)).trans
      (Part.appendRow_does _ _).toWithin (by decide) (by decide)

/-- The window of a holder, where an escape can preempt it (R104). -/
def Part.preempts (p : Part) (h : Holder) : Option Corner :=
  match h.actuator with
  | .window c => if (p.window c).motion = .reversing then none else some c
  | .latch _ => none

theorem Part.preemptable_eq (p : Part) : p.preemptable = p.holders.reverse.findSome? p.preempts := rfl

theorem Part.preempts_window {p : Part} {h : Holder} {c : Corner} (own : h.actuator = .window c) :
    p.preempts h = if (p.window c).motion = .reversing then none else some c := by rw [Part.preempts, own]

theorem Part.preempts_none {p : Part} {h : Holder}
    (all : ∀ c, h.actuator = .window c → (p.window c).motion = .reversing) : p.preempts h = none := by
  cases own : h.actuator with
  | latch d => rw [Part.preempts, own]
  | window c => rw [Part.preempts_window own, if_pos (all c own)]

/-- The window that an escape preempts: the newest WINDOW holder's whose window is not REVERSING (R104). -/
theorem Part.preemptable_newest {p : Part} {before after : List Holder} {h : Holder} {c : Corner}
    (split : p.holders = before ++ h :: after) (own : h.actuator = .window c) (drives : (p.window c).motion ≠ .reversing)
    (newer : ∀ x ∈ after, ∀ y, x.actuator = .window y → (p.window y).motion = .reversing) : p.preemptable = some c := by
  have skipped : after.reverse.findSome? p.preempts = none :=
    List.findSome?_eq_none_iff.2 fun x hx => Part.preempts_none (newer x (List.mem_reverse.1 hx))
  rw [Part.preemptable_eq, split, List.reverse_append, List.reverse_cons, List.append_assoc, List.findSome?_append, skipped]
  simp [Part.preempts_window own, drives]

theorem Part.preemptable_none {p : Part}
    (all : ∀ h ∈ p.holders, ∀ c, h.actuator = .window c → (p.window c).motion = .reversing) : p.preemptable = none := by
  rw [Part.preemptable_eq]
  exact List.findSome?_eq_none_iff.2 fun x hx => Part.preempts_none (all x (List.mem_reverse.1 hx))

/-- The escapes of R104: by a free unit, by a window that stops PREEMPTED, over the budget. -/
theorem Part.grantEscape_free {p : Part} (room : 1 ≤ p.unitsFree) (d : Door) : p.grantEscape d = p.escapeHolder d .freeUnit none :=
  if_pos room

theorem Part.grantEscape_preempts {p : Part} {c : Corner} (full : p.unitsFree = 0) (h : p.preemptable = some c) (d : Door) :
    p.grantEscape d = (p.stopAndTell c .preempted true).escapeHolder d .preempted (some c) := by
  rw [Part.grantEscape, if_neg (by omega), h]

theorem Part.grantEscape_over {p : Part} (full : p.unitsFree = 0) (h : p.preemptable = none) (d : Door) :
    p.grantEscape d = p.escapeHolder d .overBudget none := by
  rw [Part.grantEscape, if_neg (by omega), h]

theorem Part.stopAndTell_holders (p : Part) (c : Corner) (r : StopReason) (judge : Bool) :
    (p.stopAndTell c r judge).holders = p.holders.filter fun h => decide (h.actuator ≠ .window c) := by
  simp only [Part.stopAndTell, Part.tellStop_holders, Part.stopWindow, Part.markDirty_fields, Part.dropHolder, Part.setLists_fields,
    (p.halt_acts _ _).holders (by decide)]

end Sys2Proof.Machine
end

section
/-! The grants and timers of releases and waits (R36 to R40, R61, R62, R100 to R104). -/

namespace Sys2Proof.Machine

/-! ### Grants -/

set_option Elab.async false in -- the declarations above are finished first: this bounds the memory of the one text
/-- A waiting latch that fits pulses. -/
theorem completes_latchGrant {s : State} {w : Waiter} {d : Door} (waits : s.part.waiting = [w]) (own : w.actuator = .latch d)
    (room : w.units ≤ s.part.unitsFree) {post : Part → Prop}
    (done : ∀ p : Part, p.holders = s.part.holders ++ [⟨.latch d, w.units, w.prec, s.part.clock, .withinBudget⟩] → p.waiting = [] →
      p.latch d = (s.part.latch d).map (·.pulses s.part.clock s.part.cfg.latchPulse) →
      Part.Within [.holders, .waiting, .latches] s.part p → post p) : Completes .grantFromHead s post := by
  refine (completes_run (f := Part.grantFromHead) rfl).2 ?_
  rw [Part.grantFromHead_one waits room, own]
  have lists := Part.setLists_within s.part (s.part.holders ++ [w.held s.part.clock]) []
  have pulse := ((s.part.setLists (s.part.holders ++ [w.held s.part.clock]) []).startPulse_does d).toWithin
  have latch := (s.part.setLists (s.part.holders ++ [w.held s.part.clock]) []).startPulse_latch d d
  refine done _ ((pulse.holders (by decide)).trans ?_) (pulse.waiting (by decide)) (latch.trans (if_pos rfl))
    (lists.trans pulse (by decide) (by decide))
  show s.part.holders ++ [w.held s.part.clock] = _
  rw [Waiter.held, own]

/-- A waiting window that fits starts its pending command. -/
theorem completes_windowGrant {s : State} {w : Waiter} {c : Corner} {x : Pending} (waits : s.part.waiting = [w])
    (own : w.actuator = .window c) (room : w.units ≤ s.part.unitsFree) (pends : (s.part.window c).pending = some x)
    {post : Part → Prop}
    (done : ∀ p : Part, p.holders = s.part.holders ++ [⟨.window c, w.units, w.prec, s.part.clock, .withinBudget⟩] → p.waiting = [] →
      (∀ y, p.window y = if y = c then (s.part.window c).started x.cmd s.part.clock s.part.cfg.rampTime else s.part.window y) →
      p.monitor c = (s.part.monitor c).granted x.cmd s.part.clock →
      (x.cmd.mover ≠ .sequencer → p.operation = s.part.operation) →
      (∀ o, x.cmd.mover = .sequencer → s.part.operation = some o → o.ended = none → (o.entries.get c).state = .waiting →
        p.operation = some { o with entries := o.entries.set c { o.entries.get c with state := .moving } }) →
      Part.Within windowGrantAreas s.part p → post p) : Completes .grantFromHead s post := by
  refine (completes_run (f := Part.grantFromHead) rfl).2 ?_
  rw [Part.grantFromHead_one waits room, own]
  let q := s.part.setLists (s.part.holders ++ [w.held s.part.clock]) []
  have lists := Part.setLists_within s.part (s.part.holders ++ [w.held s.part.clock]) []
  obtain ⟨windows, -, -, within⟩ := Part.windowGranted_starts (p := q) (cmd := x.cmd) (t := x.since) pends
  obtain ⟨others, moves⟩ := Part.windowGranted_operation (p := q) pends
  refine done _ ((within.holders (by decide)).trans ?_) (within.waiting (by decide)) windows (Part.windowGranted_monitor (p := q) pends)
    others moves (lists.trans within (by decide) (by decide))
  show s.part.holders ++ [w.held s.part.clock] = _
  rw [Waiter.held, own]

/-! ### Wait limits -/

/-- The wait limit of the only entry, which leaves nothing waiting. -/
theorem completes_waitLimit {s : State} {w : Waiter} {q : Part} (e : s.part.waitExpiry w.actuator = q) (none : q.waiting = [])
    {post : Part → Prop} (h : post q) : Completes (.waitLimitExpiry w.actuator) s post := by
  refine (completes_run (f := settle (·.waitExpiry w.actuator)) rfl).2 ?_
  rw [settle_noneWaits (f := (·.waitExpiry w.actuator)) (by rw [e]; exact none), e]
  exact h

theorem completes_windowTimeout {s : State} {w : Waiter} {c : Corner} (waits : s.part.waiting = [w]) (isDue : w.limit ≤ s.part.clock)
    (own : w.actuator = .window c) : Completes (.waitLimitExpiry w.actuator) s fun p =>
      p.waiting = [] ∧ p.holders = s.part.holders ∧ (p.window c).pending = none ∧
      (p.window c).motion = (s.part.window c).motion := by
  obtain ⟨pending, motion, within⟩ := (s.part.setLists s.part.holders []).pendingTimeout_window c
  obtain ⟨e, -⟩ := Part.waitExpiry_due waits isDue
  exact completes_waitLimit (e c own) (within.waiting (by decide))
    ⟨within.waiting (by decide), within.holders (by decide), pending, motion⟩

theorem Part.endRelease_door {p : Part} {d : Door} {op : ReleaseOp} (h : p.latch d = some op) (o : ReleaseOutcome) :
    (p.endRelease d o).door d = (p.door d).withOutcome o := by
  obtain ⟨doors, -⟩ := Part.endRelease_ends h o
  rw [Part.door, doors]
  exact (PerDoor.get_set ..).trans (if_pos rfl)

theorem completes_releaseTimeout {s : State} {w : Waiter} {d : Door} {op : ReleaseOp} (waits : s.part.waiting = [w])
    (isDue : w.limit ≤ s.part.clock) (own : w.actuator = .latch d) (flies : s.part.latch d = some op) :
    Completes (.waitLimitExpiry w.actuator) s fun p =>
      p.waiting = [] ∧ p.holders = s.part.holders ∧ p.latch d = none ∧
      (p.door d).outcome = some .budgetTimeout ∧ (p.door d).lock = (s.part.door d).lock := by
  have ended := ((s.part.setLists s.part.holders []).endRelease_does d .budgetTimeout).toWithin
  have door := Part.endRelease_door (p := s.part.setLists s.part.holders []) flies .budgetTimeout
  obtain ⟨-, e⟩ := Part.waitExpiry_due waits isDue
  exact completes_waitLimit (e d own) (ended.waiting (by decide)) ⟨ended.waiting (by decide), ended.holders (by decide),
    (Part.endRelease_latch ..).trans (if_pos rfl), by rw [door]; rfl, by rw [door]; rfl⟩

/-! ### The pulse and the confirm window -/

/-- A pulse's end returns its unit. -/
theorem completes_pulseEnd {s : State} {d : Door} {op : ReleaseOp} (flies : s.part.latch d = some op) (none : s.part.waiting = [])
    (isDue : due op.timer s.part.clock = true) (pulsing : op.state = .pulsing) : Completes (.latchPulseExpiry d) s fun p =>
      p.latch d = some { op with state := .confirming, timer := some (s.part.clock + s.part.cfg.confirmWindow) } ∧
      (∀ h, h ∈ p.holders ↔ h ∈ s.part.holders ∧ h.actuator ≠ .latch d) ∧ p.doors = s.part.doors := by
  refine (completes_run (f := settle (·.pulseExpiry d)) rfl).2 ?_
  have e := Part.pulseExpiry_due flies pulsing isDue
  have waits : ((s.part.dropHolder (.latch d)).setLatch d
      (some { op with state := .confirming, timer := some (s.part.clock + s.part.cfg.confirmWindow) })).waiting = [] := none
  rw [settle_noneWaits (f := (·.pulseExpiry d)) (by rw [e]; exact waits), e]
  refine ⟨(Part.setLatch_latch ..).trans (if_pos rfl), fun h => ?_, rfl⟩
  show h ∈ s.part.holders.filter _ ↔ _
  simp

/-- The confirm window of attempt 2 ends the release HELD. -/
theorem completes_held {s : State} {d : Door} {op : ReleaseOp} (flies : s.part.latch d = some op)
    (isDue : due op.timer s.part.clock = true) (confirming : op.state = .confirming) (second : op.second = true) :
    Completes (.confirmExpiry d) s fun p => p.latch d = none ∧ (p.door d).outcome = some .held ∧
      (p.door d).fault = (if (s.part.door d).fault = .sound then .held else (s.part.door d).fault) ∧
      p.holders = s.part.holders := by
  refine (completes_run (f := settle (·.confirmExpiry d)) rfl).2 ?_
  have e : s.part.confirmExpiry d = s.part.endRelease d .held := (Part.confirmExpiry_due flies confirming isDue).trans (if_pos second)
  have ended := (s.part.endRelease_does d .held).toWithin
  have door := Part.endRelease_door flies .held
  rw [settle_within (f := (·.confirmExpiry d)) (e ▸ ended), e]
  exact ⟨(Part.endRelease_latch ..).trans (if_pos rfl), by rw [door]; rfl,
    (congrArg DoorRec.fault door).trans (DoorRec.withOutcome_held _), ended.holders (by decide)⟩

/-- The confirm window of attempt 1 of a RELEASE operation with a unit free pulses again. -/
theorem completes_retry {s : State} {d : Door} {op : ReleaseOp} (flies : s.part.latch d = some op) (none : s.part.waiting = [])
    (isDue : due op.timer s.part.clock = true) (confirming : op.state = .confirming) (first : op.second = false)
    (prec : op.prec = .release) (room : 1 ≤ s.part.unitsFree) : Completes (.confirmExpiry d) s fun p =>
      p.latch d = some (op.again.pulses s.part.clock s.part.cfg.latchPulse) ∧
      p.holders = s.part.holders ++ [⟨.latch d, 1, .release, s.part.clock, .withinBudget⟩] ∧ p.doors = s.part.doors := by
  refine (completes_run (f := settle (·.confirmExpiry d)) rfl).2 ?_
  let r := (s.part.setLatch d (some op.again)).request (.latch d) .release
  have e : s.part.confirmExpiry d = r := by
    refine (Part.confirmExpiry_due flies confirming isDue).trans ?_
    rw [if_neg (by rw [first]; decide), prec]
  have waits : r.waiting = [⟨.latch d, 1, .release, s.part.clock, s.part.clock + waitLimit .release⟩] := by
    simp [r, Part.request, none, placeWaiter, actuatorUnits]
  rw [settle_grantsOne (f := (·.confirmExpiry d)) none (by rw [e]; exact waits) (by rw [e]; exact room), e]
  let g := r.setLists (r.holders ++ [⟨.latch d, 1, .release, s.part.clock, .withinBudget⟩]) []
  have pulse := (g.startPulse_does d).toWithin
  have own : g.latch d = some op.again := (Part.setLatch_latch ..).trans (if_pos rfl)
  refine ⟨((g.startPulse_latch d d).trans (if_pos rfl)).trans ?_, pulse.holders (by decide), pulse.doors (by decide)⟩
  rw [own]
  rfl

/-- The confirm window of attempt 1 of an ESCAPE operation: granted in the event, it pulses again. -/
theorem completes_escapes {s : State} {d : Door} {op : ReleaseOp} (flies : s.part.latch d = some op) (none : s.part.waiting = [])
    (isDue : due op.timer s.part.clock = true) (confirming : op.state = .confirming) (first : op.second = false)
    (prec : op.prec = .escape) {post : Part → Prop}
    (done : let q := (s.part.setLatch d (some op.again)).grantEscape d
      q.latch d = some (op.again.pulses s.part.clock s.part.cfg.latchPulse) → (∀ y, y ≠ d → q.latch y = s.part.latch y) →
        q.doors = s.part.doors → post q) : Completes (.confirmExpiry d) s post := by
  refine (completes_run (f := settle (·.confirmExpiry d)) rfl).2 ?_
  have e : s.part.confirmExpiry d = (s.part.setLatch d (some op.again)).grantEscape d := by
    refine (Part.confirmExpiry_due flies confirming isDue).trans ?_
    rw [if_neg (by rw [first]; decide), prec]
  obtain ⟨within, latch, waiting, -⟩ := (s.part.setLatch d (some op.again)).grantEscape_escapes d
  rw [settle_noneWaits (f := (·.confirmExpiry d)) (by rw [e]; exact waiting.trans none), e]
  refine done ?_ (fun y hy => ?_) (within.doors (by decide))
  · rw [latch d, if_pos rfl, Part.setLatch_latch, if_pos rfl]
    rfl
  · rw [latch y, if_neg hy, Part.setLatch_latch, if_neg hy]

end Sys2Proof.Machine
end

section
/-! The timers of releases and waits, and the escapes a second attempt makes (R36 to R40, R100 to R104). -/

namespace Sys2Proof.Machine

set_option Elab.async false in -- the declarations above are finished first: this bounds the memory of the one text
/-- An escape by preemption: the preempted window stops, and only it; its holder goes. -/
theorem Part.grantEscape_preempted {p : Part} {c : Corner} (full : p.unitsFree = 0) (newest : p.preemptable = some c) (d : Door) :
    let q := p.grantEscape d
    (∀ x, x ∈ q.holders ↔ (x ∈ p.holders ∧ x.actuator ≠ .window c) ∨ x = ⟨.latch d, 1, .escape, p.clock, .preempted⟩) ∧
      (q.window c).motion = .stopped ∧ (q.window c).lastStop = some .preempted ∧ (q.window c).movingFlag = false ∧
      ∀ y, y ≠ c → q.window y = p.window y := by
  obtain ⟨holders, -, -, within⟩ := (p.stopAndTell c .preempted true).escapeHolder_adds d .preempted (some c)
  have window (y : Corner) := within.window y (by decide)
  obtain ⟨stopped, -⟩ := p.stopAndTell_window c c .preempted true
  have others (y : Corner) := (p.stopAndTell_window c y .preempted true).2
  have clock := (p.stopAndTell_does c .preempted true).toWithin.clock
  rw [if_pos rfl] at stopped
  dsimp only
  rw [Part.grantEscape_preempts full newest, holders, window, stopped, Part.stopAndTell_holders, clock]
  refine ⟨fun x => ?_, rfl, rfl, rfl, fun y hy => (window y).trans (others y hy)⟩
  simp [List.mem_append, List.mem_filter]

/-- Settles O40: a grant, a limit or a timer each acts on the one actuator it names, and nothing waits after it. -/
theorem releasesAndWaitsFollowTheirTimers : Obligations.ReleasesAndWaitsFollowTheirTimers := by
  unfold Obligations.ReleasesAndWaitsFollowTheirTimers
  refine ⟨fun s => ⟨fun w d waits own room => ?_, fun w c x waits own room pends => ?_,
    fun none => run_unchanged (Part.grantFromHead_none none),
    fun w rest waits full => run_unchanged (Part.grantFromHead_full waits full),
    fun w c waits isDue own => completes_windowTimeout waits isDue own,
    fun w d op waits isDue own flies => completes_releaseTimeout waits isDue own flies⟩,
    fun s d op flies none isDue => ⟨fun pulsing => completes_pulseEnd flies none isDue pulsing,
      fun confirming second => completes_held flies isDue confirming second,
      fun confirming first prec room => completes_retry flies none isDue confirming first prec room,
      fun confirming first prec => ⟨fun room => ?_, fun before h after c full split own drives newer => ?_, fun full all => ?_⟩⟩⟩
  · exact completes_latchGrant waits own room fun p holders left latch within =>
      ⟨holders, left, latch, within.windows (by decide), within.doors (by decide)⟩
  · refine completes_windowGrant waits own room pends fun p holders left windows monitor others moves within => ?_
    obtain ⟨fields, takes, keeps⟩ := (s.part.monitor c).granted_fields x.cmd s.part.clock
    rw [← monitor] at fields takes keeps
    refine ⟨holders, left, (windows c).trans (if_pos rfl), fields, takes, keeps, others, fun o m ho runs waiting =>
      ⟨_, moves o m ho runs waiting, runs, ?_, fun y hy => ?_⟩, fun y hy => (windows y).trans (if_neg hy), within.heads (by decide),
      within.outsideWindows⟩
    · exact (PerCorner.get_set ..).trans (if_pos rfl)
    · exact (PerCorner.get_set ..).trans (if_neg hy)
  · refine completes_escapes flies none isDue confirming first prec fun latch latches doors => ⟨⟨latch, latches, doors⟩, ?_⟩
    rw [Part.grantEscape_free (p := s.part.setLatch d (some op.again)) room]
    obtain ⟨holders, -, -, within⟩ := (s.part.setLatch d (some op.again)).escapeHolder_adds d .freeUnit .none
    exact ⟨holders, within.windows (by decide)⟩
  · exact completes_escapes flies none isDue confirming first prec fun latch latches doors => ⟨⟨latch, latches, doors⟩,
      Part.grantEscape_preempted (p := s.part.setLatch d (some op.again)) full
        (Part.preemptable_newest split own drives newer) d⟩
  · refine completes_escapes flies none isDue confirming first prec fun latch latches doors => ⟨⟨latch, latches, doors⟩, ?_⟩
    rw [Part.grantEscape_over (p := s.part.setLatch d (some op.again)) full (Part.preemptable_none all)]
    obtain ⟨holders, -, -, within⟩ := (s.part.setLatch d (some op.again)).escapeHolder_adds d .overBudget .none
    exact ⟨holders, within.windows (by decide)⟩

end Sys2Proof.Machine
end

section
/-! The timers of a window and its heat (R50, R66 to R68, R76, R83). -/

namespace Sys2Proof.Machine

set_option Elab.async false in -- the declarations above are finished first: this bounds the memory of the one text
theorem due_some {t now : Nat} (h : t ≤ now) : due (some t) now = true := decide_eq_true h

theorem run_becomes {f : Part → Part} {s : State} {q : Part} (h : f s.part = q) : s.run f = .next { s with part := q } :=
  run_next.2 (by rw [h])

theorem Part.coastEnd_due {p : Part} {c : Corner} {k : Coast} (h : (p.window c).coast = some k) (isDue : k.ends ≤ p.clock) :
    p.coastEnd c = p.setWindow c { p.window c with coast := none } :=
  if_pos (by rw [h]; exact due_some isDue)

theorem Part.softStartEnd_due {p : Part} {c : Corner} {r : Ramp} (h : (p.window c).ramp = some r) (isDue : r.finish ≤ p.clock) :
    p.softStartEnd c = (p.setWindow c { p.window c with ramp := none }).setMonitor c { p.monitor c with settled := true } :=
  if_pos (by rw [h]; exact due_some isDue)

theorem Part.forceExpiry_due {p : Part} {c : Corner} {t : Nat} (h : (p.monitor c).forceArmed = some t) (isDue : t ≤ p.clock) :
    p.forceExpiry c = p.setMonitor c { p.monitor c with forceArmed := none } :=
  if_pos (by rw [h]; exact due_some isDue)

/-! ### Heat -/

/-- The thermal block of R68: at the limit and beyond, and once set down to the resume level. -/
def WindowRec.blocked (w : WindowRec) (cfg : Config) : Prop :=
  (w.thermal = false ∧ cfg.heatLimit ≤ w.heat) ∨ (w.thermal = true ∧ cfg.heatResume ≤ w.heat)

/-- What R68's judgement leaves: the block, and nothing else of the window. -/
theorem Part.judgeThermal_blocks (p : Part) (c : Corner) :
    (((p.judgeThermal c).window c).thermal = true ↔ (p.window c).blocked p.cfg) ∧
      (p.judgeThermal c).window c = { p.window c with thermal := ((p.judgeThermal c).window c).thermal } ∧
      (p.judgeThermal c).holders = p.holders := by
  have judged (b : Bool) (r : Row) : ((p.setWindow c { p.window c with thermal := b }).appendRow r).window c =
      { p.window c with thermal := b } ∧ ((p.setWindow c { p.window c with thermal := b }).appendRow r).holders = p.holders := by
    have row := ((p.setWindow c { p.window c with thermal := b }).appendRow_does r).toWithin
    refine ⟨(row.window c (by decide)).trans ((Part.setWindow_window ..).trans (if_pos rfl)), row.holders (by decide)⟩
  unfold Part.judgeThermal WindowRec.blocked
  dsimp only
  split
  · rename_i h
    obtain ⟨hot, clear⟩ := h
    obtain ⟨own, holders⟩ := judged true (thermalSetRow c (p.window c).heat)
    rw [own]
    exact ⟨⟨fun _ => .inl ⟨clear, hot⟩, fun _ => rfl⟩, rfl, holders⟩
  · rename_i cold
    split
    · rename_i h
      obtain ⟨cool, set⟩ := h
      obtain ⟨own, holders⟩ := judged false (thermalClearedRow c (p.window c).heat)
      rw [own]
      exact ⟨⟨nofun, fun k => by rw [set] at k; simp at k; omega⟩, rfl, holders⟩
    · rename_i kept
      refine ⟨⟨fun set => .inr ⟨set, ?_⟩, fun k => ?_⟩, rfl, rfl⟩
      · by_contra low
        exact kept ⟨by omega, set⟩
      · rcases k with ⟨clear, hot⟩ | ⟨set, -⟩
        · exact absurd ⟨hot, clear⟩ cold
        · exact set

/-- A heat count and its judgement. -/
theorem Part.setWindow_judged {p : Part} {c : Corner} {w : WindowRec} (same : w.thermal = (p.window c).thermal)
    (still : w.motion = (p.window c).motion) :
    let q := (p.setWindow c w).judgeThermal c
    (q.window c).heat = w.heat ∧ ((q.window c).thermal = true ↔ ((p.window c).thermal = false ∧ p.cfg.heatLimit ≤ w.heat) ∨
      ((p.window c).thermal = true ∧ p.cfg.heatResume ≤ w.heat)) ∧
    (q.window c).energised = w.energised ∧ (q.window c).idle = w.idle ∧ (q.window c).motion = (p.window c).motion ∧
    q.holders = p.holders := by
  obtain ⟨blocks, window, holders⟩ := (p.setWindow c w).judgeThermal_blocks c
  have own : (p.setWindow c w).window c = w := (Part.setWindow_window ..).trans (if_pos rfl)
  rw [own] at window blocks
  dsimp only
  refine ⟨by rw [window], ?_, by rw [window], by rw [window], by rw [window]; exact still, holders⟩
  rw [blocks, WindowRec.blocked, same]
  rfl

/-- Settles O44: each due timer takes its field's branch; a heat count is judged by `judgeThermal_blocks`. -/
theorem windowTimersChangeTheirOwnField : Obligations.WindowTimersChangeTheirOwnField := by
  unfold Obligations.WindowTimersChangeTheirOwnField
  intro s c
  refine ⟨fun k h isDue => ?_, fun r h isDue => ?_, fun t h isDue => ?_, fun h => ?_, fun h => ?_⟩
  · exact run_becomes (f := (·.coastEnd c)) (Part.coastEnd_due h isDue)
  · exact run_becomes (f := (·.softStartEnd c)) (Part.softStartEnd_due h isDue)
  · exact run_becomes (f := (·.forceExpiry c)) (Part.forceExpiry_due h isDue)
  · refine (completes_run (f := (·.heatRise c)) rfl).2 ?_
    rw [show s.part.heatRise c = _ from if_pos h]
    obtain ⟨heat, thermal, energised, -, motion, holders⟩ := Part.setWindow_judged (p := s.part) (w := { s.part.window c with
      heat := min 2000 ((s.part.window c).heat + 1)
      energised := (s.part.window c).energised - 50 }) rfl rfl
    exact ⟨heat, energised, thermal, motion, holders⟩
  · refine (completes_run (f := (·.heatFall c)) rfl).2 ?_
    rw [show s.part.heatFall c = _ from if_pos h]
    obtain ⟨heat, thermal, -, idle, motion, holders⟩ := Part.setWindow_judged (p := s.part) (w := { s.part.window c with
      heat := (s.part.window c).heat - 1
      idle := (s.part.window c).idle - 500 }) rfl rfl
    exact ⟨heat, idle, thermal, motion, holders⟩

end Sys2Proof.Machine
end

section
/-! A stop of a window that does not learn, and the counting of a pulse (R50, R64, R73, R77). -/

namespace Sys2Proof.Machine

/-! ### What the mover is told, no learn running -/

set_option Elab.async false in -- the declarations above are finished first: this bounds the memory of the one text
/-- Where no learn runs at the window, what its mover is told is a report or an order's end. -/
theorem Part.tellMover_free {p : Part} {c : Corner} (free : (p.monitor c).learn = none) (m : Option Mover) (o : OrderOutcome)
    (e : EntryReason) (stop : Option StopReason) (judge : Bool) :
    Part.Within reportAreas p (p.tellMover c m o e stop judge) ∧
      (∀ k, m = some (.order k) →
        (p.tellMover c m o e stop judge).head k = { p.head k with state := .done, code := BitVec.ofNat 8 o.code }) ∧
      (m = none ∨ m = some .doorSwitch ∨ m = some .masterSwitch → p.tellMover c m o e stop judge = p) := by
  have ended (k : Slot) : p.tellMover c (some (.order k)) o e stop judge = p.endMoveOrder c k o stop := by
    simp only [Part.tellMover, Part.learnOf, free, Option.bind_none]
  refine ⟨?_, fun k h => ?_, fun h => ?_⟩
  · rcases m with - | m
    · exact .refl _ p
    · cases m with
      | doorSwitch => exact .refl _ p
      | masterSwitch => exact .refl _ p
      | sequencer => exact (p.reportEnd_does c e judge).toWithin
      | order k =>
        rw [ended]
        exact (p.endMoveOrder_does c k o stop).toWithin.mono (by decide)
  · rw [h, ended]
    exact (Part.orderDone_head ..).trans (if_pos rfl)
  · rcases h with rfl | rfl | rfl <;> rfl

/-! ### A stop, no learn running -/

theorem Part.stopWindow_monitor (p : Part) (c x : Corner) (r : StopReason) : (p.stopWindow c r).monitor x =
    if x = c then (p.monitor c).stopped else p.monitor x := by
  simp only [Part.stopWindow, Part.markDirty_fields, Part.dropHolder, Part.setLists_fields, Part.halt, Part.appendRow_fields,
    Part.setMonitor_monitor, Part.setWindow_fields]

theorem Part.stopWindow_holders (p : Part) (c : Corner) (r : StopReason) :
    (p.stopWindow c r).holders = p.holders.filter fun h => decide (h.actuator ≠ .window c) := by
  simp only [Part.stopWindow, Part.markDirty_fields, Part.dropHolder, Part.setLists_fields, (p.halt_acts _ _).holders (by decide)]

theorem Part.stopWindow_waiting (p : Part) (c : Corner) (r : StopReason) : (p.stopWindow c r).waiting = p.waiting := by
  simp only [Part.stopWindow, Part.markDirty_fields, Part.dropHolder, Part.setLists_fields, Part.halt, Part.appendRow_fields,
    Part.setMonitor_fields, Part.setWindow_fields]

theorem Part.stopWindow_heads (p : Part) (c : Corner) (r : StopReason) : (p.stopWindow c r).heads = p.heads :=
  (p.stopWindow_acts c r).toWithin.heads (by decide)

/-- The stop of a window that does not learn: its fields and its monitor's, its holders given back, its mover told. -/
structure Part.Stops (p q : Part) (c : Corner) (r : StopReason) : Prop where
  window : ∀ x, q.window x = if x = c then (p.window c).stopped r p.clock false else p.window x
  monitor : ∀ x, q.monitor x = if x = c then (p.monitor c).stopped else p.monitor x
  holders : q.holders = p.holders.filter fun h => decide (h.actuator ≠ .window c)
  waiting : q.waiting = p.waiting
  ended : ∀ k, (p.window c).mover = some (.order k) → (p.window c).motion ≠ .reversing →
    q.head k = { p.head k with state := .done, code := BitVec.ofNat 8 r.outcome.code }
  heads : (p.window c).mover = some .doorSwitch ∨ (p.window c).mover = some .masterSwitch ∨ (p.window c).motion = .reversing →
    q.heads = p.heads
  within : Part.Within stopAreas p q

theorem Part.stopAndTell_stops {p : Part} {c : Corner} (free : (p.monitor c).learn = none) (r : StopReason) (judge : Bool) :
    p.Stops (p.stopAndTell c r judge) c r := by
  have stopped : ((p.stopWindow c r).monitor c).learn = none := by
    rw [Part.stopWindow_monitor, if_pos rfl]
    exact free
  have heads := p.stopWindow_heads c r
  obtain ⟨told, order, silent⟩ := Part.tellMover_free stopped
    (if (p.window c).motion = .reversing then none else (p.window c).mover) r.outcome r.entry (some r) judge
  refine ⟨fun x => ?_, fun x => ?_, p.stopAndTell_holders c r judge, p.stopAndTell_waiting c r judge, fun k h n => ?_,
    fun h => ?_, (p.stopAndTell_does c r judge).toWithin⟩
  · refine (told.window x (by decide)).trans ((p.stopWindow_window c x r).trans ?_)
    rw [free]
    rfl
  · exact (told.monitor x (by decide)).trans (p.stopWindow_monitor c x r)
  · refine (order k ((if_neg n).trans h)).trans ?_
    rw [Part.head, heads]
    rfl
  · refine (congrArg Part.heads (silent ?_)).trans heads
    split
    · exact .inl rfl
    · rename_i n
      exact .inr (h.elim .inl fun h => h.elim .inr fun h => absurd h n)

/-! ### Counting -/

theorem Part.countPulse_store (p : Part) (c : Corner) (w : WindowRec) :
    (∀ k, p.store.commit = some k → k.content.record = .window c → w.position ≠ (p.window c).position →
      (p.countPulse c w).store = { p.store with commit := some { k with changed := true } }) ∧
      (w.position = (p.window c).position ∨ (∀ k, p.store.commit = some k → k.content.record ≠ .window c) →
        (p.countPulse c w).store = p.store) := by
  have same (q : Part) : (q.setWindow c w).store = q.store := rfl
  unfold Part.countPulse Part.noteChange
  dsimp only
  rw [same]
  refine ⟨fun k hk own moved => ?_, fun h => ?_⟩
  · rw [if_neg moved, hk]
    dsimp only
    rw [if_pos own]
  · rcases h with still | other
    · rw [if_pos still]
      rfl
    · split
      · rfl
      · split
        · rename_i k hk
          rw [if_neg (other k hk)]
          rfl
        · rfl

theorem Part.countPulse_within (p : Part) (c : Corner) (w : WindowRec) : Part.Within [.windows, .store] p (p.countPulse c w) := by
  unfold Part.countPulse
  dsimp only
  split
  · exact (Part.setWindow_within p c w).mono (by decide)
  · exact (Part.setWindow_within p c w).trans (Part.noteChange_does _ _).toWithin (by decide) (by decide)

theorem WindowRec.count_free (w : WindowRec) (h : w.position ≤ w.travel) :
    w.count .opening false = w.position - 1 ∧ w.count .closing false = min w.travel (w.position + 1) := by
  refine ⟨rfl, ?_⟩
  simp only [WindowRec.count, Bool.false_or, decide_eq_true_eq]
  split <;> omega

/-! ### A counted pulse of a driven window -/

/-- The window as a pulse at `now` microseconds counts. -/
def WindowRec.counted (w : WindowRec) (now : Nat) (learning : Bool) : WindowRec :=
  { w with position := w.count w.motion.dir learning, lastPulse := some now }

theorem WindowRec.counted_at {w : WindowRec} {learning : Bool} {pos : Nat} (h : w.count w.motion.dir learning = pos) (now : Nat) :
    w.counted now learning = { w with position := pos, lastPulse := some now } := by
  rw [WindowRec.counted, h]

/-- The monitor as a pulse counts. -/
def MonitorRec.counted (m : MonitorRec) (now : Nat) : MonitorRec :=
  { m with stallAt := some (max m.floor (now + 150)), learn := m.learn.map fun l => { l with count := l.count + 1 } }

theorem MonitorRec.counted_free {m : MonitorRec} (free : m.learn = none) (now : Nat) :
    m.counted now = { m with stallAt := some (max m.floor (now + 150)) } := by
  rw [MonitorRec.counted, free, Option.map_none]

/-- The part as a driven window's pulse is counted, before it is judged. -/
def Part.pulsedAt (p : Part) (c : Corner) (now : Nat) : Part :=
  (p.countPulse c ((p.window c).counted now (p.monitor c).learn.isSome)).setMonitor c ((p.monitor c).counted p.clock)

theorem Part.pulsedAt_fields (p : Part) (c : Corner) (now : Nat) :
    (∀ x, (p.pulsedAt c now).window x = if x = c then (p.window c).counted now (p.monitor c).learn.isSome else p.window x) ∧
      (∀ x, (p.pulsedAt c now).monitor x = if x = c then (p.monitor c).counted p.clock else p.monitor x) ∧
      (p.pulsedAt c now).store = (p.countPulse c ((p.window c).counted now (p.monitor c).learn.isSome)).store ∧
      Part.Within [.windows, .monitors, .store] p (p.pulsedAt c now) := by
  have counted := p.countPulse_within c ((p.window c).counted now (p.monitor c).learn.isSome)
  refine ⟨fun x => p.countPulse_window c x _, fun x => ?_, rfl,
    counted.trans (Part.setMonitor_acts _ c _).toWithin (by decide) (by decide)⟩
  rw [Part.pulsedAt, Part.setMonitor_monitor]
  split
  · rfl
  · exact counted.monitor x (by decide)

/-- The pulse takes the glass into the slow zone or out of it (R77). -/
def Part.crosses (p : Part) (c : Corner) (now : Nat) : Bool :=
  (p.window c).learned &&
    ((p.window c).inSlowZone p.cfg != ((p.window c).counted now (p.monitor c).learn.isSome).inSlowZone p.cfg)

/-- The part as a pulse has been judged no pinch. -/
def Part.pulseSound (p : Part) (c : Corner) (now : Nat) : Part :=
  (p.pulsedAt c now).setMonitor c (((p.monitor c).counted p.clock).afterPulse ((p.window c).lastPulse.map fun t => now - t)
    (p.crosses c now))

/-- A pulse of a driven window: a pinch, or it goes on to what it ends. -/
theorem Part.hallPulse_driven {p : Part} {c : Corner} {high us : Nat} (long : 200 ≤ high) (driven : (p.window c).motion ≠ .stopped) :
    let now := p.clock * 1000 + us
    p.hallPulse c high us = match ((p.window c).lastPulse.map fun t => now - t).bind ((p.pulsedAt c now).pinchTest c) with
      | some f => (p.pulsedAt c now).pinch c f
      | none => (p.pulseSound c now).pulseEnds c := by
  have drives : (p.window c).driven = true := decide_eq_true driven
  rw [Part.hallPulse, if_neg (by omega), if_pos drives]
  rfl

/-- The pulse's effect on the baseline, and on nothing else of the monitor (R77). -/
theorem MonitorRec.afterPulse_baseline (m : MonitorRec) (period : Option Nat) (crossed : Bool) :
    m.afterPulse period crossed = { m with baseline := (m.afterPulse period crossed).baseline } ∧
      (crossed = true → (m.afterPulse period crossed).baseline = []) ∧
      (crossed = false → ∀ t, period = some t → m.settled = true → (m.afterPulse period crossed).baseline = addPeriod m.baseline t) ∧
      (crossed = false → period = none ∨ m.settled = false → (m.afterPulse period crossed).baseline = m.baseline) := by
  unfold MonitorRec.afterPulse
  cases crossed with
  | true => exact ⟨rfl, fun _ => rfl, nofun, nofun⟩
  | false =>
    cases period with
    | none => exact ⟨rfl, nofun, nofun, fun _ _ => rfl⟩
    | some t =>
      dsimp only
      rw [if_neg Bool.false_ne_true]
      by_cases settled : m.settled = true
      · rw [if_pos settled]
        exact ⟨rfl, nofun, fun _ x hx _ => by cases hx; rfl, fun _ h => by simp [settled] at h⟩
      · rw [if_neg settled]
        exact ⟨rfl, nofun, fun _ _ _ h => absurd h settled, fun _ _ => rfl⟩

theorem Part.pulseSound_fields (p : Part) (c : Corner) (now : Nat) :
    (∀ x, (p.pulseSound c now).window x = if x = c then (p.window c).counted now (p.monitor c).learn.isSome else p.window x) ∧
      (p.pulseSound c now).monitor c = ((p.monitor c).counted p.clock).afterPulse ((p.window c).lastPulse.map fun t => now - t)
        (p.crosses c now) ∧
      (p.pulseSound c now).store = (p.countPulse c ((p.window c).counted now (p.monitor c).learn.isSome)).store ∧
      Part.Within [.windows, .monitors, .store] p (p.pulseSound c now) := by
  obtain ⟨window, -, store, within⟩ := p.pulsedAt_fields c now
  exact ⟨window, (Part.setMonitor_monitor ..).trans (if_pos rfl), store,
    within.trans (Part.setMonitor_acts _ c _).toWithin (by decide) (by decide)⟩

/-- A pulse that is no pinch and ends nothing. -/
theorem Part.pulseEnds_not {p : Part} {c : Corner} (short : p.learnOverrun c = false) (none : p.countedEnd c = none) :
    p.pulseEnds c = p := by
  rw [Part.pulseEnds, if_neg (by rw [short]; decide), none]

end Sys2Proof.Machine
end

section
/-! Hall pulses that only count (R50, R51, R73). -/

namespace Sys2Proof.Machine

set_option Elab.async false in -- the declarations above are finished first: this bounds the memory of the one text
/-- Only a closing window is judged for a pinch (R77). -/
theorem Part.pinchTest_opening {p : Part} {c : Corner} (h : (p.window c).motion ≠ .closing) (period : Nat) :
    p.pinchTest c period = none := if_pos h

theorem Part.countedEnd_manual {p : Part} {c : Corner} (motion : (p.window c).motion = .opening ∨ (p.window c).motion = .closing)
    (mode : (p.window c).mode = some .manual) : p.countedEnd c = none := by
  unfold Part.countedEnd
  dsimp only
  rw [mode]
  rcases motion with h | h <;> rw [h]

/-- A pulse that is no pinch, and where no learn runs. -/
theorem Part.hallPulse_sound {p : Part} {c : Corner} {high us : Nat} (long : 200 ≤ high) (driven : (p.window c).motion ≠ .stopped)
    (clear : ∀ t, (p.window c).lastPulse = some t →
      (p.pulsedAt c (p.clock * 1000 + us)).pinchTest c (p.clock * 1000 + us - t) = none) :
    p.hallPulse c high us = (p.pulseSound c (p.clock * 1000 + us)).pulseEnds c := by
  rw [Part.hallPulse_driven long driven]
  cases h : (p.window c).lastPulse with
  | none => rfl
  | some t =>
    simp only [Option.map_some, Option.bind_some, clear t h]

theorem Part.learnOverrun_free {p : Part} {c : Corner} (free : (p.monitor c).learn = none) : p.learnOverrun c = false := by
  rw [Part.learnOverrun, free]
  rfl

theorem Part.pulseSound_learn (p : Part) (c : Corner) (now : Nat) :
    ((p.pulseSound c now).monitor c).learn = (p.monitor c).learn.map fun l => { l with count := l.count + 1 } := by
  obtain ⟨-, monitor, -, -⟩ := p.pulseSound_fields c now
  obtain ⟨fields, -⟩ := ((p.monitor c).counted p.clock).afterPulse_baseline ((p.window c).lastPulse.map fun t => now - t)
    (p.crosses c now)
  rw [monitor, fields]
  rfl

/-- A MANUAL move's pulse that is no pinch counts, and that is all. -/
theorem Part.hallPulse_manual {p : Part} {c : Corner} {high us : Nat} (long : 200 ≤ high)
    (motion : (p.window c).motion = .opening ∨ (p.window c).motion = .closing) (mode : (p.window c).mode = some .manual)
    (free : (p.monitor c).learn = none)
    (clear : ∀ t, (p.window c).lastPulse = some t →
      (p.pulsedAt c (p.clock * 1000 + us)).pinchTest c (p.clock * 1000 + us - t) = none) :
    p.hallPulse c high us = p.pulseSound c (p.clock * 1000 + us) := by
  have driven : (p.window c).motion ≠ .stopped := by
    rcases motion with h | h <;> rw [h] <;> nofun
  obtain ⟨window, -, -, -⟩ := p.pulseSound_fields c (p.clock * 1000 + us)
  have own := (window c).trans (if_pos rfl)
  rw [Part.hallPulse_sound long driven clear]
  refine Part.pulseEnds_not (Part.learnOverrun_free ?_) (Part.countedEnd_manual ?_ ?_)
  · rw [Part.pulseSound_learn, free]
    rfl
  · rw [own]
    exact motion
  · rw [own]
    exact mode

/-- Settles O41: a pulse is passed over, counts a coast, or counts a driven window's move. -/
theorem hallPulsesCountTravel : Obligations.HallPulsesCountTravel := by
  unfold Obligations.HallPulsesCountTravel
  intro s c high us
  dsimp only
  refine ⟨fun short => ?_, fun long stopped free => ?_, fun k long stopped coasts within => ?_, fun long opening mode free => ?_⟩
  · exact run_unchanged (settle_unchanged (if_pos short))
  · have still : (s.part.window c).driven = false := by simp [WindowRec.driven, stopped]
    refine run_unchanged (settle_unchanged ?_)
    rw [Part.hallPulse, if_neg (by omega), if_neg (by rw [still]; decide), free]
  · have still : (s.part.window c).driven = false := by simp [WindowRec.driven, stopped]
    have counts : s.part.hallPulse c high us =
        s.part.countPulse c { s.part.window c with position := (s.part.window c).count k.dir false } := by
      rw [Part.hallPulse, if_neg (by omega), if_neg (by rw [still]; decide)]
      split
      · rename_i x h
        cases coasts.symm.trans h
        rfl
      · rename_i h
        cases h.symm.trans coasts
    obtain ⟨down, up⟩ := (s.part.window c).count_free within
    have own := (s.part.countPulse_window c c { s.part.window c with position := (s.part.window c).count k.dir false }).trans (if_pos rfl)
    have step := s.part.countPulse_within c { s.part.window c with position := (s.part.window c).count k.dir false }
    refine (completes_run (f := settle (·.hallPulse c high us)) rfl).2 ?_
    rw [settle_within (f := (·.hallPulse c high us)) (counts ▸ step), counts, own]
    refine ⟨?_, s.part.countPulse_store c _, fun x hx => (s.part.countPulse_window c x _).trans (if_neg hx),
      step.monitors (by decide), step.holders (by decide)⟩
    cases k.dir
    · rw [down]
    · rw [up]
  · have counts := Part.hallPulse_manual (us := us) long (.inl opening) mode free
      fun t _ => Part.pinchTest_opening (by
        rw [((s.part.pulsedAt_fields c (s.part.clock * 1000 + us)).1 c).trans (if_pos rfl)]
        show (s.part.window c).motion ≠ .closing
        rw [opening]
        nofun) _
    obtain ⟨window, monitor, store, within⟩ := s.part.pulseSound_fields c (s.part.clock * 1000 + us)
    obtain ⟨fields, -⟩ := ((s.part.monitor c).counted s.part.clock).afterPulse_baseline
      ((s.part.window c).lastPulse.map fun t => s.part.clock * 1000 + us - t) (s.part.crosses c (s.part.clock * 1000 + us))
    have own : (s.part.window c).counted (s.part.clock * 1000 + us) (s.part.monitor c).learn.isSome =
        { s.part.window c with
          position := (s.part.window c).position - 1, lastPulse := some (s.part.clock * 1000 + us) } :=
      WindowRec.counted_at (by rw [opening]; rfl) _
    refine (completes_run (f := settle (·.hallPulse c high us)) rfl).2 ?_
    rw [settle_within (f := (·.hallPulse c high us)) (counts ▸ within), counts]
    refine ⟨((window c).trans (if_pos rfl)).trans own, ?_, ?_, fun x hx => (window x).trans (if_neg hx), within.holders (by decide)⟩
    · rw [store, own]
      exact s.part.countPulse_store c { s.part.window c with
        position := (s.part.window c).position - 1
        lastPulse := some (s.part.clock * 1000 + us) }
    · rw [monitor, fields]
      rfl

end Sys2Proof.Machine
end

section
/-! The pinch reaction (R80, R83). -/

namespace Sys2Proof.Machine

/-- The window's fields as it reverses. -/
def WindowRec.pinched (w : WindowRec) (now ramp : Nat) : WindowRec :=
  { w.driving .reversing now ramp with mode := none, target := none, forExpress := false, pinchLockout := true }

/-- The history with the pinch of a window at `now`. -/
def pinchHistory (m : MonitorRec) (w : WindowRec) (now : Nat) : List PinchEntry :=
  addPinch m.history ⟨now, if w.mode = some .manual then .manual else .other⟩

/-- The monitor's fields as its window reverses. -/
def MonitorRec.pinched (m : MonitorRec) (now back : Nat) (history : List PinchEntry) : MonitorRec :=
  { m.driving now with
    reversalTarget := some back
    history := history
    forceInUse := false
    forceArmed := if armsForce history then some (now + 10000) else none }

set_option Elab.async false in -- the declarations above are finished first: this bounds the memory of the one text
/-- The pinch after its mover has been told: the window reverses, its monitor starts afresh, rows, and the mark. -/
theorem Part.pinch_reverses (p : Part) (c : Corner) (found : PinchFound) : ∃ rs, p.pinch c found =
    ((((p.pinchTold c).setWindow c (((p.pinchTold c).window c).pinched p.clock p.cfg.rampTime)).setMonitor c
      (((p.pinchTold c).monitor c).pinched p.clock ((p.window c).position - p.cfg.reversalDistance)
        (pinchHistory (p.monitor c) (p.window c) p.clock))).appendRows rs).markDirty (.window c) := by
  unfold MonitorRec.pinched pinchHistory
  by_cases h : armsForce (addPinch (p.monitor c).history
      ⟨p.clock, if (p.window c).mode = some .manual then .manual else .other⟩) = true
  · exact ⟨[_, _], by unfold Part.pinch; dsimp only; rw [if_pos h, if_pos h]; rfl⟩
  · exact ⟨[_], by unfold Part.pinch; dsimp only; rw [if_neg h, if_neg h]; rfl⟩

/-- What the pinch leaves, from the part as its mover has been told. -/
theorem Part.pinch_fields (p : Part) (c : Corner) (found : PinchFound) :
    (∀ x, (p.pinch c found).window x =
        if x = c then ((p.pinchTold c).window c).pinched p.clock p.cfg.rampTime else (p.pinchTold c).window x) ∧
      (p.pinch c found).monitor c = ((p.pinchTold c).monitor c).pinched p.clock
        ((p.window c).position - p.cfg.reversalDistance) (pinchHistory (p.monitor c) (p.window c) p.clock) ∧
      Part.Within startAreas (p.pinchTold c) (p.pinch c found) := by
  obtain ⟨rs, e⟩ := p.pinch_reverses c found
  have window (x : Corner) := (p.pinchTold c).setWindow_window c x (((p.pinchTold c).window c).pinched p.clock p.cfg.rampTime)
  have first := (p.pinchTold c).setWindow_within c (((p.pinchTold c).window c).pinched p.clock p.cfg.rampTime)
  generalize (p.pinchTold c).setWindow c (((p.pinchTold c).window c).pinched p.clock p.cfg.rampTime) = q at e window first
  have monitor := q.setMonitor_monitor c c (((p.pinchTold c).monitor c).pinched p.clock ((p.window c).position - p.cfg.reversalDistance)
    (pinchHistory (p.monitor c) (p.window c) p.clock))
  have second := (q.setMonitor_acts c (((p.pinchTold c).monitor c).pinched p.clock ((p.window c).position - p.cfg.reversalDistance)
    (pinchHistory (p.monitor c) (p.window c) p.clock))).toWithin
  generalize q.setMonitor c (((p.pinchTold c).monitor c).pinched p.clock ((p.window c).position - p.cfg.reversalDistance)
    (pinchHistory (p.monitor c) (p.window c) p.clock)) = r at e monitor second
  have rest : Part.Within (rowAreas ++ [.begun, .store]) r (p.pinch c found) := by
    rw [e]
    exact (r.appendRows_does rs).toWithin.trans (Part.markDirty_does _ _).toWithin (by decide) (by decide)
  refine ⟨fun x => ?_, ?_, (first.trans second (M := startAreas) (by decide) (by decide)).trans rest (by decide) (by decide)⟩
  · rw [rest.window x (by decide), second.window x (by decide), window x]
  · rw [rest.monitor c (by decide), monitor, if_pos rfl]

/-- The part as the mover of a pinched window has been told, no learn running. -/
theorem Part.pinchTold_free {p : Part} {c : Corner} (free : (p.monitor c).learn = none) :
    (∀ x, (p.pinchTold c).window x = if x = c then { p.window c with lastStop := some .pinch } else p.window x) ∧
      (∀ k, (p.window c).mover = some (.order k) →
        (p.pinchTold c).head k = { p.head k with state := .done, code := BitVec.ofNat 8 OrderOutcome.pinch.code }) ∧
      ((p.window c).mover = some .doorSwitch ∨ (p.window c).mover = some .masterSwitch → (p.pinchTold c).heads = p.heads) ∧
      Part.Within (.windows :: reportAreas) p (p.pinchTold c) := by
  have row := (p.appendRow_does (stoppedRow c .pinch (p.window c).mover (p.window c).position)).toWithin
  let q := (p.appendRow (stoppedRow c .pinch (p.window c).mover (p.window c).position)).setWindow c
    { p.window c with lastStop := some .pinch }
  have first : Part.Within (.windows :: rowAreas) p q := row.trans (Part.setWindow_within _ c _) (by decide) (by decide)
  have own : (q.monitor c).learn = none := by rw [first.monitor c (by decide)]; exact free
  have heads : q.heads = p.heads := first.heads (by decide)
  obtain ⟨told, order, silent⟩ := Part.tellMover_free own (p.window c).mover StopReason.pinch.outcome StopReason.pinch.entry
    (some .pinch) true
  refine ⟨fun x => ?_, fun k h => (order k h).trans ?_, fun h => ?_, first.trans told (by decide) (by decide)⟩
  · refine (told.window x (by decide)).trans ((Part.setWindow_window ..).trans ?_)
    split
    · rfl
    · exact row.window x (by decide)
  · rw [Part.head, heads]
    rfl
  · exact (congrArg Part.heads (silent (.inr h))).trans heads

/-- Force is armed by the third of three MANUAL pinches within 10 000 ms (R83). -/
theorem armsForce_addPinch (h : List PinchEntry) (e : PinchEntry) : armsForce (addPinch h e) = true ↔
    e.kind = .manual ∧ (h.drop (h.length - 2)).map (·.kind) = [.manual, .manual] ∧
      ∀ a, (h.drop (h.length - 2)).head? = some a → e.time - a.time ≤ 10000 := by
  have short : (h.drop (h.length - 2)).length ≤ 2 := by simp only [List.length_drop]; omega
  unfold addPinch
  generalize h.drop (h.length - 2) = l at short
  match l, short with
  | [], _ => simp [armsForce]
  | [a], _ => simp [armsForce]
  | [a, b], _ =>
    simp only [armsForce, List.cons_append, List.nil_append, decide_eq_true_eq, List.map_cons, List.map_nil, List.cons.injEq,
      and_true, List.head?_cons, Option.some.injEq, forall_eq']
    exact ⟨fun ⟨x, y, z, t⟩ => ⟨z, ⟨x, y⟩, t⟩, fun ⟨z, ⟨x, y⟩, t⟩ => ⟨x, y, z, t⟩⟩

end Sys2Proof.Machine
end

section
/-! A pulse of a closing window is a pinch or counts (R77 to R80, R83). -/

namespace Sys2Proof.Machine

set_option Elab.async false in -- the declarations above are finished first: this bounds the memory of the one text
/-- R78's table: when a period of a closing window is a pinch. -/
theorem Part.pinchTest_table {p : Part} {c : Corner} (closing : (p.window c).motion = .closing) (period : Nat) :
    (p.pinchTest c period).isSome = true ↔
      ((p.window c).learned = false ∧ p.cfg.absoluteLimit * 100 < period) ∨
      ((p.window c).learned = true ∧ (p.window c).inPinchZone p.cfg = true ∧ (p.monitor c).baseline.length < 16 ∧
        p.cfg.absoluteLimit * 100 < period) ∨
      ((p.window c).learned = true ∧ (p.window c).inPinchZone p.cfg = true ∧ 16 ≤ (p.monitor c).baseline.length ∧
        (p.monitor c).baseline.sum * (100 + if (p.monitor c).forceInUse then p.cfg.forceRatio else p.cfg.pinchRatio) <
          period * 1600) := by
  unfold Part.pinchTest
  dsimp only
  rw [if_neg (by rw [closing]; decide)]
  cases learned : (p.window c).learned with
  | false => simp
  | true =>
    rw [if_neg (by decide)]
    cases zone : (p.window c).inPinchZone p.cfg with
    | false => simp
    | true =>
      rw [if_neg (by decide)]
      by_cases short : (p.monitor c).baseline.length < 16
      · simp [short]
      · rw [if_neg short]
        simp [short, Nat.not_lt.1 short]

theorem WindowRec.inPinchZone_iff {w : WindowRec} {g : Config} : w.inPinchZone g = true ↔
    w.travel - g.softStopOffset ≤ w.position + g.pinchZone ∧ w.position ≤ w.travel - g.softStopOffset := decide_eq_true_iff

/-- A pulse's pinch, as the reviewers' table states it, is what the model's test finds. -/
theorem Part.pulsePinches_iff {p : Part} {c : Corner} {us : Nat} (closing : (p.window c).motion = .closing)
    (free : (p.monitor c).learn = none) (inside : (p.window c).position ≤ (p.window c).travel)
    (few : (p.monitor c).baseline.length ≤ 16) :
    p.pulsePinches c us ↔ ∃ t, (p.window c).lastPulse = some t ∧
      ((p.pulsedAt c (p.clock * 1000 + us)).pinchTest c (p.clock * 1000 + us - t)).isSome = true := by
  obtain ⟨window, monitor, -, within⟩ := p.pulsedAt_fields c (p.clock * 1000 + us)
  have cfg : (p.pulsedAt c (p.clock * 1000 + us)).cfg = p.cfg := within.cfg (by decide)
  have pos : (p.window c).count (p.window c).motion.dir (p.monitor c).learn.isSome =
      min (p.window c).travel ((p.window c).position + 1) := by
    rw [closing, free]
    exact ((p.window c).count_free inside).2
  have own := ((window c).trans (if_pos rfl)).trans (WindowRec.counted_at pos _)
  have mon := (monitor c).trans (if_pos rfl)
  have motion : ((p.pulsedAt c (p.clock * 1000 + us)).window c).motion = .closing := by rw [own]; exact closing
  unfold Part.pulsePinches
  dsimp only
  refine exists_congr fun t => and_congr_right fun _ => ?_
  rw [Part.pinchTest_table motion, own, mon, cfg, WindowRec.inPinchZone_iff]
  simp only [MonitorRec.counted]
  have full : (p.monitor c).baseline.length = 16 ↔ 16 ≤ (p.monitor c).baseline.length := by omega
  rw [full, Nat.mul_comm 100 p.cfg.absoluteLimit]
  exact Iff.rfl

/-- The window as a pulse of its close counts, no learn running. -/
theorem WindowRec.counted_closing {w : WindowRec} (closing : w.motion = .closing) (inside : w.position ≤ w.travel) (now : Nat) :
    w.counted now false = { w with position := min w.travel (w.position + 1), lastPulse := some now } :=
  WindowRec.counted_at (by rw [closing]; exact (w.count_free inside).2) now

/-- What a pinched close leaves (R80, R83), and whom it tells. -/
structure Part.PinchedAt (p q : Part) (c : Corner) (now : Nat) : Prop where
  window : ∀ x, q.window x = if x = c then WindowRec.pinched
      { (p.window c).counted now false with lastStop := some .pinch } p.clock p.cfg.rampTime else p.window x
  monitor : q.monitor c = ((p.monitor c).counted p.clock).pinched p.clock
    (((p.window c).counted now false).position - p.cfg.reversalDistance) (pinchHistory (p.monitor c) (p.window c) p.clock)
  ended : ∀ k, (p.window c).mover = some (.order k) →
    q.head k = { p.head k with state := .done, code := BitVec.ofNat 8 OrderOutcome.pinch.code }
  heads : (p.window c).mover = some .doorSwitch ∨ (p.window c).mover = some .masterSwitch → q.heads = p.heads
  within : Part.Within (.operation :: orderAreas ++ startAreas) p q

/-- A pulse of a window that does not learn, found to be a pinch. -/
theorem Part.hallPulse_pinched {p : Part} {c : Corner} {high us t : Nat} (long : 200 ≤ high) (driven : (p.window c).motion ≠ .stopped)
    (free : (p.monitor c).learn = none) (last : (p.window c).lastPulse = some t)
    (found : ((p.pulsedAt c (p.clock * 1000 + us)).pinchTest c (p.clock * 1000 + us - t)).isSome = true) :
    p.PinchedAt (p.hallPulse c high us) c (p.clock * 1000 + us) := by
  obtain ⟨f, hf⟩ := Option.isSome_iff_exists.1 found
  have pulse : p.hallPulse c high us = (p.pulsedAt c (p.clock * 1000 + us)).pinch c f := by
    rw [Part.hallPulse_driven long driven, last, Option.map_some, Option.bind_some, hf]
  obtain ⟨window, monitor, -, within⟩ := p.pulsedAt_fields c (p.clock * 1000 + us)
  rw [pulse]
  generalize p.pulsedAt c (p.clock * 1000 + us) = q at window monitor within
  have own := (window c).trans (if_pos rfl)
  have mon := (monitor c).trans (if_pos rfl)
  have clock : q.clock = p.clock := within.clock
  have cfg : q.cfg = p.cfg := within.cfg (by decide)
  have heads : q.heads = p.heads := within.heads (by decide)
  rw [free] at own
  have qFree : (q.monitor c).learn = none := by
    rw [mon, MonitorRec.counted, free]
    rfl
  have mover : (q.window c).mover = (p.window c).mover := by rw [own]; rfl
  obtain ⟨told, order, silent, tells⟩ := Part.pinchTold_free qFree
  obtain ⟨after, monAfter, rest⟩ := q.pinch_fields c f
  refine ⟨fun x => ?_, ?_, fun k h => ?_, fun h => ?_, ?_⟩
  · rw [after x, told c, if_pos rfl, told x, clock, cfg, own, window x]
    split <;> rfl
  · rw [monAfter, tells.monitor c (by decide), mon, own, clock, cfg]
    rfl
  · rw [rest.head k (by decide), order k (mover.trans h), Part.head, heads]
    rfl
  · rw [rest.heads (by decide), silent (by rw [mover]; exact h), heads]
  · exact (within.trans tells (M := .operation :: orderAreas ++ startAreas) (by decide) (by decide)).trans rest (by decide) (by decide)

theorem Part.slow_iff {w : WindowRec} {g : Config} :
    w.inSlowZone g = true ↔ w.learned = true ∧ (w.position ≤ g.softStopOffset + g.slowZone ∨
      w.travel - g.softStopOffset ≤ w.position + g.slowZone) := by
  rw [WindowRec.inSlowZone, Bool.and_eq_true]
  exact and_congr_right fun _ => decide_eq_true_iff

theorem Part.crosses_iff {p : Part} {c : Corner} {now : Nat} :
    p.crosses c now = false ↔ ((p.window c).inSlowZone p.cfg = true ↔
      ((p.window c).counted now (p.monitor c).learn.isSome).inSlowZone p.cfg = true) := by
  have fast (w : WindowRec) (h : w.learned = false) : w.inSlowZone p.cfg = false := by rw [WindowRec.inSlowZone, h]; rfl
  unfold Part.crosses
  cases learned : (p.window c).learned with
  | false => simp [fast _ learned, fast ((p.window c).counted now (p.monitor c).learn.isSome) learned]
  | true =>
    rw [Bool.true_and, ← Bool.eq_iff_iff]
    simp

/-- Settles O42: the pulse is judged by `pulsePinches_iff`; a pinch reverses the window, another pulse of a MANUAL move counts. -/
theorem pinchedClosesReverse : Obligations.PinchedClosesReverse := by
  unfold Obligations.PinchedClosesReverse
  intro s c high us long
  dsimp only
  intro closing free inside few
  have driven : (s.part.window c).motion ≠ .stopped := by rw [closing]; nofun
  have counted := WindowRec.counted_closing closing inside (s.part.clock * 1000 + us)
  rw [Part.pulsePinches_iff closing free inside few]
  refine ⟨fun ⟨t, last, found⟩ => ?_, fun clear mode => ?_⟩
  · refine (completes_run (f := settle (·.hallPulse c high us)) rfl).2 ?_
    obtain ⟨window, monitor, ended, heads, within⟩ := Part.hallPulse_pinched long driven free last found
    rw [settle_within within]
    generalize s.part.hallPulse c high us = q at window monitor ended heads within
    have arms := armsForce_addPinch (s.part.monitor c).history
      ⟨s.part.clock, if (s.part.window c).mode = some .manual then .manual else .other⟩
    have manual : (if (s.part.window c).mode = some .manual then CloseKind.manual else .other) = .manual ↔
        (s.part.window c).mode = some .manual := by
      split
      · simp_all
      · simp_all
    rw [show addPinch (s.part.monitor c).history _ = pinchHistory (s.part.monitor c) (s.part.window c) s.part.clock from rfl,
      manual] at arms
    rw [MonitorRec.counted_free free, counted] at monitor
    refine ⟨?_, ?_, fun h => ?_, fun h => ?_, within.holders (by decide), within.waiting (by decide),
      fun x hx => (window x).trans (if_neg hx), within.outsideWindows, ended, heads⟩
    · rw [window c, if_pos rfl, counted]
      rfl
    · rw [monitor]
      rfl
    · rw [monitor]
      exact if_pos (arms.2 h)
    · rw [monitor]
      exact if_neg (mt arms.1 h)
  · have notFound (t : Nat) (last : (s.part.window c).lastPulse = some t) :
        (s.part.pulsedAt c (s.part.clock * 1000 + us)).pinchTest c (s.part.clock * 1000 + us - t) = none := by
      rw [← Option.not_isSome_iff_eq_none]
      exact fun found => clear ⟨t, last, found⟩
    have counts := Part.hallPulse_manual (us := us) long (.inr closing) mode free notFound
    obtain ⟨window, monitor, store, within⟩ := s.part.pulseSound_fields c (s.part.clock * 1000 + us)
    obtain ⟨fields, crossing, adds, keeps⟩ := ((s.part.monitor c).counted s.part.clock).afterPulse_baseline
      ((s.part.window c).lastPulse.map fun t => s.part.clock * 1000 + us - t) (s.part.crosses c (s.part.clock * 1000 + us))
    refine (completes_run (f := settle (·.hallPulse c high us)) rfl).2 ?_
    rw [settle_within (f := (·.hallPulse c high us)) (counts ▸ within), counts]
    generalize s.part.pulseSound c (s.part.clock * 1000 + us) = q at window monitor store within
    rw [← monitor] at fields crossing adds keeps
    have crossed := Part.crosses_iff (p := s.part) (c := c) (now := s.part.clock * 1000 + us)
    rw [free, Option.isSome_none, counted, Part.slow_iff, Part.slow_iff] at crossed
    rw [← crossed]
    refine ⟨?_, ?_, fun same settled t last => ?_, fun same h => ?_, fun cross => ?_, within.holders (by decide), within.heads (by decide),
      fun x hx => (window x).trans (if_neg hx)⟩
    · rw [window c, if_pos rfl, free]
      exact counted
    · rw [fields, MonitorRec.counted_free free]
    · exact adds same _ (by rw [last]; rfl) settled
    · exact keeps same (h.symm.imp (fun h => by rw [h]; rfl) id)
    · exact crossing (by simpa using cross)

end Sys2Proof.Machine
end

section
/-! Counted pulses at the end of a move (R65, R81). -/

namespace Sys2Proof.Machine

/-! ### What a counted pulse ends -/

set_option Elab.async false in -- the declarations above are finished first: this bounds the memory of the one text
theorem Part.countedEnd_reversing {p : Part} {c : Corner} {t : Nat} (motion : (p.window c).motion = .reversing)
    (aim : (p.monitor c).reversalTarget = some t) :
    p.countedEnd c = if (p.window c).position ≤ t then some .pinch else none := by
  unfold Part.countedEnd
  dsimp only
  rw [motion, aim]
  simp

theorem Part.countedEnd_express {p : Part} {c : Corner} {dir : Direction} (motion : (p.window c).motion = dir.motion)
    (mode : (p.window c).mode = some .express) (learned : (p.window c).learned = true) :
    p.countedEnd c = if (p.window c).atSoftStop p.cfg dir then some .atEnd else none := by
  unfold Part.countedEnd
  dsimp only
  rw [mode, learned, motion]
  cases dir <;> rfl

theorem Part.countedEnd_target {p : Part} {c : Corner} {t : Nat} (mode : (p.window c).mode = some .target)
    (target : (p.window c).target = some t) (learned : (p.window c).learned = true) :
    ((p.window c).motion = .closing → p.countedEnd c =
      if t ≤ (p.window c).position then some (if (p.window c).isSoftStop p.cfg t then .atEnd else .target) else none) ∧
    ((p.window c).motion = .opening → p.countedEnd c =
      if (p.window c).position ≤ t then some (if (p.window c).isSoftStop p.cfg t then .atEnd else .target) else none) := by
  unfold Part.countedEnd
  dsimp only
  rw [mode, learned, target]
  refine ⟨fun motion => ?_, fun motion => ?_⟩
  all_goals
    rw [motion]
    simp [Motion.dir]

/-! ### A pulse that ends its move, or goes on -/

theorem Completes.mono {i : Instr} {s : State} {post post' : Part → Prop} (h : Completes i s post) (k : ∀ p, post p → post' p) :
    Completes i s post' := by
  obtain ⟨t, run, pending, holds⟩ := h
  exact ⟨t, run, pending, k _ holds⟩

/-- The window as its pulse counts at position `pos`. -/
structure Part.CountsTo (p : Part) (c : Corner) (us pos : Nat) : Prop where
  driven : (p.window c).motion ≠ .stopped
  free : (p.monitor c).learn = none
  noneWaits : p.waiting = []
  clear : ∀ t, (p.window c).lastPulse = some t →
    (p.pulsedAt c (p.clock * 1000 + us)).pinchTest c (p.clock * 1000 + us - t) = none
  count : (p.window c).count (p.window c).motion.dir false = pos
  inside : pos ≤ (p.window c).travel

theorem Part.CountsTo.window {p : Part} {c : Corner} {us pos : Nat} (h : p.CountsTo c us pos) :
    (p.pulseSound c (p.clock * 1000 + us)).window c =
      { p.window c with position := pos, lastPulse := some (p.clock * 1000 + us) } := by
  obtain ⟨window, -⟩ := p.pulseSound_fields c (p.clock * 1000 + us)
  rw [window c, if_pos rfl, h.free]
  exact WindowRec.counted_at h.count _

theorem Part.CountsTo.cfg {p : Part} {c : Corner} {us pos : Nat} (_ : p.CountsTo c us pos) :
    (p.pulseSound c (p.clock * 1000 + us)).cfg = p.cfg := by
  obtain ⟨-, -, -, within⟩ := p.pulseSound_fields c (p.clock * 1000 + us)
  exact within.cfg (by decide)

/-- What a counted pulse of an EXPRESS move, of a TARGET and of a reversal ends. -/
theorem Part.CountsTo.express {p : Part} {c : Corner} {us pos : Nat} {dir : Direction} (h : p.CountsTo c us pos)
    (motion : (p.window c).motion = dir.motion) (mode : (p.window c).mode = some .express) (learned : (p.window c).learned = true) :
    (p.pulseSound c (p.clock * 1000 + us)).countedEnd c =
      if (dir = .closing ∧ (p.window c).travel - p.cfg.softStopOffset ≤ pos) ∨ (dir = .opening ∧ pos ≤ p.cfg.softStopOffset)
      then some .atEnd else none := by
  have own := h.window
  have ends := Part.countedEnd_express (p := p.pulseSound c (p.clock * 1000 + us)) (c := c) (dir := dir)
    (by rw [own]; exact motion) (by rw [own]; exact mode) (by rw [own]; exact learned)
  have stop := WindowRec.atSoftStop_iff ((p.pulseSound c (p.clock * 1000 + us)).window c) p.cfg dir
  rw [ends, h.cfg]
  simp only [stop]
  rw [own]

theorem Part.CountsTo.target {p : Part} {c : Corner} {us pos t : Nat} (h : p.CountsTo c us pos)
    (mode : (p.window c).mode = some .target) (target : (p.window c).target = some t) (learned : (p.window c).learned = true) :
    let r : StopReason := if t = p.cfg.softStopOffset ∨ t = (p.window c).travel - p.cfg.softStopOffset then .atEnd else .target
    ((p.window c).motion = .closing → (p.pulseSound c (p.clock * 1000 + us)).countedEnd c = if t ≤ pos then some r else none) ∧
      ((p.window c).motion = .opening → (p.pulseSound c (p.clock * 1000 + us)).countedEnd c = if pos ≤ t then some r else none) := by
  have own := h.window
  obtain ⟨closing, opening⟩ := Part.countedEnd_target (p := p.pulseSound c (p.clock * 1000 + us)) (c := c) (t := t)
    (by rw [own]; exact mode) (by rw [own]; exact target) (by rw [own]; exact learned)
  have soft : ((p.pulseSound c (p.clock * 1000 + us)).window c).isSoftStop (p.pulseSound c (p.clock * 1000 + us)).cfg t = true ↔
      t = p.cfg.softStopOffset ∨ t = (p.window c).travel - p.cfg.softStopOffset := by
    rw [own, h.cfg]
    exact decide_eq_true_iff
  simp only [soft] at closing opening
  rw [own] at closing opening
  exact ⟨closing, opening⟩

theorem Part.CountsTo.reversal {p : Part} {c : Corner} {us pos t : Nat} (h : p.CountsTo c us pos)
    (motion : (p.window c).motion = .reversing) (aim : (p.monitor c).reversalTarget = some t) :
    (p.pulseSound c (p.clock * 1000 + us)).countedEnd c = if pos ≤ t then some .pinch else none := by
  have own := h.window
  obtain ⟨-, monitor, -⟩ := p.pulseSound_fields c (p.clock * 1000 + us)
  obtain ⟨fields, -⟩ := ((p.monitor c).counted p.clock).afterPulse_baseline
    ((p.window c).lastPulse.map fun t => p.clock * 1000 + us - t) (p.crosses c (p.clock * 1000 + us))
  have aimed : ((p.pulseSound c (p.clock * 1000 + us)).monitor c).reversalTarget = some t := by
    rw [monitor, fields]
    exact aim
  rw [Part.countedEnd_reversing (by rw [own]; exact motion) aimed, own]

section
variable {s : State} {c : Corner} {high us pos : Nat} (long : 200 ≤ high) (h : s.part.CountsTo c us pos)
include long h

/-- The pulse goes on. -/
theorem completes_countsOn (on : (s.part.pulseSound c (s.part.clock * 1000 + us)).countedEnd c = none) :
    Completes (.hallPulse c high us) s fun p =>
      p.window c = { s.part.window c with position := pos, lastPulse := some (s.part.clock * 1000 + us) } ∧
      p.holders = s.part.holders ∧ p.heads = s.part.heads ∧ p.operation = s.part.operation := by
  obtain ⟨-, -, -, within⟩ := s.part.pulseSound_fields c (s.part.clock * 1000 + us)
  have short := Part.learnOverrun_free (p := s.part.pulseSound c (s.part.clock * 1000 + us)) (c := c)
    (by rw [Part.pulseSound_learn, h.free]; rfl)
  have counts := (Part.hallPulse_sound long h.driven h.clear).trans (Part.pulseEnds_not short on)
  refine (completes_run (f := settle (·.hallPulse c high us)) rfl).2 ?_
  rw [settle_within (f := (·.hallPulse c high us)) (counts ▸ within), counts]
  exact ⟨h.window, within.holders (by decide), within.heads (by decide), within.operation (by decide)⟩

/-- The pulse ends its move. -/
theorem completes_countsOut {r : StopReason}
    (ends : (s.part.pulseSound c (s.part.clock * 1000 + us)).countedEnd c = some r) :
    Completes (.hallPulse c high us) s fun p =>
      p.window c = { s.part.window c with
        position := pos
        motion := .stopped
        mode := none
        target := none
        mover := none
        forExpress := false
        lastStop := some r
        movingFlag := false
        coast := some ⟨s.part.clock + 100, (s.part.window c).motion.dir⟩
        lastPulse := none
        ramp := none } ∧
      (p.monitor c).stallAt = none ∧ (p.monitor c).baseline = [] ∧ (p.monitor c).forceInUse = false ∧
      (p.monitor c).reversalTarget = none ∧
      (∀ x, x ∈ p.holders ↔ x ∈ s.part.holders ∧ x.actuator ≠ .window c) ∧
      (∀ k, (s.part.window c).mover = some (.order k) → (s.part.window c).motion ≠ .reversing →
        p.head k = { s.part.head k with state := .done, code := BitVec.ofNat 8 r.outcome.code }) ∧
      ((s.part.window c).mover = some .doorSwitch ∨ (s.part.window c).mover = some .masterSwitch ∨
        (s.part.window c).motion = .reversing → p.heads = s.part.heads) ∧
      ∀ x, x ≠ c → p.window x = s.part.window x := by
  obtain ⟨windows, -, -, within⟩ := s.part.pulseSound_fields c (s.part.clock * 1000 + us)
  have own := h.window
  have sound := Part.hallPulse_sound long h.driven h.clear
  have learn : ((s.part.pulseSound c (s.part.clock * 1000 + us)).monitor c).learn = none := by
    rw [Part.pulseSound_learn, h.free]
    rfl
  generalize s.part.pulseSound c (s.part.clock * 1000 + us) = q at *
  have pulse : s.part.hallPulse c high us = q.stopAndTell c r true := by
    rw [sound, Part.pulseEnds, if_neg (by rw [Part.learnOverrun_free learn]; decide), ends]
  obtain ⟨window, monitor, holders, waiting, ended, silent, -⟩ := Part.stopAndTell_stops learn r true
  rw [← pulse] at window monitor holders waiting ended silent
  have clock : q.clock = s.part.clock := within.clock
  have heads : q.heads = s.part.heads := within.heads (by decide)
  refine (completes_run (f := settle (·.hallPulse c high us)) rfl).2 ?_
  rw [settle_noneWaits (f := (·.hallPulse c high us)) (waiting.trans ((within.waiting (by decide)).trans h.noneWaits))]
  generalize s.part.hallPulse c high us = p at *
  have mon := (monitor c).trans (if_pos rfl)
  refine ⟨?_, by rw [mon]; rfl, by rw [mon]; rfl, by rw [mon]; rfl, by rw [mon]; rfl, fun x => ?_, fun k m n => ?_, fun m => ?_,
    fun x hx => ?_⟩
  · rw [window c, if_pos rfl, clock, own]
    simp only [WindowRec.stopped, Bool.false_eq_true, if_false, Nat.min_eq_left h.inside]
  · rw [holders, within.holders (by decide)]
    simp
  · rw [ended k (by rw [own]; exact m) (by rw [own]; exact n), Part.head, heads]
    rfl
  · exact (silent (by rw [own]; exact m)).trans heads
  · rw [window x, if_neg hx, windows x, if_neg hx]

end

/-- Settles O43: the pulse counts by `CountsTo`; where `countedEnd` finds the end of its move the window stops, else it goes on. -/
theorem countedPulsesEndMovesAtTheirTargets : Obligations.CountedPulsesEndMovesAtTheirTargets := by
  unfold Obligations.CountedPulsesEndMovesAtTheirTargets
  intro s c high us long
  dsimp only
  intro free none inside few
  have opens (motion : (s.part.window c).motion = .opening ∨ (s.part.window c).motion = .reversing) :
      s.part.CountsTo c us ((s.part.window c).position - 1) := by
    refine ⟨?_, free, none, fun t _ => Part.pinchTest_opening ?_ _, ?_, by omega⟩
    · rcases motion with m | m <;> rw [m] <;> nofun
    · obtain ⟨window, -⟩ := s.part.pulsedAt_fields c (s.part.clock * 1000 + us)
      rw [window c, if_pos rfl]
      show (s.part.window c).motion ≠ .closing
      rcases motion with m | m <;> rw [m] <;> nofun
    · rcases motion with m | m <;> rw [m] <;> rfl
  have softly {t : Nat} (soft : t = (s.part.window c).travel - s.part.cfg.softStopOffset ∨ t = s.part.cfg.softStopOffset) :
      (if t = s.part.cfg.softStopOffset ∨ t = (s.part.window c).travel - s.part.cfg.softStopOffset then StopReason.atEnd else .target) =
        .atEnd := if_pos soft.symm
  have amid {t : Nat} (top : t ≠ (s.part.window c).travel - s.part.cfg.softStopOffset) (bottom : t ≠ s.part.cfg.softStopOffset) :
      (if t = s.part.cfg.softStopOffset ∨ t = (s.part.window c).travel - s.part.cfg.softStopOffset then StopReason.atEnd else .target) =
        .target := if_neg fun h => h.elim bottom top
  refine ⟨fun closing learned clear => ?_, fun opening learned => ?_, fun reversing t aim => ?_⟩
  · have counts : s.part.CountsTo c us (min (s.part.window c).travel ((s.part.window c).position + 1)) := by
      refine ⟨by rw [closing]; nofun, free, none, fun t last => ?_, by rw [closing]; exact ((s.part.window c).count_free inside).2,
        by omega⟩
      rw [Part.pulsePinches_iff closing free inside few] at clear
      rw [← Option.not_isSome_iff_eq_none]
      exact fun found => clear ⟨t, last, found⟩
    rw [show Direction.closing = (s.part.window c).motion.dir by rw [closing]; rfl]
    refine ⟨fun mode => ?_, fun t mode target => ?_⟩
    · have ends := counts.express (dir := .closing) closing mode learned
      refine ⟨fun top => completes_countsOut long counts (ends.trans (if_pos (.inl ⟨rfl, top⟩))), fun below =>
        completes_countsOn long counts (ends.trans (if_neg ?_))⟩
      rintro (⟨-, top⟩ | ⟨e, -⟩)
      · omega
      · cases e
    · obtain ⟨ends, -⟩ := counts.target mode target learned
      exact ⟨fun there => ⟨fun soft => completes_countsOut long counts
          ((ends closing).trans ((if_pos there).trans (congrArg some (softly soft)))),
        fun top bottom => completes_countsOut long counts ((ends closing).trans ((if_pos there).trans (congrArg some (amid top bottom))))⟩,
        fun below => completes_countsOn long counts ((ends closing).trans (if_neg (by omega)))⟩
  · have counts := opens (.inl opening)
    rw [show Direction.opening = (s.part.window c).motion.dir by rw [opening]; rfl]
    refine ⟨fun mode => ?_, fun t mode target => ?_⟩
    · have ends := counts.express (dir := .opening) opening mode learned
      refine ⟨fun bottom => completes_countsOut long counts (ends.trans (if_pos (.inr ⟨rfl, bottom⟩))), fun above =>
        completes_countsOn long counts (ends.trans (if_neg ?_))⟩
      rintro (⟨e, -⟩ | ⟨-, bottom⟩)
      · cases e
      · omega
    · obtain ⟨-, ends⟩ := counts.target mode target learned
      exact ⟨fun there => ⟨fun soft => completes_countsOut long counts
          ((ends opening).trans ((if_pos there).trans (congrArg some (softly soft)))),
        fun top bottom => completes_countsOut long counts ((ends opening).trans ((if_pos there).trans (congrArg some (amid top bottom))))⟩,
        fun above => completes_countsOn long counts ((ends opening).trans (if_neg (by omega)))⟩
  · have counts := opens (.inr reversing)
    have ends := counts.reversal reversing aim
    rw [show Direction.opening = (s.part.window c).motion.dir by rw [reversing]; rfl]
    refine ⟨fun there => ?_, fun above => completes_countsOn long counts (ends.trans (if_neg (by omega)))⟩
    refine (completes_countsOut long counts (ends.trans (if_pos there))).mono
      fun p ⟨window, stall, baseline, force, back, holders, _, heads, others⟩ => ?_
    exact ⟨window, stall, baseline, force, back, holders, fun _ _ n => absurd reversing n, heads, others⟩

end Sys2Proof.Machine
end

section
/-! Stalls and re-reference watches (R85 to R89). -/

namespace Sys2Proof.Machine

/-! ### The pinch lockout -/

set_option Elab.async false in -- the declarations above are finished first: this bounds the memory of the one text
/-- What clearing the lockout leaves. -/
theorem Part.clearPinchLockout_clears (p : Part) (c : Corner) (k : LockoutCause) :
    (∀ x, (p.clearPinchLockout c k).window x = if x = c then { p.window c with pinchLockout := false } else p.window x) ∧
      Part.Within (.windows :: rowAreas) p (p.clearPinchLockout c k) := by
  unfold Part.clearPinchLockout
  split
  · have row := ((p.setWindow c { p.window c with pinchLockout := false }).appendRow_does (lockoutClearedRow c k)).toWithin
    exact ⟨fun x => (row.window x (by decide)).trans (Part.setWindow_window ..),
      (Part.setWindow_within p c _).trans row (by decide) (by decide)⟩
  · rename_i clear
    refine ⟨fun x => ?_, .refl _ p⟩
    split
    · subst_vars
      rw [Bool.not_eq_true] at clear
      rw [← clear]
    · rfl

/-! ### A stall at an end -/

/-- A window that stalls at an end, no learn running: its position corrected, it stops with END. -/
theorem Part.stallEnd_stops {p : Part} {c : Corner} (free : (p.monitor c).learn = none) (pos : Nat) (clears : Bool) :
    let w := { p.window c with position := pos }.stopped .atEnd p.clock false
    let q := p.stallEnd c pos clears
    (∀ x, q.window x = if x = c then { w with pinchLockout := !clears && w.pinchLockout } else p.window x) ∧
      (∀ x, q.monitor x = if x = c then (p.monitor c).stopped else p.monitor x) ∧
      q.holders = (p.holders.filter fun h => decide (h.actuator ≠ .window c)) ∧ q.waiting = p.waiting ∧
      ((p.window c).mover = some .doorSwitch ∨ (p.window c).mover = some .masterSwitch ∨ (p.window c).motion = .reversing →
        q.heads = p.heads) := by
  have first := Part.setWindow_within p c { p.window c with position := pos }
  have own := (Part.setWindow_window p c c { p.window c with position := pos }).trans (if_pos rfl)
  have others (x : Corner) (h : x ≠ c) := (Part.setWindow_window p c x { p.window c with position := pos }).trans (if_neg h)
  have e : p.stallEnd c pos clears = if clears then ((p.setWindow c { p.window c with position := pos }).stopAndTell c .atEnd
    true).clearPinchLockout c .manualTop else (p.setWindow c { p.window c with position := pos }).stopAndTell c .atEnd true := rfl
  generalize p.setWindow c { p.window c with position := pos } = q at first own others e
  have monitors (x : Corner) : q.monitor x = p.monitor x := first.monitor x (by decide)
  have clock : q.clock = p.clock := first.clock
  obtain ⟨window, monitor, holders, waiting, -, silent, -⟩ := Part.stopAndTell_stops (p := q) (c := c) (by rw [monitors]; exact free)
    .atEnd true
  generalize q.stopAndTell c .atEnd true = r at window monitor holders waiting silent e
  obtain ⟨cleared, within⟩ := r.clearPinchLockout_clears c .manualTop
  dsimp only
  rw [own, clock] at window
  rw [own] at silent
  rw [e]
  cases clears with
  | false =>
    refine ⟨fun x => ?_, fun x => ?_, ?_, waiting.trans (first.waiting (by decide)), fun h => (silent h).trans (first.heads (by decide))⟩
    · refine (window x).trans ?_
      split
      · rfl
      · exact others x ‹_›
    · rw [if_neg (by decide), monitor x, monitors, monitors]
    · rw [if_neg (by decide), holders, first.holders (by decide)]
  | true =>
    rw [if_pos rfl]
    refine ⟨fun x => ?_, fun x => ?_, ?_, (within.waiting (by decide)).trans (waiting.trans (first.waiting (by decide))),
      fun h => (within.heads (by decide)).trans ((silent h).trans (first.heads (by decide)))⟩
    · rw [cleared x, window c, if_pos rfl, window x]
      split
      · rfl
      · exact others x ‹_›
    · rw [within.monitor x (by decide), monitor x, monitors, monitors]
    · rw [within.holders (by decide), holders, first.holders (by decide)]

/-! ### A stall between the ends -/

/-- A LEARNED window's stall between the ends, where no mover is told: STALL, and UNLEARNED. -/
theorem Part.stallUnlearn_stops {p : Part} {c : Corner} (free : (p.monitor c).learn = none)
    (silent : (p.window c).mover = some .doorSwitch ∨ (p.window c).mover = some .masterSwitch ∨ (p.window c).motion = .reversing) :
    let q := p.stallUnlearn c
    (∀ x, q.window x = if x = c then { (p.window c).stopped .stall p.clock false with learned := false } else p.window x) ∧
      (∀ x, q.monitor x = if x = c then (p.monitor c).stopped else p.monitor x) ∧
      q.holders = (p.holders.filter fun h => decide (h.actuator ≠ .window c)) ∧ q.waiting = p.waiting ∧ q.heads = p.heads := by
  have window (x : Corner) := p.stopWindow_window c x .stall
  have monitor (x : Corner) := p.stopWindow_monitor c x .stall
  have heads := p.stopWindow_heads c .stall
  have holders := p.stopWindow_holders c .stall
  have waiting := p.stopWindow_waiting c .stall
  rw [free] at window
  have e : p.stallUnlearn c = (((p.stopWindow c .stall).unlearn c).appendRow (unlearnedRow c
      (((p.stopWindow c .stall).unlearn c).window c).position)).tellStop c
        (if (p.window c).motion = .reversing then none else (p.window c).mover) .stall true := rfl
  generalize p.stopWindow c .stall = q at window monitor heads holders waiting e
  have marks := ((q.setWindow c { q.window c with learned := false }).markDirty_does (.window c)).toWithin
  have own (x : Corner) : (q.unlearn c).window x = if x = c then { q.window c with learned := false } else q.window x :=
    (marks.window x (by decide)).trans (Part.setWindow_window ..)
  have row := ((q.unlearn c).appendRow_does (unlearnedRow c ((q.unlearn c).window c).position)).toWithin
  have rest : Part.Within (.windows :: .begun :: .store :: rowAreas) q
      ((q.unlearn c).appendRow (unlearnedRow c ((q.unlearn c).window c).position)) :=
    ((q.unlearn_does c).toWithin).trans row (by decide) (by decide)
  have learn : (((q.unlearn c).appendRow (unlearnedRow c ((q.unlearn c).window c).position)).monitor c).learn = none := by
    rw [rest.monitor c (by decide), monitor, if_pos rfl]
    exact free
  obtain ⟨-, -, told⟩ := Part.tellMover_free learn (if (p.window c).motion = .reversing then none else (p.window c).mover)
    StopReason.stall.outcome StopReason.stall.entry (some .stall) true
  have told : p.stallUnlearn c = (q.unlearn c).appendRow (unlearnedRow c ((q.unlearn c).window c).position) := by
    rw [e]
    refine told ?_
    split
    · exact .inl rfl
    · rename_i n
      exact .inr (silent.elim .inl fun h => h.elim .inr fun h => absurd h n)
  dsimp only
  rw [told]
  refine ⟨fun x => ?_, fun x => (rest.monitor x (by decide)).trans (monitor x), (rest.holders (by decide)).trans holders,
    (rest.waiting (by decide)).trans waiting, (rest.heads (by decide)).trans heads⟩
  rw [row.window x (by decide), own x, window c, if_pos rfl, window x]
  split <;> rfl

/-! ### Which stall it is -/

theorem Part.stallExpiry_free {p : Part} {c : Corner} (isDue : due (p.monitor c).stallAt p.clock = true)
    (driven : (p.window c).motion ≠ .stopped) (free : (p.monitor c).learn = none) :
    p.stallExpiry c = if (p.window c).learned then p.stallLearned c else p.stallUnlearned c := by
  have drives : (p.window c).driven = true := decide_eq_true driven
  unfold Part.stallExpiry
  dsimp only
  rw [isDue, drives, Bool.and_self, if_pos rfl, free]

theorem Part.stallLearned_closing {p : Part} {c : Corner} (closing : (p.window c).motion = .closing) :
    p.stallLearned c = if (p.window c).travel ≤ (p.window c).position + 20 then
        p.stallEnd c (p.window c).travel (decide ((p.window c).mode = some .manual))
      else if (p.window c).inPinchZone p.cfg then p.pinch c .stall else p.stallUnlearn c := by
  unfold Part.stallLearned
  dsimp only
  rw [closing]

theorem Part.stallLearned_opening {p : Part} {c : Corner} (open_ : (p.window c).motion = .opening ∨ (p.window c).motion = .reversing) :
    p.stallLearned c = if (p.window c).position ≤ 20 then p.stallEnd c 0 false else p.stallUnlearn c := by
  unfold Part.stallLearned
  dsimp only
  rcases open_ with m | m <;> rw [m]

/-- The stall of an UNLEARNED window: it stops with STALL; a close by a switch, with a travel, starts the watch. -/
theorem Part.stallUnlearned_stops {p : Part} {c : Corner} (free : (p.monitor c).learn = none) :
    ∃ q, p.Stops q c .stall ∧
      ((p.window c).motion ≠ .closing → p.stallUnlearned c = q) ∧
      (∀ sw : Switch, sw.window = c → (p.window c).motion = .closing → (p.window c).travel ≠ 0 →
        (p.window c).mover = some (Switch.mover sw) →
        p.stallUnlearned c = q.setMonitor c { q.monitor c with watch := some ⟨sw, p.clock + 500⟩ }) := by
  refine ⟨p.stopAndTell c .stall true, Part.stopAndTell_stops free .stall true, fun n => ?_, fun sw own closing travels mover => ?_⟩
  · unfold Part.stallUnlearned
    dsimp only
    rw [if_neg fun h => n h.1]
  · have switch : ((p.window c).mover.bind (Mover.switch c)) = some sw := by
      rw [mover]
      subst own
      cases sw <;> rfl
    unfold Part.stallUnlearned
    dsimp only
    rw [if_pos ⟨closing, travels⟩, switch]

end Sys2Proof.Machine
end

section
/-! What a stall leaves, by the position (R85 to R89). -/

namespace Sys2Proof.Machine

/-- A stall that stops its window and tells no mover. -/
structure Part.Stalls (p q : Part) (c : Corner) (v : WindowRec) : Prop where
  window : ∀ x, q.window x = if x = c then v else p.window x
  stallAt : (q.monitor c).stallAt = none
  holders : q.holders = p.holders.filter fun h => decide (h.actuator ≠ .window c)
  waiting : q.waiting = p.waiting
  heads : q.heads = p.heads

/-- What such a stall leaves, where nothing waits. -/
theorem completes_stalls {s : State} {c : Corner} {v : WindowRec} {r : StopReason} {q : Part} (noneWaits : s.part.waiting = [])
    (e : s.part.stallExpiry c = q) (h : s.part.Stalls q c v) (motion : v.motion = .stopped) (stop : v.lastStop = some r)
    (travel : v.travel = (s.part.window c).travel) (flag : v.movingFlag = false) {post : Part → Prop}
    (done : q.window c = v → ((q.window c).motion = .stopped ∧ (q.window c).lastStop = some r ∧
      (q.window c).travel = (s.part.window c).travel ∧ (q.window c).movingFlag = false ∧ (q.monitor c).stallAt = none ∧
      (∀ x, x ∈ q.holders ↔ x ∈ s.part.holders ∧ x.actuator ≠ .window c) ∧ q.heads = s.part.heads ∧
      ∀ x, x ≠ c → q.window x = s.part.window x) → post q) : Completes (.stallExpiry c) s post := by
  refine (completes_run (f := settle (·.stallExpiry c)) rfl).2 ?_
  rw [settle_noneWaits (f := (·.stallExpiry c)) (by rw [e]; exact h.waiting.trans noneWaits), e]
  have own := (h.window c).trans (if_pos rfl)
  refine done own ⟨by rw [own]; exact motion, by rw [own]; exact stop, by rw [own]; exact travel, by rw [own]; exact flag, h.stallAt,
    fun x => ?_, h.heads, fun x hx => (h.window x).trans (if_neg hx)⟩
  rw [h.holders]
  simp

section
variable {p : Part} {c : Corner} (free : (p.monitor c).learn = none)
  (silent : (p.window c).mover = some .doorSwitch ∨ (p.window c).mover = some .masterSwitch ∨ (p.window c).motion = .reversing)
include free silent

theorem Part.stallEnd_stalls (pos : Nat) (clears : Bool) : p.Stalls (p.stallEnd c pos clears) c
    { ({ p.window c with position := pos } : WindowRec).stopped .atEnd p.clock false with
      pinchLockout := !clears && (p.window c).pinchLockout } := by
  obtain ⟨window, monitor, holders, waiting, heads⟩ := Part.stallEnd_stops free pos clears
  exact ⟨window, by rw [monitor, if_pos rfl]; rfl, holders, waiting, heads silent⟩

theorem Part.stallUnlearn_stalls :
    p.Stalls (p.stallUnlearn c) c { (p.window c).stopped .stall p.clock false with learned := false } := by
  obtain ⟨window, monitor, holders, waiting, heads⟩ := Part.stallUnlearn_stops free silent
  exact ⟨window, by rw [monitor, if_pos rfl]; rfl, holders, waiting, heads⟩

omit free in
theorem Part.Stops.stalls {q : Part} {r : StopReason} (h : p.Stops q c r) : p.Stalls q c ((p.window c).stopped r p.clock false) :=
  ⟨h.window, by rw [h.monitor c, if_pos rfl]; rfl, h.holders, h.waiting, h.heads silent⟩

end

/-- The re-reference watch expires with its switch still UP (R89). -/
theorem Part.watchExpiry_due {p : Part} {c : Corner} {k : Watch} (h : (p.monitor c).watch = some k) (isDue : k.expiry ≤ p.clock) :
    (Stage.dir (levelStage (p.input (.switch k.switch)).level) = some .closing →
      (p.watchExpiry c).window c = { p.window c with position := (p.window c).travel, learned := true, pinchLockout := false } ∧
      ((p.watchExpiry c).monitor c).watch = none) ∧
    (Stage.dir (levelStage (p.input (.switch k.switch)).level) ≠ some .closing →
      p.watchExpiry c = p.setMonitor c { p.monitor c with watch := none }) := by
  have input : (p.endWatch c).input (.switch k.switch) = p.input (.switch k.switch) := rfl
  have e : p.watchExpiry c = if Stage.dir (levelStage (p.input (.switch k.switch)).level) = some .closing then
      ((((p.endWatch c).setWindow c { p.window c with position := (p.window c).travel, learned := true }).clearPinchLockout c
        .reReferenced).appendRow (reReferencedRow c (p.window c).travel)).markDirty (.window c)
      else p.endWatch c := by
    unfold Part.watchExpiry
    rw [h]
    exact if_neg (by omega)
  refine ⟨fun up => ?_, fun down => e.trans (if_neg down)⟩
  rw [e, if_pos up]
  have own : ((p.endWatch c).setWindow c { p.window c with position := (p.window c).travel, learned := true }).window c =
      { p.window c with position := (p.window c).travel, learned := true } := (Part.setWindow_window ..).trans (if_pos rfl)
  have watch : (((p.endWatch c).setWindow c { p.window c with position := (p.window c).travel, learned := true }).monitor c).watch =
      none := congrArg MonitorRec.watch ((Part.setMonitor_monitor p c c _).trans (if_pos rfl))
  generalize (p.endWatch c).setWindow c { p.window c with position := (p.window c).travel, learned := true } = q at own watch
  obtain ⟨cleared, within⟩ := q.clearPinchLockout_clears c .reReferenced
  have rest := ((q.clearPinchLockout c .reReferenced).appendRow_does (reReferencedRow c (p.window c).travel)).toWithin.trans
    (Part.markDirty_does _ (.window c)).toWithin (M := .begun :: .store :: rowAreas) (by decide) (by decide)
  refine ⟨?_, ?_⟩
  · rw [rest.window c (by decide), cleared c, if_pos rfl, own]
  · rw [rest.monitor c (by decide), within.monitor c (by decide), watch]

end Sys2Proof.Machine
end

section
/-! Stalls judged by the position (R85 to R89). -/

namespace Sys2Proof.Machine

theorem Switch.mover_switch (sw : Switch) : Switch.mover sw = .doorSwitch ∨ Switch.mover sw = .masterSwitch := by
  cases sw
  · exact .inr rfl
  · exact .inl rfl

set_option Elab.async false in -- the declarations above are finished first: this bounds the memory of the one text
/-- A pinch of a window whose mover is a switch, as its stall finds it (R86). -/
theorem Part.pinch_silent {p : Part} {c : Corner} (free : (p.monitor c).learn = none)
    (silent : (p.window c).mover = some .doorSwitch ∨ (p.window c).mover = some .masterSwitch) (found : PinchFound) :
    (p.pinch c found).window c = WindowRec.pinched { p.window c with lastStop := some .pinch } p.clock p.cfg.rampTime ∧
      (p.pinch c found).monitor c = (p.monitor c).pinched p.clock ((p.window c).position - p.cfg.reversalDistance)
        (pinchHistory (p.monitor c) (p.window c) p.clock) ∧
      (p.pinch c found).heads = p.heads ∧ Part.Within (.operation :: orderAreas ++ startAreas) p (p.pinch c found) := by
  obtain ⟨told, -, heads, tells⟩ := Part.pinchTold_free free
  obtain ⟨window, monitor, rest⟩ := p.pinch_fields c found
  refine ⟨?_, ?_, (rest.heads (by decide)).trans (heads silent), tells.trans rest (by decide) (by decide)⟩
  · rw [window c, if_pos rfl, told c, if_pos rfl]
  · rw [monitor, tells.monitor c (by decide)]

/-- Settles O45: each stall is one of the five of R86 to R88, whose effects are stated above. -/
theorem stallsAreJudgedByPosition : Obligations.StallsAreJudgedByPosition := by
  unfold Obligations.StallsAreJudgedByPosition
  intro s c sw own
  dsimp only
  refine ⟨fun isDue free none => ⟨fun mode mover => ?_, fun reversing => ?_⟩, fun k watch isDue => ⟨fun up => ?_, fun down => ?_⟩⟩
  · have silent : (s.part.window c).mover = some .doorSwitch ∨ (s.part.window c).mover = some .masterSwitch := by
      rw [mover]
      exact (Switch.mover_switch sw).imp (congrArg some) (congrArg some)
    have told := silent.imp_right (Or.inl (b := (s.part.window c).motion = .reversing))
    have learnedStall (learned : (s.part.window c).learned = true) (driven : (s.part.window c).motion ≠ .stopped) :=
      (Part.stallExpiry_free isDue driven free).trans (if_pos learned)
    have unlearnedStall (learned : (s.part.window c).learned = false) (driven : (s.part.window c).motion ≠ .stopped) :=
      (Part.stallExpiry_free isDue driven free).trans (if_neg (by rw [learned]; decide))
    refine ⟨fun learned closing => ?_, fun learned opening => ?_, fun unlearned opening => ?_, fun unlearned closing travels => ?_⟩
    · have judged := (learnedStall learned (by rw [closing]; nofun)).trans (Part.stallLearned_closing closing)
      refine ⟨fun near => ?_, fun far zone low => ?_, fun far out => ?_⟩
      · refine completes_stalls none (judged.trans (if_pos near)) (Part.stallEnd_stalls free told _ _) rfl rfl rfl rfl fun at_ stops =>
          ⟨stops, ?_, ?_, ?_⟩
        · rw [at_]
          exact Nat.min_self _
        · rw [at_]
          exact learned
        · rw [at_, mode]
          rfl
      · refine (completes_run (f := settle (·.stallExpiry c)) rfl).2 ?_
        have pinches := (judged.trans (if_neg (by omega))).trans (if_pos (WindowRec.inPinchZone_iff.2 ⟨zone, low⟩))
        obtain ⟨window, monitor, heads, within⟩ := Part.pinch_silent free silent .stall
        rw [settle_within (f := (·.stallExpiry c)) (pinches ▸ within), pinches, window, monitor]
        refine ⟨rfl, rfl, rfl, rfl, learned, rfl, ?_, within.holders (by decide), heads⟩
        show pinchHistory (s.part.monitor c) (s.part.window c) s.part.clock = _
        rw [pinchHistory, if_pos mode]
        rfl
      · have outside : ¬ (s.part.window c).inPinchZone s.part.cfg = true := fun h => by
          obtain ⟨zone, -⟩ := WindowRec.inPinchZone_iff.1 h
          omega
        refine completes_stalls none ((judged.trans (if_neg (by omega))).trans (if_neg outside)) (Part.stallUnlearn_stalls free told)
          rfl rfl rfl rfl fun at_ stops => ⟨stops, ?_, ?_⟩
        · rw [at_]
        · rw [at_]
          exact Nat.min_eq_left (by omega)
    · have judged := (learnedStall learned (by rw [opening]; nofun)).trans (Part.stallLearned_opening (.inl opening))
      refine ⟨fun near => ?_, fun far => ?_⟩
      · refine completes_stalls none (judged.trans (if_pos near)) (Part.stallEnd_stalls free told _ _) rfl rfl rfl rfl fun at_ stops =>
          ⟨stops, ?_, ?_⟩
        · rw [at_]
          exact Nat.zero_min (s.part.window c).travel
        · rw [at_]
          exact learned
      · refine completes_stalls none (judged.trans (if_neg (by omega))) (Part.stallUnlearn_stalls free told) rfl rfl rfl rfl
          fun at_ stops => ⟨stops, ?_⟩
        rw [at_]
    · obtain ⟨q, stopped, plain, -⟩ := Part.stallUnlearned_stops free
      refine completes_stalls none ((unlearnedStall unlearned (by rw [opening]; nofun)).trans (plain (by rw [opening]; nofun)))
        (stopped.stalls told) rfl rfl rfl rfl fun at_ stops => ⟨stops, ?_, ?_⟩
      · rw [at_]
        exact unlearned
      · rw [stopped.monitor c, if_pos rfl]
        rfl
    · obtain ⟨q, stopped, -, watched⟩ := Part.stallUnlearned_stops free
      have mon (m : MonitorRec) : (q.setMonitor c m).monitor c = m := (Part.setMonitor_monitor ..).trans (if_pos rfl)
      have stalls := stopped.stalls told
      refine completes_stalls none ((unlearnedStall unlearned (by rw [closing]; nofun)).trans (watched sw own closing travels mover))
        ⟨stalls.window, ?_, stalls.holders, stalls.waiting, stalls.heads⟩ rfl rfl rfl rfl fun at_ stops => ⟨stops, ?_, ?_⟩
      · rw [mon]
        exact stalls.stallAt
      · rw [at_]
        exact unlearned
      · rw [mon]
  · have told : (s.part.window c).mover = some .doorSwitch ∨ (s.part.window c).mover = some .masterSwitch ∨
        (s.part.window c).motion = .reversing := .inr (.inr reversing)
    have driven : (s.part.window c).motion ≠ .stopped := by rw [reversing]; nofun
    refine ⟨fun learned near => ?_, fun h => ?_⟩
    · have judged := ((Part.stallExpiry_free isDue driven free).trans (if_pos learned)).trans
        ((Part.stallLearned_opening (.inr reversing)).trans (if_pos near))
      obtain ⟨-, monitor, -⟩ := Part.stallEnd_stops free 0 false
      refine completes_stalls none judged (Part.stallEnd_stalls free told _ _) rfl rfl rfl rfl fun at_ stops => ⟨stops, ?_, ?_, ?_⟩
      · rw [at_]
        exact Nat.zero_min (s.part.window c).travel
      · rw [at_]
        exact learned
      · rw [monitor c, if_pos rfl]
        rfl
    · cases learned : (s.part.window c).learned with
      | true =>
        have far : 20 < (s.part.window c).position := h.resolve_left (by rw [learned]; decide)
        have judged := ((Part.stallExpiry_free isDue driven free).trans (if_pos learned)).trans
          ((Part.stallLearned_opening (.inr reversing)).trans (if_neg (by omega)))
        obtain ⟨-, monitor, -⟩ := Part.stallUnlearn_stops free told
        refine completes_stalls none judged (Part.stallUnlearn_stalls free told) rfl rfl rfl rfl fun at_ stops => ⟨stops, ?_, ?_⟩
        · rw [at_]
        · rw [monitor c, if_pos rfl]
          rfl
      | false =>
        obtain ⟨q, stopped, plain, -⟩ := Part.stallUnlearned_stops free
        have judged := ((Part.stallExpiry_free isDue driven free).trans (if_neg (by rw [learned]; decide))).trans
          (plain (by rw [reversing]; nofun))
        refine completes_stalls none judged (stopped.stalls told) rfl rfl rfl rfl fun at_ stops => ⟨stops, ?_, ?_⟩
        · rw [at_]
          exact learned
        · rw [stopped.monitor c, if_pos rfl]
          rfl
  · refine (completes_run (f := (·.watchExpiry c)) rfl).2 ?_
    obtain ⟨window, monitor⟩ := (Part.watchExpiry_due watch isDue).1 up
    exact ⟨by rw [window], by rw [window], by rw [window], monitor⟩
  · exact run_becomes (f := (·.watchExpiry c)) ((Part.watchExpiry_due watch isDue).2 down)

end Sys2Proof.Machine
end

section
/-! The end of a learn, and its two stalls (R92, R93, R169). -/

namespace Sys2Proof.Machine

/-! ### The end of a learn -/

set_option Elab.async false in -- the declarations above are finished first: this bounds the memory of the one text
theorem Part.closeLearn_monitor (p : Part) (c x : Corner) (l : Learn) (o : Option OrderOutcome) (n : Option Nat) :
    (p.closeLearn c l o n).monitor x = if x = c then { p.monitor c with learn := none } else p.monitor x := by
  unfold Part.closeLearn
  dsimp only
  split
  · exact Part.setMonitor_monitor ..
  · exact ((Part.appendRow_does _ _).toWithin.monitor x (by decide)).trans (Part.setMonitor_monitor ..)

/-- What the end of a learn leaves. -/
theorem Part.endLearn_ends {p : Part} {c : Corner} {l : Learn} (h : (p.monitor c).learn = some l) (o : OrderOutcome)
    (n : Option Nat) (clamp : Bool) :
    let q := p.endLearn c o n clamp
    (∀ x, q.window x = if x = c ∧ clamp = true then
        { p.window c with position := min (p.window c).position (p.window c).travel } else p.window x) ∧
      (∀ x, q.monitor x = if x = c then { p.monitor c with learn := none } else p.monitor x) ∧
      (∀ k, q.head k = if k = l.slot then { p.head l.slot with state := .done, code := BitVec.ofNat 8 o.code } else p.head k) ∧
      Part.Within tellAreas p q := by
  have close := (p.closeLearn_does c l (some o) n).toWithin
  have monitor (x : Corner) := p.closeLearn_monitor c x l (some o) n
  have ended (a b : Word) := ((p.closeLearn c l (some o) n).orderDone_does l.slot o a b).toWithin
  have head (a b : Word) (k : Slot) := (p.closeLearn c l (some o) n).orderDone_head l.slot k o a b
  have e : p.endLearn c o n clamp = if clamp then ((p.closeLearn c l (some o) n).orderDone l.slot o
      (packWord [codeField 3 l.phase.ctorIdx, positionOrAbsent n]) (packWord [positionField (p.window c).position])).clampPosition c
      else (p.closeLearn c l (some o) n).orderDone l.slot o (packWord [codeField 3 l.phase.ctorIdx, positionOrAbsent n])
        (packWord [positionField (p.window c).position]) := by
    unfold Part.endLearn
    rw [h]
  have within := (p.endLearn_does c o n clamp).toWithin
  dsimp only
  generalize packWord [codeField 3 l.phase.ctorIdx, positionOrAbsent n] = a at e
  generalize packWord [positionField (p.window c).position] = b at e
  have ended := ended a b
  have head := head a b
  generalize (p.closeLearn c l (some o) n).orderDone l.slot o a b = q at e ended head
  have window (x : Corner) : q.window x = p.window x := (ended.window x (by decide)).trans (close.window x (by decide))
  have heads (k : Slot) : (p.closeLearn c l (some o) n).head k = p.head k := close.head k (by decide)
  have mon (x : Corner) := (ended.monitor x (by decide)).trans (monitor x)
  cases clamp with
  | false =>
    rw [if_neg Bool.false_ne_true] at e
    rw [e]
    refine ⟨fun x => by simpa using window x, mon, fun k => (head k).trans ?_, e ▸ within⟩
    rw [heads, heads]
  | true =>
    rw [if_pos rfl] at e
    have clamps := (q.clampPosition_does c).toWithin
    rw [e]
    refine ⟨fun x => ?_, fun x => (clamps.monitor x (by decide)).trans (mon x), fun k => ?_, e ▸ within⟩
    · rw [Part.clampPosition_window, window c, window x]
      simp
    · rw [clamps.head k (by decide), head k, heads, heads]

/-- A learn's move stopped and the learn ended. -/
theorem Part.learnStops {p : Part} {c : Corner} {l : Learn} (h : (p.monitor c).learn = some l) (r : StopReason) (o : OrderOutcome)
    (n : Option Nat) :
    let q := (p.stopWindow c r).endLearn c o n true
    (∀ x, q.window x = if x = c then { (p.window c).stopped r p.clock true with
        position := min (p.window c).position (p.window c).travel } else p.window x) ∧
      (q.monitor c).learn = none ∧
      (∀ k, q.head k = if k = l.slot then { p.head l.slot with state := .done, code := BitVec.ofNat 8 o.code } else p.head k) ∧
      q.holders = (p.holders.filter fun h => decide (h.actuator ≠ .window c)) ∧ q.waiting = p.waiting := by
  have window (x : Corner) := p.stopWindow_window c x r
  have monitor := (p.stopWindow_monitor c c r).trans (if_pos rfl)
  have heads := p.stopWindow_heads c r
  have holders := p.stopWindow_holders c r
  have waiting := p.stopWindow_waiting c r
  rw [h] at window
  generalize p.stopWindow c r = q at window monitor heads holders waiting
  obtain ⟨ended, closed, done, within⟩ := Part.endLearn_ends (p := q) (c := c) (l := l) (by rw [monitor]; exact h) o n true
  dsimp only
  refine ⟨fun x => ?_, ?_, fun k => ?_, (within.holders (by decide)).trans holders, (within.waiting (by decide)).trans waiting⟩
  · rw [ended x, window c, if_pos rfl, window x]
    by_cases hx : x = c
    · rw [if_pos ⟨hx, rfl⟩, if_pos hx]
      rfl
    · rw [if_neg fun e => hx e.1, if_neg hx, if_neg hx]
  · rw [closed c, if_pos rfl]
  · rw [done k, Part.head, Part.head, heads]
    rfl

/-! ### The stall of a phase -/

theorem Part.stallExpiry_learn {p : Part} {c : Corner} {l : Learn} (isDue : due (p.monitor c).stallAt p.clock = true)
    (h : (p.monitor c).learn = some l) :
    ((p.window c).motion = .opening → p.stallExpiry c = p.learnTurn c l) ∧
      ((p.window c).motion = .closing → p.stallExpiry c = p.learnMeasured c) := by
  refine ⟨fun motion => ?_, fun motion => ?_⟩
  all_goals
    have drives : (p.window c).driven = true := by simp [WindowRec.driven, motion]
    unfold Part.stallExpiry
    dsimp only
    rw [isDue, drives, Bool.and_self, if_pos rfl, h]
    dsimp only
    rw [motion]

end Sys2Proof.Machine
end

section
/-! The pulses of a learn (R92, R93). -/

namespace Sys2Proof.Machine

/-- A learn whose order moves its window in MANUAL, the window UNLEARNED. -/
structure Part.Learns (p : Part) (c : Corner) (l : Learn) : Prop where
  learn : (p.monitor c).learn = some l
  mover : (p.window c).mover = some (.order l.slot)
  mode : (p.window c).mode = some .manual
  unlearned : (p.window c).learned = false

set_option Elab.async false in -- the declarations above are finished first: this bounds the memory of the one text
/-- A learn's period is judged by the absolute limit (R78). -/
theorem Part.Learns.pinchTest {p : Part} {c : Corner} {l : Learn} (h : p.Learns c l) (closing : (p.window c).motion = .closing)
    (now t : Nat) : ((p.pulsedAt c now).pinchTest c (now - t)).isSome = true ↔ 100 * p.cfg.absoluteLimit < now - t := by
  obtain ⟨window, -, -, within⟩ := p.pulsedAt_fields c now
  have own := (window c).trans (if_pos rfl)
  have cfg : (p.pulsedAt c now).cfg = p.cfg := within.cfg (by decide)
  rw [Part.pinchTest_table (by rw [own]; exact closing), own, cfg]
  have bare : ((p.window c).counted now (p.monitor c).learn.isSome).learned = false := h.unlearned
  rw [bare, Nat.mul_comm]
  simp

/-- The window as a pulse counts in a learn: no upper bound holds (R92). -/
theorem Part.Learns.counted {p : Part} {c : Corner} {l : Learn} (h : p.Learns c l) (now : Nat) :
    ((p.window c).motion = .opening → (p.window c).counted now (p.monitor c).learn.isSome =
      { p.window c with position := (p.window c).position - 1, lastPulse := some now }) ∧
    ((p.window c).motion = .closing → (p.window c).counted now (p.monitor c).learn.isSome =
      { p.window c with position := (p.window c).position + 1, lastPulse := some now }) := by
  rw [h.learn]
  exact ⟨fun m => WindowRec.counted_at (by rw [m]; rfl) now, fun m => WindowRec.counted_at (by rw [m]; rfl) now⟩

/-- A pulse of a learn that is no pinch: it counts, or beyond 4400 the learn fails. -/
theorem Part.Learns.pulse {p : Part} {c : Corner} {l : Learn} {high us : Nat} (h : p.Learns c l) (long : 200 ≤ high)
    (motion : (p.window c).motion = .opening ∨ (p.window c).motion = .closing)
    (clear : ∀ t, (p.window c).lastPulse = some t →
      (p.pulsedAt c (p.clock * 1000 + us)).pinchTest c (p.clock * 1000 + us - t) = none) :
    let q := p.pulseSound c (p.clock * 1000 + us)
    (l.count < 4400 → p.hallPulse c high us = q) ∧
      (4400 ≤ l.count → p.hallPulse c high us = (q.stopWindow c .stall).endLearn c .learnFailed none true) := by
  have driven : (p.window c).motion ≠ .stopped := by
    rcases motion with m | m <;> rw [m] <;> nofun
  obtain ⟨window, -, -, -⟩ := p.pulseSound_fields c (p.clock * 1000 + us)
  have own := (window c).trans (if_pos rfl)
  have overrun : (p.pulseSound c (p.clock * 1000 + us)).learnOverrun c = decide (4400 < l.count + 1) := by
    rw [Part.learnOverrun, Part.pulseSound_learn, h.learn]
    rfl
  dsimp only
  rw [Part.hallPulse_sound long driven clear]
  refine ⟨fun few => Part.pulseEnds_not (overrun.trans (decide_eq_false (by omega))) (Part.countedEnd_manual ?_ ?_), fun many => ?_⟩
  · rw [own]
    exact motion
  · rw [own]
    exact h.mode
  · exact if_pos (overrun.trans (decide_eq_true (by omega)))

/-- A pinch in a learn: the window reverses and the learn ends PINCH, its position not cut (R93; log 29). -/
theorem Part.Learns.pinches {p : Part} {c : Corner} {l : Learn} {high us t : Nat} (h : p.Learns c l) (long : 200 ≤ high)
    (closing : (p.window c).motion = .closing) (last : (p.window c).lastPulse = some t)
    (late : 100 * p.cfg.absoluteLimit < p.clock * 1000 + us - t) :
    let q := p.hallPulse c high us
    (∀ x, q.window x = if x = c then WindowRec.pinched { p.window c with
        position := (p.window c).position + 1
        lastPulse := some (p.clock * 1000 + us)
        lastStop := some .pinch } p.clock p.cfg.rampTime else p.window x) ∧
      (q.monitor c).learn = none ∧
      (q.monitor c).reversalTarget = some ((p.window c).position + 1 - p.cfg.reversalDistance) ∧
      (∀ k, q.head k = if k = l.slot then { p.head l.slot with state := .done, code := BitVec.ofNat 8 OrderOutcome.pinch.code }
        else p.head k) ∧
      q.holders = p.holders ∧ q.waiting = p.waiting := by
  obtain ⟨f, hf⟩ := Option.isSome_iff_exists.1 ((h.pinchTest closing _ t).2 late)
  have pulse : p.hallPulse c high us = (p.pulsedAt c (p.clock * 1000 + us)).pinch c f := by
    rw [Part.hallPulse_driven long (by rw [closing]; nofun), last, Option.map_some, Option.bind_some, hf]
  obtain ⟨window, monitor, -, within⟩ := p.pulsedAt_fields c (p.clock * 1000 + us)
  have own := ((window c).trans (if_pos rfl)).trans ((h.counted _).2 closing)
  have mon := (monitor c).trans (if_pos rfl)
  dsimp only
  rw [pulse]
  generalize p.pulsedAt c (p.clock * 1000 + us) = q at window own mon within
  have clock : q.clock = p.clock := within.clock
  have cfg : q.cfg = p.cfg := within.cfg (by decide)
  have learn : (q.monitor c).learn = some { l with count := l.count + 1 } := by
    rw [mon, MonitorRec.counted, h.learn]
    rfl
  have row := (q.appendRow_does (stoppedRow c .pinch (q.window c).mover (q.window c).position)).toWithin
  have told : q.pinchTold c = ((q.appendRow (stoppedRow c .pinch (q.window c).mover (q.window c).position)).setWindow c
      { q.window c with lastStop := some .pinch }).endLearn c .pinch none false := by
    have learnOf : ((q.appendRow (stoppedRow c .pinch (q.window c).mover (q.window c).position)).setWindow c
        { q.window c with lastStop := some .pinch }).learnOf c (.order l.slot) = some { l with count := l.count + 1 } := by
      have same : ((q.appendRow (stoppedRow c .pinch (q.window c).mover (q.window c).position)).setWindow c
        { q.window c with lastStop := some .pinch }).monitor c = q.monitor c := row.monitor c (by decide)
      rw [Part.learnOf, same, learn]
      exact if_pos rfl
    have mover : (q.window c).mover = some (.order l.slot) := by rw [own]; exact h.mover
    unfold Part.pinchTold Part.tellStop
    rw [mover]
    rw [mover] at learnOf
    simp only [Part.tellMover, learnOf]
    rfl
  let r := (q.appendRow (stoppedRow c .pinch (q.window c).mover (q.window c).position)).setWindow c
    { q.window c with lastStop := some .pinch }
  have first : Part.Within (.windows :: rowAreas) q r := row.trans (Part.setWindow_within _ c _) (by decide) (by decide)
  have rWindow (x : Corner) : r.window x = if x = c then { q.window c with lastStop := some .pinch } else q.window x := by
    refine (Part.setWindow_window ..).trans ?_
    split
    · rfl
    · exact row.window x (by decide)
  obtain ⟨ended, closed, done, rest⟩ := Part.endLearn_ends (p := r) (c := c) (l := { l with count := l.count + 1 })
    (by rw [first.monitor c (by decide)]; exact learn) .pinch none false
  rw [show r.endLearn c .pinch none false = q.pinchTold c from told.symm] at ended closed done rest
  obtain ⟨after, monAfter, last⟩ := q.pinch_fields c f
  have toldWindow (x : Corner) : (q.pinchTold c).window x = r.window x := by
    rw [ended x, if_neg (by simp)]
  refine ⟨fun x => ?_, ?_, ?_, fun k => ?_, ?_, ?_⟩
  · rw [after x, toldWindow, toldWindow, rWindow, if_pos rfl, rWindow, clock, cfg, own, window x]
    split <;> rfl
  · rw [monAfter]
    show ((q.pinchTold c).monitor c).learn = none
    rw [closed c, if_pos rfl]
  · rw [monAfter, own, cfg]
    rfl
  · rw [last.head k (by decide), done k]
    have heads : r.heads = p.heads := (first.heads (by decide)).trans (within.heads (by decide))
    rw [Part.head, Part.head, heads]
    rfl
  · exact (last.holders (by decide)).trans ((rest.holders (by decide)).trans ((first.holders (by decide)).trans (within.holders (by decide))))
  · exact (last.waiting (by decide)).trans ((rest.waiting (by decide)).trans ((first.waiting (by decide)).trans (within.waiting (by decide))))

end Sys2Proof.Machine
end

section
/-! A crash event beside a window it does not stop (R93, R168, R169). -/

namespace Sys2Proof.Machine

/-- What leaves the window `c` and its monitor alone, and asks for no grant. -/
structure Part.Aside (c : Corner) (p q : Part) : Prop where
  window : q.window c = p.window c
  monitor : q.monitor c = p.monitor c
  waiting : p.waiting = [] → q.waiting = []

theorem Part.Aside.refl (c : Corner) (p : Part) : Part.Aside c p p := ⟨rfl, rfl, id⟩

theorem Part.Aside.trans {c : Corner} {p q r : Part} (h : Part.Aside c p q) (k : Part.Aside c q r) : Part.Aside c p r :=
  ⟨k.window.trans h.window, k.monitor.trans h.monitor, fun e => k.waiting (h.waiting e)⟩

theorem Part.Within.aside {K : List Area} {p q : Part} {c : Corner} (w : Part.Within K p q) (h1 : .windows ∉ K := by decide)
    (h2 : .monitors ∉ K := by decide) (h3 : .waiting ∉ K := by decide) : Part.Aside c p q :=
  ⟨w.window c h1, w.monitor c h2, fun e => (w.waiting h3).trans e⟩

set_option Elab.async false in -- the declarations above are finished first: this bounds the memory of the one text
theorem Part.tellMover_aside (p : Part) {c x : Corner} (h : x ≠ c) (m : Option Mover) (o : OrderOutcome) (e : EntryReason)
    (stop : Option StopReason) (judge : Bool) : Part.Aside c p (p.tellMover x m o e stop judge) := by
  refine ⟨(p.tellMover_window x c m o e stop judge).2 h.symm, ?_, fun w => ((p.tellMover_does x m o e stop judge).waiting (by decide)).trans w⟩
  cases learn : (p.monitor x).learn with
  | none => exact (Part.tellMover_free learn m o e stop judge).1.monitor c (by decide)
  | some l =>
    unfold Part.tellMover
    split
    · rfl
    · rfl
    · rfl
    · exact (p.reportEnd_does x e judge).toWithin.monitor c (by decide)
    · split
      · obtain ⟨-, monitor, -⟩ := Part.endLearn_ends learn o none (decide (stop ≠ some .pinch))
        exact (monitor c).trans (if_neg h.symm)
      · exact (p.endMoveOrder_does x _ o stop).toWithin.monitor c (by decide)

theorem Part.stopAndTell_aside (p : Part) {c x : Corner} (h : x ≠ c) (r : StopReason) (judge : Bool) :
    Part.Aside c p (p.stopAndTell x r judge) := by
  refine Part.Aside.trans (q := p.stopWindow x r) ⟨?_, ?_, fun e => (p.stopWindow_waiting x r).trans e⟩ (Part.tellMover_aside _ h ..)
  · rw [Part.stopWindow_window, if_neg h.symm]
  · rw [Part.stopWindow_monitor, if_neg h.symm]

theorem Part.dropPending_aside (p : Part) {c x : Corner} (h : x ≠ c) : Part.Aside c p (p.dropPending x) := by
  refine ⟨(Part.setWindow_window ..).trans (if_neg h.symm), rfl, fun e => ?_⟩
  show p.waiting.filter _ = []
  rw [e]
  rfl

theorem Part.withdrawPending_aside (p : Part) {c x : Corner} (h : x ≠ c) (o : OrderOutcome) (e : EntryReason) (judge : Bool) :
    Part.Aside c p (p.withdrawPending x o e judge) := by
  unfold Part.withdrawPending
  split
  · exact .refl c p
  · exact (p.dropPending_aside h).trans (Part.tellMover_aside _ h ..)

theorem Part.markLearn_aside (p : Part) {c x : Corner} (h : x ≠ c) : Part.Aside c p (p.markLearn x) :=
  ⟨rfl, (Part.setMonitor_monitor ..).trans (if_neg h.symm), id⟩

/-- The crash event at another window. -/
theorem Part.windowCrash_aside (p : Part) {c x : Corner} (h : x ≠ c) : Part.Aside c p (p.windowCrash x) := by
  have stops (q : Part) : Part.Aside c q (if (q.window x).motion = .closing then q.stopAndTell x .crash false else q) := by
    split
    · exact q.stopAndTell_aside h _ _
    · exact .refl c q
  have mark := (p.markLearn_aside h).trans (stops (p.markLearn x))
  unfold Part.windowCrash
  dsimp only
  split
  · split
    · exact mark.trans (Part.withdrawPending_aside _ h ..)
    · exact mark
  · exact mark

/-- The crash event at a window that opens and has no pending command: its learn is marked, and that is all. -/
theorem Part.windowCrash_opening {p : Part} {c : Corner} (opening : (p.window c).motion ≠ .closing)
    (none : (p.window c).pending = none) : p.windowCrash c = p.markLearn c := by
  have same : (p.markLearn c).window c = p.window c := rfl
  unfold Part.windowCrash
  dsimp only
  rw [same, if_neg opening, same]
  split
  · rename_i h
    cases none.symm.trans h
  · rfl

end Sys2Proof.Machine
end

section
/-! The crash event beside a learn in phase DOWN (R93, R168, R169). -/

namespace Sys2Proof.Machine

theorem Part.Aside.foldl {α : Type} {c : Corner} {f : Part → α → Part} (h : ∀ q a, Part.Aside c q (f q a)) :
    ∀ (as : List α) (p : Part), Part.Aside c p (as.foldl f p)
  | [], p => .refl c p
  | a :: as, p => (h p a).trans (Part.Aside.foldl h as _)

set_option Elab.async false in -- the declarations above are finished first: this bounds the memory of the one text
/-- A step for each window that is `R` beside the window `c`: `c` sees its own step only. -/
theorem Part.eachCorner_around {R : Part → Part → Prop} (refl : ∀ p, R p p) (trans : ∀ {p q r}, R p q → R q r → R p r) {c : Corner}
    {f : Part → Corner → Part} (h : ∀ q x, x ≠ c → R q (f q x)) (p : Part) : ∃ q, R p q ∧ R (f q c) (p.eachCorner f) := by
  simp only [Part.eachCorner, Corner.all, List.foldl_cons, List.foldl_nil]
  cases c with
  | fl => exact ⟨p, refl p, trans (h _ .fr nofun) (trans (h _ .rl nofun) (h _ .rr nofun))⟩
  | fr => exact ⟨_, h p .fl nofun, trans (h _ .rl nofun) (h _ .rr nofun)⟩
  | rl => exact ⟨_, trans (h p .fl nofun) (h _ .fr nofun), h _ .rr nofun⟩
  | rr => exact ⟨_, trans (h p .fl nofun) (trans (h _ .fr nofun) (h _ .rl nofun)), refl _⟩

/-- An operation's entry in the crash event, beside a window with no pending command. -/
theorem Part.crashEntry_aside {p : Part} {c : Corner} (none : (p.window c).pending = none) (x : Corner) :
    Part.Aside c p (p.crashEntry x) := by
  have reports (q : Part) : Part.Aside c q (q.reportEnd x .crash false) := (q.reportEnd_unjudged x .crash).aside
  unfold Part.crashEntry
  split
  · exact .refl c p
  · dsimp only
    split
    · refine Part.Aside.trans ?_ (reports _)
      by_cases hx : x = c
      · subst hx
        unfold Part.withdrawPending
        rw [none]
        exact .refl ..
      · exact p.withdrawPending_aside hx ..
    · exact reports p

theorem Part.crashOperation_aside {p : Part} {c : Corner} (none : (p.window c).pending = none) :
    Part.Aside c p p.crashOperation := by
  have entries (as : List Corner) : ∀ q : Part, (q.window c).pending = .none → Part.Aside c q (as.foldl Part.crashEntry q) := by
    induction as with
    | nil => exact fun q _ => .refl c q
    | cons x as ih =>
      intro q h
      have first := Part.crashEntry_aside h x
      exact first.trans (ih _ (by rw [first.window]; exact h))
  unfold Part.crashOperation
  split
  · exact (entries _ p none).trans ((Part.endOperation_does _ .crash).toWithin.aside)
  · exact .refl c p

/-- The crash event at a window that opens and has no pending command: its learn is marked, and that is all. -/
theorem Part.crashEvent_opening {p : Part} {c : Corner} (opening : (p.window c).motion ≠ .closing)
    (none : (p.window c).pending = none) :
    p.crashEvent.window c = p.window c ∧ p.crashEvent.monitor c = (p.markLearn c).monitor c ∧
      (p.waiting = [] → p.crashEvent.waiting = []) := by
  unfold Part.crashEvent
  dsimp only
  generalize hq : (Part.appendRow _ _).crashDoors = q
  have first : Part.Aside c p q := by
    rw [← hq]
    refine Part.Aside.trans (q := { p with crash := { p.crash with latch := some p.nextLatch } }) ⟨rfl, rfl, id⟩ ?_
    exact (Part.appendRow_does _ _).toWithin.aside.trans (Part.crashDoors_does _).toWithin.aside
  obtain ⟨r, before, after⟩ := Part.eachCorner_around (.refl c) .trans (f := Part.windowCrash) (fun q x h => q.windowCrash_aside h) q
  have window : r.window c = p.window c := before.window.trans first.window
  rw [Part.windowCrash_opening (p := r) (by rw [window]; exact opening) (by rw [window]; exact none)] at after
  have ends := after.trans (Part.crashOperation_aside (by rw [after.window]; exact (congrArg _ window).trans none))
  have all := ends.trans (Part.Aside.foldl (f := Part.crashTracker) (fun q f => (q.crashTracker_does f).toWithin.aside) Fob.all _)
  refine ⟨all.window.trans window, all.monitor.trans ?_, fun w => all.waiting (before.waiting (first.waiting w))⟩
  have monitor : r.monitor c = p.monitor c := before.monitor.trans first.monitor
  simp only [Part.markLearn, Part.setMonitor_monitor, if_true, monitor]

/-- The crash event with a learn in phase DOWN: the learn goes on, and remembers it (R169). -/
theorem Part.crashExpiry_learns {p : Part} {c : Corner} {l : Learn} {a : Assertion} (learn : (p.monitor c).learn = some l)
    (down : l.phase = .down) (opening : (p.window c).motion = .opening) (none : (p.window c).pending = none)
    (nobody : p.waiting = []) (ha : p.crash.assertion = some a) (taken : a.taken = false) (old : a.since + 4 ≤ p.clock)
    (serves : p.doorService = true) (awake : p.state ≠ .doze) :
    p.crashExpiry.crashSet = true ∧ (p.crashExpiry.monitor c).learn = some { l with crash := true } ∧
      p.crashExpiry.window c = p.window c := by
  obtain ⟨window, monitor, waiting⟩ := Part.crashEvent_opening (p := p.markAssertion) (c := c) (fun e => by cases opening.symm.trans e) none
  have acts : p.crashExpiry = p.markAssertion.crashEvent := by
    unfold Part.crashExpiry
    rw [if_pos (by simp [serves, ha, Assertion.due, taken, old]), if_neg awake]
    exact settle_noneWaits (waiting nobody)
  have same : p.markAssertion.monitor c = p.monitor c := rfl
  rw [acts]
  refine ⟨?_, ?_, window⟩
  · simp only [Part.crashSet, p.markAssertion.crashEvent_within.crash (by decide), Option.isSome_some]
  · rw [monitor]
    simp [Part.markLearn, same, learn, down]

end Sys2Proof.Machine
end

section
/-! The phases of a learn (R92, R93, R168, R169). -/

namespace Sys2Proof.Machine

/-- A learn's order has ended with its move. -/
structure Part.LearnStopped (p q : Part) (c : Corner) (l : Learn) (o : OrderOutcome) (v : WindowRec) : Prop where
  window : ∀ x, q.window x = if x = c then v else p.window x
  learn : (q.monitor c).learn = none
  heads : ∀ k, q.head k = if k = l.slot then { p.head l.slot with state := .done, code := BitVec.ofNat 8 o.code } else p.head k
  holders : q.holders = p.holders.filter fun h => decide (h.actuator ≠ .window c)
  waiting : q.waiting = p.waiting

theorem Part.LearnStopped.stops {p q : Part} {c : Corner} {l : Learn} {o : OrderOutcome} {v : WindowRec} {r : StopReason}
    (h : p.LearnStopped q c l o v) (motion : v.motion = .stopped) (stop : v.lastStop = some r) (flag : v.movingFlag = false) :
    q.window c = v ∧ ((q.monitor c).learn = none ∧
      q.head l.slot = { p.head l.slot with state := .done, code := BitVec.ofNat 8 o.code } ∧
      (∀ k, k ≠ l.slot → q.head k = p.head k) ∧ ∀ x, x ≠ c → q.window x = p.window x) ∧
      (q.window c).motion = .stopped ∧ (q.window c).lastStop = some r ∧ (q.window c).movingFlag = false ∧
      ∀ h, h ∈ q.holders ↔ h ∈ p.holders ∧ h.actuator ≠ .window c := by
  have own := (h.window c).trans (if_pos rfl)
  refine ⟨own, ⟨h.learn, (h.heads _).trans (if_pos rfl), fun k hk => (h.heads k).trans (if_neg hk),
    fun x hx => (h.window x).trans (if_neg hx)⟩, by rw [own, motion], by rw [own, stop], by rw [own, flag], fun x => ?_⟩
  rw [h.holders]
  simp

set_option Elab.async false in -- the declarations above are finished first: this bounds the memory of the one text
/-- A learn's move stopped and the learn ended, its window set to `w` before. -/
theorem Part.learnStops_at {p q : Part} {c : Corner} {l : Learn} {w : WindowRec} (learn : (q.monitor c).learn = some l)
    (window : ∀ x, q.window x = if x = c then w else p.window x) (heads : q.heads = p.heads) (holders : q.holders = p.holders)
    (waiting : q.waiting = p.waiting) (r : StopReason) (o : OrderOutcome) (n : Option Nat) :
    p.LearnStopped ((q.stopWindow c r).endLearn c o n true) c l o
      { w.stopped r q.clock true with position := min w.position w.travel } := by
  obtain ⟨windows, ended, done, held, waits⟩ := Part.learnStops learn r o n
  refine ⟨fun x => ?_, ended, fun k => ?_, held.trans (by rw [holders]), waits.trans waiting⟩
  · rw [windows x, window c, if_pos rfl, window x]
    split <;> rfl
  · rw [done k, Part.head, Part.head, heads]
    rfl

/-- Phase UP begins in the grant of phase DOWN (R92). -/
theorem Part.learnTurn_turns {p : Part} {c : Corner} {l : Learn} (h : p.Learns c l) (calm : p.crashSet = false)
    (unmarked : l.crash = false) :
    let q := p.learnTurn c l
    (q.monitor c).learn = some ⟨.up, l.slot, 0, false⟩ ∧ (q.monitor c).stallAt = some (p.clock + 200) ∧
      (q.window c).motion = .closing ∧ (q.window c).mode = some .manual ∧ (q.window c).mover = some (.order l.slot) ∧
      (q.window c).position = 0 ∧ (q.window c).learned = false ∧ (q.window c).lastStop = some .atEnd ∧
      q.holders = p.holders ∧ q.heads = p.heads ∧ q.waiting = p.waiting := by
  have e : p.learnTurn c l = (((p.setWindow c { p.window c with position := 0 }).setMonitor c { p.monitor c with
      learn := some { l with phase := .up, count := 0 } }).halt c .atEnd).startMove c
        ⟨.closing, .manual, .order l.slot, none, false⟩ := by
    unfold Part.learnTurn
    exact if_neg (by simp [calm, unmarked])
  have before := ((Part.setWindow_within p c { p.window c with position := 0 }).trans
    (Part.setMonitor_acts _ c { p.monitor c with learn := some { l with phase := .up, count := 0 } }).toWithin
      (M := [.windows, .monitors]) (by decide) (by decide))
  have window : ((p.setWindow c { p.window c with position := 0 }).setMonitor c { p.monitor c with
      learn := some { l with phase := .up, count := 0 } }).window c = { p.window c with position := 0 } :=
    (Part.setWindow_window ..).trans (if_pos rfl)
  have monitor : ((p.setWindow c { p.window c with position := 0 }).setMonitor c { p.monitor c with
      learn := some { l with phase := .up, count := 0 } }).monitor c = { p.monitor c with
        learn := some { l with phase := .up, count := 0 } } := (Part.setMonitor_monitor ..).trans (if_pos rfl)
  dsimp only
  rw [e]
  generalize (p.setWindow c { p.window c with position := 0 }).setMonitor c { p.monitor c with
      learn := some { l with phase := .up, count := 0 } } = q at before window monitor
  have halts := (q.halt_acts c .atEnd).toWithin
  have stopped := (q.halt_window c c .atEnd).trans (if_pos rfl)
  have ended : (q.halt c .atEnd).monitor c = (q.monitor c).stopped := by
    simp only [Part.halt, Part.appendRow_fields, Part.setMonitor_monitor, if_true]
  generalize q.halt c .atEnd = r at halts stopped ended
  have starts := r.startMove_within c ⟨.closing, .manual, .order l.slot, none, false⟩
  have started := (r.startMove_window c c ⟨.closing, .manual, .order l.slot, none, false⟩).trans (if_pos rfl)
  have driving := (r.startMove_monitor c c ⟨.closing, .manual, .order l.slot, none, false⟩).trans (if_pos rfl)
  generalize r.startMove c ⟨.closing, .manual, .order l.slot, none, false⟩ = t at starts started driving
  have all := before.trans (halts.trans starts (M := startAreas) (by decide) (by decide)) (M := startAreas) (by decide) (by decide)
  have clock : r.clock = p.clock := halts.clock.trans before.clock
  rw [ended, monitor, clock] at driving
  rw [stopped, monitor, window] at started
  have learn : ∀ m : MonitorRec, (m.started ⟨.closing, .manual, .order l.slot, none, false⟩ p.clock).learn = m.learn ∧
      (m.started ⟨.closing, .manual, .order l.slot, none, false⟩ p.clock).stallAt = some (p.clock + 200) := by
    intro m
    unfold MonitorRec.started
    split <;> exact ⟨rfl, rfl⟩
  rw [driving, started]
  refine ⟨(learn _).1.trans ?_, (learn _).2, rfl, rfl, rfl, rfl, h.unlearned, rfl, all.holders (by decide), all.heads (by decide),
    all.waiting (by decide)⟩
  simp [MonitorRec.stopped, unmarked]

/-- The stall of phase UP between 1000 and 4000 counts. -/
theorem Part.learnMeasured_measures {p : Part} {c : Corner} {l : Learn} (h : p.Learns c l) (low : 1000 ≤ (p.window c).position)
    (high : (p.window c).position ≤ 4000) :
    p.LearnStopped (p.learnMeasured c) c l .completed
      { { p.window c with travel := (p.window c).position, learned := true }.stopped .atEnd p.clock true with
        pinchLockout := false } := by
  have e : p.learnMeasured c = (((p.setWindow c { p.window c with travel := (p.window c).position, learned := true }).stopWindow c
      .atEnd).clearPinchLockout c .learned).endLearn c .completed (some (p.window c).position) true := by
    unfold Part.learnMeasured
    exact if_pos ⟨low, high⟩
  have first := Part.setWindow_within p c { p.window c with travel := (p.window c).position, learned := true }
  have set (x : Corner) := Part.setWindow_window p c x { p.window c with travel := (p.window c).position, learned := true }
  rw [e]
  generalize p.setWindow c { p.window c with travel := (p.window c).position, learned := true } = q at first set
  have clock : q.clock = p.clock := first.clock
  have same : q.monitor c = p.monitor c := first.monitor c (by decide)
  have window (x : Corner) := q.stopWindow_window c x .atEnd
  have monitor := (q.stopWindow_monitor c c .atEnd).trans (if_pos rfl)
  have heads := q.stopWindow_heads c .atEnd
  have holders := q.stopWindow_holders c .atEnd
  have waiting := q.stopWindow_waiting c .atEnd
  rw [same, h.learn, set c, if_pos rfl, clock] at window
  generalize q.stopWindow c .atEnd = r at window monitor heads holders waiting
  obtain ⟨cleared, clears⟩ := r.clearPinchLockout_clears c .learned
  generalize r.clearPinchLockout c .learned = t at cleared clears
  obtain ⟨ended, closed, done, within⟩ := Part.endLearn_ends (p := t) (c := c) (l := l)
    (by rw [clears.monitor c (by decide), monitor, same]; exact h.learn) .completed (some (p.window c).position) true
  refine ⟨fun x => ?_, by rw [closed c, if_pos rfl], fun k => ?_, ?_, ?_⟩
  · rw [ended x, cleared c, if_pos rfl, window c, if_pos rfl, cleared x, window x, set x]
    by_cases hx : x = c
    · rw [if_pos ⟨hx, rfl⟩, if_pos hx]
      simp [WindowRec.stopped]
    · rw [if_neg fun e => hx e.1, if_neg hx, if_neg hx, if_neg hx, if_neg hx]
  · rw [done k, Part.head, Part.head, (clears.heads (by decide)).trans (heads.trans (first.heads (by decide)))]
    rfl
  · rw [within.holders (by decide), clears.holders (by decide), holders, first.holders (by decide)]
  · rw [within.waiting (by decide), clears.waiting (by decide), waiting, first.waiting (by decide)]

theorem Part.learnMeasured_fails {p : Part} {c : Corner} {l : Learn} (h : p.Learns c l)
    (outside : (p.window c).position < 1000 ∨ 4000 < (p.window c).position) :
    p.LearnStopped (p.learnMeasured c) c l .learnFailed
      { (p.window c).stopped .stall p.clock true with position := min (p.window c).position (p.window c).travel } := by
  have e : p.learnMeasured c = (p.stopWindow c .stall).endLearn c .learnFailed (some (p.window c).position) true := by
    unfold Part.learnMeasured
    exact if_neg (by omega)
  rw [e]
  exact Part.learnStops_at h.learn (fun x => by split <;> simp_all) rfl rfl rfl ..

theorem Part.learnTurn_crashes {p : Part} {c : Corner} {l : Learn} (h : p.Learns c l) (crash : p.crashSet = true ∨ l.crash = true) :
    p.LearnStopped (p.learnTurn c l) c l .crash
      { { p.window c with position := 0 }.stopped .atEnd p.clock true with position := min 0 (p.window c).travel } := by
  have e : p.learnTurn c l = ((p.setWindow c { p.window c with position := 0 }).stopWindow c .atEnd).endLearn c .crash none true := by
    unfold Part.learnTurn
    exact if_pos crash
  rw [e]
  exact Part.learnStops_at (q := p.setWindow c { p.window c with position := 0 }) h.learn (fun x => Part.setWindow_window ..)
    rfl rfl rfl ..

end Sys2Proof.Machine
end

section
/-! LEARN: its phases measure the travel (R92, R93, R168, R169). -/

namespace Sys2Proof.Machine

/-- A learn's period no longer than the absolute limit is no pinch. -/
theorem Part.Learns.clear {p : Part} {c : Corner} {l : Learn} (h : p.Learns c l) (closing : (p.window c).motion = .closing)
    {us : Nat} (short : ∀ t, (p.window c).lastPulse = some t → p.clock * 1000 + us - t ≤ 100 * p.cfg.absoluteLimit) (t : Nat)
    (last : (p.window c).lastPulse = some t) :
    (p.pulsedAt c (p.clock * 1000 + us)).pinchTest c (p.clock * 1000 + us - t) = none := by
  rw [← Option.not_isSome_iff_eq_none, h.pinchTest closing]
  exact Nat.not_lt.2 (short t last)

/-- An opening window's pulse is no pinch. -/
theorem Part.Learns.clear_opening {p : Part} {c : Corner} {l : Learn} (h : p.Learns c l) (opening : (p.window c).motion = .opening)
    (now t : Nat) : (p.pulsedAt c now).pinchTest c (now - t) = none := by
  obtain ⟨window, -⟩ := p.pulsedAt_fields c now
  refine Part.pinchTest_opening ?_ _
  rw [window c, if_pos rfl, (h.counted now).1 opening]
  exact fun e => by cases opening.symm.trans e

set_option Elab.async false in -- the declarations above are finished first: this bounds the memory of the one text
/-- A pulse that counts in a learn. -/
theorem Part.Learns.pulse_counts {p : Part} {c : Corner} {l : Learn} {high us : Nat} (h : p.Learns c l) (long : 200 ≤ high)
    (motion : (p.window c).motion = .opening ∨ (p.window c).motion = .closing)
    (clear : ∀ t, (p.window c).lastPulse = some t →
      (p.pulsedAt c (p.clock * 1000 + us)).pinchTest c (p.clock * 1000 + us - t) = none) (few : l.count < 4400) :
    let q := p.hallPulse c high us
    q.window c = (p.window c).counted (p.clock * 1000 + us) (p.monitor c).learn.isSome ∧
      (q.monitor c).learn = some { l with count := l.count + 1 } ∧ Part.Within [.windows, .monitors, .store] p q := by
  obtain ⟨window, -, -, within⟩ := p.pulseSound_fields c (p.clock * 1000 + us)
  dsimp only
  rw [(h.pulse long motion clear).1 few]
  refine ⟨(window c).trans (if_pos rfl), ?_, within⟩
  rw [Part.pulseSound_learn, h.learn]
  rfl

/-- A pulse beyond 4400 counts ends the learn. -/
theorem Part.Learns.pulse_fails {p : Part} {c : Corner} {l : Learn} {high us : Nat} (h : p.Learns c l) (long : 200 ≤ high)
    (motion : (p.window c).motion = .opening ∨ (p.window c).motion = .closing)
    (clear : ∀ t, (p.window c).lastPulse = some t →
      (p.pulsedAt c (p.clock * 1000 + us)).pinchTest c (p.clock * 1000 + us - t) = none) (many : 4400 ≤ l.count) :
    let w := (p.window c).counted (p.clock * 1000 + us) (p.monitor c).learn.isSome
    p.LearnStopped (p.hallPulse c high us) c l .learnFailed
      { w.stopped .stall p.clock true with position := min w.position w.travel } := by
  obtain ⟨window, -, -, within⟩ := p.pulseSound_fields c (p.clock * 1000 + us)
  have learn : ((p.pulseSound c (p.clock * 1000 + us)).monitor c).learn = some { l with count := l.count + 1 } := by
    rw [Part.pulseSound_learn, h.learn]
    rfl
  dsimp only
  rw [(h.pulse long motion clear).2 many]
  have ended := Part.learnStops_at learn window (within.heads (by decide)) (within.holders (by decide)) (within.waiting (by decide))
    .stall .learnFailed none
  rw [within.clock] at ended
  obtain ⟨windows, closed, heads, holders, waiting⟩ := ended
  exact ⟨windows, closed, heads, holders, waiting⟩

/-- Settles O46: each phase by its stall and its pulses (`learnTurn_turns`, `learnMeasured_measures`, `Learns.pulse`,
`Learns.pinches`), the crash by `crashExpiry_learns`; nothing waits, so nothing is granted after. -/
theorem learnPhasesMeasureTheTravel : Obligations.LearnPhasesMeasureTheTravel := by
  unfold Obligations.LearnPhasesMeasureTheTravel
  intro s c l high us long
  dsimp only
  intro learn noneWaits mover mode unlearned
  have h : s.part.Learns c l := ⟨learn, mover, mode, unlearned⟩
  have stall {q : Part} (e : s.part.stallExpiry c = q) (waits : q.waiting = s.part.waiting) {post : Part → Prop} (done : post q) :
      Completes (.stallExpiry c) s post := by
    refine (completes_run (f := settle (·.stallExpiry c)) rfl).2 ?_
    rw [settle_noneWaits (f := (·.stallExpiry c)) (by rw [e]; exact waits.trans noneWaits), e]
    exact done
  have pulse (waits : (s.part.hallPulse c high us).waiting = s.part.waiting) {post : Part → Prop}
      (done : post (s.part.hallPulse c high us)) : Completes (.hallPulse c high us) s post := by
    refine (completes_run (f := settle (·.hallPulse c high us)) rfl).2 ?_
    rw [settle_noneWaits (f := (·.hallPulse c high us)) (waits.trans noneWaits)]
    exact done
  refine ⟨fun down opening => ?_, fun up closing => ?_⟩
  · have clear := h.clear_opening opening
    have counted := (h.counted (s.part.clock * 1000 + us)).1 opening
    refine ⟨fun isDue calm unmarked => ?_, fun isDue crash => ?_, fun a ha taken old serves awake none => ?_, fun few => ?_,
      fun many => ?_⟩
    · obtain ⟨a1, a2, a3, a4, a5, a6, a7, a8, a9, a10, waiting⟩ := Part.learnTurn_turns h calm unmarked
      exact stall ((Part.stallExpiry_learn isDue learn).1 opening) waiting ⟨a1, a2, a3, a4, a5, a6, a7, a8, a9, a10⟩
    · have ended := Part.learnTurn_crashes h crash
      obtain ⟨own, stops⟩ := ended.stops rfl rfl rfl (r := .atEnd)
      exact stall ((Part.stallExpiry_learn isDue learn).1 opening) ended.waiting
        ⟨stops, by rw [own]; exact Nat.zero_min _, by rw [own]; exact unlearned⟩
    · exact (completes_run (f := (·.crashExpiry)) rfl).2
        (Part.crashExpiry_learns learn down opening none noneWaits ha taken old serves awake)
    · obtain ⟨window, goesOn, within⟩ := h.pulse_counts long (.inl opening) (fun t _ => clear _ t) few
      exact pulse (within.waiting (by decide)) ⟨window.trans counted, goesOn, within.heads (by decide)⟩
    · have ended := h.pulse_fails (us := us) long (.inl opening) (fun t _ => clear _ t) many
      rw [counted] at ended
      obtain ⟨own, stops⟩ := ended.stops rfl rfl rfl (r := .stall)
      exact pulse ended.waiting ⟨stops, by rw [own], by rw [own]; exact unlearned, by rw [own]; rfl⟩
  · have counted := (h.counted (s.part.clock * 1000 + us)).2 closing
    refine ⟨fun isDue low few => ?_, fun isDue outside => ?_, fun short few => ?_, fun short many => ?_, fun t last late => ?_⟩
    · have ended := Part.learnMeasured_measures h low few
      obtain ⟨own, stops⟩ := ended.stops rfl rfl rfl (r := .atEnd)
      exact stall ((Part.stallExpiry_learn isDue learn).2 closing) ended.waiting
        ⟨stops, by rw [own]; rfl, by rw [own]; rfl, by rw [own]; rfl, by rw [own]⟩
    · have ended := Part.learnMeasured_fails h outside
      obtain ⟨own, stops⟩ := ended.stops rfl rfl rfl (r := .stall)
      exact stall ((Part.stallExpiry_learn isDue learn).2 closing) ended.waiting
        ⟨stops, by rw [own]; rfl, by rw [own], by rw [own]; exact unlearned⟩
    · obtain ⟨window, goesOn, within⟩ := h.pulse_counts long (.inr closing) (h.clear closing short) few
      exact pulse (within.waiting (by decide)) ⟨window.trans counted, goesOn, within.heads (by decide)⟩
    · have ended := h.pulse_fails (us := us) long (.inr closing) (h.clear closing short) many
      rw [counted] at ended
      obtain ⟨own, stops⟩ := ended.stops rfl rfl rfl (r := .stall)
      exact pulse ended.waiting ⟨stops, by rw [own], by rw [own]; exact unlearned, by rw [own]; rfl⟩
    · obtain ⟨window, ended, target, heads, holders, waiting⟩ := h.pinches long closing last late
      have own := (window c).trans (if_pos rfl)
      refine pulse waiting ⟨⟨ended, (heads _).trans (if_pos rfl), fun k hk => (heads k).trans (if_neg hk),
        fun x hx => (window x).trans (if_neg hx)⟩, by rw [own]; rfl, by rw [own]; rfl, by rw [own]; exact unlearned, by rw [own]; rfl,
        target, holders⟩

end Sys2Proof.Machine
end

section
/-! The course of a search (R114 to R118). -/

namespace Sys2Proof.Machine

/-! ### The antennas in turn -/

/-- The first member of a list, sorted by `f`, that satisfies `P`. -/
theorem find?_first {α : Type} {f : α → Nat} {P : α → Bool} {b : α} (holds : P b = true) :
    ∀ {l : List α}, l.Pairwise (fun x y => f x < f y) → b ∈ l → (∀ x ∈ l, f x < f b → P x = false) → l.find? P = some b
  | [], _, mem, _ => absurd mem List.not_mem_nil
  | x :: l, sorted, mem, first => by
    rcases List.mem_cons.1 mem with rfl | mem
    · exact List.find?_cons_of_pos holds
    · have less : f x < f b := List.rel_of_pairwise_cons sorted mem
      rw [List.find?_cons_of_neg (by rw [first x List.mem_cons_self less]; exact Bool.false_ne_true)]
      exact find?_first holds sorted.of_cons mem fun y hy => first y (List.mem_cons_of_mem x hy)

theorem Antenna.all_sorted : Antenna.all.Pairwise fun x y => x.ctorIdx < y.ctorIdx := by decide

theorem Antenna.mem_all (a : Antenna) : a ∈ Antenna.all := by
  cases a <;> decide

set_option Elab.async false in -- the declarations above are finished first: this bounds the memory of the one text
/-- The antenna after `a` in a set (R115). -/
theorem nextAntenna_next {s : PerAntenna Bool} {a b : Antenna} (used : s.get b = true) (later : a.ctorIdx < b.ctorIdx)
    (first : ∀ x : Antenna, a.ctorIdx < x.ctorIdx → x.ctorIdx < b.ctorIdx → s.get x = false) : nextAntenna s (some a) = some b := by
  refine find?_first (f := Antenna.ctorIdx) (by simp [used, later]) Antenna.all_sorted (Antenna.mem_all b) fun x _ less => ?_
  by_cases h : a.ctorIdx < x.ctorIdx
  · simp [first x h less]
  · simp [h]

theorem nextAntenna_last {s : PerAntenna Bool} {a : Antenna} (last : ∀ x : Antenna, a.ctorIdx < x.ctorIdx → s.get x = false) :
    nextAntenna s (some a) = none := by
  refine List.find?_eq_none.2 fun x _ found => ?_
  obtain ⟨used, later⟩ := (Bool.and_eq_true _ _).mp found
  cases (last x (of_decide_eq_true later)).symm.trans used

/-- A search over a set that is not empty begins with a transmission. -/
theorem nextAntenna_first {s : PerAntenna Bool} (h : anyAntenna s = true) : ∃ a, nextAntenna s none = some a := by
  obtain ⟨x, mem, used⟩ := List.any_eq_true.1 h
  exact Option.isSome_iff_exists.1 (List.find?_isSome.2 ⟨x, mem, used⟩)

/-! ### The zone of a reply -/

theorem le_foldl_max {l : List Nat} : ∀ {i : Nat}, i ≤ l.foldl max i ∧ ∀ x ∈ l, x ≤ l.foldl max i := by
  induction l with
  | nil => exact ⟨le_rfl, nofun⟩
  | cons y l ih =>
    intro i
    obtain ⟨start, members⟩ := ih (i := max i y)
    refine ⟨(le_max_left i y).trans start, fun x hx => ?_⟩
    rcases List.mem_cons.1 hx with rfl | hx
    · exact (le_max_right i x).trans start
    · exact members x hx

theorem foldl_max_mem {l : List Nat} : ∀ {i : Nat}, l.foldl max i = i ∨ l.foldl max i ∈ l := by
  induction l with
  | nil => exact .inl rfl
  | cons y l ih =>
    intro i
    rcases ih (i := max i y) with e | e
    · rcases max_choice i y with m | m
      · exact .inl (e.trans m)
      · exact .inr (List.mem_cons.2 (.inl (e.trans m)))
    · exact .inr (List.mem_cons_of_mem y e)

/-- The members of a list of antennas with the greatest value. -/
theorem mem_greatest {l : List Antenna} {v : Antenna → Nat} {a : Antenna} :
    a ∈ l.filter (fun x => decide (v x = (l.map v).foldl max 0)) ↔ a ∈ l ∧ ∀ b ∈ l, v b ≤ v a := by
  obtain ⟨-, bound⟩ := le_foldl_max (l := l.map v) (i := 0)
  rw [List.mem_filter, decide_eq_true_iff]
  refine ⟨fun ⟨mem, e⟩ => ⟨mem, fun b hb => e ▸ bound _ (List.mem_map_of_mem hb)⟩, fun ⟨mem, most⟩ => ⟨mem, ?_⟩⟩
  rcases foldl_max_mem (l := l.map v) (i := 0) with e | e
  · have := bound _ (List.mem_map_of_mem mem)
    omega
  · obtain ⟨b, hb, e⟩ := List.mem_map.1 e
    exact le_antisymm (bound _ (List.mem_map_of_mem mem)) (e ▸ most b hb)

/-- The zone a list of equally strong antennas gives. -/
def commonZone : List Zone → Zone
  | [] => .nowhere
  | z :: zs => if zs.all fun x => decide (x = z) then z else .nowhere

/-- It is a zone other than NONE just where there are such antennas and all give it. -/
theorem commonZone_iff {l : List Zone} {z : Zone} (h : z ≠ .nowhere) : commonZone l = z ↔ (∃ x, x ∈ l) ∧ ∀ x ∈ l, x = z := by
  cases l with
  | nil => exact ⟨fun e => absurd e.symm h, fun ⟨⟨x, hx⟩, _⟩ => absurd hx List.not_mem_nil⟩
  | cons y ys =>
    have e : commonZone (y :: ys) = if ys.all fun x => decide (x = y) then y else .nowhere := rfl
    rw [e]
    by_cases same : (ys.all fun x => decide (x = y)) = true
    · rw [if_pos same]
      simp only [List.all_eq_true, decide_eq_true_iff] at same
      refine ⟨fun e => ⟨⟨y, List.mem_cons_self⟩, fun x hx => ?_⟩, fun ⟨_, all⟩ => all y List.mem_cons_self⟩
      rcases List.mem_cons.1 hx with rfl | hx
      · exact e
      · exact (same x hx).trans e
    · rw [if_neg same]
      refine ⟨fun e => absurd e.symm h, fun ⟨_, all⟩ => absurd ?_ same⟩
      simp only [List.all_eq_true, decide_eq_true_iff]
      exact fun x hx => (all x (List.mem_cons_of_mem y hx)).trans (all y List.mem_cons_self).symm

/-- An antenna outside the car. -/
theorem Antenna.mem_outer (a : Antenna) : a ∈ [Antenna.afl, .afr, .arl, .arr, .atg] ↔ a ≠ .acf ∧ a ≠ .acr := by
  cases a <;> decide

theorem antennaZone_outside {a : Antenna} (front : a ≠ .acf) (rear : a ≠ .acr) : antennaZone a ≠ .inside := by
  cases a with
  | acf => exact absurd rfl front
  | acr => exact absurd rfl rear
  | afl | afr | arl | arr | atg => decide

theorem zoneOf_judged (cfg : Config) (s : PerAntenna (BitVec 8)) : zoneJudged cfg s (zoneOf cfg s) := by
  let v := fun a => (s.get a).toNat
  let outer := [Antenna.afl, .afr, .arl, .arr, .atg].filter fun a => decide (cfg.outsideThreshold ≤ v a)
  let heard := fun a : Antenna => a ≠ .acf ∧ a ≠ .acr ∧ cfg.outsideThreshold ≤ v a
  have mem (a : Antenna) : a ∈ outer ↔ heard a := by
    rw [List.mem_filter, Antenna.mem_outer, decide_eq_true_iff, and_assoc]
  have zone : zoneOf cfg s = if cfg.insideThreshold ≤ v .acf ∨ cfg.insideThreshold ≤ v .acr then .inside
      else commonZone ((outer.filter fun a => decide (v a = (outer.map v).foldl max 0)).map antennaZone) := rfl
  have greatest (a : Antenna) : a ∈ outer.filter (fun a => decide (v a = (outer.map v).foldl max 0)) ↔
      heard a ∧ ∀ b, heard b → v b ≤ v a := by
    simp only [mem_greatest, mem]
  have gives {x : Zone} (h : x ≠ .nowhere) :
      commonZone ((outer.filter fun a => decide (v a = (outer.map v).foldl max 0)).map antennaZone) = x ↔
        (∃ a, heard a ∧ ∀ b, heard b → v b ≤ v a) ∧ ∀ a, (heard a ∧ ∀ b, heard b → v b ≤ v a) → antennaZone a = x := by
    simp only [commonZone_iff h, List.mem_map, ← greatest]
    exact ⟨fun ⟨⟨_, a, ha, _⟩, all⟩ => ⟨⟨a, ha⟩, fun a ha => all _ ⟨a, ha, rfl⟩⟩,
      fun ⟨⟨a, ha⟩, all⟩ => ⟨⟨_, a, ha, rfl⟩, fun x ⟨a, ha, e⟩ => e ▸ all a ha⟩⟩
  unfold zoneJudged
  dsimp only
  rw [zone]
  by_cases cabin : cfg.insideThreshold ≤ v .acf ∨ cfg.insideThreshold ≤ v .acr
  · rw [if_pos cabin]
    exact ⟨⟨fun _ => cabin, fun _ => rfl⟩, ⟨nofun, fun h => absurd cabin h.1⟩, ⟨nofun, fun h => absurd cabin h.1⟩,
      ⟨nofun, fun h => absurd cabin h.1⟩⟩
  · rw [if_neg cabin]
    refine ⟨⟨fun e => ?_, fun h => absurd h cabin⟩, ?_, ?_, ?_⟩
    · obtain ⟨⟨a, ⟨front, rear, within⟩, most⟩, all⟩ := (gives (x := .inside) (by decide)).1 e
      exact absurd (all a ⟨⟨front, rear, within⟩, most⟩) (antennaZone_outside front rear)
    all_goals exact (gives (by decide)).trans ⟨fun h => ⟨cabin, h⟩, fun h => h.2⟩

end Sys2Proof.Machine
end

section
/-! Searches run their antennas and reply slots, and take replies (R114 to R118, R125). -/

namespace Sys2Proof.Machine

/-- The first phase of a search. -/
def firstPhase (used : PerAntenna Bool) : SearchPhase × Nat :=
  match nextAntenna used none with
  | some a => (.transmit a, 14)
  | none => (.reply .f0, 10)

/-- The search of a request begun (R114). -/
def Part.flightOf (p : Part) (r : Request) : Flight :=
  ⟨r, p.usableSet r, p.clock, (firstPhase (p.usableSet r)).1, p.clock + (firstPhase (p.usableSet r)).2,
    Config.challenge p.locator.draws, PerFob.all .empty⟩

theorem Part.flightOf_starts (p : Part) (r : Request) : (p.flightOf r).request = r ∧ (p.flightOf r).since = p.clock ∧
    (∀ a, (p.flightOf r).used.get a = ((r.antennas.all fun x => x.get a) && !p.degraded.antennas.get a)) ∧
    ∀ i, ((p.flightOf r).results.get i).reply = .noReply := by
  refine ⟨rfl, rfl, fun a => PerAntenna.get_build _ a, fun i => ?_⟩
  exact congrArg FobResult.reply (PerFob.get_build (fun _ => FobResult.empty) i)

set_option Elab.async false in -- the declarations above are finished first: this bounds the memory of the one text
theorem Part.trySearch_starts {p : Part} {r : Request} {rest : List Request} (serves : p.state = .service)
    (free : p.locator.flight = none) (list : p.locator.list = r :: rest) (supply : p.supply.cls ≠ .critical) :
    p.trySearch = p.setLocator ⟨rest, some (p.flightOf r), p.locator.draws + 1⟩ := by
  have may : p.maySearch = true := by simp [Part.maySearch, Part.inService, Part.critical, serves, free, list, supply]
  unfold Part.trySearch
  rw [if_pos may]
  unfold Part.startSearch
  rw [list]
  rfl

/-! ### Phases -/

theorem Part.transmissionEnd_ends {p : Part} {f : Flight} {a : Antenna} (flight : p.locator.flight = some f)
    (phase : f.phase = .transmit a) (isDue : f.phaseEnd ≤ p.clock) :
    (∀ b, nextAntenna f.used (some a) = some b →
      p.transmissionEnd = p.setFlight (some { f with phase := .transmit b, phaseEnd := p.clock + 14 })) ∧
    (nextAntenna f.used (some a) = none →
      p.transmissionEnd = p.setFlight (some { f with phase := .reply .f0, phaseEnd := p.clock + 10 })) := by
  refine ⟨fun b h => ?_, fun h => ?_⟩
  all_goals
    unfold Part.transmissionEnd
    rw [flight]
    dsimp only
    rw [phase]
    dsimp only
    rw [if_neg (by omega), h]

theorem Fob.next_of_succ {i j : Fob} (h : i.ctorIdx + 1 = j.ctorIdx) : Fob.next i = some j := by
  cases i <;> cases j <;> simp_all [Fob.next, Fob.ctorIdx]

theorem Part.slotEnd_ends {p : Part} {f : Flight} {i j : Fob} (flight : p.locator.flight = some f) (phase : f.phase = .reply i)
    (isDue : f.phaseEnd ≤ p.clock) (next : Fob.next i = some j) :
    p.slotEnd = p.setFlight (some { f with phase := .reply j, phaseEnd := p.clock + 10 }) := by
  unfold Part.slotEnd
  rw [flight]
  dsimp only
  rw [phase]
  dsimp only
  rw [if_neg (by omega), next]

/-! ### Replies -/

/-- The strengths recorded for a reply (R117). -/
def Flight.heard (f : Flight) (r : Reply) : PerAntenna (BitVec 8) := .build fun a => if f.used.get a then r.strengths.get a else 0

/-- The result a reply gives (R117, R118). -/
def Part.resultOf (p : Part) (f : Flight) (r : Reply) : FobResult :=
  match r.check with
  | .pass => ⟨.pass, r.id, f.heard r, some (zoneOf p.cfg (f.heard r)), p.clock⟩
  | .fail => ⟨.fail, r.id, f.heard r, none, p.clock⟩

theorem Part.resultOf_fields (p : Part) (f : Flight) (r : Reply) :
    (p.resultOf f r).reply = (match r.check with | .pass => .pass | .fail => .fail) ∧ (p.resultOf f r).id = r.id ∧
      (p.resultOf f r).time = p.clock ∧
      (r.check = .pass → ∃ z, (p.resultOf f r).zone = some z ∧ zoneJudged p.cfg (p.resultOf f r).strengths z) ∧
      (r.check = .fail → (p.resultOf f r).zone = none) ∧
      ∀ a, (p.resultOf f r).strengths.get a = if f.used.get a then r.strengths.get a else 0 := by
  have heard (a : Antenna) : (f.heard r).get a = if f.used.get a then r.strengths.get a else 0 := PerAntenna.get_build _ a
  unfold Part.resultOf
  cases r.check with
  | pass => exact ⟨rfl, rfl, rfl, fun _ => ⟨_, rfl, zoneOf_judged ..⟩, nofun, heard⟩
  | fail => exact ⟨rfl, rfl, rfl, nofun, fun _ => rfl, heard⟩

/-- A search reply in a reply slot: the first of the slot's own fob is its result, another changes nothing. -/
theorem Part.takeReply_takes {p : Part} {f : Flight} {i : Fob} (r : Reply) (flight : p.locator.flight = some f)
    (phase : f.phase = .reply i) :
    let own := (p.fob i).keep.state ≠ .vacant ∧ (p.fob i).keep.id = r.id ∧ (f.results.get i).reply = .noReply
    (own → p.takeReply r = p.setFlight (some { f with results := f.results.set i (p.resultOf f r) })) ∧
      (¬ own → p.takeReply r = p) := by
  have e : p.takeReply r = if (p.fob i).keep.state = .vacant ∨ (p.fob i).keep.id ≠ r.id ∨ (f.results.get i).reply ≠ .noReply then p
      else p.setFlight (some { f with results := f.results.set i (p.resultOf f r) }) := by
    unfold Part.takeReply
    rw [flight]
    dsimp only
    rw [phase]
    rfl
  refine ⟨fun ⟨kept, id, first⟩ => e.trans (if_neg ?_), fun other => e.trans (if_pos ?_)⟩
  · rintro (h | h | h)
    · exact kept h
    · exact h id
    · exact h first
  · by_contra none
    exact other ⟨fun h => none (.inl h), by_contra fun h => none (.inr (.inl h)), by_contra fun h => none (.inr (.inr h))⟩

/-! ### LOCATE_FOB -/

/-- The request of a LOCATE_FOB order. -/
def Part.locateRequest (p : Part) (k : Slot) (w : Word) : Request :=
  ⟨.locate, none, some (.build fun a => bitAt w a.ctorIdx), [k], false, p.clock⟩

theorem Part.locateOrder_starts {p : Part} (k : Slot) {w : Word} (serves : p.state = .service) (receiver : p.degraded.receiver = false)
    (supply : p.supply.cls ≠ .critical) (list : p.locator.list = []) (free : p.locator.flight = none)
    (sound : anyAntenna (p.usableSet (p.locateRequest k w)) = true) :
    p.locateOrder k (.build fun a => bitAt w a.ctorIdx) =
      (p.orderTaken k).setLocator ⟨[], some (p.flightOf (p.locateRequest k w)), p.locator.draws + 1⟩ := by
  have locator : (p.orderTaken k).locator = p.locator := (p.orderTaken_does k).locator (by decide)
  have fault : p.searchFault ⟨.locate, none, some (.build fun a => bitAt w a.ctorIdx), [], false, p.clock⟩ = none := by
    unfold Part.searchFault
    rw [if_neg (by rw [receiver]; exact Bool.false_ne_true), if_neg (by simp [Part.critical, supply])]
    exact if_pos sound
  have slots : ∀ k : Slot, insertSlot [] k = [k] := by
    decide
  unfold Part.locateOrder Part.searchRequest
  dsimp only
  rw [fault]
  dsimp only
  rw [free, list, locator, list]
  simp only [Option.any_none, List.any_nil, Bool.false_eq_true, if_false, List.length_nil, List.nil_append]
  rw [if_neg (by omega)]
  have request : (⟨.locate, none, some (.build fun a => bitAt w a.ctorIdx), [], false, p.clock⟩ : Request).addSlot (some k) =
      p.locateRequest k w := by
    rw [Part.locateRequest, ← slots k]
    rfl
  have same : ((p.orderTaken k).setLocator ⟨[p.locateRequest k w], none, p.locator.draws⟩).flightOf (p.locateRequest k w) =
      p.flightOf (p.locateRequest k w) := by
    simp only [Part.flightOf, Part.usableSet, Part.soundAntenna, Part.setLocator_fields, Part.orderTaken_fields]
  rw [request, free]
  refine (Part.trySearch_starts (r := p.locateRequest k w) (rest := []) ?_ rfl rfl ?_).trans ?_
  · exact ((p.orderTaken_does k).state (by decide)).trans serves
  · exact fun e => supply ((congrArg Supply.cls ((p.orderTaken_does k).supply (by decide))).symm.trans e)
  · rw [same]
    rfl

theorem Part.locateOrder_within (p : Part) (k : Slot) (set : PerAntenna Bool) :
    Part.Within searchAreas p (p.serveOrder k (.locateFob set)) :=
  (p.searchRequest_does ⟨.locate, none, some set, [], false, p.clock⟩ (some k)).toWithin

/-- What the parameter of a LOCATE_FOB order reads. -/
theorem Part.Posted.readLocate {p q : Part} {h : OrderHead} {w : HostWord} (hq : Part.Posted p h .locateFob [w] q)
    (h0 : 0 < w.value.toNat) (h7 : w.value.toNat < 128) :
    q.readOrder h.slot .locateFob = some (.locateFob (.build fun a => bitAt w.value a.ctorIdx)) := by
  have mask : antennaMask w.value = some (.build fun a => bitAt w.value a.ctorIdx) := if_pos (by simp [maskInRange, h0, h7])
  have first : q.param h.slot 1 = w.value := hq.param 0 w rfl
  simp only [Part.readOrder, first, mask]
  rfl

/-- Settles O47: each phase's end by the next antenna or slot, a reply by `takeReply_takes`, LOCATE_FOB by `locateOrder_starts`. -/
theorem searchesRunTheirAntennasAndReplySlots : Obligations.SearchesRunTheirAntennasAndReplySlots := by
  unfold Obligations.SearchesRunTheirAntennasAndReplySlots
  refine ⟨fun s => ⟨fun r rest serves free list supply => ?_, fun f a flight phase isDue => ⟨fun b used later first => ?_, fun last => ?_⟩,
    fun f i j flight phase isDue next => ?_⟩, fun s r f flight => ⟨fun i phase kept id first => ?_, fun i phase other => ?_,
    fun a phase => ?_⟩, fun s h w hp hw h0 h7 receiver supply list free sound => ?_⟩
  · refine (completes_run (f := (·.trySearch)) rfl).2 ?_
    rw [Part.trySearch_starts serves free list supply]
    obtain ⟨request, since, used, results⟩ := s.part.flightOf_starts r
    exact ⟨rfl, _, rfl, request, since, used, results⟩
  · refine (completes_run (f := (·.transmissionEnd)) rfl).2 ?_
    rw [(Part.transmissionEnd_ends flight phase isDue).1 b (nextAntenna_next used later first)]
    rfl
  · refine (completes_run (f := (·.transmissionEnd)) rfl).2 ?_
    rw [(Part.transmissionEnd_ends flight phase isDue).2 (nextAntenna_last last)]
    rfl
  · refine (completes_run (f := (·.slotEnd)) rfl).2 ?_
    rw [Part.slotEnd_ends flight phase isDue (Fob.next_of_succ next)]
    exact ⟨rfl, rfl⟩
  · refine (completes_run (f := (·.takeReply r)) rfl).2 ?_
    rw [(Part.takeReply_takes r flight phase).1 ⟨kept, id, first⟩]
    obtain ⟨reply, own, time, pass, fail, heard⟩ := s.part.resultOf_fields f r
    have result : (f.results.set i (s.part.resultOf f r)).get i = s.part.resultOf f r := (PerFob.get_set ..).trans (if_pos rfl)
    refine ⟨rfl, _, rfl, rfl, rfl, ?_⟩
    dsimp only
    rw [result]
    exact ⟨reply, own, time, pass, fail, heard, fun j hj => (PerFob.get_set ..).trans (if_neg hj)⟩
  · refine run_unchanged (f := (·.takeReply r)) ((Part.takeReply_takes r flight phase).2 ?_)
    rintro ⟨kept, id, first⟩
    rcases other with h | h | h
    · exact kept h
    · exact h id
    · exact h first
  · refine run_unchanged (f := (·.takeReply r)) ?_
    unfold Part.takeReply
    rw [flight]
    dsimp only
    rw [phase]
  · refine completes_calmOrder (K := searchAreas) _ rfl hp rfl (by simpa using hw) (fun q hq => hq.readLocate h0 h7)
      (fun q _ => q.locateOrder_within _ _) fun q hq => ?_
    obtain ⟨-, serves, -⟩ := hp
    have degraded : q.degraded = s.part.degraded := hq.degraded (by decide)
    have locator : q.locator = s.part.locator := hq.locator (by decide)
    have used (a : Antenna) : (q.usableSet (q.locateRequest h.slot w.value)).get a =
        (w.value.getLsbD a.ctorIdx && !s.part.degraded.antennas.get a) := by
      rw [← degraded]
      exact (PerAntenna.get_build _ a).trans (congrArg (· && _) (PerAntenna.get_build _ a))
    have some : anyAntenna (q.usableSet (q.locateRequest h.slot w.value)) = true := by
      obtain ⟨a, named, works⟩ := sound
      exact List.any_eq_true.2 ⟨a, Antenna.mem_all a, by rw [used, named, works]; rfl⟩
    have starts : q.serveOrder h.slot (.locateFob (.build fun a => bitAt w.value a.ctorIdx)) = _ :=
      Part.locateOrder_starts h.slot ((hq.state (by decide)).trans serves) (by rw [degraded]; exact receiver)
        (by rw [hq.supply (by decide)]; exact supply) (by rw [locator]; exact list) (by rw [locator]; exact free) some
    have final := hq.final (M := searchAreas ++ burstAreas) (q.locateOrder_within h.slot (.build fun a => bitAt w.value a.ctorIdx))
    generalize q.serveOrder h.slot (.locateFob (.build fun a => bitAt w.value a.ctorIdx)) = r at starts final
    have head : r.head h.slot = { q.head h.slot with state := .taken } := by
      rw [starts]
      exact (q.orderTaken_head h.slot h.slot).trans (if_pos rfl)
    have locates : r.locator = ⟨[], .some (q.flightOf (q.locateRequest h.slot w.value)), q.locator.draws + 1⟩ := by rw [starts]; rfl
    have stands := hq.stands head
    have locates : (r.burstDone h.slot).locator = _ := locates
    obtain ⟨a, first⟩ := nextAntenna_first some
    have phase : firstPhase (q.usableSet (q.locateRequest h.slot w.value)) = (.transmit a, 14) := by
      unfold firstPhase
      rw [first]
    refine ⟨stands, by rw [locates], q.flightOf (q.locateRequest h.slot w.value), by rw [locates], rfl, rfl, rfl, hq.clock,
      ⟨a, congrArg Prod.fst phase⟩, ?_, used, (q.flightOf_starts _).2.2.2, final.doors (by decide), final.windows (by decide),
      final.begun (by decide)⟩
    exact congr (congrArg _ hq.clock) (congrArg Prod.snd phase)

end Sys2Proof.Machine
end

section
/-! A completed search settles the records (R117, R119, R132, R136). -/

namespace Sys2Proof.Machine

theorem Part.setAside_iff (p : Part) (res : PerFob FobResult) (i : Fob) :
    p.setAside res i = true ↔ (p.fob i).setsAside (res.get i) := decide_eq_true_iff

/-- One index settled: its own record, up to the begun commit, and no other (R119). -/
theorem Part.settleFob_settles (p : Part) (res : PerFob FobResult) (i : Fob) :
    ((p.fob i).setsAside (res.get i) → p.settleFob res i = p) ∧
      (¬ (p.fob i).setsAside (res.get i) → ((p.fob i).afterSearch (res.get i) p.clock).same ((p.settleFob res i).fob i)) ∧
      ∀ j, j ≠ i → (p.fob j).same ((p.settleFob res i).fob j) := by
  have aside := p.setAside_iff res i
  by_cases h : (p.fob i).setsAside (res.get i)
  · have e : p.settleFob res i = p := if_pos (aside.2 h)
    exact ⟨fun _ => e, fun n => absurd h n, fun j _ => by rw [e]; exact FobRec.same_refl _⟩
  · let r := (p.fob i).afterSearch (res.get i) p.clock
    let q := p.setFob i r
    let x := if r.keep.blocked && !(p.fob i).keep.blocked then q.appendRow (fobBlockedRow i r.keep.run) else q
    have e : p.settleFob res i = if r.keep = (p.fob i).keep then x else x.markDirty (.fob i) := if_neg fun a => h (aside.1 a)
    have rows : q.sameFobs x := by
      show q.sameFobs (ite ..)
      split
      · exact (q.appendRow_does _).fobs (by decide)
      · exact fun _ => FobRec.same_refl _
    have marks : x.sameFobs (p.settleFob res i) := by
      rw [e]
      split
      · exact fun _ => FobRec.same_refl _
      · exact (x.markDirty_does _).fobs (by decide)
    have set (j : Fob) : q.fob j = if j = i then r else p.fob j := Part.setFob_fob ..
    refine ⟨fun k => absurd k h, fun _ => ?_, fun j hj => ?_⟩
    · have own := FobRec.same_trans (rows i) (marks i)
      rw [set i, if_pos rfl] at own
      exact own
    · have other := FobRec.same_trans (rows j) (marks j)
      rw [set j, if_neg hj] at other
      exact other

theorem FobRec.same.setsAside {r r' : FobRec} (h : r.same r') (res : FobResult) : r'.setsAside res ↔ r.setsAside res := by
  obtain ⟨keep, -⟩ := h
  rw [FobRec.setsAside, FobRec.setsAside, keep]

/-- What a completion leaves of a record, the begun commit apart (R117, R119, R136). -/
theorem FobRec.afterSearch_fields {r x : FobRec} {res : FobResult} {now : Nat} (h : (r.afterSearch res now).same x) :
    let after := fun (k : FobKeep) (z : Zone) (seen : Option Nat) =>
      x.keep = k ∧ x.zone = z ∧ x.lastSeen = seen ∧ x.lastFrame = r.lastFrame ∧ x.tracker = r.tracker ∧
        x.waits.map (·.slot) = r.waits.map (·.slot) ∧ ∀ y, x.candidate = some y ↔ r.candidate = some y ∧ now - y.time ≤ 5000
    (res.reply = .noReply → after r.keep .nowhere r.lastSeen) ∧
      (res.reply = .pass → after { r.keep with run := 0 } (res.zone.getD .nowhere) (some res.time)) ∧
      (res.reply = .fail → after { r.keep with
        run := min 8 (r.keep.run + 1)
        blocked := r.keep.blocked || decide (7 ≤ r.keep.run) } .nowhere r.lastSeen) := by
  have candidate (y : Candidate) : (r.trimmed now).candidate = some y ↔ r.candidate = some y ∧ now - y.time ≤ 5000 := by
    simp [FobRec.trimmed, Option.filter_eq_some_iff]
  have full : decide (min 8 (r.keep.run + 1) = 8) = decide (7 ≤ r.keep.run) := decide_eq_decide.2 (by omega)
  obtain ⟨keep, zone, seen, cand, frame, tracker, waits⟩ := h
  unfold FobRec.afterSearch at keep zone seen cand frame tracker waits
  dsimp only
  refine ⟨fun e => ?_, fun e => ?_, fun e => ?_⟩
  all_goals
    rw [e] at keep zone seen cand frame tracker waits
    dsimp only at keep zone seen cand frame tracker waits
  · exact ⟨keep, zone, seen, frame, tracker, waits, fun y => by rw [cand]; exact candidate y⟩
  · exact ⟨keep, zone, seen, frame, tracker, waits, fun y => by rw [cand]; exact candidate y⟩
  · rw [full] at keep
    exact ⟨keep, zone, seen, frame, tracker, waits, fun y => by rw [cand]; exact candidate y⟩

/-- A step for each fob that keeps the other records, up to their begun commits: `i` sees its own step only. -/
theorem Part.eachFob_own {f : Part → Fob → Part} (other : ∀ (q : Part) (x i : Fob), i ≠ x → (q.fob i).same ((f q x).fob i))
    (clock : ∀ (q : Part) (x : Fob), (f q x).clock = q.clock) (p : Part) (i : Fob) :
    ∃ q : Part, (p.fob i).same (q.fob i) ∧ q.clock = p.clock ∧ ((f q i).fob i).same ((p.eachFob f).fob i) := by
  have keep (q : Part) (x : Fob) (h : i ≠ x) := other q x i h
  simp only [Part.eachFob, Fob.all, List.foldl_cons, List.foldl_nil]
  cases i with
  | f0 =>
    exact ⟨p, FobRec.same_refl _, rfl,
      FobRec.same_trans (keep _ .f1 (by decide)) (FobRec.same_trans (keep _ .f2 (by decide)) (keep _ .f3 (by decide)))⟩
  | f1 => exact ⟨_, keep p .f0 (by decide), clock .., FobRec.same_trans (keep _ .f2 (by decide)) (keep _ .f3 (by decide))⟩
  | f2 =>
    exact ⟨_, FobRec.same_trans (keep p .f0 (by decide)) (keep _ .f1 (by decide)), (clock ..).trans (clock ..), keep _ .f3 (by decide)⟩
  | f3 =>
    exact ⟨_, FobRec.same_trans (keep p .f0 (by decide)) (FobRec.same_trans (keep _ .f1 (by decide)) (keep _ .f2 (by decide))),
      (clock ..).trans ((clock ..).trans (clock ..)), FobRec.same_refl _⟩

set_option Elab.async false in -- the declarations above are finished first: this bounds the memory of the one text
/-- The records as a search settles them (R119). -/
def Part.settled (p : Part) (f : Flight) : Part := p.eachFob (Part.settleFob f.results)

theorem Part.settled_does (p : Part) (f : Flight) : Part.Does settleFobAreas p (p.settled f) :=
  p.eachFob_does (Part.settleFob_does _)

theorem Part.settled_fob (p : Part) (f : Flight) (i : Fob) :
    ((p.fob i).setsAside (f.results.get i) → (p.fob i).same ((p.settled f).fob i)) ∧
      (¬ (p.fob i).setsAside (f.results.get i) →
        ∃ r, (p.fob i).same r ∧ (r.afterSearch (f.results.get i) p.clock).same ((p.settled f).fob i)) := by
  obtain ⟨q, before, clock, after⟩ := p.eachFob_own (f := Part.settleFob f.results)
    (fun q x i h => (q.settleFob_settles f.results x).2.2 i h) (fun q x => (Part.settleFob_does _ q x).clock) i
  obtain ⟨set, own, -⟩ := q.settleFob_settles f.results i
  have aside := before.setsAside (f.results.get i)
  refine ⟨fun h => ?_, fun h => ⟨_, before, ?_⟩⟩
  · rw [set (aside.2 h)] at after
    exact FobRec.same_trans before after
  · rw [← clock]
    exact FobRec.same_trans (own (mt aside.1 h)) after

/-- A completed search, nothing listed behind it. -/
theorem Part.completeSearch_completes {p : Part} {f : Flight} (flight : p.locator.flight = some f) (phase : f.phase = .reply .f3)
    (isDue : f.phaseEnd ≤ p.clock) (list : p.locator.list = []) :
    p.completeSearch = ((p.settled f).applyResult f).setFlight none ∧ p.completeSearch.locator = ⟨[], none, p.locator.draws⟩ := by
  have locator : ((p.settled f).applyResult f).locator = p.locator :=
    ((Part.applyResult_does _ f).locator (by decide)).trans ((p.settled_does f).locator (by decide))
  have may : (((p.settled f).applyResult f).setFlight none).maySearch = false := by
    simp [Part.maySearch, Part.setFlight, locator, list]
  have e : p.completeSearch = ((p.settled f).applyResult f).setFlight none := by
    unfold Part.completeSearch
    rw [flight]
    dsimp only
    rw [if_pos ⟨phase, isDue⟩]
    exact if_neg (by rw [← Part.settled, may]; exact Bool.false_ne_true)
  refine ⟨e, e ▸ ?_⟩
  simp [Part.setFlight, locator, list]

/-- Settles O48: each index by `settled_fob`; the result, the end of the search and the grants after it keep the records. -/
theorem completedSearchesSettleTheRecords : Obligations.CompletedSearchesSettleTheRecords := by
  unfold Obligations.CompletedSearchesSettleTheRecords
  intro s f flight phase isDue list
  obtain ⟨e, locator⟩ := Part.completeSearch_completes flight phase isDue list
  have grants := settle_grants (·.completeSearch) s.part
  refine (completes_run (f := settle (·.completeSearch)) rfl).2 ⟨(grants.locator (by decide)).trans locator, fun i => ?_⟩
  have rest : ((s.part.settled f).fob i).same ((settle (·.completeSearch) s.part).fob i) := by
    refine FobRec.same_trans ((Part.applyResult_does (s.part.settled f) f).fobs (by decide) i) ?_
    have ended := grants.fobs (by decide) i
    rw [e] at ended
    exact ended
  generalize settle (·.completeSearch) s.part = p at rest
  obtain ⟨aside, own⟩ := s.part.settled_fob f i
  dsimp only
  refine ⟨fun h => FobRec.same_trans (aside h) rest, fun h => ?_, fun h => ?_, fun h => ?_⟩
  all_goals
    obtain ⟨r, same, after⟩ := own h
    obtain ⟨none, pass, fail⟩ := FobRec.afterSearch_fields (FobRec.same_trans after rest)
    obtain ⟨keep, -, seen, candidate, frame, tracker, waits⟩ := same
    simp only [keep, seen, candidate, frame, tracker, waits] at none pass fail
  · exact none
  · exact pass
  · exact fail

end Sys2Proof.Machine
end

section
/-! What a completed search finds, and its LOCK result (R119, R123). -/

namespace Sys2Proof.Machine

/-- A fob qualifies at completion just where its record did before (R119). -/
theorem Part.settled_qualifies (p : Part) (f : Flight) (i : Fob) :
    (p.settled f).qualifies f.results i = true ↔ (p.fob i).keep.state = .enrolled ∧ (p.fob i).keep.blocked = false ∧
      (p.fob i).keep.permitted = true ∧ (f.results.get i).reply = .pass ∧ (f.results.get i).id = (p.fob i).keep.id := by
  have split (q : Part) : q.qualifies f.results i = true ↔ (q.fob i).keep.state = .enrolled ∧ (f.results.get i).reply = .pass ∧
      (q.fob i).keep.blocked = false ∧ (q.fob i).keep.permitted = true ∧ ¬ (q.fob i).setsAside (f.results.get i) := by
    rw [← Part.setAside_iff]
    simp [Part.qualifies, and_assoc]
  rw [split]
  obtain ⟨aside, own⟩ := p.settled_fob f i
  by_cases set : (p.fob i).setsAside (f.results.get i)
  · have same := aside set
    have still : ((p.settled f).fob i).setsAside (f.results.get i) := (same.setsAside _).2 set
    refine ⟨fun ⟨_, _, _, _, n⟩ => absurd still n, fun ⟨enrolled, _, _, _, id⟩ => absurd set ?_⟩
    rintro (vacant | ⟨_, other⟩)
    · cases enrolled.symm.trans vacant
    · exact other id
  · obtain ⟨r, ⟨keep, -⟩, after⟩ := own set
    obtain ⟨-, pass, -⟩ := FobRec.afterSearch_fields after
    refine ⟨fun ⟨enrolled, reply, blocked, permitted, _⟩ => ?_, fun ⟨enrolled, blocked, permitted, reply, id⟩ => ?_⟩
    · obtain ⟨kept, -⟩ := pass reply
      rw [kept, keep] at enrolled blocked permitted
      refine ⟨enrolled, blocked, permitted, reply, by_contra fun other => set (.inr ⟨by rw [reply]; nofun, other⟩)⟩
    · obtain ⟨kept, -⟩ := pass reply
      refine ⟨by rw [kept, keep]; exact enrolled, reply, by rw [kept, keep]; exact blocked, by rw [kept, keep]; exact permitted, ?_⟩
      rintro (vacant | ⟨_, other⟩)
      · rw [kept, keep] at vacant
        cases enrolled.symm.trans vacant
      · rw [kept, keep] at other
        exact other id

/-- The finder of a search's result. -/
theorem Part.settled_finder (p : Part) (f : Flight) (zones : List Zone) :
    ((p.settled f).finder f.results zones).isSome = true ↔ ∃ i, ∃ z ∈ zones, (p.fob i).qualifiesIn (f.results.get i) z := by
  have mem (i : Fob) : i ∈ Fob.all := by cases i <;> decide
  unfold Part.finder
  rw [List.find?_isSome]
  simp only [Bool.and_eq_true, List.any_eq_true, decide_eq_true_iff, Part.settled_qualifies, FobRec.qualifiesIn]
  refine ⟨fun ⟨i, _, ⟨enrolled, blocked, permitted, reply, id⟩, z, hz, zone⟩ => ⟨i, z, hz, enrolled, blocked, permitted, reply, id, zone⟩,
    fun ⟨i, z, hz, enrolled, blocked, permitted, reply, id, zone⟩ =>
      ⟨i, mem i, ⟨enrolled, blocked, permitted, reply, id⟩, z, hz, zone⟩⟩

set_option Elab.async false in -- the declarations above are finished first: this bounds the memory of the one text
/-- A LOCK result (R123). -/
theorem Part.settled_lock {p : Part} {f : Flight} (lock : f.request.purpose = .lock) :
    let inside := ∃ i, (f.results.get i).reply = .pass ∧ (f.results.get i).zone = some .inside
    let q := (p.settled f).applyResult f
    (inside ∨ f.request.opened = true → q.doors = p.doors) ∧
      (¬ inside → f.request.opened = false → (∃ i z, (p.fob i).qualifiesIn (f.results.get i) z ∧ z ≠ .inside ∧ z ≠ .nowhere) →
        p.crashSet = false → ∀ d, (q.door d).lock = lockAfter .lock (p.door d)) := by
  have mem (i : Fob) : i ∈ Fob.all := by cases i <;> decide
  have within := (p.settled_does f).toWithin
  have doors : (p.settled f).doors = p.doors := within.doors (by decide)
  have found : (Fob.all.any fun i => decide ((f.results.get i).reply = .pass ∧ (f.results.get i).zone = some .inside)) = true ↔
      ∃ i, (f.results.get i).reply = .pass ∧ (f.results.get i).zone = some .inside := by
    simp only [List.any_eq_true, decide_eq_true_iff]
    exact ⟨fun ⟨i, _, h⟩ => ⟨i, h⟩, fun ⟨i, h⟩ => ⟨i, mem i, h⟩⟩
  have e : (p.settled f).applyResult f = (p.settled f).lockResult f.request f.results := by
    unfold Part.applyResult
    dsimp only
    rw [lock]
  have rows (r : Row) : ((p.settled f).appendRow r).doors = p.doors :=
    ((Part.appendRow_does _ r).toWithin.doors (by decide)).trans doors
  dsimp only
  rw [e]
  unfold Part.lockResult
  refine ⟨fun h => ?_, fun nobody shut outside clear d => ?_⟩
  · split
    · exact rows _
    · rename_i none
      rw [if_pos (h.resolve_left (mt found.2 none))]
      exact rows _
  · rw [if_neg (mt found.1 nobody), if_neg (by rw [shut]; exact Bool.false_ne_true)]
    obtain ⟨i, z, qualifies, inside, nowhere⟩ := outside
    have side : z ∈ [Zone.outLeft, .outRight, .outRear] := by
      cases z with
      | inside => exact absurd rfl inside
      | nowhere => exact absurd rfl nowhere
      | outLeft | outRight | outRear => decide
    obtain ⟨g, hg⟩ := Option.isSome_iff_exists.1 ((p.settled_finder f _).2 ⟨i, z, side, qualifies⟩)
    rw [hg]
    have row := ((p.settled f).appendRow_does (passedRow f.request g f.results)).toWithin
    have crash : ((p.settled f).appendRow (passedRow f.request g f.results)).crash = p.crash :=
      (row.crash (by decide)).trans (within.crash (by decide))
    have allowed : ((p.settled f).appendRow (passedRow f.request g f.results)).lockRefused .lock = false := by
      rw [Part.lockRefused, Part.crashSet, crash]
      exact (congrArg (· && _) clear).trans rfl
    refine (Part.lockAction_allDoors allowed (.passive .lock) d).trans ?_
    rw [Part.door, rows]
    rfl

/-- The LOCK results of a completed search, the grants after it included. -/
theorem completes_lockSearch {s : State} {f : Flight} (flight : s.part.locator.flight = some f) (phase : f.phase = .reply .f3)
    (isDue : f.phaseEnd ≤ s.part.clock) (lock : f.request.purpose = .lock) (list : s.part.locator.list = []) :
    let inside := ∃ i, (f.results.get i).reply = .pass ∧ (f.results.get i).zone = some .inside
    (inside ∨ f.request.opened = true → Completes .searchCompletion s fun p => p.doors = s.part.doors ∧
        p.locator.flight = none ∧ p.locator.list = []) ∧
      (¬ inside → f.request.opened = false →
        (∃ i z, (s.part.fob i).qualifiesIn (f.results.get i) z ∧ z ≠ .inside ∧ z ≠ .nowhere) → s.part.crashSet = false →
        Completes .searchCompletion s fun p => p.locator.flight = none ∧ ∀ d, (s.part.door d).ajar = .isClosed →
          (s.part.door d).lock = .unlocked → (p.door d).lock = .locked) := by
  obtain ⟨e, locator⟩ := Part.completeSearch_completes flight phase isDue list
  obtain ⟨held, locks⟩ := Part.settled_lock (p := s.part) lock
  have grants := (settle_grants (·.completeSearch) s.part).toWithin
  have doors : (settle (·.completeSearch) s.part).doors = ((s.part.settled f).applyResult f).doors := by
    refine (grants.doors (by decide)).trans ?_
    rw [e]
    rfl
  have ended : (settle (·.completeSearch) s.part).locator = ⟨[], none, s.part.locator.draws⟩ :=
    (grants.locator (by decide)).trans locator
  refine ⟨fun h => (completes_run (f := settle (·.completeSearch)) rfl).2 ⟨doors.trans (held h), by rw [ended], by rw [ended]⟩,
    fun nobody shut outside clear => (completes_run (f := settle (·.completeSearch)) rfl).2 ⟨by rw [ended], fun d closed unlocked => ?_⟩⟩
  have after := locks nobody shut outside clear d
  rw [Part.door, ← doors] at after
  refine after.trans ?_
  rw [(lockAfter_lock _).1 unlocked, if_pos closed]

end Sys2Proof.Machine
end

section
/-! The ENTRY and TAILGATE results of a search (R17, R121, R122, R124). -/

namespace Sys2Proof.Machine

/-! ### A passive entry at the doors -/

theorem get_entryDoors (all : Bool) (d x : Door) : (if all then allDoors else oneDoor d).get x = true ↔ all = true ∨ x = d := by
  cases all with
  | true => exact ⟨fun _ => .inl rfl, fun _ => PerDoor.get_build _ x⟩
  | false => simp [oneDoor]

/-- A passive entry's unlock and relock timer (R17, R121). -/
theorem Part.passiveUnlock_opens (p : Part) (d : Door) :
    let q := p.passiveUnlock d
    let relocks := p.cfg.relockTime ≠ 0 ∧ p.crashSet = false ∧ p.doors.ign = false ∧ ∀ x, (p.door x).ajar = .isClosed
    (∀ x, q.door x = { p.door x with lock := if p.cfg.entryUnlocksAll = true ∨ x = d then .unlocked else (p.door x).lock }) ∧
      (relocks → q.doors.relock = some (p.clock + p.cfg.relockTime)) ∧ (¬ relocks → q.doors.relock = none) := by
  have allowed : p.lockRefused .unlock = false := by simp [Part.lockRefused]
  obtain ⟨locks, recs, settling, doors⟩ := p.takeLock_doors (.passive .entry) .unlock (if p.cfg.entryUnlocksAll then allDoors else oneDoor d)
  have within := (p.lockAction_does (.passive .entry) .unlock (if p.cfg.entryUnlocksAll then allDoors else oneDoor d)).toWithin
  rw [← Part.lockAction_taken allowed] at locks doors
  have unlocked (x : Door) : p.lockTargets .unlock (if p.cfg.entryUnlocksAll then allDoors else oneDoor d) x =
      if p.cfg.entryUnlocksAll = true ∨ x = d then .unlocked else (p.door x).lock := by
    unfold Part.lockTargets
    simp only [get_entryDoors]
    split
    · exact lockAfter_unlock _
    · rfl
  dsimp only
  have e : p.passiveUnlock d = (p.lockAction (.passive .entry) .unlock (if p.cfg.entryUnlocksAll then allDoors else oneDoor d)).startRelock :=
    rfl
  rw [e]
  generalize p.lockAction (.passive .entry) .unlock (if p.cfg.entryUnlocksAll then allDoors else oneDoor d) = q at locks doors within
  have cfg : q.cfg = p.cfg := within.cfg (by decide)
  have crash : q.crashSet = p.crashSet := by rw [Part.crashSet, within.crash (by decide), Part.crashSet]
  have shut : q.doors.allShut = true ↔ ∀ x, (p.door x).ajar = .isClosed := by
    rw [Doors.allShut_iff]
    exact forall_congr' fun x => by rw [show q.doors.recs.get x = q.door x from rfl, locks x]
  have cond : (decide (q.cfg.relockTime ≠ 0) && !q.crashSet && !q.doors.ign && q.doors.allShut) = true ↔
      p.cfg.relockTime ≠ 0 ∧ p.crashSet = false ∧ p.doors.ign = false ∧ ∀ x, (p.door x).ajar = .isClosed := by
    have ign : q.doors.ign = p.doors.ign := by rw [doors]
    simp only [Bool.and_eq_true, decide_eq_true_iff, Bool.not_eq_true', shut, cfg, crash, ign, and_assoc]
  unfold Part.startRelock
  refine ⟨fun x => ?_, fun h => ?_, fun h => ?_⟩
  · rw [← unlocked x, ← locks x]
    split <;> rfl
  · rw [if_pos (cond.2 h), cfg, within.clock]
    rfl
  · rw [if_neg (mt cond.1 h), doors]

/-! ### A release granted after the search -/

set_option Elab.async false in -- the declarations above are finished first: this bounds the memory of the one text
/-- A search's release of an IDLE latch that nothing bars: pulsed at once where a unit is free and nothing waits. -/
theorem settle_searchPulses {f : Part → Part} {p q : Part} {d : Door} {src : ReleaseSource} (before : p.waiting = [])
    (e : f p = (q.releaseRequest d src none).setFlight none) (outside : src ≠ .inner) (shut : (q.door d).ajar = .isClosed)
    (sound : (q.door d).fault ≠ .driver) (idle : q.latch d = none) (free : q.waiting = []) (room : 1 ≤ q.unitsFree) :
    settle f p = (q.pulsed d src).setFlight none := by
  have request : q.releaseRequest d src none =
      (q.setLatch d (some ⟨.waiting, false, .release, SourceSet.empty.add src, [], none⟩)).request (.latch d) .release := by
    simp only [Part.releaseRequest, Part.beginRelease, shut, sound, idle, outside, reduceCtorEq, if_false, false_and]
    rfl
  have waits : (f p).waiting = [⟨.latch d, 1, .release, q.clock, q.clock + 1000⟩] := by
    rw [e, request]
    simp [Part.request, Part.setFlight, free, placeWaiter, actuatorUnits, waitLimit]
  have units : (f p).unitsFree = q.unitsFree := by
    rw [e, request]
    rfl
  rw [settle_grantsOne before waits (by rw [units]; exact room), e, request]
  simp only [Part.tellGrant, Part.startPulse, Part.request, Part.setFlight, Part.setLocator, Part.setLists_fields, Part.setLatch_fields]
  cases d <;> rfl

/-! ### The results -/

theorem Part.settled_rest (p : Part) (f : Flight) (r : Row) :
    Part.Within (settleFobAreas ++ rowAreas) p ((p.settled f).appendRow r) :=
  (p.settled_does f).toWithin.trans ((p.settled f).appendRow_does r).toWithin (by decide) (by decide)

/-- An ENTRY result (R121, R122). -/
theorem Part.settled_entry {p : Part} {f : Flight} {d : Door} (entry : f.request.purpose = .entry) (door : f.request.door = some d) :
    let foundIn := ∃ i, (p.fob i).qualifiesIn (f.results.get i) (doorZone d)
    (foundIn → ∃ q, Part.Within (.store :: settleFobAreas ++ lockAreas) p q ∧ (∀ x, q.door x =
        if x = d then { (p.passiveUnlock d).door d with pull := false } else (p.passiveUnlock d).door x) ∧
        q.doors.relock = (p.passiveUnlock d).doors.relock ∧
        (p.settled f).applyResult f = if (p.door d).pull then q.releaseRequest d .outer none else q) ∧
      (¬ foundIn → ∃ r, (p.settled f).applyResult f = ((p.settled f).appendRow r).clearPull d) := by
  have e : (p.settled f).applyResult f = (p.settled f).entryResult f.request d f.results := by
    unfold Part.applyResult
    dsimp only
    rw [entry, door]
  have found := p.settled_finder f [doorZone d]
  simp only [List.mem_singleton, exists_eq_left] at found
  dsimp only
  rw [← found, e]
  unfold Part.entryResult
  refine ⟨fun h => ?_, fun h => ?_⟩
  · obtain ⟨g, hg⟩ := Option.isSome_iff_exists.1 h
    rw [hg]
    have first := p.settled_rest f (passedRow f.request g f.results)
    dsimp only
    generalize (p.settled f).appendRow (passedRow f.request g f.results) = q at first
    have doors : q.doors = p.doors := first.doors (by decide)
    have doorOf (x : Door) : q.door x = p.door x := first.door x
    have cfg : q.cfg = p.cfg := first.cfg (by decide)
    have crash : q.crashSet = p.crashSet := by rw [Part.crashSet, first.crash (by decide), Part.crashSet]
    obtain ⟨opens, relocks, stays⟩ := q.passiveUnlock_opens d
    obtain ⟨opens', relocks', stays'⟩ := p.passiveUnlock_opens d
    have within := (q.passiveUnlock_does d).toWithin
    simp only [doorOf, cfg, crash, doors, first.clock] at opens relocks stays
    generalize q.passiveUnlock d = r at opens relocks stays within
    have pull : (r.door d).pull = (p.door d).pull := by rw [opens d]
    have same (x : Door) : r.door x = (p.passiveUnlock d).door x := (opens x).trans (opens' x).symm
    have relock : r.doors.relock = (p.passiveUnlock d).doors.relock := by
      by_cases h : p.cfg.relockTime ≠ 0 ∧ p.crashSet = false ∧ p.doors.ign = false ∧ ∀ x, (p.door x).ajar = .isClosed
      · exact (relocks h).trans (relocks' h).symm
      · exact (stays h).trans (stays' h).symm
    refine ⟨r.clearPull d, ?_, fun x => ?_, relock, by rw [pull]⟩
    · exact (first.trans within (M := .store :: settleFobAreas ++ lockAreas) (by decide) (by decide)).trans
        (r.clearPull_does d).toWithin (by decide) (by decide)
    · rw [← same x, ← same d]
      exact Part.setDoor_door ..
  · rw [Bool.not_eq_true, Option.isSome_eq_false_iff, Option.isNone_iff_eq_none] at h
    rw [h]
    exact ⟨_, rfl⟩

/-- A TAILGATE result (R124). -/
theorem Part.settled_tailgate {p : Part} {f : Flight} (tailgate : f.request.purpose = .tailgate) :
    let foundIn := ∃ i, (p.fob i).qualifiesIn (f.results.get i) .outRear
    (foundIn → ∃ r, (p.settled f).applyResult f = ((p.settled f).appendRow r).releaseRequest .tg .tgButton none) ∧
      (¬ foundIn → ∃ r, (p.settled f).applyResult f = (p.settled f).appendRow r) := by
  have e : (p.settled f).applyResult f = (p.settled f).tailgateResult f.request f.results := by
    unfold Part.applyResult
    dsimp only
    rw [tailgate]
  have found := p.settled_finder f [.outRear]
  simp only [List.mem_singleton, exists_eq_left] at found
  dsimp only
  rw [← found, e]
  unfold Part.tailgateResult
  refine ⟨fun h => ?_, fun h => ?_⟩
  · obtain ⟨g, hg⟩ := Option.isSome_iff_exists.1 h
    rw [hg]
    exact ⟨_, rfl⟩
  · rw [Bool.not_eq_true, Option.isSome_eq_false_iff, Option.isNone_iff_eq_none] at h
    rw [h]
    exact ⟨_, rfl⟩

end Sys2Proof.Machine
end

section
/-! ENTRY and TAILGATE searches completed, nothing waiting (R17, R121, R122, R124). -/

namespace Sys2Proof.Machine

/-- An outer pull's release leaves the doors alone. -/
theorem Part.releaseRequest_doors (p : Part) (d : Door) : (p.releaseRequest d .outer none).doors = p.doors := by
  unfold Part.releaseRequest
  dsimp only
  split
  · rfl
  · split
    · exact (p.appendRow_does _).toWithin.doors (by decide)
    · split
      · unfold Part.joinRelease
        dsimp only
        rw [if_neg (by rintro ⟨e, -⟩; cases e)]
        rfl
      · rfl

section
variable {s : State} {f : Flight} (flight : s.part.locator.flight = some f) (phase : f.phase = .reply .f3)
  (isDue : f.phaseEnd ≤ s.part.clock) (list : s.part.locator.list = []) (noneWaits : s.part.waiting = [])
include flight phase isDue list noneWaits

/-- A result that asks for no grant. -/
theorem completes_searchCalm {q : Part} (e : (s.part.settled f).applyResult f = q) (waits : q.waiting = s.part.waiting)
    {post : Part → Prop} (done : ∀ r, r.doors = q.doors → Part.Within [.locator] q r → post r) : Completes .searchCompletion s post := by
  obtain ⟨ends, -⟩ := Part.completeSearch_completes flight phase isDue list
  refine (completes_run (f := settle (·.completeSearch)) rfl).2 ?_
  rw [e] at ends
  rw [settle_noneWaits (f := (·.completeSearch)) (by rw [ends]; exact waits.trans noneWaits), ends]
  exact done _ rfl (q.setFlight_does none).toWithin

/-- A result that pulses an IDLE latch. -/
theorem completes_searchPulses {q : Part} {d : Door} {src : ReleaseSource} {K : List Area}
    (e : (s.part.settled f).applyResult f = q.releaseRequest d src none) (outside : src ≠ .inner) (within : Part.Within K s.part q)
    (h1 : .holders ∉ K) (h2 : .waiting ∉ K) (h3 : .supply ∉ K) (h4 : .cfg ∉ K) (h5 : .latches ∉ K)
    (shut : (q.door d).ajar = .isClosed) (sound : (q.door d).fault ≠ .driver) (idle : s.part.latch d = none)
    (room : 1 ≤ s.part.unitsFree) {post : Part → Prop}
    (done : ∀ r : Part, r.doors = q.doors → r.latch d = some ⟨.pulsing, false, .release, SourceSet.empty.add src, [],
      some (s.part.clock + s.part.cfg.latchPulse)⟩ →
      r.holders = s.part.holders ++ [⟨.latch d, 1, .release, s.part.clock, .withinBudget⟩] → post r) :
    Completes .searchCompletion s post := by
  obtain ⟨ends, -⟩ := Part.completeSearch_completes flight phase isDue list
  refine (completes_run (f := settle (·.completeSearch)) rfl).2 ?_
  rw [e] at ends
  rw [settle_searchPulses (f := (·.completeSearch)) noneWaits ends outside shut sound ((within.latch d h5).trans idle)
    ((within.waiting h2).trans noneWaits) (by rw [within.unitsFree h3 h4 h1]; exact room)]
  refine done _ rfl ?_ ?_
  · rw [← within.clock, ← within.cfg h4]
    exact (q.pulsed_latch d d src).trans (if_pos rfl)
  · rw [← within.clock, ← within.holders h1]
    rfl

theorem completes_tailgateSearch (tailgate : f.request.purpose = .tailgate) :
    let foundIn := ∃ i, (s.part.fob i).qualifiesIn (f.results.get i) .outRear
    (foundIn → (s.part.door .tg).ajar = .isClosed → (s.part.door .tg).fault ≠ .driver → s.part.latch .tg = none →
      1 ≤ s.part.unitsFree → Completes .searchCompletion s fun p =>
        p.latch .tg = some ⟨.pulsing, false, .release, ⟨false, false, true, false, false⟩, [],
          some (s.part.clock + s.part.cfg.latchPulse)⟩ ∧
        p.holders = s.part.holders ++ [⟨.latch .tg, 1, .release, s.part.clock, .withinBudget⟩] ∧ p.doors = s.part.doors) ∧
      (¬ foundIn → Completes .searchCompletion s fun p => p.latches = s.part.latches ∧ p.doors = s.part.doors ∧
        p.holders = s.part.holders) := by
  obtain ⟨found, missed⟩ := Part.settled_tailgate (p := s.part) tailgate
  refine ⟨fun h shut sound idle room => ?_, fun h => ?_⟩
  · obtain ⟨r, e⟩ := found h
    have within := s.part.settled_rest f r
    have doors : ((s.part.settled f).appendRow r).door .tg = s.part.door .tg := within.door .tg
    exact completes_searchPulses flight phase isDue list noneWaits e nofun within (by decide) (by decide) (by decide) (by decide)
      (by decide) (by rw [doors]; exact shut) (by rw [doors]; exact sound) idle room
      fun q same latch holders => ⟨latch, holders, same.trans (within.doors (by decide))⟩
  · obtain ⟨r, e⟩ := missed h
    have within := s.part.settled_rest f r
    refine completes_searchCalm flight phase isDue list noneWaits e (within.waiting (by decide)) fun q same ended => ?_
    have all := within.trans ended (M := .locator :: settleFobAreas ++ rowAreas) (by decide) (by decide)
    exact ⟨all.latches (by decide), all.doors (by decide), all.holders (by decide)⟩

set_option Elab.async false in -- the declarations above are finished first: this bounds the memory of the one text
theorem completes_entrySearch {d : Door} (entry : f.request.purpose = .entry) (door : f.request.door = some d) :
    let foundIn := ∃ i, (s.part.fob i).qualifiesIn (f.results.get i) (doorZone d)
    (foundIn → Completes .searchCompletion s fun p =>
      let all := s.part.cfg.entryUnlocksAll = true
      let relocks := s.part.cfg.relockTime ≠ 0 ∧ s.part.crashSet = false ∧ s.part.doors.ign = false ∧
        ∀ x, (s.part.door x).ajar = .isClosed
      (p.door d).lock = .unlocked ∧ (p.door d).pull = false ∧ (all → ∀ x, (p.door x).lock = .unlocked) ∧
      (¬ all → ∀ x, x ≠ d → p.door x = s.part.door x) ∧
      (relocks → p.doors.relock = some (s.part.clock + s.part.cfg.relockTime)) ∧
      (¬ relocks → p.doors.relock = none) ∧
      ((s.part.door d).pull = false → p.latches = s.part.latches ∧ p.holders = s.part.holders) ∧
      ((s.part.door d).pull = true → ((s.part.door d).ajar = .isClosed ∧ (s.part.door d).fault ≠ .driver ∧ s.part.latch d = none ∧
          1 ≤ s.part.unitsFree) →
        p.latch d = some ⟨.pulsing, false, .release, ⟨true, false, false, false, false⟩, [],
          some (s.part.clock + s.part.cfg.latchPulse)⟩ ∧
        p.holders = s.part.holders ++ [⟨.latch d, 1, .release, s.part.clock, .withinBudget⟩])) ∧
    (¬ foundIn → Completes .searchCompletion s fun p => p.latches = s.part.latches ∧
      p.holders = s.part.holders ∧ p.doors = { s.part.doors with recs := p.doors.recs } ∧
      ∀ x, p.door x = if x = d then { s.part.door x with pull := false } else s.part.door x) := by
  obtain ⟨found, missed⟩ := Part.settled_entry (p := s.part) entry door
  refine ⟨fun h => ?_, fun h => ?_⟩
  · obtain ⟨q, within, doors, relock, e⟩ := found h
    obtain ⟨opens, relocks, stays⟩ := s.part.passiveUnlock_opens d
    have own := doors d
    rw [if_pos rfl, opens d, if_pos (.inr rfl)] at own
    have others (x : Door) (hx : x ≠ d) := (doors x).trans ((if_neg hx).trans (opens x))
    have leaves (p : Part) (hp : p.doors = q.doors) : (p.door d).lock = .unlocked ∧ (p.door d).pull = false ∧
        (s.part.cfg.entryUnlocksAll = true → ∀ x, (p.door x).lock = .unlocked) ∧
        (¬ s.part.cfg.entryUnlocksAll = true → ∀ x, x ≠ d → p.door x = s.part.door x) ∧ p.doors.relock = q.doors.relock := by
      have door (x : Door) : p.door x = q.door x := by rw [Part.door, hp, Part.door]
      refine ⟨by rw [door, own], by rw [door, own], fun all x => ?_, fun one x hx => ?_, by rw [hp]⟩
      · by_cases hx : x = d
        · rw [door, hx, own]
        · rw [door, others x hx, if_pos (.inl all)]
      · rw [door, others x hx, if_neg fun h => h.elim one hx]
    rw [← relock] at relocks stays
    cases pull : (s.part.door d).pull with
    | false =>
      rw [pull, if_neg Bool.false_ne_true] at e
      refine completes_searchCalm flight phase isDue list noneWaits e (within.waiting (by decide)) fun p same ended => ?_
      obtain ⟨lock, cleared, all, one, timer⟩ := leaves p same
      exact ⟨lock, cleared, all, one, fun h => timer.trans (relocks h), fun h => timer.trans (stays h),
        fun _ => ⟨(ended.latches (by decide)).trans (within.latches (by decide)),
          (ended.holders (by decide)).trans (within.holders (by decide))⟩, nofun⟩
    | true =>
      rw [pull, if_pos rfl] at e
      have shut : (q.door d).ajar = (s.part.door d).ajar := by rw [own]
      have sound : (q.door d).fault = (s.part.door d).fault := by rw [own]
      by_cases frees : (s.part.door d).ajar = .isClosed ∧ (s.part.door d).fault ≠ .driver ∧ s.part.latch d = none ∧ 1 ≤ s.part.unitsFree
      · obtain ⟨closed, works, idle, room⟩ := frees
        refine completes_searchPulses flight phase isDue list noneWaits e nofun within (by decide) (by decide) (by decide) (by decide)
          (by decide) (by rw [shut]; exact closed) (by rw [sound]; exact works) idle room fun p same latch holders => ?_
        obtain ⟨lock, cleared, all, one, timer⟩ := leaves p same
        exact ⟨lock, cleared, all, one, fun h => timer.trans (relocks h), fun h => timer.trans (stays h), nofun,
          fun _ _ => ⟨latch, holders⟩⟩
      · obtain ⟨ends, -⟩ := Part.completeSearch_completes flight phase isDue list
        have same : (settle (·.completeSearch) s.part).doors = q.doors := by
          refine ((settle_grants (·.completeSearch) s.part).toWithin.doors (by decide)).trans ?_
          rw [ends, e]
          exact q.releaseRequest_doors d
        obtain ⟨lock, cleared, all, one, timer⟩ := leaves _ same
        exact (completes_run (f := settle (·.completeSearch)) rfl).2 ⟨lock, cleared, all, one, fun h => timer.trans (relocks h),
          fun h => timer.trans (stays h), nofun, fun _ h => absurd h frees⟩
  · obtain ⟨r, e⟩ := missed h
    have first := s.part.settled_rest f r
    have same (x : Door) : ((s.part.settled f).appendRow r).door x = s.part.door x := first.door x
    have doors : ((s.part.settled f).appendRow r).doors = s.part.doors := first.doors (by decide)
    have cleared (x : Door) := (Part.setDoor_door ((s.part.settled f).appendRow r) d x
      { ((s.part.settled f).appendRow r).door d with pull := false })
    have rest : (((s.part.settled f).appendRow r).clearPull d).doors = { ((s.part.settled f).appendRow r).doors with
      recs := (((s.part.settled f).appendRow r).clearPull d).doors.recs } := rfl
    have within := first.trans (Part.clearPull_does _ d).toWithin (M := .doors :: settleFobAreas ++ rowAreas) (by decide) (by decide)
    refine completes_searchCalm flight phase isDue list noneWaits e (within.waiting (by decide)) fun q after ended => ?_
    have all := within.trans ended (M := .locator :: .doors :: settleFobAreas ++ rowAreas) (by decide) (by decide)
    refine ⟨all.latches (by decide), all.holders (by decide), ?_, fun x => ?_⟩
    · rw [after, rest, doors]
    · rw [Part.door, after]
      refine (cleared x).trans ?_
      rw [same, same]
      split
      · subst_vars
        rfl
      · rfl

end

end Sys2Proof.Machine
end

section
/-! The LOCATE result of a search, and what each purpose's result does (R125, R191). -/

namespace Sys2Proof.Machine

/-! ### Orders that end together -/

set_option Elab.async false in -- the declarations above are finished first: this bounds the memory of the one text
/-- The result words of the other slots stay. -/
theorem Part.endOrder_others (p : Part) {k x : Slot} (h : x ≠ k) (st : SlotState) (code : Nat) (a b : Word) {j : Nat} (hj : j < 8) :
    Memory.readWord (p.endOrder k st code a b).port.memory (slotWord x j) = Memory.readWord p.port.memory (slotWord x j) := by
  have apart : x.val ≠ k.val := fun e => h (Fin.ext e)
  have board := x.isLt
  unfold Part.endOrder
  dsimp only
  refine ((Part.appendRow_does _ _).board (by decide) _ (by rw [slotWord]; omega) (by rw [slotWord]; omega)).trans ?_
  exact Memory.readWord_writeWords_ne _ _ _ (by simp only [slotWord, List.length_cons, List.length_nil]; omega)

/-- Orders ended one after another with the same result words. -/
theorem Part.ordersDone_leaves (o : OrderOutcome) (a b : Word) :
    ∀ (l : List Slot) {p : Part}, p.tidy →
      let q := l.foldl (fun q k => q.orderDone k o a b) p
      (∀ k, q.head k = if k ∈ l then { p.head k with state := .done, code := BitVec.ofNat 8 o.code } else p.head k) ∧
        (∀ k ∈ l, Memory.readWord q.port.memory (slotWord k 6) = a ∧ Memory.readWord q.port.memory (slotWord k 7) = b) ∧
        ∀ k, k ∉ l → ∀ j < 8, Memory.readWord q.port.memory (slotWord k j) = Memory.readWord p.port.memory (slotWord k j)
  | [], _, _ => ⟨fun k => (if_neg List.not_mem_nil).symm, fun k hk => absurd hk List.not_mem_nil, fun _ _ _ _ => rfl⟩
  | s :: l, p, tidy => by
    obtain ⟨heads, words, others⟩ := Part.ordersDone_leaves o a b l ((p.orderDone_does s o a b).tidyLaw tidy)
    have first (k : Slot) := p.orderDone_head s k o a b
    dsimp only [List.foldl_cons]
    refine ⟨fun k => ?_, fun k hk => ?_, fun k hk j hj => ?_⟩
    · rw [heads, first]
      by_cases own : k = s
      · subst own
        simp
      · simp [own]
    · by_cases later : k ∈ l
      · exact words k later
      · obtain rfl := (List.mem_cons.1 hk).resolve_right later
        obtain ⟨word6, word7⟩ := Part.endOrder_words tidy k .done o.code a b
        exact ⟨(others k later 6 (by decide)).trans word6, (others k later 7 (by decide)).trans word7⟩
    · obtain ⟨ne, later⟩ := not_or.1 (mt List.mem_cons.2 hk)
      exact (others k later j hj).trans (p.endOrder_others ne .done o.code a b hj)

/-! ### The result words of a LOCATE -/

/-- Four codes below 8 packed, the first lowest. -/
theorem packWord_codes (v : Fob → Nat) (small : ∀ i, v i < 8) :
    let w := (packWord (Fob.all.map fun i => codeField 8 (v i))).toNat
    (∀ i : Fob, (w / 8 ^ i.ctorIdx) % 8 = v i) ∧ w < 4096 := by
  have fits : ∀ x ∈ Fob.all.map (fun i => codeField 8 (v i)), x.fits := fun x hx => by
    obtain ⟨i, -, rfl⟩ := List.mem_map.1 hx
    exact codeField_fits (by decide) _
  have value : (packWord (Fob.all.map fun i => codeField 8 (v i))).toNat = v .f0 + 8 * v .f1 + 64 * v .f2 + 512 * v .f3 := by
    rw [packWord_toNat fits]
    simp [packNat, codeField, numField, Fob.all, show bitsFor 8 = 3 by decide, Nat.mod_eq_of_lt (small _)]
  have b0 := small .f0
  have b1 := small .f1
  have b2 := small .f2
  have b3 := small .f3
  dsimp only
  rw [value]
  refine ⟨fun i => ?_, by omega⟩
  cases i <;> simp only [Fob.ctorIdx] <;> omega

theorem setValue_testBit : ∀ (l : List Bool) (n : Nat), (setValue l).testBit n = l.getD n false
  | [], n => by simp [setValue]
  | b :: l, 0 => by cases b <;> simp [setValue, Nat.testBit_zero]
  | b :: l, n + 1 => by
    have half : (b.toNat + 2 * setValue l) / 2 = setValue l := by
      have := Bool.toNat_le b
      omega
    rw [setValue, Nat.testBit_succ, half, setValue_testBit l n]
    rfl

/-- The antennas used, and a time, packed. -/
theorem packWord_antennas (used : PerAntenna Bool) (t : Nat) :
    let w := (packWord [antennaSet used, timeField t]).toNat
    (∀ a : Antenna, w.testBit a.ctorIdx = used.get a) ∧ w / 128 % 2 ^ 24 = t % 2 ^ 24 := by
  have fits : ∀ x ∈ [antennaSet used, timeField t], x.fits := by
    simp only [List.mem_cons, List.not_mem_nil, or_false, forall_eq_or_imp, forall_eq]
    exact ⟨setField_fits (by simp [Antenna.all]), timeField_fits t⟩
  have value : (packWord [antennaSet used, timeField t]).toNat = 2 ^ 7 * (t % 2 ^ 24) + setValue (Antenna.all.map used.get) := by
    rw [packWord_toNat fits]
    simp [packNat, antennaSet, setField, timeField, Antenna.all, stampOf]
    omega
  have small : setValue (Antenna.all.map used.get) < 2 ^ 7 := setValue_lt _
  dsimp only
  rw [value]
  refine ⟨fun a => ?_, ?_⟩
  · rw [Nat.testBit_two_pow_mul_add _ small, if_pos (by cases a <;> decide), setValue_testBit]
    cases a <;> rfl
  · have := Nat.mod_lt t (Nat.two_pow_pos 24)
    omega

/-! ### The result -/

/-- The code of a result that is not set aside (R125). -/
def FobResult.code (res : FobResult) : Nat :=
  match res.reply with
  | .noReply => 1
  | .fail => 2
  | .pass => 3 + (res.zone.getD .nowhere).ctorIdx

theorem FobResult.code_small (res : FobResult) : res.code < 8 := by
  unfold FobResult.code
  split
  · decide
  · decide
  · cases res.zone.getD .nowhere <;> decide

/-- A completion keeps the state and the id of a record. -/
theorem FobRec.afterSearch_id (r : FobRec) (res : FobResult) (now : Nat) :
    (r.afterSearch res now).keep.state = r.keep.state ∧ (r.afterSearch res now).keep.id = r.keep.id := by
  unfold FobRec.afterSearch
  dsimp only
  split <;> exact ⟨rfl, rfl⟩

/-- A result is set aside at completion just where it was before. -/
theorem Part.settled_setAside (p : Part) (f : Flight) (i : Fob) :
    (p.settled f).setAside f.results i = true ↔ (p.fob i).setsAside (f.results.get i) := by
  rw [Part.setAside_iff]
  obtain ⟨set, own⟩ := p.settled_fob f i
  by_cases h : (p.fob i).setsAside (f.results.get i)
  · exact (set h).setsAside _
  · obtain ⟨r, ⟨keep, -⟩, ⟨after, -⟩⟩ := own h
    obtain ⟨state, id⟩ := r.afterSearch_id (f.results.get i) p.clock
    rw [FobRec.setsAside, FobRec.setsAside, after, state, id, keep]

/-- An index's LOCATE code by its record before the completion (R125). -/
theorem Part.settled_locateCode (p : Part) (f : Flight) (i : Fob) : (p.settled f).locateCode f.results i =
    if (p.fob i).keep.state = .vacant ∨ ((f.results.get i).reply ≠ .noReply ∧ (f.results.get i).id ≠ (p.fob i).keep.id) then 0
    else (f.results.get i).code := by
  have aside : (p.settled f).setAside f.results i = true ↔
      (p.fob i).keep.state = .vacant ∨ ((f.results.get i).reply ≠ .noReply ∧ (f.results.get i).id ≠ (p.fob i).keep.id) :=
    p.settled_setAside f i
  by_cases h : (p.fob i).keep.state = .vacant ∨ ((f.results.get i).reply ≠ .noReply ∧ (f.results.get i).id ≠ (p.fob i).keep.id)
  · exact (if_pos (aside.2 h)).trans (if_pos h).symm
  · exact (if_neg (mt aside.1 h)).trans (if_neg h).symm

theorem Part.locateCode_small (p : Part) (res : PerFob FobResult) (i : Fob) : p.locateCode res i < 8 := by
  have e : p.locateCode res i = if p.setAside res i then 0 else (res.get i).code := rfl
  rw [e]
  split
  · decide
  · exact FobResult.code_small _

/-- A LOCATE result (R125). -/
theorem Part.settled_locate {p : Part} {f : Flight} (locate : f.request.purpose = .locate) (tidy : p.tidy) :
    let q := (p.settled f).applyResult f
    Part.Within (.store :: settleFobAreas ++ orderAreas) p q ∧
      (∀ k, q.head k = if k ∈ f.request.orders then
        { p.head k with state := .done, code := BitVec.ofNat 8 OrderOutcome.completed.code } else p.head k) ∧
      ∀ k ∈ f.request.orders,
        Memory.readWord q.port.memory (slotWord k 6) = packWord (Fob.all.map fun i => codeField 8 ((p.settled f).locateCode f.results i)) ∧
        Memory.readWord q.port.memory (slotWord k 7) = packWord [antennaSet f.used, timeField p.clock] := by
  have first := p.settled_rest f (locatedRow f.request f.results f.used)
  have clock : (p.settled f).clock = p.clock := (p.settled_does f).clock
  have kept : ((p.settled f).appendRow (locatedRow f.request f.results f.used)).tidy :=
    (Part.appendRow_does _ _).tidyLaw ((p.settled_does f).tidyLaw tidy)
  have e : (p.settled f).applyResult f = f.request.orders.foldl (fun q s => q.orderDone s .completed
      (packWord (Fob.all.map fun i => codeField 8 ((p.settled f).locateCode f.results i)))
      (packWord [antennaSet f.used, timeField p.clock])) ((p.settled f).appendRow (locatedRow f.request f.results f.used)) := by
    unfold Part.applyResult
    dsimp only
    rw [locate, ← clock]
    rfl
  dsimp only
  rw [e]
  generalize packWord (Fob.all.map fun i => codeField 8 ((p.settled f).locateCode f.results i)) = a
  generalize packWord [antennaSet f.used, timeField p.clock] = b
  obtain ⟨heads, words, -⟩ := Part.ordersDone_leaves .completed a b f.request.orders kept
  have fold := (Part.Does.foldl (fun q k => q.orderDone_does k .completed a b) f.request.orders
    ((p.settled f).appendRow (locatedRow f.request f.results f.used))).toWithin
  refine ⟨first.trans fold (by decide) (by decide), fun k => ?_, words⟩
  have head : ((p.settled f).appendRow (locatedRow f.request f.results f.used)).head k = p.head k := first.head k (by decide)
  rw [heads k, head]

/-- Settles O49: LOCK by `completes_lockSearch`, ENTRY and TAILGATE by what the finder finds, LOCATE by `settled_locate`. -/
theorem searchResultsActByPurpose : Obligations.SearchResultsActByPurpose := by
  unfold Obligations.SearchResultsActByPurpose
  refine ⟨fun s f flight phase isDue lock list => ?_, fun s f flight phase isDue list noneWaits => ?_⟩
  · obtain ⟨held, locks⟩ := completes_lockSearch flight phase isDue lock list
    refine ⟨held, fun nobody shut ⟨i, z, enrolled, id, blocked, permitted, reply, zone, inside, nowhere⟩ clear => ?_⟩
    exact locks nobody shut ⟨i, z, ⟨enrolled, blocked, permitted, reply, id.symm, zone⟩, inside, nowhere⟩ clear
  · refine ⟨fun d entry door => completes_entrySearch flight phase isDue list noneWaits entry door, fun tailgate => ?_,
      fun locate tidy => ?_⟩
    · obtain ⟨found, missed⟩ := completes_tailgateSearch flight phase isDue list noneWaits tailgate
      refine ⟨fun h ⟨shut, sound, idle, room⟩ => ?_, missed⟩
      refine (found h shut sound idle room).mono fun p ⟨latch, holders, doors⟩ => ⟨⟨latch, holders⟩, doors⟩
    · obtain ⟨within, heads, words⟩ := Part.settled_locate (f := f) locate tidy
      obtain ⟨codes, small⟩ := packWord_codes ((s.part.settled f).locateCode f.results) (Part.locateCode_small _ _)
      obtain ⟨antennas, time⟩ := packWord_antennas f.used s.part.clock
      refine completes_searchCalm flight phase isDue list noneWaits rfl (within.waiting (by decide)) fun r same ended => ?_
      have head (k : Slot) := (ended.head k (by decide)).trans (heads k)
      refine ⟨same.trans (within.doors (by decide)), (ended.latches (by decide)).trans (within.latches (by decide)),
        fun k hk => (head k).trans (if_neg hk), fun k hk => ⟨(head k).trans (if_pos hk), ?_⟩⟩
      obtain ⟨word6, word7⟩ := words k hk
      rw [ended.memory (by decide), word6, word7]
      refine ⟨fun i => ?_, small, antennas, time⟩
      exact (codes i).trans (s.part.settled_locateCode f i)

end Sys2Proof.Machine
end

section
/-! A remote frame in SERVICE: its judgement and its acceptance (R133 to R138). -/

namespace Sys2Proof.Machine

/-! ### The judgement -/

/-- A frame heard in SERVICE: served, what is asked for granted, the dwell restarted (R147, R203). -/
theorem Part.frameHeard_serves {p : Part} (fr : Frame) (serves : p.state = .service) (receiver : p.degraded.receiver = false) :
    p.frameHeard fr = (settle (·.serveFrame fr p.clock) p).activity := by
  unfold Part.frameHeard
  rw [serves]
  exact if_neg (by rw [receiver]; exact Bool.false_ne_true)

/-- A sound frame of a kept record is judged by its counter (R133 to R135). -/
theorem Part.judgeFrame_counter {p : Part} {fr : Frame} {f : Fob} (receiver : p.degraded.receiver = false)
    (known : p.fobOf fr.id = some f) (active : (p.fob f).keep.state ≠ .suspended) (sound : fr.check = .pass) (now : Nat) :
    p.judgeFrame fr now = (p.fob f).judgeCounter f fr now := by
  unfold Part.judgeFrame
  rw [if_neg (by rw [receiver]; exact Bool.false_ne_true), known]
  dsimp only
  rw [if_neg active, if_neg (by rw [sound]; nofun)]

theorem Part.judgeFrame_rejects {p : Part} {fr : Frame} {f : Fob} (receiver : p.degraded.receiver = false)
    (known : p.fobOf fr.id = some f) (h : (p.fob f).keep.state = .suspended ∨ fr.check = .fail) (now : Nat) :
    ∃ why, p.judgeFrame fr now = .rejected f why := by
  unfold Part.judgeFrame
  rw [if_neg (by rw [receiver]; exact Bool.false_ne_true), known]
  dsimp only
  by_cases suspended : (p.fob f).keep.state = .suspended
  · exact ⟨_, if_pos suspended⟩
  · exact ⟨_, (if_neg suspended).trans (if_pos (h.resolve_left suspended))⟩

/-- No candidate, no pair. -/
theorem FobRec.pairs_none {r : FobRec} (none : r.candidate = none) (fr : Frame) (now : Nat) : r.pairs fr now = false := by
  simp [FobRec.pairs, FobRec.liveCandidate, FobRec.trimmed, none]

theorem FobRec.pairs_live {r : FobRec} {k : Candidate} {fr : Frame} {now : Nat} (has : r.candidate = some k)
    (young : now - k.time ≤ 5000) (next : fr.counter.toNat = k.counter.toNat + 1) : r.pairs fr now = true := by
  simp [FobRec.pairs, FobRec.liveCandidate, FobRec.trimmed, has, Option.filter, young, next]

/-- The judgement by the counter, no candidate standing (R135 to R137). -/
theorem FobRec.judgeCounter_none {r : FobRec} (none : r.candidate = none) (f : Fob) (fr : Frame) (now : Nat) :
    let last := r.keep.counter.toNat
    let n := fr.counter.toNat
    (n < last ∨ last + 4096 < n → r.judgeCounter f fr now = .rejected f .counter) ∧
      (n = last → r.continues fr now = true → r.judgeCounter f fr now = .continuation f) ∧
      (n = last → r.continues fr now = false → r.judgeCounter f fr now = .ignored) ∧
      (last < n → n ≤ last + 64 → r.judgeCounter f fr now = .press f false) ∧
      (last + 64 < n → n ≤ last + 4096 → r.judgeCounter f fr now = .candidate f (n - last)) := by
  have noPair : ¬ r.pairs fr now = true := by rw [r.pairs_none none]; exact Bool.false_ne_true
  have noCandidate : ¬ ((r.liveCandidate now).any fun k => decide (k.counter = fr.counter)) = true := by
    simp [FobRec.liveCandidate, FobRec.trimmed, none]
  unfold FobRec.judgeCounter
  dsimp only
  rw [if_neg noPair]
  refine ⟨fun h => if_pos h, fun same goesOn => ?_, fun same stops => ?_, fun low high => ?_, fun low high => ?_⟩
  · rw [if_neg (by omega), if_pos same, if_pos goesOn]
  · rw [if_neg (by omega), if_pos same, if_neg (by rw [stops]; exact Bool.false_ne_true)]
  · rw [if_neg (by omega), if_neg (by omega), if_pos high]
  · rw [if_neg (by omega), if_neg (by omega), if_neg (by omega), if_neg noCandidate]

/-- A new press, or the second of a pair: what makes a frame a press (R135, R136). -/
theorem FobRec.judgeCounter_presses {r : FobRec} {fr : Frame} {now : Nat} (f : Fob)
    (presses : (r.candidate = none ∧ r.keep.counter.toNat < fr.counter.toNat ∧ fr.counter.toNat ≤ r.keep.counter.toNat + 64) ∨
      ∃ k, r.candidate = some k ∧ now - k.time ≤ 5000 ∧ fr.counter.toNat = k.counter.toNat + 1) :
    ∃ pair, r.judgeCounter f fr now = .press f pair := by
  rcases presses with ⟨none, low, high⟩ | ⟨k, has, young, next⟩
  · exact ⟨false, (FobRec.judgeCounter_none none f fr now).2.2.2.1 low high⟩
  · exact ⟨true, if_pos (FobRec.pairs_live has young next)⟩

theorem FobRec.continues_iff {r : FobRec} {fr : Frame} {now : Nat} : r.continues fr now = true ↔
    ∃ l, r.lastFrame = some l ∧ l.counter = fr.counter ∧ l.rep < fr.rep ∧ now - l.time ≤ 250 := by
  simp [FobRec.continues, Option.any_eq_true]

/-! ### The acceptance -/

/-- The areas of steps 1 to 3 of R138. -/
abbrev takenAreas : List Area := [.fobs, .begun, .roster, .memory, .rows, .scroll, .store]

/-- A frame's record, rows and mark, before its button acts (R138). -/
def Part.frameTaken (p : Part) (f : Fob) (fr : Frame) (now : Nat) (press : Option Bool) : Part :=
  let r := p.fob f
  let r' := r.accept fr now press.isSome
  let q := p.setFob f r'
  let q := if press = some true then q.appendRow (resyncedRow f r.keep.counter fr.counter) else q
  let q := if r.keep.blocked then q.appendRow (unblockedRow f) else q
  let q := match press with
    | some pair => q.appendRow (pressRow f fr.button fr.counter pair)
    | none => q
  if r'.keep = r.keep then q else q.markDirty (.fob f)

set_option Elab.async false in -- the declarations above are finished first: this bounds the memory of the one text
theorem Part.acceptFrame_acts (p : Part) (f : Fob) (fr : Frame) (now : Nat) :
    (∀ pair, p.acceptFrame f fr now (some pair) =
      ((p.frameTaken f fr now (some pair)).buttonAction f fr.button).pressTracker f fr.button now) ∧
      p.acceptFrame f fr now none = (p.frameTaken f fr now none).continueTracker f now := ⟨fun _ => rfl, rfl⟩

/-- A frame's acceptance: its own record, up to the begun commit, and no other. -/
theorem Part.frameTaken_leaves (p : Part) (f : Fob) (fr : Frame) (now : Nat) (press : Option Bool) :
    let q := p.frameTaken f fr now press
    ((p.fob f).accept fr now press.isSome).same (q.fob f) ∧ (∀ g, g ≠ f → (p.fob g).same (q.fob g)) ∧ Part.Within takenAreas p q := by
  have set := p.setFob_within f ((p.fob f).accept fr now press.isSome)
  have fobs (g : Fob) : (p.setFob f ((p.fob f).accept fr now press.isSome)).fob g =
      if g = f then (p.fob f).accept fr now press.isSome else p.fob g := Part.setFob_fob ..
  have rest : Part.Within (.begun :: .store :: rowAreas) (p.setFob f ((p.fob f).accept fr now press.isSome))
      (p.frameTaken f fr now press) := by
    have row (c : Prop) [Decidable c] {q : Part} (r : Row) (h : Part.Within (.begun :: .store :: rowAreas)
        (p.setFob f ((p.fob f).accept fr now press.isSome)) q) :
        Part.Within (.begun :: .store :: rowAreas) (p.setFob f ((p.fob f).accept fr now press.isSome))
          (if c then q.appendRow r else q) := by
      split
      · exact h.trans (q.appendRow_does r).toWithin (by decide) (by decide)
      · exact h
    unfold Part.frameTaken
    dsimp only
    have rows := row ((p.fob f).keep.blocked = true) (unblockedRow f)
      (row (press = some true) (resyncedRow f (p.fob f).keep.counter fr.counter) (.refl _ _))
    generalize (if (p.fob f).keep.blocked = true then _ else _ : Part) = q at rows
    cases press with
    | none =>
      dsimp only
      split
      · exact rows
      · exact rows.trans (q.markDirty_does _).toWithin (by decide) (by decide)
    | some pair =>
      dsimp only
      have rows := rows.trans (q.appendRow_does (pressRow f fr.button fr.counter pair)).toWithin
        (M := .begun :: .store :: rowAreas) (by decide) (by decide)
      split
      · exact rows
      · exact rows.trans (Part.markDirty_does _ _).toWithin (by decide) (by decide)
  refine ⟨?_, fun g hg => ?_, set.trans rest (by decide) (by decide)⟩
  · have own := rest.fobs (by decide) f
    rw [fobs, if_pos rfl] at own
    exact own
  · have other := rest.fobs (by decide) g
    rw [fobs, if_neg hg] at other
    exact other

end Sys2Proof.Machine
end

section
/-! The button of a remote press (R11 to R13, R34, R139, R140). -/

namespace Sys2Proof.Machine

/-! ### The doors after a press -/

theorem Part.remotePress_unlocks {p : Part} (plain : p.cfg.selectiveUnlock = false) (f : Fob) (d : Door) :
    ((p.remotePress f .unlock).door d).lock = .unlocked := by
  have allowed : p.lockRefused .unlock = false := by simp [Part.lockRefused]
  have locks := Part.lockAction_allDoors allowed (.remote f) d
  rw [show p.doors.taken .unlock = .unlock from rfl, lockAfter_unlock] at locks
  have starts (q : Part) : (q.startRelock.door d).lock = (q.door d).lock := by
    unfold Part.startRelock
    split <;> rfl
  have e : p.remotePress f .unlock = ((p.lockAction (.remote f) .unlock allDoors).setDoors
      { (p.lockAction (.remote f) .unlock allDoors).doors with
        press := if p.completesPair .unlock then none else some ⟨.unlock, stampOf p.clock⟩ }).startRelock := by
    unfold Part.remotePress
    dsimp only
    rw [plain, Bool.false_and, if_neg Bool.false_ne_true, if_neg (by rw [allowed]; exact Bool.false_ne_true)]
  rw [e, starts]
  exact locks

theorem Part.completesPair_iff {p : Part} {b : LockButton} : p.completesPair b = true ↔
    ∃ x, p.doors.press = some ⟨b, x⟩ ∧ (stampOf p.clock - x).toNat ≤ pressWindow b := by
  unfold Part.completesPair
  rw [Option.any_eq_true]
  simp only [decide_eq_true_iff]
  exact ⟨fun ⟨r, has, button, young⟩ => ⟨r.time, by rw [has, ← button], young⟩, fun ⟨x, has, young⟩ => ⟨_, has, rfl, young⟩⟩

/-- The action a LOCK press asks for: the second of a pair deadlocks (R13). -/
def pressAction (pair : Bool) : LockAction := if pair then .deadlock else .lock

/-- A LOCK press (R12, R13). -/
theorem Part.remotePress_locks (p : Part) (f : Fob) :
    let q := p.remotePress f .lock
    (p.crashSet = true → q.doors = p.doors) ∧
      (p.crashSet = false →
        (∀ d, q.door d = { p.door d with lock := lockAfter (p.doors.taken (pressAction (p.completesPair .lock))) (p.door d) }) ∧
        q.doors.relock = none ∧ q.doors.press = if p.completesPair .lock then none else some ⟨.lock, stampOf p.clock⟩) := by
  have refused : p.lockRefused (pressAction (p.completesPair .lock)) = p.crashSet := by
    have ne : pressAction (p.completesPair .lock) ≠ .unlock := by cases p.completesPair .lock <;> nofun
    rw [Part.lockRefused, decide_eq_true ne, Bool.and_true]
  have e : p.remotePress f .lock = if p.lockRefused (pressAction (p.completesPair .lock)) then
      p.lockAction (.remote f) (pressAction (p.completesPair .lock)) allDoors
      else (p.lockAction (.remote f) (pressAction (p.completesPair .lock)) allDoors).setDoors
        { (p.lockAction (.remote f) (pressAction (p.completesPair .lock)) allDoors).doors with
          press := if p.completesPair .lock then none else some ⟨.lock, stampOf p.clock⟩ } := by
    unfold Part.remotePress pressAction
    dsimp only
    cases p.completesPair .lock <;> rfl
  dsimp only
  rw [e]
  refine ⟨fun crashed => ?_, fun clear => ?_⟩
  · rw [if_pos (refused.trans crashed)]
    exact Part.lockAction_refused (refused.trans crashed)
  · have allowed := refused.trans clear
    rw [if_neg (by rw [allowed]; exact Bool.false_ne_true)]
    obtain ⟨locks, x, t, doors⟩ := Part.lockAction_locks (src := .remote f) allowed rfl rfl
    have relock : (p.lockAction (.remote f) (pressAction (p.completesPair .lock)) allDoors).doors.relock = none := by rw [doors]
    exact ⟨locks, relock, rfl⟩

/-! ### The tracker -/

/-- A press with no hold running (R140). -/
theorem Part.pressTracker_idle {p : Part} {f : Fob} (idle : (p.fob f).tracker = .idle) (b : Button) (now : Nat) :
    (∀ g, (p.pressTracker f b now).fob g = if g = f then { p.fob f with
      tracker := (Button.lockButton b).elim .idle (.tracking · now) } else p.fob g) ∧
      Part.Within [.fobs, .begun, .roster] p (p.pressTracker f b now) := by
  have ends : p.endTracker f .press = p.setTracker f .idle := by
    unfold Part.endTracker
    rw [idle]
  have set (q : Part) (t : Tracker) : Part.Within [.fobs, .begun, .roster] q (q.setTracker f t) := q.setFob_within f _
  unfold Part.pressTracker
  dsimp only
  rw [ends]
  cases Button.lockButton b with
  | none => exact ⟨fun g => p.setTracker_fob f g .idle, set p .idle⟩
  | some k =>
    refine ⟨fun g => ?_, (set p .idle).trans (set _ _) (by decide) (by decide)⟩
    refine (Part.setTracker_fob _ f g _).trans ?_
    rw [Part.setTracker_fob, if_pos rfl, Part.setTracker_fob]
    split <;> rfl

set_option Elab.async false in -- the declarations above are finished first: this bounds the memory of the one text
/-- A press with no hold running: its record, up to the begun commit, and what its button does (R138 to R140). -/
theorem Part.pressed {p : Part} {f : Fob} (idle : (p.fob f).tracker = .idle) (fr : Frame) (now : Nat) (pair : Bool) :
    let q := p.acceptFrame f fr now (some pair)
    ({ (p.fob f).accept fr now true with tracker := (Button.lockButton fr.button).elim .idle (.tracking · now) } : FobRec).same
        (q.fob f) ∧
      (∀ g, g ≠ f → (p.fob g).same (q.fob g)) ∧
      ∃ t, Part.Within takenAreas p t ∧ Part.Within [.fobs, .begun, .roster] (t.buttonAction f fr.button) q := by
  obtain ⟨own, others, within⟩ := p.frameTaken_leaves f fr now (some pair)
  dsimp only
  rw [(p.acceptFrame_acts f fr now).1 pair]
  generalize p.frameTaken f fr now (some pair) = t at own others within
  have acts := (t.buttonAction_does f fr.button).toWithin.fobs (by decide)
  have own := FobRec.same_trans own (acts f)
  have still : ((t.buttonAction f fr.button).fob f).tracker = .idle := by
    obtain ⟨-, -, -, -, -, tracker, -⟩ := own
    exact tracker.trans idle
  obtain ⟨set, tracks⟩ := Part.pressTracker_idle still fr.button now
  refine ⟨?_, fun g hg => ?_, t, within, tracks⟩
  · rw [set f, if_pos rfl]
    obtain ⟨keep, zone, seen, candidate, frame, -, waits⟩ := own
    exact ⟨keep, zone, seen, candidate, frame, rfl, waits⟩
  · rw [set g, if_neg hg]
    exact FobRec.same_trans (others g hg) (acts g)

/-- What an accepted press stores of its record. -/
theorem FobRec.accept_stored {r x : FobRec} {fr : Frame} {now : Nat} {t : Tracker}
    (h : ({ r.accept fr now true with tracker := t } : FobRec).same x) :
    x.keep = { r.keep with counter := fr.counter, run := 0, blocked := false } ∧ x.candidate = none ∧
      x.lastFrame = some ⟨fr.counter, fr.rep, now⟩ ∧ x.lastSeen = some now ∧ x.zone = r.zone ∧ x.tracker = t := by
  obtain ⟨keep, zone, seen, candidate, frame, tracker, -⟩ := h
  exact ⟨keep, candidate, frame, seen, zone, tracker⟩

end Sys2Proof.Machine
end

section
/-! Continuations, presses of the tailgate button, and what a frame's service leaves (R34, R137 to R141). -/

namespace Sys2Proof.Machine

/-! ### The tailgate button -/

/-- A release asked of an IDLE latch that nothing bars waits for its unit. -/
theorem Part.releaseRequest_waits {q : Part} {d : Door} {src : ReleaseSource} (outside : src ≠ .inner)
    (shut : (q.door d).ajar = .isClosed) (sound : (q.door d).fault ≠ .driver) (idle : q.latch d = none) (free : q.waiting = []) :
    let r := q.releaseRequest d src none
    r.waiting = [⟨.latch d, 1, .release, q.clock, q.clock + 1000⟩] ∧
      r.latch d = some ⟨.waiting, false, .release, SourceSet.empty.add src, [], none⟩ ∧ r.holders = q.holders ∧
      Part.Within [.latches, .holders, .waiting] q r := by
  have request : q.releaseRequest d src none =
      (q.setLatch d (some ⟨.waiting, false, .release, SourceSet.empty.add src, [], none⟩)).setLists q.holders
        (placeWaiter q.waiting ⟨.latch d, 1, .release, q.clock, q.clock + 1000⟩) := by
    simp only [Part.releaseRequest, Part.beginRelease, shut, sound, idle, outside, reduceCtorEq, if_false, false_and]
    rfl
  dsimp only
  rw [request, free]
  exact ⟨rfl, (Part.setLatch_latch ..).trans (if_pos rfl), rfl,
    (q.setLatch_does d (some ⟨.waiting, false, .release, SourceSet.empty.add src, [], none⟩)).toWithin.trans
      (Part.setLists_within _ _ _) (by decide) (by decide)⟩

/-- The release granted after the rest of its event. -/
theorem settle_pulsesTail {f : Part → Part} {p r : Part} {d : Door} {op : ReleaseOp} {x t : Nat} {pr : Precedence} (before : p.waiting = [])
    (e : f p = r) (waits : r.waiting = [⟨.latch d, 1, pr, x, t⟩]) (flies : r.latch d = some op) (room : 1 ≤ r.unitsFree) :
    (settle f p).latch d = some (op.pulses r.clock r.cfg.latchPulse) ∧
      Part.Within [.holders, .waiting, .latches] r (settle f p) := by
  subst e
  rw [settle_grantsOne before waits room]
  have lists := (f p).setLists_within ((f p).holders ++ [Waiter.held ⟨.latch d, 1, pr, x, t⟩ (f p).clock]) []
  refine ⟨?_, lists.trans (Part.startPulse_does _ d).toWithin (by decide) (by decide)⟩
  exact (Part.startPulse_latch _ d d).trans ((if_pos rfl).trans (congrArg (Option.map _) flies))

/-! ### Continuations -/

set_option Elab.async false in -- the declarations above are finished first: this bounds the memory of the one text
/-- A continuation before 1500 ms, or the hold's session, or its refusal (R140). -/
theorem Part.continued {p : Part} {f : Fob} {b : LockButton} {since : Nat} (tracker : (p.fob f).tracker = .tracking b since) (fr : Frame)
    (now : Nat) :
    let q := p.acceptFrame f fr now none
    let kept := fun x : FobRec => x.keep = { (p.fob f).keep with run := 0, blocked := false } ∧
      x.lastFrame = some ⟨fr.counter, fr.rep, now⟩ ∧ x.lastSeen = some now
    (now - since < 1500 → kept (q.fob f) ∧ (q.fob f).tracker = .tracking b since ∧ Part.Within takenAreas p q) ∧
      (1500 ≤ now - since → p.operationRefusal b.operation ≠ none → kept (q.fob f) ∧ (q.fob f).tracker = .spent b since ∧
        Part.Within takenAreas p q) ∧
      (1500 ≤ now - since → p.operationRefusal b.operation = none → kept (q.fob f) ∧ (q.fob f).tracker = .session b since ∧
        q.opHeader.map (fun h => (h.kind, h.origin, h.since)) = some (b.operation, .hold f, p.clock)) := by
  obtain ⟨own, -, within⟩ := p.frameTaken_leaves f fr now none
  dsimp only
  rw [(p.acceptFrame_acts f fr now).2]
  generalize p.frameTaken f fr now none = t at own within
  obtain ⟨keep, -, seen, -, frame, tracks, -⟩ := own
  have tracks : (t.fob f).tracker = .tracking b since := tracks.trans tracker
  have refusal : t.operationRefusal b.operation = p.operationRefusal b.operation := by
    have runs := Part.sequencerRuns_of_within within
    have crash : t.crashSet = p.crashSet := by rw [Part.crashSet, within.crash (by decide), Part.crashSet]
    rw [Part.operationRefusal, Part.operationRefusal, runs, crash]
  have e : t.continueTracker f now = if 1500 ≤ now - since then t.startSession f b since else t := by
    unfold Part.continueTracker
    rw [tracks]
  have set (x : Tracker) : ((t.setTracker f x).fob f) = { t.fob f with tracker := x } := (t.setTracker_fob f f x).trans (if_pos rfl)
  have fobs (x : Tracker) := t.setFob_within f { t.fob f with tracker := x }
  rw [e]
  refine ⟨fun early => ?_, fun long refused => ?_, fun long free => ?_⟩
  · rw [if_neg (by omega)]
    exact ⟨⟨keep, frame, seen⟩, tracks, within⟩
  · obtain ⟨x, hx⟩ := Option.ne_none_iff_exists'.1 refused
    have spent : t.startSession f b since = (t.setTracker f (.spent b since)).appendRow (holdRejectedRow f b.operation x.code) := by
      unfold Part.startSession
      dsimp only
      rw [refusal, hx]
    rw [if_pos long, spent]
    have row := ((t.setTracker f (.spent b since)).appendRow_does (holdRejectedRow f b.operation x.code)).toWithin
    have all := (within.trans (fobs (.spent b since)) (M := takenAreas) (by decide) (by decide)).trans row (M := takenAreas)
      (by decide) (by decide)
    rw [row.fob f (by decide), set]
    exact ⟨⟨keep, frame, seen⟩, rfl, all⟩
  · have began : t.startSession f b since =
        ((t.setTracker f (.session b since)).beginOperation b.operation (.hold f)).appendRow (holdStartedRow f b.operation) := by
      unfold Part.startSession
      dsimp only
      rw [refusal, free]
    rw [if_pos long, began]
    have begins := ((t.setTracker f (.session b since)).beginOperation_does b.operation (.hold f)).toWithin
    have header := (t.setTracker f (.session b since)).beginOperation_opHeader b.operation (.hold f)
    have clock : (t.setTracker f (.session b since)).clock = p.clock := within.clock
    generalize (t.setTracker f (.session b since)).beginOperation b.operation (.hold f) = r at begins header
    have row := (r.appendRow_does (holdStartedRow f b.operation)).toWithin
    obtain ⟨keep', -, seen', -, frame', tracker', -⟩ := begins.fobs (by decide) f
    rw [set] at keep' seen' frame' tracker'
    rw [row.fob f (by decide), row.opHeader, header]
    refine ⟨⟨keep'.trans keep, frame'.trans frame, seen'.trans seen⟩, tracker', ?_⟩
    rw [clock]
    rfl

end Sys2Proof.Machine
end

section
/-! REMOTE_FRAME in SERVICE (R11 to R13, R34, R133 to R141). -/

namespace Sys2Proof.Machine

section
variable {s : State} {fr : Frame} (serves : s.part.state = .service) (receiver : s.part.degraded.receiver = false)
include serves receiver

/-- A frame's service and the grants after it; the dwell restarts. -/
theorem completes_frame {post : Part → Prop}
    (done : ∀ r, Part.Within [.dwell] (settle (·.serveFrame fr s.part.clock) s.part) r → post r) : Completes (.remoteFrame fr) s post := by
  refine (completes_run (f := (·.frameHeard fr)) rfl).2 ?_
  rw [Part.frameHeard_serves fr serves receiver]
  exact done _ (Part.activity_does _).toWithin

/-- A frame whose service asks for no grant. -/
theorem completes_calmFrame {q : Part} {K : List Area} (e : s.part.serveFrame fr s.part.clock = q) (within : Part.Within K s.part q)
    {post : Part → Prop} (done : ∀ r, Part.Within [.dwell] q r → post r) (h1 : .holders ∉ K := by decide)
    (h2 : .waiting ∉ K := by decide) (h3 : .supply ∉ K := by decide) (h4 : .cfg ∉ K := by decide) :
    Completes (.remoteFrame fr) s post := by
  refine completes_frame serves receiver fun r hr => done r ?_
  rw [settle_within (f := (·.serveFrame fr s.part.clock)) (by rw [e]; exact within) h1 h2 h3 h4, e] at hr
  exact hr

/-- A rejected frame writes its row. -/
theorem completes_rejectedFrame {f : Fob} {why : FrameFault} (judged : s.part.judgeFrame fr s.part.clock = .rejected f why) :
    Completes (.remoteFrame fr) s fun p => p.fobs = s.part.fobs ∧ p.doors = s.part.doors ∧ p.latches = s.part.latches := by
  have row := (s.part.appendRow_does (frameRejectedRow f why fr.button fr.counter)).toWithin
  refine completes_calmFrame serves receiver (by unfold Part.serveFrame; rw [judged]; rfl) row fun r hr => ?_
  have all := row.trans hr (M := .dwell :: rowAreas) (by decide) (by decide)
  exact ⟨all.begun (by decide), all.doors (by decide), all.latches (by decide)⟩

/-- An ignored frame restarts the dwell. -/
theorem exec_ignoredFrame (judged : s.part.judgeFrame fr s.part.clock = .ignored) : exec (.remoteFrame fr) s =
    .next { s with part := { s.part with dwell := some (s.part.clock + s.part.cfg.dozeDwell) } } := by
  have none : s.part.serveFrame fr s.part.clock = s.part := by
    unfold Part.serveFrame
    rw [judged]
    rfl
  show s.run (·.frameHeard fr) = _
  refine run_next.2 ?_
  rw [Part.frameHeard_serves fr serves receiver, settle_unchanged (f := (·.serveFrame fr s.part.clock)) none]
  unfold Part.activity
  rw [if_pos (by rw [Part.inService, serves]; rfl)]
  rfl

/-- A frame too far ahead for a press becomes the candidate (R136). -/
theorem completes_candidateFrame {f : Fob} {d : Nat} (judged : s.part.judgeFrame fr s.part.clock = .candidate f d) :
    Completes (.remoteFrame fr) s fun p => p.fob f = { s.part.fob f with candidate := some ⟨fr.counter, s.part.clock⟩ } ∧
      p.doors = s.part.doors ∧ p.latches = s.part.latches := by
  have set := s.part.setFob_within f { s.part.fob f with candidate := some ⟨fr.counter, s.part.clock⟩ }
  have own := (Part.setFob_fob s.part f f { s.part.fob f with candidate := some ⟨fr.counter, s.part.clock⟩ }).trans (if_pos rfl)
  have row := ((s.part.setFob f { s.part.fob f with candidate := some ⟨fr.counter, s.part.clock⟩ }).appendRow_does
    (resyncCandidateRow f fr.counter d)).toWithin
  have within := set.trans row (M := [.fobs, .begun, .roster] ++ rowAreas) (by decide) (by decide)
  refine completes_calmFrame serves receiver (by unfold Part.serveFrame; rw [judged]; rfl) within fun r hr => ?_
  have all := within.trans hr (M := .dwell :: [.fobs, .begun, .roster] ++ rowAreas) (by decide) (by decide)
  exact ⟨(hr.fob f (by decide)).trans ((row.fob f (by decide)).trans own), all.doors (by decide), all.latches (by decide)⟩

section
variable {f : Fob} {pair : Bool} (judged : s.part.judgeFrame fr s.part.clock = .press f pair) (idle : (s.part.fob f).tracker = .idle)
include judged idle

/-- A press of a lock button with no hold running. -/
theorem completes_lockPress {k : LockButton} (button : Button.lockButton fr.button = some k) {post : Part → Prop}
    (done : ∀ t r : Part, Part.Within takenAreas s.part t → r.doors = (t.remotePress f k).doors →
      Part.Within (.dwell :: .doors :: takenAreas) s.part r →
      ({ (s.part.fob f).accept fr s.part.clock true with tracker := .tracking k s.part.clock } : FobRec).same (r.fob f) →
      (∀ g, g ≠ f → (s.part.fob g).same (r.fob g)) → post r) : Completes (.remoteFrame fr) s post := by
  obtain ⟨own, others, t, before, after⟩ := Part.pressed idle fr s.part.clock pair
  have acts : t.buttonAction f fr.button = t.remotePress f k := by
    unfold Part.buttonAction
    rw [button]
  rw [button] at own
  rw [acts] at after
  have presses := (t.remotePress_does f k).toWithin
  have served : s.part.serveFrame fr s.part.clock = s.part.acceptFrame f fr s.part.clock (some pair) := by
    unfold Part.serveFrame
    rw [judged]
    rfl
  have within := (before.trans presses (M := .doors :: takenAreas) (by decide) (by decide)).trans after (M := .doors :: takenAreas)
    (by decide) (by decide)
  refine completes_calmFrame serves receiver served within fun r hr => done t r before ?_ ?_ ?_ fun g hg => ?_
  · exact (hr.doors (by decide)).trans (after.doors (by decide))
  · exact within.trans hr (by decide) (by decide)
  · exact FobRec.same_trans own (hr.fobs (by decide) f)
  · exact FobRec.same_trans (others g hg) (hr.fobs (by decide) g)

set_option Elab.async false in -- the declarations above are finished first: this bounds the memory of the one text
/-- A press of the tailgate button with no hold running, its latch IDLE and nothing in the way (R34). -/
theorem completes_tailgatePress (button : fr.button = .tailgate) (noneWaits : s.part.waiting = []) (room : 1 ≤ s.part.unitsFree)
    (shut : (s.part.door .tg).ajar = .isClosed) (sound : (s.part.door .tg).fault ≠ .driver) (free : s.part.latch .tg = none) :
    Completes (.remoteFrame fr) s fun p =>
      ({ (s.part.fob f).accept fr s.part.clock true with tracker := .idle } : FobRec).same (p.fob f) ∧ p.doors = s.part.doors ∧
        p.latch .tg = some ⟨.pulsing, false, .release, ⟨false, false, false, true, false⟩, [],
          some (s.part.clock + s.part.cfg.latchPulse)⟩ := by
  obtain ⟨own, -, t, before, after⟩ := Part.pressed idle fr s.part.clock pair
  have acts : t.buttonAction f fr.button = t.releaseRequest .tg .remoteTg none := by
    unfold Part.buttonAction
    rw [button]
    rfl
  rw [button] at own
  rw [acts] at after
  have served : s.part.serveFrame fr s.part.clock = s.part.acceptFrame f fr s.part.clock (some pair) := by
    unfold Part.serveFrame
    rw [judged]
    rfl
  obtain ⟨waits, flies, holders, asks⟩ := Part.releaseRequest_waits (q := t) (d := .tg) (src := .remoteTg) nofun
    (by rw [before.door]; exact shut) (by rw [before.door]; exact sound) ((before.latch .tg (by decide)).trans free)
    ((before.waiting (by decide)).trans noneWaits)
  generalize t.releaseRequest .tg .remoteTg none = x at waits flies holders asks after
  have units : (s.part.acceptFrame f fr s.part.clock (some pair)).unitsFree = s.part.unitsFree := by
    rw [after.unitsFree, ← before.unitsFree, Part.unitsFree, Part.unitsFree, asks.budget (by decide) (by decide), holders]
  obtain ⟨pulses, rest⟩ := settle_pulsesTail (f := (·.serveFrame fr s.part.clock)) noneWaits served
    ((after.waiting (by decide)).trans waits) ((after.latch .tg (by decide)).trans flies) (by rw [units]; exact room)
  have first := before.trans asks (M := .latches :: .holders :: .waiting :: takenAreas) (by decide) (by decide)
  have all := first.trans after (M := .latches :: .holders :: .waiting :: takenAreas) (by decide) (by decide)
  refine completes_frame serves receiver fun r hr => ⟨?_, ?_, ?_⟩
  · exact FobRec.same_trans own (FobRec.same_trans (rest.fobs (by decide) f) (hr.fobs (by decide) f))
  · exact (hr.doors (by decide)).trans ((rest.doors (by decide)).trans (all.doors (by decide)))
  · rw [hr.latch .tg (by decide), pulses, all.clock, all.cfg (by decide)]
    rfl

end

/-- A continuation while its button is tracked. -/
theorem completes_continuation {f : Fob} {b : LockButton} {since : Nat} (judged : s.part.judgeFrame fr s.part.clock = .continuation f)
    (tracker : (s.part.fob f).tracker = .tracking b since) :
    let kept := fun p : Part => (p.fob f).keep = { (s.part.fob f).keep with run := 0, blocked := false } ∧
      (p.fob f).lastFrame = some ⟨fr.counter, fr.rep, s.part.clock⟩ ∧ (p.fob f).lastSeen = some s.part.clock
    (s.part.clock - since < 1500 → Completes (.remoteFrame fr) s fun p => kept p ∧ (p.fob f).tracker = .tracking b since ∧
      p.doors = s.part.doors ∧ p.operation = s.part.operation ∧ p.windows = s.part.windows) ∧
    (1500 ≤ s.part.clock - since → s.part.operationRefusal b.operation = none → Completes (.remoteFrame fr) s fun p =>
      kept p ∧ (p.fob f).tracker = .session b since ∧
        ∃ o, p.operation = some o ∧ o.kind = b.operation ∧ o.origin = .hold f ∧ o.since = s.part.clock) ∧
    (1500 ≤ s.part.clock - since → s.part.operationRefusal b.operation ≠ none → Completes (.remoteFrame fr) s fun p =>
      kept p ∧ (p.fob f).tracker = .spent b since ∧ p.operation = s.part.operation ∧ p.doors = s.part.doors ∧
        p.windows = s.part.windows) := by
  have served : s.part.serveFrame fr s.part.clock = s.part.acceptFrame f fr s.part.clock none := by
    unfold Part.serveFrame
    rw [judged]
    rfl
  obtain ⟨early, refused, started⟩ := Part.continued tracker fr s.part.clock
  refine ⟨fun h => ?_, fun h free => ?_, fun h busy => ?_⟩
  · obtain ⟨⟨keep, frame, seen⟩, tracks, within⟩ := early h
    refine completes_calmFrame serves receiver served within fun r hr => ?_
    dsimp only
    rw [hr.fob f (by decide), hr.doors (by decide), hr.operation (by decide), hr.windows (by decide)]
    exact ⟨⟨keep, frame, seen⟩, tracks, within.doors (by decide), within.operation (by decide), within.windows (by decide)⟩
  · obtain ⟨⟨keep, frame, seen⟩, tracks, header⟩ := started h free
    rw [← served] at keep frame seen tracks header
    have grants := (settle_grants (·.serveFrame fr s.part.clock) s.part).toWithin.fobs (by decide) f
    refine completes_frame serves receiver fun r hr => ?_
    have began := (hr.opHeader (by decide)).trans (settle_opHeader (·.serveFrame fr s.part.clock) s.part)
    obtain ⟨keep', -, seen', -, frame', tracker', -⟩ := grants
    have fob := hr.fob f (by decide)
    refine ⟨⟨by rw [fob]; exact keep'.trans keep, by rw [fob]; exact frame'.trans frame, by rw [fob]; exact seen'.trans seen⟩,
      by rw [fob]; exact tracker'.trans tracks, ?_⟩
    rw [← began] at header
    obtain ⟨x, hx, e⟩ := Option.map_eq_some_iff.1 header
    obtain ⟨o, ho, rfl⟩ := Option.map_eq_some_iff.1 hx
    obtain ⟨kind, e⟩ := Prod.mk.inj e
    obtain ⟨origin, time⟩ := Prod.mk.inj e
    exact ⟨o, ho, kind, origin, time⟩
  · obtain ⟨⟨keep, frame, seen⟩, tracks, within⟩ := refused h busy
    refine completes_calmFrame serves receiver served within fun r hr => ?_
    dsimp only
    rw [hr.fob f (by decide), hr.doors (by decide), hr.operation (by decide), hr.windows (by decide)]
    exact ⟨⟨keep, frame, seen⟩, tracks, within.operation (by decide), within.doors (by decide), within.windows (by decide)⟩

end

end Sys2Proof.Machine
end

section
/-! REMOTE_FRAME in SERVICE, by the judgement (R11 to R13, R34, R133 to R141). -/

namespace Sys2Proof.Machine

/-- The doors after a LOCK press, from the state before the frame. -/
theorem Part.lockPress_doors {p t r : Part} (f : Fob) (before : Part.Within takenAreas p t)
    (doors : r.doors = (t.remotePress f .lock).doors) :
    (p.crashSet = true → r.doors = p.doors) ∧
      (p.crashSet = false →
        (∀ d, r.door d = { p.door d with lock := lockAfter (p.doors.taken (pressAction (p.completesPair .lock))) (p.door d) }) ∧
        r.doors.relock = none ∧ r.doors.press = if p.completesPair .lock then none else some ⟨.lock, stampOf p.clock⟩) := by
  have same : t.doors = p.doors := before.doors (by decide)
  have crash : t.crashSet = p.crashSet := by rw [Part.crashSet, before.crash (by decide), Part.crashSet]
  have pair : t.completesPair .lock = p.completesPair .lock := by rw [Part.completesPair, same, before.clock, Part.completesPair]
  obtain ⟨refused, locks⟩ := t.remotePress_locks f
  rw [crash, pair, before.clock, same] at locks
  rw [crash, same] at refused
  have door (d : Door) : r.door d = (t.remotePress f .lock).door d := by rw [Part.door, doors, Part.door]
  refine ⟨fun crashed => doors.trans (refused crashed), fun clear => ?_⟩
  obtain ⟨own, relock, press⟩ := locks clear
  refine ⟨fun d => (door d).trans ((own d).trans ?_), by rw [doors, relock], by rw [doors, press]⟩
  rw [before.door d]

/-- Settles O50: the frame's verdict by `judgeCounter_none` and `judgeCounter_presses`, its effect by the lemma of the verdict. -/
theorem remoteFramesAreJudgedAndAct : Obligations.RemoteFramesAreJudgedAndAct := by
  unfold Obligations.RemoteFramesAreJudgedAndAct
  refine ⟨fun s fr serves receiver => ⟨fun unknown => ?_, fun f known bad => ?_, fun f known active sound button bare idle low high => ?_⟩,
    fun s fr f serves receiver known active sound => ?_⟩
  · refine exec_ignoredFrame serves receiver ?_
    unfold Part.judgeFrame
    rw [if_neg (by rw [receiver]; exact Bool.false_ne_true), unknown]
  · obtain ⟨why, judged⟩ := Part.judgeFrame_rejects receiver known bad s.part.clock
    exact (completes_rejectedFrame serves receiver judged).mono fun p ⟨fobs, doors, _⟩ => ⟨fobs, doors⟩
  · have judged := (Part.judgeFrame_counter receiver known active sound s.part.clock).trans
      ((FobRec.judgeCounter_none bare f fr s.part.clock).2.2.2.1 low high)
    refine completes_lockPress serves receiver judged idle (k := .unlock) (by rw [button]; rfl) fun t r before doors within own others => ?_
    obtain ⟨keep, -, frame, seen, zone, tracker⟩ := FobRec.accept_stored own
    refine ⟨keep, frame, seen, zone, tracker, others, fun plain d => ?_⟩
    rw [Part.door, doors]
    exact Part.remotePress_unlocks (p := t) (by rw [before.cfg (by decide)]; exact plain) f d
  · have judged := Part.judgeFrame_counter receiver known active sound s.part.clock
    dsimp only
    refine ⟨fun presses idle button => ?_, fun presses idle button noneWaits room shut works free => ?_, fun bare low high => ?_,
      fun bare out => ?_, fun ⟨bare, same, goesOn⟩ b since tracker => ?_, fun bare same stops => ?_⟩
    · obtain ⟨pair, press⟩ := FobRec.judgeCounter_presses f presses
      have lock {post : Part → Prop} := completes_lockPress serves receiver (judged.trans press) idle (k := .lock) (post := post)
        (by rw [button]; rfl)
      have pairs := Part.completesPair_iff (p := s.part) (b := .lock)
      rw [show pressWindow .lock = 2000 from rfl] at pairs
      rw [← pairs]
      refine ⟨lock fun t r before doors within own _ => ?_, fun crashed => lock fun t r before doors _ _ _ => ?_,
        fun clear single => lock fun t r before doors _ _ _ => ?_, fun clear double off closed => lock fun t r before doors _ _ _ => ?_⟩
      · obtain ⟨keep, candidate, frame, seen, -, tracker⟩ := FobRec.accept_stored own
        exact ⟨⟨keep, candidate, frame, seen⟩, tracker, within.latches (by decide), within.windows (by decide)⟩
      · exact (Part.lockPress_doors f before doors).1 crashed
      · obtain ⟨locks, relock, stamp⟩ := (Part.lockPress_doors f before doors).2 clear
        rw [Bool.not_eq_true] at single
        rw [single] at locks stamp
        refine ⟨relock, stamp, fun d => ?_⟩
        obtain ⟨unlocked, other⟩ := lockAfter_lock (s.part.door d)
        have own : r.door d = { s.part.door d with lock := lockAfter .lock (s.part.door d) } := locks d
        rw [own]
        refine ⟨rfl, ?_⟩
        by_cases open_ : (s.part.door d).lock = .unlocked
        · exact (unlocked open_).trans (if_pos open_).symm
        · exact (other open_).trans (if_neg open_).symm
      · obtain ⟨locks, relock, stamp⟩ := (Part.lockPress_doors f before doors).2 clear
        rw [double] at locks stamp
        have dead : s.part.doors.taken .deadlock = .deadlock := if_pos (by rw [(Doors.allShut_iff _).2 closed, off]; rfl)
        refine ⟨relock, stamp, fun d pending => ?_⟩
        rw [locks d, show pressAction true = .deadlock from rfl, dead]
        exact lockAfter_deadlock (closed d) pending
    · obtain ⟨pair, press⟩ := FobRec.judgeCounter_presses f presses
      refine (completes_tailgatePress serves receiver (judged.trans press) idle button noneWaits room shut works free).mono ?_
      intro p ⟨own, doors, latch⟩
      obtain ⟨keep, candidate, frame, seen, -, tracker⟩ := FobRec.accept_stored own
      exact ⟨⟨keep, candidate, frame, seen⟩, tracker, doors, latch⟩
    · exact completes_candidateFrame serves receiver (judged.trans ((FobRec.judgeCounter_none bare f fr _).2.2.2.2 low high))
    · exact completes_rejectedFrame serves receiver (judged.trans ((FobRec.judgeCounter_none bare f fr _).1 out))
    · have follows := (FobRec.judgeCounter_none bare f fr s.part.clock).2.1 same (FobRec.continues_iff.2 goesOn)
      obtain ⟨early, started, refused⟩ := completes_continuation serves receiver (judged.trans follows) tracker
      refine ⟨fun h => ?_, fun h still allowed => ?_, fun h busy => ?_⟩
      · rw [tracker]
        exact early h
      · refine (started h ?_).mono fun p ⟨kept, session, o, ho, opens, origin, time⟩ => ⟨kept, session, o, ho, opens.trans (by cases b <;> rfl), origin, time⟩
        unfold Part.operationRefusal
        rw [if_neg (by rw [still]; exact Bool.false_ne_true)]
        refine if_neg ?_
        rintro ⟨closes, crashed⟩
        rcases allowed with rfl | clear
        · cases closes
        · cases clear.symm.trans crashed
      · refine refused h ?_
        unfold Part.operationRefusal
        rcases busy with runs | ⟨rfl, crashed⟩
        · rw [if_pos runs]
          nofun
        · split
          · nofun
          · rw [if_pos ⟨rfl, crashed⟩]
            nofun
    · have ignores : ¬ (s.part.fob f).continues fr s.part.clock = true := fun h => stops ⟨bare, same, FobRec.continues_iff.1 h⟩
      rw [Bool.not_eq_true] at ignores
      refine ⟨_, exec_ignoredFrame serves receiver (judged.trans ((FobRec.judgeCounter_none bare f fr s.part.clock).2.2.1 same ignores)), rfl, rfl, rfl⟩

end Sys2Proof.Machine
end

section
/-! A report to a running operation, and its judgement (R154, R155). -/

namespace Sys2Proof.Machine

/-- The record as a report ends an entry (R154). -/
def Operation.take (o : Operation) (c : Corner) (r : EntryReason) : Operation :=
  { o with entries := o.entries.set c { o.entries.get c with state := .done, reason := some r } }

theorem Operation.take_entry (o : Operation) (c x : Corner) (r : EntryReason) : (o.take c r).entries.get x =
    if x = c then { o.entries.get c with state := .done, reason := some r } else o.entries.get x := PerCorner.get_set ..

theorem EntryState.live_iff (e : EntryState) : e.live = true ↔ e = .waiting ∨ e = .moving := by
  cases e <;> decide

theorem Operation.anyLive_iff (o : Operation) : o.anyLive = true ↔
    ∃ x, (o.entries.get x).state = .waiting ∨ (o.entries.get x).state = .moving := by
  have mem (x : Corner) : x ∈ Corner.all := by cases x <;> decide
  simp only [Operation.anyLive, List.any_eq_true, EntryState.live_iff]
  exact ⟨fun ⟨x, _, h⟩ => ⟨x, h⟩, fun ⟨x, h⟩ => ⟨x, mem x, h⟩⟩

/-- Every entry ended well (R155). -/
def Operation.good (o : Operation) : Prop :=
  ∀ x, (o.entries.get x).state = .done ∧ ((o.entries.get x).reason = some .atEnd ∨
    (o.kind = .vent ∧ (o.entries.get x).reason = some .target))

theorem Operation.outcome_judged (o : Operation) : (o.good → o.outcome = .completed) ∧ (¬ o.good → o.outcome = .partway) := by
  have mem (x : Corner) : x ∈ Corner.all := by cases x <;> decide
  have all : (Corner.all.all fun c => decide ((o.entries.get c).state = .done ∧ ((o.entries.get c).reason = some .atEnd ∨
      (o.kind = .vent ∧ (o.entries.get c).reason = some .target)))) = true ↔ o.good := by
    simp only [List.all_eq_true, decide_eq_true_iff]
    exact ⟨fun h x => h x (mem x), fun h x _ => h x⟩
  exact ⟨fun h => if_pos (all.2 h), fun h => if_neg (mt all.1 h)⟩

section
variable {p : Part} {o : Operation} (stands : p.operation = some o) (running : o.ended = none)
include stands running

/-- A report that meets a live entry (R154). -/
theorem Part.reportEnd_takes {c : Corner} (live : (o.entries.get c).state = .waiting ∨ (o.entries.get c).state = .moving)
    (r : EntryReason) :
    ∃ q, q.operation = some (o.take c r) ∧ Part.Within [.operation] p q ∧ p.reportEnd c r false = q ∧
      p.reportEnd c r true = q.judgeOperation := by
  have meets : p.liveEntry c = some (o.entries.get c) := by
    rw [Part.liveEntry, stands]
    exact if_pos (by rw [Operation.running, running, (EntryState.live_iff _).2 live]; rfl)
  have both (judge : Bool) : p.reportEnd c r judge = if judge then
      (p.setEntry c { o.entries.get c with state := .done, reason := some r }).judgeOperation
      else p.setEntry c { o.entries.get c with state := .done, reason := some r } := by
    unfold Part.reportEnd
    rw [meets]
  refine ⟨_, ?_, (p.setEntry_acts c _).toWithin, both false, both true⟩
  simp only [Part.setEntry, stands]
  rfl

omit running in
/-- An operation ended (R155): its record, and its order's head. -/
theorem Part.endOperation_ends (out : OpOutcome) :
    (p.endOperation out).operation = some { o with ended := some ⟨out, p.clock⟩ } ∧
      (∀ k, o.origin = .order k → (p.endOperation out).head k =
        { p.head k with state := .done, code := BitVec.ofNat 8 out.order.code }) ∧
      Part.Within (.operation :: orderAreas) p (p.endOperation out) := by
  have set := (p.setOperation_acts (some { o with ended := some ⟨out, p.clock⟩ })).toWithin
  have op : (p.setOperation (some { o with ended := some ⟨out, p.clock⟩ })).operation = some { o with ended := some ⟨out, p.clock⟩ } := rfl
  have heads : (p.setOperation (some { o with ended := some ⟨out, p.clock⟩ })).heads = p.heads := rfl
  unfold Part.endOperation
  rw [stands]
  dsimp only
  generalize p.setOperation (some { o with ended := some ⟨out, p.clock⟩ }) = q at set op heads
  split
  · rename_i k origin
    have done := (q.orderDone_does k out.order o.word6 o.word7).toWithin
    refine ⟨(done.operation (by decide)).trans op, fun x hx => ?_, set.trans done (by decide) (by decide)⟩
    obtain rfl := Origin.order.inj (hx.symm.trans origin)
    refine (Part.orderDone_head ..).trans ((if_pos rfl).trans ?_)
    rw [Part.head, heads, Part.head]
  · rename_i f origin
    refine ⟨op, fun x hx => ?_, set.mono (by decide)⟩
    cases hx.symm.trans origin

/-- The judgement of a running operation (R155). -/
theorem Part.judgeOperation_judges :
    (o.anyLive = true → p.judgeOperation = p) ∧ (o.anyLive = false → p.judgeOperation = p.endOperation o.outcome) := by
  have e : p.judgeOperation = if o.running && !o.anyLive then p.endOperation o.outcome else p := by
    unfold Part.judgeOperation
    rw [stands]
  have runs : o.running = true := by rw [Operation.running, running]; rfl
  rw [e, runs]
  refine ⟨fun h => if_neg (by rw [h]; exact Bool.false_ne_true), fun h => if_pos (by rw [h]; rfl)⟩

end

/-- What a judged report leaves: the entry, and the operation's end where no other entry is live. -/
structure Part.Judged (p q : Part) (o : Operation) (c : Corner) (r : EntryReason) (x : Operation) : Prop where
  stands : q.operation = some x
  entries : x.entries = (o.take c r).entries
  header : x.kind = o.kind ∧ x.origin = o.origin ∧ x.since = o.since ∧ x.lock = o.lock
  goesOn : (∃ y, y ≠ c ∧ ((o.entries.get y).state = .waiting ∨ (o.entries.get y).state = .moving)) → x.ended = none ∧ q.heads = p.heads
  ends : (∀ y, y ≠ c → ¬ ((o.entries.get y).state = .waiting ∨ (o.entries.get y).state = .moving)) →
    x.ended = some ⟨(o.take c r).outcome, p.clock⟩ ∧
      ∀ k, o.origin = .order k → q.head k = { p.head k with state := .done, code := BitVec.ofNat 8 (o.take c r).outcome.order.code }

set_option Elab.async false in -- the declarations above are finished first: this bounds the memory of the one text
theorem Part.reported_judged {p q : Part} {o : Operation} {c : Corner} {r : EntryReason} (stands : q.operation = some (o.take c r))
    (running : o.ended = none) (clock : q.clock = p.clock) (heads : q.heads = p.heads) :
    (∃ x, p.Judged q.judgeOperation o c r x) ∧ Part.Within (.operation :: orderAreas) q q.judgeOperation := by
  obtain ⟨goesOn, ends⟩ := Part.judgeOperation_judges stands running
  have live : (o.take c r).anyLive = true ↔ ∃ y, y ≠ c ∧ ((o.entries.get y).state = .waiting ∨ (o.entries.get y).state = .moving) := by
    rw [Operation.anyLive_iff]
    refine ⟨fun ⟨y, h⟩ => ?_, fun ⟨y, hy, h⟩ => ⟨y, by rw [Operation.take_entry, if_neg hy]; exact h⟩⟩
    rw [Operation.take_entry] at h
    by_cases hy : y = c
    · rw [if_pos hy] at h
      rcases h with h | h <;> cases h
    · rw [if_neg hy] at h
      exact ⟨y, hy, h⟩
  cases any : (o.take c r).anyLive with
  | true =>
    rw [goesOn any]
    refine ⟨⟨_, stands, rfl, ⟨rfl, rfl, rfl, rfl⟩, fun _ => ⟨running, heads⟩, fun none => ?_⟩, .refl _ q⟩
    obtain ⟨y, hy, h⟩ := live.1 any
    exact absurd h (none y hy)
  | false =>
    obtain ⟨ended, head, within⟩ := Part.endOperation_ends stands (o.take c r).outcome
    rw [ends any]
    refine ⟨⟨_, ended, rfl, ⟨rfl, rfl, rfl, rfl⟩, fun some => ?_, fun _ => ⟨by rw [clock], fun k hk => ?_⟩⟩, within⟩
    · cases (live.2 some).symm.trans any
    · refine (head k hk).trans ?_
      rw [Part.head, Part.head, heads]

end Sys2Proof.Machine
end

section
/-! A soft stop reached or a wait limit passed in an operation (R65, R101, R154, R155). -/

namespace Sys2Proof.Machine

/-- A TARGET move that counts to a soft stop ends there (R65). -/
theorem Part.countedEnd_softStop {p : Part} {c : Corner} {t : Nat} (learned : (p.window c).learned = true)
    (mode : (p.window c).mode = some .target) (target : (p.window c).target = some t) (soft : (p.window c).isSoftStop p.cfg t = true)
    (reached : ((p.window c).motion = .opening ∧ (p.window c).position ≤ t) ∨ ((p.window c).motion = .closing ∧ t ≤ (p.window c).position)) :
    p.countedEnd c = some .atEnd := by
  unfold Part.countedEnd
  rcases reached with ⟨motion, there⟩ | ⟨motion, there⟩
  all_goals
    dsimp only
    rw [motion, mode]
    dsimp only
    rw [target]
    dsimp only
    rw [learned, soft]
    exact if_pos (by simp [Motion.dir, there])

set_option Elab.async false in -- the declarations above are finished first: this bounds the memory of the one text
/-- The pulse of an operation's window that reaches a soft stop: its entry DONE with END, the operation judged. -/
theorem Part.pulse_ends {p : Part} {c : Corner} {o : Operation} {high us t : Nat} (stands : p.operation = some o) (running : o.ended = none)
    (live : (o.entries.get c).state = .waiting ∨ (o.entries.get c).state = .moving) (long : 200 ≤ high)
    (mover : (p.window c).mover = some .sequencer) (mode : (p.window c).mode = some .target) (learned : (p.window c).learned = true)
    (free : (p.monitor c).learn = none) (target : (p.window c).target = some t) (soft : (p.window c).isSoftStop p.cfg t = true)
    (clear : ∀ t, (p.window c).lastPulse = some t →
      (p.pulsedAt c (p.clock * 1000 + us)).pinchTest c (p.clock * 1000 + us - t) = none)
    {pos : Nat} (counts : (p.window c).count (p.window c).motion.dir false = pos)
    (reached : ((p.window c).motion = .opening ∧ pos ≤ t) ∨ ((p.window c).motion = .closing ∧ t ≤ pos)) :
    let q := p.hallPulse c high us
    (∃ x, p.Judged q o c .atEnd x) ∧ (q.window c).motion = .stopped ∧ q.waiting = p.waiting := by
  have driven : (p.window c).motion ≠ .stopped := by
    rcases reached with ⟨m, -⟩ | ⟨m, -⟩ <;> rw [m] <;> nofun
  obtain ⟨window, -, -, within⟩ := p.pulseSound_fields c (p.clock * 1000 + us)
  have learn : ((p.pulseSound c (p.clock * 1000 + us)).monitor c).learn = none := by
    rw [Part.pulseSound_learn, free]
    rfl
  have own := (window c).trans (if_pos rfl)
  rw [free, Option.isSome_none, WindowRec.counted_at counts] at own
  dsimp only
  rw [Part.hallPulse_sound long driven clear]
  generalize p.pulseSound c (p.clock * 1000 + us) = q at within learn own
  have cfg : q.cfg = p.cfg := within.cfg (by decide)
  have ended : q.countedEnd c = some .atEnd := by
    refine Part.countedEnd_softStop (t := t) ?_ ?_ ?_ ?_ ?_
    all_goals rw [own]
    · exact learned
    · exact mode
    · exact target
    · rw [cfg]
      exact soft
    · exact reached
  have stops : q.pulseEnds c = (q.stopWindow c .atEnd).reportEnd c .atEnd true := by
    have forward : ¬ (q.window c).motion = .reversing := by
      rw [own]
      rcases reached with ⟨m, -⟩ | ⟨m, -⟩ <;> exact fun e => by cases m.symm.trans e
    have told : (q.window c).mover = some .sequencer := by rw [own]; exact mover
    unfold Part.pulseEnds Part.stopAndTell
    rw [if_neg (by rw [Part.learnOverrun_free learn]; exact Bool.false_ne_true), ended]
    dsimp only
    rw [if_neg forward, told]
    rfl
  have halts := (q.stopWindow_acts c .atEnd).toWithin
  have halted := (q.stopWindow_window c c .atEnd).trans (if_pos rfl)
  have waits := q.stopWindow_waiting c .atEnd
  rw [stops]
  generalize q.stopWindow c .atEnd = r at halts halted waits
  have stands : r.operation = some o := (halts.operation (by decide)).trans ((within.operation (by decide)).trans stands)
  obtain ⟨x, takes, report, -, judged⟩ := Part.reportEnd_takes stands running live .atEnd
  obtain ⟨ends, judges⟩ := Part.reported_judged (p := p) takes running (report.clock.trans (halts.clock.trans within.clock))
    ((report.heads (by decide)).trans ((halts.heads (by decide)).trans (within.heads (by decide))))
  rw [judged]
  refine ⟨ends, ?_, ?_⟩
  · rw [judges.window c (by decide), report.window c (by decide), halted]
    rfl
  · rw [judges.waiting (by decide), report.waiting (by decide), waits, within.waiting (by decide)]

/-- The wait limit of an operation's window: its entry DONE with BUDGET-TIMEOUT, the operation judged. -/
theorem Part.waitLimit_ends {p : Part} {c : Corner} {o : Operation} {w : Waiter} {x : Pending} (stands : p.operation = some o)
    (running : o.ended = none) (live : (o.entries.get c).state = .waiting ∨ (o.entries.get c).state = .moving)
    (waits : p.waiting = [w]) (own : w.actuator = .window c) (isDue : w.limit ≤ p.clock) (pends : (p.window c).pending = some x)
    (mover : x.cmd.mover = .sequencer) :
    let q := p.waitExpiry (.window c)
    (∃ y, p.Judged q o c .budgetTimeout y) ∧ (q.window c).pending = none ∧ q.waiting = [] := by
  have lists := p.setLists_within p.holders []
  have window (y : Corner) := Part.setWindow_window (p.setLists p.holders []) c y { p.window c with pending := none }
  have clears := (p.setLists p.holders []).setWindow_within c { p.window c with pending := none }
  have expires : p.waitExpiry (.window c) =
      ((p.setLists p.holders []).setWindow c { p.window c with pending := none }).reportEnd c .budgetTimeout true := by
    have e := (Part.waitExpiry_due waits isDue).1 c own
    rw [own] at e
    rw [e]
    have same : (p.setLists p.holders []).window c = p.window c := rfl
    unfold Part.pendingTimeout
    rw [same, pends]
    dsimp only
    rw [mover]
    rfl
  dsimp only
  rw [expires]
  have empty : ((p.setLists p.holders []).setWindow c { p.window c with pending := none }).waiting = [] := rfl
  generalize (p.setLists p.holders []).setWindow c { p.window c with pending := none } = q at window clears empty
  have within := lists.trans clears (M := [.windows, .holders, .waiting]) (by decide) (by decide)
  obtain ⟨r, takes, report, -, judged⟩ := Part.reportEnd_takes ((within.operation (by decide)).trans stands) running live .budgetTimeout
  obtain ⟨ends, judges⟩ := Part.reported_judged (p := p) takes running (report.clock.trans within.clock)
    ((report.heads (by decide)).trans (within.heads (by decide)))
  rw [judged]
  refine ⟨ends, ?_, ?_⟩
  · rw [judges.window c (by decide), report.window c (by decide), window c, if_pos rfl]
  · rw [judges.waiting (by decide), report.waiting (by decide), empty]

end Sys2Proof.Machine
end

section
/-! Entries ended together: the crash event and the end of a hold session (R154 to R158). -/

namespace Sys2Proof.Machine

/-! ### What leaves an operation running, some of its live entries ended -/

/-- The operation as live entries of the corners in `S` are ended with `r`. -/
structure Operation.Dismissed (S : Corner → Prop) (r : EntryReason) (o x : Operation) : Prop where
  header : x.header = o.header
  running : x.ended = none
  entry : ∀ c, x.entries.get c = o.entries.get c ∨ (S c ∧ (o.entries.get c).state.live = true ∧
    x.entries.get c = { o.entries.get c with state := .done, reason := some r })

/-- A running operation goes on with live entries of `S` ended with `r`; heads change at most to DONE. -/
structure Part.Dismisses (S : Corner → Prop) (r : EntryReason) (p q : Part) : Prop where
  clock : q.clock = p.clock
  head : ∀ k, q.head k = p.head k ∨ ∃ code, q.head k = { p.head k with state := .done, code := code }
  operation : ∀ o, p.operation = some o → o.ended = none → ∃ x, q.operation = some x ∧ o.Dismissed S r x

theorem Part.Dismisses.of_within {K : List Area} {p q : Part} (w : Part.Within K p q) (S : Corner → Prop) (r : EntryReason)
    (h1 : .operation ∉ K := by decide) (h2 : .heads ∉ K := by decide) : Part.Dismisses S r p q :=
  ⟨w.clock, fun k => .inl (w.head k h2), fun o ho running => ⟨o, (w.operation h1).trans ho, rfl, running, fun _ => .inl rfl⟩⟩

theorem Part.Dismisses.refl (S : Corner → Prop) (r : EntryReason) (p : Part) : Part.Dismisses S r p p :=
  .of_within (K := []) (.refl _ p) S r

theorem Part.Dismisses.mono {S T : Corner → Prop} {r : EntryReason} {p q : Part} (h : Part.Dismisses S r p q) (sub : ∀ c, S c → T c) :
    Part.Dismisses T r p q :=
  ⟨h.clock, h.head, fun o ho running => by
    obtain ⟨x, hx, header, still, entry⟩ := h.operation o ho running
    exact ⟨x, hx, header, still, fun c => (entry c).imp id fun ⟨mem, rest⟩ => ⟨sub c mem, rest⟩⟩⟩

theorem Part.Dismisses.trans {S : Corner → Prop} {r : EntryReason} {p q z : Part} (h : Part.Dismisses S r p q)
    (k : Part.Dismisses S r q z) : Part.Dismisses S r p z := by
  refine ⟨k.clock.trans h.clock, fun s => ?_, fun o ho running => ?_⟩
  · rcases k.head s with e | ⟨code, e⟩
    · rw [e]
      exact h.head s
    · rw [e]
      rcases h.head s with e' | ⟨code', e'⟩ <;> exact .inr ⟨code, by rw [e']⟩
  · obtain ⟨x, hx, header, still, entry⟩ := h.operation o ho running
    obtain ⟨y, hy, header', still', entry'⟩ := k.operation x hx still
    refine ⟨y, hy, header'.trans header, still', fun c => ?_⟩
    rcases entry c with e | ⟨mem, live, e⟩
    · rw [← e]
      exact entry' c
    · refine .inr ⟨mem, live, ?_⟩
      rcases entry' c with e' | ⟨-, live', -⟩
      · exact e'.trans e
      · rw [e] at live'
        cases live'

/-- An entry that is not live stays. -/
theorem Operation.Dismissed.kept {S : Corner → Prop} {r : EntryReason} {o x : Operation} (h : o.Dismissed S r x) {c : Corner}
    (dead : ¬ S c ∨ (o.entries.get c).state.live = false) : x.entries.get c = o.entries.get c := by
  rcases h.entry c with e | ⟨mem, live, -⟩
  · exact e
  · rcases dead with n | n
    · exact absurd mem n
    · cases n.symm.trans live

/-! ### The steps -/

/-- The entry a report for a window meets. -/
theorem Part.liveEntry_of {p : Part} {o : Operation} (stands : p.operation = some o) (running : o.ended = none) (c : Corner) :
    p.liveEntry c = if (o.entries.get c).state.live then some (o.entries.get c) else none := by
  have runs : o.running = true := by rw [Operation.running, running]; rfl
  rw [Part.liveEntry, stands]
  show (if o.running && (o.entries.get c).state.live then _ else _) = _
  rw [runs, Bool.true_and]

theorem Part.orderDone_dismisses (p : Part) (k : Slot) (o : OrderOutcome) (a b : Word) (S : Corner → Prop) (r : EntryReason) :
    Part.Dismisses S r p (p.orderDone k o a b) := by
  have within := (p.orderDone_does k o a b).toWithin
  refine ⟨within.clock, fun x => ?_, fun y hy running => ⟨y, (within.operation (by decide)).trans hy, rfl, running, fun _ => .inl rfl⟩⟩
  rw [Part.orderDone_head]
  split
  · subst_vars
    exact .inr ⟨_, rfl⟩
  · exact .inl rfl

theorem Part.reportEnd_dismisses (p : Part) (c : Corner) (r : EntryReason) : Part.Dismisses (· = c) r p (p.reportEnd c r false) := by
  have within := p.reportEnd_unjudged c r
  refine ⟨within.clock, fun k => .inl (within.head k (by decide)), fun o ho running => ?_⟩
  by_cases live : (o.entries.get c).state.live = true
  · obtain ⟨q, takes, -, e, -⟩ := Part.reportEnd_takes ho running ((EntryState.live_iff _).1 live) r
    refine ⟨o.take c r, by rw [e, takes], rfl, running, fun x => ?_⟩
    rw [Operation.take_entry]
    by_cases hx : x = c
    · subst hx
      exact .inr ⟨rfl, live, if_pos rfl⟩
    · exact .inl (if_neg hx)
  · have none : p.liveEntry c = none := (Part.liveEntry_of ho running c).trans (if_neg live)
    refine ⟨o, ?_, rfl, running, fun _ => .inl rfl⟩
    unfold Part.reportEnd
    rw [none]
    exact ho

theorem Part.endLearn_dismisses (p : Part) (c : Corner) (o : OrderOutcome) (n : Option Nat) (clamp : Bool) (S : Corner → Prop)
    (r : EntryReason) : Part.Dismisses S r p (p.endLearn c o n clamp) := by
  unfold Part.endLearn
  split
  · exact .refl S r p
  · rename_i l _
    have closed : Part.Dismisses S r p (p.closeLearn c l (some o) n) := .of_within (p.closeLearn_does c l _ n).toWithin S r
    dsimp only
    split
    · exact (closed.trans (Part.orderDone_dismisses ..)).trans (.of_within (Part.clampPosition_does _ c).toWithin S r)
    · exact closed.trans (Part.orderDone_dismisses ..)

theorem Part.tellMover_dismisses (p : Part) (c : Corner) (m : Option Mover) (o : OrderOutcome) (r : EntryReason)
    (stop : Option StopReason) : Part.Dismisses (· = c) r p (p.tellMover c m o r stop false) := by
  unfold Part.tellMover
  split
  · exact .refl _ r p
  · exact .refl _ r p
  · exact .refl _ r p
  · exact p.reportEnd_dismisses c r
  · split
    · exact p.endLearn_dismisses c o _ _ _ r
    · exact p.orderDone_dismisses _ o _ _ _ r

theorem Part.stopAndTell_dismisses (p : Part) (c : Corner) (r : StopReason) :
    Part.Dismisses (· = c) r.entry p (p.stopAndTell c r false) :=
  Part.Dismisses.trans (.of_within (p.stopWindow_acts c r).toWithin _ _) (Part.tellMover_dismisses ..)

theorem Part.withdrawPending_dismisses (p : Part) (c : Corner) (o : OrderOutcome) (r : EntryReason) :
    Part.Dismisses (· = c) r p (p.withdrawPending c o r false) := by
  unfold Part.withdrawPending
  split
  · exact .refl _ r p
  · exact Part.Dismisses.trans (.of_within (p.dropPending_within c) _ _) (Part.tellMover_dismisses ..)

/-- An entry reported ended is not live after it. -/
theorem Part.reportEnd_dead (p : Part) (c : Corner) (r : EntryReason) {o x : Operation} (ho : p.operation = some o)
    (running : o.ended = none) (hx : (p.reportEnd c r false).operation = some x) : (x.entries.get c).state.live = false := by
  by_cases live : (o.entries.get c).state.live = true
  · obtain ⟨q, takes, -, e, -⟩ := Part.reportEnd_takes ho running ((EntryState.live_iff _).1 live) r
    rw [e, takes] at hx
    obtain rfl := Option.some.inj hx
    rw [Operation.take_entry, if_pos rfl]
    rfl
  · have none : p.liveEntry c = none := (Part.liveEntry_of ho running c).trans (if_neg live)
    unfold Part.reportEnd at hx
    rw [none] at hx
    obtain rfl := Option.some.inj (ho.symm.trans hx)
    exact Bool.eq_false_iff.2 live

theorem Part.Dismisses.foldl {f : Part → Corner → Part} {r : EntryReason} (step : ∀ q c, Part.Dismisses (· = c) r q (f q c)) :
    ∀ (l : List Corner) (p : Part), Part.Dismisses (fun _ => True) r p (l.foldl f p)
  | [], p => .refl _ r p
  | c :: l, p => ((step p c).mono fun _ _ => trivial).trans (Part.Dismisses.foldl step l _)

/-- A step for each window that ends its entry: none is live after the four. -/
theorem Part.eachCorner_dead {f : Part → Corner → Part} {r : EntryReason} (step : ∀ q c, Part.Dismisses (· = c) r q (f q c))
    (dead : ∀ q c o x, q.operation = some o → o.ended = none → (f q c).operation = some x → (x.entries.get c).state.live = false)
    {p : Part} {o x : Operation} (ho : p.operation = some o) (running : o.ended = none) (hx : (p.eachCorner f).operation = some x)
    (c : Corner) : (x.entries.get c).state.live = false := by
  have all : ∀ (l : List Corner) (p : Part) (o x : Operation), p.operation = some o → o.ended = none → (l.foldl f p).operation = some x →
      ∀ c ∈ l, (x.entries.get c).state.live = false := by
    intro l
    induction l with
    | nil => exact fun _ _ _ _ _ _ c hc => absurd hc List.not_mem_nil
    | cons y l ih =>
      intro p o x ho running hx c hc
      obtain ⟨z, hz, first⟩ := (step p y).operation o ho running
      by_cases later : c ∈ l
      · exact ih (f p y) z x hz first.running hx c later
      · obtain rfl := (List.mem_cons.1 hc).resolve_right later
        obtain ⟨x', hx', after⟩ := (Part.Dismisses.foldl step l (f p c)).operation z hz first.running
        obtain rfl := Option.some.inj (hx.symm.trans hx')
        have gone := dead p c o z ho running hz
        rw [after.kept (.inr gone)]
        exact gone
  exact all Corner.all p o x ho running hx c (by cases c <;> decide)

/-- What remains as none is live: each live entry ended with `r`, the others as they were. -/
theorem Operation.Dismissed.all {S : Corner → Prop} {r : EntryReason} {o x : Operation} (h : o.Dismissed S r x)
    (none : ∀ c, (x.entries.get c).state.live = false) (c : Corner) :
    ((o.entries.get c).state.live = true → x.entries.get c = { o.entries.get c with state := .done, reason := some r }) ∧
      ((o.entries.get c).state.live = false → x.entries.get c = o.entries.get c) := by
  refine ⟨fun live => ?_, fun dead => h.kept (.inr dead)⟩
  rcases h.entry c with e | ⟨-, -, e⟩
  · have := none c
    rw [e, live] at this
    cases this
  · exact e

set_option Elab.async false in -- the declarations above are finished first: this bounds the memory of the one text
theorem Part.windowCrash_dismisses (p : Part) (c : Corner) : Part.Dismisses (· = c) .crash p (p.windowCrash c) := by
  have mark : Part.Dismisses (· = c) .crash p (p.markLearn c) := .of_within (p.markLearn_does c).toWithin _ _
  have stops : Part.Dismisses (· = c) .crash p (if ((p.markLearn c).window c).motion = .closing then
      (p.markLearn c).stopAndTell c .crash false else p.markLearn c) := by
    split
    · exact mark.trans (Part.stopAndTell_dismisses _ c .crash)
    · exact mark
  unfold Part.windowCrash
  dsimp only
  split
  · split
    · exact stops.trans (Part.withdrawPending_dismisses _ c _ _)
    · exact stops
  · exact stops

theorem Part.crashEntry_dismisses (p : Part) (c : Corner) : Part.Dismisses (· = c) .crash p (p.crashEntry c) ∧
    ∀ o x, p.operation = some o → o.ended = none → (p.crashEntry c).operation = some x → (x.entries.get c).state.live = false := by
  unfold Part.crashEntry
  split
  · rename_i none
    refine ⟨.refl _ _ p, fun o x ho running hx => ?_⟩
    obtain rfl := Option.some.inj (ho.symm.trans hx)
    rw [Part.liveEntry_of ho running] at none
    exact Bool.eq_false_iff.2 fun live => by rw [if_pos live] at none; cases none
  · rename_i e _
    have first : Part.Dismisses (· = c) .crash p (if e.state = .waiting then p.withdrawPending c .crash .crash false else p) := by
      split
      · exact p.withdrawPending_dismisses c _ _
      · exact .refl _ _ p
    refine ⟨first.trans (Part.reportEnd_dismisses _ c _), fun o x ho running hx => ?_⟩
    obtain ⟨y, hy, h⟩ := first.operation o ho running
    exact Part.reportEnd_dead _ c .crash hy h.running hx

theorem Part.dismissEntry_dismisses (p : Part) (r : StopReason) (c : Corner) : Part.Dismisses (· = c) r.entry p (p.dismissEntry r c) ∧
    ∀ o x, p.operation = some o → o.ended = none → (p.dismissEntry r c).operation = some x → (x.entries.get c).state.live = false := by
  unfold Part.dismissEntry
  split
  · rename_i none
    refine ⟨.refl _ _ p, fun o x ho running hx => ?_⟩
    obtain rfl := Option.some.inj (ho.symm.trans hx)
    rw [Part.liveEntry_of ho running] at none
    exact Bool.eq_false_iff.2 fun live => by rw [if_pos live] at none; cases none
  · rename_i e _
    have first : Part.Dismisses (· = c) r.entry p (if e.state = .moving then
        if (p.window c).underWay then p.stopAndTell c r false else p else p.withdrawPending c r.outcome r.entry false) := by
      split
      · split
        · exact p.stopAndTell_dismisses c r
        · exact .refl _ _ p
      · exact p.withdrawPending_dismisses c _ _
    refine ⟨first.trans (Part.reportEnd_dismisses _ c _), fun o x ho running hx => ?_⟩
    obtain ⟨y, hy, h⟩ := first.operation o ho running
    exact Part.reportEnd_dead _ c r.entry hy h.running hx

end Sys2Proof.Machine
end

section
/-! The crash event and the end of a hold session, at the operation (R156, R158). -/

namespace Sys2Proof.Machine

/-! ### An ended operation stays -/

theorem Part.reportGrant_ended {p : Part} {o : Operation} (ho : p.operation = some o) (ended : o.ended ≠ none) (c : Corner) :
    p.reportGrant c = p := by
  have none : p.liveEntry c = none := by
    rw [Part.liveEntry, ho]
    have still : o.running = false := by
      cases h : o.ended with
      | none => exact absurd h ended
      | some _ => simp [Operation.running, h]
    exact if_neg (by rw [still]; exact Bool.false_ne_true)
  unfold Part.reportGrant
  rw [none]

theorem Part.windowGranted_ended {p : Part} {o : Operation} (ho : p.operation = some o) (ended : o.ended ≠ none) (c : Corner) :
    (p.windowGranted c).operation = some o := by
  unfold Part.windowGranted
  split
  · exact ho
  · rename_i x _
    dsimp only
    have started := ((Part.startMove_within (p.setMonitor c { p.monitor c with
      learn := (p.monitor c).learn.map fun l => { l with phase := .down, count := 0 } }) c x.cmd).operation (by decide)).trans ho
    split
    · rw [Part.reportGrant_ended started ended]
      exact started
    · exact started

theorem grantHeads_ended {o : Operation} (ended : o.ended ≠ none) : ∀ (n : Nat) (p : Part), p.operation = some o →
    (grantHeads n p).operation = some o
  | 0, _, ho => ho
  | n + 1, p, ho => by
    unfold grantHeads
    split
    · exact ho
    · rename_i w rest _
      split
      · refine grantHeads_ended ended n _ ?_
        cases w.actuator with
        | window c => exact Part.windowGranted_ended (p := p.setLists _ rest) ho ended c
        | latch d => exact ((Part.startPulse_does _ d).toWithin.operation (by decide)).trans ho
      · exact ho

theorem settle_ended {f : Part → Part} {p : Part} {o : Operation} (ho : (f p).operation = some o) (ended : o.ended ≠ none) :
    (settle f p).operation = some o := by
  unfold settle
  dsimp only
  split
  · exact ho
  · exact grantHeads_ended ended _ _ ho

/-! ### The crash event -/

/-- Entries ended together, the operation ended with them. -/
structure Part.EndsAll (p q : Part) (o : Operation) (r : EntryReason) (out : OpOutcome) (x : Operation) : Prop where
  stands : q.operation = some x
  header : x.header = o.header
  ended : x.ended = some ⟨out, p.clock⟩
  entry : ∀ c, ((o.entries.get c).state.live = true → x.entries.get c = { o.entries.get c with state := .done, reason := some r }) ∧
    ((o.entries.get c).state.live = false → x.entries.get c = o.entries.get c)
  head : ∀ k, o.origin = .order k → q.head k = { p.head k with state := .done, code := BitVec.ofNat 8 out.order.code }

/-- The crash event ends a running operation CRASH (R158). -/
theorem Part.crashEvent_operation {p : Part} {o : Operation} (ho : p.operation = some o) (running : o.ended = none) :
    ∃ x, p.EndsAll p.crashEvent o .crash .crash x := by
  unfold Part.crashEvent
  dsimp only
  generalize hq : (Part.appendRow _ _).crashDoors = q
  have first : Part.Within (.crash :: lockAreas) p q := by
    rw [← hq]
    refine Part.Within.trans (q := { p with crash := { p.crash with latch := some p.nextLatch } }) (K := [.crash]) ?_
      (((Part.appendRow_does _ _).toWithin.trans (Part.crashDoors_does _).toWithin (M := lockAreas) (by decide) (by decide))) (by decide)
      (by decide)
    exact p.crash_within _
  have stands : q.operation = some o := (first.operation (by decide)).trans ho
  have windows : Part.Dismisses (fun _ => True) .crash q (q.eachCorner Part.windowCrash) := .foldl Part.windowCrash_dismisses Corner.all q
  obtain ⟨o1, ho1, dismissed⟩ := windows.operation o stands running
  generalize q.eachCorner Part.windowCrash = z at windows ho1
  have step (q : Part) (c : Corner) := (q.crashEntry_dismisses c).1
  have entries : Part.Dismisses (fun _ => True) .crash z (z.eachCorner Part.crashEntry) := .foldl step Corner.all z
  obtain ⟨o2, ho2, more⟩ := entries.operation o1 ho1 dismissed.running
  have both := windows.trans entries
  have runs : z.sequencerRuns = true := by
    rw [Part.sequencerRuns, ho1]
    exact congrArg Option.isNone dismissed.running
  have e : z.crashOperation = (z.eachCorner Part.crashEntry).endOperation .crash := if_pos runs
  rw [e]
  obtain ⟨x, hx, all⟩ := both.operation o stands running
  have dead := Part.eachCorner_dead step (fun q c => (q.crashEntry_dismisses c).2) ho1 dismissed.running ho2
  obtain rfl := Option.some.inj (hx.symm.trans ho2)
  obtain ⟨ended, head, -⟩ := Part.endOperation_ends hx .crash
  have trackers := (Part.eachFob_does ((z.eachCorner Part.crashEntry).endOperation .crash) Part.crashTracker_does).toWithin
  have clock : (z.eachCorner Part.crashEntry).clock = p.clock := both.clock.trans first.clock
  refine ⟨{ x with ended := some ⟨.crash, p.clock⟩ }, (trackers.operation (by decide)).trans (by rw [ended, clock]), all.header, rfl,
    all.all dead, fun k hk => ?_⟩
  rw [trackers.head k (by decide), head k ((congrArg OpHeader.origin all.header).trans hk)]
  rcases both.head k with h | ⟨code, h⟩ <;> rw [h, first.head k (by decide)]

end Sys2Proof.Machine
end

section
/-! The end of a hold session (R156), and how an operation follows its windows (R154 to R158). -/

namespace Sys2Proof.Machine

/-! ### A window beside another's dismissal -/

theorem Part.dismissEntry_aside (p : Part) {c x : Corner} (h : x ≠ c) (r : StopReason) : Part.Aside c p (p.dismissEntry r x) := by
  have reports (q : Part) : Part.Aside c q (q.reportEnd x r.entry false) := (q.reportEnd_unjudged x r.entry).aside
  unfold Part.dismissEntry
  split
  · exact .refl c p
  · dsimp only
    refine Part.Aside.trans ?_ (reports _)
    split
    · split
      · exact p.stopAndTell_aside h r false
      · exact .refl c p
    · exact p.withdrawPending_aside h _ _ _

/-- A dismissal asks for no grant. -/
theorem Part.dismissEntry_waiting {p : Part} (h : p.waiting = []) (r : StopReason) (c : Corner) : (p.dismissEntry r c).waiting = [] := by
  have reports (q : Part) : (q.reportEnd c r.entry false).waiting = q.waiting := (q.reportEnd_unjudged c r.entry).waiting (by decide)
  unfold Part.dismissEntry
  split
  · exact h
  · dsimp only
    rw [reports]
    split
    · split
      · exact (p.stopAndTell_waiting c r false).trans h
      · exact h
    · unfold Part.withdrawPending
      split
      · exact h
      · rw [(Part.tellMover_does _ c _ _ _ _ _).waiting (by decide)]
        show p.waiting.filter _ = []
        rw [h]
        rfl

/-- The dismissal of a MOVING entry whose window is under way stops the window. -/
theorem Part.dismissEntry_stops {p : Part} {o : Operation} {c : Corner} (ho : p.operation = some o) (running : o.ended = none)
    (moving : (o.entries.get c).state = .moving) (under : (p.window c).underWay = true) (r : StopReason) :
    ((p.dismissEntry r c).window c).motion = .stopped ∧ ((p.dismissEntry r c).window c).lastStop = some r := by
  have live : p.liveEntry c = some (o.entries.get c) := (Part.liveEntry_of ho running c).trans (if_pos (by rw [moving]; rfl))
  have e : p.dismissEntry r c = (p.stopAndTell c r false).reportEnd c r.entry false := by
    unfold Part.dismissEntry
    rw [live]
    dsimp only
    rw [if_pos moving, if_pos under]
  obtain ⟨stopped, -⟩ := p.stopAndTell_window c c r false
  rw [if_pos rfl] at stopped
  rw [e, (Part.reportEnd_unjudged _ c r.entry).window c (by decide), stopped]
  exact ⟨rfl, rfl⟩

/-! ### The end of a session -/

set_option Elab.async false in -- the declarations above are finished first: this bounds the memory of the one text
/-- A running operation ended by its hold session: PARTIAL, its live entries DONE with SWITCH-RELEASED. -/
theorem Part.sessionEnd_operation {p : Part} {o : Operation} {f : Fob} {c : Corner} (ho : p.operation = some o) (running : o.ended = none)
    (origin : o.origin = .hold f) (live : (o.entries.get c).state.live = true) :
    ∃ x, p.EndsAll (p.sessionEnd f) o .switchReleased .partway x := by
  have step (q : Part) (c : Corner) := (q.dismissEntry_dismisses .switchReleased c).1
  have all : Part.Dismisses (fun _ => True) .switchReleased p (p.eachCorner (Part.dismissEntry .switchReleased)) :=
    .foldl step Corner.all p
  obtain ⟨x, hx, dismissed⟩ := all.operation o ho running
  have dead := Part.eachCorner_dead step (fun q c => (q.dismissEntry_dismisses .switchReleased c).2) ho running hx
  have entry := dismissed.all dead
  have judged : (x.anyLive = false) := by
    refine Bool.eq_false_iff.2 fun h => ?_
    obtain ⟨y, hy⟩ := x.anyLive_iff.1 h
    cases (dead y).symm.trans ((EntryState.live_iff _).2 hy)
  have partway : x.outcome = .partway := by
    refine x.outcome_judged.2 fun good => ?_
    have own := (good c).2
    rw [(entry c).1 live] at own
    rcases own with h | ⟨-, h⟩ <;> cases h
  have e : p.sessionEnd f = (p.eachCorner (Part.dismissEntry .switchReleased)).judgeOperation := by
    unfold Part.sessionEnd
    rw [ho]
    exact if_pos ⟨by rw [Operation.running, running]; rfl, origin⟩
  obtain ⟨ended, -, -⟩ := Part.endOperation_ends hx .partway
  rw [e, (Part.judgeOperation_judges hx dismissed.running).2 judged, partway]
  refine ⟨_, ended, dismissed.header, by rw [all.clock], entry, fun k hk => ?_⟩
  cases hk.symm.trans origin

/-- The windows as a session ends, nothing waiting. -/
theorem Part.sessionEnd_windows {p : Part} {o : Operation} {f : Fob} (ho : p.operation = some o) (running : o.ended = none)
    (origin : o.origin = .hold f) (empty : p.waiting = []) :
    (p.sessionEnd f).waiting = [] ∧ ∀ c, (o.entries.get c).state = .moving → (p.window c).underWay = true →
      ((p.sessionEnd f).window c).motion = .stopped ∧ ((p.sessionEnd f).window c).lastStop = some .switchReleased := by
  have e : p.sessionEnd f = (p.eachCorner (Part.dismissEntry .switchReleased)).judgeOperation := by
    unfold Part.sessionEnd
    rw [ho]
    exact if_pos ⟨by rw [Operation.running, running]; rfl, origin⟩
  have judges := (Part.judgeOperation_does (p.eachCorner (Part.dismissEntry .switchReleased))).toWithin
  rw [e]
  refine ⟨(judges.waiting (by decide)).trans ?_, fun c moving under => ?_⟩
  · have all (l : List Corner) : ∀ q : Part, q.waiting = [] → (l.foldl (Part.dismissEntry .switchReleased) q).waiting = [] := by
      induction l with
      | nil => exact fun _ h => h
      | cons x l ih => exact fun q h => ih _ (Part.dismissEntry_waiting h _ x)
    exact all Corner.all p empty
  · obtain ⟨q, ⟨before, kept⟩, after, -⟩ := Part.eachCorner_around
      (R := fun p q => Part.Aside c p q ∧ Part.Dismisses (· ≠ c) StopReason.switchReleased.entry p q)
      (fun p => ⟨.refl c p, .refl _ _ p⟩) (fun h k => ⟨h.1.trans k.1, h.2.trans k.2⟩) (f := Part.dismissEntry .switchReleased)
      (fun q x h => ⟨q.dismissEntry_aside h _, (q.dismissEntry_dismisses _ x).1.mono fun y (hy : y = x) => hy ▸ h⟩) p
    obtain ⟨x, hx, dismissed⟩ := kept.operation o ho running
    have entry := dismissed.kept (c := c) (.inl fun h => h rfl)
    rw [judges.window c (by decide), after.window]
    exact Part.dismissEntry_stops hx dismissed.running (by rw [entry]; exact moving) (by rw [before.window]; exact under) _

/-- Every entry ended well, for an operation of this kind (R155). -/
def entriesGood (k : OpKind) (e : PerCorner Entry) : Prop :=
  ∀ x, (e.get x).state = .done ∧ ((e.get x).reason = some .atEnd ∨ (k = .vent ∧ (e.get x).reason = some .target))

/-- Settles O52: a judged report by `reported_judged`, the crash event by `crashEvent_operation`, the end of a session by
`sessionEnd_operation`; the grants after each leave what has ended. -/
theorem operationsFollowTheirWindows : Obligations.OperationsFollowTheirWindows := by
  unfold Obligations.OperationsFollowTheirWindows
  intro s o ho running
  dsimp only
  have judged {q : Part} {c : Corner} {r : EntryReason} {x : Operation} (h : s.part.Judged q o c r x) :
      q.operation = some x ∧ x.kind = o.kind ∧ x.origin = o.origin ∧ x.since = o.since ∧ x.lock = o.lock ∧
        x.entries.get c = { o.entries.get c with state := .done, reason := some r } ∧
        (∀ y, y ≠ c → x.entries.get y = o.entries.get y) ∧
        ((∃ y, y ≠ c ∧ ((o.entries.get y).state = .waiting ∨ (o.entries.get y).state = .moving)) → x.ended = none ∧ q.heads = s.part.heads) ∧
        ((∀ y, y ≠ c → ¬ ((o.entries.get y).state = .waiting ∨ (o.entries.get y).state = .moving)) → entriesGood o.kind x.entries →
          x.ended = some ⟨.completed, s.part.clock⟩ ∧ ∀ k, o.origin = .order k → q.head k =
            { s.part.head k with state := .done, code := BitVec.ofNat 8 OrderOutcome.completed.code }) ∧
        ((∀ y, y ≠ c → ¬ ((o.entries.get y).state = .waiting ∨ (o.entries.get y).state = .moving)) → ¬ entriesGood o.kind x.entries →
          x.ended = some ⟨.partway, s.part.clock⟩ ∧ ∀ k, o.origin = .order k → q.head k =
            { s.part.head k with state := .done, code := BitVec.ofNat 8 OrderOutcome.partway.code }) := by
    obtain ⟨stands, entries, ⟨kind, origin, since, lock⟩, goesOn, ends⟩ := h
    have good : entriesGood o.kind x.entries ↔ (o.take c r).good := by
      rw [entries]
      rfl
    obtain ⟨completed, partway⟩ := (o.take c r).outcome_judged
    refine ⟨stands, kind, origin, since, lock, ?_, fun y hy => ?_, goesOn, fun none fine => ?_, fun none bad => ?_⟩
    · rw [entries, Operation.take_entry, if_pos rfl]
    · rw [entries, Operation.take_entry, if_neg hy]
    · have ended := ends none
      rw [completed (good.1 fine)] at ended
      exact ended
    · have ended := ends none
      rw [partway (mt good.2 bad)] at ended
      exact ended
  have all {q : Part} {r : EntryReason} {out : OpOutcome} {x : Operation} (h : s.part.EndsAll q o r out x) :
      q.operation = some x ∧ x.kind = o.kind ∧ x.origin = o.origin ∧ x.ended = some ⟨out, s.part.clock⟩ ∧
        ∀ c, ((o.entries.get c).state = .waiting ∨ (o.entries.get c).state = .moving →
            x.entries.get c = { o.entries.get c with state := .done, reason := some r }) ∧
          (¬ ((o.entries.get c).state = .waiting ∨ (o.entries.get c).state = .moving) → x.entries.get c = o.entries.get c) := by
    obtain ⟨stands, header, ended, entry, -⟩ := h
    refine ⟨stands, congrArg OpHeader.kind header, congrArg OpHeader.origin header, ended, fun c => ?_⟩
    obtain ⟨live, dead⟩ := entry c
    rw [← EntryState.live_iff]
    exact ⟨live, fun n => dead (Bool.eq_false_iff.2 n)⟩
  refine ⟨fun c high us long live mover mode learned free noneWaits t target => ⟨fun opening bottom near => ?_,
    fun closing top few clear inside near => ?_⟩, fun c w x live waits own isDue pends mover => ?_,
    fun a ha taken old serves awake => ?_, fun f b t l origin live tracker last isDue => ?_⟩
  · have still (t : Nat) (_ : (s.part.window c).lastPulse = some t) :
        (s.part.pulsedAt c (s.part.clock * 1000 + us)).pinchTest c (s.part.clock * 1000 + us - t) = none := by
      obtain ⟨window, -⟩ := s.part.pulsedAt_fields c (s.part.clock * 1000 + us)
      refine Part.pinchTest_opening ?_ _
      rw [window c, if_pos rfl]
      exact fun e => by cases opening.symm.trans e
    obtain ⟨⟨x, ends⟩, stopped, waits⟩ := Part.pulse_ends ho running live long mover mode learned free target
      (decide_eq_true (.inl bottom)) still (pos := (s.part.window c).position - 1) (by rw [opening]; rfl) (.inl ⟨opening, by omega⟩)
    refine (completes_run (f := settle (·.hallPulse c high us)) rfl).2 ?_
    rw [settle_noneWaits (f := (·.hallPulse c high us)) (waits.trans noneWaits)]
    exact ⟨⟨x, judged ends⟩, stopped⟩
  · have counts : (s.part.window c).count (s.part.window c).motion.dir false =
        min (s.part.window c).travel ((s.part.window c).position + 1) := by
      rw [closing]
      exact ((s.part.window c).count_free inside).2
    have notFound (t : Nat) (last : (s.part.window c).lastPulse = some t) :
        (s.part.pulsedAt c (s.part.clock * 1000 + us)).pinchTest c (s.part.clock * 1000 + us - t) = none := by
      rw [← Option.not_isSome_iff_eq_none]
      exact fun found => clear ((Part.pulsePinches_iff closing free inside few).2 ⟨t, last, found⟩)
    obtain ⟨⟨x, ends⟩, stopped, waits⟩ := Part.pulse_ends ho running live long mover mode learned free target
      (decide_eq_true (.inr top)) notFound counts (.inr ⟨closing, by omega⟩)
    refine (completes_run (f := settle (·.hallPulse c high us)) rfl).2 ?_
    rw [settle_noneWaits (f := (·.hallPulse c high us)) (waits.trans noneWaits)]
    exact ⟨⟨x, judged ends⟩, stopped⟩
  · obtain ⟨⟨y, ends⟩, pending, empty⟩ := Part.waitLimit_ends ho running live waits own isDue pends mover
    refine (completes_run (f := settle (·.waitExpiry (.window c))) rfl).2 ?_
    rw [settle_noneWaits (f := (·.waitExpiry (.window c))) empty]
    exact ⟨⟨y, judged ends⟩, empty, pending⟩
  · refine (completes_run (f := (·.crashExpiry)) rfl).2 ?_
    have acts : s.part.crashExpiry = settle (fun q => q.markAssertion.crashEvent) s.part := by
      unfold Part.crashExpiry
      rw [if_pos (by simp [serves, ha, Assertion.due, taken, old]), if_neg awake]
    obtain ⟨x, ends⟩ := Part.crashEvent_operation (p := s.part.markAssertion) ho running
    have grants := (settle_grants (fun q => q.markAssertion.crashEvent) s.part).toWithin
    have after : s.part.EndsAll s.part.crashExpiry o .crash .crash x := by
      rw [acts]
      refine ⟨settle_ended (f := fun q => q.markAssertion.crashEvent) ends.stands (by rw [ends.ended]; nofun), ends.header, ends.ended,
        ends.entry, fun k hk => (grants.head k (by decide)).trans (ends.head k hk)⟩
    exact ⟨⟨x, all after⟩, after.head⟩
  · obtain ⟨c, live⟩ := live
    have took : s.part.holdExpiry f = s.part.endTracker f .released :=
      if_pos (by simp [FobRec.holdDue, last, isDue, tracker])
    have e : s.part.holdExpiry f = ((s.part.setTracker f .idle).sessionEnd f).appendRow (holdEndedRow f .released) := by
      rw [took]
      unfold Part.endTracker
      rw [tracker]
    obtain ⟨x, ends⟩ := Part.sessionEnd_operation (p := s.part.setTracker f .idle) ho running origin ((EntryState.live_iff _).2 live)
    have windows := Part.sessionEnd_windows (p := s.part.setTracker f .idle) ho running origin
    have session := (Part.sessionEnd_does (s.part.setTracker f .idle) f).toWithin
    generalize (s.part.setTracker f .idle).sessionEnd f = z at e ends windows session
    have row := (z.appendRow_does (holdEndedRow f .released)).toWithin
    have stands : (s.part.holdExpiry f).operation = some x := by rw [e, row.operation (by decide), ends.stands]
    have grants := (settle_grants (·.holdExpiry f) s.part).toWithin
    have after : s.part.EndsAll (settle (·.holdExpiry f) s.part) o .switchReleased .partway x :=
      ⟨settle_ended (f := (·.holdExpiry f)) stands (by rw [ends.ended]; nofun), ends.header, ends.ended, ends.entry,
        fun k hk => by cases hk.symm.trans origin⟩
    refine (completes_run (f := settle (·.holdExpiry f)) rfl).2 ⟨⟨x, all after⟩, ?_, fun noneWaits y moving under => ?_⟩
    · obtain ⟨-, -, -, -, -, granted, -⟩ := grants.fobs (by decide) f
      obtain ⟨-, -, -, -, -, ended, -⟩ := session.fobs (by decide) f
      rw [granted]
      show ((s.part.holdExpiry f).fob f).tracker = .idle
      rw [e, row.fob f (by decide), ended, Part.setTracker_fob, if_pos rfl]
    · obtain ⟨empty, stopped⟩ := windows noneWaits
      have none : (s.part.holdExpiry f).waiting = [] := by rw [e, row.waiting (by decide), empty]
      rw [settle_noneWaits (f := (·.holdExpiry f)) none, e, row.window y (by decide)]
      exact stopped y moving under

end Sys2Proof.Machine
end

section
/-! One window of a new operation, answered and its grant made (R152 to R154). -/

namespace Sys2Proof.Machine

/-- The command meets nothing that stops it, or a position it has already (R59, R60, R65). -/
theorem Part.verdict_atRest {p : Part} {c : Corner} {k : OpKind} (still : (p.window c).motion = .stopped)
    (free : (p.monitor c).learn = none) (clear : p.crashSet = false) (open_ : p.skipReason c = none) :
    (∀ r, (p.window c).alreadyDone p.cfg ((p.window c).sequenced p.cfg k) = some r →
        p.verdict c ((p.window c).sequenced p.cfg k) = .already r) ∧
      ((p.window c).alreadyDone p.cfg ((p.window c).sequenced p.cfg k) = none →
        p.verdict c ((p.window c).sequenced p.cfg k) = .passes) := by
  unfold Part.skipReason at open_
  dsimp only at open_
  split at open_
  · cases open_
  rename_i works
  split at open_
  · cases open_
  rename_i learned
  split at open_
  · cases open_
  rename_i cool
  have checks : p.startCheck c ((p.window c).sequenced p.cfg k) = none := by
    unfold Part.startCheck
    dsimp only
    rw [if_neg works, if_neg (by simp [cool]), if_neg (by simp [clear]), if_neg (by simp [learned])]
    exact if_neg (by rintro ⟨e, -⟩; cases e)
  unfold Part.verdict
  dsimp only
  rw [if_neg (by simp [still, free]), checks]
  refine ⟨fun r h => ?_, fun h => ?_⟩ <;> simp only [h]

/-- How a window of a new operation is answered (R152, R153): its entry and its record. -/
structure Part.Answered (p : Part) (k : OpKind) (c : Corner) (e : Entry) (w : WindowRec) : Prop where
  skips : ∀ r, p.skipReason c = some r → e = skipped r ∧ w = p.window c
  already : ∀ r, p.skipReason c = none → (p.window c).alreadyDone p.cfg ((p.window c).sequenced p.cfg k) = some r →
    e = ⟨.done, some ((p.window c).aim p.cfg k), some r.entry⟩ ∧ w = p.window c
  moves : p.skipReason c = none → (p.window c).alreadyDone p.cfg ((p.window c).sequenced p.cfg k) = none →
    e = ⟨.moving, some ((p.window c).aim p.cfg k), none⟩ ∧
      w = (p.window c).started ((p.window c).sequenced p.cfg k) p.clock p.cfg.rampTime

/-- What answering a window leaves for the next. -/
structure Part.Issued (p q : Part) (c : Corner) (op : Operation) (k : OpKind) : Prop where
  entry : ∃ x, q.operation = some x ∧ x.header = op.header ∧ x.ended = none ∧ (∀ y, y ≠ c → x.entries.get y = op.entries.get y) ∧
    p.Answered k c (x.entries.get c) (q.window c)
  others : ∀ x, x ≠ c → q.window x = p.window x ∧ (q.monitor x).learn = (p.monitor x).learn
  waiting : q.waiting = []
  units : p.unitsFree ≤ q.unitsFree + 2
  within : Part.Within windowGrantAreas p q

theorem Part.setEntry_stands {p : Part} {op : Operation} (h : p.operation = some op) (c : Corner) (e : Entry) :
    (p.setEntry c e).operation = some { op with entries := op.entries.set c e } := by
  simp only [Part.setEntry, h]
  rfl

/-- The window asked for a grant: its command pending, its request waiting, its entry WAITING (R61, R100, R152). -/
def Part.askedFor (p : Part) (c : Corner) (k : OpKind) : Part :=
  let q := (p.endWatch c).setWindow c { p.window c with pending := some ⟨(p.window c).sequenced p.cfg k, p.clock⟩ }
  (q.setLists q.holders [⟨.window c, 2, .window, p.clock, p.clock + 2000⟩]).setEntry c ⟨.waiting, some ((p.window c).aim p.cfg k), none⟩

theorem Part.askedFor_asks {p : Part} {op : Operation} (stands : p.operation = some op) (c : Corner) (k : OpKind) :
    let q := p.askedFor c k
    q.operation = some { op with entries := op.entries.set c ⟨.waiting, some ((p.window c).aim p.cfg k), none⟩ } ∧
      (∀ x, q.window x = if x = c then { p.window c with pending := some ⟨(p.window c).sequenced p.cfg k, p.clock⟩ } else p.window x) ∧
      (∀ x, (q.monitor x).learn = (p.monitor x).learn) ∧ q.waiting = [⟨.window c, 2, .window, p.clock, p.clock + 2000⟩] ∧
      q.unitsFree = p.unitsFree ∧ Part.Within windowGrantAreas p q := by
  let q := (p.endWatch c).setWindow c { p.window c with pending := some ⟨(p.window c).sequenced p.cfg k, p.clock⟩ }
  have watch : Part.Within [.monitors] p (p.endWatch c) := (Part.setMonitor_acts p c _).toWithin
  have pend : Part.Within [.windows, .monitors] p q := watch.trans (Part.setWindow_within _ c _) (by decide) (by decide)
  have lists := q.setLists_within q.holders [⟨.window c, 2, .window, p.clock, p.clock + 2000⟩]
  have set := ((q.setLists q.holders [⟨.window c, 2, .window, p.clock, p.clock + 2000⟩]).setEntry_acts c
    ⟨.waiting, some ((p.window c).aim p.cfg k), none⟩).toWithin
  have before := pend.trans lists (M := [.windows, .monitors, .holders, .waiting]) (by decide) (by decide)
  refine ⟨Part.setEntry_stands ((before.operation (by decide)).trans stands) c _, fun x => ?_, fun x => ?_, rfl, rfl,
    before.trans set (by decide) (by decide)⟩
  · exact Part.setWindow_window ..
  · refine congrArg MonitorRec.learn (Part.setMonitor_monitor ..) |>.trans ?_
    split
    · subst_vars
      rfl
    · rfl

/-- A window at rest whose command passes is asked for a grant. -/
theorem Part.answer_asks {p : Part} {c : Corner} {k : OpKind} (empty : p.waiting = []) (still : (p.window c).motion = .stopped)
    (idle : (p.window c).pending = none) (open_ : p.skipReason c = none)
    (passes : p.verdict c ((p.window c).sequenced p.cfg k) = .passes) : Part.answer k p c = p.askedFor c k := by
  let q := (p.endWatch c).setWindow c { p.window c with pending := some ⟨(p.window c).sequenced p.cfg k, p.clock⟩ }
  have applied : p.applyPassed c ((p.window c).sequenced p.cfg k) =
      q.setLists q.holders [⟨.window c, 2, .window, p.clock, p.clock + 2000⟩] := by
    unfold Part.applyPassed
    dsimp only
    rw [if_neg (by simp [WindowRec.underWay, still]), idle]
    show (q.setLists q.holders (placeWaiter p.waiting _)) = _
    rw [empty]
    rfl
  have stopped : ((q.setLists q.holders [⟨.window c, 2, .window, p.clock, p.clock + 2000⟩]).window c).underWay = false := by
    have own : (q.setLists q.holders [⟨.window c, 2, .window, p.clock, p.clock + 2000⟩]).window c =
        { p.window c with pending := some ⟨(p.window c).sequenced p.cfg k, p.clock⟩ } := (Part.setWindow_window ..).trans (if_pos rfl)
    rw [own]
    simp [WindowRec.underWay, still]
  unfold Part.answer
  rw [open_]
  dsimp only
  rw [passes]
  dsimp only
  rw [applied, stopped]
  rfl

section
variable {p : Part} {c : Corner} {op : Operation} {k : OpKind} (stands : p.operation = some op) (running : op.ended = none)
  (still : (p.window c).motion = .stopped) (idle : (p.window c).pending = none) (free : (p.monitor c).learn = none)
  (clear : p.crashSet = false) (empty : p.waiting = [])
include stands running still idle free clear empty

omit still idle free clear in
/-- A window that needs no grant: only its entry is set. -/
theorem Part.issued_calm {q : Part} {e : Entry} {K : List Area} (answer : Part.answer k p c = q.setEntry c e)
    (within : Part.Within K p q) (answered : p.Answered k c e (p.window c)) (learn : ∀ x, x ≠ c → (q.monitor x).learn = (p.monitor x).learn)
    (sub : K ⊆ windowGrantAreas) (h1 : .operation ∉ K) (h2 : .windows ∉ K) (h3 : .waiting ∉ K) (h4 : .holders ∉ K) :
    p.Issued (p.issue k c) c op k := by
  have set := (q.setEntry_acts c e).toWithin
  have none : (Part.answer k p c).waiting = [] := by
    rw [answer, set.waiting (by decide), within.waiting h3]
    exact empty
  have issued : p.issue k c = q.setEntry c e := (settle_noneWaits (f := (Part.answer k · c)) none).trans answer
  have all := (within.mono sub).trans set (M := windowGrantAreas) (List.Subset.refl _) (by decide)
  have window (x : Corner) : (q.setEntry c e).window x = p.window x := (set.window x (by decide)).trans (within.window x h2)
  have units : (q.setEntry c e).unitsFree = p.unitsFree := by
    rw [Part.unitsFree, Part.unitsFree, all.budget (by decide) (by decide), set.holders (by decide), within.holders h4]
  rw [issued]
  refine ⟨⟨_, Part.setEntry_stands ((within.operation h1).trans stands) c e, rfl, running, fun y hy => (PerCorner.get_set ..).trans (if_neg hy),
    ?_⟩, fun x hx => ⟨window x, ?_⟩, ?_, by omega, all⟩
  · rw [window, show (op.entries.set c e).get c = e from (PerCorner.get_set ..).trans (if_pos rfl)]
    exact answered
  · rw [set.monitor x (by decide)]
    exact learn x hx
  · rw [set.waiting (by decide), within.waiting h3]
    exact empty

set_option Elab.async false in -- the declarations above are finished first: this bounds the memory of the one text
/-- One window dealt with whole (R152 to R154). -/
theorem Part.issue_issues (room : 2 ≤ p.unitsFree) : p.Issued (p.issue k c) c op k := by
  cases skip : p.skipReason c with
  | some r =>
    have answer : Part.answer k p c = p.setEntry c (skipped r) := by
      unfold Part.answer
      rw [skip]
    refine Part.issued_calm stands running empty answer (K := []) (.refl _ p) ⟨fun x hx => ?_, fun _ hx => ?_, fun hx => ?_⟩ (fun _ _ => rfl)
      (List.nil_subset _) (by decide) (by decide) (by decide) (by decide)
    · obtain rfl := Option.some.inj (skip.symm.trans hx)
      exact ⟨rfl, rfl⟩
    · cases skip.symm.trans hx
    · cases skip.symm.trans hx
  | none =>
    obtain ⟨finds, goes⟩ := Part.verdict_atRest (k := k) still free clear skip
    cases done : (p.window c).alreadyDone p.cfg ((p.window c).sequenced p.cfg k) with
    | some r =>
      have applied : p.applyDone c ((p.window c).sequenced p.cfg k) r = p.endWatch c := by
        have same : (p.endWatch c).window c = p.window c := rfl
        unfold Part.applyDone
        dsimp only
        rw [if_neg (by simp [WindowRec.underWay, still]), idle]
      have answer : Part.answer k p c = (p.endWatch c).setEntry c ⟨.done, some ((p.window c).aim p.cfg k), some r.entry⟩ := by
        unfold Part.answer
        rw [skip]
        dsimp only
        rw [finds r done]
        dsimp only
        rw [applied]
        rfl
      refine Part.issued_calm stands running empty answer (Part.setMonitor_acts p c _).toWithin ⟨fun x hx => ?_, fun x _ hx => ?_, fun _ hx => ?_⟩
        (fun x hx => ?_) (by decide) (by decide) (by decide) (by decide) (by decide)
      · cases skip.symm.trans hx
      · obtain rfl := Option.some.inj (done.symm.trans hx)
        exact ⟨rfl, rfl⟩
      · cases done.symm.trans hx
      · exact congrArg MonitorRec.learn ((Part.setMonitor_monitor ..).trans (if_neg hx))
    | none =>
      have answer := Part.answer_asks empty still idle skip (goes done)
      obtain ⟨operation, windows, learns, waits, units, asks⟩ := Part.askedFor_asks stands c k
      have pends : ((Part.answer k p c).window c).pending = some ⟨(p.window c).sequenced p.cfg k, p.clock⟩ := by
        rw [answer, windows c, if_pos rfl]
      rw [← answer] at operation windows learns waits units asks
      have grants := settle_grantsOne (f := (Part.answer k · c)) empty waits (by rw [units]; exact room)
      obtain ⟨starts, holders, served, -, -, within⟩ := settle_startsWindow (f := (Part.answer k · c)) empty waits rfl rfl
        (by rw [units]; exact room) pends
      have issued : p.issue k c = settle (Part.answer k · c) p := rfl
      rw [issued]
      generalize settle (Part.answer k · c) p = z at grants starts holders served within ⊢
      generalize Part.answer k p c = r at operation windows learns waits units asks grants starts holders within pends
      obtain ⟨-, moving⟩ := Part.windowGranted_operation (p := r.setLists (r.holders ++ [Waiter.held ⟨.window c, 2, .window, p.clock,
        p.clock + 2000⟩ r.clock]) []) pends
      have own (e : Entry) : (op.entries.set c e).get c = e := (PerCorner.get_set ..).trans (if_pos rfl)
      have moving := moving _ rfl operation running (by rw [own])
      rw [own] at moving
      have all := asks.trans within (List.Subset.refl _) (List.Subset.refl _)
      refine ⟨⟨_, (congrArg Part.operation grants).trans moving, rfl, running, fun y hy => ?_, ?_⟩, fun x hx => ⟨?_, ?_⟩, served, ?_, all⟩
      · exact (PerCorner.get_set ..).trans ((if_neg hy).trans ((PerCorner.get_set ..).trans (if_neg hy)))
      · rw [show ((op.entries.set c _).set c _).get c = _ from (PerCorner.get_set ..).trans (if_pos rfl), starts c, if_pos rfl, windows c,
          if_pos rfl, asks.clock, asks.cfg (by decide)]
        refine ⟨fun r hr => ?_, fun r _ hr => ?_, fun _ _ => ⟨rfl, rfl⟩⟩
        · cases skip.symm.trans hr
        · cases done.symm.trans hr
      · rw [starts x, if_neg hx, windows x, if_neg hx]
      · rw [← learns x, grants]
        exact congrArg MonitorRec.learn (Part.windowGranted_others (r.setLists _ []) hx).2
      · have held : unitsHeld z.holders = unitsHeld r.holders + 2 := by
          rw [holders]
          simp [unitsHeld, Waiter.held]
        have budget : z.budget = r.budget := within.budget (by decide) (by decide)
        rw [← units, Part.unitsFree, Part.unitsFree, held, budget]
        omega

end

end Sys2Proof.Machine
end

section
/-! The windows of a new operation one after another, and what is already done (R152, R153). -/

namespace Sys2Proof.Machine

/-- A window's answer rests on its record, the degraded map, the configuration and the time. -/
theorem Part.Answered.of_same {p q : Part} {k : OpKind} {c : Corner} {e : Entry} {w : WindowRec} (h : q.Answered k c e w)
    (window : q.window c = p.window c) (degraded : q.degraded = p.degraded) (cfg : q.cfg = p.cfg) (clock : q.clock = p.clock) :
    p.Answered k c e w := by
  have skip : q.skipReason c = p.skipReason c := by
    unfold Part.skipReason Part.outOfService
    rw [window, degraded]
  obtain ⟨skips, already, moves⟩ := h
  rw [window, skip, cfg] at already
  rw [window, skip, cfg, clock] at moves
  rw [window, skip] at skips
  exact ⟨skips, already, moves⟩

/-- The windows of a list, each dealt with whole before the next (R152). -/
theorem Part.issueAll (k : OpKind) : ∀ (l : List Corner) {p : Part} {op : Operation}, l.Nodup → p.operation = some op → op.ended = none →
    (∀ c ∈ l, (p.window c).motion = .stopped ∧ (p.window c).pending = none ∧ (p.monitor c).learn = none) → p.crashSet = false →
    p.waiting = [] → 2 * l.length ≤ p.unitsFree →
    let q := l.foldl (Part.issue k) p
    (∃ x, q.operation = some x ∧ x.header = op.header ∧ x.ended = none ∧
      ∀ c, (c ∈ l → p.Answered k c (x.entries.get c) (q.window c)) ∧
        (c ∉ l → x.entries.get c = op.entries.get c ∧ q.window c = p.window c)) ∧
      q.waiting = [] ∧ Part.Within windowGrantAreas p q
  | [], p, op, _, stands, running, _, _, empty, _ =>
    ⟨⟨op, stands, rfl, running, fun _ => ⟨fun h => absurd h List.not_mem_nil, fun _ => ⟨rfl, rfl⟩⟩⟩, empty, .refl _ p⟩
  | c :: l, p, op, nodup, stands, running, rest, clear, empty, room => by
    obtain ⟨fresh, nodup⟩ := List.nodup_cons.1 nodup
    rw [List.length_cons] at room
    obtain ⟨still, idle, free⟩ := rest c List.mem_cons_self
    obtain ⟨⟨x, stands', header, running', kept, answered⟩, others, empty', units, within⟩ :=
      Part.issue_issues (k := k) stands running still idle free clear empty (by omega)
    have crash : (p.issue k c).crashSet = false := within.crashSet.trans clear
    have rest' : ∀ y ∈ l, ((p.issue k c).window y).motion = .stopped ∧ ((p.issue k c).window y).pending = none ∧
        ((p.issue k c).monitor y).learn = none := fun y hy => by
      obtain ⟨window, learn⟩ := others y fun e => fresh (e ▸ hy)
      rw [window, learn]
      exact rest y (List.mem_cons_of_mem c hy)
    obtain ⟨⟨z, stands'', header', running'', all⟩, empty'', within'⟩ :=
      Part.issueAll k l nodup stands' running' rest' crash empty' (by omega)
    dsimp only [List.foldl_cons]
    refine ⟨⟨z, stands'', header'.trans header, running'', fun y => ⟨fun hy => ?_, fun hy => ?_⟩⟩, empty'',
      within.trans within' (List.Subset.refl _) (List.Subset.refl _)⟩
    · obtain ⟨later, before⟩ := all y
      by_cases own : y = c
      · subst own
        obtain ⟨entry, window⟩ := before fresh
        rw [entry, window]
        exact answered
      · have mem := (List.mem_cons.1 hy).resolve_left own
        exact (later mem).of_same (others y own).1 (within.degraded (by decide)) (within.cfg (by decide)) within.clock
    · obtain ⟨ne, notLater⟩ := not_or.1 (mt List.mem_cons.2 hy)
      obtain ⟨entry, window⟩ := (all y).2 notLater
      exact ⟨entry.trans (kept y ne), window.trans (others y ne).1⟩

/-! ### What is already done -/

/-- The window stands where a kind would bring it. -/
def WindowRec.there (w : WindowRec) (k : OpKind) (target : Nat) : Prop :=
  (k = .comfortClose ∧ target ≤ w.position) ∨ (k = .comfortOpen ∧ w.position ≤ target) ∨ (k = .vent ∧ w.position = target)

theorem WindowRec.there_iff (w : WindowRec) (t : Nat) : (w.there .comfortClose t ↔ t ≤ w.position) ∧
    (w.there .comfortOpen t ↔ w.position ≤ t) ∧ (w.there .vent t ↔ w.position = t) := by
  simp [WindowRec.there]

set_option Elab.async false in -- the declarations above are finished first: this bounds the memory of the one text
/-- The verdict on a kind's command to a LEARNED window, within the bounds of a learn and of configuration check 5. -/
theorem WindowRec.alreadyDone_sequenced {w : WindowRec} {cfg : Config} (k : OpKind) (long : 1000 ≤ w.travel)
    (offset : cfg.softStopOffset ≤ 20) (deep : cfg.softStopOffset + cfg.slowZone < cfg.ventDepth) (depth : cfg.ventDepth ≤ 600) :
    (w.there k (w.aim cfg k) → w.alreadyDone cfg (w.sequenced cfg k) = some (if k = .vent then .target else .atEnd)) ∧
      (¬ w.there k (w.aim cfg k) → w.alreadyDone cfg (w.sequenced cfg k) = none ∧
        (w.sequenced cfg k).dir.motion = if w.position < w.aim cfg k then .closing else .opening) := by
  have e : w.alreadyDone cfg (w.sequenced cfg k) =
      if (w.aim cfg k = w.travel - cfg.softStopOffset ∧ w.travel - cfg.softStopOffset ≤ w.position) ∨
        (w.aim cfg k = cfg.softStopOffset ∧ w.position ≤ cfg.softStopOffset) then some .atEnd
      else if w.aim cfg k = w.position then some .target else none := rfl
  rw [e]
  cases k with
  | comfortClose =>
    have aim : w.aim cfg .comfortClose = w.travel - cfg.softStopOffset := rfl
    rw [aim]
    refine ⟨fun h => ?_, fun h => ⟨?_, ?_⟩⟩
    · have there := (w.there_iff _).1.1 h
      exact if_pos (.inl ⟨rfl, there⟩)
    · have short : w.position < w.travel - cfg.softStopOffset := Nat.not_le.1 (mt (w.there_iff _).1.2 h)
      rw [if_neg (by omega), if_neg (by omega)]
    · have short : w.position < w.travel - cfg.softStopOffset := Nat.not_le.1 (mt (w.there_iff _).1.2 h)
      exact (if_pos short).symm
  | comfortOpen =>
    have aim : w.aim cfg .comfortOpen = cfg.softStopOffset := rfl
    rw [aim]
    refine ⟨fun h => ?_, fun h => ⟨?_, ?_⟩⟩
    · have there := (w.there_iff _).2.1.1 h
      exact if_pos (.inr ⟨rfl, there⟩)
    · have far : cfg.softStopOffset < w.position := Nat.not_le.1 (mt (w.there_iff _).2.1.2 h)
      rw [if_neg (by omega), if_neg (by omega)]
    · have far : cfg.softStopOffset < w.position := Nat.not_le.1 (mt (w.there_iff _).2.1.2 h)
      exact (if_neg (by omega)).symm
  | vent =>
    have aim : w.aim cfg .vent = w.travel - cfg.ventDepth := rfl
    rw [aim]
    refine ⟨fun h => ?_, fun h => ⟨?_, ?_⟩⟩
    · have there := (w.there_iff _).2.2.1 h
      rw [if_neg (by omega), if_pos there.symm]
      rfl
    · have apart : w.position ≠ w.travel - cfg.ventDepth := mt (w.there_iff _).2.2.2 h
      rw [if_neg (by omega), if_neg apart.symm]
    · show (if w.position < w.travel - cfg.ventDepth then Direction.closing else .opening).motion = _
      split <;> rfl

end Sys2Proof.Machine
end

section
/-! How a combined operation starts (R150 to R155). -/

namespace Sys2Proof.Machine

abbrev openingAreas : List Area := windowGrantAreas ++ lockAreas ++ orderAreas

/-- What beginning an operation with every window at rest leaves. -/
structure Part.Begun (p q : Part) (k : OpKind) (o : Origin) (x : Operation) : Prop where
  stands : q.operation = some x
  kind : x.kind = k
  origin : x.origin = o
  since : x.since = p.clock
  answered : ∀ c, p.Answered k c (x.entries.get c) (q.window c)
  waiting : q.waiting = []
  within : Part.Within openingAreas p q
  goesOn : x.anyLive = true → x.ended = none ∧ ∀ y, q.head y = p.head y
  ends : x.anyLive = false → x.ended = some ⟨x.outcome, p.clock⟩ ∧
    ∀ y, o = .order y → q.head y = { p.head y with state := .done, code := BitVec.ofNat 8 x.outcome.order.code }

theorem Part.beginOperation_begins {p : Part} (k : OpKind) (o : Origin) (clear : p.crashSet = false) (empty : p.waiting = [])
    (room : 8 ≤ p.unitsFree)
    (rest : ∀ c, (p.window c).motion = .stopped ∧ (p.window c).pending = none ∧ (p.monitor c).learn = none) :
    ∃ x, p.Begun (p.beginOperation k o) k o x := by
  obtain ⟨q, locks, e⟩ : ∃ q, Part.Within lockAreas p q ∧ p.beginOperation k o = ((q.setOperation (some ⟨k, o, q.clock,
      k.lock.map p.doors.taken, PerCorner.all ⟨.waiting, none, none⟩, none⟩)).eachCorner (Part.issue k)).judgeOperation := by
    unfold Part.beginOperation
    cases k.lock with
    | none => exact ⟨p, .refl _ p, rfl⟩
    | some a => exact ⟨_, (p.lockAction_does .sequencer a allDoors).toWithin, rfl⟩
  rw [e]
  have set := (q.setOperation_acts (some ⟨k, o, q.clock, k.lock.map p.doors.taken, PerCorner.all ⟨.waiting, none, none⟩, none⟩)).toWithin
  have stands : (q.setOperation (some ⟨k, o, q.clock, k.lock.map p.doors.taken, PerCorner.all ⟨.waiting, none, none⟩, none⟩)).operation =
    some ⟨k, o, q.clock, k.lock.map p.doors.taken, PerCorner.all ⟨.waiting, none, none⟩, none⟩ := rfl
  generalize q.setOperation (some ⟨k, o, q.clock, k.lock.map p.doors.taken, PerCorner.all ⟨.waiting, none, none⟩, none⟩) = r at set stands ⊢
  have before := locks.trans set (M := .operation :: lockAreas) (by decide) (by decide)
  have same (c : Corner) : r.window c = p.window c ∧ r.monitor c = p.monitor c :=
    ⟨before.window c (by decide), before.monitor c (by decide)⟩
  have units : r.unitsFree = p.unitsFree := by
    rw [Part.unitsFree, Part.unitsFree, before.budget (by decide) (by decide), before.holders (by decide)]
  obtain ⟨⟨x, stands, header, running, each⟩, empty, issued⟩ := Part.issueAll k Corner.all (by decide) stands rfl
    (fun c _ => by rw [(same c).1, (same c).2]; exact rest c) (before.crashSet.trans clear) ((before.waiting (by decide)).trans empty)
    (by rw [units]; exact room)
  have mem (c : Corner) : c ∈ Corner.all := by cases c <;> decide
  have answered (c : Corner) : p.Answered k c (x.entries.get c) ((r.eachCorner (Part.issue k)).window c) :=
    ((each c).1 (mem c)).of_same (same c).1 (before.degraded (by decide)) (before.cfg (by decide)) before.clock
  have upto := before.trans issued (M := windowGrantAreas ++ lockAreas) (by decide) (by decide)
  obtain ⟨goesOn, ends⟩ := Part.judgeOperation_judges stands running
  have since : x.since = p.clock := (congrArg OpHeader.since header).trans locks.clock
  have origin : x.origin = o := congrArg OpHeader.origin header
  change Part.Within _ p (r.eachCorner (Part.issue k)) at upto
  change (r.eachCorner (Part.issue k)).operation = some x at stands
  change (r.eachCorner (Part.issue k)).waiting = [] at empty
  change x.anyLive = true → (r.eachCorner (Part.issue k)).judgeOperation = r.eachCorner (Part.issue k) at goesOn
  change x.anyLive = false → (r.eachCorner (Part.issue k)).judgeOperation = (r.eachCorner (Part.issue k)).endOperation x.outcome at ends
  clear each issued
  generalize r.eachCorner (Part.issue k) = z at *
  cases any : x.anyLive with
  | true =>
    rw [goesOn any]
    exact ⟨x, stands, congrArg OpHeader.kind header, origin, since, answered, empty, upto.mono (by decide),
      fun _ => ⟨running, fun y => upto.head y⟩, fun dead => by cases any.symm.trans dead⟩
  | false =>
    obtain ⟨ended, head, within⟩ := Part.endOperation_ends stands x.outcome
    rw [ends any]
    refine ⟨_, ended, congrArg OpHeader.kind header, origin, since, fun c => ?_, (within.waiting (by decide)).trans empty,
      upto.trans within (by decide) (by decide), fun live => (by cases any.symm.trans live), fun _ => ⟨?_, fun y hy => ?_⟩⟩
    · rw [within.window c (by decide)]
      exact answered c
    · rw [upto.clock]
      rfl
    · rw [head y (origin.trans hy), upto.head y]
      rfl

end Sys2Proof.Machine
end

section
/-! The combined orders, window by window (R150 to R155). -/

namespace Sys2Proof.Machine

/-- A combined order begins its operation; nothing is left to grant. -/
theorem completes_begins {c : Instr} {k : OrderKind} {op : OpKind} {s : State} {h : OrderHead}
    (ho : orderPosted c = some (h, k, [])) (hp : s.part.accepts h) (hk : k.params = 0)
    (read : ∀ q : Part, q.readOrder h.slot k = some (.combined op)) (idle : s.part.sequencerRuns = false)
    (clear : s.part.crashSet = false) (empty : s.part.waiting = []) (room : 8 ≤ s.part.unitsFree)
    (rest : ∀ c, (s.part.window c).motion = .stopped ∧ (s.part.window c).pending = none ∧ (s.part.monitor c).learn = none) :
    Completes c s fun p => ∃ x, p.operation = some x ∧ x.kind = op ∧ x.origin = .order h.slot ∧ x.since = s.part.clock ∧
      (∀ c, s.part.Answered op c (x.entries.get c) (p.window c)) ∧
      (x.anyLive = true → x.ended = none ∧ p.orderStands h k) ∧
      (x.anyLive = false → x.ended = some ⟨x.outcome, s.part.clock⟩ ∧ p.endedDone h k x.outcome.order) := by
  refine completes_order (.combined op) ho hp hk (by simp) (fun q _ => read q) fun q hq => ?_
  have runs : q.sequencerRuns = false := (Part.sequencerRuns_of_within hq.toWithin).trans idle
  have latch : q.crashSet = false := hq.crashSet.trans clear
  have serve : q.serveOrder h.slot (.combined op) = (q.orderTaken h.slot).beginOperation op (.order h.slot) := by
    have open_ : q.operationRefusal op = none := by
      simp only [Part.operationRefusal, runs, Bool.false_eq_true, if_false]
      exact if_neg fun ⟨_, set⟩ => by cases latch.symm.trans set
    simp only [Part.serveOrder, Part.combinedOrder, open_]
  have taken := (q.orderTaken_does h.slot).toWithin
  have before := hq.toWithin.trans taken (M := [.memory, .board, .parity, .heads, .waking, .dwell, .rows, .scroll]) (by decide) (by decide)
  have head : (q.orderTaken h.slot).head h.slot = { q.head h.slot with state := .taken } :=
    (Part.orderTaken_head ..).trans (if_pos rfl)
  have units : (q.orderTaken h.slot).unitsFree = s.part.unitsFree := by
    rw [Part.unitsFree, Part.unitsFree, before.budget (by decide) (by decide), before.holders (by decide)]
  obtain ⟨x, begun⟩ := (q.orderTaken h.slot).beginOperation_begins op (.order h.slot) (before.crashSet.trans clear)
    ((before.waiting (by decide)).trans empty) (by rw [units]; exact room)
    fun c => by rw [before.window c (by decide), before.monitor c (by decide)]; exact rest c
  rw [← serve] at begun
  rw [settle_noneWaits (f := (·.serveOrder h.slot (.combined op))) begun.waiting]
  have burst := ((q.serveOrder h.slot (.combined op)).burstDone_does h.slot).toWithin
  refine ⟨x, (burst.operation (by decide)).trans begun.stands, begun.kind, begun.origin, begun.since.trans before.clock, fun c => ?_,
    fun live => ?_, fun dead => ?_⟩
  · rw [burst.window c (by decide)]
    exact (begun.answered c).of_same (before.window c (by decide)) (before.degraded (by decide)) (before.cfg (by decide)) before.clock
  · obtain ⟨running, heads⟩ := begun.goesOn live
    exact ⟨running, hq.stands ((heads h.slot).trans head)⟩
  · obtain ⟨ended, heads⟩ := begun.ends dead
    refine ⟨ended.trans (by rw [before.clock]), ?_⟩
    rw [Part.endedDone, Part.burstDone_head, heads h.slot rfl, head, hq.head]

/-- How a window that a new operation meets is left (R152, R153). -/
structure Part.Opened (p : Part) (k : OpKind) (c : Corner) (e : Entry) (w : WindowRec) : Prop where
  skips : ∀ r, p.skipReason c = some r → e = skipped r ∧ w = p.window c
  already : p.skipReason c = none → (p.window c).there k ((p.window c).aim p.cfg k) →
    e = ⟨.done, some ((p.window c).aim p.cfg k), some (if k = .vent then .target else .atEnd)⟩ ∧ w = p.window c
  moves : p.skipReason c = none → ¬ (p.window c).there k ((p.window c).aim p.cfg k) →
    e = ⟨.moving, some ((p.window c).aim p.cfg k), none⟩ ∧ w.mode = some .target ∧ w.target = some ((p.window c).aim p.cfg k) ∧
      w.mover = some .sequencer ∧ w.pending = none ∧
      w.motion = if (p.window c).position < (p.window c).aim p.cfg k then .closing else .opening

theorem Part.skipReason_learned {p : Part} {c : Corner} (h : p.skipReason c = none) : (p.window c).learned = true := by
  unfold Part.skipReason at h
  dsimp only at h
  split at h
  · cases h
  split at h
  · cases h
  · rename_i learned
    exact eq_true_of_ne_false learned

theorem Part.Answered.opened {p : Part} {k : OpKind} {c : Corner} {e : Entry} {w : WindowRec} (h : p.Answered k c e w)
    (long : (p.window c).learned = true → 1000 ≤ (p.window c).travel) (offset : p.cfg.softStopOffset ≤ 20)
    (deep : p.cfg.softStopOffset + p.cfg.slowZone < p.cfg.ventDepth) (depth : p.cfg.ventDepth ≤ 600) : p.Opened k c e w := by
  refine ⟨h.skips, fun open_ there => ?_, fun open_ away => ?_⟩
  · have found := ((p.window c).alreadyDone_sequenced k (long (Part.skipReason_learned open_)) offset deep depth).1 there
    obtain ⟨entry, window⟩ := h.already _ open_ found
    refine ⟨entry.trans ?_, window⟩
    split <;> rfl
  · obtain ⟨found, dir⟩ := ((p.window c).alreadyDone_sequenced k (long (Part.skipReason_learned open_)) offset deep depth).2 away
    obtain ⟨entry, window⟩ := h.moves open_ found
    rw [window]
    exact ⟨entry, rfl, rfl, rfl, rfl, dir⟩

section
variable {p : Part} {k : OpKind} {c : Corner} {e : Entry} {w : WindowRec} (h : p.Opened k c e w)
include h

/-- An opened window's entry is MOVING exactly where a move was needed. -/
theorem Part.Opened.live_iff : (e.state = .waiting ∨ e.state = .moving) ↔
    p.skipReason c = none ∧ ¬ (p.window c).there k ((p.window c).aim p.cfg k) := by
  cases skip : p.skipReason c with
  | some r =>
    rw [(h.skips r skip).1]
    exact iff_of_false (by rintro (e | e) <;> cases e) (by rintro ⟨e, -⟩; cases e)
  | none =>
    by_cases there : (p.window c).there k ((p.window c).aim p.cfg k)
    · rw [(h.already skip there).1]
      exact iff_of_false (by rintro (e | e) <;> cases e) fun away => away.2 there
    · rw [(h.moves skip there).1]
      exact iff_of_true (.inr rfl) ⟨rfl, there⟩

/-- An opened window with nothing to do ended well exactly where it was not skipped. -/
theorem Part.Opened.good_iff (still : p.skipReason c = none → (p.window c).there k ((p.window c).aim p.cfg k)) :
    (e.state = .done ∧ (e.reason = some .atEnd ∨ (k = .vent ∧ e.reason = some .target))) ↔ p.skipReason c = none := by
  cases skip : p.skipReason c with
  | some r =>
    rw [(h.skips r skip).1]
    exact iff_of_false (by rintro ⟨e, -⟩; cases e) (by rintro e; cases e)
  | none =>
    rw [(h.already skip (still skip)).1]
    refine iff_of_true ⟨rfl, ?_⟩ rfl
    split
    · exact .inr ⟨by assumption, rfl⟩
    · exact .inl rfl

end

set_option Elab.async false in -- the declarations above are finished first: this bounds the memory of the one text
/-- What the entries say of the whole operation: whether one moves, and how it ends where none does. -/
theorem Operation.opened {p : Part} {x : Operation} {k : OpKind} {f : Corner → WindowRec} (kind : x.kind = k)
    (h : ∀ c, p.Opened k c (x.entries.get c) (f c)) :
    let away := fun c => p.skipReason c = none ∧ ¬ (p.window c).there k ((p.window c).aim p.cfg k)
    ((∃ c, away c) → x.anyLive = true) ∧ ((∀ c, ¬ away c) → x.anyLive = false ∧
      ((∀ c, p.skipReason c = none) → x.outcome = .completed) ∧ ((∃ c, p.skipReason c ≠ none) → x.outcome = .partway)) := by
  subst kind
  refine ⟨fun ⟨c, away⟩ => (Operation.anyLive_iff x).2 ⟨c, (h c).live_iff.2 away⟩, fun still => ?_⟩
  have good : x.good ↔ ∀ c, p.skipReason c = none :=
    forall_congr' fun c => (h c).good_iff fun skip => by
      by_contra there
      exact still c ⟨skip, there⟩
  refine ⟨eq_false_of_ne_true fun live => ?_, fun all => x.outcome_judged.1 (good.2 all), fun ⟨c, skipped⟩ =>
    x.outcome_judged.2 fun all => skipped (good.1 all c)⟩
  obtain ⟨c, live⟩ := (Operation.anyLive_iff x).1 live
  exact still c ((h c).live_iff.1 live)

/-- Settles O51: `completes_begins` for each kind; `Operation.opened` judges the entries. -/
theorem operationsAnswerEachWindow : Obligations.OperationsAnswerEachWindow := by
  unfold Obligations.OperationsAnswerEachWindow
  intro s h k e o hp kinds idle clear empty room rest offset deep depth target skips already reason
  have aim (c : Corner) : target c = (s.part.window c).aim s.part.cfg k := by cases k <;> rfl
  obtain ⟨posted, bare, read⟩ : orderPosted e = some (h, o, []) ∧ o.params = 0 ∧
      ∀ q : Part, q.readOrder h.slot o = some (.combined k) := by
    rcases kinds with ⟨rfl, rfl, rfl⟩ | ⟨rfl, rfl, rfl⟩ | ⟨rfl, rfl, rfl⟩ <;> exact ⟨rfl, rfl, fun _ => rfl⟩
  refine Completes.mono (completes_begins posted hp bare read idle clear empty room fun c => ⟨(rest c).1, (rest c).2.1, (rest c).2.2.1⟩) ?_
  rintro p ⟨x, stands, kind, origin, since, answered, goesOn, ends⟩
  have opened (c : Corner) := (answered c).opened (rest c).2.2.2 offset deep depth
  obtain ⟨live, dead⟩ := Operation.opened kind opened
  have still (h : ∀ c, skips c = none → already c) (c : Corner) : ¬ (skips c = none ∧ ¬ already c) := fun ⟨a, b⟩ => b (h c a)
  refine ⟨x, stands, kind, origin, since, fun c => ⟨(opened c).skips, ?_, ?_⟩, fun some => goesOn (live some), fun all => ?_⟩
  · rw [aim]
    exact (opened c).already
  · rw [aim]
    exact (opened c).moves
  · obtain ⟨none, good, bad⟩ := dead (still all)
    obtain ⟨ended, done⟩ := ends none
    refine ⟨fun all => ?_, fun some => ?_⟩
    · rw [good all] at ended done
      exact ⟨ended, done⟩
    · rw [bad some] at ended done
      exact ⟨ended, done⟩

end Sys2Proof.Machine
end

section
/-! What a port reset takes from the windows and the arbiter's lists (R75, R95, R109, R200). -/

namespace Sys2Proof.Machine

/-- A window at rest for good: nothing drives it, waits for it or learns it; what it has measured stands. -/
structure Part.Cleared (p q : Part) (c : Corner) : Prop where
  motion : (q.window c).motion = .stopped
  pending : (q.window c).pending = none
  learn : (q.monitor c).learn = none
  kept : (q.window c).learned = (p.window c).learned ∧ (q.window c).travel = (p.window c).travel ∧ (q.window c).heat = (p.window c).heat

theorem Part.resetLearn_ends (p : Part) (c : Corner) :
    (∀ x, (p.resetLearn c).window x = p.window x ∨ x = c ∧
      (p.resetLearn c).window x = { p.window c with position := min (p.window c).position (p.window c).travel }) ∧
    (∀ x, (p.resetLearn c).monitor x = if x = c then { p.monitor c with learn := none } else p.monitor x) := by
  unfold Part.resetLearn
  split
  · rename_i free
    refine ⟨fun x => .inl rfl, fun x => ?_⟩
    split
    · subst_vars
      rw [← free]
    · rfl
  · rename_i l _
    have close := (p.closeLearn_does c l none none).toWithin
    refine ⟨fun x => ?_, fun x => ?_⟩
    · rw [Part.clampPosition_window, close.window c, close.window x]
      split
      · exact .inr ⟨by assumption, rfl⟩
      · exact .inl rfl
    · rw [(Part.clampPosition_does _ c).toWithin.monitor x]
      exact p.closeLearn_monitor ..

/-- A window at a port reset (R75, R95). -/
theorem Part.windowPortReset_clears (p : Part) (c : Corner) : Part.Cleared p (p.windowPortReset c) c := by
  let q := if ((p.endWatch c).window c).driven then (p.endWatch c).stopWindow c .reset else p.endWatch c
  have stops : (q.window c).learned = (p.window c).learned ∧ (q.window c).travel = (p.window c).travel ∧
      (q.window c).heat = (p.window c).heat := by
    by_cases driven : ((p.endWatch c).window c).driven = true
    · rw [show q = (p.endWatch c).stopWindow c .reset from if_pos driven, Part.stopWindow_window, if_pos rfl]
      exact ⟨rfl, rfl, rfl⟩
    · rw [show q = p.endWatch c from if_neg driven]
      exact ⟨rfl, rfl, rfl⟩
  obtain ⟨window, monitor⟩ := q.resetLearn_ends c
  have kept : ((q.resetLearn c).window c).learned = (q.window c).learned ∧ ((q.resetLearn c).window c).travel = (q.window c).travel ∧
      ((q.resetLearn c).window c).heat = (q.window c).heat := by
    rcases window c with e | ⟨-, e⟩ <;> rw [e] <;> exact ⟨rfl, rfl, rfl⟩
  have drop : (p.windowPortReset c).window c = { (q.resetLearn c).window c with pending := none } :=
    ((q.resetLearn c).dropPending_window c c).trans (if_pos rfl)
  refine ⟨(p.windowPortReset_motion c c).trans (if_pos rfl), by rw [drop], ?_, ?_⟩
  · exact congrArg MonitorRec.learn ((monitor c).trans (if_pos rfl))
  · rw [drop]
    exact ⟨kept.1.trans stops.1, kept.2.1.trans stops.2.1, kept.2.2.trans stops.2.2⟩

/-- The other windows at a port reset of one. -/
theorem Part.windowPortReset_aside (p : Part) {c x : Corner} (h : x ≠ c) : Part.Aside c p (p.windowPortReset x) := by
  have watch : Part.Aside c p (p.endWatch x) := ⟨rfl, (Part.setMonitor_monitor ..).trans (if_neg h.symm), id⟩
  have learn (q : Part) : Part.Aside c q (q.resetLearn x) := by
    obtain ⟨window, monitor⟩ := q.resetLearn_ends x
    exact ⟨(window c).resolve_right fun ⟨e, _⟩ => h e.symm, (monitor c).trans (if_neg h.symm),
      fun e => ((q.resetLearn_does x).waiting (by decide)).trans e⟩
  unfold Part.windowPortReset
  dsimp only
  split
  · refine ((watch.trans ⟨?_, ?_, fun e => (Part.stopWindow_waiting ..).trans e⟩).trans (learn _)).trans (Part.dropPending_aside _ h)
    · rw [Part.stopWindow_window, if_neg h.symm]
    · rw [Part.stopWindow_monitor, if_neg h.symm]
  · exact (watch.trans (learn _)).trans (Part.dropPending_aside _ h)

theorem Part.eachCorner_portReset_clears (p : Part) (c : Corner) : Part.Cleared p (p.eachCorner Part.windowPortReset) c := by
  obtain ⟨q, before, after⟩ := Part.eachCorner_around (.refl c) .trans (f := Part.windowPortReset)
    (fun q x h => q.windowPortReset_aside h) p
  obtain ⟨motion, pending, learn, kept⟩ := q.windowPortReset_clears c
  refine ⟨?_, ?_, ?_, ?_⟩
  · rw [after.window]; exact motion
  · rw [after.window]; exact pending
  · rw [after.monitor]; exact learn
  · rw [after.window, ← before.window]; exact kept

/-! ### The arbiter's lists -/

/-- What leaves the latches' entries in the arbiter's lists and adds none to wait. -/
structure Part.Lightens (p q : Part) : Prop where
  holders : ∀ h ∈ p.holders, ∀ d, h.actuator = .latch d → h ∈ q.holders
  waiting : ∀ w ∈ q.waiting, w ∈ p.waiting

theorem Part.Lightens.refl (p : Part) : Part.Lightens p p := ⟨fun _ h _ _ => h, fun _ h => h⟩

theorem Part.Lightens.trans {p q r : Part} (h : Part.Lightens p q) (k : Part.Lightens q r) : Part.Lightens p r :=
  ⟨fun x hx d hd => k.holders x (h.holders x hx d hd) d hd, fun w hw => h.waiting w (k.waiting w hw)⟩

theorem Part.Within.lightens {K : List Area} {p q : Part} (w : Part.Within K p q) (h1 : .holders ∉ K := by decide)
    (h2 : .waiting ∉ K := by decide) : Part.Lightens p q :=
  ⟨fun x hx _ _ => by rw [w.holders h1]; exact hx, fun x hx => by rw [← w.waiting h2]; exact hx⟩

theorem Part.windowPortReset_lightens (p : Part) (c : Corner) : Part.Lightens p (p.windowPortReset c) := by
  have watch : Part.Lightens p (p.endWatch c) := ⟨fun _ h _ _ => h, fun _ h => h⟩
  have learn (q : Part) := (q.resetLearn_does c).toWithin.lightens
  have drop (q : Part) : Part.Lightens q (q.dropPending c) := ⟨fun _ h _ _ => h, fun w hw => (List.mem_filter.1 hw).1⟩
  have stop (q : Part) : Part.Lightens q (q.stopWindow c .reset) := by
    have halt : Part.Lightens q (q.halt c .reset) := (q.halt_acts c .reset).toWithin.lightens
    have gives (r : Part) : Part.Lightens r (r.dropHolder (.window c)) :=
      ⟨fun h hh d e => List.mem_filter.2 ⟨hh, decide_eq_true (by rw [e]; exact nofun)⟩, fun _ h => h⟩
    exact (halt.trans (gives _)).trans ((Part.markDirty_does _ _).toWithin.lightens)
  unfold Part.windowPortReset
  dsimp only
  split
  · exact ((watch.trans (stop _)).trans (learn _)).trans (drop _)
  · exact (watch.trans (learn _)).trans (drop _)

theorem Part.eachCorner_portReset_lightens (p : Part) : Part.Lightens p (p.eachCorner Part.windowPortReset) := by
  simp only [Part.eachCorner, Corner.all, List.foldl_cons, List.foldl_nil]
  have step := Part.windowPortReset_lightens
  exact (((step _ _).trans (step _ _)).trans (step _ _)).trans (step _ _)

/-! ### Granting once every window is at rest -/

set_option Elab.async false in -- the declarations above are finished first: this bounds the memory of the one text
/-- With no command pending, granting reaches only the latches and the lists. -/
theorem grantHeads_idle : ∀ (n : Nat) {p : Part}, (∀ c, (p.window c).pending = none) →
    Part.Within [.latches, .holders, .waiting] p (grantHeads n p)
  | 0, p, _ => .refl _ p
  | n + 1, p, idle => by
    unfold grantHeads
    split
    · exact .refl _ p
    · rename_i w rest _
      split
      · generalize p.holders ++ [⟨w.actuator, w.units, w.prec, p.clock, .withinBudget⟩] = l
        have lists := p.setLists_within l rest
        have tells : Part.Within [.latches, .holders, .waiting] p ((p.setLists l rest).tellGrant w.actuator) := by
          cases w.actuator with
          | latch d => exact lists.trans ((p.setLists l rest).startPulse_does d).toWithin (by decide) (by decide)
          | window c =>
            have waits : ((p.setLists l rest).window c).pending = none := idle c
            rw [Part.tellGrant, Part.windowGranted, waits]
            exact lists.mono (by decide)
        refine tells.trans (grantHeads_idle n fun c => ?_) (List.Subset.refl _) (List.Subset.refl _)
        rw [tells.window c (by decide)]
        exact idle c
      · exact .refl _ p

theorem settle_idle {f : Part → Part} {p : Part} (idle : ∀ c, ((f p).window c).pending = none) :
    Part.Within [.latches, .holders, .waiting] (f p) (settle f p) := by
  unfold settle
  dsimp only
  split
  · exact .refl _ _
  · exact grantHeads_idle _ idle

end Sys2Proof.Machine
end

section
/-! The port reset (R28, R48, R75, R130, R141, R183, R188, R189, R196, R200). -/

namespace Sys2Proof.Machine

/-- A hold tracker at a port reset: IDLE, the fob's keep and the other fobs as they were. -/
theorem Part.resetTracker_resets (p : Part) (f x : Fob) :
    (p.resetTracker f).fob x = if x = f then { p.fob f with tracker := .idle } else p.fob x := by
  have set : (p.setTracker f .idle).fob x = if x = f then { p.fob f with tracker := .idle } else p.fob x := Part.setFob_fob ..
  unfold Part.resetTracker
  split
  · rename_i idle
    split
    · subst_vars
      rw [← idle]
    · rfl
  · exact set
  · exact set
  · exact ((Part.appendRow_does _ _).toWithin.fob x (by decide)).trans set

theorem Part.eachFob_resetTracker (p : Part) (f : Fob) : (p.eachFob Part.resetTracker).fob f = { p.fob f with tracker := .idle } := by
  simp only [Part.eachFob, Fob.all, List.foldl_cons, List.foldl_nil, Part.resetTracker_resets]
  cases f <;> rfl

/-- The doors once the searches are discarded (R28). -/
theorem Part.discardSearches_doors (p : Part) : p.discardSearches.locator = { p.locator with list := [], flight := none } ∧
    p.discardSearches.doors = { p.doors with recs := p.discardSearches.doors.recs } ∧
    ∀ d, p.discardSearches.door d = { p.door d with pull := false } := by
  refine ⟨rfl, rfl, fun d => ?_⟩
  simp only [Part.discardSearches, Door.all, List.foldl_cons, List.foldl_nil, Part.clearPull, Part.setDoor_door]
  cases d <;> rfl

/-- What the blocks of a port reset leave, before granting. -/
structure Part.Restarted (p q : Part) : Prop where
  state : q.state = .start .short .drivers
  check : q.check = .notRun
  heads : ∀ k, q.head k = .free
  operation : q.operation = none
  locator : q.locator.list = [] ∧ q.locator.flight = none
  windows : ∀ c, Part.Cleared p q c
  doors : (∀ d, q.door d = { p.door d with pull := false }) ∧ q.doors = { p.doors with recs := q.doors.recs }
  latches : ∀ d, q.latch d = (p.latch d).map fun op => { op with orders := [] }
  holders : ∀ h ∈ p.holders, ∀ d, h.actuator = .latch d → h.prec ≠ .window → h ∈ q.holders
  noWindow : (∀ h ∈ q.holders, h.prec ≠ .window) ∧ ∀ w ∈ q.waiting, w ∈ p.waiting ∧ w.prec ≠ .window
  fobs : ∀ f, (q.fob f).keep = (p.fob f).keep ∧ (q.fob f).tracker = .idle ∧ (q.fob f).waits = none

set_option Elab.async false in -- the declarations above are finished first: this bounds the memory of the one text
theorem Part.portResetBlocks_restarts (p : Part) : Part.Restarted p p.portResetBlocks := by
  have cleared := p.portResetMemory.eachCorner_portReset_clears
  have lightens := p.portResetMemory.eachCorner_portReset_lightens
  have windows := p.portResetMemory.portResetWindows_acts.toWithin
  have heads : p.portResetMemory.heads = Vector.replicate 16 .free := rfl
  unfold Part.portResetBlocks
  dsimp only
  generalize p.portResetMemory.eachCorner Part.windowPortReset = q at cleared lightens windows ⊢
  have trackers := (q.dropWindows.eachFob_does Part.resetTracker_does).toWithin
  have fob := q.dropWindows.eachFob_resetTracker
  generalize q.dropWindows.eachFob Part.resetTracker = r at trackers fob ⊢
  have searches := r.discardSearches_does.toWithin
  obtain ⟨locator, doors, door⟩ := r.discardSearches_doors
  generalize r.discardSearches = z at searches locator doors door ⊢
  have rdoors : r.doors = p.doors := (trackers.doors (by decide)).trans (windows.doors (by decide))
  have record (d : Door) : r.door d = p.door d := congrArg (·.recs.get d) rdoors
  have lists : z.holders = q.dropWindows.holders ∧ z.waiting = q.dropWindows.waiting :=
    ⟨(searches.holders (by decide)).trans (trackers.holders (by decide)), (searches.waiting (by decide)).trans (trackers.waiting (by decide))⟩
  have window (c : Corner) : z.window c = q.window c ∧ z.monitor c = q.monitor c :=
    ⟨(searches.window c (by decide)).trans (trackers.window c (by decide)), (searches.monitor c (by decide)).trans (trackers.monitor c (by decide))⟩
  refine ⟨rfl, rfl, fun k => ?_, rfl, ⟨congrArg Locator.list locator, congrArg Locator.flight locator⟩, fun c => ?_,
    ⟨fun d => ?_, by rw [← rdoors]; exact doors⟩, fun d => ?_, fun h hh d e other => ?_, ⟨fun h hh => ?_, fun w hw => ?_⟩, fun f => ?_⟩
  · show z.heads.get k = _
    rw [searches.heads (by decide), trackers.heads (by decide), show q.dropWindows.heads = q.heads from rfl, windows.heads (by decide), heads]
    exact Vector.get_replicate ..
  · obtain ⟨motion, pending, learn, kept⟩ := cleared c
    obtain ⟨w, m⟩ := window c
    refine ⟨?_, ?_, ?_, ?_⟩
    · exact (congrArg WindowRec.motion w).trans motion
    · exact (congrArg WindowRec.pending w).trans pending
    · exact (congrArg MonitorRec.learn m).trans learn
    · rw [show z.forgetOrders.restart.window c = q.window c from w]
      exact kept
  · exact (door d).trans (by rw [record])
  · refine (PerDoor.get_build ..).trans ?_
    rw [searches.latch d (by decide), trackers.latch d (by decide), show q.dropWindows.latch d = q.latch d from rfl, windows.latch d (by decide)]
    rfl
  · show h ∈ z.holders
    rw [lists.1]
    exact List.mem_filter.2 ⟨lightens.holders h hh d e, decide_eq_true other⟩
  · rw [show z.forgetOrders.restart.holders = q.dropWindows.holders from lists.1] at hh
    exact of_decide_eq_true (List.mem_filter.1 hh).2
  · rw [show z.forgetOrders.restart.waiting = q.dropWindows.waiting from lists.2] at hw
    obtain ⟨mem, other⟩ := List.mem_filter.1 hw
    exact ⟨lightens.waiting w mem, of_decide_eq_true other⟩
  · have same : z.fob f = { q.fob f with tracker := .idle } := (searches.fob f (by decide)).trans (fob f)
    have reset : z.forgetOrders.restart.fob f = { z.fob f with waits := none } := PerFob.get_build ..
    have keep := (windows.fobs (by decide) f).1
    rw [reset, same]
    exact ⟨keep, rfl, rfl⟩

/-- A port reset leaves the part so, and the releases that wait and fit pulse. -/
theorem Part.portReset_restarts (p : Part) : ∃ q, Part.Restarted p q ∧ Part.Within [.latches, .holders, .waiting] q p.portReset ∧
    Part.Granting q p.portReset :=
  have blocks := p.portResetBlocks_restarts
  ⟨p.portResetBlocks, blocks, settle_idle fun c => (blocks.windows c).pending, settle_granting ..⟩

/-- In START a burst of a port reset does nothing (R200). -/
theorem Part.portReset_start {p : Part} {test : SelfTest} {stage : TestStage} (h : p.state = .start test stage) :
    p.registerWrite .control 1 = p := by
  have quiet : p.burstTaken .link = p := by
    simp [Part.burstTaken, Part.activity, Part.inService, h]
  show (p.burstTaken .link).portResetWrite = p
  rw [quiet, Part.portResetWrite, h]

/-- Settles O5: `portReset_restarts`, after the burst itself; the port's and the scroll's words by `portReset_blocks`. -/
theorem portResetRunsTheShortSelfTest : Obligations.PortResetRunsTheShortSelfTest := by
  unfold Obligations.PortResetRunsTheShortSelfTest
  refine fun s => ⟨fun h => (completes_run (f := (·.registerWrite .control 1)) rfl).2 ?_, fun test stage h => ?_⟩
  · have taken := (s.part.burstTaken_does .link).toWithin
    have acts : (s.part.burstTaken .link).portResetWrite = (s.part.burstTaken .link).portReset := Part.portResetWrite_acts (by
      rw [Part.inSafeHold, taken.state (by decide), taken.served (by decide)]
      exact h)
    rw [show s.part.registerWrite .control 1 = _ from acts]
    generalize s.part.burstTaken .link = p at taken ⊢
    have blocks := p.portReset_blocks
    obtain ⟨q, restarted, within, grants⟩ := p.portReset_restarts
    generalize p.portReset = r at blocks within grants ⊢
    obtain ⟨new, holders, fresh⟩ := grants.holders
    refine ⟨(within.state (by decide)).trans restarted.state, (within.check (by decide)).trans restarted.check,
      blocks.clock.trans taken.clock, blocks.driver.trans taken.driver, fun k => ?_, blocks.pointer (by decide), blocks.mask (by decide),
      blocks.vehicleWord (by decide), blocks.misuse (by decide), (blocks.reports (by decide)).start,
      (within.operation (by decide)).trans restarted.operation, ?_, ?_, fun c => ?_, fun d => ?_, ?_, fun d empty => ?_,
      fun d op standing => ?_, fun x hx d hd other => ?_, fun x hx => ?_, (blocks.crash (by decide)).trans (taken.crash (by decide)),
      (blocks.supply (by decide)).trans (taken.supply (by decide)), (blocks.cfg (by decide)).trans (taken.cfg (by decide)), fun f => ?_⟩
    · rw [within.head k (by decide)]
      exact restarted.heads k
    · rw [within.locator (by decide)]
      exact restarted.locator.1
    · rw [within.locator (by decide)]
      exact restarted.locator.2
    · obtain ⟨motion, pending, learn, kept⟩ := restarted.windows c
      rw [within.window c (by decide), within.monitor c (by decide), ← taken.window c (by decide)]
      exact ⟨motion, pending, learn, kept⟩
    · rw [within.door d (by decide), ← taken.door d (by decide)]
      exact restarted.doors.1 d
    · rw [within.doors (by decide), ← taken.doors (by decide)]
      exact restarted.doors.2
    · have before : q.latch d = none := by rw [restarted.latches d, taken.latch d (by decide), empty]; rfl
      rcases grants.latch d with same | ⟨-, pulses⟩
      · exact same.trans before
      · rw [pulses, before]
        rfl
    · have before : q.latch d = some { op with orders := [] } := by rw [restarted.latches d, taken.latch d (by decide), standing]; rfl
      rcases grants.latch d with same | ⟨⟨w, hw, ha⟩, pulses⟩
      · exact ⟨_, same.trans before, rfl, rfl, rfl, rfl, .inl ⟨rfl, rfl⟩⟩
      · obtain ⟨mem, other⟩ := restarted.noWindow.2 w hw
        refine ⟨_, pulses.trans (congrArg _ before), rfl, rfl, rfl, rfl, .inr ⟨rfl, w, ?_, ha, other⟩⟩
        rw [← taken.waiting (by decide)]
        exact mem
    · rw [holders]
      refine List.mem_append_left _ (restarted.holders x ?_ d hd other)
      rw [taken.holders (by decide)]
      exact hx
    · rw [holders] at hx
      rcases List.mem_append.1 hx with old | added
      · exact restarted.noWindow.1 x old
      · obtain ⟨w, hw, rfl⟩ := fresh x added
        exact (restarted.noWindow.2 w hw).2
    · obtain ⟨keep, tracker, waits⟩ := restarted.fobs f
      rw [within.fob f (by decide), ← taken.fob f (by decide)]
      exact ⟨keep, tracker, waits⟩
  · exact congrArg (fun p => Host.Outcome.next { s with part := p }) (Part.portReset_start h)

end Sys2Proof.Machine
end

section
/-! The words of the part block (11.6, R187, R197, R199). -/

namespace Sys2Proof.Machine

/-! ### Fields packed into one word -/

/-- The bits of a code, by the number of its values (11.6). -/
theorem bitsFor_values : bitsFor 2 = 1 ∧ bitsFor 3 = 2 ∧ bitsFor 4 = 2 ∧ bitsFor 5 = 3 ∧ bitsFor 6 = 3 ∧ bitsFor 7 = 3 ∧ bitsFor 8 = 3 ∧
    bitsFor 9 = 4 ∧ bitsFor 10 = 4 ∧ bitsFor 12 = 4 ∧ bitsFor 13 = 4 := by decide

/-- Flags packed: one bit each. -/
theorem packNat_flags : ∀ (l : List Bool) (pos cur : Nat), pos + l.length ≤ 32 →
    packNat (l.map flagField) pos cur = [cur + 2 ^ pos * setValue l]
  | [], pos, cur, _ => by simp [packNat, setValue]
  | b :: l, pos, cur, h => by
    rw [List.length_cons] at h
    have place : 2 ^ (pos + 1) * setValue l = 2 ^ pos * (2 * setValue l) := by rw [Nat.pow_succ, Nat.mul_assoc]
    rw [List.map_cons, packNat, if_pos (show pos + (flagField b).width ≤ 32 by change pos + 1 ≤ 32; omega),
      packNat_flags l (pos + (flagField b).width) _ (by change pos + 1 + l.length ≤ 32; omega)]
    change [cur + 2 ^ pos * b.toNat + 2 ^ (pos + 1) * setValue l] = _
    rw [place, setValue, Nat.mul_add, Nat.add_assoc]

theorem packWord_flags (l : List Bool) (h : l.length ≤ 32) :
    (packWord (l.map flagField)).toNat = setValue l ∧ ∀ k, (packWord (l.map flagField)).getLsbD k = l.getD k false := by
  have value : (packWord (l.map flagField)).toNat = setValue l := by
    rw [packWord_toNat fun f hf => by obtain ⟨b, -, rfl⟩ := List.mem_map.1 hf; exact flagField_fits b,
      packNat_flags l 0 0 (by omega)]
    simp
  exact ⟨value, fun k => by rw [BitVec.getLsbD, value, setValue_testBit]⟩

/-- The flags of the degraded map but for the inputs, in their order (R199). -/
def Degraded.flags (m : Degraded) : List Bool :=
  Corner.all.map m.bridges.get ++ Corner.all.map m.halls.get ++ Door.all.map m.latches.get ++ Antenna.all.map m.antennas.get ++
    [m.receiver] ++ RecordId.all.map m.records.get

theorem degradedPlain_flags (m : Degraded) : degradedPlain m = m.flags.map flagField := by
  simp [degradedPlain, Degraded.flags, cornerFlags, doorFlags, antennaFlags, List.map_map, Function.comp_def]

section
variable (p : Part)

theorem Part.word1_flags : (p.hostRead 1).toNat < 2 ^ 30 ∧ ∀ k, (p.hostRead 1).getLsbD k = p.degraded.flags.getD k false := by
  have e : p.hostRead 1 = packWord (p.degraded.flags.map flagField) := by
    rw [p.hostRead_part (by decide), ← degradedPlain_flags]
    rfl
  obtain ⟨value, bits⟩ := packWord_flags p.degraded.flags (by change 30 ≤ 32; decide)
  rw [e]
  exact ⟨by rw [value]; exact setValue_lt _, bits⟩

theorem Part.word2_time : (p.hostRead 2).toNat = p.clock % 2 ^ 24 := by
  rw [p.hostRead_part (by decide)]
  change (packWord [timeField p.clock]).toNat = _
  rw [packWord_toNat (by simp)]
  simp [packNat, timeField, stampOf]

/-- The code of a supply class. -/
theorem SupplyClass.code_lt (c : SupplyClass) : c.ctorIdx < 3 := by cases c <;> decide

theorem Part.word3_supply : (p.hostRead 3).toNat = p.supply.cls.ctorIdx + 4 * (p.supply.millivolts % 2 ^ 15) := by
  have small := p.supply.cls.code_lt
  rw [p.hostRead_part (by decide)]
  change (packWord [codeField 3 p.supply.cls.ctorIdx, numField 15 p.supply.millivolts]).toNat = _
  rw [packWord_toNat (by simp [bitsFor_values])]
  simp [packNat, codeField, numField, bitsFor_values, Nat.mod_eq_of_lt (show p.supply.cls.ctorIdx < 4 by omega)]

theorem Part.word4_candidate : (p.supply.candidate = none → (p.hostRead 4).toNat = 3) ∧
    ∀ k, p.supply.candidate = some k → (p.hostRead 4).toNat = k.cls.ctorIdx + 4 * (k.count % 4) := by
  have e : p.hostRead 4 = packWord [codeOrAbsent 3 (p.supply.candidate.map (·.cls.ctorIdx)),
      numField 2 ((p.supply.candidate.map (·.count)).getD 0)] := p.hostRead_part (by decide)
  rw [e, packWord_toNat (by simp [bitsFor_values])]
  refine ⟨fun h => ?_, fun k h => ?_⟩
  · rw [h]
    rfl
  · have small := k.cls.code_lt
    rw [h]
    simp [packNat, codeOrAbsent, numOrAbsent, numField, bitsFor_values, Nat.mod_eq_of_lt (show k.cls.ctorIdx < 4 by omega)]

theorem Part.word5_crash : (p.hostRead 5).toNat = (if p.crashSet then 0 else 1) + 2 * (((p.crash.latch.map (·.count)).getD 0) % 256) := by
  have e : p.hostRead 5 = packWord [onOff p.crashSet, numField 8 ((p.crash.latch.map (·.count)).getD 0)] := p.hostRead_part (by decide)
  rw [e, packWord_toNat (by simp)]
  cases p.crashSet <;> simp [packNat, onOff, numField]

theorem Part.word6_crash : (p.hostRead 6).toNat = ((p.crash.latch.map (·.since)).getD 0) % 2 ^ 24 := by
  have e : p.hostRead 6 = packWord [timeField ((p.crash.latch.map (·.since)).getD 0)] := p.hostRead_part (by decide)
  rw [e, packWord_toNat (by simp)]
  simp [packNat, timeField, stampOf]

theorem Part.word7_budget (budget : p.budget ≤ 12) (held : unitsHeld p.holders ≤ 13) : (p.hostRead 7).toNat =
    p.supply.cls.ctorIdx + 4 * p.budget + 64 * unitsHeld p.holders + 1024 * (p.budget - unitsHeld p.holders) +
      16384 * ((unitsHeld p.holders - p.budget) % 8) := by
  have small := p.supply.cls.code_lt
  have e : p.hostRead 7 = packWord [codeField 3 p.supply.cls.ctorIdx, numField 4 p.budget, numField 4 (unitsHeld p.holders),
      numField 4 (p.budget - unitsHeld p.holders), numField 3 (unitsHeld p.holders - p.budget)] := p.hostRead_part (by decide)
  rw [e, packWord_toNat (by simp [bitsFor_values])]
  simp [packNat, codeField, numField, bitsFor_values, Nat.mod_eq_of_lt (show p.supply.cls.ctorIdx < 4 by omega),
    Nat.mod_eq_of_lt (show p.budget < 16 by omega), Nat.mod_eq_of_lt (show unitsHeld p.holders < 16 by omega),
    Nat.mod_eq_of_lt (show p.budget - unitsHeld p.holders < 16 by omega)]

theorem Part.word8_check : (p.check = .notRun → (p.hostRead 8).toNat = 60) ∧ (p.check = .passed → (p.hostRead 8).toNat = 61) ∧
    ∀ n, p.check = .failed n → (p.hostRead 8).toNat = 2 + 4 * (n % 16) := by
  have e : p.hostRead 8 = p.partBlock.getD 8 0 := p.hostRead_part (by decide)
  rw [e]
  unfold Part.partBlock
  refine ⟨fun h => ?_, fun h => ?_, fun n h => ?_⟩
  · rw [h]
    rfl
  · rw [h]
    rfl
  · rw [h]
    change (packWord [codeField 3 2, numField 4 n]).toNat = _
    rw [packWord_toNat (by simp [bitsFor_values])]
    simp [packNat, codeField, numField, bitsFor_values]

theorem Part.word9_scroll (tidy : p.tidy) : (p.hostRead 9).toNat = p.scroll.start + 128 * ((p.scroll.start + p.scroll.unread) % 128) +
    16384 * p.scroll.unread + 4194304 * (if p.scroll.unread = 128 then 1 else 0) := by
  obtain ⟨-, -, start, unread⟩ := tidy
  have e : p.hostRead 9 = packWord [numField 7 p.scroll.start, numField 7 ((p.scroll.start + p.scroll.unread) % 128),
      numField 8 p.scroll.unread, flagField (decide (p.scroll.unread = 128))] := p.hostRead_part (by decide)
  rw [e, packWord_toNat (by simp)]
  simp [packNat, numField, flagField, Nat.mod_eq_of_lt start, Nat.mod_eq_of_lt (show p.scroll.unread < 256 by omega), Bool.toNat, cond_eq_ite]

theorem Part.word10_mark : (p.hostRead 10).toNat = p.scroll.mark.toNat := by
  have e : p.hostRead 10 = packWord [⟨16, p.scroll.mark.toNat⟩] := p.hostRead_part (by decide)
  rw [e, packWord_toNat (by
    intro f hf
    obtain rfl := List.mem_singleton.1 hf
    exact ⟨p.scroll.mark.isLt, (by decide : 16 ≤ 32)⟩)]
  simp [packNat]

/-- The place of a record in the store's order (12.5). -/
theorem recordCode_places : (∀ f : Fob, recordCode (.fob f) = f.ctorIdx) ∧ recordCode .lock = 4 ∧
    ∀ c : Corner, recordCode (.window c) = 5 + c.ctorIdx :=
  ⟨fun f => by cases f <;> rfl, rfl, fun c => by cases c <;> rfl⟩

theorem RecordId.code_lt (r : RecordId) : recordCode r < 9 := by
  obtain ⟨fob, lock, window⟩ := recordCode_places
  cases r with
  | fob f => rw [fob]; cases f <;> decide
  | lock => rw [lock]; decide
  | window c => rw [window]; cases c <;> decide

theorem Part.word11_store : (p.hostRead 11).toNat = p.store.dirty.length % 16 + 256 * (p.store.bad % 16) +
    16 * ((p.store.commit.map (recordCode ·.content.record)).getD 15) := by
  have e : p.hostRead 11 = packWord [numField 4 p.store.dirty.length, codeOrAbsent 9 (p.store.commit.map (recordCode ·.content.record)),
      numField 4 p.store.bad] := p.hostRead_part (by decide)
  rw [e, packWord_toNat (by simp [bitsFor_values])]
  cases p.store.commit with
  | none =>
    simp [packNat, codeOrAbsent, numOrAbsent, numField, bitsFor_values]
    omega
  | some k =>
    have small := RecordId.code_lt k.content.record
    simp [packNat, codeOrAbsent, numOrAbsent, numField, bitsFor_values, Nat.mod_eq_of_lt (show recordCode k.content.record < 16 by omega)]
    omega

theorem Part.word12_vehicle : (p.hostRead 12).toNat = p.doors.vehicle.ctorIdx := by
  have e : p.hostRead 12 = packWord [codeField 3 p.doors.vehicle.ctorIdx] := p.hostRead_part (by decide)
  rw [e]
  cases p.doors.vehicle <;> rfl

end

end Sys2Proof.Machine
end

section
/-! PORT STATUS, ATTN, the slot heads and the words beside the records (R187, R189, R195, 11.6). -/

namespace Sys2Proof.Machine

/-! ### Part state, stage and hold code -/

/-- The codes of the part state, the stage and the hold code fit three bits each (R187). -/
theorem Part.codes_lt (p : Part) : p.state.code < 5 ∧ p.stageCode < 8 ∧ p.holdCode < 6 := by
  refine ⟨?_, ?_, ?_⟩
  · cases p.state <;> exact of_decide_eq_true rfl
  · unfold Part.stageCode
    cases p.state with
    | start _ t => exact Nat.lt_succ_of_le (Nat.sub_le 7 t.ctorIdx)
    | held => decide
    | service => decide
    | doze => decide
    | safeHold h => exact Nat.succ_pos 7
  · unfold Part.holdCode
    cases p.state with
    | safeHold h => cases h <;> decide
    | start _ _ => exact Nat.succ_pos 5
    | held => decide
    | service => decide
    | doze => decide

theorem Part.word0_state (p : Part) : (p.hostRead 0).toNat = p.state.code + 8 * p.stageCode + 64 * p.holdCode := by
  obtain ⟨state, stage, hold⟩ := p.codes_lt
  have e : p.hostRead 0 = packWord [codeField 5 p.state.code, numField 3 p.stageCode, numField 3 p.holdCode] := p.hostRead_part (by decide)
  rw [e, packWord_toNat (by simp [bitsFor_values])]
  simp [packNat, codeField, numField, bitsFor_values, Nat.mod_eq_of_lt (show p.state.code < 8 by omega), Nat.mod_eq_of_lt stage,
    Nat.mod_eq_of_lt (show p.holdCode < 8 by omega)]

theorem Part.portStatus_value (p : Part) : p.portStatus.toNat =
    p.state.code + 8 * p.stageCode + 64 * p.holdCode + 512 * p.attn.toNat + 1024 * p.port.misuse.toNat := by
  obtain ⟨state, stage, hold⟩ := p.codes_lt
  have attn := Bool.toNat_le p.attn
  have misuse := Bool.toNat_le p.port.misuse
  rw [Part.portStatus, BitVec.toNat_ofNat, or_shifted (show p.state.code < 2 ^ 3 by omega),
    or_shifted (show p.state.code + 2 ^ 3 * p.stageCode < 2 ^ 6 by omega),
    or_shifted (show p.state.code + 2 ^ 3 * p.stageCode + 2 ^ 6 * p.holdCode < 2 ^ 9 by omega),
    or_shifted (show p.state.code + 2 ^ 3 * p.stageCode + 2 ^ 6 * p.holdCode + 2 ^ 9 * p.attn.toNat < 2 ^ 10 by omega)]
  omega

/-! ### ATTN (R195) -/

/-- The class codes that ATTENTION MASK enables (R188). -/
theorem Part.enabledClasses_bit (p : Part) (k : Nat) :
    p.enabledClasses.getLsbD k = true ↔ 1 ≤ k ∧ k ≤ 9 ∧ p.port.mask.getLsbD k = true := by
  have area : (0x3FE#32).getLsbD k = decide (1 ≤ k ∧ k ≤ 9) := by
    by_cases small : k < 32
    · revert k
      decide
    · rw [BitVec.getLsbD_of_ge _ _ (by omega)]
      exact (decide_eq_false (by omega)).symm
  rw [Part.enabledClasses, BitVec.getLsbD_and, area, Bool.and_eq_true, decide_eq_true_iff]
  constructor
  · rintro ⟨mask, low, high⟩
    exact ⟨low, high, mask⟩
  · rintro ⟨low, high, mask⟩
    exact ⟨mask, low, high⟩

theorem and_ne_zero_iff (a b : Word) : a &&& b ≠ 0 ↔ ∃ k, b.getLsbD k = true ∧ a.getLsbD k = true := by
  constructor
  · intro h
    by_contra none
    refine h (BitVec.eq_of_getLsbD_eq fun i _ => ?_)
    rw [BitVec.getLsbD_and, show BitVec.getLsbD (0 : Word) i = false from BitVec.getLsbD_zero, Bool.and_eq_false_iff]
    by_contra both
    obtain ⟨ha, hb⟩ := not_or.1 both
    exact none ⟨i, eq_true_of_ne_false hb, eq_true_of_ne_false ha⟩
  · rintro ⟨k, hb, ha⟩ zero
    have := congrArg (fun w : Word => w.getLsbD k) zero
    simp [ha, hb] at this

/-- A row of the unread span that asks for attention. -/
theorem Part.rowAttends_iff (p : Part) (j : Nat) : p.rowAttends j = true ↔
    p.enabledClasses.getLsbD (bitsAt (p.unreadWord j 0) 28 4) = true ∨ (bitsAt (p.unreadWord j 0) 28 4 = 15 ∧
      ∃ k, p.enabledClasses.getLsbD k = true ∧ (p.unreadWord j 2).getLsbD k = true) := by
  have e : p.rowAttends j = if bitsAt (p.unreadWord j 0) 28 4 = 15 then decide (p.unreadWord j 2 &&& p.enabledClasses ≠ 0)
      else p.enabledClasses.getLsbD (bitsAt (p.unreadWord j 0) 28 4) := rfl
  rw [e]
  split
  · rename_i gap
    have bare : ¬ p.enabledClasses.getLsbD (bitsAt (p.unreadWord j 0) 28 4) = true := by
      rw [p.enabledClasses_bit, gap]
      omega
    rw [decide_eq_true_iff, and_ne_zero_iff]
    exact ⟨fun h => .inr ⟨gap, h⟩, fun h => (h.resolve_left bare).2⟩
  · rename_i class_
    exact ⟨.inl, fun h => h.resolve_right fun g => class_ g.1⟩

set_option Elab.async false in -- the declarations above are finished first: this bounds the memory of the one text
theorem Part.attn_iff (p : Part) : p.attn = true ↔ p.state = .held ∨ p.inSafeHold = true ∨
    ∃ j, j < p.scroll.unread ∧ p.rowAttends j = true := by
  rw [Part.attn, Bool.or_eq_true, Bool.or_eq_true, decide_eq_true_iff, List.any_eq_true, or_assoc]
  simp only [List.mem_range]

/-! ### The words beside the records -/

/-- A slot's head as the host reads it (R189). -/
theorem Head.word_value (h : Head) : h.word.toNat =
    536870912 * h.state.ctorIdx + 16777216 * h.kind.toNat + 65536 * h.tag.toNat + 256 * h.code.toNat := by
  have state : h.state.ctorIdx < 6 := by cases h.state <;> decide
  have kind := h.kind.isLt
  have tag := h.tag.isLt
  have code := h.code.isLt
  have sum : h.state.ctorIdx <<< 29 ||| h.kind.toNat <<< 24 ||| h.tag.toNat <<< 16 ||| h.code.toNat <<< 8 =
      2 ^ 29 * h.state.ctorIdx + (2 ^ 24 * h.kind.toNat + (2 ^ 16 * h.tag.toNat + 2 ^ 8 * h.code.toNat)) := by
    simp only [Nat.shiftLeft_eq, Nat.mul_comm _ (2 ^ _), Nat.or_assoc]
    rw [← Nat.two_pow_add_eq_or_of_lt (show 2 ^ 8 * h.code.toNat < 2 ^ 16 by omega),
      ← Nat.two_pow_add_eq_or_of_lt (show 2 ^ 16 * h.tag.toNat + 2 ^ 8 * h.code.toNat < 2 ^ 24 by omega),
      ← Nat.two_pow_add_eq_or_of_lt (show 2 ^ 24 * h.kind.toNat + (2 ^ 16 * h.tag.toNat + 2 ^ 8 * h.code.toNat) < 2 ^ 29 by omega)]
  rw [Head.word, BitVec.toNat_ofNat, sum]
  omega

theorem Part.hostRead_head (p : Part) (k : Slot) : p.hostRead (352 + 8 * k.val) = (p.head k).word := by
  have hk := k.isLt
  have place : (352 + 8 * k.val - 352) / 8 = k.val := by omega
  rw [Part.hostRead, if_neg (by omega), if_neg (by omega), if_neg (by omega), if_neg (by omega), if_neg (by omega),
    if_pos (by omega), place]
  refine congrArg Head.word ?_
  rw [List.getD_eq_getElem?_getD, List.getElem?_eq_getElem (by simp), Option.getD_some]
  rfl

/-- The Control Words as the host reads them (R188). -/
theorem Part.hostRead_control (p : Part) : p.hostRead 256 = BitVec.ofNat 32 p.scroll.start ∧ p.hostRead 257 = p.port.mask ∧
    p.hostRead 258 = p.port.vehicleWord ∧ (∀ i, 259 ≤ i → i < 272 → p.hostRead i = 0) ∧ ∀ i, 992 ≤ i → p.hostRead i = 0 := by
  refine ⟨rfl, rfl, rfl, fun i low high => ?_, fun i low => ?_⟩
  · rw [Part.hostRead, if_neg (by omega), if_neg (by omega), if_neg (by omega), if_neg (by omega), if_pos high]
  · rw [Part.hostRead, if_neg (by omega), if_neg (by omega), if_neg (by omega), if_neg (by omega), if_neg (by omega),
      if_neg (by omega), if_neg (by omega)]

/-- The last words of the part block are zero. -/
theorem Part.hostRead_rest (p : Part) {i : Nat} (low : 13 ≤ i) (high : i < 16) : p.hostRead i = 0 := by
  rw [p.hostRead_part high]
  obtain rfl | rfl | rfl : i = 13 ∨ i = 14 ∨ i = 15 := by omega
  all_goals rfl

/-- Settles O7: the words of the part block one by one, `portStatus_value` and `attn_iff` for the registers. -/
theorem registersAndStatusPageShowThePart : Obligations.RegistersAndStatusPageShowThePart := by
  unfold Obligations.RegistersAndStatusPageShowThePart
  intro s p state stage hold enabled cls
  have codes : p.state.code = state ∧ p.stageCode = stage ∧ p.holdCode = hold := by
    have e : ∀ x, s.part.state = x → p.state.code = state ∧ p.stageCode = stage ∧ p.holdCode = hold := fun x hx => by
      simp only [p, state, stage, hold, Part.stageCode, Part.holdCode, hx]
      cases x with
      | start _ t => cases t <;> exact ⟨rfl, rfl, rfl⟩
      | safeHold h => cases h <;> exact ⟨rfl, rfl, rfl⟩
      | held => exact ⟨rfl, rfl, rfl⟩
      | service => exact ⟨rfl, rfl, rfl⟩
      | doze => exact ⟨rfl, rfl, rfl⟩
    exact e _ rfl
  obtain ⟨code, stageCode, holdCode⟩ := codes
  obtain ⟨small, flags⟩ := p.word1_flags
  obtain ⟨scroll, mask, vehicle, control, beyond⟩ := p.hostRead_control
  obtain ⟨absent, present⟩ := p.word4_candidate
  obtain ⟨notRun, passed, failed⟩ := p.word8_check
  obtain ⟨fob, lock, window⟩ := recordCode_places
  refine ⟨?_, ?_, ?_, fun c => ⟨?_, ?_, ?_⟩, fun d => ?_, fun a => ?_, flags 20, fun f => ?_, flags 25, small, p.word2_time, p.word3_supply,
    ?_, p.word5_crash, ?_, p.word7_budget, ?_, p.word9_scroll, p.word10_mark, ?_, fun i low high => p.hostRead_rest low high,
    p.word12_vehicle, fun tidy => ?_, mask, vehicle, control, fun k => ?_, beyond⟩
  · rw [← code, ← stageCode, ← holdCode]
    exact p.portStatus_value
  · rw [p.attn_iff]
    simp only [p.rowAttends_iff, p.enabledClasses_bit]
    rfl
  · rw [← code, ← stageCode, ← holdCode]
    exact p.word0_state
  · exact (flags _).trans (by cases c <;> rfl)
  · exact (flags _).trans (by cases c <;> rfl)
  · exact (flags _).trans (by cases c <;> rfl)
  · exact (flags _).trans (by cases d <;> rfl)
  · exact (flags _).trans (by cases a <;> rfl)
  · exact (flags _).trans (by cases f <;> rfl)
  · cases h : p.supply.candidate with
    | none => exact absent h
    | some k => exact present k h
  · rw [p.word6_crash]
    cases p.crash.latch <;> rfl
  · cases h : p.check with
    | notRun => exact notRun h
    | passed => exact passed h
    | failed n => exact failed n h
  · rw [p.word11_store]
    cases h : p.store.commit with
    | none => rfl
    | some k =>
      cases r : k.content.record with
      | fob f => simp [r, fob]
      | lock => simp [r, lock]
      | window c => simp [r, window]
  · obtain ⟨-, -, start, -⟩ := tidy
    rw [scroll, BitVec.toNat_ofNat]
    exact Nat.mod_eq_of_lt (by omega)
  · rw [p.hostRead_head, Head.word_value]

end Sys2Proof.Machine
end

section
/-! The records of the doors and windows as the Status Page shows them (R1, R49, R76, 11.6). -/

namespace Sys2Proof.Machine

/-! ### Fields by their values -/

theorem numOrAbsent_eq (w : Nat) (v : Option Nat) : numOrAbsent w v = ⟨w, (v.map (· % 2 ^ w)).getD (2 ^ w - 1)⟩ := by
  cases v <;> rfl

theorem timeOrAbsent_eq (t : Option Nat) : timeOrAbsent t = ⟨25, (t.map (· % 2 ^ 24)).getD (2 ^ 25 - 1)⟩ := by
  cases t <;> simp [timeOrAbsent, numOrAbsent, stampOf]

theorem timeField_eq (t : Nat) : timeField t = ⟨24, t % 2 ^ 24⟩ := by simp [timeField, stampOf]

theorem onOff_eq (b : Bool) : onOff b = ⟨1, if b then 0 else 1⟩ := by cases b <;> rfl

/-- A code below the bound of its field stands as it is. -/
theorem codeOrAbsent_eq {n w : Nat} (width : bitsFor (n + 1) = w) {v : Option Nat} (small : ∀ x, v = some x → x < 2 ^ w) :
    codeOrAbsent n v = ⟨w, v.getD (2 ^ w - 1)⟩ := by
  subst width
  cases v with
  | none => rfl
  | some x => exact congrArg (Field.mk _) (Nat.mod_eq_of_lt (small x rfl))

theorem codeField_eq {n w v : Nat} (width : bitsFor n = w) (small : v < 2 ^ w) : codeField n v = ⟨w, v⟩ := by
  subst width
  exact congrArg (Field.mk _) (Nat.mod_eq_of_lt small)

/-- The codes of enumerated values fit their fields. -/
theorem ctorIdx_lt {α : Type} {f : α → Nat} {n : Nat} (h : ∀ a, f a < n) {v : Option α} (x : Nat) (hx : v.map f = some x) : x < n := by
  obtain ⟨a, -, rfl⟩ := Option.map_eq_some_iff.1 hx
  exact h a

theorem Door.code_lt (d : Door) : d.ctorIdx < 5 := by cases d <;> decide
theorem Corner.code_lt (c : Corner) : c.ctorIdx < 4 := by cases c <;> decide
theorem Fob.code_lt (f : Fob) : f.ctorIdx < 4 := by cases f <;> decide
theorem Antenna.code_lt (a : Antenna) : a.ctorIdx < 7 := by cases a <;> decide
theorem Zone.code_lt (z : Zone) : z.ctorIdx < 5 := by cases z <;> decide
theorem LockState.code_lt (l : LockState) : l.ctorIdx < 4 := by cases l <;> decide
theorem ChildLock.code_lt (l : ChildLock) : l.ctorIdx < 4 := by cases l <;> decide
theorem Ajar.code_lt (a : Ajar) : a.ctorIdx < 2 := by cases a <;> decide
theorem ReleaseState.code_lt (r : ReleaseState) : r.ctorIdx < 4 := by cases r <;> decide
theorem ReleaseOutcome.code_lt (r : ReleaseOutcome) : r.ctorIdx < 8 := by cases r <;> decide
theorem LatchFault.code_lt (l : LatchFault) : l.ctorIdx < 4 := by cases l <;> decide
theorem Motion.code_lt (m : Motion) : m.ctorIdx < 4 := by cases m <;> decide
theorem Mode.code_lt (m : Mode) : m.ctorIdx < 4 := by cases m <;> decide
theorem Direction.code_lt (d : Direction) : d.ctorIdx < 4 := by cases d <;> decide
theorem StopReason.code_lt (r : StopReason) : r.ctorIdx < 16 := by cases r <;> decide
theorem LearnPhase.code_lt (l : LearnPhase) : l.ctorIdx < 4 := by cases l <;> decide

/-- The kind of a mover and the slot of its order (11.6). -/
def moverKind (m : Option Mover) : Nat :=
  match m with
  | none => 7
  | some .doorSwitch => 0
  | some .masterSwitch => 1
  | some (.order _) => 2
  | some .sequencer => 3

def moverSlot (m : Option Mover) : Nat :=
  match m with
  | some (.order k) => k.val
  | _ => 31

theorem moverFields_eq (m : Option Mover) : moverFields m = [⟨3, moverKind m⟩, ⟨5, moverSlot m⟩] := by
  cases m with
  | none => rfl
  | some x =>
    cases x with
    | order s =>
      have hs := s.isLt
      simp [moverFields, codeOrAbsent, numOrAbsent, numField, bitsFor_values, moverKind, moverSlot, Nat.mod_eq_of_lt (show s.val < 32 by omega)]
    | doorSwitch => rfl
    | masterSwitch => rfl
    | sequencer => rfl

theorem moverFields_fit (m : Option Mover) : ∀ f ∈ moverFields m, f.fits := by
  cases m with
  | none => simp [moverFields, bitsFor_values]
  | some x => cases x <;> simp [moverFields, bitsFor_values]

theorem pendingFields_eq (x : Option Pending) : pendingFields x =
    [codeOrAbsent 2 (x.map (·.cmd.dir.ctorIdx)), modeField (x.map (·.cmd.mode))] ++ moverFields (x.map (·.cmd.mover)) ++
      [positionOrAbsent (x.bind (·.cmd.target)), timeOrAbsent (x.map (·.since))] := by
  cases x <;> rfl

theorem pendingFields_fit (x : Option Pending) : ∀ f ∈ pendingFields x, f.fits := by
  have mover := moverFields_fit (x.map (·.cmd.mover))
  rw [pendingFields_eq]
  simp only [List.mem_append, or_imp, forall_and]
  exact ⟨⟨by simp [modeField, bitsFor_values], mover⟩, by simp [positionOrAbsent]⟩

/-! ### Doors -/

theorem Part.doorWords_value (p : Part) (d : Door) {k : Nat} (hk : k < 8) : ((p.doorWords d).getD k 0).toNat =
    [d.ctorIdx + 2 ^ 3 * (p.door d).lock.ctorIdx + 2 ^ 5 * ((p.doors.childLock d).map (·.ctorIdx)).getD 3 +
        2 ^ 7 * (p.door d).ajar.ctorIdx + 2 ^ 8 * ((p.latch d).map fun op => op.state.ctorIdx + 1).getD 0 +
        2 ^ 11 * ((p.door d).outcome.map (·.ctorIdx)).getD 7 + 2 ^ 14 * (p.door d).fault.ctorIdx +
        2 ^ 16 * if (p.door d).pull then 0 else 1].getD k 0 := by
  have latch : (match p.latch d with | none => 0 | some op => op.state.ctorIdx + 1) =
      ((p.latch d).map fun op => op.state.ctorIdx + 1).getD 0 := by cases p.latch d <;> rfl
  have e : p.doorWords d = packWords 8 [codeField 5 d.ctorIdx, lockField (p.door d).lock, codeOrAbsent 2 ((p.doors.childLock d).map (·.ctorIdx)),
      codeField 2 (p.door d).ajar.ctorIdx, codeField 5 (((p.latch d).map fun op => op.state.ctorIdx + 1).getD 0),
      codeOrAbsent 4 ((p.door d).outcome.map (·.ctorIdx)), codeField 3 (p.door d).fault.ctorIdx, onOff (p.door d).pull] := by
    rw [← latch]
    rfl
  have pulse : ((p.latch d).map fun op => op.state.ctorIdx + 1).getD 0 < 2 ^ 3 := by
    cases p.latch d with
    | none => decide
    | some op =>
      have := op.state.code_lt
      change op.state.ctorIdx + 1 < 8
      omega
  rw [e, packWords_toNat (by simp [lockField, bitsFor_values]) hk, lockField, codeField_eq (w := 3) (by decide) (lt_trans (Door.code_lt d) (by decide)),
    codeField_eq (w := 2) (by decide) (LockState.code_lt _), codeOrAbsent_eq (w := 2) (by decide) (ctorIdx_lt ChildLock.code_lt),
    codeField_eq (w := 1) (by decide) (Ajar.code_lt _), codeField_eq (w := 3) (by decide) pulse,
    codeOrAbsent_eq (w := 3) (by decide) (ctorIdx_lt ReleaseOutcome.code_lt),
    codeField_eq (w := 2) (by decide) (LatchFault.code_lt _), onOff_eq]
  simp [packNat]

/-! ### Windows -/

set_option Elab.async false in -- the declarations above are finished first: this bounds the memory of the one text
theorem Part.windowWords_value (p : Part) (c : Corner) {k : Nat} (hk : k < 8) : ((p.windowWords c).getD k 0).toNat =
    [(p.window c).position % 2 ^ 13 + 2 ^ 13 * ((p.window c).travel % 2 ^ 12) + 2 ^ 25 * (if (p.window c).learned then 0 else 1) +
        2 ^ 26 * (p.window c).motion.ctorIdx + 2 ^ 28 * ((p.window c).mode.map (·.ctorIdx)).getD 3,
      ((p.window c).target.map (· % 2 ^ 13)).getD (2 ^ 13 - 1) + 2 ^ 13 * moverKind (p.window c).mover + 2 ^ 16 * moverSlot (p.window c).mover +
        2 ^ 21 * (((p.window c).pending.map (·.cmd.dir.ctorIdx))).getD 3 + 2 ^ 23 * (((p.window c).pending.map (·.cmd.mode.ctorIdx))).getD 3 +
        2 ^ 25 * moverKind ((p.window c).pending.map (·.cmd.mover)),
      moverSlot ((p.window c).pending.map (·.cmd.mover)) +
        2 ^ 5 * ((((p.window c).pending.bind (·.cmd.target))).map (· % 2 ^ 13)).getD (2 ^ 13 - 1),
      (((p.window c).pending.map (·.since)).map (· % 2 ^ 24)).getD (2 ^ 25 - 1),
      (p.window c).heat % 2 ^ 11 + 2 ^ 11 * (if (p.window c).thermal then 0 else 1) + 2 ^ 12 * (if (p.window c).pinchLockout then 0 else 1) +
        2 ^ 13 * (if p.outOfService c then 0 else 1) + 2 ^ 14 * ((p.window c).lastStop.map (·.ctorIdx)).getD 15 +
        2 ^ 18 * ((p.monitor c).learn.map (·.phase.ctorIdx)).getD 3 + 2 ^ 20 * ((p.monitor c).history.length % 4) +
        2 ^ 22 * (p.monitor c).forceArmed.isSome.toNat].getD k 0 := by
  have learned : codeField 2 (!(p.window c).learned).toNat = ⟨1, if (p.window c).learned then 0 else 1⟩ := by
    cases (p.window c).learned <;> rfl
  have mover := moverFields_fit (p.window c).mover
  have pending := pendingFields_fit (p.window c).pending
  unfold Part.windowWords
  dsimp only
  rw [packWords_toNat (by
      simp only [List.mem_append, or_imp, forall_and]
      exact ⟨⟨⟨by simp [positionField, modeField, targetField, positionOrAbsent, bitsFor_values], mover⟩, pending⟩, by simp [bitsFor_values]⟩) hk,
    moverFields_eq, pendingFields_eq, moverFields_eq, modeField, modeField, learned, codeField_eq (w := 2) (by decide) (Motion.code_lt _),
    codeOrAbsent_eq (w := 2) (by decide) (ctorIdx_lt Mode.code_lt),
    codeOrAbsent_eq (w := 2) (by decide) (ctorIdx_lt fun x : Pending => Direction.code_lt x.cmd.dir),
    codeOrAbsent_eq (v := ((p.window c).pending.map (·.cmd.mode)).map (·.ctorIdx)) (w := 2) (by decide) (ctorIdx_lt Mode.code_lt), Option.map_map,
    codeOrAbsent_eq (w := 4) (by decide) (ctorIdx_lt StopReason.code_lt),
    codeOrAbsent_eq (w := 2) (by decide) (ctorIdx_lt fun x : Learn => LearnPhase.code_lt x.phase)]
  simp [packNat, positionField, targetField, positionOrAbsent, numField, numOrAbsent_eq, timeOrAbsent_eq, onOff_eq, flagField, Function.comp_def]

end Sys2Proof.Machine
end

section
/-! The records of the fobs, the searches, the operation and the arbiter's lists as the Status Page shows them (R98, R99, R110,
R114, R131, R149, 11.6). -/

namespace Sys2Proof.Machine

theorem FobState.code_lt (s : FobState) : s.ctorIdx < 4 := by cases s <;> decide
theorem LockButton.code_lt (b : LockButton) : b.ctorIdx < 4 := by cases b <;> decide
theorem Purpose.code_lt (p : Purpose) : p.ctorIdx < 4 := by cases p <;> decide
theorem ReplyState.code_lt (r : ReplyState) : r.ctorIdx < 4 := by cases r <;> decide
theorem OpKind.code_lt (k : OpKind) : k.ctorIdx < 4 := by cases k <;> decide
theorem LockAction.code_lt (a : LockAction) : a.ctorIdx < 4 := by cases a <;> decide
theorem EntryState.code_lt (e : EntryState) : e.ctorIdx < 4 := by cases e <;> decide
theorem EntryReason.code_lt (r : EntryReason) : r.ctorIdx < 32 := by cases r <;> decide
theorem OpOutcome.code_lt (o : OpOutcome) : o.ctorIdx < 8 := by cases o <;> decide
theorem Precedence.code_lt (p : Precedence) : p.ctorIdx < 4 := by cases p <;> decide
theorem GrantKind.code_lt (g : GrantKind) : g.ctorIdx < 4 := by cases g <;> decide
theorem actuatorCode_lt (a : Actuator) : actuatorCode a < 16 := by
  cases a with
  | window c =>
    have := Corner.code_lt c
    change c.ctorIdx < 16
    omega
  | latch d =>
    have := Door.code_lt d
    change 4 + d.ctorIdx < 16
    omega

/-! ### Sets -/

theorem setValue_ofFn : ∀ {n : Nat} (f : Fin n → Bool), setValue (List.ofFn f) = (List.ofFn fun k => if f k then 2 ^ k.val else 0).sum
  | 0, _ => rfl
  | n + 1, f => by
    have rest := setValue_ofFn fun k => f k.succ
    have twice : (List.ofFn fun k : Fin n => if f k.succ then 2 ^ k.succ.val else 0).sum =
        2 * (List.ofFn fun k : Fin n => if f k.succ then 2 ^ k.val else 0).sum := by
      rw [List.sum_ofFn, List.sum_ofFn, Finset.mul_sum]
      refine Finset.sum_congr rfl fun k _ => ?_
      split
      · rw [Fin.val_succ, Nat.pow_succ, Nat.mul_comm]
      · rfl
    rw [List.ofFn_succ, setValue, rest, List.ofFn_succ, List.sum_cons, twice]
    cases f 0 <;> rfl

/-- A set of slots, one bit each. -/
theorem slotSet_eq (l : List Slot) : slotSet l = ⟨16, ((List.finRange 16).map fun k : Slot => if k ∈ l then 2 ^ k.val else 0).sum⟩ := by
  have bits : setValue ((List.finRange 16).map l.contains) =
      ((List.finRange 16).map fun k : Slot => if k ∈ l then 2 ^ k.val else 0).sum := by
    rw [← List.ofFn_eq_map, setValue_ofFn, List.ofFn_eq_map]
    simp only [List.contains_iff_mem]
  rw [slotSet, setField, bits]
  rfl

theorem slotSet_fits (l : List Slot) : (slotSet l).fits := setField_fits (by simp)

/-- A set of antennas, one bit each. -/
def antennaBits (v : PerAntenna Bool) : Nat := (Antenna.all.map fun a => if v.get a then 2 ^ a.ctorIdx else 0).sum

theorem antennaSet_eq (v : PerAntenna Bool) : antennaSet v = ⟨7, antennaBits v⟩ := by
  have bit (b : Bool) (k : Nat) : (if b = true then 2 ^ k else 0) = 2 ^ k * b.toNat := by cases b <;> simp
  have sum : setValue (Antenna.all.map v.get) = antennaBits v := by
    simp only [antennaBits, bit, Antenna.all, List.map_cons, List.map_nil, setValue, List.sum_cons, List.sum_nil, Antenna.ctorIdx]
    omega
  rw [antennaSet, setField, sum]
  rfl

theorem antennaSet_fits (v : PerAntenna Bool) : (antennaSet v).fits := setField_fits (by simp [Antenna.all])

theorem antennaSetOrAbsent_eq (v : Option (PerAntenna Bool)) : antennaSetOrAbsent v = ⟨8, (v.map antennaBits).getD 255⟩ := by
  cases v with
  | none => rfl
  | some s =>
    have fits : setValue (Antenna.all.map s.get) < 2 ^ 7 := setValue_lt _
    have bits : setValue (Antenna.all.map s.get) = antennaBits s := congrArg Field.value (antennaSet_eq s)
    change (⟨8, setValue (Antenna.all.map s.get) % 256⟩ : Field) = _
    rw [Nat.mod_eq_of_lt (by omega), bits]
    rfl

/-! ### Fobs -/

/-- A tracker's state, button and start as shown. -/
def Tracker.shown : Tracker → Nat × Option LockButton × Option Nat
  | .idle => (0, none, none)
  | .tracking b t => (1, some b, some t)
  | .session b t => (2, some b, some t)
  | .spent b t => (3, some b, some t)

theorem trackerFields_eq (t : Tracker) : trackerFields t =
    [⟨2, t.shown.1⟩, ⟨2, (t.shown.2.1.map (·.ctorIdx)).getD 3⟩, timeOrAbsent t.shown.2.2] := by
  cases t with
  | idle => rfl
  | tracking b t => cases b <;> rfl
  | session b t => cases b <;> rfl
  | spent b t => cases b <;> rfl

theorem trackerFields_fit (t : Tracker) : ∀ f ∈ trackerFields t, f.fits := by
  cases t <;> simp [trackerFields, bitsFor_values]

theorem Part.fobWords_value (p : Part) (f : Fob) {k : Nat} (hk : k < 8) : ((p.fobWords f).getD k 0).toNat =
    [(p.fob f).keep.state.ctorIdx, (p.fob f).keep.id.toNat, (p.fob f).keep.counter.toNat + 2 ^ 28 * ((p.fob f).keep.run % 16),
      (if (p.fob f).keep.blocked then 0 else 1) + 2 * (if (p.fob f).keep.permitted then 0 else 1) + 2 ^ 2 * (p.fob f).zone.ctorIdx +
        2 ^ 5 * ((p.fob f).lastSeen.map (· % 2 ^ 24)).getD (2 ^ 25 - 1),
      (((p.fob f).candidate.map (·.counter.toNat))).getD (2 ^ 29 - 1),
      (((p.fob f).candidate.map (·.time)).map (· % 2 ^ 24)).getD (2 ^ 25 - 1) + 2 ^ 25 * (p.fob f).tracker.shown.1 +
        2 ^ 27 * ((p.fob f).tracker.shown.2.1.map (·.ctorIdx)).getD 3,
      ((p.fob f).tracker.shown.2.2.map (· % 2 ^ 24)).getD (2 ^ 25 - 1)].getD k 0 := by
  have tracker := trackerFields_fit (p.fob f).tracker
  have candidate : numOrAbsent 29 ((p.fob f).candidate.map (·.counter.toNat)) =
      ⟨29, (((p.fob f).candidate.map (·.counter.toNat))).getD (2 ^ 29 - 1)⟩ := by
    cases (p.fob f).candidate with
    | none => rfl
    | some x => exact congrArg (Field.mk 29) (Nat.mod_eq_of_lt (lt_trans x.counter.isLt (by decide)))
  have words (v : BitVec 32) : (⟨32, v.toNat⟩ : Field).fits := ⟨v.isLt, (by decide : 32 ≤ 32)⟩
  have counters (v : BitVec 28) : (⟨28, v.toNat⟩ : Field).fits := ⟨v.isLt, (by decide : 28 ≤ 32)⟩
  unfold Part.fobWords
  dsimp only
  rw [packWords_toNat (by
      simp only [List.mem_append, or_imp, forall_and]
      exact ⟨by simp [words, counters, bitsFor_values], tracker⟩) hk,
    trackerFields_eq, candidate, codeField_eq (w := 2) (by decide) (FobState.code_lt _),
    codeField_eq (w := 3) (by decide) (lt_trans (Zone.code_lt _) (by decide))]
  simp [packNat, numField, timeOrAbsent_eq, onOff_eq]

/-! ### Searches -/

/-- The door-opened mark as shown (R110). -/
def Request.openedShown (r : Request) : Nat := if r.purpose = .lock then (if r.opened then 0 else 1) else 3

theorem openedField_eq (r : Request) : openedField r = ⟨2, r.openedShown⟩ := by
  unfold openedField Request.openedShown
  split
  · cases r.opened <;> rfl
  · rfl

/-- A set of slots as shown. -/
def slotBits (l : List Slot) : Nat := ((List.finRange 16).map fun k : Slot => if k ∈ l then 2 ^ k.val else 0).sum

theorem requestWords_value (r : Request) {k : Nat} (hk : k < 4) : ((packWords 4 (requestFields r)).getD k 0).toNat =
    [r.purpose.ctorIdx + 2 ^ 2 * (r.door.map (·.ctorIdx)).getD 7 + 2 ^ 5 * (r.antennas.map antennaBits).getD 255 +
        2 ^ 13 * slotBits r.orders + 2 ^ 29 * r.openedShown,
      r.since % 2 ^ 24].getD k 0 := by
  unfold requestFields
  rw [packWords_toNat (by simp [antennaSetOrAbsent, openedField, slotSet_fits, bitsFor_values]) hk, antennaSetOrAbsent_eq, slotSet_eq,
    openedField_eq, codeField_eq (w := 2) (by decide) (Purpose.code_lt _),
    codeOrAbsent_eq (w := 3) (by decide) (ctorIdx_lt fun d => lt_trans (Door.code_lt d) (by decide)), timeField_eq]
  simp [packNat, slotBits]

theorem phaseFields_eq (x : SearchPhase) : phaseFields x = (match x with
    | .transmit a => [⟨1, 0⟩, ⟨3, a.ctorIdx⟩, ⟨3, 7⟩]
    | .reply i => [⟨1, 1⟩, ⟨3, 7⟩, ⟨3, i.ctorIdx⟩]) := by
  cases x with
  | transmit a => cases a <;> rfl
  | reply i => cases i <;> rfl

set_option Elab.async false in -- the declarations above are finished first: this bounds the memory of the one text
theorem holderWords_value (h : Holder) {k : Nat} (hk : k < 2) : ((holderWords h).getD k 0).toNat =
    [actuatorCode h.actuator + 2 ^ 4 * (h.units % 4) + 2 ^ 6 * h.prec.ctorIdx + 2 ^ 8 * (h.since % 2 ^ 24), h.kind.ctorIdx].getD k 0 := by
  unfold holderWords
  rw [packWords_toNat (by simp [bitsFor_values]) hk, codeField_eq (w := 4) (by decide) (actuatorCode_lt _),
    codeField_eq (w := 2) (by decide) (Precedence.code_lt _), codeField_eq (w := 2) (by decide) (GrantKind.code_lt _), timeField_eq]
  simp [packNat, numField]

theorem waiterWords_value (w : Waiter) {k : Nat} (hk : k < 2) : ((waiterWords w).getD k 0).toNat =
    [actuatorCode w.actuator + 2 ^ 4 * (w.units % 4) + (if w.prec = .release then 0 else 2 ^ 6) + 2 ^ 7 * (w.since % 2 ^ 24),
      w.limit % 2 ^ 24].getD k 0 := by
  have prec : codeField 2 (if w.prec = .release then 0 else 1) = ⟨1, if w.prec = .release then 0 else 1⟩ := by split <;> rfl
  have place : 2 ^ 6 * (if w.prec = .release then 0 else 1) = if w.prec = .release then 0 else 2 ^ 6 := by split <;> rfl
  unfold waiterWords
  rw [packWords_toNat (by simp [bitsFor_values]) hk, codeField_eq (w := 4) (by decide) (actuatorCode_lt _), prec, timeField_eq, timeField_eq,
    ← place]
  simp [packNat, numField]

end Sys2Proof.Machine
end

section
/-! The search in flight, the operation and the inputs as the Status Page shows them (R114, R149, R173, R178, 11.6). -/

namespace Sys2Proof.Machine

/-! ### The search in flight -/

theorem SearchPhase.fits (x : SearchPhase) : ∀ f ∈ phaseFields x, f.fits := by
  cases x <;> simp [phaseFields, bitsFor_values]

/-- A search's phase as shown, from its place on. -/
def SearchPhase.shown : SearchPhase → Nat
  | .transmit a => 2 ^ 13 * a.ctorIdx + 2 ^ 16 * 7
  | .reply i => 2 ^ 12 + 2 ^ 13 * 7 + 2 ^ 16 * i.ctorIdx

theorem zoneField_eq (z : Option Zone) : zoneField z = ⟨3, (z.map (·.ctorIdx)).getD 7⟩ :=
  codeOrAbsent_eq (by decide) (ctorIdx_lt fun x => lt_trans (Zone.code_lt x) (by decide))

theorem Part.flightWords_value {p : Part} {f : Flight} (h : p.locator.flight = some f) {k : Nat} (hk : k < 8) :
    (p.flightWords.getD k 0).toNat =
      [f.request.purpose.ctorIdx + 2 ^ 2 * (f.request.door.map (·.ctorIdx)).getD 7 + 2 ^ 5 * antennaBits f.used + f.phase.shown,
        f.since % 2 ^ 24,
        slotBits f.request.orders + 2 ^ 16 * f.request.openedShown + 2 ^ 18 * (f.results.get .f0).reply.ctorIdx +
          2 ^ 20 * ((f.results.get .f0).zone.map (·.ctorIdx)).getD 7 + 2 ^ 23 * (f.results.get .f1).reply.ctorIdx +
          2 ^ 25 * ((f.results.get .f1).zone.map (·.ctorIdx)).getD 7 + 2 ^ 28 * (f.results.get .f2).reply.ctorIdx,
        ((f.results.get .f2).zone.map (·.ctorIdx)).getD 7 + 2 ^ 3 * (f.results.get .f3).reply.ctorIdx +
          2 ^ 5 * ((f.results.get .f3).zone.map (·.ctorIdx)).getD 7].getD k 0 := by
  have phase := SearchPhase.fits f.phase
  have reply (r : ReplyState) : codeField 3 r.ctorIdx = ⟨2, r.ctorIdx⟩ := codeField_eq (by decide) (ReplyState.code_lt r)
  unfold Part.flightWords
  rw [h]
  dsimp only
  rw [packWords_toNat (by
      simp only [List.mem_append, or_imp, forall_and]
      exact ⟨⟨⟨⟨by simp [bitsFor_values], by simp [antennaSet_fits]⟩, phase⟩, by simp [slotSet_fits, openedField, bitsFor_values]⟩,
        by simp [Fob.all, zoneField, bitsFor_values]⟩) hk,
    antennaSet_eq, slotSet_eq, openedField_eq, codeField_eq (w := 2) (by decide) (Purpose.code_lt _),
    codeOrAbsent_eq (w := 3) (by decide) (ctorIdx_lt fun d => lt_trans (Door.code_lt d) (by decide)), timeField_eq, phaseFields_eq]
  cases f.phase with
  | transmit a => simp [packNat, Fob.all, reply, zoneField_eq, SearchPhase.shown, slotBits, Nat.add_assoc]
  | reply i => simp [packNat, Fob.all, reply, zoneField_eq, SearchPhase.shown, slotBits, Nat.add_assoc]

/-! ### The operation -/

/-- An operation's origin as shown. -/
def Origin.shown : Origin → Nat
  | .order k => 2 ^ 5 * k.val
  | .hold f => 2 ^ 4 + 2 ^ 5 * f.ctorIdx

theorem originFields_eq (o : Origin) : ∃ a b, originFields o = [⟨1, a⟩, ⟨4, b⟩] ∧ 2 ^ 4 * a + 2 ^ 5 * b = o.shown := by
  cases o with
  | order k => exact ⟨0, k.val, by simp [originFields, codeField, numField, bitsFor_values, Nat.mod_eq_of_lt k.isLt], by simp [Origin.shown]⟩
  | hold f => exact ⟨1, f.ctorIdx, by cases f <;> rfl, by simp [Origin.shown]⟩

theorem originFields_fit (o : Origin) : ∀ f ∈ originFields o, f.fits := by
  cases o <;> simp [originFields, bitsFor_values]

/-- An entry's target and reason as shown. -/
def Entry.aimShown (e : Entry) : Nat := (e.target.map (· % 2 ^ 13)).getD (2 ^ 13 - 1) + 2 ^ 13 * (e.reason.map (·.ctorIdx)).getD 31

theorem Part.operationWords_value {p : Part} {o : Operation} (h : p.operation = some o) {k : Nat} (hk : k < 16) :
    (p.operationWords.getD k 0).toNat =
      [(if o.ended = none then 1 else 2) + 2 ^ 2 * o.kind.ctorIdx + o.origin.shown,
        o.since % 2 ^ 24 + 2 ^ 24 * o.lock.isNone.toNat + 2 ^ 25 * (o.lock.map (·.ctorIdx)).getD 3 +
          2 ^ 27 * (o.entries.get .fl).state.ctorIdx,
        (o.entries.get .fl).aimShown + 2 ^ 18 * (o.entries.get .fr).state.ctorIdx,
        (o.entries.get .fr).aimShown + 2 ^ 18 * (o.entries.get .rl).state.ctorIdx,
        (o.entries.get .rl).aimShown + 2 ^ 18 * (o.entries.get .rr).state.ctorIdx,
        (o.entries.get .rr).aimShown + 2 ^ 18 * (o.ended.map (·.outcome.ctorIdx)).getD 7,
        ((o.ended.map (·.time)).map (· % 2 ^ 24)).getD (2 ^ 25 - 1)].getD k 0 := by
  have origin := originFields_fit o.origin
  obtain ⟨a, b, originEq, place⟩ := originFields_eq o.origin
  have state : codeField 3 (if o.running then 1 else 2) = ⟨2, if o.ended = none then 1 else 2⟩ := by
    rw [Operation.running]
    cases o.ended <;> rfl
  have lock : codeField 2 o.lock.isNone.toNat = ⟨1, o.lock.isNone.toNat⟩ := by cases o.lock <;> rfl
  have entry (e : EntryState) : codeField 4 e.ctorIdx = ⟨2, e.ctorIdx⟩ := codeField_eq (by decide) (EntryState.code_lt e)
  have reason (r : Option EntryReason) : reasonField r = ⟨5, (r.map (·.ctorIdx)).getD 31⟩ :=
    codeOrAbsent_eq (by decide) (ctorIdx_lt EntryReason.code_lt)
  have seventeen : bitsFor 18 = 5 := by decide
  unfold Part.operationWords
  rw [h]
  dsimp only
  rw [packWords_toNat (by
      simp only [List.mem_append, or_imp, forall_and]
      exact ⟨⟨⟨⟨⟨by simp [bitsFor_values], origin⟩, by simp⟩, by simp [lockResultFields, bitsFor_values]⟩,
        by simp [Corner.all, targetField, positionOrAbsent, reasonField, seventeen, bitsFor_values]⟩, by simp [bitsFor_values]⟩) hk,
    originEq, state, lockResultFields, lock, codeField_eq (w := 2) (by decide) (OpKind.code_lt _),
    codeOrAbsent_eq (w := 2) (by decide) (ctorIdx_lt LockAction.code_lt),
    codeOrAbsent_eq (w := 3) (by decide) (ctorIdx_lt fun x : Ended => OpOutcome.code_lt x.outcome), timeField_eq, timeOrAbsent_eq, ← place]
  simp [packNat, Corner.all, entry, reason, targetField, positionOrAbsent, numOrAbsent_eq, Entry.aimShown, Nat.add_assoc]

end Sys2Proof.Machine
end

section
/-! The levels and flags of the inputs as the Status Page shows them (R173, R178, R179, 11.6). -/

namespace Sys2Proof.Machine

/-! ### The place of a field -/

/-- The word and the bit of each field, by the widths (11.6). -/
def fieldPlaces : List Nat → Nat → List (Nat × Nat)
  | [], _ => []
  | w :: ws, pos =>
    if pos + w ≤ 32 then (0, pos) :: fieldPlaces ws (pos + w) else (1, 0) :: (fieldPlaces ws w).map fun x => (x.1 + 1, x.2)

/-- The word and the bit after the last field. -/
def fieldEnd : List Nat → Nat → Nat × Nat
  | [], pos => (0, pos)
  | w :: ws, pos => if pos + w ≤ 32 then fieldEnd ws (pos + w) else ((fieldEnd ws w).1 + 1, (fieldEnd ws w).2)

theorem place_lt {cur v pos w : Nat} (hc : cur < 2 ^ pos) (hv : v < 2 ^ w) : cur + 2 ^ pos * v < 2 ^ (pos + w) := by
  rw [Nat.pow_add]
  calc cur + 2 ^ pos * v < 2 ^ pos * (v + 1) := by rw [Nat.mul_succ]; omega
    _ ≤ 2 ^ pos * 2 ^ w := Nat.mul_le_mul_left _ hv

/-- What is packed stays in the low bits of its word. -/
theorem packNat_low : ∀ (fs : List Field) {pos cur : Nat}, (∀ f ∈ fs, f.fits) → cur < 2 ^ pos →
    (packNat fs pos cur).getD 0 0 % 2 ^ pos = cur
  | [], _, _, _, hc => Nat.mod_eq_of_lt hc
  | f :: fs, pos, cur, hf, hc => by
    have fit := hf f List.mem_cons_self
    rw [packNat]
    split
    · have rest := packNat_low fs (fun g hg => hf g (List.mem_cons_of_mem f hg)) (place_lt hc fit.1)
      rw [← Nat.mod_mod_of_dvd _ (Nat.pow_dvd_pow 2 (Nat.le_add_right pos f.width)), rest, Nat.add_mul_mod_self_left]
      exact Nat.mod_eq_of_lt hc
    · exact Nat.mod_eq_of_lt hc

/-- Each field stands at its place. -/
theorem packNat_field : ∀ (fs : List Field) {pos cur : Nat}, (∀ f ∈ fs, f.fits) → cur < 2 ^ pos →
    ∀ {k : Nat} {f : Field} {w b : Nat}, fs[k]? = some f → (fieldPlaces (fs.map (·.width)) pos)[k]? = some (w, b) →
      (packNat fs pos cur).getD w 0 / 2 ^ b % 2 ^ f.width = f.value
  | [], _, _, _, _, _, _, _, _, hk, _ => by simp at hk
  | g :: fs, pos, cur, hf, hc, k, f, w, b, hk, place => by
    have fit := hf g List.mem_cons_self
    have fits : ∀ f ∈ fs, f.fits := fun x hx => hf x (List.mem_cons_of_mem g hx)
    rw [List.map_cons, fieldPlaces] at place
    rw [packNat]
    by_cases h : pos + g.width ≤ 32
    · rw [if_pos h] at place ⊢
      cases k with
      | zero =>
        obtain rfl := Option.some.inj hk
        obtain ⟨rfl, rfl⟩ := Prod.mk.inj (Option.some.inj place)
        have low := packNat_low fs fits (place_lt hc fit.1)
        rw [← Nat.mod_mul_right_div_self, ← Nat.pow_add, low, Nat.add_mul_div_left _ _ (Nat.two_pow_pos pos), Nat.div_eq_of_lt hc,
          Nat.zero_add]
      | succ k => exact packNat_field fs fits (place_lt hc fit.1) hk place
    · rw [if_neg h] at place ⊢
      cases k with
      | zero =>
        obtain rfl := Option.some.inj hk
        obtain ⟨rfl, rfl⟩ := Prod.mk.inj (Option.some.inj place)
        rw [Nat.pow_zero, Nat.div_one]
        exact packNat_low fs fits fit.1
      | succ k =>
        rw [List.getElem?_cons_succ, List.getElem?_map] at place
        obtain ⟨⟨w', b'⟩, found, e⟩ := Option.map_eq_some_iff.1 place
        obtain ⟨rfl, rfl⟩ := Prod.mk.inj e
        exact packNat_field fs fits fit.1 hk found

/-- Nothing stands beyond the last field. -/
theorem packNat_end : ∀ (fs : List Field) {pos cur : Nat}, (∀ f ∈ fs, f.fits) → cur < 2 ^ pos →
    (packNat fs pos cur).getD (fieldEnd (fs.map (·.width)) pos).1 0 < 2 ^ (fieldEnd (fs.map (·.width)) pos).2
  | [], _, _, _, hc => hc
  | f :: fs, pos, cur, hf, hc => by
    have fit := hf f List.mem_cons_self
    have fits : ∀ f ∈ fs, f.fits := fun x hx => hf x (List.mem_cons_of_mem _ hx)
    rw [List.map_cons, fieldEnd, packNat]
    split
    · exact packNat_end fs fits (place_lt hc fit.1)
    · exact packNat_end fs fits fit.1

/-! ### The inputs -/

theorem Level.code_lt (l : Level) : l.ctorIdx < 8 := by cases l <;> decide

/-- The widths of the fields of the inputs' record, the same for both driver sides. -/
def inputWidths : List Nat := List.replicate 20 1 ++ List.replicate 7 3 ++ [2] ++ List.replicate 41 1

theorem inputList_widths (d : Front) : (inputList d).map (fun i => bitsFor i.levels) = inputWidths.take 32 := by cases d <;> decide

/-- Where the levels, the stuck flags and the wake enables stand. -/
theorem inputPlaces :
    (∀ k < 20, (fieldPlaces inputWidths 0)[k]? = some (0, k) ∧ inputWidths[k]? = some 1) ∧
    (∀ k < 24, 20 ≤ k → (fieldPlaces inputWidths 0)[k]? = some (0, 20 + 3 * (k - 20)) ∧ inputWidths[k]? = some 3) ∧
    (∀ k < 27, 24 ≤ k → (fieldPlaces inputWidths 0)[k]? = some (1, 3 * (k - 24)) ∧ inputWidths[k]? = some 3) ∧
    ((fieldPlaces inputWidths 0)[27]? = some (1, 9) ∧ inputWidths[27]? = some 2) ∧
    (∀ k < 32, 28 ≤ k → (fieldPlaces inputWidths 0)[k]? = some (1, k - 17) ∧ inputWidths[k]? = some 1) ∧
    (∀ k < 17, (fieldPlaces inputWidths 0)[32 + k]? = some (1, 15 + k)) ∧
    (∀ k < 32, 17 ≤ k → (fieldPlaces inputWidths 0)[32 + k]? = some (2, k - 17)) ∧
    (∀ j < 5, (fieldPlaces inputWidths 0)[64 + j]? = some (2, 15 + j)) ∧ fieldEnd inputWidths 0 = (2, 20) :=
  ⟨by decide, by decide, by decide, by decide, by decide, by decide, by decide, by decide, by decide⟩

/-- The fields of the inputs' record. -/
def Part.inputFields (p : Part) : List Field :=
  ((inputList p.driverDoor).map fun i => codeField i.levels (p.input i).level.ctorIdx) ++
    ((inputList p.driverDoor).map fun i => flagField (p.muted i)) ++
    [p.cfg.wakeTouch, p.cfg.wakePulls, p.cfg.wakeSwitches, p.cfg.wakeRocker, p.cfg.wakeTailgate].map flagField

theorem inputList_length (d : Front) : (inputList d).length = 32 := by cases d <;> decide

section
variable (p : Part)

theorem Part.inputFields_fit : ∀ f ∈ p.inputFields, f.fits := by
  have flags (l : List Bool) : ∀ f ∈ l.map flagField, f.fits := fun f hf => by
    obtain ⟨b, -, rfl⟩ := List.mem_map.1 hf
    exact flagField_fits b
  have levels (i : Input) : bitsFor i.levels ≤ 32 := by cases i <;> simp [Input.levels, bitsFor_values]
  simp only [Part.inputFields, List.mem_append, or_imp, forall_and]
  refine ⟨⟨fun f hf => ?_, fun f hf => ?_⟩, flags _⟩
  · obtain ⟨i, -, rfl⟩ := List.mem_map.1 hf
    exact codeField_fits (levels i) _
  · obtain ⟨i, -, rfl⟩ := List.mem_map.1 hf
    exact flagField_fits _

theorem Part.inputFields_widths : p.inputFields.map (·.width) = inputWidths := by
  have levels : (inputList p.driverDoor).map (fun i => (codeField i.levels (p.input i).level.ctorIdx).width) = inputWidths.take 32 :=
    inputList_widths p.driverDoor
  have flags : (inputList p.driverDoor).map (fun i => (flagField (p.muted i)).width) = List.replicate 32 1 := by
    rw [← inputList_length p.driverDoor]
    exact List.map_const' ..
  simp only [Part.inputFields, List.map_append, List.map_map, Function.comp_def, levels, flags]
  rfl

/-- A field of the inputs' record, read at its place. -/
theorem Part.hostRead_inputField {k : Nat} {f : Field} {w b : Nat} (hk : p.inputFields[k]? = some f) (hw : w < 16)
    (place : (fieldPlaces inputWidths 0)[k]? = some (w, b)) : bitsAt (p.hostRead (200 + w)) b f.width = f.value := by
  have e : p.hostRead (200 + w) = (packWords 16 p.inputFields).getD w 0 := p.hostRead_inputs hw
  rw [e, bitsAt, packWords_toNat p.inputFields_fit hw, Nat.shiftRight_eq_div_pow]
  exact packNat_field _ p.inputFields_fit Nat.one_pos hk (by rw [p.inputFields_widths]; exact place)

theorem Part.hostRead_inputEnd : (p.hostRead 202).toNat < 2 ^ 20 := by
  have e : p.hostRead 202 = (packWords 16 p.inputFields).getD 2 0 := p.hostRead_inputs (k := 2) (by decide)
  have below := packNat_end _ (pos := 0) (cur := 0) p.inputFields_fit Nat.one_pos
  obtain ⟨-, -, -, -, -, -, -, -, last⟩ := inputPlaces
  rw [p.inputFields_widths, last] at below
  rw [e, packWords_toNat p.inputFields_fit (by decide)]
  exact below

theorem Part.inputFields_level {k : Nat} {i : Input} (h : (inputList p.driverDoor)[k]? = some i) : k < 32 ∧
    p.inputFields[k]? = some (codeField i.levels (p.input i).level.ctorIdx) ∧
      p.inputFields[32 + k]? = some (flagField (p.muted i)) ∧ inputWidths[k]? = some (bitsFor i.levels) := by
  have small : k < 32 := by
    rw [← inputList_length p.driverDoor]
    exact (List.getElem?_eq_some_iff.1 h).1
  have levels : ((inputList p.driverDoor).map fun i => codeField i.levels (p.input i).level.ctorIdx).length = 32 := by
    rw [List.length_map, inputList_length]
  refine ⟨small, ?_, ?_, ?_⟩
  · rw [Part.inputFields, List.append_assoc, List.getElem?_append_left (by omega), List.getElem?_map, h]
    rfl
  · rw [Part.inputFields, List.append_assoc, List.getElem?_append_right (by omega), levels, Nat.add_sub_cancel_left,
      List.getElem?_append_left (by rw [List.length_map, inputList_length]; exact small), List.getElem?_map, h]
    rfl
  · rw [← List.getElem?_take_of_lt small, ← inputList_widths p.driverDoor, List.getElem?_map, h]
    rfl

set_option Elab.async false in -- the declarations above are finished first: this bounds the memory of the one text
/-- An input's level at its place. -/
theorem Part.hostRead_level {k : Nat} {i : Input} (h : (inputList p.driverDoor)[k]? = some i) {w b n : Nat} (hw : w < 16)
    (place : (fieldPlaces inputWidths 0)[k]? = some (w, b) ∧ inputWidths[k]? = some n) :
    bitsAt (p.hostRead (200 + w)) b n = (p.input i).level.ctorIdx % 2 ^ n := by
  obtain ⟨-, field, -, width⟩ := p.inputFields_level h
  obtain rfl := Option.some.inj (place.2.symm.trans width)
  exact p.hostRead_inputField field hw place.1

/-- An input's stuck flag at its place. -/
theorem Part.hostRead_muted {k : Nat} {i : Input} (h : (inputList p.driverDoor)[k]? = some i) {w b : Nat} (hw : w < 16)
    (place : (fieldPlaces inputWidths 0)[32 + k]? = some (w, b)) : (p.hostRead (200 + w)).getLsbD b = p.muted i := by
  obtain ⟨-, -, field, -⟩ := p.inputFields_level h
  have bit := p.hostRead_inputField field hw place
  rw [BitVec.getLsbD, Nat.testBit_eq_decide_div_mod_eq]
  rw [bitsAt, Nat.shiftRight_eq_div_pow] at bit
  change (p.hostRead (200 + w)).toNat / 2 ^ b % 2 = (p.muted i).toNat at bit
  rw [bit]
  cases p.muted i <;> rfl

/-- The wake enables (10.5). -/
theorem Part.hostRead_wakes : bitsAt (p.hostRead 202) 15 17 = p.cfg.wakeTouch.toNat + 2 * p.cfg.wakePulls.toNat +
    4 * p.cfg.wakeSwitches.toNat + 8 * p.cfg.wakeRocker.toNat + 16 * p.cfg.wakeTailgate.toNat := by
  obtain ⟨-, -, -, -, -, -, -, places, -⟩ := inputPlaces
  have below := p.hostRead_inputEnd
  have field (j : Nat) (b : Bool) (hj : j < 5)
      (h : [p.cfg.wakeTouch, p.cfg.wakePulls, p.cfg.wakeSwitches, p.cfg.wakeRocker, p.cfg.wakeTailgate][j]? = some b) :
      (p.hostRead 202).toNat / 2 ^ (15 + j) % 2 = b.toNat := by
    have entry : p.inputFields[64 + j]? = some (flagField b) := by
      rw [Part.inputFields, List.getElem?_append_right (by simp [inputList_length]),
        show 64 + j - (((inputList p.driverDoor).map fun i => codeField i.levels (p.input i).level.ctorIdx) ++
          ((inputList p.driverDoor).map fun i => flagField (p.muted i))).length = j by simp [inputList_length], List.getElem?_map, h]
      rfl
    have bit := p.hostRead_inputField entry (by decide) (places j hj)
    rwa [bitsAt, Nat.shiftRight_eq_div_pow] at bit
  have a := field 0 _ (by decide) rfl
  have b := field 1 _ (by decide) rfl
  have c := field 2 _ (by decide) rfl
  have d := field 3 _ (by decide) rfl
  have e := field 4 _ (by decide) rfl
  rw [bitsAt, Nat.shiftRight_eq_div_pow]
  omega

end

end Sys2Proof.Machine
end

section
/-! The Status Page's records, each word at its place (11.6). -/

namespace Sys2Proof.Machine

section
variable {p : Part} {base n m : Nat} {l : List Nat} (value : ∀ k < n, (p.hostRead (base + k)).toNat = l.getD k 0)
include value

/-- The words of a record beyond its fields are zero. -/
theorem Part.page_zeros (len : l.length ≤ m) (i : Nat) (low : base + m ≤ i) (high : i < base + n) : p.hostRead i = 0 := by
  have at_ := value (i - base) (by omega)
  rw [show base + (i - base) = i by omega, List.getD_eq_getElem?_getD, List.getElem?_eq_none (by omega)] at at_
  exact BitVec.eq_of_toNat_eq at_

end

/-- A place of a list that no record fills reads zero. -/
theorem Part.page_empty {p : Part} {base n : Nat} (value : ∀ k < n, p.hostRead (base + k) = 0) (i : Nat) (low : base ≤ i)
    (high : i < base + n) : p.hostRead i = 0 := by
  rw [show i = base + (i - base) by omega]
  exact value (i - base) (by omega)

theorem getD_zeros (n k : Nat) : (List.replicate n (0 : Word)).getD k 0 = 0 := by
  rw [List.getD_eq_getElem?_getD, List.getElem?_replicate]
  split <;> rfl

theorem packNat_length : ∀ (fs : List Field) (pos cur : Nat), (packNat fs pos cur).length = (fieldEnd (fs.map (·.width)) pos).1 + 1
  | [], _, _ => rfl
  | f :: fs, pos, cur => by
    rw [List.map_cons, fieldEnd, packNat]
    split
    · exact packNat_length fs _ _
    · rw [List.length_cons, packNat_length fs]

/-- The words after the inputs' record are zero. -/
theorem Part.hostRead_afterInputs (p : Part) (i : Nat) (low : 203 ≤ i) (high : i < 216) : p.hostRead i = 0 := by
  obtain ⟨-, -, -, -, -, -, -, -, last⟩ := inputPlaces
  have length := packNat_length p.inputFields 0 0
  rw [p.inputFields_widths, last] at length
  obtain ⟨j, rfl⟩ : ∃ j, i = 200 + j := ⟨i - 200, by omega⟩
  have beyond : (packNat p.inputFields 0 0).getD j 0 = 0 := by
    rw [List.getD_eq_getElem?_getD, List.getElem?_eq_none (by omega)]
    rfl
  refine BitVec.eq_of_toNat_eq ((congrArg BitVec.toNat (p.hostRead_inputs (k := j) (by omega))).trans ?_)
  exact (packWords_toNat (n := 16) p.inputFields_fit (by omega)).trans beyond

set_option Elab.async false in -- the declarations above are finished first: this bounds the memory of the one text
/-- Settles O8: each record by its `…Words_value`, read through `hostRead_…`. -/
theorem statusPageRecordsShowTheirOwners : Obligations.StatusPageRecordsShowTheirOwners := by
  unfold Obligations.StatusPageRecordsShowTheirOwners
  intro s p word zeros time timeOr place off kind slot slots antennas opened actuator
  have kindEq : kind = moverKind := by
    funext m
    rcases m with _ | (_ | _ | _ | _) <;> rfl
  have slotEq : slot = moverSlot := by
    funext m
    rcases m with _ | (_ | _ | _ | _) <;> rfl
  have openedEq (r : Request) : opened r = r.openedShown := rfl
  have actuatorEq (a : Actuator) : actuator a = actuatorCode a := by cases a <;> rfl
  refine ⟨fun d => ?_, fun c => ?_, fun f => ?_, fun k hk => ⟨fun h => ?_, fun r h => ?_⟩, fun h => ?_, fun f h => ?_, fun h => ?_,
    fun o h => ?_, fun k i h => ?_, p.hostRead_wakes, ?_, fun k hk => ⟨fun h => ?_, fun h e => ?_, fun h => ?_, fun w e => ?_⟩, ?_, ?_⟩
  · have value := fun k (hk : k < 8) => (congrArg BitVec.toNat (p.hostRead_door d hk)).trans (p.doorWords_value d hk)
    exact ⟨value 0 (by decide), Part.page_zeros value (m := 1) (Nat.le_refl 1)⟩
  · have value := fun k (hk : k < 8) => (congrArg BitVec.toNat (p.hostRead_window c hk)).trans (p.windowWords_value c hk)
    intro at_ w x
    have dir : x.map (·.dir.ctorIdx) = w.pending.map (·.cmd.dir.ctorIdx) := Option.map_map ..
    have mode : x.map (·.mode.ctorIdx) = w.pending.map (·.cmd.mode.ctorIdx) := Option.map_map ..
    have mover : x.map (·.mover) = w.pending.map (·.cmd.mover) := Option.map_map ..
    have target : x.bind (·.target) = w.pending.bind (·.cmd.target) := Option.bind_map ..
    rw [kindEq, slotEq, dir, mode, mover, target]
    exact ⟨value 0 (by decide), value 1 (by decide), value 2 (by decide), value 3 (by decide), value 4 (by decide),
      Part.page_zeros value (m := 5) (Nat.le_refl 5)⟩
  · have value := fun k (hk : k < 8) => (congrArg BitVec.toNat (p.hostRead_fob f hk)).trans (p.fobWords_value f hk)
    intro at_ r tracker
    have shown : tracker = r.tracker.shown := by
      show (match r.tracker with
        | .idle => (0, none, none)
        | .tracking b t => (1, some b, some t)
        | .session b t => (2, some b, some t)
        | .spent b t => (3, some b, some t)) = _
      cases r.tracker <;> rfl
    rw [shown]
    exact ⟨value 0 (by decide), BitVec.eq_of_toNat_eq (value 1 (by decide)), value 2 (by decide), value 3 (by decide), value 4 (by decide),
      value 5 (by decide), value 6 (by decide), BitVec.eq_of_toNat_eq (value 7 (by decide))⟩
  · exact fun i low high => Part.page_empty (n := 4) (fun j hj => (p.hostRead_search hk hj).trans (by rw [h]; rfl)) i low (by omega)
  · have value := fun j (hj : j < 4) => (congrArg BitVec.toNat ((p.hostRead_search hk hj).trans (by rw [h]; rfl))).trans (requestWords_value r hj)
    exact ⟨value 0 (by decide), by rw [show 121 + 4 * k = 120 + 4 * k + 1 by omega]; exact value 1 (by decide),
      fun i low high => Part.page_zeros value (m := 2) (Nat.le_refl 2) i (by omega) (by omega)⟩
  · refine Part.page_empty (n := 8) fun k hk => (p.hostRead_flight hk).trans ?_
    rw [Part.flightWords, h]
    exact getD_zeros ..
  · have value := fun k (hk : k < 8) => (congrArg BitVec.toNat (p.hostRead_flight hk)).trans (Part.flightWords_value h hk)
    refine ⟨?_, value 1 (by decide), value 2 (by decide), value 3 (by decide), Part.page_zeros value (m := 4) (Nat.le_refl 4)⟩
    have first := value 0 (by decide)
    cases e : f.phase with
    | transmit a =>
      rw [e] at first
      exact first
    | reply i =>
      rw [e] at first
      exact first
  · refine Part.page_empty (n := 16) fun k hk => (p.hostRead_operation hk).trans ?_
    rw [Part.operationWords, h]
    exact getD_zeros ..
  · have value := fun k (hk : k < 16) => (congrArg BitVec.toNat (p.hostRead_operation hk)).trans (Part.operationWords_value h hk)
    refine ⟨?_, value 1 (by decide), value 2 (by decide), value 3 (by decide), value 4 (by decide), value 5 (by decide),
      value 6 (by decide), Part.page_zeros value (m := 7) (Nat.le_refl 7)⟩
    have first := value 0 (by decide)
    cases e : o.origin with
    | order k =>
      rw [e] at first
      exact first
    | hold f =>
      rw [e] at first
      exact first
  · obtain ⟨small, -⟩ := p.inputFields_level h
    obtain ⟨single, switches, more, rocker, last, early, late, -⟩ := inputPlaces
    have bound := Level.code_lt (p.input i).level
    refine ⟨fun hk => p.hostRead_level h (w := 0) (by decide) (single k hk), fun low hk => ?_, fun low hk => ?_, fun hk => ?_, fun low => ?_,
      fun hk => p.hostRead_muted h (w := 1) (by decide) (early k hk), fun low => p.hostRead_muted h (w := 2) (by decide) (late k small low)⟩
    · exact (p.hostRead_level h (w := 0) (by decide) (switches k hk low)).trans (Nat.mod_eq_of_lt bound)
    · exact (p.hostRead_level h (w := 1) (by decide) (more k hk low)).trans (Nat.mod_eq_of_lt bound)
    · subst hk
      exact p.hostRead_level h (w := 1) (by decide) rocker
    · exact p.hostRead_level h (w := 1) (by decide) (last k small low)
  · exact p.hostRead_afterInputs
  · exact fun i low high => Part.page_empty (n := 2) (fun j hj => (p.hostRead_holder hk hj).trans (by rw [h]; rfl)) i low (by omega)
  · have value := fun j (hj : j < 2) => (congrArg BitVec.toNat ((p.hostRead_holder hk hj).trans (by rw [e]; rfl))).trans (holderWords_value h hj)
    rw [actuatorEq]
    exact ⟨value 0 (by decide), by rw [show 217 + 2 * k = 216 + 2 * k + 1 by omega]; exact value 1 (by decide)⟩
  · exact fun i low high => Part.page_empty (n := 2) (fun j hj => (p.hostRead_waiter hk hj).trans (by rw [h]; rfl)) i low (by omega)
  · have value := fun j (hj : j < 2) => (congrArg BitVec.toNat ((p.hostRead_waiter hk hj).trans (by rw [e]; rfl))).trans (waiterWords_value w hj)
    rw [actuatorEq]
    exact ⟨value 0 (by decide), by rw [show 235 + 2 * k = 234 + 2 * k + 1 by omega]; exact value 1 (by decide)⟩
  · exact fun i low high => p.hostRead_gaps (.inl ⟨low, high⟩)
  · exact fun i low high => p.hostRead_gaps (.inr ⟨low, high⟩)

end Sys2Proof.Machine
end

section
/-! What a withdrawal by the arbiter ends (R63, R43, R107). -/

namespace Sys2Proof.Machine

/-! ### Orders that end with one outcome -/

/-- Only orders that end with the outcome `o` change their heads. -/
def Part.EndsOnly (o : OrderOutcome) (p q : Part) : Prop :=
  ∀ k, q.head k = p.head k ∨ q.head k = { p.head k with state := .done, code := BitVec.ofNat 8 o.code }

theorem Part.EndsOnly.refl (o : OrderOutcome) (p : Part) : Part.EndsOnly o p p := fun _ => .inl rfl

theorem Part.EndsOnly.trans {o : OrderOutcome} {p q r : Part} (h : Part.EndsOnly o p q) (k : Part.EndsOnly o q r) : Part.EndsOnly o p r :=
  fun x => by
    rcases k x with same | ends
    · rw [same]
      exact h x
    · rw [ends]
      rcases h x with same' | ends'
      · rw [same']
        exact .inr rfl
      · rw [ends']
        exact .inr rfl

/-- An order ended once stays ended so. -/
theorem Part.EndsOnly.stays {o : OrderOutcome} {p q r : Part} {k : Slot} (h : Part.EndsOnly o q r)
    (ended : q.head k = { p.head k with state := .done, code := BitVec.ofNat 8 o.code }) :
    r.head k = { p.head k with state := .done, code := BitVec.ofNat 8 o.code } := by
  rcases h k with same | ends
  · rw [same, ended]
  · rw [ends, ended]

theorem Part.Within.endsOnly {K : List Area} {p q : Part} (w : Part.Within K p q) (o : OrderOutcome) (h : .heads ∉ K := by decide) :
    Part.EndsOnly o p q := fun k => .inl (w.head k h)

/-! ### The mover of a window that stops, the Sequencer at rest -/

theorem Part.reportEnd_rests {p : Part} (idle : p.sequencerRuns = false) (c : Corner) (r : EntryReason) (judge : Bool) :
    p.reportEnd c r judge = p := by
  have none : p.liveEntry c = none := by
    unfold Part.liveEntry
    cases h : p.operation with
    | none => rfl
    | some o =>
      have still : o.running = false := by rw [Part.sequencerRuns, h] at idle; exact idle
      simp [still]
  unfold Part.reportEnd
  rw [none]

/-- An order that moves a window is told its end, whether it learns or not (R64, R93). -/
theorem Part.tellMover_order (p : Part) (c : Corner) (k : Slot) (o : OrderOutcome) (e : EntryReason) (stop : Option StopReason)
    (judge : Bool) : let q := p.tellMover c (some (.order k)) o e stop judge
    (∀ x, q.head x = if x = k then { p.head k with state := .done, code := BitVec.ofNat 8 o.code } else p.head x) ∧
      q.operation = p.operation := by
  unfold Part.tellMover
  dsimp only
  split
  · rename_i l own
    obtain ⟨l', learns, owns⟩ := Option.bind_eq_some_iff.1 own
    obtain rfl : k = l'.slot := by
      split at owns
      · rename_i m
        exact Mover.order.inj m
      · cases owns
    obtain ⟨-, -, heads, -⟩ := Part.endLearn_ends learns o none (decide (stop ≠ some .pinch))
    refine ⟨heads, ?_⟩
    have ended (a b : Word) : ((p.closeLearn c l' (some o) none).orderDone l'.slot o a b).operation = p.operation :=
      ((Part.orderDone_does _ _ _ _ _).operation (by decide)).trans ((p.closeLearn_does c l' _ none).operation (by decide))
    unfold Part.endLearn
    rw [learns]
    dsimp only
    split
    · exact ((Part.clampPosition_does _ c).operation (by decide)).trans (ended _ _)
    · exact ended _ _
  · exact ⟨fun x => Part.orderDone_head .., (p.endMoveOrder_does c k o stop).operation (by decide)⟩

theorem Part.tellMover_idle {p : Part} (idle : p.sequencerRuns = false) (c : Corner) (m : Option Mover) (o : OrderOutcome) (e : EntryReason)
    (stop : Option StopReason) (judge : Bool) : let q := p.tellMover c m o e stop judge
    Part.EndsOnly o p q ∧ q.operation = p.operation := by
  cases m with
  | none => exact ⟨.refl o p, rfl⟩
  | some x =>
    cases x with
    | doorSwitch => exact ⟨.refl o p, rfl⟩
    | masterSwitch => exact ⟨.refl o p, rfl⟩
    | sequencer =>
      have e : p.tellMover c (some .sequencer) o e stop judge = p := Part.reportEnd_rests idle c e judge
      rw [e]
      exact ⟨.refl o p, rfl⟩
    | order k =>
      obtain ⟨heads, operation⟩ := p.tellMover_order c k o e stop judge
      refine ⟨fun x => ?_, operation⟩
      rw [heads]
      split
      · subst_vars
        exact .inr rfl
      · exact .inl rfl

/-! ### One withdrawal -/

theorem Part.withdrawHolder_window_head (p : Part) (c : Corner) : (p.withdrawHolder (.window c)) =
    (p.stopWindow c .supply).tellMover c (if (p.window c).motion = .reversing then none else (p.window c).mover) .supply .supply
      (some .supply) true := rfl

theorem Part.withdrawHolder_noRelease {p : Part} {d : Door} (rests : p.latch d = none) :
    p.withdrawHolder (.latch d) = p.dropHolder (.latch d) := by
  have none : (p.dropHolder (.latch d)).latch d = none := rests
  show (p.dropHolder (.latch d)).endRelease d .abortedSupply = _
  rw [Part.endRelease, none]

/-- No release flies and the Sequencer rests. -/
def Part.NoReleases (p : Part) : Prop := (∀ d, p.latch d = none) ∧ p.sequencerRuns = false

/-- A withdrawal while no release flies and the Sequencer rests (R63). -/
theorem Part.NoReleases.withdraws {p : Part} (h : p.NoReleases) (a : Actuator) :
    (p.withdrawHolder a).NoReleases ∧ Part.EndsOnly .supply p (p.withdrawHolder a) := by
  obtain ⟨rests, idle⟩ := h
  have latch (d : Door) : (p.withdrawHolder a).latch d = none := by
    rw [Part.withdrawHolder_latch, rests d]
    exact ite_self _
  cases a with
  | window c =>
    have stop := (p.stopWindow_acts c .supply).toWithin
    have still : (p.stopWindow c .supply).sequencerRuns = false := (Part.sequencerRuns_of_within stop).trans idle
    obtain ⟨ends, operation⟩ := Part.tellMover_idle still c (if (p.window c).motion = .reversing then none else (p.window c).mover)
      .supply .supply (some .supply) true
    refine ⟨⟨latch, ?_⟩, (stop.endsOnly .supply).trans ends⟩
    rw [← still, Part.sequencerRuns, Part.sequencerRuns, Part.withdrawHolder_window_head, operation]
  | latch d =>
    refine ⟨⟨latch, ?_⟩, ?_⟩
    · rw [Part.withdrawHolder_noRelease (rests d)]
      exact idle
    · rw [Part.withdrawHolder_noRelease (rests d)]
      exact fun _ => .inl rfl

theorem Part.withdrawHolder_mover {p : Part} {c : Corner} {k : Slot} (driven : (p.window c).motion ≠ .reversing)
    (mover : (p.window c).mover = some (.order k)) :
    (p.withdrawHolder (.window c)).head k = { p.head k with state := .done, code := BitVec.ofNat 8 OrderOutcome.supply.code } := by
  rw [Part.withdrawHolder_window_head, if_neg driven, mover]
  obtain ⟨heads, -⟩ := (p.stopWindow c .supply).tellMover_order c k .supply .supply (some .supply) true
  rw [heads, if_pos rfl, (p.stopWindow_acts c .supply).toWithin.head k]

/-- No window has a mover. -/
def Part.NoMovers (p : Part) : Prop := ∀ c, (p.window c).mover = none

/-- A release withdrawn (R43): its orders and its door's outcome. -/
theorem Part.withdrawHolder_release {p : Part} {d : Door} {op : ReleaseOp} (flies : p.latch d = some op) :
    (∀ k, (p.withdrawHolder (.latch d)).head k =
      if k ∈ op.orders then { p.head k with state := .done, code := BitVec.ofNat 8 OrderOutcome.abortedSupply.code } else p.head k) ∧
      ((p.withdrawHolder (.latch d)).door d).outcome = some .abortedSupply ∧
      ∀ x, x ≠ d → (p.withdrawHolder (.latch d)).door x = p.door x := by
  have flies' : (p.dropHolder (.latch d)).latch d = some op := flies
  obtain ⟨doors, heads⟩ := Part.endRelease_ends flies' .abortedSupply
  refine ⟨heads, ?_, fun x hx => ?_⟩
  · exact congrArg DoorRec.outcome (Part.endRelease_door flies' .abortedSupply)
  · have door : (p.withdrawHolder (.latch d)).door x = (p.doors.recs.set d ((p.door d).withOutcome .abortedSupply)).get x :=
      congrArg (·.recs.get x) doors
    rw [door]
    exact (PerDoor.get_set ..).trans (if_neg hx)

/-- A withdrawal while no window has a mover (R43). -/
theorem Part.NoMovers.withdraws {p : Part} (h : p.NoMovers) (a : Actuator) :
    (p.withdrawHolder a).NoMovers ∧ Part.EndsOnly .abortedSupply p (p.withdrawHolder a) := by
  refine ⟨fun c => ?_, ?_⟩
  · obtain ⟨own, other⟩ := p.withdrawHolder_window a c
    by_cases hc : a = .window c
    · rw [WindowRec.sameButPosition] at own
      rw [own hc]
      rfl
    · rw [other hc]
      exact h c
  · cases a with
    | window c =>
      have told : (if (p.window c).motion = .reversing then none else (p.window c).mover) = none := by rw [h c]; exact ite_self _
      rw [Part.withdrawHolder_window_head, told]
      exact (p.stopWindow_acts c .supply).toWithin.endsOnly _
    | latch d =>
      cases flies : p.latch d with
      | none =>
        rw [Part.withdrawHolder_noRelease flies]
        exact fun _ => .inl rfl
      | some op =>
        intro k
        obtain ⟨heads, -⟩ := Part.withdrawHolder_release flies
        rw [heads]
        split
        · exact .inr rfl
        · exact .inl rfl

theorem Part.withdrawHolder_otherDoor (p : Part) {a : Actuator} {d : Door} (h : a ≠ .latch d) : (p.withdrawHolder a).door d = p.door d := by
  cases a with
  | window c => exact (p.stopAndTell_does c .supply true).toWithin.door d (by decide)
  | latch x =>
    cases flies : p.latch x with
    | none => rw [Part.withdrawHolder_noRelease flies]; rfl
    | some op => exact (Part.withdrawHolder_release flies).2.2 d fun e => h (e ▸ rfl)

/-! ### Withdrawals one after another -/

set_option Elab.async false in -- the declarations above are finished first: this bounds the memory of the one text
/-- What stands once distinct holders have been withdrawn one at a time. -/
theorem withdrawAll_leaves : ∀ {gone : List Actuator} (p : Part), gone.Nodup → let q := gone.foldl Part.withdrawHolder p
    (∀ c, (.window c ∈ gone → (q.window c).motion = .stopped ∧ (q.window c).lastStop = some .supply ∧ (q.window c).mover = none ∧
        (q.window c).movingFlag = false) ∧ (.window c ∉ gone → q.window c = p.window c)) ∧
      ∀ d, (.latch d ∈ gone → q.latch d = none ∧ (p.latch d ≠ none → (q.door d).outcome = some .abortedSupply)) ∧
        (.latch d ∉ gone → q.latch d = p.latch d ∧ q.door d = p.door d)
  | [], _, _ => ⟨fun _ => ⟨fun h => absurd h List.not_mem_nil, fun _ => rfl⟩,
      fun _ => ⟨fun h => absurd h List.not_mem_nil, fun _ => ⟨rfl, rfl⟩⟩⟩
  | a :: gone, p, nodup => by
    obtain ⟨fresh, nodup⟩ := List.nodup_cons.1 nodup
    obtain ⟨windows, latches⟩ := withdrawAll_leaves (p.withdrawHolder a) nodup
    dsimp only [List.foldl_cons]
    refine ⟨fun c => ⟨fun h => ?_, fun h => ?_⟩, fun d => ⟨fun h => ?_, fun h => ?_⟩⟩
    · rcases List.mem_cons.1 h with own | later
      · subst own
        have stopped := (p.withdrawHolder_window (.window c) c).1 rfl
        rw [WindowRec.sameButPosition] at stopped
        rw [(windows c).2 fresh, stopped]
        exact ⟨rfl, rfl, rfl, rfl⟩
      · exact (windows c).1 later
    · obtain ⟨ne, rest⟩ := not_or.1 (mt List.mem_cons.2 h)
      rw [(windows c).2 rest, (p.withdrawHolder_window a c).2 fun e => ne e.symm]
    · rcases List.mem_cons.1 h with own | later
      · subst own
        obtain ⟨latch, door⟩ := (latches d).2 fresh
        rw [latch, door, Part.withdrawHolder_latch, if_pos rfl]
        refine ⟨rfl, fun flies => ?_⟩
        obtain ⟨op, flies⟩ := Option.ne_none_iff_exists'.1 flies
        exact (Part.withdrawHolder_release flies).2.1
      · have ne : a ≠ .latch d := fun e => fresh (e ▸ later)
        obtain ⟨latch, outcome⟩ := (latches d).1 later
        rw [Part.withdrawHolder_latch, if_neg ne] at outcome
        exact ⟨latch, outcome⟩
    · obtain ⟨ne, rest⟩ := not_or.1 (mt List.mem_cons.2 h)
      have ne : a ≠ .latch d := fun e => ne e.symm
      obtain ⟨latch, door⟩ := (latches d).2 rest
      rw [latch, door, Part.withdrawHolder_latch, if_neg ne, p.withdrawHolder_otherDoor ne]
      exact ⟨rfl, rfl⟩

/-- Orders that end with one outcome as distinct holders are withdrawn: the others stand, and one that a withdrawal ends stays so. -/
theorem withdrawAll_ends {o : OrderOutcome} {I R : Part → Prop} {a : Actuator} {k : Slot}
    (step : ∀ q b, I q → I (q.withdrawHolder b) ∧ Part.EndsOnly o q (q.withdrawHolder b))
    (keeps : ∀ q b, b ≠ a → R q → R (q.withdrawHolder b))
    (hits : ∀ q, I q → R q → (q.withdrawHolder a).head k = { q.head k with state := .done, code := BitVec.ofNat 8 o.code }) :
    ∀ {gone : List Actuator} (p : Part), gone.Nodup → I p → let q := gone.foldl Part.withdrawHolder p
      Part.EndsOnly o p q ∧ I q ∧ (a ∈ gone → R p → q.head k = { p.head k with state := .done, code := BitVec.ofNat 8 o.code })
  | [], p, _, h => ⟨.refl o p, h, fun h => absurd h List.not_mem_nil⟩
  | b :: gone, p, nodup, h => by
    obtain ⟨fresh, nodup⟩ := List.nodup_cons.1 nodup
    obtain ⟨held, first⟩ := step p b h
    obtain ⟨rest, last, ended⟩ := withdrawAll_ends step keeps hits (p.withdrawHolder b) nodup held
    dsimp only [List.foldl_cons]
    refine ⟨first.trans rest, last, fun mem record => ?_⟩
    rcases List.mem_cons.1 mem with own | later
    · subst own
      exact rest.stays (hits p h record)
    · rw [ended later (keeps p b (fun e => fresh (e ▸ later)) record)]
      rcases first k with same | ends
      · rw [same]
      · rw [ends]

end Sys2Proof.Machine
end

section
/-! A fall of the budget, and the end of every search at CRITICAL (R96, R107, R129, R164, R207). -/

namespace Sys2Proof.Machine

/-! ### No commit begins at CRITICAL -/

/-- CRITICAL, and no commit under way. -/
def Part.Uncommitted (p : Part) : Prop := p.critical = true ∧ p.store.commit = none

theorem Part.Uncommitted.within {K : List Area} {p q : Part} (h : p.Uncommitted) (w : Part.Within K p q) (h1 : .supply ∉ K := by decide)
    (h2 : .store ∉ K := by decide) : q.Uncommitted :=
  ⟨by rw [Part.critical, w.supply h1]; exact h.1, by rw [w.store h2]; exact h.2⟩

theorem Part.Uncommitted.tryCommit {p : Part} (h : p.Uncommitted) : p.tryCommit.Uncommitted := by
  have e : p.tryCommit = p := if_neg (by simp [Part.mayCommit, h.1])
  rw [e]
  exact h

theorem Part.Uncommitted.markDirty {p : Part} (h : p.Uncommitted) (r : RecordId) : (p.markDirty r).Uncommitted := by
  rw [Part.markDirty_idle h.2]
  refine Part.Uncommitted.tryCommit ?_
  unfold Part.marked
  split
  · exact h
  · exact h

theorem Part.Uncommitted.clamp {p : Part} (h : p.Uncommitted) (c : Corner) : (p.clampPosition c).Uncommitted := by
  unfold Part.clampPosition
  dsimp only
  split
  · exact h
  · exact (h.within (p.setWindow_within c _)).markDirty _

theorem Part.Uncommitted.endLearn {p : Part} (h : p.Uncommitted) (c : Corner) (o : OrderOutcome) (n : Option Nat) (clamp : Bool) :
    (p.endLearn c o n clamp).Uncommitted := by
  unfold Part.endLearn
  split
  · exact h
  · rename_i l _
    have ended (a b : Word) : ((p.closeLearn c l (some o) n).orderDone l.slot o a b).Uncommitted :=
      (h.within (p.closeLearn_does c l (some o) n).toWithin).within (Part.orderDone_does _ _ _ _ _).toWithin
    dsimp only
    split
    · exact (ended _ _).clamp c
    · exact ended _ _

theorem Part.Uncommitted.tellMover {p : Part} (h : p.Uncommitted) (c : Corner) (m : Option Mover) (o : OrderOutcome) (e : EntryReason)
    (stop : Option StopReason) (judge : Bool) : (p.tellMover c m o e stop judge).Uncommitted := by
  unfold Part.tellMover
  split
  · exact h
  · exact h
  · exact h
  · exact h.within (p.reportEnd_does c e judge).toWithin
  · split
    · exact h.endLearn c o _ _
    · exact h.within (p.endMoveOrder_does c _ o stop).toWithin

/-- A withdrawal at CRITICAL begins no commit. -/
theorem Part.Uncommitted.withdraws {p : Part} (h : p.Uncommitted) (a : Actuator) : (p.withdrawHolder a).Uncommitted := by
  cases a with
  | window c =>
    have halted : ((p.halt c .supply).dropHolder (.window c)).Uncommitted :=
      h.within (K := .holders :: .waiting :: .windows :: .monitors :: rowAreas)
        ((((p.setWindow_within c _).trans (Part.setMonitor_acts _ c _).toWithin (M := [.windows, .monitors]) (by decide) (by decide)).trans
          (Part.appendRow_does _ _).toWithin (M := .windows :: .monitors :: rowAreas) (by decide) (by decide)).trans
          (Part.setLists_within _ _ _) (by decide) (by decide))
    exact (halted.markDirty (.window c)).tellMover ..
  | latch d =>
    exact (h.within (p.setLists_within _ _)).within (Part.endRelease_does _ d .abortedSupply).toWithin

/-! ### The arbiter meets a lower budget (R107) -/

theorem Part.withdrawHolder_waiting (p : Part) (a : Actuator) : (p.withdrawHolder a).waiting = p.waiting := by
  cases a with
  | window c => exact p.stopAndTell_waiting c .supply true
  | latch d => exact (Part.endRelease_does _ d .abortedSupply).waiting (by decide)

theorem withdrawAll_keeps {I : Part → Prop} (step : ∀ q a, I q → I (q.withdrawHolder a)) :
    ∀ (gone : List Actuator) {p : Part}, I p → I (gone.foldl Part.withdrawHolder p)
  | [], _, h => h
  | a :: gone, p, h => withdrawAll_keeps step gone (step p a h)

/-- What a fall of the budget withdraws: the first `n` of the order of withdrawals. -/
structure Part.Falls (p q : Part) (n : Nat) (gone : List Actuator) : Prop where
  meets : withdrawalsMeet p.holders p.budget n
  nodup : gone.Nodup
  mem : ∀ a, a ∈ gone ↔ a ∈ (withdrawalOrder p.holders).take n
  all : q = gone.foldl Part.withdrawHolder p
  holders : q.holders = afterWithdrawals p.holders n
  waiting : q.waiting = p.waiting

theorem Part.meetBudget_falls {p : Part} {before : Nat} (fall : p.budget < before) :
    ∃ n gone, Part.Falls p (p.meetBudget before) n gone := by
  obtain ⟨n, gone, meets, nodup, mem, all, holders⟩ := withdrawOver_is p
  have e : p.meetBudget before = withdrawOver p.holders.length p := if_pos fall
  rw [e]
  refine ⟨n, gone, meets, nodup, mem, all, holders, ?_⟩
  rw [all]
  exact withdrawAll_keeps (I := fun q => q.waiting = p.waiting) (fun q a h => (q.withdrawHolder_waiting a).trans h) gone rfl

/-- What stands after a fall, by the order of withdrawals. -/
theorem Part.Falls.leaves {p q : Part} {n : Nat} {gone : List Actuator} (h : Part.Falls p q n gone) :
    let out := fun a => a ∈ (withdrawalOrder p.holders).take n
    (∀ c, (out (.window c) → (q.window c).motion = .stopped ∧ (q.window c).lastStop = some .supply ∧ (q.window c).mover = none ∧
        (q.window c).movingFlag = false) ∧ (¬ out (.window c) → q.window c = p.window c)) ∧
      ∀ d, (out (.latch d) → q.latch d = none ∧ (p.latch d ≠ none → (q.door d).outcome = some .abortedSupply)) ∧
        (¬ out (.latch d) → q.latch d = p.latch d ∧ q.door d = p.door d) := by
  simp only [← h.mem]
  rw [h.all]
  exact withdrawAll_leaves p h.nodup

/-- The orders of the windows withdrawn end SUPPLY. -/
theorem Part.Falls.supply {p q : Part} {n : Nat} {gone : List Actuator} (h : Part.Falls p q n gone) (free : p.NoReleases) :
    Part.EndsOnly .supply p q ∧ ∀ c k, .window c ∈ (withdrawalOrder p.holders).take n → (p.window c).motion ≠ .reversing →
      (p.window c).mover = some (.order k) → q.head k = { p.head k with state := .done, code := BitVec.ofNat 8 OrderOutcome.supply.code } := by
  rw [h.all]
  have each (a : Actuator) (k : Slot) (R : Part → Prop) (keeps : ∀ q b, b ≠ a → R q → R (q.withdrawHolder b))
      (hits : ∀ q, q.NoReleases → R q → (q.withdrawHolder a).head k =
        { q.head k with state := .done, code := BitVec.ofNat 8 OrderOutcome.supply.code }) :=
    withdrawAll_ends (I := Part.NoReleases) (fun q b hq => hq.withdraws b) keeps hits p h.nodup free
  refine ⟨(each (.window .fl) 0 (fun _ => False) (fun _ _ _ h => h) (fun _ _ h => h.elim)).1, fun c k out driven mover => ?_⟩
  obtain ⟨-, -, ended⟩ := each (.window c) k (fun q => q.window c = p.window c)
    (fun q b hb same => ((q.withdrawHolder_window b c).2 hb).trans same)
    (fun q _ same => Part.withdrawHolder_mover (by rw [same]; exact driven) (by rw [same]; exact mover))
  exact ended ((h.mem _).2 out) rfl

/-- The orders of the releases withdrawn end ABORTED-SUPPLY. -/
theorem Part.Falls.aborted {p q : Part} {n : Nat} {gone : List Actuator} (h : Part.Falls p q n gone) (free : p.NoMovers)
    {d : Door} {op : ReleaseOp} {k : Slot} (out : .latch d ∈ (withdrawalOrder p.holders).take n) (flies : p.latch d = some op)
    (mem : k ∈ op.orders) :
    q.head k = { p.head k with state := .done, code := BitVec.ofNat 8 OrderOutcome.abortedSupply.code } := by
  rw [h.all]
  obtain ⟨-, -, ended⟩ := withdrawAll_ends (o := .abortedSupply) (I := Part.NoMovers) (R := fun q => q.latch d = some op) (a := .latch d) (k := k)
    (fun q b hq => hq.withdraws b) (fun q b hb same => by rw [Part.withdrawHolder_latch, if_neg hb]; exact same)
    (fun q _ same => by
      obtain ⟨heads, -⟩ := Part.withdrawHolder_release same
      rw [heads, if_pos mem]) p h.nodup free
  exact ended ((h.mem _).2 out) flies

/-! ### The searches ended by the supply (R129) -/

/-- What the end of searches leaves: the releases, the doors but for their pulls, the orders but for those it ends. -/
structure Part.Unsearched (p q : Part) : Prop where
  latches : q.latches = p.latches
  outcome : ∀ d, (q.door d).outcome = (p.door d).outcome
  ends : Part.EndsOnly .supply p q

set_option Elab.async false in -- the declarations above are finished first: this bounds the memory of the one text
theorem Part.Unsearched.trans {p q r : Part} (h : Part.Unsearched p q) (k : Part.Unsearched q r) : Part.Unsearched p r :=
  ⟨k.latches.trans h.latches, fun d => (k.outcome d).trans (h.outcome d), h.ends.trans k.ends⟩

theorem Part.ordersDone_unsearched : ∀ (l : List Slot) (p : Part), Part.Unsearched p (l.foldl (fun q k => q.orderDone k .supply) p)
  | [], p => ⟨rfl, fun _ => rfl, .refl _ p⟩
  | k :: l, p => by
    have done := (p.orderDone_does k .supply 0 0).toWithin
    refine Part.Unsearched.trans (q := p.orderDone k .supply) ⟨done.latches (by decide), fun d => ?_, fun x => ?_⟩
      (Part.ordersDone_unsearched l _)
    · rw [done.door d]
    · rw [Part.orderDone_head]
      split
      · subst_vars
        exact .inr rfl
      · exact .inl rfl

theorem Part.abortRequest_unsearched (p : Part) (r : Request) : Part.Unsearched p (p.abortRequest .supply r) := by
  have row := (p.appendRow_does (abortedRow r .supply)).toWithin
  have told : Part.Unsearched p (r.orders.foldl (fun q k => q.orderDone k .supply) (p.appendRow (abortedRow r .supply))) :=
    .trans ⟨row.latches (by decide), fun d => by rw [row.door d], row.endsOnly _⟩ (Part.ordersDone_unsearched r.orders _)
  unfold Part.abortRequest
  dsimp only
  split
  · rename_i d _ _
    refine told.trans ⟨rfl, fun x => ?_, fun _ => .inl rfl⟩
    rw [Part.clearPull, Part.setDoor_door]
    split
    · subst_vars
      rfl
    · rfl
  · exact told

theorem Part.abortSearches_unsearched (p : Part) : Part.Unsearched p (p.abortSearches .supply) := by
  have each : ∀ (l : List Request) (q : Part), Part.Unsearched q (l.foldl (Part.abortRequest .supply) q) := by
    intro l
    induction l with
    | nil => exact fun q => ⟨rfl, fun _ => rfl, .refl _ q⟩
    | cons r l ih => exact fun q => (q.abortRequest_unsearched r).trans (ih _)
  unfold Part.abortSearches
  have cleared : Part.Unsearched p (p.setLocator { p.locator with list := [], flight := none }) := ⟨rfl, fun _ => rfl, fun _ => .inl rfl⟩
  exact cleared.trans (each _ _)

theorem Part.abortSearches_none {p : Part} (h : p.noSearch = true) : p.abortSearches .supply = p := by
  obtain ⟨list, flight⟩ := Bool.and_eq_true_iff.1 h
  have list : p.locator.list = [] := List.isEmpty_iff.1 list
  have flight : p.locator.flight = none := Option.isNone_iff_eq_none.1 flight
  unfold Part.abortSearches
  rw [list, flight]
  show p.setLocator { p.locator with list := [], flight := none } = p
  rw [← list, ← flight]
  rfl

end Sys2Proof.Machine
end

section
/-! A class change with nothing waiting for a grant (R164, R107). -/

namespace Sys2Proof.Machine

/-- The new class in force, its row handed over, before the arbiter meets its budget. -/
def Part.entered (p : Part) (cls : SupplyClass) (mv : Nat) : Part :=
  let q := p.appendRow (classChangedRow p.supply.cls cls mv)
  { q with supply := { q.supply with cls := cls, candidate := none } }

theorem Part.entered_within (p : Part) (cls : SupplyClass) (mv : Nat) : Part.Within (.supply :: rowAreas) p (p.entered cls mv) := by
  have row := (p.appendRow_does (classChangedRow p.supply.cls cls mv)).toWithin
  have set := (p.appendRow (classChangedRow p.supply.cls cls mv)).supply_within
    { (p.appendRow (classChangedRow p.supply.cls cls mv)).supply with cls := cls, candidate := none }
  exact row.trans set (by decide) (by decide)

theorem Part.entered_budget (p : Part) (cls : SupplyClass) (mv : Nat) : (p.entered cls mv).budget = classBudget p.cfg cls := by
  rw [Part.budget_eq, (p.entered_within cls mv).cfg (by decide)]
  rfl

/-- What a class change does once the arbiter has met the budget (R164): the searches at CRITICAL, the commit from it. -/
def Part.afterBudget (old cls : SupplyClass) (p : Part) : Part :=
  let q := if cls = .critical then p.abortSearches .supply else p
  if old = .critical then q.tryCommit else q

theorem Part.meetBudget_waiting {p : Part} {before : Nat} : (p.meetBudget before).waiting = p.waiting := by
  by_cases fall : p.budget < before
  · obtain ⟨n, gone, falls⟩ := Part.meetBudget_falls fall
    exact falls.waiting
  · exact congrArg Part.waiting (if_neg fall)

theorem Part.changeClass_met {p : Part} (empty : p.waiting = []) (cls : SupplyClass) (mv : Nat) :
    p.changeClass cls mv = ((p.entered cls mv).meetBudget p.budget).afterBudget p.supply.cls cls := by
  have enters : (p.appendRow (classChangedRow p.supply.cls cls mv)).enterClass cls = (p.entered cls mv).meetBudget p.budget := by
    have budget : (p.appendRow (classChangedRow p.supply.cls cls mv)).budget = p.budget :=
      (p.appendRow_does _).toWithin.budget (by decide) (by decide)
    rw [Part.enterClass, budget]
    rfl
  rw [Part.changeClass_eq, settle_noneWaits (f := (·.enterClass cls)) (by
    rw [enters, Part.meetBudget_waiting, (p.entered_within cls mv).waiting (by decide)]
    exact empty), enters]
  rfl

/-- The measurement received. -/
def Part.metered (p : Part) (mv : Nat) : Part := { p with supply := { p.supply with millivolts := mv } }

theorem Part.metered_within (p : Part) (mv : Nat) : Part.Within [.supply] p (p.metered mv) := p.supply_within _

/-- What the searches' end and the commit leave of what the arbiter left. -/
structure Part.Settles (p q : Part) : Prop where
  within : Part.Within (.locator :: .begun :: .store :: latchAreas) p q
  unsearched : Part.Unsearched p q
  quiet : p.noSearch = true → ∀ k, q.head k = p.head k

theorem Part.afterBudget_settles (p : Part) (old cls : SupplyClass) : Part.Settles p (p.afterBudget old cls) := by
  have commits (q : Part) : Part.Within markAreas q (if old = .critical then q.tryCommit else q) := by
    split
    · exact q.tryCommit_does.toWithin
    · exact .refl _ q
  have ends (q : Part) (h : Part.Unsearched p q) : Part.Unsearched p (if old = .critical then q.tryCommit else q) :=
    h.trans ⟨(commits q).latches (by decide), fun d => by rw [(commits q).door d], (commits q).endsOnly _⟩
  unfold Part.afterBudget
  dsimp only
  by_cases at_ : cls = .critical
  · simp only [if_pos at_]
    refine ⟨(p.abortSearches_does .supply).toWithin.trans (commits _) (by decide) (by decide), ends _ p.abortSearches_unsearched,
      fun none k => ?_⟩
    rw [(commits _).head k, Part.abortSearches_none none]
  · simp only [if_neg at_]
    exact ⟨(commits p).mono (by decide), ends p ⟨rfl, fun _ => rfl, .refl _ p⟩, fun _ k => (commits p).head k⟩

/-- The third agreeing measurement, nothing waiting. -/
theorem completes_classChange {s : State} {mv : Nat} {ind : SupplyClass} (counts : s.part.state ≠ .start .full .drivers)
    (empty : s.part.waiting = []) (hi : indicated s.part.cfg s.part.supply.cls mv = ind) (h : ind ≠ s.part.supply.cls)
    (hk : s.part.supply.candidate = some ⟨ind, 2⟩) {post : Part → Prop}
    (served : let p := s.part.metered mv
      let z := (p.entered ind mv).meetBudget p.budget
      Part.Settles z (z.afterBudget p.supply.cls ind) → post (z.afterBudget p.supply.cls ind)) :
    Completes (.batteryMeasurement mv) s post := by
  subst hi
  have e : s.part.measure mv = (s.part.metered mv).changeClass (indicated s.part.cfg s.part.supply.cls mv) mv :=
    Part.measure_changes (Part.collecting_eq_false counts) h (Supply.nextCandidate_again hk) (Nat.le_refl 3)
  rw [Part.changeClass_met (p := s.part.metered mv) empty] at e
  have settles := Part.afterBudget_settles (((s.part.metered mv).entered (indicated s.part.cfg s.part.supply.cls mv) mv).meetBudget
    (s.part.metered mv).budget) (s.part.metered mv).supply.cls (indicated s.part.cfg s.part.supply.cls mv)
  have waits : (s.part.measure mv).waiting = [] := by
    rw [e, settles.within.waiting (by decide), Part.meetBudget_waiting, ((s.part.metered mv).entered_within _ mv).waiting (by decide)]
    exact empty
  rw [completes_measurement, settle_noneWaits (f := (·.measure mv)) waits, e]
  exact served settles

/-- The row handed over stands whatever follows that leaves the scroll and its rows (R193). -/
theorem Part.addsRow_stands {K : List Area} {p q z : Part} {r : Row} (h : p.addsRow q r) (w : Part.Within K q z) (h1 : .scroll ∉ K := by decide)
    (h2 : .memory ∉ K := by decide) : p.addsRow z r := by
  have words (j i : Nat) : z.unreadWord j i = q.unreadWord j i := by
    rw [Part.unreadWord, Part.unreadWord, w.scroll h1, w.memory h2]
  unfold Part.addsRow at h ⊢
  simp only [words, w.scroll h1]
  exact h

set_option Elab.async false in -- the declarations above are finished first: this bounds the memory of the one text
/-- A class change with no holder and no search hands over its row alone (R193). -/
theorem Part.classChange_row {p : Part} (tidy : p.tidy) (holders : p.holders = []) (none : p.noSearch = true) (cls : SupplyClass) (mv : Nat) :
    p.addsRow (((p.entered cls mv).meetBudget p.budget).afterBudget p.supply.cls cls) (classChangedRow p.supply.cls cls mv) := by
  have row := Part.appendRow_addsRow tidy (classChangedRow p.supply.cls cls mv)
  have entered : p.addsRow (p.entered cls mv) (classChangedRow p.supply.cls cls mv) :=
    Part.addsRow_stands row ((p.appendRow (classChangedRow p.supply.cls cls mv)).supply_within _)
  have within := p.entered_within cls mv
  have met : (p.entered cls mv).meetBudget p.budget = p.entered cls mv := by
    unfold Part.meetBudget
    rw [within.holders (by decide), holders]
    exact ite_self _
  have quiet : (p.entered cls mv).noSearch = true := by
    rw [Part.noSearch, within.locator (by decide)]
    exact none
  have abort : (if cls = .critical then (p.entered cls mv).abortSearches .supply else p.entered cls mv) = p.entered cls mv := by
    rw [Part.abortSearches_none quiet]
    exact ite_self _
  rw [met, Part.afterBudget, abort]
  split
  · exact Part.addsRow_stands entered (p.entered cls mv).tryCommit_does.toWithin
  · exact entered

end Sys2Proof.Machine
end

section
/-! The third agreeing measurement, claim by claim (R96, R107, R164). -/

namespace Sys2Proof.Machine

section
variable {s : State} {mv : Nat} {ind : SupplyClass} {p : Part} (set : Part.Within [.supply] s.part p)
  (same : p.supply.cls = s.part.supply.cls)
include set same

/-- The budget in force and the holders as the class changes. -/
theorem Part.entered_arbiter : p.budget = s.part.budget ∧ (p.entered ind mv).holders = s.part.holders ∧
    (p.entered ind mv).budget = classBudget s.part.cfg ind := by
  have within := p.entered_within ind mv
  refine ⟨?_, (within.holders (by decide)).trans (set.holders (by decide)), ?_⟩
  · rw [Part.budget_eq, Part.budget_eq, set.cfg (by decide), same]
  · rw [Part.entered_budget, set.cfg (by decide)]

/-- A rise withdraws nothing. -/
theorem Part.classChange_rises (rise : s.part.budget ≤ classBudget s.part.cfg ind) :
    (p.entered ind mv).meetBudget p.budget = p.entered ind mv := by
  obtain ⟨before, -, after⟩ := Part.entered_arbiter (ind := ind) (mv := mv) set same
  exact if_neg (by rw [before, after]; omega)

end

set_option Elab.async false in -- the declarations above are finished first: this bounds the memory of the one text
/-- What a fall at a class change leaves (R107). -/
theorem Part.classChange_falls {s : State} {mv : Nat} {ind old : SupplyClass} {p z : Part} (set : Part.Within [.supply] s.part p)
    {n : Nat} {gone : List Actuator} (falls : Part.Falls (p.entered ind mv) z n gone) (settles : Part.Settles z (z.afterBudget old ind))
    (holders : (p.entered ind mv).holders = s.part.holders) (empty : s.part.waiting = []) :
    let q := z.afterBudget old ind
    let out := fun a => a ∈ (withdrawalOrder s.part.holders).take n
    let ended := fun (k : Slot) (o : OrderOutcome) => q.head k = { s.part.head k with state := .done, code := BitVec.ofNat 8 o.code }
    q.holders = afterWithdrawals s.part.holders n ∧ q.waiting = [] ∧
      (∀ c, (out (.window c) → (q.window c).motion = .stopped ∧ (q.window c).lastStop = some .supply ∧ (q.window c).mover = none ∧
        (q.window c).movingFlag = false) ∧ (¬ out (.window c) → q.window c = s.part.window c)) ∧
      (∀ d, (out (.latch d) → q.latch d = none ∧ (s.part.latch d ≠ none → (q.door d).outcome = some .abortedSupply)) ∧
        (¬ out (.latch d) → q.latch d = s.part.latch d ∧ (q.door d).outcome = (s.part.door d).outcome)) ∧
      (s.part.latchesIdle = true → s.part.sequencerRuns = false → ∀ c k, out (.window c) → (s.part.window c).motion ≠ .reversing →
        (s.part.window c).mover = some (.order k) → ended k .supply) ∧
      (s.part.noSearch = true → (∀ c, (s.part.window c).mover = none) → ∀ d op, out (.latch d) → s.part.latch d = some op →
        ∀ k ∈ op.orders, ended k .abortedSupply) := by
  have within := set.trans (p.entered_within ind mv) (M := .supply :: rowAreas) (by decide) (by decide)
  obtain ⟨windows, latches⟩ := falls.leaves
  have final := settles.within
  have latch (d : Door) : (z.afterBudget old ind).latch d = z.latch d := congrArg (·.get d) settles.unsearched.latches
  have window (c : Corner) : (z.afterBudget old ind).window c = z.window c := final.window c (by decide)
  have head (k : Slot) : (p.entered ind mv).head k = s.part.head k := within.head k (by decide)
  have moved (c : Corner) : (p.entered ind mv).window c = s.part.window c := within.window c (by decide)
  have flies (d : Door) : (p.entered ind mv).latch d = s.part.latch d := within.latch d (by decide)
  rw [holders] at windows latches
  refine ⟨(final.holders (by decide)).trans (falls.holders.trans (by rw [holders])), ?_, fun c => ?_, fun d => ?_,
    fun rests idle c k out driven mover => ?_, fun none movers d op out release k mem => ?_⟩
  · rw [final.waiting (by decide), falls.waiting, within.waiting (by decide)]
    exact empty
  · rw [window, ← moved]
    exact windows c
  · obtain ⟨gone, stays⟩ := latches d
    rw [latch, settles.unsearched.outcome, ← flies, ← within.door d (by decide)]
    exact ⟨gone, fun h => ⟨(stays h).1, by rw [(stays h).2]⟩⟩
  · have free : (p.entered ind mv).NoReleases := by
      refine ⟨fun d => ?_, (Part.sequencerRuns_of_within within).trans idle⟩
      have every := List.all_eq_true.1 rests d (by cases d <;> decide)
      exact (flies d).trans (Option.isNone_iff_eq_none.1 every)
    obtain ⟨-, ended⟩ := falls.supply free
    have first := ended c k (by rw [holders]; exact out) (by rw [moved]; exact driven) (by rw [moved]; exact mover)
    rw [head] at first
    exact settles.unsearched.ends.stays first
  · have free : (p.entered ind mv).NoMovers := fun c => by rw [moved]; exact movers c
    have first := falls.aborted free (d := d) (by rw [holders]; exact out) ((flies d).trans release) mem
    have quiet : z.noSearch = true := by
      have locator : z.locator = s.part.locator := by
        rw [falls.all]
        exact withdrawAll_keeps (I := fun q => q.locator = s.part.locator)
          (fun q a h => ((q.withdrawHolder_does a).locator (by decide)).trans h) gone (within.locator (by decide))
      rw [Part.noSearch, locator]
      exact none
    exact (settles.quiet quiet k).trans (first.trans (by rw [head]))

/-- What every class change leaves: the part state, the LF drivers' class, the commits (R164, R207). -/
theorem Part.classChange_commits {s : State} {mv : Nat} {ind : SupplyClass} {p z : Part} (set : Part.Within [.supply] s.part p)
    (same : p.supply.cls = s.part.supply.cls) (change : ind ≠ s.part.supply.cls) (hz : z = (p.entered ind mv).meetBudget p.budget) :
    let q := z.afterBudget p.supply.cls ind
    (ind = .critical → s.part.store.commit = none → q.store.commit = none) ∧
      (s.part.supply.cls = .critical → ∀ r rest, s.part.store.dirty = r :: rest → s.part.store.commit = none → s.part.store.ready = true →
        q.store.dirty = rest ∧ q.store.commit = some ⟨s.part.contentOf r, s.part.clock + 6, false⟩) := by
  have within := set.trans (p.entered_within ind mv) (M := .supply :: rowAreas) (by decide) (by decide)
  have store : (p.entered ind mv).store = s.part.store := within.store (by decide)
  have class_ : (p.entered ind mv).supply.cls = ind := rfl
  refine ⟨fun critical bare => ?_, fun critical r rest dirty bare ready => ?_⟩
  · subst critical
    have start : (p.entered .critical mv).Uncommitted := ⟨decide_eq_true rfl, by rw [store]; exact bare⟩
    have met : z.Uncommitted := by
      by_cases fall : (p.entered .critical mv).budget < p.budget
      · obtain ⟨n, gone, falls⟩ := Part.meetBudget_falls fall
        rw [hz, falls.all]
        exact withdrawAll_keeps (I := Part.Uncommitted) (fun q a h => h.withdraws a) gone start
      · rw [hz, show (p.entered .critical mv).meetBudget p.budget = _ from if_neg fall]
        exact start
    have old : ¬ p.supply.cls = .critical := fun e => change (by rw [← same, e])
    have final : z.afterBudget p.supply.cls .critical = z.abortSearches .supply := by
      rw [Part.afterBudget, if_neg old, if_pos rfl]
    rw [final]
    exact (met.within (z.abortSearches_does .supply).toWithin).2
  · have rises := Part.classChange_rises (ind := ind) (mv := mv) set same (by rw [Part.budget_eq, critical]; exact Nat.zero_le _)
    have away : ¬ ind = .critical := fun e => change (by rw [critical, e])
    have final : z.afterBudget p.supply.cls ind = (p.entered ind mv).tryCommit := by
      rw [hz, rises, Part.afterBudget, if_neg away, if_pos (same.trans critical)]
    have may : (p.entered ind mv).mayCommit = true := by
      rw [Part.mayCommit, store, Part.critical, class_, bare, dirty, ready, decide_eq_false away]
      rfl
    have begins := Part.beginCommit_store (p := p.entered ind mv) (by rw [store]; exact dirty)
    have content : (p.entered ind mv).contentOf r = s.part.contentOf r := by
      cases r with
      | fob f => exact congrArg (fun x : FobRec => Content.fob f x.keep) (within.fob f)
      | lock =>
        refine congrArg Content.lock ?_
        simp only [Part.lockKeep, Part.door, within.doors (by decide), within.lockout (by decide)]
      | window c => exact congrArg (fun x : WindowRec => Content.window c x.keep) (within.window c)
    rw [final, show (p.entered ind mv).tryCommit = _ from if_pos may, begins, content, within.clock]
    exact ⟨rfl, rfl⟩

end Sys2Proof.Machine
end

section
/-! The adoption at the START write in HELD (R96, R107, R201), and the fall of the budget. -/

namespace Sys2Proof.Machine

/-! ### No order is posted by the part itself -/

/-- Every slot POSTED afterwards was POSTED before. -/
def Part.PostsNone (p q : Part) : Prop := ∀ k, (q.head k).state = .posted → (p.head k).state = .posted

theorem Part.PostsNone.trans {p q r : Part} (h : Part.PostsNone p q) (k : Part.PostsNone q r) : Part.PostsNone p r :=
  fun x hx => h x (k x hx)

theorem Part.Within.postsNone {K : List Area} {p q : Part} (w : Part.Within K p q) (h : .heads ∉ K := by decide) : Part.PostsNone p q :=
  fun k hk => by rw [← w.head k h]; exact hk

theorem Part.orderDone_postsNone (p : Part) (k : Slot) (o : OrderOutcome) (a b : Word) : Part.PostsNone p (p.orderDone k o a b) := fun x hx => by
  rw [Part.orderDone_head] at hx
  split at hx
  · cases hx
  · exact hx

theorem Part.endOperation_postsNone (p : Part) (out : OpOutcome) : Part.PostsNone p (p.endOperation out) := by
  unfold Part.endOperation
  split
  · exact fun _ => id
  · dsimp only
    split
    · exact ((p.setOperation_acts _).toWithin.postsNone).trans (Part.orderDone_postsNone _ _ _ _ _)
    · exact (p.setOperation_acts _).toWithin.postsNone

theorem Part.reportEnd_postsNone (p : Part) (c : Corner) (r : EntryReason) (judge : Bool) : Part.PostsNone p (p.reportEnd c r judge) := by
  have judged (q : Part) : Part.PostsNone q q.judgeOperation := by
    unfold Part.judgeOperation
    split
    · exact fun _ => id
    · split
      · exact q.endOperation_postsNone _
      · exact fun _ => id
  unfold Part.reportEnd
  split
  · exact fun _ => id
  · dsimp only
    split
    · exact ((p.setEntry_acts c _).toWithin.postsNone).trans (judged _)
    · exact (p.setEntry_acts c _).toWithin.postsNone

theorem Part.tellMover_postsNone (p : Part) (c : Corner) (m : Option Mover) (o : OrderOutcome) (e : EntryReason)
    (stop : Option StopReason) (judge : Bool) : Part.PostsNone p (p.tellMover c m o e stop judge) := by
  cases m with
  | none => exact fun _ => id
  | some x =>
    cases x with
    | doorSwitch => exact fun _ => id
    | masterSwitch => exact fun _ => id
    | sequencer => exact p.reportEnd_postsNone c e judge
    | order k =>
      obtain ⟨heads, -⟩ := p.tellMover_order c k o e stop judge
      intro x hx
      rw [heads] at hx
      split at hx
      · cases hx
      · exact hx

theorem Part.withdrawHolder_postsNone (p : Part) (a : Actuator) : Part.PostsNone p (p.withdrawHolder a) := by
  cases a with
  | window c => exact ((p.stopWindow_acts c .supply).toWithin.postsNone).trans (Part.tellMover_postsNone _ _ _ _ _ _ _)
  | latch d =>
    cases flies : p.latch d with
    | none =>
      rw [Part.withdrawHolder_noRelease flies]
      exact fun _ => id
    | some op =>
      obtain ⟨heads, -⟩ := Part.withdrawHolder_release flies
      intro x hx
      rw [heads] at hx
      split at hx
      · cases hx
      · exact hx

/-- With no order POSTED there is none to take. -/
theorem Part.takePosted_none {p : Part} (h : ∀ k, (p.head k).state ≠ .posted) : p.takePosted = p := by
  have each : ∀ l : List Slot, l.foldl (fun q k => if (q.head k).state = .posted then settle (·.takeOrder k) q else q) p = p := by
    intro l
    induction l with
    | nil => rfl
    | cons k l ih => rw [List.foldl_cons, if_neg (h k), ih]
  exact each _

/-! ### The adoption -/

/-- The page in force and the thermal blocks judged, before the arbiter meets the budget (R201). -/
def Part.adopted (p : Part) : Part :=
  let q := { p with check := .passed, cfg := p.page, supply := { p.supply with candidate := none } }
  q.eachCorner Part.judgeThermal

theorem Part.adopt_eq (p : Part) : p.adopt = p.adopted.meetBudget p.budget := rfl

theorem Part.judgeThermal_motion (p : Part) (c x : Corner) : ((p.judgeThermal c).window x).motion = (p.window x).motion := by
  have judged (b : Bool) (r : Row) : (((p.setWindow c { p.window c with thermal := b }).appendRow r).window x).motion = (p.window x).motion := by
    rw [(Part.appendRow_does _ r).toWithin.window x, Part.setWindow_window]
    split
    · subst_vars
      rfl
    · rfl
  unfold Part.judgeThermal
  dsimp only
  split
  · exact judged true _
  · split
    · exact judged false _
    · rfl

theorem Part.adopted_motion (p : Part) (x : Corner) : (p.adopted.window x).motion = (p.window x).motion := by
  simp only [Part.adopted, Part.eachCorner, Corner.all, List.foldl_cons, List.foldl_nil, Part.judgeThermal_motion]
  rfl

theorem Part.adopted_within (p : Part) : Part.Within (.check :: .cfg :: .supply :: heatAreas) p p.adopted := by
  have set : Part.Within [.check, .cfg, .supply] p { p with check := .passed, cfg := p.page, supply := { p.supply with candidate := none } } := by
    constructor <;> first | rfl | exact fun _ => rfl | exact fun _ => .same rfl | exact fun _ _ _ _ => rfl
                          | exact fun h => absurd (by decide) h | exact fun _ _ => FobRec.same_refl _ | exact fun _ => .same id rfl rfl fun _ _ _ => rfl
  exact set.trans (Part.eachCorner_does _ Part.judgeThermal_does).toWithin (by decide) (by decide)

theorem Part.adopted_budget (p : Part) : p.adopted.budget = classBudget p.page p.supply.cls := by
  have judged := (Part.eachCorner_does { p with check := .passed, cfg := p.page, supply := { p.supply with candidate := none } }
    Part.judgeThermal_does).toWithin
  rw [Part.adopted, judged.budget (by decide) (by decide), Part.budget_eq]

/-- What entering SERVICE does once the page is adopted, no order POSTED (R201). -/
theorem Part.enterService_from {p : Part} (empty : p.waiting = []) (bare : ∀ k, (p.adopt.head k).state ≠ .posted) :
    Part.Within (.state :: .dwell :: .spent :: rowAreas) p.adopt p.enterService ∧ p.enterService.state = .service := by
  have waiting : p.adopt.waiting = [] := by
    rw [Part.adopt_eq, Part.meetBudget_waiting, p.adopted_within.waiting (by decide)]
    exact empty
  have within : Part.Within (.state :: .dwell :: .spent :: rowAreas) p.adopt
      ((((p.adopt.setState .service).appendRow serviceEnteredRow).startDwell).spendHeld []) := by
    have state := (p.adopt.setState_does (x := .service) fun _ => nofun).toWithin
    have row := ((p.adopt.setState .service).appendRow_does serviceEnteredRow).toWithin
    have dwell := ((p.adopt.setState .service).appendRow serviceEnteredRow).startDwell_does.toWithin
    have spent := (((p.adopt.setState .service).appendRow serviceEnteredRow).startDwell.spendHeld_does []).toWithin
    exact ((state.trans row (M := .state :: rowAreas) (by decide) (by decide)).trans dwell (M := .state :: .dwell :: rowAreas) (by decide)
      (by decide)).trans spent (by decide) (by decide)
  have e : p.enterService = (((p.adopt.setState .service).appendRow serviceEnteredRow).startDwell).spendHeld [] := by
    unfold Part.enterService
    rw [settle_noneWaits (f := (·.adopt)) waiting]
    refine Part.takePosted_none fun k => ?_
    rw [within.head k (by decide)]
    exact bare k
  rw [e]
  refine ⟨within, ?_⟩
  rw [(Part.spendHeld_does _ []).state (by decide), (Part.startDwell_does _).state (by decide), (Part.appendRow_does _ _).state (by decide)]
  rfl

end Sys2Proof.Machine
end

section
/-! The START write in HELD, and the falls of the budget (R96, R107, R164, R201). -/

namespace Sys2Proof.Machine

/-- The START write in HELD whose checks pass: the part enters SERVICE (R188, R201). -/
theorem Part.startWrite_enters {p : Part} {w : HostWord} (held : p.state = .held) (served : p.port.served = true) (one : w.value = 1)
    (passes : p.failingCheck = none) : Part.Within [.portRest] (settle Part.enterService p) (p.memoryWrite 259 [w]) := by
  have taken : p.burstTaken .link = p := by simp [Part.burstTaken, Part.activity, Part.inService, held]
  have write : p.hostWrite 259 w = p.enterService := by simp [Part.hostWrite, one, Part.startWrite, held, passes]
  have enters : settle (·.hostWrite (259 : BitVec 10).toNat w) (p.burstTaken .link) = settle Part.enterService p := by
    rw [taken]
    exact settle_congr write
  have e := Part.memoryWrite_word served 259 w (fun h => absurd h.1 (by decide))
  rw [enters] at e
  rw [e]
  exact (Part.portRest_does _ _ _ _ _).toWithin

/-- With no order POSTED, nothing waiting and a lower budget, the START write's adoption withdraws as a class change does. -/
theorem completes_startFalls {s : State} {w : HostWord} (held : s.part.state = .held) (served : s.part.port.served = true)
    (one : w.value = 1) (passes : s.part.failingCheck = none) (empty : s.part.waiting = []) (bare : ∀ k, (s.part.head k).state ≠ .posted)
    (fall : classBudget s.part.page s.part.supply.cls < s.part.budget) :
    ∃ n, withdrawalsMeet s.part.holders (classBudget s.part.page s.part.supply.cls) n ∧ Completes (.memoryWrite 259 [w]) s fun p =>
      let gone := fun a => a ∈ (withdrawalOrder s.part.holders).take n
      p.holders = afterWithdrawals s.part.holders n ∧ p.waiting = [] ∧ p.state = .service ∧
      (∀ c, (gone (.window c) → (p.window c).motion = .stopped ∧ (p.window c).lastStop = some .supply) ∧
        (¬ gone (.window c) → (p.window c).motion = (s.part.window c).motion)) ∧
      ∀ d, (gone (.latch d) → p.latch d = none ∧ (s.part.latch d ≠ none → (p.door d).outcome = some .abortedSupply)) ∧
        (¬ gone (.latch d) → p.latch d = s.part.latch d) := by
  have budget := s.part.adopted_budget
  have adopted := s.part.adopted_within
  obtain ⟨n, gone, falls⟩ := Part.meetBudget_falls (p := s.part.adopted) (before := s.part.budget) (by rw [budget]; exact fall)
  have same : s.part.adopted.holders = s.part.holders := adopted.holders (by decide)
  have posts : Part.PostsNone s.part.adopted (s.part.adopted.meetBudget s.part.budget) := by
    rw [falls.all]
    exact withdrawAll_keeps (I := Part.PostsNone s.part.adopted) (fun q a h => h.trans (q.withdrawHolder_postsNone a)) gone fun _ => id
  obtain ⟨windows, latches⟩ := falls.leaves
  have meets := falls.meets
  rw [budget, same] at meets
  rw [same] at windows latches
  obtain ⟨within, state⟩ := Part.enterService_from empty fun k h => bare k ((adopted.postsNone (by decide)) k (posts k h))
  have waits : s.part.adopt.waiting = [] := falls.waiting.trans ((adopted.waiting (by decide)).trans empty)
  have still : settle Part.enterService s.part = s.part.enterService := settle_noneWaits ((within.waiting (by decide)).trans waits)
  have write := s.part.startWrite_enters held served one passes
  rw [still] at write
  have final := within.trans write (M := .state :: .dwell :: .spent :: .portRest :: rowAreas) (by decide) (by decide)
  refine ⟨n, meets, (completes_run (f := (·.memoryWrite 259 [w])) rfl).2 ⟨?_, (final.waiting (by decide)).trans waits,
    (write.state (by decide)).trans state, fun c => ?_, fun d => ?_⟩⟩
  · rw [final.holders (by decide)]
    exact falls.holders.trans (by rw [same])
  · obtain ⟨out, stays⟩ := windows c
    rw [final.window c (by decide)]
    exact ⟨fun h => ⟨(out h).1, (out h).2.1⟩, fun h => (congrArg WindowRec.motion (stays h)).trans (s.part.adopted_motion c)⟩
  · obtain ⟨out, stays⟩ := latches d
    rw [final.latch d (by decide), final.door d (by decide), ← adopted.latch d (by decide)]
    exact ⟨out, fun h => (stays h).1⟩

theorem Part.afterBudget_sameLocks (p : Part) (old cls : SupplyClass) : Part.SameLocks p (p.afterBudget old cls) := by
  have ended : Part.SameLocks p (if cls = .critical then p.abortSearches .supply else p) := .ite (p.abortSearches_sameLocks _) (.refl p)
  exact .ite (ended.trans (Part.tryCommit_does _).sameLocks) ended

/-- A class change commits, and drives the LF drivers, as R164 and R207 say; it hands over its row. -/
theorem completes_classCommits {s : State} {mv : Nat} {ind : SupplyClass} (counts : s.part.state ≠ .start .full .drivers)
    (empty : s.part.waiting = []) (hi : indicated s.part.cfg s.part.supply.cls mv = ind) (change : ind ≠ s.part.supply.cls)
    (candidate : s.part.supply.candidate = some ⟨ind, 2⟩) :
    Completes (.batteryMeasurement mv) s fun p => p.state = s.part.state ∧
      p.lfDrivers = decide (ind ≠ .critical ∧ s.part.state ≠ .doze) ∧
      (ind = .critical → s.part.store.commit = none → p.store.commit = none) ∧
      (s.part.supply.cls = .critical → ∀ r rest, s.part.store.dirty = r :: rest → s.part.store.commit = none →
        s.part.store.ready = true → p.store.dirty = rest ∧
          p.store.commit = some ⟨s.part.contentOf r, s.part.clock + 6, false⟩) ∧
      (s.part.tidy → s.part.holders = [] → s.part.noSearch = true →
        s.part.addsRow p (classChangedRow s.part.supply.cls ind mv)) := by
  refine completes_classChange counts empty hi change candidate fun settles => ?_
  have metered := s.part.metered_within mv
  have met := ((s.part.metered mv).entered ind mv).meetBudget_does (s.part.metered mv).budget
  obtain ⟨bare, leaves⟩ := Part.classChange_commits (mv := mv) metered rfl change rfl
  have state := (settles.within.state (by decide)).trans (met.state (by decide))
  have entered := ((s.part.metered mv).entered_within ind mv).state (by decide)
  have critical := (settles.within.supply (by decide)).trans (met.supply (by decide))
  refine ⟨state.trans entered, ?_, bare, leaves, fun tidy holders none => ?_⟩
  · rw [Part.lfDrivers, Part.critical, state, entered, critical]
    show (!decide (ind = .critical) && decide (s.part.state ≠ .doze)) = _
    simp
  · exact Part.addsRow_of_same rfl rfl rfl (fun _ _ _ => rfl) (Part.classChange_row (p := s.part.metered mv) tidy holders none ind mv)

set_option Elab.async false in -- the declarations above are finished first: this bounds the memory of the one text
/-- A class change that lowers the budget withdraws holders; one that does not withdraws none (R96, R107). -/
theorem completes_classBudget {s : State} {mv : Nat} {ind : SupplyClass} (counts : s.part.state ≠ .start .full .drivers)
    (empty : s.part.waiting = []) (hi : indicated s.part.cfg s.part.supply.cls mv = ind) (change : ind ≠ s.part.supply.cls)
    (candidate : s.part.supply.candidate = some ⟨ind, 2⟩) :
    let all := s.part.holders
    let ended := fun (p : Part) (k : Slot) (o : OrderOutcome) => p.head k = { s.part.head k with state := .done, code := BitVec.ofNat 8 o.code }
    (s.part.budget ≤ classBudget s.part.cfg ind → Completes (.batteryMeasurement mv) s fun p => p.holders = all ∧ p.waiting = [] ∧
      p.windows = s.part.windows ∧ p.latches = s.part.latches) ∧
    (classBudget s.part.cfg ind < s.part.budget → ∃ n, withdrawalsMeet all (classBudget s.part.cfg ind) n ∧
      Completes (.batteryMeasurement mv) s fun p =>
      let gone := fun a => a ∈ (withdrawalOrder all).take n
      p.holders = afterWithdrawals all n ∧ p.waiting = [] ∧
      (∀ c, (gone (.window c) → (p.window c).motion = .stopped ∧ (p.window c).lastStop = some .supply ∧
          (p.window c).mover = none ∧ (p.window c).movingFlag = false) ∧
        (¬ gone (.window c) → p.window c = s.part.window c)) ∧
      (∀ d, (p.door d).lock = (s.part.door d).lock ∧
        (gone (.latch d) → p.latch d = none ∧ (s.part.latch d ≠ none → (p.door d).outcome = some .abortedSupply)) ∧
        (¬ gone (.latch d) → p.latch d = s.part.latch d ∧ (p.door d).outcome = (s.part.door d).outcome)) ∧
      (s.part.latchesIdle = true → s.part.sequencerRuns = false → ∀ c k, gone (.window c) →
        (s.part.window c).motion ≠ .reversing → (s.part.window c).mover = some (.order k) → ended p k .supply) ∧
      (s.part.noSearch = true → (∀ c, (s.part.window c).mover = none) → ∀ d op, gone (.latch d) →
        s.part.latch d = some op → ∀ k ∈ op.orders, ended p k .abortedSupply)) := by
  have metered := s.part.metered_within mv
  have entered := (s.part.metered mv).entered_within ind mv
  obtain ⟨before, holders, after⟩ := Part.entered_arbiter (ind := ind) (mv := mv) metered rfl
  refine ⟨fun rise => ?_, fun fall => ?_⟩
  · refine completes_classChange counts empty hi change candidate fun settles => ?_
    have within := metered.trans entered (M := .supply :: rowAreas) (by decide) (by decide)
    rw [Part.classChange_rises metered rfl rise] at settles ⊢
    have final := settles.within
    exact ⟨(final.holders (by decide)).trans holders, (final.waiting (by decide)).trans ((within.waiting (by decide)).trans empty),
      (final.windows (by decide)).trans (within.windows (by decide)), settles.unsearched.latches.trans (within.latches (by decide))⟩
  · obtain ⟨n, gone, falls⟩ := Part.meetBudget_falls (p := (s.part.metered mv).entered ind mv) (before := (s.part.metered mv).budget)
      (by rw [before, after]; exact fall)
    have meets := falls.meets
    rw [holders, after] at meets
    refine ⟨n, meets, completes_classChange counts empty hi change candidate fun settles => ?_⟩
    obtain ⟨held, waiting, windows, latches, supply, aborted⟩ := Part.classChange_falls metered falls settles holders empty
    have locks := (entered.sameLocks.trans (Part.meetBudget_sameLocks _ (s.part.metered mv).budget)).trans
      (Part.afterBudget_sameLocks _ (s.part.metered mv).supply.cls ind)
    exact ⟨held, waiting, windows, fun d => ⟨locks d, latches d⟩, supply, aborted⟩

/-- Settles O37: `completes_classBudget` and `completes_classCommits` for the class change, `completes_startFalls` for the START write. -/
theorem budgetFallsWithdrawHolders : Obligations.BudgetFallsWithdrawHolders := by
  unfold Obligations.BudgetFallsWithdrawHolders
  refine ⟨fun s mv counts empty => ?_, fun s w held served one passes empty bare => ?_⟩
  · intro now ind budget all ended change candidate
    have table : budget = classBudget s.part.cfg ind := by
      simp only [budget]
      cases ind <;> rfl
    rw [table]
    obtain ⟨rises, falls⟩ := completes_classBudget counts empty rfl change candidate
    exact ⟨rises, falls, completes_classCommits counts empty rfl change candidate⟩
  · intro all budget fall
    have table : budget = classBudget s.part.page s.part.supply.cls := by
      simp only [budget]
      cases s.part.supply.cls <;> rfl
    rw [table] at fall ⊢
    exact completes_startFalls held served one passes empty bare fall

end Sys2Proof.Machine
end

section
/-! Orders mark no word and post none: what the taking of an order leaves of the parity marks and the heads (R186, R191, R202). -/

namespace Sys2Proof.Machine

/-- Every parity mark that stands afterwards stood before, and so does every order POSTED. -/
structure Part.AddsNone (p q : Part) : Prop where
  marks : q.port.parity ⊆ p.port.parity
  posts : Part.PostsNone p q

theorem Part.AddsNone.refl (p : Part) : Part.AddsNone p p := ⟨List.Subset.refl _, fun _ => id⟩

theorem Part.AddsNone.trans {p q r : Part} (h : Part.AddsNone p q) (k : Part.AddsNone q r) : Part.AddsNone p r :=
  ⟨List.Subset.trans k.marks h.marks, h.posts.trans k.posts⟩

/-- The last operation first. -/
theorem Part.AddsNone.after {p q r : Part} (k : Part.AddsNone q r) (h : Part.AddsNone p q) : Part.AddsNone p r := h.trans k

theorem Part.AddsNone.same {p q : Part} (h : q.port.parity = p.port.parity) (k : q.heads = p.heads) : Part.AddsNone p q :=
  ⟨fun c hc => by rwa [h] at hc, fun x hx => by rwa [Part.head, k] at hx⟩

/-- An operation followed by one outside the marks and the heads. -/
theorem Part.AddsNone.beside {p q r : Part} (h : Part.AddsNone p q) (marks : r.port.parity = q.port.parity := by rfl)
    (heads : r.heads = q.heads := by rfl) : Part.AddsNone p r := h.trans (.same marks heads)

theorem Part.Within.addsNone {K : List Area} {p q : Part} (w : Part.Within K p q) (h : .parity ∉ K := by decide)
    (k : .heads ∉ K := by decide) : Part.AddsNone p q := .same (w.parity h) (w.heads k)

theorem Part.AddsNone.ite {c : Prop} [Decidable c] {p q r : Part} (h : c → Part.AddsNone p q) (k : ¬ c → Part.AddsNone p r) :
    Part.AddsNone p (if c then q else r) := by
  split
  · exact h (by assumption)
  · exact k (by assumption)

theorem Part.AddsNone.foldl {α : Type} {f : Part → α → Part} (h : ∀ p x, Part.AddsNone p (f p x)) :
    ∀ (l : List α) (p : Part), Part.AddsNone p (l.foldl f p)
  | [], p => .refl p
  | x :: l, p => (h p x).trans (Part.AddsNone.foldl h l (f p x))

/-- A page whose words fit their parity stays so. -/
theorem Part.AddsNone.pageSound {p q : Part} (h : Part.AddsNone p q) (sound : p.pageSound = true) : q.pageSound = true :=
  List.all_eq_true.2 fun c hc => List.all_eq_true.1 sound c (h.marks hc)

theorem settle_addsNone {f : Part → Part} {p : Part} (h : Part.AddsNone p (f p)) : Part.AddsNone p (settle f p) :=
  h.trans (settle_grants f p).addsNone

/-! ### The slots -/

theorem Memory.writeByte_zero_subset : ∀ (m : Memory) (a : Nat), Memory.writeByte m a 0 ⊆ m
  | [], _ => List.Subset.refl _
  | (k, v) :: m, a => by
    unfold Memory.writeByte
    split
    · exact List.Subset.refl _
    · split
      · exact List.subset_cons_self _ _
      · exact List.cons_subset_cons _ (Memory.writeByte_zero_subset m a)

theorem Part.writeResults_addsNone (p : Part) (k : Slot) (a b : Word) : Part.AddsNone p (p.writeResults k a b) :=
  ⟨List.Subset.trans (Memory.writeByte_zero_subset _ _) (Memory.writeByte_zero_subset _ _), fun _ => id⟩

/-- A head that takes another state than POSTED. -/
theorem Part.setHead_addsNone (p : Part) (k : Slot) {h : Head} (other : h.state ≠ .posted) : Part.AddsNone p (p.setHead k h) :=
  ⟨List.Subset.refl _, fun x hx => by
    rw [Part.head_setHead] at hx
    split at hx
    · exact absurd hx other
    · exact hx⟩

theorem Part.orderTaken_addsNone (p : Part) (k : Slot) : Part.AddsNone p (p.orderTaken k) :=
  .after (Part.writeResults_addsNone _ k 0 0) (p.setHead_addsNone k nofun)

theorem Part.endOrder_addsNone (p : Part) (k : Slot) {st : SlotState} (other : st ≠ .posted) (n : Nat) (a b : Word) :
    Part.AddsNone p (p.endOrder k st n a b) :=
  .after (Part.appendRow_does _ _).addsNone (.after (Part.writeResults_addsNone _ k a b) (p.setHead_addsNone k other))

theorem Part.orderDone_addsNone (p : Part) (k : Slot) (o : OrderOutcome) (a b : Word) : Part.AddsNone p (p.orderDone k o a b) :=
  p.endOrder_addsNone k (by decide) o.code a b

theorem Part.orderRefused_addsNone (p : Part) (k : Slot) (r : OrderRefusal) (a : Word) : Part.AddsNone p (p.orderRefused k r a) :=
  p.endOrder_addsNone k (by decide) r.code a 0

/-! ### Windows and the Sequencer -/

theorem Part.endOperation_addsNone (p : Part) (out : OpOutcome) : Part.AddsNone p (p.endOperation out) := by
  unfold Part.endOperation
  split
  · exact .refl p
  · split
    · exact .after (Part.orderDone_addsNone _ _ _ _ _) (.same rfl rfl)
    · exact .same rfl rfl

theorem Part.judgeOperation_addsNone (p : Part) : Part.AddsNone p p.judgeOperation := by
  unfold Part.judgeOperation
  split
  · exact .refl p
  · exact .ite (fun _ => p.endOperation_addsNone _) fun _ => .refl p

theorem Part.setEntry_addsNone (p : Part) (c : Corner) (e : Entry) : Part.AddsNone p (p.setEntry c e) := .same rfl rfl

theorem Part.reportEnd_addsNone (p : Part) (c : Corner) (r : EntryReason) (judge : Bool) : Part.AddsNone p (p.reportEnd c r judge) := by
  unfold Part.reportEnd
  split
  · exact .refl p
  · exact .ite (fun _ => .after (Part.judgeOperation_addsNone _) (p.setEntry_addsNone c _)) fun _ => p.setEntry_addsNone c _

theorem Part.endLearn_addsNone (p : Part) (c : Corner) (o : OrderOutcome) (n : Option Nat) (clamp : Bool) :
    Part.AddsNone p (p.endLearn c o n clamp) := by
  unfold Part.endLearn
  split
  · exact .refl p
  · rename_i l _
    have ended (a b : Word) : Part.AddsNone p ((p.closeLearn c l (some o) n).orderDone l.slot o a b) :=
      .after (Part.orderDone_addsNone _ _ _ _ _) (p.closeLearn_does c l (some o) n).addsNone
    exact .ite (fun _ => .after (Part.clampPosition_does _ _).addsNone (ended _ _)) fun _ => ended _ _

theorem Part.endMoveOrder_addsNone (p : Part) (c : Corner) (k : Slot) (o : OrderOutcome) (stop : Option StopReason) :
    Part.AddsNone p (p.endMoveOrder c k o stop) := p.orderDone_addsNone k o _ _

theorem Part.tellMover_addsNone (p : Part) (c : Corner) (m : Option Mover) (o : OrderOutcome) (e : EntryReason) (stop : Option StopReason)
    (judge : Bool) : Part.AddsNone p (p.tellMover c m o e stop judge) := by
  unfold Part.tellMover
  split
  · exact .refl p
  · exact .refl p
  · exact .refl p
  · exact p.reportEnd_addsNone c e judge
  · split
    · exact p.endLearn_addsNone c o _ _
    · exact p.endMoveOrder_addsNone c _ o stop

theorem Part.moverLoses_addsNone (p : Part) (c : Corner) (old : Option Mover) (new : Mover) (stop : Option StopReason) :
    Part.AddsNone p (p.moverLoses c old new stop) := .ite (fun _ => .refl p) fun _ => p.tellMover_addsNone ..

theorem Part.stopAndTell_addsNone (p : Part) (c : Corner) (r : StopReason) (judge : Bool) : Part.AddsNone p (p.stopAndTell c r judge) :=
  .after (Part.tellMover_addsNone _ _ _ _ _ _ _) (p.stopWindow_acts c r).toWithin.addsNone

theorem Part.withdrawPending_addsNone (p : Part) (c : Corner) (o : OrderOutcome) (e : EntryReason) (judge : Bool) :
    Part.AddsNone p (p.withdrawPending c o e judge) := by
  unfold Part.withdrawPending
  split
  · exact .refl p
  · exact .after (Part.tellMover_addsNone _ _ _ _ _ _ _) (p.dropPending_acts c).toWithin.addsNone

theorem Part.startMove_addsNone (p : Part) (c : Corner) (cmd : Command) : Part.AddsNone p (p.startMove c cmd) :=
  .after (Part.markDirty_does _ _).addsNone (.after (Part.appendRow_does _ _).addsNone (.same rfl rfl))

theorem Part.applyDone_addsNone (p : Part) (c : Corner) (cmd : Command) (r : StopReason) : Part.AddsNone p (p.applyDone c cmd r) := by
  have ends := (p.endWatch_does c).addsNone
  unfold Part.applyDone
  refine .ite (fun _ => .after (Part.moverLoses_addsNone _ _ _ _ _) (.after (Part.stopWindow_acts _ _ _).toWithin.addsNone ends)) fun _ => ?_
  split
  · exact ends
  · exact .ite (fun _ => .after (Part.dropPending_acts _ _).toWithin.addsNone ends) fun _ => .after (Part.withdrawPending_addsNone _ _ _ _ _) ends

theorem Part.applyPassed_addsNone (p : Part) (c : Corner) (cmd : Command) : Part.AddsNone p (p.applyPassed c cmd) := by
  have ends := (p.endWatch_does c).addsNone
  have loses (old : Option Mover) : Part.AddsNone p ((p.endWatch c).moverLoses c old cmd.mover none) :=
    .after (Part.moverLoses_addsNone _ c old cmd.mover none) ends
  unfold Part.applyPassed
  refine .ite (fun _ => .ite (fun _ => ?_) fun _ => ?_) fun _ => ?_
  · exact .after (Part.appendRow_does _ _).addsNone (loses (p.window c).mover).beside
  · exact .after (Part.startMove_addsNone _ _ _) (.after (Part.moverLoses_addsNone _ _ _ _ _) (.after (Part.halt_acts _ _ _).toWithin.addsNone ends))
  · split
    · exact ends.beside
    · rename_i pend _
      exact (loses (some pend.cmd.mover)).beside

theorem Part.noteRefusal_addsNone (p : Part) (c : Corner) (r : StartRefusal) : Part.AddsNone p (p.noteRefusal c r) :=
  (p.noteRefusal_does c r).addsNone

/-! ### The arbiter and the releases -/

theorem Part.endRelease_addsNone (p : Part) (d : Door) (o : ReleaseOutcome) : Part.AddsNone p (p.endRelease d o) := by
  unfold Part.endRelease
  split
  · exact .refl p
  · exact .after (Part.setLatch_does _ d none).addsNone (.after (.foldl (fun q k => q.orderDone_addsNone k _ _ _) _ _)
      (.after (Part.appendRow_does _ _).addsNone (.same rfl rfl)))

theorem Part.withdrawHolder_addsNone (p : Part) : ∀ a, Part.AddsNone p (p.withdrawHolder a)
  | .window c => p.stopAndTell_addsNone c .supply true
  | .latch d => .after (Part.endRelease_addsNone _ d _) (.same rfl rfl)

theorem withdrawOver_addsNone : ∀ (n : Nat) (p : Part), Part.AddsNone p (withdrawOver n p)
  | 0, p => .refl p
  | n + 1, p => by
    unfold withdrawOver
    refine .ite (fun _ => .refl p) fun _ => ?_
    split
    · exact .refl p
    · exact (p.withdrawHolder_addsNone _).trans (withdrawOver_addsNone n _)

theorem Part.meetBudget_addsNone (p : Part) (before : Nat) : Part.AddsNone p (p.meetBudget before) :=
  .ite (fun _ => withdrawOver_addsNone _ p) fun _ => .refl p

theorem Part.escapeHolder_addsNone (p : Part) (d : Door) (k : GrantKind) (w : Option Corner) : Part.AddsNone p (p.escapeHolder d k w) :=
  .after (Part.appendRow_does _ _).addsNone (.after (Part.startPulse_does _ _).addsNone (.same rfl rfl))

theorem Part.grantEscape_addsNone (p : Part) (d : Door) : Part.AddsNone p (p.grantEscape d) := by
  unfold Part.grantEscape
  refine .ite (fun _ => p.escapeHolder_addsNone d _ _) fun _ => ?_
  split
  · exact .after (Part.escapeHolder_addsNone _ _ _ _) (p.stopAndTell_addsNone _ _ _)
  · exact p.escapeHolder_addsNone d _ _

theorem Part.raiseRelease_addsNone (p : Part) (d : Door) (op : ReleaseOp) : Part.AddsNone p (p.raiseRelease d op) := by
  have waits : Part.AddsNone p (((p.setLatch d (some { op with prec := .escape })).dropWaiter (.latch d)).grantEscape d) :=
    .after (Part.grantEscape_addsNone _ d) (.same rfl rfl)
  unfold Part.raiseRelease
  split
  · exact waits
  · exact waits
  · exact .same rfl rfl
  · exact .same rfl rfl

theorem Part.joinRelease_addsNone (p : Part) (d : Door) (op : ReleaseOp) (src : ReleaseSource) (slot : Option Slot) :
    Part.AddsNone p (p.joinRelease d op src slot) := .ite (fun _ => p.raiseRelease_addsNone d _) fun _ => .same rfl rfl

theorem Part.beginRelease_addsNone (p : Part) (d : Door) (src : ReleaseSource) (slot : Option Slot) :
    Part.AddsNone p (p.beginRelease d src slot) := by
  unfold Part.beginRelease
  split
  · exact .after (Part.grantEscape_addsNone _ d) (.same rfl rfl)
  · exact .same rfl rfl

theorem Part.releaseRequest_addsNone (p : Part) (d : Door) (src : ReleaseSource) (slot : Option Slot) :
    Part.AddsNone p (p.releaseRequest d src slot) := by
  have row := (p.appendRow_does (releaseUnavailableRow d src)).addsNone
  unfold Part.releaseRequest
  cases slot with
  | none =>
    refine .ite (fun _ => .refl p) fun _ => .ite (fun _ => row) fun _ => ?_
    dsimp only
    split
    · exact p.joinRelease_addsNone d _ src none
    · exact p.beginRelease_addsNone d src none
  | some k =>
    refine .ite (fun _ => p.orderDone_addsNone k _ _ _) fun _ => .ite (fun _ => .after (Part.orderRefused_addsNone _ k _ _) row) fun _ => ?_
    dsimp only
    split
    · exact .after (Part.joinRelease_addsNone _ d _ src _) (p.orderTaken_addsNone k)
    · exact .after (Part.beginRelease_addsNone _ d src _) (p.orderTaken_addsNone k)

end Sys2Proof.Machine
end

section
/-! Orders mark no word and post none: each order and the orders POSTED (R190, R186). -/

namespace Sys2Proof.Machine

theorem Part.lockDoorsOrder_addsNone (p : Part) (k : Slot) (a : LockAction) (who : PerDoor Bool) :
    Part.AddsNone p (p.lockDoorsOrder k a who) := .ite (fun _ => p.orderRefused_addsNone k _ _) fun _ =>
  .after (Part.orderDone_addsNone _ k _ _ _) (.after (Part.lockAction_does _ _ a who).addsNone (p.orderTaken_addsNone k))

theorem Part.changeChildLocks_addsNone (p : Part) (o : Bool) (rl rr : ChildLock) : Part.AddsNone p (p.changeChildLocks o rl rr) :=
  .ite (fun _ => .after (Part.markDirty_does _ _).addsNone (.after (Part.appendRow_does _ _).addsNone (.same rfl rfl))) fun _ => .refl p

theorem Part.childLockOrder_addsNone (p : Part) (k : Slot) (rl rr : Bool) (child : ChildLock) :
    Part.AddsNone p (p.childLockOrder k rl rr child) := .ite (fun _ => p.orderRefused_addsNone k _ _) fun _ =>
  .after (Part.orderDone_addsNone _ k _ _ _) (.after (Part.changeChildLocks_addsNone _ _ _ _) (p.orderTaken_addsNone k))

theorem Part.releaseOrder_addsNone (p : Part) (k : Slot) (d : Door) : Part.AddsNone p (p.releaseOrder k d) :=
  .ite (fun _ => p.orderRefused_addsNone k _ _) fun _ => p.releaseRequest_addsNone d _ (some k)

theorem Part.moveTo_addsNone (p : Part) (k : Slot) (c : Corner) (t : Nat) : Part.AddsNone p (p.moveTo k c t) := by
  have taken := p.orderTaken_addsNone k
  unfold Part.moveTo
  dsimp only
  split
  · exact p.orderRefused_addsNone k _ _
  · exact .after (Part.orderRefused_addsNone _ k _ _) (p.noteRefusal_addsNone c _)
  · exact .after (Part.endMoveOrder_addsNone _ c k _ _) (.after (Part.applyDone_addsNone _ c _ _) taken)
  · exact .after (Part.applyPassed_addsNone _ c _) taken

theorem Part.moveStop_addsNone (p : Part) (k : Slot) (c : Corner) : Part.AddsNone p (p.moveStop k c) := by
  have taken : Part.AddsNone p ((p.orderTaken k).endWatch c) := .after (Part.endWatch_does _ c).addsNone (p.orderTaken_addsNone k)
  unfold Part.moveStop
  refine .ite (fun _ => p.orderRefused_addsNone k _ _) fun _ => .ite (fun _ => ?_) fun _ => ?_
  · exact .after (Part.endMoveOrder_addsNone _ c k _ _) (.after (Part.tellMover_addsNone _ _ _ _ _ _ _)
      (.after (Part.stopWindow_acts _ c _).toWithin.addsNone taken))
  · exact .after (Part.endMoveOrder_addsNone _ c k _ _) (.after (Part.withdrawPending_addsNone _ c _ _ _) taken)

theorem Part.moveOrder_addsNone (p : Part) (k : Slot) (c : Corner) : ∀ t, Part.AddsNone p (p.moveOrder k c t)
  | .fullOpen => p.moveTo_addsNone k c 0
  | .fullClose => p.moveTo_addsNone k c _
  | .position n => p.moveTo_addsNone k c n
  | .stop => p.moveStop_addsNone k c

theorem Part.lockoutStops_addsNone (p : Part) (c : Corner) : Part.AddsNone p (p.lockoutStops c) := by
  unfold Part.lockoutStops
  refine .ite (fun _ => p.stopAndTell_addsNone c _ _) fun _ => ?_
  split
  · exact .ite (fun _ => (p.dropPending_acts c).toWithin.addsNone) fun _ => .refl p
  · exact .refl p

theorem Part.changeLockout_addsNone (p : Part) (order on : Bool) : Part.AddsNone p (p.changeLockout order on) := by
  have changed : Part.AddsNone p ((({ p with lockout := on } : Part).appendRow (lockoutChangedRow order on)).markDirty .lock) :=
    .after (Part.markDirty_does _ _).addsNone (.after (Part.appendRow_does _ _).addsNone (.same rfl rfl))
  exact .ite (fun _ => .after (Part.lockoutStops_addsNone _ .rr) (.after (Part.lockoutStops_addsNone _ .rl) changed)) fun _ =>
    .after (Part.spendIfHeld_does _ _).addsNone (.after (Part.spendIfHeld_does _ _).addsNone changed)

theorem Part.lockoutOrder_addsNone (p : Part) (k : Slot) (on : Bool) : Part.AddsNone p (p.lockoutOrder k on) := by
  have taken := p.orderTaken_addsNone k
  exact .after (Part.orderDone_addsNone _ k _ _ _) (.ite (fun _ => taken) fun _ => .after (Part.changeLockout_addsNone _ true on) taken)

theorem Part.learnOrder_addsNone (p : Part) (k : Slot) (c : Corner) : Part.AddsNone p (p.learnOrder k c) := by
  have refused (r : OrderRefusal) : Part.AddsNone p (p.orderRefused k r) := p.orderRefused_addsNone k r 0
  unfold Part.learnOrder
  exact .ite (fun _ => refused _) fun _ => .ite (fun _ => refused _) fun _ => .ite (fun _ => refused _) fun _ => .ite (fun _ => refused _)
    fun _ => .after (Part.request_does _ _ _).addsNone (.after (Part.markDirty_does _ _).addsNone (.beside (p.orderTaken_addsNone k)))

theorem Part.searchRequest_addsNone (p : Part) (r : Request) (slot : Option Slot) : Part.AddsNone p (p.searchRequest r slot) := by
  have refused (x : OrderRefusal) (row : Row) : Part.AddsNone p (match slot with
      | some k => p.orderRefused k x
      | none => p.appendRow row) := by
    cases slot with
    | some k => exact p.orderRefused_addsNone k x 0
    | none => exact (p.appendRow_does row).addsNone
  have taken (l : Locator) : Part.AddsNone p ((match slot with
      | some k => p.orderTaken k
      | none => p).setLocator l) := by
    cases slot with
    | some k => exact (p.orderTaken_addsNone k).beside
    | none => exact .same rfl rfl
  unfold Part.searchRequest
  dsimp only
  split
  · exact refused _ _
  · exact .ite (fun _ => taken _) fun _ => .ite (fun _ => taken _) fun _ => .ite (fun _ => refused _ _) fun _ =>
      .after (Part.trySearch_does _).addsNone (taken _)

/-! ### Fobs -/

theorem Part.dismissEntry_addsNone (r : StopReason) (p : Part) (c : Corner) : Part.AddsNone p (p.dismissEntry r c) := by
  unfold Part.dismissEntry
  split
  · exact .refl p
  · exact .after (Part.reportEnd_addsNone _ c _ _) (.ite (fun _ => .ite (fun _ => p.stopAndTell_addsNone c r _) fun _ => .refl p) fun _ =>
      p.withdrawPending_addsNone c _ _ _)

theorem Part.sessionEnd_addsNone (p : Part) (f : Fob) : Part.AddsNone p (p.sessionEnd f) := by
  unfold Part.sessionEnd
  split
  · exact .refl p
  · exact .ite (fun _ => .after (Part.judgeOperation_addsNone _) (.foldl (Part.dismissEntry_addsNone .switchReleased) _ p)) fun _ => .refl p

theorem Part.endTracker_addsNone (p : Part) (f : Fob) (cause : HoldCause) : Part.AddsNone p (p.endTracker f cause) := by
  unfold Part.endTracker
  split
  · exact .after (Part.appendRow_does _ _).addsNone (.after (Part.sessionEnd_addsNone _ f) (p.setTracker_does f _).addsNone)
  · exact (p.setTracker_does f _).addsNone
  · exact (p.setTracker_does f _).addsNone
  · exact (p.setTracker_does f _).addsNone

theorem Part.changeFob_addsNone (p : Part) (f : Fob) (k : Slot) (r : FobRec) (row : Row) : Part.AddsNone p (p.changeFob f k r row) := by
  have changed : Part.AddsNone p (((p.orderTaken k).setFob f { r with waits := some ⟨k, false⟩ }).appendRow row) :=
    .after (Part.appendRow_does _ _).addsNone (.beside (p.orderTaken_addsNone k))
  unfold Part.changeFob
  dsimp only
  refine .after (Part.markDirty_does _ _).addsNone ?_
  split
  · exact .after (Part.orderDone_addsNone _ _ _ _ _) changed
  · exact changed

theorem Memory.unmarkBlock_subset (f : Fob) :
    ∀ (l : List Nat) (m : Memory), l.foldl (fun m j => Memory.writeByte m (enrolWord f j) 0) m ⊆ m
  | [], m => List.Subset.refl m
  | j :: l, m => List.Subset.trans (Memory.unmarkBlock_subset f l _) (Memory.writeByte_zero_subset m (enrolWord f j))

theorem Part.clearBlock_addsNone (p : Part) (f : Fob) : Part.AddsNone p (p.clearBlock f) := by
  refine ⟨?_, (p.clearBlock_does f).postsNone⟩
  simp only [Part.clearBlock, Part.storeWords_fields]
  exact Memory.unmarkBlock_subset f _ _

theorem Part.enrolOrder_addsNone (p : Part) (k : Slot) (f : Fob) : Part.AddsNone p (p.enrolOrder k f) := by
  unfold Part.enrolOrder
  dsimp only
  split
  · exact .after (Part.orderRefused_addsNone _ k _ _) (p.clearBlock_addsNone f)
  · exact .after (Part.changeFob_addsNone _ f k _ _) (p.clearBlock_addsNone f)

theorem Part.dismissOrder_addsNone (p : Part) (k : Slot) (f : Fob) : Part.AddsNone p (p.dismissOrder k f) :=
  .ite (fun _ => p.orderRefused_addsNone k _ _) fun _ => .after (Part.changeFob_addsNone _ f k _ _) (p.endTracker_addsNone f _)

theorem Part.suspendOrder_addsNone (p : Part) (k : Slot) (f : Fob) (resume : Bool) : Part.AddsNone p (p.suspendOrder k f resume) := by
  have completed : Part.AddsNone p ((p.orderTaken k).fobOrderDone f k .completed) :=
    .after (Part.orderDone_addsNone _ k _ _ _) (p.orderTaken_addsNone k)
  unfold Part.suspendOrder
  dsimp only
  split
  · exact p.orderRefused_addsNone k _ _
  · exact .after (Part.changeFob_addsNone _ f k _ _) (p.endTracker_addsNone f _)
  · exact p.changeFob_addsNone f k _ _
  · exact completed
  · exact completed

/-! ### Combined operations -/

theorem Part.answer_addsNone (k : OpKind) (p : Part) (c : Corner) : Part.AddsNone p (p.answer k c) := by
  unfold Part.answer
  split
  · exact p.setEntry_addsNone c _
  · dsimp only
    split
    · exact p.setEntry_addsNone c _
    · exact .after (Part.setEntry_addsNone _ c _) (p.noteRefusal_addsNone c _)
    · exact .after (Part.setEntry_addsNone _ c _) (p.applyDone_addsNone c _ _)
    · exact .after (Part.setEntry_addsNone _ c _) (p.applyPassed_addsNone c _)

theorem Part.beginOperation_addsNone (p : Part) (k : OpKind) (o : Origin) : Part.AddsNone p (p.beginOperation k o) := by
  unfold Part.beginOperation
  dsimp only
  refine .after (Part.judgeOperation_addsNone _) (.after (.foldl (fun q c => settle_addsNone (f := (Part.answer k · c)) (q.answer_addsNone k c)) _ _)
    ?_)
  split
  · exact (p.lockAction_does _ _ _).addsNone.beside
  · exact .same rfl rfl

theorem Part.combinedOrder_addsNone (p : Part) (s : Slot) (k : OpKind) : Part.AddsNone p (p.combinedOrder s k) := by
  unfold Part.combinedOrder
  split
  · exact p.orderRefused_addsNone s _ _
  · exact .after (Part.beginOperation_addsNone _ k _) (p.orderTaken_addsNone s)

/-! ### Crash and configuration -/

theorem Part.releaseCrash_addsNone (p : Part) (k : Slot) : Part.AddsNone p (p.releaseCrash k) := by
  unfold Part.releaseCrash
  dsimp only
  split
  · exact p.orderDone_addsNone k _ _ _
  · rename_i l _
    have cleared : Part.AddsNone p (({ p with crash := { p.crash with latch := none } } : Part).appendRow (latchClearedRow l)) :=
      .after (Part.appendRow_does _ _).addsNone (.same rfl rfl)
    exact .ite (fun _ => p.orderRefused_addsNone k _ _) fun _ => .after (Part.orderDone_addsNone _ k _ _ _)
      (.after (Part.orderTaken_addsNone _ k) (.ite (fun _ => .beside cleared) fun _ => cleared))

theorem Part.adopt_addsNone (p : Part) : Part.AddsNone p p.adopt :=
  .after (Part.meetBudget_addsNone _ _) p.adopted_within.addsNone

theorem Part.reconfigure_addsNone (p : Part) (k : Slot) : Part.AddsNone p (p.reconfigure k) := by
  unfold Part.reconfigure
  refine .ite (fun _ => ?_) fun _ => p.orderRefused_addsNone k _ _
  split
  · exact .after (Part.orderRefused_addsNone _ k _ _) (.same rfl rfl)
  · exact .after (Part.orderDone_addsNone _ k _ _ _) (.after (Part.adopt_addsNone _) (p.orderTaken_addsNone k))

/-! ### Taking an order -/

theorem Part.serveOrder_addsNone (p : Part) (k : Slot) : ∀ o, Part.AddsNone p (p.serveOrder k o)
  | .lockDoors a who => p.lockDoorsOrder_addsNone k a who
  | .setChildLock rl rr child => p.childLockOrder_addsNone k rl rr child
  | .releaseLatch d => p.releaseOrder_addsNone k d
  | .moveWindow c t => p.moveOrder_addsNone k c t
  | .setWindowLockout on => p.lockoutOrder_addsNone k on
  | .learnWindow c => p.learnOrder_addsNone k c
  | .locateFob _ => p.searchRequest_addsNone _ (some k)
  | .enrolFob f => p.enrolOrder_addsNone k f
  | .dismissFob f => p.dismissOrder_addsNone k f
  | .suspendFob f r => p.suspendOrder_addsNone k f r
  | .combined o => p.combinedOrder_addsNone k o
  | .releaseCrash => p.releaseCrash_addsNone k
  | .reconfigure => p.reconfigure_addsNone k

set_option Elab.async false in -- the declarations above are finished first: this bounds the memory of the one text
theorem Part.takeOrder_addsNone (p : Part) (k : Slot) : Part.AddsNone p (p.takeOrder k) := by
  have refused (r : OrderRefusal) : Part.AddsNone p (p.orderRefused k r) := p.orderRefused_addsNone k r 0
  unfold Part.takeOrder
  split
  · exact refused _
  · refine .ite (fun _ => refused _) fun _ => .ite (fun _ => refused _) fun _ => .ite (fun _ => refused _) fun _ => ?_
    split
    · exact refused _
    · exact p.serveOrder_addsNone k _

end Sys2Proof.Machine
end

section
/-! The Configuration Page's checks (R201). -/

namespace Sys2Proof.Machine

/-! ### Check 0 -/

theorem Memory.mem_of_readByte {a : Nat} : ∀ {m : Memory}, Memory.readByte m a ≠ 0 → ∃ v, (a, v) ∈ m
  | [], h => absurd rfl h
  | (k, v) :: m, h => by
    unfold Memory.readByte at h
    split at h
    · subst_vars
      exact ⟨v, .head _⟩
    · obtain ⟨x, mem⟩ := Memory.mem_of_readByte h
      exact ⟨x, .tail _ mem⟩

theorem Memory.readByte_of_mem {a : Nat} {v : Byte} : ∀ {lo : Nat} {m : Memory}, Memory.wfFrom lo m = true → (a, v) ∈ m →
    lo ≤ a ∧ Memory.readByte m a ≠ 0
  | lo, (k, x) :: m, h, mem => by
    obtain ⟨low, nonzero, rest⟩ := Memory.wfFrom_cons.1 h
    unfold Memory.readByte
    cases mem with
    | head => exact ⟨low, by rw [if_pos rfl]; exact nonzero⟩
    | tail _ mem =>
      obtain ⟨above, read⟩ := Memory.readByte_of_mem rest mem
      exact ⟨by omega, by rw [if_neg (by omega)]; exact read⟩

/-- Check 0 in the stored words' own terms. -/
theorem Part.pageSound_iff {p : Part} (h : Memory.wf p.port.parity = true) :
    p.pageSound = true ↔ ∀ i, 272 ≤ i → i < 352 → Memory.readByte p.port.parity i = 0 := by
  simp only [Part.pageSound, List.all_eq_true, Bool.not_eq_true', decide_eq_false_iff_not, not_and]
  refine ⟨fun sound i low high => ?_, fun sound c mem low high => ?_⟩
  · by_contra marked
    obtain ⟨v, mem⟩ := Memory.mem_of_readByte marked
    exact sound (i, v) mem low (by simp only; omega)
  · exact (Memory.readByte_of_mem h mem).2 (sound c.1 low (by omega))

/-! ### Checks 1 to 13 -/

/-- The first of a rising list of judgements that fails is the least number whose claim fails. -/
theorem firstFailing_iff {P : Nat → Prop} {l : List (Nat × Bool)} (rising : l.Pairwise (·.1 < ·.1))
    (judged : ∀ c ∈ l, (c.2 = true ↔ P c.1)) (covers : ∀ n, ¬ P n → ∃ c ∈ l, c.1 = n) :
    (∀ n, (l.find? fun k => !k.2).map (·.1) = some n ↔ (∀ k, k < n → P k) ∧ ¬ P n) ∧
      ((l.find? fun k => !k.2).map (·.1) = none ↔ ∀ k, P k) := by
  have least {c : Nat × Bool} (found : l.find? (fun k => !k.2) = some c) : (∀ k, k < c.1 → P k) ∧ ¬ P c.1 := by
    obtain ⟨fails, before, after, rfl, passed⟩ := List.find?_eq_some_iff_append.1 found
    simp only [List.mem_append, List.mem_cons] at judged covers
    refine ⟨fun k lower => ?_, fun holds => ?_⟩
    · by_contra claim
      obtain ⟨x, mem | rfl | mem, rfl⟩ := covers k claim
      · exact claim ((judged x (.inl mem)).1 (by simpa using passed x mem))
      · omega
      · have above := (List.pairwise_cons.1 (List.pairwise_append.1 rising).2.1).1 x mem
        omega
    · rw [(judged c (.inr (.inl rfl))).2 holds] at fails
      cases fails
  have fails {n : Nat} (claim : ¬ P n) : l.find? (fun k => !k.2) ≠ none := by
    obtain ⟨c, mem, rfl⟩ := covers n claim
    exact fun none => claim ((judged c mem).1 (by simpa using List.find?_eq_none.1 none c mem))
  constructor
  · intro n
    constructor
    · intro h
      obtain ⟨c, found, rfl⟩ := Option.map_eq_some_iff.1 h
      exact least found
    · rintro ⟨lower, claim⟩
      obtain ⟨c, found⟩ := Option.ne_none_iff_exists'.1 (fails claim)
      obtain ⟨below, out⟩ := least found
      have same : c.1 = n := by
        rcases Nat.lt_trichotomy c.1 n with lt | eq | gt
        · exact absurd (lower _ lt) out
        · exact eq
        · exact absurd (below _ gt) claim
      rw [found, Option.map_some, same]
  · rw [Option.map_eq_none_iff]
    refine ⟨fun none k => ?_, fun all => ?_⟩
    · by_contra claim
      exact fails claim none
    · by_contra some
      obtain ⟨c, found⟩ := Option.ne_none_iff_exists'.1 some
      exact (least found).2 (all c.1)

/-- Each check's condition as R201's table says it. -/
theorem configChecks_judge (g : Config) : ∀ c ∈ configChecks g, (c.2 = true ↔ checkPasses g c.1) := by
  simp only [configChecks, List.forall_mem_cons, within, checkPasses, Bool.or_eq_true, Bool.and_eq_true, decide_eq_true_eq,
    List.not_mem_nil, false_implies, implies_true, and_true, true_and]
  refine ⟨?_, ?_, ?_, ?_, ?_, ?_, ?_, ?_⟩ <;> omega

theorem configChecks_failing (g : Config) :
    (∀ n, ((configChecks g).find? fun k => !k.2).map (·.1) = some n ↔ (∀ k, k < n → checkPasses g k) ∧ ¬ checkPasses g n) ∧
      (((configChecks g).find? fun k => !k.2).map (·.1) = none ↔ ∀ k, checkPasses g k) := by
  have numbers : (configChecks g).map (·.1) = [1, 2, 3, 4, 5, 6, 7, 8, 9, 10, 11, 12, 13] := rfl
  refine firstFailing_iff ?_ (configChecks_judge g) fun n claim => ?_
  · refine List.Pairwise.of_map (S := (· < ·)) (·.1) (fun _ _ h => h) ?_
    rw [numbers]
    decide
  · have mem : n ∈ (configChecks g).map (·.1) := by
      rw [numbers]
      unfold checkPasses at claim
      split at claim <;> simp_all
    obtain ⟨c, listed, rfl⟩ := List.mem_map.1 mem
    exact ⟨c, listed, rfl⟩

/-- The check that fails, in R201's order. -/
theorem Part.failingCheck_iff {p : Part} (h : Memory.wf p.port.parity = true) :
    let sound := ∀ i, 272 ≤ i → i < 352 → Memory.readByte p.port.parity i = 0
    (p.failingCheck = some 0 ↔ ¬ sound) ∧
      (∀ n, 1 ≤ n → (p.failingCheck = some n ↔ sound ∧ (∀ k, k < n → checkPasses p.page k) ∧ ¬ checkPasses p.page n)) ∧
      (p.failingCheck = none ↔ sound ∧ ∀ k, checkPasses p.page k) := by
  obtain ⟨fails, passes⟩ := configChecks_failing p.page
  rw [← Part.pageSound_iff h]
  by_cases sound : p.pageSound = true
  · have e : p.failingCheck = ((configChecks p.page).find? fun k => !k.2).map (·.1) := if_pos sound
    simp only [e, fails, passes, sound, true_and, not_true_eq_false, iff_false, implies_true, and_true]
    exact fun claim => claim.2 trivial
  · have e : p.failingCheck = some 0 := if_neg sound
    simp only [e, sound, Bool.false_eq_true, false_and, iff_false, not_false_eq_true, true_and]
    exact ⟨fun n pos e => absurd (Option.some.inj e) (by omega), nofun⟩

end Sys2Proof.Machine
end

section
/-! RECONFIGURE (R202): the page through the posting of the order, and what its adoption leaves. -/

namespace Sys2Proof.Machine

/-! ### The page and its checks across an operation -/

theorem Part.Within.configPage {K : List Area} {p q : Part} (w : Part.Within K p q) (h : .page ∉ K := by decide) : q.page = p.page := by
  have word (i : Nat) (low : 272 ≤ i) (high : i < 352) : q.pageWord i = p.pageWord i := congrArg BitVec.toNat (w.page h i low high)
  have bit (i k : Nat) (low : 272 ≤ i) (high : i < 352) : q.pageBit i k = p.pageBit i k := congrArg (bitAt · k) (w.page h i low high)
  simp [Part.page, word, bit]

theorem Part.failingCheck_same {p q : Part} (page : q.page = p.page) (sound : q.pageSound = p.pageSound) :
    q.failingCheck = p.failingCheck := by
  rw [Part.failingCheck, Part.failingCheck, page, sound]

theorem sameMarks.pageSound {k : Slot} {p q : Part} (h : sameMarks k p q) (tidy : p.tidy) (tidy' : q.tidy) : q.pageSound = p.pageSound := by
  rw [Bool.eq_iff_iff, Part.pageSound_iff tidy.2.1, Part.pageSound_iff tidy'.2.1]
  refine forall₃_congr fun i low high => ?_
  rw [h i (.inl (by rw [slotWord]; omega))]

theorem Part.Within.quiet {K : List Area} {p q : Part} (w : Part.Within K p q)
    (h : (∀ a ∈ [Area.windows, .monitors, .latches, .locator, .operation], a ∉ K) := by decide) : q.quiet = p.quiet := by
  simp only [List.mem_cons, List.not_mem_nil, or_false, forall_eq_or_imp, forall_eq] at h
  obtain ⟨h1, h2, h3, h4, h5⟩ := h
  simp only [Part.quiet, Part.windowsAtRest, Part.latchesIdle, Part.noSearch, Part.sequencerRuns, w.windows h1, w.monitors h2,
    w.latches h3, w.locator h4, w.operation h5]

/-- A RECONFIGURE taken: the owner sees the page, its checks and the dwell of the posting. -/
theorem completes_reconfigureOrder {s : State} {h : OrderHead} (hp : s.part.accepts h) {post : Part → Prop}
    (served : ∀ q, Part.Posted s.part h .reconfigure [] q → q.failingCheck = s.part.failingCheck →
      q.dwell = some (s.part.clock + s.part.cfg.dozeDwell) → post ((settle (·.reconfigure h.slot) q).burstDone h.slot)) :
    Completes (.reconfigure h) s post := by
  obtain ⟨q, posted, ⟨marks, dwell⟩, e⟩ := Part.postOrder_restarts hp (kind := .reconfigure) (ws := []) rfl (by simp)
  refine (completes_run (exec_order (c := .reconfigure h) (h := h) (k := .reconfigure) (ws := []) rfl s)).2 ?_
  rw [e .reconfigure rfl]
  exact served q posted (Part.failingCheck_same (posted.configPage (by decide)) (marks.pageSound hp.1 posted.tidy)) dwell

/-! ### The adoption -/

theorem Part.adopt_adopts (p : Part) : p.adopt.check = .passed ∧ p.adopt.cfg = p.page ∧
    p.adopt.supply = { p.supply with candidate := none } ∧ p.adopt.dwell = p.dwell := by
  have judged := (Part.eachCorner_does { p with check := .passed, cfg := p.page, supply := { p.supply with candidate := none } }
    Part.judgeThermal_does).toWithin
  have met := (Part.meetBudget_does p.adopted p.budget).toWithin
  exact ⟨(met.check (by decide)).trans (judged.check (by decide)), (met.cfg (by decide)).trans (judged.cfg (by decide)),
    (met.supply (by decide)).trans (judged.supply (by decide)), (met.dwell (by decide)).trans (judged.dwell (by decide))⟩

/-- With no release and no combined operation an adoption ends orders SUPPLY and no others. -/
theorem Part.adopt_endsOnly {p : Part} (free : p.NoReleases) : Part.EndsOnly .supply p p.adopt := by
  have within := p.adopted_within
  have adopted : p.adopted.NoReleases :=
    ⟨fun d => (within.latch d (by decide)).trans (free.1 d), (Part.sequencerRuns_of_within within).trans free.2⟩
  refine (within.endsOnly _).trans ?_
  show Part.EndsOnly _ p.adopted (p.adopted.meetBudget p.budget)
  by_cases fall : p.adopted.budget < p.budget
  · obtain ⟨n, gone, falls⟩ := Part.meetBudget_falls fall
    exact (falls.supply adopted).1
  · rw [show p.adopted.meetBudget p.budget = _ from if_neg fall]
    exact .refl _ _

theorem Part.noReleases_of_quiet {p : Part} (quiet : p.quiet = true) : p.NoReleases := by
  simp only [Part.quiet, Part.latchesIdle, Bool.and_eq_true, Bool.not_eq_true', List.all_eq_true, Option.isNone_iff_eq_none] at quiet
  obtain ⟨⟨⟨-, idle⟩, -⟩, still⟩ := quiet
  exact ⟨fun d => idle d (by cases d <;> decide), still⟩

/-! ### The order's cases -/

section Reconfigure
variable {s : State} {h : OrderHead} (hp : s.part.accepts h)
include hp

/-- Something in motion. -/
theorem completes_reconfigureBusy (busy : s.part.quiet = false) : Completes (.reconfigure h) s fun p =>
    p.endedRefused h .reconfigure .busy ∧ p.cfg = s.part.cfg ∧ p.check = s.part.check := by
  refine completes_reconfigureOrder hp fun q posted fails dwell => ?_
  have e : q.reconfigure h.slot = q.orderRefused h.slot .busy := if_neg (by rw [posted.quiet, busy]; decide)
  have within : Part.Within orderAreas q (q.reconfigure h.slot) := by rw [e]; exact (q.orderRefused_does h.slot _ _).toWithin
  rw [settle_within (f := (·.reconfigure h.slot)) within, e]
  have final := posted.final (q.orderRefused_does h.slot .busy 0).toWithin (M := .portRest :: .waking :: .dwell :: orderAreas)
  exact ⟨posted.endedRefused (.inr rfl) .busy 0, final.cfg (by decide), final.check (by decide)⟩

/-- A check that fails. -/
theorem completes_reconfigureFails {n : Nat} (quiet : s.part.quiet = true) (fails : s.part.failingCheck = some n) :
    Completes (.reconfigure h) s fun p => p.endedRefused h .reconfigure .config ∧ p.cfg = s.part.cfg ∧ p.check = .failed n ∧
      Memory.readWord p.port.memory (slotWord h.slot 6) = packWord [numField 4 n] := by
  refine completes_reconfigureOrder hp fun q posted same dwell => ?_
  have marked := (q.check_does (.failed n)).toWithin
  have e : q.reconfigure h.slot = ({ q with check := .failed n } : Part).orderRefused h.slot .config (packWord [numField 4 n]) := by
    rw [Part.reconfigure, if_pos (by rw [posted.quiet, quiet]), same, fails]
  have refused := (Part.orderRefused_does { q with check := .failed n } h.slot .config (packWord [numField 4 n])).toWithin
  have within : Part.Within (.check :: orderAreas) q (q.reconfigure h.slot) := by
    rw [e]
    exact marked.trans refused (by decide) (by decide)
  rw [settle_within (f := (·.reconfigure h.slot)) within, e]
  rw [e] at within
  have final := posted.final within (M := .check :: .portRest :: .waking :: .dwell :: orderAreas)
  refine ⟨posted.endedRefused (r := { q with check := .failed n }) (.inr rfl) .config _, final.cfg (by decide), ?_, (Part.endOrder_words (p := { q with check := .failed n }) posted.tidy _ _ _ _ _).1⟩
  exact ((Part.burstDone_does _ h.slot).check (by decide)).trans (refused.check (by decide))

/-- Every check passes. -/
theorem completes_reconfigureAdopts (quiet : s.part.quiet = true) (passes : s.part.failingCheck = none) :
    Completes (.reconfigure h) s fun p => p.endedDone h .reconfigure .completed ∧ p.cfg = s.part.page ∧ p.check = .passed ∧
      p.supply.candidate = none ∧ p.supply.cls = s.part.supply.cls ∧ p.dwell = some (s.part.clock + s.part.cfg.dozeDwell) := by
  refine completes_reconfigureOrder hp fun q posted same dwell => ?_
  have still : q.quiet = true := by rw [posted.quiet, quiet]
  have e : q.reconfigure h.slot = (q.orderTaken h.slot).adopt.orderDone h.slot .completed := by
    rw [Part.reconfigure, if_pos still, same, passes]
  have taken := (q.orderTaken_does h.slot).toWithin
  have done := ((q.orderTaken h.slot).adopt.orderDone_does h.slot .completed 0 0).toWithin
  obtain ⟨check, cfg, supply, kept⟩ := (q.orderTaken h.slot).adopt_adopts
  have ends := Part.adopt_endsOnly (Part.noReleases_of_quiet ((taken.quiet (by decide)).trans still)) h.slot
  have grants := settle_grants (·.reconfigure h.slot) q
  have final := grants.toWithin.trans (Part.burstDone_does (settle (·.reconfigure h.slot) q) h.slot).toWithin (M := .portRest :: grantAreas)
    (by decide) (by decide)
  rw [e] at final
  have head : ((settle (·.reconfigure h.slot) q).burstDone h.slot).head h.slot = ⟨.done, BitVec.ofNat 5 OrderKind.reconfigure.code, h.tag,
      BitVec.ofNat 8 OrderOutcome.completed.code⟩ := by
    have placed : (q.orderTaken h.slot).head h.slot = { q.head h.slot with state := .taken } := by
      rw [Part.orderTaken_head, if_pos rfl]
    rw [final.head h.slot (by decide), Part.orderDone_head, if_pos rfl]
    rcases ends with stays | ended
    · rw [stays, placed, posted.head]
    · rw [ended, placed, posted.head]
  refine ⟨head, ?_, (final.check (by decide)).trans ((done.check (by decide)).trans check), ?_, ?_, ?_⟩
  · rw [final.cfg (by decide), done.cfg (by decide), cfg, taken.configPage (by decide), posted.configPage (by decide)]
  · rw [final.supply (by decide), done.supply (by decide), supply]
  · rw [final.supply (by decide), done.supply (by decide), supply, taken.supply (by decide), posted.supply (by decide)]
  · rw [final.dwell (by decide), done.dwell (by decide), kept, taken.dwell (by decide), dwell]

end Reconfigure

end Sys2Proof.Machine
end

section
/-! The page in force as SERVICE is entered and the orders POSTED are taken (R190, R201). -/

namespace Sys2Proof.Machine

/-- The page `g` in force, read again from the words, and every check of it passing. -/
structure Part.Runs (g : Config) (p : Part) : Prop where
  passes : p.failingCheck = none
  page : p.page = g
  check : p.check = .passed
  cfg : p.cfg = g

theorem Part.pageSound_of_passes {p : Part} (h : p.failingCheck = none) : p.pageSound = true := by
  by_contra unsound
  rw [Part.failingCheck, if_neg unsound] at h
  cases h

/-- Every check passes as before where the page stays and no word of it is marked. -/
theorem Part.passes_after {p q : Part} (h : p.failingCheck = none) (page : q.page = p.page) (unmarks : Part.AddsNone p q) :
    q.failingCheck = none := by
  have sound := Part.pageSound_of_passes h
  rw [Part.failingCheck_same page ((unmarks.pageSound sound).trans sound.symm)]
  exact h

theorem Part.Runs.after {g : Config} {p q : Part} {K : List Area} (h : p.Runs g) (w : Part.Within K p q) (unmarks : Part.AddsNone p q)
    (adopted : q.check = .passed ∧ q.cfg = g) (hk : .page ∉ K := by decide) : q.Runs g :=
  have page := w.configPage hk
  ⟨Part.passes_after h.passes page unmarks, page.trans h.page, adopted.1, adopted.2⟩

/-- An order other than RECONFIGURE keeps the configuration in force. -/
theorem Part.serveOrder_configuration (p : Part) (k : Slot) {o : Order} (h : o ≠ .reconfigure) :
    (p.serveOrder k o).check = p.check ∧ (p.serveOrder k o).cfg = p.cfg := by
  have keeps {K : List Area} {q : Part} (w : Part.Within K p q) (h1 : .check ∉ K := by decide) (h2 : .cfg ∉ K := by decide) :
      q.check = p.check ∧ q.cfg = p.cfg := ⟨w.check h1, w.cfg h2⟩
  cases o with
  | lockDoors a who => exact keeps (p.lockDoorsOrder_does k a who).toWithin
  | setChildLock rl rr child => exact keeps (p.childLockOrder_does k rl rr child).toWithin
  | releaseLatch d => exact keeps (p.releaseOrder_does k d).toWithin
  | moveWindow c t => exact keeps (p.moveOrder_does k c t).toWithin
  | setWindowLockout on =>
    have taken := (p.orderTaken_does k).toWithin
    have changed : Part.Within (.lockout :: .spent :: releaseAreas) p
        (if p.lockout = on then p.orderTaken k else (p.orderTaken k).changeLockout true on) := by
      split
      · exact taken.mono (by decide)
      · exact taken.trans (Part.changeLockout_does _ true on).toWithin (by decide) (by decide)
    exact keeps (changed.trans (Part.orderDone_does _ k .completed _ 0).toWithin (M := .lockout :: .spent :: releaseAreas) (by decide) (by decide))
  | learnWindow c => exact keeps (p.learnOrder_does k c).toWithin
  | locateFob a => exact keeps (p.searchRequest_does ⟨.locate, none, some a, [], false, p.clock⟩ (some k)).toWithin
  | enrolFob f => exact keeps (p.enrolOrder_does k f).toWithin
  | dismissFob f => exact keeps (p.dismissOrder_does k f).toWithin
  | suspendFob f r => exact keeps (p.suspendOrder_does k f r).toWithin
  | combined c => exact keeps (p.combinedOrder_does k c).toWithin
  | releaseCrash => exact keeps (p.releaseCrash_does k).toWithin
  | reconfigure => exact absurd rfl h

/-- With every check of the page in force passing, an order leaves the page in force. -/
theorem Part.Runs.serveOrder {g : Config} {p : Part} (h : p.Runs g) (k : Slot) (o : Order) : (p.serveOrder k o).Runs g := by
  refine h.after (p.serveOrder_does k o).toWithin (p.serveOrder_addsNone k o) ?_
  by_cases e : o = .reconfigure
  · subst e
    show (p.reconfigure k).check = .passed ∧ (p.reconfigure k).cfg = g
    unfold Part.reconfigure
    split
    · rw [h.passes]
      obtain ⟨check, cfg, -⟩ := (p.orderTaken k).adopt_adopts
      have done := ((p.orderTaken k).adopt.orderDone_does k .completed 0 0).toWithin
      have page : (p.orderTaken k).page = g := ((p.orderTaken_does k).configPage (by decide)).trans h.page
      exact ⟨(done.check (by decide)).trans check, (done.cfg (by decide)).trans (cfg.trans page)⟩
    · have refused := (p.orderRefused_does k .busy 0).toWithin
      exact ⟨(refused.check (by decide)).trans h.check, (refused.cfg (by decide)).trans h.cfg⟩
  · obtain ⟨check, cfg⟩ := p.serveOrder_configuration k e
    exact ⟨check.trans h.check, cfg.trans h.cfg⟩

theorem Part.Runs.takeOrder {g : Config} {p : Part} (h : p.Runs g) (k : Slot) : (p.takeOrder k).Runs g := by
  have refused (r : OrderRefusal) : (p.orderRefused k r).Runs g := by
    have w := (p.orderRefused_does k r 0).toWithin
    exact h.after w (p.orderRefused_addsNone k r 0) ⟨(w.check (by decide)).trans h.check, (w.cfg (by decide)).trans h.cfg⟩
  unfold Part.takeOrder
  split
  · exact refused _
  · split
    · exact refused _
    · split
      · exact refused _
      · split
        · exact refused _
        · split
          · exact refused _
          · exact h.serveOrder k _

theorem Part.Runs.grants {g : Config} {f : Part → Part} {p : Part} (h : (f p).Runs g) : (settle f p).Runs g := by
  have w := (settle_grants f p).toWithin
  exact h.after w w.addsNone ⟨(w.check (by decide)).trans h.check, (w.cfg (by decide)).trans h.cfg⟩

theorem Part.Runs.takePosted {g : Config} {p : Part} (h : p.Runs g) : p.takePosted.Runs g := by
  have each : ∀ (l : List Slot) {q : Part}, q.Runs g →
      (l.foldl (fun q k => if (q.head k).state = .posted then settle (·.takeOrder k) q else q) q).Runs g := by
    intro l
    induction l with
    | nil => exact fun h => h
    | cons k l ih =>
      intro q hq
      refine ih ?_
      dsimp only
      split
      · exact Part.Runs.grants (f := (·.takeOrder k)) (hq.takeOrder k)
      · exact hq
  exact each _ h

/-! ### SERVICE entered -/

/-- The part as SERVICE is entered, before the orders POSTED are taken. -/
def Part.entersService (p : Part) : Part :=
  ((((settle (·.adopt) p).setState .service).appendRow serviceEnteredRow).startDwell).spendHeld []

theorem Part.enterService_eq (p : Part) : p.enterService = p.entersService.takePosted := rfl

theorem Part.entersService_runs {p : Part} (passes : p.failingCheck = none) : p.entersService.Runs p.page ∧
    p.entersService.state = .service ∧ p.entersService.dwell = some (p.clock + p.page.dozeDwell) := by
  obtain ⟨check, cfg, -⟩ := p.adopt_adopts
  have granted := (settle_grants (·.adopt) p).toWithin
  have adopts := p.adopt_does.toWithin.trans granted (M := adoptAreas ++ grantAreas) (by decide) (by decide)
  have unmarks : Part.AddsNone p (settle (·.adopt) p) := settle_addsNone (f := (·.adopt)) p.adopt_addsNone
  have state := ((settle (·.adopt) p).setState_does (x := .service) fun _ => nofun).toWithin
  have row := (((settle (·.adopt) p).setState .service).appendRow_does serviceEnteredRow).toWithin
  have entered := state.trans row (M := .state :: rowAreas) (by decide) (by decide)
  have dwell := (((settle (·.adopt) p).setState .service).appendRow serviceEnteredRow).startDwell_does.toWithin
  have spent := ((((settle (·.adopt) p).setState .service).appendRow serviceEnteredRow).startDwell.spendHeld_does []).toWithin
  have after : Part.Within (.state :: .dwell :: .spent :: rowAreas) (settle (·.adopt) p) p.entersService :=
    (entered.trans dwell (M := .state :: .dwell :: rowAreas) (by decide) (by decide)).trans spent (by decide) (by decide)
  have page : p.entersService.page = p.page := (after.configPage (by decide)).trans (adopts.configPage (by decide))
  refine ⟨⟨Part.passes_after passes page (unmarks.trans (after.addsNone (by decide))), page, ?_, ?_⟩, ?_, ?_⟩
  · rw [after.check (by decide), granted.check (by decide), check]
  · rw [after.cfg (by decide), granted.cfg (by decide), cfg]
  · exact (spent.state (by decide)).trans ((dwell.state (by decide)).trans (row.state (by decide)))
  · refine (spent.dwell (by decide)).trans ?_
    have started : (((settle (·.adopt) p).setState .service).appendRow serviceEnteredRow).startDwell.dwell =
        some ((((settle (·.adopt) p).setState .service).appendRow serviceEnteredRow).clock +
          (((settle (·.adopt) p).setState .service).appendRow serviceEnteredRow).cfg.dozeDwell) := rfl
    rw [started, entered.clock, entered.cfg (by decide), adopts.clock, granted.cfg (by decide), cfg]

end Sys2Proof.Machine
end

section
/-! The write to START, and the statement about the Configuration Page (R201, R202). -/

namespace Sys2Proof.Machine

/-- A check's number is at most 13. -/
theorem Part.failingCheck_le {p : Part} {n : Nat} (h : p.failingCheck = some n) : n ≤ 13 := by
  unfold Part.failingCheck at h
  split at h
  · obtain ⟨c, found, rfl⟩ := Option.map_eq_some_iff.1 h
    have mem := List.mem_map_of_mem (f := (·.1)) (List.mem_of_find?_eq_some found)
    have numbers : (configChecks p.page).map (·.1) = [1, 2, 3, 4, 5, 6, 7, 8, 9, 10, 11, 12, 13] := rfl
    rw [numbers] at mem
    simp only [List.mem_cons, List.not_mem_nil, or_false] at mem
    omega
  · cases h
    omega

/-- The result word of a check's number. -/
theorem packWord_check : ∀ n ≤ 13, packWord [numField 4 n] = BitVec.ofNat 32 n := by decide

/-- The items of the page at their words (11.6). -/
theorem Part.page_items (p : Part) :
    let g := p.page
    let word := fun i => (Memory.readWord p.port.memory i).toNat
    let flag := fun i k => (Memory.readWord p.port.memory i).getLsbD k
    g.relockTime = word 272 ∧ g.selectiveUnlock = flag 273 0 ∧ g.entryUnlocksAll = flag 273 1 ∧ g.driveAwayLock = flag 273 2 ∧
      g.unlockAtIgnitionOff = flag 273 3 ∧ g.latchPulse = word 274 ∧ g.confirmWindow = word 275 ∧ g.pwmFrequency = word 276 ∧
      g.rampTime = word 277 ∧ g.softStopOffset = word 278 ∧ g.slowZone = word 279 ∧ g.ventDepth = word 280 ∧
      g.pinchZone = word 281 ∧ g.absoluteLimit = word 282 ∧ g.pinchRatio = word 283 ∧ g.forceRatio = word 284 ∧
      g.reversalDistance = word 285 ∧ g.heatLimit = word 286 ∧ g.heatResume = word 287 ∧ g.lowEntry = word 288 ∧
      g.lowExit = word 289 ∧ g.criticalEntry = word 290 ∧ g.criticalExit = word 291 ∧ g.normalBudget = word 292 ∧
      g.lowBudget = word 293 ∧ g.dozeDwell = word 294 ∧ g.receiverPeriod = word 295 ∧ g.insideThreshold = word 296 ∧
      g.outsideThreshold = word 297 ∧ g.wakeTouch = flag 298 0 ∧ g.wakePulls = flag 298 1 ∧ g.wakeSwitches = flag 298 2 ∧
      g.wakeRocker = flag 298 3 ∧ g.wakeTailgate = flag 298 4 := by
  repeat' constructor

/-- The START write in HELD whose checks fail, before the burst ends. -/
def Part.keptHeld (p : Part) (n : Nat) : Part := ({ p with check := .failed n } : Part).appendRow (configFailedRow n)

theorem Part.keptHeld_within (p : Part) (n : Nat) : Part.Within (.check :: rowAreas) p (p.keptHeld n) :=
  (p.check_does (.failed n)).toWithin.trans (Part.appendRow_does _ (configFailedRow n)).toWithin (by decide) (by decide)

theorem Part.keptHeld_check (p : Part) (n : Nat) : (p.keptHeld n).check = .failed n :=
  (Part.appendRow_does { p with check := .failed n } (configFailedRow n)).check (by decide)

theorem Part.keptHeld_row {p : Part} (tidy : p.tidy) (n : Nat) : p.addsRow (p.keptHeld n) (configFailedRow n) :=
  Part.addsRow_of_same rfl rfl rfl (fun _ _ _ => rfl) (Part.appendRow_addsRow (p := { p with check := .failed n }) tidy _)

section Start
variable {s : State} {w : HostWord} (held : s.part.state = .held) (served : s.part.port.served = true) (one : w.value = 1)
include held served one

/-- The START write in HELD, every check passing. -/
theorem completes_startAdopts (passes : s.part.failingCheck = none) : Completes (.memoryWrite 259 [w]) s fun p =>
    p.state = .service ∧ p.check = .passed ∧ p.cfg = s.part.page ∧ p.dwell = some (s.part.clock + s.part.page.dozeDwell) := by
  obtain ⟨runs, state, dwell⟩ := Part.entersService_runs passes
  have taken := s.part.entersService.takePosted_does.toWithin
  have adopted : (settle Part.enterService s.part).Runs s.part.page :=
    Part.Runs.grants (f := Part.enterService) runs.takePosted
  have granted := (settle_grants Part.enterService s.part).toWithin
  have final := s.part.startWrite_enters held served one passes
  refine (completes_run (f := (·.memoryWrite 259 [w])) rfl).2 ⟨?_, (final.check (by decide)).trans adopted.check,
    (final.cfg (by decide)).trans adopted.cfg, ?_⟩
  · exact (final.state (by decide)).trans ((granted.state (by decide)).trans ((taken.state (by decide)).trans state))
  · exact (final.dwell (by decide)).trans ((granted.dwell (by decide)).trans ((taken.dwell (by decide)).trans dwell))

/-- The START write in HELD, a check failing. -/
theorem completes_startFails (tidy : s.part.tidy) {n : Nat} (fails : s.part.failingCheck = some n) :
    Completes (.memoryWrite 259 [w]) s fun p => p.state = .held ∧ p.check = .failed n ∧ p.cfg = s.part.cfg ∧
      p.heads = s.part.heads ∧ p.doors = s.part.doors ∧ p.windows = s.part.windows ∧ s.part.addsRow p (configFailedRow n) := by
  have taken : s.part.burstTaken .link = s.part := by simp [Part.burstTaken, Part.activity, Part.inService, held]
  have write : s.part.hostWrite 259 w = s.part.keptHeld n := by
    simp [Part.hostWrite, one, Part.startWrite, held, fails, Part.keptHeld]
  have still : settle (·.hostWrite (259 : BitVec 10).toNat w) s.part = s.part.keptHeld n :=
    (settle_congr (g := (·.keptHeld n)) write).trans (settle_within (f := (·.keptHeld n)) (s.part.keptHeld_within n))
  have e := Part.memoryWrite_word served 259 w fun h => absurd h.1 (by decide)
  rw [taken, still] at e
  have rest := ((s.part.keptHeld n).portRest_does (s.part.keptHeld n).port.served (BitVec.ofNat 10 ((259 : BitVec 10).toNat + 1))
    (s.part.keptHeld n).port.mask (s.part.keptHeld n).port.vehicleWord).toWithin
  refine (completes_run (f := (·.memoryWrite 259 [w])) rfl).2 ?_
  rw [e]
  have final := (s.part.keptHeld_within n).trans rest (M := .check :: .portRest :: rowAreas) (by decide) (by decide)
  exact ⟨(final.state (by decide)).trans held, (rest.check (by decide)).trans (s.part.keptHeld_check n), final.cfg (by decide),
    final.heads (by decide), final.doors (by decide), final.windows (by decide), Part.addsRow_stands (s.part.keptHeld_row tidy n) rest⟩

end Start

/-- Settles O22: `page_items` and `failingCheck_iff` for the page, `completes_reconfigure…` for the order, `completes_start…` for START. -/
theorem reconfigureAndStartAdoptThePage : Obligations.ReconfigureAndStartAdoptThePage := by
  unfold Obligations.ReconfigureAndStartAdoptThePage
  refine ⟨fun p tidy => ⟨p.page_items, Part.failingCheck_iff tidy.2.1⟩, fun s h hp => ⟨completes_reconfigureAdopts hp, fun n quiet fails => ?_,
    completes_reconfigureBusy hp⟩, fun s w held served tidy one => ⟨completes_startAdopts held served one, fun n fails =>
      completes_startFails held served one tidy fails⟩⟩
  rw [← packWord_check n (Part.failingCheck_le fails)]
  exact completes_reconfigureFails hp quiet fails

end Sys2Proof.Machine
end

section
/-! Input events, frames and crash events mark no word and post no order (R175, R134, R167). -/

namespace Sys2Proof.Machine

/-! ### Inputs -/

theorem Part.latchOpened_addsNone (p : Part) (d : Door) : Part.AddsNone p (p.latchOpened d) := by
  unfold Part.latchOpened
  split
  · exact .refl p
  · split
    · exact .after (Part.endRelease_addsNone _ d _) (.same rfl rfl)
    · exact .after (Part.endRelease_addsNone _ d _) (.same rfl rfl)
    · exact .after (Part.endRelease_addsNone _ d _) (.same rfl rfl)
    · exact p.endRelease_addsNone d _

theorem Part.deliverAjar_addsNone (p : Part) (d : Door) (a : Ajar) : Part.AddsNone p (p.deliverAjar d a) := by
  have moved := (p.ajarEvent_does d a).addsNone
  unfold Part.deliverAjar
  dsimp only
  split
  · exact .after (Part.latchOpened_addsNone _ d) moved
  · exact moved

theorem Part.outerRequest_addsNone (p : Part) (d : Door) : Part.AddsNone p (p.outerRequest d) :=
  .ite (fun _ => (p.appendRow_does _).addsNone) fun _ => p.releaseRequest_addsNone d _ _

theorem Part.outerPull_addsNone (p : Part) (c : Corner) : Part.AddsNone p (p.outerPull c) :=
  .ite (fun _ => .same rfl rfl) fun _ => p.outerRequest_addsNone _

theorem Part.innerPull_addsNone (p : Part) (c : Corner) : Part.AddsNone p (p.innerPull c) := by
  have row (r : Row) := (p.appendRow_does r).addsNone
  unfold Part.innerPull
  exact .ite (fun _ => .refl p) fun _ => .ite (fun _ => row _) fun _ => .ite (fun _ => row _) fun _ =>
    .ite (fun _ => .after (Part.releaseRequest_addsNone _ _ _ _) (p.lockAction_does _ _ _).addsNone) fun _ => p.releaseRequest_addsNone _ _ _

theorem Part.tailgatePress_addsNone (p : Part) : Part.AddsNone p p.tailgatePress := by
  have asks : Part.AddsNone p (if p.inService then p.searchRequest (searchFor p .tailgate .tg) none
      else p.appendRow (outerRefusedRow .tg (p.door .tg).lock)) :=
    .ite (fun _ => p.searchRequest_addsNone _ _) fun _ => (p.appendRow_does _).addsNone
  unfold Part.tailgatePress
  split
  · exact p.releaseRequest_addsNone _ _ _
  · exact .refl p
  · exact asks
  · exact asks

theorem Part.switchRelease_addsNone (p : Part) (sw : Switch) : Part.AddsNone p (p.switchRelease sw) := by
  unfold Part.switchRelease
  refine .ite (fun _ => p.stopAndTell_addsNone _ _ _) fun _ => ?_
  split
  · exact .ite (fun _ => (p.dropPending_acts _).toWithin.addsNone) fun _ => .refl p
  · exact .refl p

theorem Part.applyCommand_addsNone (p : Part) (c : Corner) (cmd : Command) : Part.AddsNone p (p.applyCommand c cmd) := by
  unfold Part.applyCommand
  split
  · exact .refl p
  · exact p.noteRefusal_addsNone c _
  · exact p.applyDone_addsNone c cmd _
  · exact p.applyPassed_addsNone c cmd

theorem Part.switchCommand_addsNone (p : Part) (sw : Switch) (dir : Direction) (second : Bool) :
    Part.AddsNone p (p.switchCommand sw dir second) := by
  have falls (c : Prop) [Decidable c] (row : Row) (cmd : Command) :
      Part.AddsNone p (if c then p else (p.appendRow row).applyCommand sw.window cmd) :=
    .ite (fun _ => .refl p) fun _ => .after (Part.applyCommand_addsNone _ _ _) (p.appendRow_does row).addsNone
  unfold Part.switchCommand
  dsimp only
  split
  · exact falls _ _ _
  · exact falls _ _ _
  · exact .after (Part.appendRow_does _ _).addsNone (p.noteRefusal_addsNone _ _)
  · exact p.applyCommand_addsNone _ _
  · exact p.applyCommand_addsNone _ _
  · exact p.applyCommand_addsNone _ _

theorem Part.switchStage_addsNone (p : Part) (sw : Switch) (old new : Stage) : Part.AddsNone p (p.switchStage sw old new) := by
  have enters (q : Part) (dir : Direction) : Part.AddsNone q (q.stageEntry sw old new dir) :=
    .ite (fun _ => .refl q) fun _ => .ite (fun _ => .after (markSpent_does _ sw true).addsNone (q.stopAndTell_addsNone _ _ _)) fun _ =>
      q.switchCommand_addsNone sw dir _
  have served (q : Part) : Part.AddsNone q (if q.switchIdle sw then q else match Stage.dir new with
      | none => q.switchRelease sw
      | some dir => q.stageEntry sw old new dir) := by
    refine .ite (fun _ => .refl q) fun _ => ?_
    split
    · exact q.switchRelease_addsNone sw
    · exact enters q _
  unfold Part.switchStage
  dsimp only
  exact .after (served _) (.ite (fun _ => (p.endWatch_does _).addsNone) fun _ => .refl p)

/-- An event its owner takes. -/
theorem Part.deliver_addsNone (p : Part) (i : Input) (old new : Level) : Part.AddsNone p (p.deliver i old new) := by
  unfold Part.deliver
  refine .ite (fun _ => .refl p) fun _ => ?_
  cases i with
  | ajar d => exact p.deliverAjar_addsNone d _
  | outer c => exact p.outerPull_addsNone c
  | tailgate => exact p.tailgatePress_addsNone
  | inner c => exact p.innerPull_addsNone c
  | touch c => exact .ite (fun _ => p.searchRequest_addsNone _ _) fun _ => .refl p
  | lockTouch f => exact p.searchRequest_addsNone _ _
  | switch sw => exact p.switchStage_addsNone sw _ _
  | rocker => exact (p.rockerMove_does old new).addsNone
  | childButton => exact p.childToggle_does.addsNone
  | lockoutButton => exact p.changeLockout_addsNone false _
  | ign => exact (p.ignEvent_does _).addsNone
  | crash => exact .refl p

theorem Part.activity_addsNone (p : Part) : Part.AddsNone p p.activity := p.activity_does.addsNone

theorem Part.serviceEvent_addsNone (p : Part) (i : Input) (old new : Level) : Part.AddsNone p (p.serviceEvent i old new) := by
  have served := settle_addsNone (f := (·.deliver i old new)) (p.deliver_addsNone i old new)
  exact .ite (fun _ => .after (Part.activity_addsNone _) served) fun _ => served

/-! ### Frames -/

theorem Part.buttonAction_addsNone (p : Part) (f : Fob) (b : Button) : Part.AddsNone p (p.buttonAction f b) := by
  unfold Part.buttonAction
  split
  · exact (p.remotePress_does f _).addsNone
  · exact p.releaseRequest_addsNone _ _ _

theorem Part.pressTracker_addsNone (p : Part) (f : Fob) (b : Button) (now : Nat) : Part.AddsNone p (p.pressTracker f b now) := by
  have ended := p.endTracker_addsNone f .press
  unfold Part.pressTracker
  dsimp only
  split
  · exact .after (Part.setTracker_does _ f _).addsNone ended
  · exact ended

theorem Part.continueTracker_addsNone (p : Part) (f : Fob) (now : Nat) : Part.AddsNone p (p.continueTracker f now) := by
  have starts (b : LockButton) (since : Nat) : Part.AddsNone p (p.startSession f b since) := by
    unfold Part.startSession
    dsimp only
    split
    · exact .after (Part.appendRow_does _ _).addsNone (p.setTracker_does f _).addsNone
    · exact .after (Part.appendRow_does _ _).addsNone (.after (Part.beginOperation_addsNone _ _ _) (p.setTracker_does f _).addsNone)
  unfold Part.continueTracker
  split
  · exact .ite (fun _ => starts _ _) fun _ => .refl p
  · exact .refl p
  · exact .refl p
  · exact .refl p

theorem Part.acceptFrame_addsNone (p : Part) (f : Fob) (fr : Frame) (now : Nat) (press : Option Bool) :
    Part.AddsNone p (p.acceptFrame f fr now press) := by
  have row {q : Part} (r : Row) (h : Part.AddsNone p q) : Part.AddsNone p (q.appendRow r) := .after (q.appendRow_does r).addsNone h
  have stored {q : Part} (c : Prop) [Decidable c] (h : Part.AddsNone p q) : Part.AddsNone p (if c then q else q.markDirty (.fob f)) :=
    .ite (fun _ => h) fun _ => .after (q.markDirty_does _).addsNone h
  have unblocked {q : Part} (c : Prop) [Decidable c] (r : Row) (h : Part.AddsNone p q) : Part.AddsNone p (if c then q.appendRow r else q) :=
    .ite (fun _ => row r h) fun _ => h
  have first (x : FobRec) : Part.AddsNone p (p.setFob f x) := .same rfl rfl
  unfold Part.acceptFrame
  dsimp only
  cases press with
  | none => exact .after (Part.continueTracker_addsNone _ f now) (stored _ (unblocked _ _ (unblocked _ _ (first _))))
  | some pair =>
    exact .after (Part.pressTracker_addsNone _ f _ now) (.after (Part.buttonAction_addsNone _ f _)
      (stored _ (row _ (unblocked _ _ (unblocked _ _ (first _))))))

set_option Elab.async false in -- the declarations above are finished first: this bounds the memory of the one text
theorem Part.serveFrame_addsNone (p : Part) (fr : Frame) (now : Nat) : Part.AddsNone p (p.serveFrame fr now) := by
  unfold Part.serveFrame Part.applyFrame
  split
  · exact .refl p
  · exact (p.appendRow_does _).addsNone
  · exact .after (Part.appendRow_does _ _).addsNone (.same rfl rfl)
  · exact p.acceptFrame_addsNone _ fr now _
  · exact p.acceptFrame_addsNone _ fr now _

/-! ### Crash events -/

theorem Part.windowCrash_addsNone (p : Part) (c : Corner) : Part.AddsNone p (p.windowCrash c) := by
  have stops : Part.AddsNone p (if ((p.markLearn c).window c).motion = .closing then (p.markLearn c).stopAndTell c .crash false
      else p.markLearn c) :=
    .ite (fun _ => .after (Part.stopAndTell_addsNone _ c _ _) (p.markLearn_does c).addsNone) fun _ => (p.markLearn_does c).addsNone
  unfold Part.windowCrash
  dsimp only
  split
  · exact .ite (fun _ => .after (Part.withdrawPending_addsNone _ c _ _ _) stops) fun _ => stops
  · exact stops

theorem Part.crashEntry_addsNone (p : Part) (c : Corner) : Part.AddsNone p (p.crashEntry c) := by
  unfold Part.crashEntry
  split
  · exact .refl p
  · exact .after (Part.reportEnd_addsNone _ c _ _) (.ite (fun _ => p.withdrawPending_addsNone c _ _ _) fun _ => .refl p)

theorem Part.crashOperation_addsNone (p : Part) : Part.AddsNone p p.crashOperation :=
  .ite (fun _ => .after (Part.endOperation_addsNone _ _) (.foldl Part.crashEntry_addsNone Corner.all p)) fun _ => .refl p

theorem Part.eachCorner_addsNone (p : Part) {f : Part → Corner → Part} (h : ∀ q c, Part.AddsNone q (f q c)) :
    Part.AddsNone p (p.eachCorner f) := .foldl h Corner.all p

theorem Part.eachFob_addsNone (p : Part) {f : Part → Fob → Part} (h : ∀ q i, Part.AddsNone q (f q i)) :
    Part.AddsNone p (p.eachFob f) := .foldl h Fob.all p

theorem Part.crashEvent_addsNone (p : Part) : Part.AddsNone p p.crashEvent := by
  unfold Part.crashEvent
  dsimp only
  refine .after (Part.eachFob_addsNone _ fun q f => (q.crashTracker_does f).addsNone) (.after (Part.crashOperation_addsNone _)
    (.after (Part.eachCorner_addsNone _ Part.windowCrash_addsNone) (.after (Part.crashDoors_does _).addsNone
      (.after (Part.appendRow_does _ _).addsNone ?_))))
  exact .same rfl rfl

end Sys2Proof.Machine
end

section
/-! What an order does is the same wherever the link's pointer stands (R182, R190): rows, slots, windows. -/

namespace Sys2Proof.Machine

/-- The part with the pointer of the link at `x` (R183). -/
def Part.pointed (p : Part) (x : BitVec 10) : Part := { p with port := { p.port with pointer := x } }

section
variable (p : Part) (x : BitVec 10)

/-- No owner sees the pointer. -/
@[simp] theorem Part.pointed_fields : (p.pointed x).clock = p.clock ∧ (p.pointed x).driverDoor = p.driverDoor ∧
    (p.pointed x).state = p.state ∧ (p.pointed x).degraded = p.degraded ∧ (p.pointed x).check = p.check ∧ (p.pointed x).dwell = p.dwell ∧
    (p.pointed x).inputs = p.inputs ∧ (p.pointed x).doors = p.doors ∧ (p.pointed x).latches = p.latches ∧ (p.pointed x).windows = p.windows ∧
    (p.pointed x).lockout = p.lockout ∧ (p.pointed x).spent = p.spent ∧ (p.pointed x).monitors = p.monitors ∧
    (p.pointed x).holders = p.holders ∧ (p.pointed x).waiting = p.waiting ∧ (p.pointed x).locator = p.locator ∧ (p.pointed x).fobs = p.fobs ∧
    (p.pointed x).operation = p.operation ∧ (p.pointed x).supply = p.supply ∧ (p.pointed x).crash = p.crash ∧ (p.pointed x).heads = p.heads ∧
    (p.pointed x).scroll = p.scroll ∧ (p.pointed x).store = p.store ∧ (p.pointed x).cfg = p.cfg ∧
    (p.pointed x).port.memory = p.port.memory ∧ (p.pointed x).port.parity = p.port.parity ∧ (p.pointed x).port.served = p.port.served := by
  repeat' constructor

/-- The owners' records, by their names. -/
@[simp] theorem Part.pointed_records : (∀ d, (p.pointed x).door d = p.door d) ∧ (∀ c, (p.pointed x).window c = p.window c) ∧
    (∀ c, (p.pointed x).monitor c = p.monitor c) ∧ (∀ f, (p.pointed x).fob f = p.fob f) ∧ (∀ i, (p.pointed x).input i = p.input i) ∧
    (∀ d, (p.pointed x).latch d = p.latch d) ∧ (∀ k, (p.pointed x).head k = p.head k) :=
  ⟨fun _ => rfl, fun _ => rfl, fun _ => rfl, fun _ => rfl, fun _ => rfl, fun _ => rfl, fun _ => rfl⟩

/-- A choice between two parts. -/
@[simp] theorem Part.pointed_ite {c : Prop} [Decidable c] (q : Part) :
    (if c then p else q).pointed x = if c then p.pointed x else q.pointed x := apply_ite (Part.pointed · x) c p q

end

/-- One step after the other. -/
theorem foldl_pointed {α : Type} {x : BitVec 10} {f : Part → α → Part} (h : ∀ q a, f (q.pointed x) a = (f q a).pointed x) :
    ∀ (l : List α) (p : Part), l.foldl f (p.pointed x) = (l.foldl f p).pointed x
  | [], _ => rfl
  | a :: l, p => by rw [List.foldl_cons, List.foldl_cons, h, foldl_pointed h l]

section
variable (p : Part) (x : BitVec 10)

/-! ### Single records written -/

@[simp] theorem Part.pointed_sets : (∀ c w, (p.pointed x).setWindow c w = (p.setWindow c w).pointed x) ∧
    (∀ c m, (p.pointed x).setMonitor c m = (p.setMonitor c m).pointed x) ∧ (∀ d r, (p.pointed x).setDoor d r = (p.setDoor d r).pointed x) ∧
    (∀ d, (p.pointed x).setDoors d = (p.setDoors d).pointed x) ∧ (∀ d o, (p.pointed x).setLatch d o = (p.setLatch d o).pointed x) ∧
    (∀ k h, (p.pointed x).setHead k h = (p.setHead k h).pointed x) ∧ (∀ f r, (p.pointed x).setFob f r = (p.setFob f r).pointed x) ∧
    (∀ l, (p.pointed x).setLocator l = (p.setLocator l).pointed x) ∧ (∀ o, (p.pointed x).setOperation o = (p.setOperation o).pointed x) ∧
    (∀ h w, (p.pointed x).setLists h w = (p.setLists h w).pointed x) ∧ (∀ t, (p.pointed x).setLocks t = (p.setLocks t).pointed x) ∧
    (∀ l r, (p.pointed x).setChildLocks l r = (p.setChildLocks l r).pointed x) ∧
    (∀ a, (p.pointed x).setAssertion a = (p.setAssertion a).pointed x) ∧ (∀ f t, (p.pointed x).setTracker f t = (p.setTracker f t).pointed x) ∧
    (∀ c e, (p.pointed x).setEntry c e = (p.setEntry c e).pointed x) ∧ (∀ c, (p.pointed x).endWatch c = (p.endWatch c).pointed x) ∧
    (∀ sw b, markSpent (p.pointed x) sw b = (markSpent p sw b).pointed x) ∧ (∀ a, (p.pointed x).dropHolder a = (p.dropHolder a).pointed x) ∧
    (∀ a, (p.pointed x).dropWaiter a = (p.dropWaiter a).pointed x) ∧ (∀ c, (p.pointed x).dropPending c = (p.dropPending c).pointed x) ∧
    (∀ a r, (p.pointed x).request a r = (p.request a r).pointed x) ∧
    ∀ k a b, (p.pointed x).writeResults k a b = (p.writeResults k a b).pointed x :=
  ⟨fun _ _ => rfl, fun _ _ => rfl, fun _ _ => rfl, fun _ => rfl, fun _ _ => rfl, fun _ _ => rfl, fun _ _ => rfl, fun _ => rfl, fun _ => rfl,
    fun _ _ => rfl, fun _ => rfl, fun _ _ => rfl, fun _ => rfl, fun _ _ => rfl, fun _ _ => rfl, fun _ => rfl, fun _ _ => rfl, fun _ => rfl,
    fun _ => rfl, fun _ => rfl, fun _ _ => rfl, fun _ _ _ => rfl⟩

/-! ### Rows, slots, the store -/

@[simp] theorem Part.appendRow_pointed (r : Row) : (p.pointed x).appendRow r = (p.appendRow r).pointed x := by
  simp only [Part.appendRow, Part.pointed_ite, Part.pointed_fields]
  rfl

@[simp] theorem Part.endOrder_pointed (k : Slot) (st : SlotState) (n : Nat) (a b : Word) :
    (p.pointed x).endOrder k st n a b = (p.endOrder k st n a b).pointed x := by
  simp only [Part.endOrder, Part.pointed_records, Part.pointed_sets, Part.appendRow_pointed]

@[simp] theorem Part.orderDone_pointed (k : Slot) (o : OrderOutcome) (a b : Word) :
    (p.pointed x).orderDone k o a b = (p.orderDone k o a b).pointed x := p.endOrder_pointed x ..

@[simp] theorem Part.orderRefused_pointed (k : Slot) (r : OrderRefusal) (a : Word) :
    (p.pointed x).orderRefused k r a = (p.orderRefused k r a).pointed x := p.endOrder_pointed x ..

@[simp] theorem Part.orderTaken_pointed (k : Slot) : (p.pointed x).orderTaken k = (p.orderTaken k).pointed x := rfl

@[simp] theorem Part.beginCommit_pointed : (p.pointed x).beginCommit = p.beginCommit.pointed x := by
  unfold Part.beginCommit
  simp only [Part.pointed_fields]
  cases p.store.dirty with
  | nil => rfl
  | cons r rest => cases r <;> rfl

@[simp] theorem Part.tryCommit_pointed : (p.pointed x).tryCommit = p.tryCommit.pointed x := by
  unfold Part.tryCommit
  rw [Part.pointed_ite, ← Part.beginCommit_pointed]
  rfl

@[simp] theorem Part.markDirty_pointed (r : RecordId) : (p.pointed x).markDirty r = (p.markDirty r).pointed x := by
  unfold Part.markDirty
  simp only [Part.pointed_fields]
  cases p.store.commit with
  | some k =>
    simp only [Part.pointed_ite]
    rfl
  | none =>
    simp only [Part.pointed_ite, ← Part.tryCommit_pointed]
    rfl

/-! ### Windows -/

@[simp] theorem Part.endOperation_pointed (out : OpOutcome) : (p.pointed x).endOperation out = (p.endOperation out).pointed x := by
  unfold Part.endOperation
  simp only [Part.pointed_fields, Part.pointed_sets]
  cases p.operation with
  | none => rfl
  | some o =>
    obtain ⟨kind, origin, since, lock, entries, ended⟩ := o
    cases origin <;> simp

@[simp] theorem Part.judgeOperation_pointed : (p.pointed x).judgeOperation = p.judgeOperation.pointed x := by
  unfold Part.judgeOperation
  simp only [Part.pointed_fields, Part.endOperation_pointed]
  cases p.operation <;> simp

@[simp] theorem Part.pointed_views : (∀ c, (p.pointed x).liveEntry c = p.liveEntry c) ∧ (∀ c m, (p.pointed x).learnOf c m = p.learnOf c m) ∧
    (∀ c m, (p.pointed x).verdict c m = p.verdict c m) ∧ (∀ c, (p.pointed x).outOfService c = p.outOfService c) ∧
    (p.pointed x).crashSet = p.crashSet ∧ (p.pointed x).unitsFree = p.unitsFree ∧ (p.pointed x).budget = p.budget ∧
    (p.pointed x).preemptable = p.preemptable ∧ (p.pointed x).nextWithdrawn = p.nextWithdrawn :=
  ⟨fun _ => rfl, fun _ _ => rfl, fun _ _ => rfl, fun _ => rfl, rfl, rfl, rfl, rfl, rfl⟩

@[simp] theorem Part.reportEnd_pointed (c : Corner) (r : EntryReason) (judge : Bool) :
    (p.pointed x).reportEnd c r judge = (p.reportEnd c r judge).pointed x := by
  unfold Part.reportEnd
  simp only [Part.pointed_views]
  cases p.liveEntry c <;> simp

@[simp] theorem Part.reportGrant_pointed (c : Corner) : (p.pointed x).reportGrant c = (p.reportGrant c).pointed x := by
  unfold Part.reportGrant
  simp only [Part.pointed_views]
  cases p.liveEntry c <;> simp

@[simp] theorem Part.closeLearn_pointed (c : Corner) (l : Learn) (o : Option OrderOutcome) (n : Option Nat) :
    (p.pointed x).closeLearn c l o n = (p.closeLearn c l o n).pointed x := by
  unfold Part.closeLearn
  simp

@[simp] theorem Part.clampPosition_pointed (c : Corner) : (p.pointed x).clampPosition c = (p.clampPosition c).pointed x := by
  unfold Part.clampPosition
  simp

@[simp] theorem Part.endLearn_pointed (c : Corner) (o : OrderOutcome) (n : Option Nat) (clamp : Bool) :
    (p.pointed x).endLearn c o n clamp = (p.endLearn c o n clamp).pointed x := by
  unfold Part.endLearn
  simp only [Part.pointed_records]
  cases (p.monitor c).learn <;> simp

@[simp] theorem Part.tellMover_pointed (c : Corner) (m : Option Mover) (o : OrderOutcome) (e : EntryReason) (stop : Option StopReason)
    (judge : Bool) : (p.pointed x).tellMover c m o e stop judge = (p.tellMover c m o e stop judge).pointed x := by
  cases m with
  | none => rfl
  | some m =>
    cases m with
    | doorSwitch => rfl
    | masterSwitch => rfl
    | sequencer => exact p.reportEnd_pointed x c e judge
    | order k =>
      unfold Part.tellMover
      simp only [Part.pointed_views]
      cases p.learnOf c (.order k) with
      | none => exact p.orderDone_pointed x ..
      | some l => exact p.endLearn_pointed x ..

@[simp] theorem Part.moverLoses_pointed (c : Corner) (old : Option Mover) (new : Mover) (stop : Option StopReason) :
    (p.pointed x).moverLoses c old new stop = (p.moverLoses c old new stop).pointed x := by
  simp [Part.moverLoses, Part.tellLost]

@[simp] theorem Part.halt_pointed (c : Corner) (r : StopReason) : (p.pointed x).halt c r = (p.halt c r).pointed x := by
  simp [Part.halt]

@[simp] theorem Part.stopWindow_pointed (c : Corner) (r : StopReason) : (p.pointed x).stopWindow c r = (p.stopWindow c r).pointed x := by
  simp [Part.stopWindow]

@[simp] theorem Part.stopAndTell_pointed (c : Corner) (r : StopReason) (judge : Bool) :
    (p.pointed x).stopAndTell c r judge = (p.stopAndTell c r judge).pointed x := by
  simp [Part.stopAndTell, Part.tellStop]

@[simp] theorem Part.withdrawPending_pointed (c : Corner) (o : OrderOutcome) (e : EntryReason) (judge : Bool) :
    (p.pointed x).withdrawPending c o e judge = (p.withdrawPending c o e judge).pointed x := by
  unfold Part.withdrawPending
  simp only [Part.pointed_records]
  cases (p.window c).pending <;> simp

@[simp] theorem Part.startMove_pointed (c : Corner) (cmd : Command) : (p.pointed x).startMove c cmd = (p.startMove c cmd).pointed x := by
  simp [Part.startMove]

@[simp] theorem Part.windowGranted_pointed (c : Corner) : (p.pointed x).windowGranted c = (p.windowGranted c).pointed x := by
  unfold Part.windowGranted
  simp only [Part.pointed_records]
  cases (p.window c).pending <;> simp

@[simp] theorem Part.applyDone_pointed (c : Corner) (cmd : Command) (r : StopReason) :
    (p.pointed x).applyDone c cmd r = (p.applyDone c cmd r).pointed x := by
  unfold Part.applyDone
  simp only [Part.pointed_records]
  cases (p.window c).pending <;> simp [Part.pendingLost]

@[simp] theorem Part.applyPassed_pointed (c : Corner) (cmd : Command) : (p.pointed x).applyPassed c cmd = (p.applyPassed c cmd).pointed x := by
  unfold Part.applyPassed
  simp only [Part.pointed_records]
  cases (p.window c).pending <;> simp

@[simp] theorem Part.noteRefusal_pointed (c : Corner) (r : StartRefusal) : (p.pointed x).noteRefusal c r = (p.noteRefusal c r).pointed x := by
  cases r <;> rfl

end

end Sys2Proof.Machine
end

section
/-! What an order does is the same wherever the link's pointer stands: the arbiter, the releases, the door locks, the windows' orders. -/

namespace Sys2Proof.Machine

section
variable (p : Part) (x : BitVec 10)

/-! ### The arbiter -/

@[simp] theorem Part.startPulse_pointed (d : Door) : (p.pointed x).startPulse d = (p.startPulse d).pointed x := by
  unfold Part.startPulse
  simp only [Part.pointed_records]
  cases p.latch d <;> rfl

@[simp] theorem Part.tellGrant_pointed (a : Actuator) : (p.pointed x).tellGrant a = (p.tellGrant a).pointed x := by
  cases a with
  | window c => exact p.windowGranted_pointed x c
  | latch d => exact p.startPulse_pointed x d

theorem grantHeads_pointed (x : BitVec 10) : ∀ (n : Nat) (p : Part), grantHeads n (p.pointed x) = (grantHeads n p).pointed x
  | 0, _ => rfl
  | n + 1, p => by
    unfold grantHeads
    simp only [Part.pointed_fields]
    cases p.waiting with
    | nil => rfl
    | cons w rest => simp [grantHeads_pointed x n]

/-- An event and the grants after it. -/
theorem settle_pointed {f : Part → Part} (h : f (p.pointed x) = (f p).pointed x) : settle f (p.pointed x) = (settle f p).pointed x := by
  unfold settle
  simp only [h, Part.pointed_fields, Part.pointed_views, Part.pointed_ite, Part.grantFromHead, grantHeads_pointed]

@[simp] theorem Part.endRelease_pointed (d : Door) (o : ReleaseOutcome) : (p.pointed x).endRelease d o = (p.endRelease d o).pointed x := by
  unfold Part.endRelease
  simp only [Part.pointed_records]
  cases p.latch d with
  | none => rfl
  | some op =>
    simp only [Part.pointed_sets, Part.appendRow_pointed]
    rw [foldl_pointed fun q k => q.orderDone_pointed x k _ _ _]
    rfl

@[simp] theorem Part.withdrawHolder_pointed (a : Actuator) : (p.pointed x).withdrawHolder a = (p.withdrawHolder a).pointed x := by
  cases a with
  | window c => exact p.stopAndTell_pointed x ..
  | latch d => simp [Part.withdrawHolder]

theorem withdrawOver_pointed (x : BitVec 10) : ∀ (n : Nat) (p : Part), withdrawOver n (p.pointed x) = (withdrawOver n p).pointed x
  | 0, _ => rfl
  | n + 1, p => by
    unfold withdrawOver
    simp only [Part.pointed_fields, Part.pointed_views]
    cases p.nextWithdrawn with
    | none => simp
    | some a => simp [withdrawOver_pointed x n]

@[simp] theorem Part.meetBudget_pointed (before : Nat) : (p.pointed x).meetBudget before = (p.meetBudget before).pointed x := by
  simp [Part.meetBudget, withdrawOver_pointed]

/-! ### Releases -/

@[simp] theorem Part.escapeHolder_pointed (d : Door) (k : GrantKind) (w : Option Corner) :
    (p.pointed x).escapeHolder d k w = (p.escapeHolder d k w).pointed x := by
  simp [Part.escapeHolder]

@[simp] theorem Part.grantEscape_pointed (d : Door) : (p.pointed x).grantEscape d = (p.grantEscape d).pointed x := by
  unfold Part.grantEscape
  simp only [Part.pointed_views]
  cases p.preemptable <;> simp

@[simp] theorem Part.raiseRelease_pointed (d : Door) (op : ReleaseOp) : (p.pointed x).raiseRelease d op = (p.raiseRelease d op).pointed x := by
  obtain ⟨state, second, prec, sources, orders, timer⟩ := op
  cases state <;> simp [Part.raiseRelease]

@[simp] theorem Part.joinRelease_pointed (d : Door) (op : ReleaseOp) (src : ReleaseSource) (slot : Option Slot) :
    (p.pointed x).joinRelease d op src slot = (p.joinRelease d op src slot).pointed x := by
  simp [Part.joinRelease]

@[simp] theorem Part.beginRelease_pointed (d : Door) (src : ReleaseSource) (slot : Option Slot) :
    (p.pointed x).beginRelease d src slot = (p.beginRelease d src slot).pointed x := by
  unfold Part.beginRelease
  by_cases inner : src = .inner <;> simp [inner]

@[simp] theorem Part.releaseRequest_pointed (d : Door) (src : ReleaseSource) (slot : Option Slot) :
    (p.pointed x).releaseRequest d src slot = (p.releaseRequest d src slot).pointed x := by
  unfold Part.releaseRequest
  simp only [Part.pointed_records]
  cases slot <;> cases p.latch d <;> simp

/-! ### Door locks -/

@[simp] theorem Part.lockAction_pointed (src : LockSource) (a : LockAction) (who : PerDoor Bool) :
    (p.pointed x).lockAction src a who = (p.lockAction src a who).pointed x := by
  have taken : (p.pointed x).takeLock src a who = (p.takeLock src a who).pointed x := by
    simp [Part.takeLock]
    rfl
  unfold Part.lockAction
  rw [taken]
  simp
  rfl

@[simp] theorem Part.changeChildLocks_pointed (order : Bool) (rl rr : ChildLock) :
    (p.pointed x).changeChildLocks order rl rr = (p.changeChildLocks order rl rr).pointed x := by
  simp [Part.changeChildLocks]
  rfl

/-! ### Windows: orders and the lockout -/

@[simp] theorem Part.lockoutStops_pointed (c : Corner) : (p.pointed x).lockoutStops c = (p.lockoutStops c).pointed x := by
  unfold Part.lockoutStops
  simp only [Part.pointed_records]
  cases (p.window c).pending <;> simp

@[simp] theorem Part.spendIfHeld_pointed (sw : Switch) : (p.pointed x).spendIfHeld sw = (p.spendIfHeld sw).pointed x := by
  simp [Part.spendIfHeld]

@[simp] theorem Part.changeLockout_pointed (order on : Bool) : (p.pointed x).changeLockout order on = (p.changeLockout order on).pointed x := by
  have set : ({ p.pointed x with lockout := on } : Part) = Part.pointed { p with lockout := on } x := rfl
  unfold Part.changeLockout
  rw [set]
  simp

@[simp] theorem Part.moveTo_pointed (k : Slot) (c : Corner) (t : Nat) : (p.pointed x).moveTo k c t = (p.moveTo k c t).pointed x := by
  unfold Part.moveTo
  simp only [Part.pointed_records, Part.pointed_fields, Part.pointed_views]
  cases p.verdict c ((p.window c).aimed p.cfg (targetCommand (.order k) t)) <;> simp [Part.endMoveOrder]

@[simp] theorem Part.moveStop_pointed (k : Slot) (c : Corner) : (p.pointed x).moveStop k c = (p.moveStop k c).pointed x := by
  simp [Part.moveStop, Part.endMoveOrder, Part.tellLost, Part.pendingLost]

@[simp] theorem Part.moveOrder_pointed (k : Slot) (c : Corner) (t : MoveTarget) : (p.pointed x).moveOrder k c t = (p.moveOrder k c t).pointed x := by
  cases t <;> simp [Part.moveOrder]

@[simp] theorem Part.learnOrder_pointed (k : Slot) (c : Corner) : (p.pointed x).learnOrder k c = (p.learnOrder k c).pointed x := by
  simp [Part.learnOrder]

end

end Sys2Proof.Machine
end

section
/-! What an order does is the same wherever the link's pointer stands: searches, fobs, combined operations, the whole order. -/

namespace Sys2Proof.Machine

section
variable (p : Part) (x : BitVec 10)

/-! ### Searches -/

@[simp] theorem Part.trySearch_pointed : (p.pointed x).trySearch = p.trySearch.pointed x := by
  have started : (p.pointed x).startSearch = p.startSearch.pointed x := by
    unfold Part.startSearch
    simp only [Part.pointed_fields]
    cases p.locator.list <;> rfl
  unfold Part.trySearch
  rw [started, Part.pointed_ite]
  rfl

@[simp] theorem Part.searchRequest_pointed (r : Request) (k : Slot) :
    (p.pointed x).searchRequest r (some k) = (p.searchRequest r (some k)).pointed x := by
  unfold Part.searchRequest
  rw [show (p.pointed x).searchFault r = p.searchFault r from rfl]
  cases p.searchFault r <;> simp

/-! ### Fobs -/

@[simp] theorem Part.dismissEntry_pointed (r : StopReason) (c : Corner) : (p.pointed x).dismissEntry r c = (p.dismissEntry r c).pointed x := by
  unfold Part.dismissEntry
  simp only [Part.pointed_views]
  cases p.liveEntry c <;> simp [-Part.pointed_ite, ← Part.pointed_ite]

@[simp] theorem Part.sessionEnd_pointed (f : Fob) : (p.pointed x).sessionEnd f = (p.sessionEnd f).pointed x := by
  have each : (p.pointed x).eachCorner (Part.dismissEntry .switchReleased) = (p.eachCorner (Part.dismissEntry .switchReleased)).pointed x :=
    foldl_pointed (fun q c => q.dismissEntry_pointed x _ c) _ p
  unfold Part.sessionEnd
  simp only [Part.pointed_fields, each]
  cases p.operation <;> simp

@[simp] theorem Part.endTracker_pointed (f : Fob) (cause : HoldCause) : (p.pointed x).endTracker f cause = (p.endTracker f cause).pointed x := by
  unfold Part.endTracker
  simp only [Part.pointed_records]
  cases (p.fob f).tracker <;> simp

@[simp] theorem Part.fobOrderDone_pointed (f : Fob) (k : Slot) (o : OrderOutcome) :
    (p.pointed x).fobOrderDone f k o = (p.fobOrderDone f k o).pointed x := p.orderDone_pointed x ..

@[simp] theorem Part.changeFob_pointed (f : Fob) (k : Slot) (r : FobRec) (row : Row) :
    (p.pointed x).changeFob f k r row = (p.changeFob f k r row).pointed x := by
  unfold Part.changeFob
  simp only [Part.pointed_records]
  cases (p.fob f).waits <;> simp

theorem Part.clearBlock_pointed (f : Fob) : (p.pointed x).clearBlock f = (p.clearBlock f).pointed x := by
  simp only [Part.clearBlock, Part.storeWords, Part.pointed]

@[simp] theorem Part.enrolOrder_pointed (k : Slot) (f : Fob) : (p.pointed x).enrolOrder k f = (p.enrolOrder k f).pointed x := by
  unfold Part.enrolOrder
  rw [Part.clearBlock_pointed, show (p.pointed x).enrolFault f = p.enrolFault f from rfl,
    show (p.pointed x).blockRecord f = p.blockRecord f from rfl, show (p.pointed x).blockWord f 0 = p.blockWord f 0 from rfl]
  cases p.enrolFault f <;> simp

@[simp] theorem Part.dismissOrder_pointed (k : Slot) (f : Fob) : (p.pointed x).dismissOrder k f = (p.dismissOrder k f).pointed x := by
  simp [Part.dismissOrder]

@[simp] theorem Part.suspendOrder_pointed (k : Slot) (f : Fob) (resume : Bool) :
    (p.pointed x).suspendOrder k f resume = (p.suspendOrder k f resume).pointed x := by
  unfold Part.suspendOrder
  simp only [Part.pointed_records]
  cases (p.fob f).keep.state <;> cases resume <;> simp

/-! ### Combined operations -/

@[simp] theorem Part.issue_pointed (k : OpKind) (c : Corner) : (p.pointed x).issue k c = (p.issue k c).pointed x := by
  refine settle_pointed (f := (Part.answer k · c)) p x ?_
  unfold Part.answer
  rw [show (p.pointed x).skipReason c = p.skipReason c from rfl]
  simp only [Part.pointed_records, Part.pointed_fields, Part.pointed_views]
  cases p.skipReason c with
  | some r => simp
  | none => cases p.verdict c ((p.window c).sequenced p.cfg k) <;> simp

@[simp] theorem Part.combinedOrder_pointed (s : Slot) (k : OpKind) : (p.pointed x).combinedOrder s k = (p.combinedOrder s k).pointed x := by
  have begins (q : Part) : (q.pointed x).beginOperation k (.order s) = (q.beginOperation k (.order s)).pointed x := by
    have each (r : Part) : (r.pointed x).eachCorner (Part.issue k) = (r.eachCorner (Part.issue k)).pointed x :=
      foldl_pointed (fun r c => r.issue_pointed x k c) _ r
    unfold Part.beginOperation
    cases k <;> simp [OpKind.lock, each]
  unfold Part.combinedOrder
  rw [show (p.pointed x).operationRefusal k = p.operationRefusal k from rfl]
  cases p.operationRefusal k <;> simp [begins]

/-! ### Crash and configuration -/

@[simp] theorem Part.releaseCrash_pointed (k : Slot) : (p.pointed x).releaseCrash k = (p.releaseCrash k).pointed x := by
  unfold Part.releaseCrash
  rw [show (p.pointed x).crash.latch = p.crash.latch from rfl, show (p.pointed x).crashAsserted = p.crashAsserted from rfl,
    show ({ p.pointed x with crash := { (p.pointed x).crash with latch := none } } : Part) =
      Part.pointed { p with crash := { p.crash with latch := none } } x from rfl]
  generalize ({ p with crash := { p.crash with latch := none } } : Part) = q
  cases p.crash.latch <;> simp [-Part.pointed_ite, ← Part.pointed_ite]

@[simp] theorem Part.judgeThermal_pointed (c : Corner) : (p.pointed x).judgeThermal c = (p.judgeThermal c).pointed x := by
  simp [Part.judgeThermal]

@[simp] theorem Part.adopt_pointed : (p.pointed x).adopt = p.adopt.pointed x := by
  have judged : (p.pointed x).adopted = p.adopted.pointed x :=
    foldl_pointed (fun q c => q.judgeThermal_pointed x c) Corner.all { p with check := .passed, cfg := p.page, supply := { p.supply with candidate := none } }
  rw [Part.adopt_eq, Part.adopt_eq, judged]
  simp

@[simp] theorem Part.reconfigure_pointed (k : Slot) : (p.pointed x).reconfigure k = (p.reconfigure k).pointed x := by
  have marked (n : Nat) : ({ p.pointed x with check := .failed n } : Part) = Part.pointed { p with check := .failed n } x := rfl
  unfold Part.reconfigure
  rw [show (p.pointed x).quiet = p.quiet from rfl, show (p.pointed x).failingCheck = p.failingCheck from rfl]
  cases p.failingCheck with
  | none => simp
  | some n =>
    dsimp only
    rw [marked]
    simp

/-! ### Taking an order -/

@[simp] theorem Part.lockDoorsOrder_pointed (k : Slot) (a : LockAction) (who : PerDoor Bool) :
    (p.pointed x).lockDoorsOrder k a who = (p.lockDoorsOrder k a who).pointed x := by
  unfold Part.lockDoorsOrder
  rw [show (p.pointed x).lockRefused a = p.lockRefused a from rfl, show (p.pointed x).lockChanges a who = p.lockChanges a who from rfl]
  simp

@[simp] theorem Part.lockoutOrder_pointed (k : Slot) (on : Bool) : (p.pointed x).lockoutOrder k on = (p.lockoutOrder k on).pointed x := by
  simp [Part.lockoutOrder, -Part.pointed_ite, ← Part.pointed_ite]

@[simp] theorem Part.serveOrder_pointed (k : Slot) (o : Order) : (p.pointed x).serveOrder k o = (p.serveOrder k o).pointed x := by
  cases o <;> simp [Part.serveOrder, Part.childLockOrder, Part.releaseOrder, Part.locateOrder]

set_option Elab.async false in -- the declarations above are finished first: this bounds the memory of the one text
@[simp] theorem Part.takeOrder_pointed (k : Slot) : (p.pointed x).takeOrder k = (p.takeOrder k).pointed x := by
  unfold Part.takeOrder
  rw [show (p.pointed x).head k = p.head k from rfl]
  cases kindOf (p.head k).kind with
  | none => simp
  | some kind =>
    dsimp only
    rw [show (p.pointed x).orderSound k kind = p.orderSound k kind from rfl, show (p.pointed x).inSafeHold = p.inSafeHold from rfl,
      show (p.pointed x).inService = p.inService from rfl, show (p.pointed x).readOrder k kind = p.readOrder k kind from rfl]
    cases p.readOrder k kind <;> simp

end

end Sys2Proof.Machine
end

section
/-! DOZE entered, its listen windows, and what every wake leaves (R203, R204). -/

namespace Sys2Proof.Machine

/-! ### DOZE entered -/

/-- The part as DOZE is entered, before the dwell stops. -/
def Part.dozing (p : Part) : Part := (p.eachCorner Part.endWatch).setState .doze

theorem Part.endWatch_monitor (p : Part) (c y : Corner) :
    (p.endWatch c).monitor y = if y = c then { p.monitor c with watch := none } else p.monitor y := p.setMonitor_monitor c y _

theorem Part.dozing_monitor (p : Part) (c : Corner) : p.dozing.monitor c = { p.monitor c with watch := none } := by
  show (p.eachCorner Part.endWatch).monitor c = _
  simp only [Part.eachCorner, Corner.all, List.foldl_cons, List.foldl_nil, Part.endWatch_monitor]
  cases c <;> rfl

theorem Part.dozing_does (p : Part) : Part.Does [.state, .monitors] p p.dozing :=
  .after (Part.setState_does _ fun _ => by decide) (.mono (p.eachCorner_does fun q c => q.endWatch_does c))

theorem completes_dozeEntry {s : State} (service : s.part.state = .service) (expires : due s.part.dwell s.part.clock = true)
    (rests : s.part.mayDoze = true) : Completes .dozeDwellExpiry s fun p => p.state = .doze ∧ p.dwell = none ∧
      p.listen = some ⟨s.part.cfg.receiverPeriod, s.part.clock, none⟩ ∧ p.lfDrivers = false ∧
      p.doors = s.part.doors ∧ p.windows = s.part.windows ∧ p.fobs = s.part.fobs ∧ p.store = s.part.store ∧
      (∀ c, p.monitor c = { s.part.monitor c with watch := none }) ∧ (s.part.tidy → s.part.addsRow p dozeEnteredRow) := by
  have e : s.part.dwellExpiry = { s.part.dozing.appendRow dozeEnteredRow with
      dwell := none
      listen := some ⟨s.part.cfg.receiverPeriod, s.part.clock, none⟩ } := by
    rw [Part.dwellExpiry, if_pos (by simp [Part.inService, service, expires]), if_pos rests]
    rfl
  have dozing := s.part.dozing_does
  have dozes := dozing.toWithin
  have row := (s.part.dozing.appendRow_does dozeEnteredRow).toWithin
  have ends : Part.Within [.dwell, .listen] (s.part.dozing.appendRow dozeEnteredRow) s.part.dwellExpiry := by
    rw [e]
    exact (Part.dwell_does _ none).toWithin.trans (Part.listen_does _ _).toWithin (by decide) (by decide)
  have final := (dozes.trans row (M := .state :: .monitors :: rowAreas) (by decide) (by decide)).trans ends
    (M := .state :: .monitors :: .dwell :: .listen :: rowAreas) (by decide) (by decide)
  have state : s.part.dwellExpiry.state = .doze := (ends.state (by decide)).trans (row.state (by decide))
  refine (completes_run (f := (·.dwellExpiry)) rfl).2 ⟨state, by rw [e], by rw [e], ?_, final.doors (by decide), final.windows (by decide),
    final.begun (by decide), final.store (by decide), fun c => ?_, fun tidy => ?_⟩
  · simp [Part.lfDrivers, state]
  · rw [ends.monitor c, row.monitor c, Part.dozing_monitor]
  · exact Part.addsRow_of_same (dozes.served (by decide)) (dozes.scroll (by decide)) dozes.clock (dozes.rows (by decide))
      (Part.addsRow_stands (Part.appendRow_addsRow (dozing.tidyLaw tidy) _) ends)

theorem exec_dozeDwell {s : State} (service : s.part.state = .service) (expires : due s.part.dwell s.part.clock = true)
    (moves : s.part.mayDoze = false) : exec .dozeDwellExpiry s =
      .next { s with part := { s.part with dwell := some (s.part.clock + s.part.cfg.dozeDwell) } } := by
  have e : s.part.dwellExpiry = s.part.startDwell := by
    rw [Part.dwellExpiry, if_pos (by simp [Part.inService, service, expires]), if_neg (by simp [moves])]
  exact exec_part (f := (·.dwellExpiry)) rfl e

theorem exec_listenWindow {s : State} {l : Listen} (listens : s.part.listen = some l) (opens : l.next ≤ s.part.clock) :
    exec .listenWindow s = .next { s with part := { s.part with
      listen := some { l with next := l.next + max 1 l.period, openUntil := some (s.part.clock + 5) } } } := by
  have e : s.part.listenWindow = { s.part with
      listen := some { l with next := l.next + max 1 l.period, openUntil := some (s.part.clock + 5) } } := by
    rw [Part.listenWindow, listens]
    exact if_pos opens
  exact exec_part (f := (·.listenWindow)) rfl e

/-! ### What every wake leaves -/

/-- SERVICE, no wake under way, the doze dwell running. -/
structure Part.Awake (p : Part) : Prop where
  state : p.state = .service
  waking : p.waking = none
  listen : p.listen = none
  dwell : p.dwell.isSome = true

theorem Part.Awake.after {K : List Area} {p q : Part} (h : p.Awake) (w : Part.Within K p q) (h1 : .state ∉ K := by decide)
    (h2 : .waking ∉ K := by decide) (h3 : .listen ∉ K := by decide) (h4 : .dwell ∉ K := by decide) : q.Awake :=
  ⟨(w.state h1).trans h.state, (w.waking h2).trans h.waking, (w.listen h3).trans h.listen, by rw [w.dwell h4]; exact h.dwell⟩

theorem Part.Awake.activity {p : Part} (h : p.Awake) : p.activity.Awake := by
  have e : p.activity = p.startDwell := if_pos (by simp [Part.inService, h.state])
  rw [e]
  exact ⟨h.state, h.waking, h.listen, rfl⟩

/-- What a wake serves leaves the part awake. -/
theorem Part.Awake.serveHeld {p : Part} (h : p.Awake) (e : HeldEvent) : (p.serveHeld e).Awake := by
  cases e with
  | input i old new =>
    have served : (settle (·.deliver i old new) p).Awake :=
      h.after (settle_does (M := deliverAreas) (p.deliver_does i old new)).toWithin
    show (if routed i new then _ else _ : Part).Awake
    split
    · exact served.activity
    · exact served
  | frame fr t => exact (h.after (settle_does (M := fobAreas) (f := (·.serveFrame fr t)) (p.serveFrame_does fr t)).toWithin).activity

/-- The part as it wakes: the WOKE row, the dwell, the switches marked spent but those with a held change. -/
def Part.woken (p : Part) (w : Waking) : Part :=
  let q := { p with state := .service, waking := none, listen := none }
  (q.appendRow (wokeRow p.driverDoor w.cause)).startDwell.spendHeld (w.held.filterMap HeldEvent.input?)

theorem Part.woken_awake (p : Part) (w : Waking) : (p.woken w).Awake := by
  have row := (Part.appendRow_does { p with state := .service, waking := none, listen := none } (wokeRow p.driverDoor w.cause)).toWithin
  have spent := (Part.spendHeld_does (({ p with state := .service, waking := none, listen := none } : Part).appendRow
    (wokeRow p.driverDoor w.cause)).startDwell (w.held.filterMap HeldEvent.input?)).toWithin
  refine Part.Awake.after (K := [.spent]) ⟨?_, ?_, ?_, rfl⟩ spent
  · exact row.state (by decide)
  · exact row.waking (by decide)
  · exact row.listen (by decide)

/-- The crash event held, and the events held. -/
def Part.served (p : Part) (w : Waking) : Part :=
  w.held.foldl Part.serveHeld (if w.crashHeld then settle Part.crashEvent p else p)

/-- A wake, step by step. -/
theorem Part.wake_eq {p : Part} {w : Waking} (doze : p.state = .doze) (wakes : p.waking = some w) :
    p.wake = if w.resetHeld then ((p.woken w).served w).takePosted.portReset else ((p.woken w).served w).takePosted := by
  unfold Part.wake
  rw [doze, wakes]
  rfl

theorem Part.Awake.foldl {p : Part} (h : p.Awake) : ∀ l : List HeldEvent, (l.foldl Part.serveHeld p).Awake
  | [] => h
  | e :: l => (h.serveHeld e).foldl l

theorem Part.served_awake (p : Part) (w : Waking) : ((p.woken w).served w).takePosted.Awake := by
  have woken := p.woken_awake w
  have crashed : (if w.crashHeld then settle Part.crashEvent (p.woken w) else p.woken w).Awake := by
    split
    · have crashed := woken.after (Part.crashEvent_does _ (by rw [woken.state]; nofun)).toWithin
      exact crashed.after (settle_grants Part.crashEvent _).toWithin
    · exact woken
  exact (crashed.foldl w.held).after (Part.takePosted_does _).toWithin

theorem Part.portReset_sleeps (p : Part) : p.portReset.state = .start .short .drivers ∧ p.portReset.waking = none ∧
    p.portReset.listen = none := by
  have grants := (settle_grants Part.portResetBlocks p).toWithin
  exact ⟨grants.state (by decide), grants.waking (by decide), grants.listen (by decide)⟩

set_option Elab.async false in -- the declarations above are finished first: this bounds the memory of the one text
theorem completes_woke {s : State} {w : Waking} (doze : s.part.state = .doze) (wakes : s.part.waking = some w) :
    Completes .woke s fun p => p.waking = none ∧ p.listen = none ∧
      p.state = (if w.resetHeld then .start .short .drivers else .service) ∧ (w.resetHeld = false → p.dwell.isSome = true) ∧
      p.driverDoor = s.part.driverDoor := by
  have awake := s.part.served_awake w
  have driver := s.part.wake_does.toWithin.driver
  rw [Part.wake_eq doze wakes] at driver
  refine (completes_run (f := (·.wake)) rfl).2 ?_
  rw [Part.wake_eq doze wakes]
  by_cases reset : w.resetHeld = true
  · rw [if_pos reset] at driver ⊢
    obtain ⟨state, waking, listen⟩ := Part.portReset_sleeps ((s.part.woken w).served w).takePosted
    exact ⟨waking, listen, state.trans (if_pos reset).symm, fun h => absurd (reset.symm.trans h) nofun, driver⟩
  · rw [if_neg reset] at driver ⊢
    exact ⟨awake.waking, awake.listen, awake.state.trans (if_neg reset).symm, fun _ => awake.dwell, driver⟩

end Sys2Proof.Machine
end

section
/-! A wake with nothing held and no order POSTED (R204, R52, R170). -/

namespace Sys2Proof.Machine

/-! ### What the steps of a wake leave, whole -/

theorem Part.appendRow_form (p : Part) (r : Row) :
    ∃ sc m, p.appendRow r = { p with scroll := sc, port := { p.port with memory := m } } := by
  by_cases room : p.port.served && decide (p.scroll.unread < 128)
  · exact ⟨_, _, if_pos room⟩
  · exact ⟨_, p.port.memory, if_neg room⟩

/-- One switch as SERVICE is entered (R52). -/
def spendStep (but : List Input) (q : Part) (sw : Switch) : Part :=
  if decide ((q.input (.switch sw)).level = .rest) || but.contains (.switch sw) then q else markSpent q sw true

theorem Part.spendHeld_eq (p : Part) (but : List Input) : p.spendHeld but = Switch.all.foldl (spendStep but) p := rfl

theorem spendStep_form (but : List Input) (p : Part) (sw : Switch) : spendStep but p sw = { p with spent := (spendStep but p sw).spent } := by
  unfold spendStep
  split <;> rfl

theorem spendStep_spent (but : List Input) (p : Part) (sw y : Switch) : (spendStep but p sw).spent.get y =
    if y = sw ∧ (p.input (.switch sw)).level ≠ .rest ∧ .switch sw ∉ but then true else p.spent.get y := by
  unfold spendStep
  by_cases moved : (p.input (.switch sw)).level ≠ .rest ∧ .switch sw ∉ but
  · rw [if_neg (by simp [moved])]
    show (p.spent.set sw true).get y = _
    rw [PerSwitch.get_set]
    by_cases same : y = sw
    · rw [if_pos same, if_pos ⟨same, moved⟩]
    · rw [if_neg same, if_neg fun h => same h.1]
  · rw [if_pos (by simp only [Bool.or_eq_true, decide_eq_true_eq, List.contains_iff_mem]; tauto), if_neg fun h => moved h.2]

theorem foldl_spendStep (but : List Input) : ∀ (l : List Switch) (p : Part),
    l.foldl (spendStep but) p = { p with spent := (l.foldl (spendStep but) p).spent } ∧
      ∀ y, (l.foldl (spendStep but) p).spent.get y =
        if y ∈ l ∧ (p.input (.switch y)).level ≠ .rest ∧ .switch y ∉ but then true else p.spent.get y
  | [], _ => ⟨rfl, fun _ => (if_neg fun h => nomatch h.1).symm⟩
  | sw :: l, p => by
    obtain ⟨form, spent⟩ := foldl_spendStep but l (spendStep but p sw)
    have first := spendStep_form but p sw
    have input (i : Input) : (spendStep but p sw).input i = p.input i := by rw [first]; rfl
    rw [List.foldl_cons]
    refine ⟨?_, fun y => ?_⟩
    · rw [form]
      rw [first]
    · rw [spent, input, spendStep_spent]
      clear form first
      by_cases later : y ∈ l <;> by_cases moved : (p.input (.switch y)).level ≠ .rest ∧ .switch y ∉ but <;>
        by_cases same : y = sw <;> simp_all

theorem Switch.mem_all (sw : Switch) : sw ∈ Switch.all := by
  rcases sw with c | c <;> cases c <;> decide

theorem Part.spendHeld_form (p : Part) (but : List Input) : p.spendHeld but = { p with spent := (p.spendHeld but).spent } :=
  (foldl_spendStep but Switch.all p).1

/-- The switches marked spent: those away from NEUTRAL but for the ones left out (R52). -/
theorem Part.spendHeld_spent (p : Part) (but : List Input) (sw : Switch) : (p.spendHeld but).spent.get sw =
    (p.spent.get sw || decide ((p.input (.switch sw)).level ≠ .rest) && decide (.switch sw ∉ but)) := by
  refine ((foldl_spendStep but Switch.all p).2 sw).trans ?_
  simp only [Switch.mem_all, true_and]
  by_cases moved : (p.input (.switch sw)).level ≠ .rest ∧ .switch sw ∉ but
  · rw [if_pos moved, decide_eq_true moved.1, decide_eq_true moved.2]
    simp
  · rw [if_neg moved]
    rcases not_and_or.1 moved with h | h <;> simp [h]

/-- The part as it wakes, whole. -/
theorem Part.woken_form (p : Part) (w : Waking) : p.woken w = { p with
    state := .service
    waking := none
    listen := none
    dwell := some (p.clock + p.cfg.dozeDwell)
    spent := (p.woken w).spent
    scroll := (p.woken w).scroll
    port := { p.port with memory := (p.woken w).port.memory } } := by
  obtain ⟨sc, m, row⟩ := Part.appendRow_form { p with state := .service, waking := none, listen := none } (wokeRow p.driverDoor w.cause)
  have spent := Part.spendHeld_form (({ p with state := .service, waking := none, listen := none } : Part).appendRow
    (wokeRow p.driverDoor w.cause)).startDwell (w.held.filterMap HeldEvent.input?)
  have woken : p.woken w = { (({ p with state := .service, waking := none, listen := none } : Part).appendRow
    (wokeRow p.driverDoor w.cause)).startDwell with spent := (p.woken w).spent } := spent
  rw [row] at woken
  generalize (p.woken w).spent = sp at woken
  rw [woken]
  rfl

end Sys2Proof.Machine
end

section
/-! A wake with nothing held: the WOKE row alone, or the crash event held (R204, R167, R170). -/

namespace Sys2Proof.Machine

theorem Part.woken_heads (p : Part) (w : Waking) : (p.woken w).heads = p.heads := by rw [p.woken_form w]

/-- Between events: what a wake has served posts no order, so none is left to take. -/
theorem Part.AddsNone.takePosted {p q : Part} (h : Part.AddsNone p q) (bare : ∀ k, (p.head k).state ≠ .posted) : q.takePosted = q :=
  Part.takePosted_none fun k hk => bare k (h.posts k hk)

theorem Part.woken_addsNone (p : Part) (w : Waking) : Part.AddsNone p (p.woken w) := by
  have marks : (p.woken w).port.parity = p.port.parity := by rw [p.woken_form w]
  exact .same marks (p.woken_heads w)

/-- A wake with nothing held but what its crash event is. -/
theorem Part.wake_bare {p : Part} {w : Waking} (doze : p.state = .doze) (wakes : p.waking = some w) (held : w.held = [])
    (reset : w.resetHeld = false) (bare : ∀ k, (p.head k).state ≠ .posted) :
    p.wake = if w.crashHeld then settle Part.crashEvent (p.woken w) else p.woken w := by
  have served : (p.woken w).served w = if w.crashHeld then settle Part.crashEvent (p.woken w) else p.woken w := by
    rw [Part.served, held]
    rfl
  have added : Part.AddsNone p ((p.woken w).served w) := by
    rw [served]
    exact .ite (fun _ => .after (settle_addsNone (Part.crashEvent_addsNone _)) (p.woken_addsNone w)) fun _ => p.woken_addsNone w
  rw [Part.wake_eq doze wakes, if_neg (by simp [reset]), added.takePosted bare, served]

theorem Part.wake_calm {p : Part} {w : Waking} (doze : p.state = .doze) (wakes : p.waking = some w) (held : w.held = [])
    (reset : w.resetHeld = false) (crash : w.crashHeld = false) (bare : ∀ k, (p.head k).state ≠ .posted) : p.wake = p.woken w := by
  rw [Part.wake_bare doze wakes held reset bare, if_neg (by simp [crash])]

theorem completes_wokeCrash {s : State} {w : Waking} (doze : s.part.state = .doze) (wakes : s.part.waking = some w) (held : w.held = [])
    (reset : w.resetHeld = false) (bare : ∀ k, (s.part.head k).state ≠ .posted) (crash : w.crashHeld = true) :
    Completes .woke s fun p => (∀ d, (p.door d).lock = .unlocked) ∧ p.crash.latch = some s.part.nextLatch := by
  have form := s.part.woken_form w
  obtain ⟨doors, -⟩ := (s.part.woken w).crashEvent_doors
  have work := (s.part.woken w).crashEvent_within
  have grants := (settle_grants Part.crashEvent (s.part.woken w)).toWithin
  refine (completes_run (f := (·.wake)) rfl).2 ?_
  rw [Part.wake_bare doze wakes held reset bare, if_pos crash]
  refine ⟨fun d => ?_, ?_⟩
  · rw [grants.door d (by decide), doors d]
  · rw [grants.crash (by decide), work.crash (by decide)]
    show some (s.part.woken w).nextLatch = _
    rw [form]
    rfl

theorem Part.woken_addsRow {p : Part} (tidy : p.tidy) (w : Waking) : p.addsRow (p.woken w) (wokeRow p.driverDoor w.cause) := by
  have row := Part.appendRow_addsRow (p := { p with state := .service, waking := none, listen := none }) tidy (wokeRow p.driverDoor w.cause)
  have dwell := (Part.startDwell_does (({ p with state := .service, waking := none, listen := none } : Part).appendRow
    (wokeRow p.driverDoor w.cause))).toWithin
  have spent := (Part.spendHeld_does (({ p with state := .service, waking := none, listen := none } : Part).appendRow
    (wokeRow p.driverDoor w.cause)).startDwell (w.held.filterMap HeldEvent.input?)).toWithin
  exact Part.addsRow_of_same rfl rfl rfl (fun _ _ _ => rfl) (Part.addsRow_stands (Part.addsRow_stands row dwell) spent)

theorem Part.woken_spent (p : Part) (w : Waking) (sw : Switch) : (p.woken w).spent.get sw =
    (p.spent.get sw || decide ((p.input (.switch sw)).level ≠ .rest) && decide (.switch sw ∉ w.held.filterMap HeldEvent.input?)) := by
  have row := (Part.appendRow_does { p with state := .service, waking := none, listen := none } (wokeRow p.driverDoor w.cause)).toWithin
  refine (Part.spendHeld_spent _ _ sw).trans ?_
  have spent := row.spent (by decide)
  have inputs := row.inputs (by decide)
  generalize (({ p with state := .service, waking := none, listen := none } : Part).appendRow (wokeRow p.driverDoor w.cause)) = q
    at spent inputs ⊢
  show (q.spent.get sw || decide ((q.inputs.get (.switch sw)).level ≠ .rest) && _) = _
  rw [spent, inputs]
  rfl

theorem completes_wokeAlone {s : State} {w : Waking} (doze : s.part.state = .doze) (wakes : s.part.waking = some w) (held : w.held = [])
    (reset : w.resetHeld = false) (bare : ∀ k, (s.part.head k).state ≠ .posted) (tidy : s.part.tidy) (crash : w.crashHeld = false) :
    Completes .woke s fun p => s.part.addsRow p (wokeRow s.part.driverDoor w.cause) ∧
      p.dwell = some (s.part.clock + s.part.cfg.dozeDwell) ∧
      (∀ sw, p.spent.get sw = (s.part.spent.get sw || decide ((s.part.input (.switch sw)).level ≠ .rest))) ∧
      p = { s.part with
        state := .service
        waking := none
        listen := none
        dwell := p.dwell
        spent := p.spent
        scroll := p.scroll
        port := { s.part.port with memory := p.port.memory } } := by
  have form := s.part.woken_form w
  have dwell : (s.part.woken w).dwell = some (s.part.clock + s.part.cfg.dozeDwell) := by rw [form]
  refine (completes_run (f := (·.wake)) rfl).2 ?_
  rw [Part.wake_calm doze wakes held reset crash bare]
  refine ⟨s.part.woken_addsRow tidy w, dwell, fun sw => ?_, ?_⟩
  · rw [Part.woken_spent, held]
    simp
  · rw [dwell]
    exact form

end Sys2Proof.Machine
end

section
/-! What the part holds while it wakes: input events (R180) and frames (R147). -/

namespace Sys2Proof.Machine

/-- The same command taken before WOKE or right after it. -/
def ServedAfterWoke (s : State) (e : Instr) : Prop := ∃ t u v : State,
  exec e s = .next t ∧ exec .woke t = .next u ∧ exec .woke s = .next v ∧ exec e v = .next u

theorem servedAfterWoke_of {s : State} {e : Instr} {f : Part → Part} (acts : ∀ s', exec e s' = s'.run f)
    (same : (f s.part).wake = f s.part.wake) : ServedAfterWoke s e :=
  ⟨{ s with part := f s.part }, { s with part := (f s.part).wake }, { s with part := s.part.wake }, acts s, rfl, rfl, by
    rw [acts, same]
    rfl⟩

theorem exec_inputCommand {i : Input} {l : Level} {e : Instr} (h : inputCommand i l = some e) (s : State) :
    exec e s = s.run (·.debounced i l) := by
  cases i <;> cases l <;> cases h <;> rfl

theorem PerSwitch.ext_get {α : Type} {v w : PerSwitch α} (h : ∀ a, v.get a = w.get a) : v = w := by
  obtain ⟨master, door⟩ := v
  obtain ⟨master', door'⟩ := w
  have masters : master = master' := PerCorner.ext_get fun c => h (.master c)
  have doors : door = door' := PerCorner.ext_get fun c => h (.door c)
  rw [masters, doors]

/-- A wake with one event held and nothing else. -/
theorem Part.wake_one {p : Part} {w : Waking} {e : HeldEvent} (doze : p.state = .doze) (wakes : p.waking = some w) (held : w.held = [e])
    (reset : w.resetHeld = false) (crash : w.crashHeld = false) (bare : ∀ k, (p.head k).state ≠ .posted) :
    p.wake = (p.woken w).serveHeld e := by
  have served : (p.woken w).served w = (p.woken w).serveHeld e := by
    rw [Part.served, held, if_neg (by simp [crash])]
    rfl
  have added : Part.AddsNone p ((p.woken w).served w) := by
    rw [served]
    refine .after ?_ (p.woken_addsNone w)
    cases e with
    | input i old new => exact Part.serviceEvent_addsNone _ i old new
    | frame fr t => exact .after (Part.activity_addsNone _) (settle_addsNone (f := (·.serveFrame fr t)) (Part.serveFrame_addsNone _ fr t))
  rw [Part.wake_eq doze wakes, if_neg (by simp [reset]), added.takePosted bare, served]

/-! ### Input events -/

/-- The row handed over depends on the scroll, the stored words and the time alone (R193). -/
theorem Part.appendRow_same {p q : Part} (scroll : q.scroll = p.scroll) (memory : q.port.memory = p.port.memory)
    (served : q.port.served = p.port.served) (clock : q.clock = p.clock) (r : Row) :
    (q.appendRow r).scroll = (p.appendRow r).scroll ∧ (q.appendRow r).port.memory = (p.appendRow r).port.memory := by
  unfold Part.appendRow
  rw [scroll, served]
  split
  · simp only [Part.writeRow, Part.storeWords, scroll, memory, clock, and_self]
  · exact ⟨rfl, memory⟩

theorem Part.woken_row (p : Part) (w : Waking) :
    (p.woken w).scroll = (p.appendRow (wokeRow p.driverDoor w.cause)).scroll ∧
      (p.woken w).port.memory = (p.appendRow (wokeRow p.driverDoor w.cause)).port.memory := by
  have same := Part.appendRow_same (p := p) (q := { p with state := .service, waking := none, listen := none }) rfl rfl rfl rfl
    (wokeRow p.driverDoor w.cause)
  have woken : p.woken w = ((({ p with state := .service, waking := none, listen := none } : Part).appendRow
    (wokeRow p.driverDoor w.cause)).startDwell).spendHeld (w.held.filterMap HeldEvent.input?) := rfl
  rw [woken]
  generalize ({ p with state := .service, waking := none, listen := none } : Part).appendRow (wokeRow p.driverDoor w.cause) = q at same ⊢
  have spent := (q.startDwell.spendHeld_does (w.held.filterMap HeldEvent.input?)).toWithin
  exact ⟨(spent.scroll (by decide)).trans same.1, (spent.memory (by decide)).trans same.2⟩

/-- A wake's rows, dwell and spent switches are the same whether a held change has moved its level or not. -/
theorem Part.woken_heard {p : Part} {w : Waking} {i : Input} {l old : Level} (held : w.held = [])
    (rest : ∀ sw, i = .switch sw → (p.input i).level = .rest) (x : Option Waking) :
    Part.woken { p.heard i l with waking := x } { w with held := [.input i old l] } = (p.woken w).heard i l := by
  have spent : (Part.woken { p.heard i l with waking := x } { w with held := [.input i old l] }).spent = (p.woken w).spent := by
    refine PerSwitch.ext_get fun sw => ?_
    rw [Part.woken_spent, Part.woken_spent, held]
    show (p.spent.get sw || decide (((p.heard i l).input (.switch sw)).level ≠ .rest) && decide (.switch sw ∉ [i])) = _
    by_cases same : Input.switch sw = i
    · subst same
      simp [rest sw rfl]
    · simp [Part.heard_input, same]
  obtain ⟨scroll, memory⟩ := Part.woken_row { p.heard i l with waking := x } { w with held := [.input i old l] }
  obtain ⟨scroll', memory'⟩ := p.woken_row w
  obtain ⟨rows, words⟩ := Part.appendRow_same (p := p) (q := { p.heard i l with waking := x }) rfl rfl rfl rfl (wokeRow p.driverDoor w.cause)
  have left := Part.woken_form { p.heard i l with waking := x } { w with held := [.input i old l] }
  have right := p.woken_form w
  have scrolls := scroll.trans (rows.trans scroll'.symm)
  have memories := memory.trans (words.trans memory'.symm)
  clear scroll memory rows words scroll' memory'
  generalize Part.woken { p.heard i l with waking := x } { w with held := [.input i old l] } = a at left spent scrolls memories ⊢
  rw [spent, scrolls, memories] at left
  generalize (p.woken w).spent = sp at left right
  generalize (p.woken w).scroll = sc at left right
  generalize (p.woken w).port.memory = m at left right
  rw [left, right]
  rfl

theorem Part.holdEvent_first {p : Part} {w : Waking} (wakes : p.waking = some w) (held : w.held = []) (e : HeldEvent) :
    p.holdEvent e = { p with waking := some { w with held := [e] } } := by
  rw [Part.holdEvent, wakes, Option.map_some, held]
  rfl

/-- While the part wakes an input's event is held (R180). -/
theorem Part.takeEvent_holds {p : Part} {w : Waking} (doze : p.state = .doze) (wakes : p.waking = some w) (held : w.held = []) (i : Input)
    (old new : Level) : p.takeEvent i old new = { p with waking := some { w with held := [.input i old new] } } := by
  have holds : p.dozeEvent i old new = { p with waking := some { w with held := [.input i old new] } } := by
    unfold Part.dozeEvent
    exact (if_pos (by rw [wakes]; rfl)).trans (Part.holdEvent_first wakes held _)
  have still : settle (·.dozeEvent i old new) p = p.dozeEvent i old new :=
    settle_same (f := (·.dozeEvent i old new)) (by rw [holds]) (by rw [holds]) (by rw [holds]; rfl)
  have dozes : p.takeEvent i old new = settle (·.dozeEvent i old new) p := by rw [Part.takeEvent, doze]
  exact dozes.trans (still.trans holds)

theorem Part.takeEvent_serves {p : Part} (service : p.state = .service) (i : Input) (old new : Level) :
    p.takeEvent i old new = p.serviceEvent i old new := by
  rw [Part.takeEvent, service]

/-- An input event held is served as though it came right after WOKE (R180). -/
theorem servedAfterWoke_input {s : State} {w : Waking} (doze : s.part.state = .doze) (wakes : s.part.waking = some w) (held : w.held = [])
    (reset : w.resetHeld = false) (bare : ∀ k, (s.part.head k).state ≠ .posted) (crash : w.crashHeld = false) {i : Input} {l : Level}
    {e : Instr} (command : inputCommand i l = some e) (settled : s.part.settledLevel i l = true) (muted : s.part.muted i = false)
    (rest : (∃ sw, i = .switch sw) → (s.part.input i).level = .rest) : ServedAfterWoke s e := by
  refine servedAfterWoke_of (exec_inputCommand command) ?_
  obtain ⟨stuck, sound⟩ := Bool.or_eq_false_iff.1 muted
  have moves : l ≠ (s.part.input i).level := by
    simp only [Part.settledLevel, Bool.and_eq_true, decide_eq_true_eq] at settled
    exact settled.1.2
  have away : ∀ sw, i = .switch sw → l ≠ .rest := fun sw h => by rw [← rest ⟨sw, h⟩]; exact moves
  have form := s.part.woken_form w
  have inputs : (s.part.woken w).inputs = s.part.inputs := by rw [form]
  have first : s.part.debounced i l = { s.part.heard i l with waking := some { w with held := [.input i (s.part.input i).level l] } } := by
    rw [Part.debounced_eq settled stuck sound away]
    exact Part.takeEvent_holds (p := s.part.heard i l) doze wakes held i _ l
  have second : (s.part.woken w).debounced i l = ((s.part.woken w).heard i l).serviceEvent i (s.part.input i).level l := by
    have input : (s.part.woken w).input i = s.part.input i := congrArg (·.get i) inputs
    have clock : (s.part.woken w).clock = s.part.clock := by rw [form]
    have degraded : (s.part.woken w).degraded = s.part.degraded := by rw [form]
    have state : ((s.part.woken w).heard i l).state = .service :=
      ((Part.heard_does _ i l).state (by decide)).trans (s.part.woken_awake w).state
    rw [Part.debounced_eq (by rw [Part.settledLevel, input, clock]; exact settled) (by rw [input]; exact stuck)
      (by rw [degraded]; exact sound) away, Part.takeEvent_serves state, input]
  have alone := Part.wake_one (p := { s.part.heard i l with waking := some { w with held := [.input i (s.part.input i).level l] } })
    (w := { w with held := [.input i (s.part.input i).level l] }) doze rfl rfl reset crash bare
  rw [Part.wake_calm doze wakes held reset crash bare, second, first, alone, Part.woken_heard held (fun sw h => rest ⟨sw, h⟩)]
  rfl

/-! ### Frames -/

/-- A wake that holds a frame begins as one that holds nothing. -/
theorem Part.woken_frame (p : Part) {w : Waking} (held : w.held = []) (x : Option Waking) (fr : Frame) (t : Nat) :
    Part.woken { p with waking := x } { w with held := [.frame fr t] } = p.woken w := by
  simp only [Part.woken, held, List.filterMap_cons, List.filterMap_nil, HeldEvent.input?]

/-- A frame held is served, judged again at the time it was heard, as though it came right after WOKE (R147). -/
theorem servedAfterWoke_frame {s : State} {w : Waking} (doze : s.part.state = .doze) (wakes : s.part.waking = some w) (held : w.held = [])
    (reset : w.resetHeld = false) (bare : ∀ k, (s.part.head k).state ≠ .posted) (crash : w.crashHeld = false) {fr : Frame}
    (keeps : (s.part.frameHeard fr).waking.map (·.held) = some [.frame fr s.part.clock]) : ServedAfterWoke s (.remoteFrame fr) := by
  refine servedAfterWoke_of (f := (·.frameHeard fr)) (fun _ => rfl) ?_
  have first : s.part.degraded.receiver = false ∧
      s.part.frameHeard fr = { s.part with waking := some { w with held := [.frame fr s.part.clock] } } := by
    have none {q : Part} (h : q.waking = some w) : q.waking.map (·.held) ≠ some [.frame fr s.part.clock] := by
      rw [h, Option.map_some, held]
      nofun
    have asks (c : WakeCause) : s.part.requestWake c = s.part := by rw [Part.requestWake, wakes]
    have holds (f : Fob) : (s.part.requestWake (.frame f)).holdEvent (.frame fr s.part.clock) =
        { s.part with waking := some { w with held := [.frame fr s.part.clock] } } := by
      rw [asks, Part.holdEvent_first wakes held]
    have hears {v : FrameVerdict} (judged : s.part.judgeFrame fr s.part.clock = v) (h : v ≠ .ignored) : s.part.degraded.receiver = false := by
      by_contra bad
      exact h (judged.symm.trans (if_pos (by simpa using bad)))
    unfold Part.frameHeard at keeps ⊢
    rw [doze] at keeps ⊢
    dsimp only at keeps ⊢
    split at keeps
    · rename_i opens
      rw [if_pos opens]
      cases judged : s.part.judgeFrame fr s.part.clock with
      | ignored =>
        rw [judged] at keeps
        exact absurd keeps (none wakes)
      | rejected f why =>
        rw [judged] at keeps
        exact absurd keeps (none (((s.part.appendRow_does _).waking (by decide)).trans wakes))
      | candidate f d =>
        rw [judged] at keeps
        have applied : (s.part.applyFrame fr s.part.clock (.candidate f d)).waking = some w :=
          ((Part.appendRow_does _ _).waking (by decide)).trans wakes
        refine absurd keeps (none ?_)
        dsimp only
        rw [Part.requestWake, applied]
        exact applied
      | press f pair => exact ⟨hears judged nofun, holds f⟩
      | continuation f => exact ⟨hears judged nofun, holds f⟩
    · exact absurd keeps (none wakes)
  obtain ⟨receiver, first⟩ := first
  have form := s.part.woken_form w
  have second : (s.part.woken w).frameHeard fr = (settle (·.serveFrame fr s.part.clock) (s.part.woken w)).activity := by
    have state := (s.part.woken_awake w).state
    have clock : (s.part.woken w).clock = s.part.clock := by rw [form]
    have degraded : (s.part.woken w).degraded = s.part.degraded := by rw [form]
    rw [Part.frameHeard_serves fr state (by rw [degraded]; exact receiver), clock]
  have same := s.part.woken_frame held (some { w with held := [.frame fr s.part.clock] }) fr s.part.clock
  have alone := Part.wake_one (p := { s.part with waking := some { w with held := [.frame fr s.part.clock] } })
    (w := { w with held := [.frame fr s.part.clock] }) doze rfl rfl reset crash bare
  rw [Part.wake_calm doze wakes held reset crash bare, second, first, alone, same]
  rfl

end Sys2Proof.Machine
end

section
/-! Stored words in canonical form are what they read as: words written apart are written in any order (log 7). -/

namespace Sys2Proof.Machine

theorem Memory.read_head {lo k : Nat} {v : Byte} {m : Memory} (h : Memory.wfFrom lo ((k, v) :: m) = true) :
    Memory.readByte ((k, v) :: m) k = v ∧ v ≠ 0 ∧ Memory.readByte m k = 0 := by
  obtain ⟨-, nonzero, rest⟩ := Memory.wfFrom_cons.1 h
  exact ⟨if_pos rfl, nonzero, Memory.readByte_below rest (by omega)⟩

/-- The canonical form is one for each content. -/
theorem Memory.ext_byte : ∀ {lo : Nat} {m n : Memory}, Memory.wfFrom lo m = true → Memory.wfFrom lo n = true →
    (∀ a, Memory.readByte m a = Memory.readByte n a) → m = n
  | _, [], [], _, _, _ => rfl
  | _, [], (k, v) :: n, _, hn, same => by
    obtain ⟨read, nonzero, -⟩ := Memory.read_head hn
    exact absurd ((same k).trans read).symm nonzero
  | _, (k, v) :: m, [], hm, _, same => by
    obtain ⟨read, nonzero, -⟩ := Memory.read_head hm
    exact absurd (read.symm.trans (same k)) nonzero
  | lo, (k, v) :: m, (j, u) :: n, hm, hn, same => by
    obtain ⟨read, nonzero, gone⟩ := Memory.read_head hm
    obtain ⟨read', nonzero', gone'⟩ := Memory.read_head hn
    obtain ⟨-, -, rest⟩ := Memory.wfFrom_cons.1 hm
    obtain ⟨-, -, rest'⟩ := Memory.wfFrom_cons.1 hn
    have keys : k = j := by
      rcases Nat.lt_trichotomy k j with below | eq | above
      · have zero : Memory.readByte ((j, u) :: n) k = 0 := by
          rw [Memory.readByte, if_neg (by omega)]
          exact Memory.readByte_below rest' (by omega)
        exact absurd (read.symm.trans ((same k).trans zero)) nonzero
      · exact eq
      · have zero : Memory.readByte ((k, v) :: m) j = 0 := by
          rw [Memory.readByte, if_neg (by omega)]
          exact Memory.readByte_below rest (by omega)
        exact absurd (read'.symm.trans ((same j).symm.trans zero)) nonzero'
    subst keys
    have values : v = u := read.symm.trans ((same k).trans read')
    have tails : m = n := Memory.ext_byte rest rest' fun a => by
      by_cases at_ : a = k
      · rw [at_, gone, gone']
      · have whole := same a
        rw [Memory.readByte, Memory.readByte, if_neg (Ne.symm at_), if_neg (Ne.symm at_)] at whole
        exact whole
    rw [values, tails]

/-- A byte of a stored word. -/
theorem Memory.readByte_word (m : Memory) (i : Nat) : Memory.readByte m (4 * i) = (Memory.readWord m i).extractLsb' 0 8 ∧
    Memory.readByte m (4 * i + 1) = (Memory.readWord m i).extractLsb' 8 8 ∧
    Memory.readByte m (4 * i + 2) = (Memory.readWord m i).extractLsb' 16 8 ∧
    Memory.readByte m (4 * i + 3) = (Memory.readWord m i).extractLsb' 24 8 := by
  unfold Memory.readWord
  generalize Memory.readByte m (4 * i) = a
  generalize Memory.readByte m (4 * i + 1) = b
  generalize Memory.readByte m (4 * i + 2) = c
  generalize Memory.readByte m (4 * i + 3) = d
  refine ⟨?_, ?_, ?_, ?_⟩ <;>
  · refine BitVec.eq_of_getLsbD_eq fun j hj => ?_
    simp only [BitVec.getLsbD_append, BitVec.getLsbD_extractLsb', hj, decide_true, Bool.true_and]
    grind

theorem Memory.ext_word {m n : Memory} (hm : Memory.wf m = true) (hn : Memory.wf n = true)
    (same : ∀ i, Memory.readWord m i = Memory.readWord n i) : m = n := by
  refine Memory.ext_byte hm hn fun a => ?_
  obtain ⟨b0, b1, b2, b3⟩ := Memory.readByte_word m (a / 4)
  obtain ⟨c0, c1, c2, c3⟩ := Memory.readByte_word n (a / 4)
  have split : a = 4 * (a / 4) ∨ a = 4 * (a / 4) + 1 ∨ a = 4 * (a / 4) + 2 ∨ a = 4 * (a / 4) + 3 := by omega
  rcases split with e | e | e | e
  · rw [e, b0, c0, same]
  · rw [e, b1, c1, same]
  · rw [e, b2, c2, same]
  · rw [e, b3, c3, same]

/-- Two runs of words apart from each other, in either order. -/
theorem Memory.writeWords_comm {m : Memory} (wf : Memory.wf m = true) (a b : Nat) (ws vs : List Word) (apart : a + ws.length ≤ b) :
    Memory.writeWords (Memory.writeWords m a ws) b vs = Memory.writeWords (Memory.writeWords m b vs) a ws := by
  have wfa := Memory.wf_writeWords ws wf a
  have wfb := Memory.wf_writeWords vs wf b
  refine Memory.ext_word (Memory.wf_writeWords vs wfa b) (Memory.wf_writeWords ws wfb a) fun i => ?_
  by_cases first : a ≤ i ∧ i < a + ws.length
  · have at_ : i = a + (i - a) := by omega
    rw [Memory.readWord_writeWords_ne vs _ _ (by omega), at_]
    exact Option.some.inj ((Memory.readWord_writeWords ws wf a (i - a) (by omega)).trans
      (Memory.readWord_writeWords ws wfb a (i - a) (by omega)).symm)
  · rw [Memory.readWord_writeWords_ne ws _ _ (by omega)]
    by_cases second : b ≤ i ∧ i < b + vs.length
    · have at_ : i = b + (i - b) := by omega
      rw [at_]
      exact Option.some.inj ((Memory.readWord_writeWords vs wfa b (i - b) (by omega)).trans
        (Memory.readWord_writeWords vs wf b (i - b) (by omega)).symm)
    · rw [Memory.readWord_writeWords_ne vs _ _ (by omega), Memory.readWord_writeWords_ne vs _ _ (by omega),
        Memory.readWord_writeWords_ne ws _ _ (by omega)]

end Sys2Proof.Machine
end

section
/-! An order posted while the part wakes is served as the same order taken right after WOKE (R190). -/

namespace Sys2Proof.Machine

/-! ### One order to take -/

theorem foldl_takePosted_none : ∀ (l : List Slot) (p : Part), (∀ y ∈ l, (p.head y).state ≠ .posted) →
    l.foldl (fun q y => if (q.head y).state = .posted then settle (·.takeOrder y) q else q) p = p
  | [], _, _ => rfl
  | y :: l, p, bare => by
    rw [List.foldl_cons, if_neg (bare y List.mem_cons_self)]
    exact foldl_takePosted_none l p fun z hz => bare z (List.mem_cons_of_mem _ hz)

theorem foldl_takePosted (k : Slot) : ∀ (l : List Slot) (p : Part), l.Nodup → k ∈ l → (p.head k).state = .posted →
    (∀ y, y ≠ k → (p.head y).state ≠ .posted) →
    l.foldl (fun q y => if (q.head y).state = .posted then settle (·.takeOrder y) q else q) p = settle (·.takeOrder k) p
  | [], _, _, mem, _, _ => nomatch mem
  | y :: l, p, nodup, mem, posted, alone => by
    obtain ⟨fresh, nodup⟩ := List.nodup_cons.1 nodup
    rw [List.foldl_cons]
    by_cases same : y = k
    · subst same
      rw [if_pos posted]
      have added : Part.AddsNone p (settle (·.takeOrder y) p) := settle_addsNone (f := (·.takeOrder y)) (p.takeOrder_addsNone y)
      exact foldl_takePosted_none l _ fun z hz hp => alone z (fun e => fresh (e ▸ hz)) (added.posts z hp)
    · rw [if_neg (alone y same)]
      exact foldl_takePosted k l p nodup ((List.mem_cons.1 mem).resolve_left (Ne.symm same)) posted alone

/-- With one order POSTED that order is taken. -/
theorem Part.takePosted_one {p : Part} {k : Slot} (posted : (p.head k).state = .posted) (alone : ∀ y, y ≠ k → (p.head y).state ≠ .posted) :
    p.takePosted = settle (·.takeOrder k) p :=
  foldl_takePosted k _ p (List.nodup_finRange 16) (List.mem_finRange k) posted alone

/-! ### The order's words and the WOKE row -/

/-- The part with what the wake's end `v` holds of its own, over the words `m`. -/
def Part.overlaid (p v : Part) (m : Memory) : Part := { p with
  state := v.state
  waking := v.waking
  listen := v.listen
  dwell := v.dwell
  spent := v.spent
  scroll := v.scroll
  port := { p.port with memory := m } }

theorem Part.woken_overlaid (p : Part) (w : Waking) : p.woken w = p.overlaid (p.woken w) (p.woken w).port.memory := by
  have awake := p.woken_awake w
  have form := p.woken_form w
  have dwell : (p.woken w).dwell = some (p.clock + p.cfg.dozeDwell) := by rw [form]
  unfold Part.overlaid
  rw [awake.state, awake.waking, awake.listen, dwell]
  exact form

theorem Part.overlaid_congr (p : Part) {u v : Part} (m : Memory) (hu : u.Awake) (hv : v.Awake) (dwell : u.dwell = v.dwell)
    (spent : u.spent = v.spent) (scroll : u.scroll = v.scroll) : p.overlaid u m = p.overlaid v m := by
  simp only [Part.overlaid, hu.state, hu.waking, hu.listen, hv.state, hv.waking, hv.listen, dwell, spent, scroll]

theorem Part.overlaid_storeFrom (v : Part) : ∀ (ws : List HostWord) (p : Part) (m : Memory) (n : Nat),
    (p.overlaid v m).storeFrom n ws = (p.storeFrom n ws).overlaid v (Memory.writeWords m n (ws.map (·.value)))
  | [], _, _, _ => rfl
  | w :: ws, p, m, n => Part.overlaid_storeFrom v ws (p.storeHost n w) (Memory.writeWord m n w.value) (n + 1)

/-- A row's words come behind every word of the board. -/
theorem Part.appendRow_apart {p q : Part} {n : Nat} {vs : List Word} (wf : Memory.wf p.port.memory = true) (apart : n + vs.length ≤ 480)
    (scroll : q.scroll = p.scroll) (memory : q.port.memory = Memory.writeWords p.port.memory n vs)
    (served : q.port.served = p.port.served) (clock : q.clock = p.clock) (r : Row) :
    (q.appendRow r).scroll = (p.appendRow r).scroll ∧
      (q.appendRow r).port.memory = Memory.writeWords (p.appendRow r).port.memory n vs := by
  unfold Part.appendRow
  rw [scroll, served]
  split
  · simp only [Part.writeRow, Part.storeWords, scroll, memory, clock, true_and]
    exact Memory.writeWords_comm wf n _ vs _ (by omega)
  · exact ⟨rfl, memory⟩

section
variable (p : Part) (h : OrderHead) (kind : OrderKind) (l : List HostWord)

theorem Part.overlaid_placed (v : Part) (m : Memory) : (p.overlaid v m).placed h kind l =
    (p.placed h kind l).overlaid v (Memory.writeWords m (352 + 8 * h.slot.val + 1) (l.map (·.value))) := by
  unfold Part.placed
  rw [Part.overlaid_storeFrom]
  rfl

theorem Part.placed_memory : (p.placed h kind l).port.memory =
    Memory.writeWords p.port.memory (352 + 8 * h.slot.val + 1) (l.map (·.value)) := Part.storeFrom_memory l p _

theorem Part.placed_head (y : Slot) : (p.placed h kind l).head y =
    if y = h.slot then ⟨.posted, BitVec.ofNat 5 kind.code, h.tag, 0⟩ else p.head y :=
  (Part.head_setHead _ _ _ _).trans (by rw [Part.storeFrom_head])

/-- A posted order leaves the rest of the part. -/
theorem Part.placed_keeps : (p.placed h kind l).state = p.state ∧ (p.placed h kind l).waking = p.waking ∧
    (p.placed h kind l).inputs = p.inputs ∧ (p.placed h kind l).spent = p.spent ∧ (p.placed h kind l).scroll = p.scroll ∧
    (p.placed h kind l).port.served = p.port.served ∧ (p.placed h kind l).clock = p.clock ∧ (p.placed h kind l).cfg = p.cfg ∧
    (p.placed h kind l).driverDoor = p.driverDoor := by
  unfold Part.placed
  rw [Part.storeFrom_other]
  exact ⟨rfl, rfl, rfl, rfl, rfl, rfl, rfl, rfl, rfl⟩

/-- The WOKE row and the order's words are apart. -/
theorem Part.placed_woken {p : Part} (tidy : p.tidy) {l : List HostWord} (length : l.length = 5) (w : Waking) :
    Part.woken ((p.placed h kind l).burstDone h.slot) w = ((p.woken w).placed h kind l).burstDone h.slot := by
  obtain ⟨-, -, inputs, spent, scroll, served, clock, cfg, driver⟩ := p.placed_keeps h kind l
  have slot := h.slot.isLt
  have left := Part.woken_overlaid ((p.placed h kind l).burstDone h.slot) w
  have right : ((p.woken w).placed h kind l).burstDone h.slot = Part.overlaid ((p.placed h kind l).burstDone h.slot) (p.woken w)
      (Memory.writeWords (p.woken w).port.memory (352 + 8 * h.slot.val + 1) (l.map (·.value))) := by
    have base := p.woken_overlaid w
    generalize p.woken w = v at base ⊢
    rw [base, Part.overlaid_placed, ← base]
    rfl
  obtain ⟨scrollL, memoryL⟩ := Part.woken_row ((p.placed h kind l).burstDone h.slot) w
  obtain ⟨scrollR, memoryR⟩ := p.woken_row w
  have words : ((p.placed h kind l).burstDone h.slot).port.memory = _ := p.placed_memory h kind l
  obtain ⟨scrolls, memories⟩ := Part.appendRow_apart (p := p) (q := (p.placed h kind l).burstDone h.slot) tidy.1
    (n := 352 + 8 * h.slot.val + 1) (vs := l.map (·.value)) (by rw [List.length_map]; omega) scroll words
    served clock (wokeRow p.driverDoor w.cause)
  have drivers : ((p.placed h kind l).burstDone h.slot).driverDoor = p.driverDoor := driver
  rw [drivers] at scrollL memoryL
  have dwells : (Part.woken ((p.placed h kind l).burstDone h.slot) w).dwell = (p.woken w).dwell := by
    rw [Part.woken_form, p.woken_form]
    show some ((p.placed h kind l).clock + (p.placed h kind l).cfg.dozeDwell) = some (p.clock + p.cfg.dozeDwell)
    rw [clock, cfg]
  have spents : (Part.woken ((p.placed h kind l).burstDone h.slot) w).spent = (p.woken w).spent := by
    refine PerSwitch.ext_get fun sw => ?_
    rw [Part.woken_spent, Part.woken_spent]
    show ((p.placed h kind l).spent.get sw || decide (((p.placed h kind l).inputs.get (.switch sw)).level ≠ .rest) && _) = _
    rw [spent, inputs]
    rfl
  rw [right, left, memoryL, memories, ← memoryR]
  exact Part.overlaid_congr _ _ (Part.woken_awake _ w) (p.woken_awake w) dwells spents (scrollL.trans (scrolls.trans scrollR.symm))

end

/-! ### The order served -/

theorem orderPosted_words {c : Instr} {h : OrderHead} {k : OrderKind} {ws : List HostWord} (ho : orderPosted c = some (h, k, ws)) :
    ws.length ≤ 5 := by
  cases c <;> cases ho <;> simp

/-- A part that wakes keeps a posting burst's order POSTED. -/
theorem Part.postOrder_waits {p : Part} {w : Waking} (doze : p.state = .doze) (wakes : p.waking = some w) {h : OrderHead} {kind : OrderKind}
    {ws l : List HostWord} (burst : postingBurst h kind ws = ⟨headWord 1 kind.code h.tag, h.sound⟩ :: l) (length : l.length = 5)
    (served : p.port.served = true) (free : (p.head h.slot).state = .free) :
    p.postOrder h kind ws = (p.placed h kind l).burstDone h.slot := by
  obtain ⟨state, -⟩ := p.placed_keeps h kind l
  have taken : p.burstTaken .link = p := by rw [Part.burstTaken, if_pos doze, Part.requestWake, wakes]
  have still : settle (fun q => if q.takesAtOnce then q.takeOrder h.slot else q) (p.placed h kind l) = p.placed h kind l := by
    have waits : (if (p.placed h kind l).takesAtOnce then (p.placed h kind l).takeOrder h.slot else p.placed h kind l) = p.placed h kind l :=
      if_neg (by simp [Part.takesAtOnce, state, doze])
    exact (settle_same (by rw [waits]) (by rw [waits]) (by rw [waits])).trans waits
  rw [Part.postOrder, Part.memoryWrite, taken, Part.writeBurst_posting burst length served free, still]

/-- An awake part whose dwell has just started takes a posting burst's order at once. -/
theorem Part.postOrder_takes {p : Part} (service : p.state = .service) (dwell : p.dwell = some (p.clock + p.cfg.dozeDwell)) {h : OrderHead}
    {kind : OrderKind} {ws l : List HostWord} (burst : postingBurst h kind ws = ⟨headWord 1 kind.code h.tag, h.sound⟩ :: l)
    (length : l.length = 5) (served : p.port.served = true) (free : (p.head h.slot).state = .free) :
    p.postOrder h kind ws = (settle (·.takeOrder h.slot) (p.placed h kind l)).burstDone h.slot := by
  obtain ⟨state, -⟩ := p.placed_keeps h kind l
  have taken : p.burstTaken .link = p := by
    have restarts : p.burstTaken .link = { p with dwell := some (p.clock + p.cfg.dozeDwell) } := by
      rw [Part.burstTaken, if_neg (by simp [service]), Part.activity, if_pos (by simp [Part.inService, service])]
      rfl
    rw [restarts, ← dwell]
  have takes : settle (fun q => if q.takesAtOnce then q.takeOrder h.slot else q) (p.placed h kind l) =
      settle (·.takeOrder h.slot) (p.placed h kind l) :=
    settle_from (if_pos (by simp [Part.takesAtOnce, state, service])) rfl rfl rfl
  rw [Part.postOrder, Part.memoryWrite, taken, Part.writeBurst_posting burst length served free, takes]

set_option Elab.async false in -- the declarations above are finished first: this bounds the memory of the one text
/-- An order posted while the part wakes waits in its slot and is taken after WOKE (R190). -/
theorem servedAfterWoke_order {s : State} {w : Waking} (doze : s.part.state = .doze) (wakes : s.part.waking = some w) (held : w.held = [])
    (reset : w.resetHeld = false) (bare : ∀ k, (s.part.head k).state ≠ .posted) (crash : w.crashHeld = false) (tidy : s.part.tidy)
    {c : Instr} {h : OrderHead} {k : OrderKind} {ws : List HostWord} (posted : orderPosted c = some (h, k, ws))
    (served : s.part.port.served = true) (free : (s.part.head h.slot).state = .free) : ServedAfterWoke s c := by
  refine servedAfterWoke_of (exec_order posted) ?_
  obtain ⟨l, burst, length, -⟩ := postingBurst_eq h k ws (orderPosted_words posted)
  obtain ⟨state, waking, -⟩ := s.part.placed_keeps h k l
  have form := s.part.woken_form w
  have wakes' : ((s.part.placed h k l).burstDone h.slot).waking = some w := waking.trans wakes
  have doze' : ((s.part.placed h k l).burstDone h.slot).state = .doze := state.trans doze
  have dwell : (s.part.woken w).dwell = some ((s.part.woken w).clock + (s.part.woken w).cfg.dozeDwell) := by rw [form]
  have served' : (s.part.woken w).port.served = true := by rw [form]; exact served
  have free' : ((s.part.woken w).head h.slot).state = .free := by rw [form]; exact free
  have heads (y : Slot) : (((s.part.woken w).placed h k l).burstDone h.slot).head y =
      if y = h.slot then ⟨.posted, BitVec.ofNat 5 k.code, h.tag, 0⟩ else s.part.head y := by
    refine ((s.part.woken w).placed_head h k l y).trans ?_
    rw [Part.head, Part.head, s.part.woken_heads w]
  have alone (y : Slot) (other : y ≠ h.slot) : ((((s.part.woken w).placed h k l).burstDone h.slot).head y).state ≠ .posted := by
    rw [heads, if_neg other]
    exact bare y
  have one : ((((s.part.woken w).placed h k l).burstDone h.slot).head h.slot).state = .posted := by rw [heads, if_pos rfl]
  have woke : Part.served ((s.part.woken w).placed h k l |>.burstDone h.slot) w = ((s.part.woken w).placed h k l).burstDone h.slot := by
    rw [Part.served, held, if_neg (by simp [crash])]
    rfl
  rw [Part.wake_calm doze wakes held reset crash bare, Part.postOrder_takes (s.part.woken_awake w).state dwell burst length served' free',
    Part.postOrder_waits doze wakes burst length served free, Part.wake_eq doze' wakes', if_neg (by simp [reset]),
    Part.placed_woken h k tidy length w, woke, Part.takePosted_one one alone]
  exact settle_pointed (f := (·.takeOrder h.slot)) _ _ (Part.takeOrder_pointed _ _ _)

/-- Settles O28: DOZE is entered where the part may rest, WOKE leaves it, and what was held is served as though it came after WOKE. -/
theorem dozeIsEnteredAtRestAndLeftByWoke : Obligations.DozeIsEnteredAtRestAndLeftByWoke := fun s =>
  ⟨completes_dozeEntry, exec_dozeDwell, fun _ => exec_listenWindow, fun _ => completes_woke,
    fun _ doze wakes held reset bare tidy => ⟨fun crash => by
      have crashed := completes_wokeCrash doze wakes held reset bare crash
      rw [Part.nextLatch] at crashed
      cases latch : s.part.crash.latch <;> rw [latch] at crashed <;> exact crashed, fun crash =>
      ⟨completes_wokeAlone doze wakes held reset bare tidy crash,
        fun _ _ _ => servedAfterWoke_input doze wakes held reset bare crash,
        fun _ _ _ _ => servedAfterWoke_order doze wakes held reset bare crash tidy,
        fun _ ⟨t, runs, keeps⟩ => servedAfterWoke_frame doze wakes held reset bare crash (by
          cases runs
          exact keeps)⟩⟩⟩

end Sys2Proof.Machine
end
